-- ==== Sys2Proof/Word.lean ====
section
/-!
DEFINITION. The words of the machine and the plain widths its manual names: 64-bit general registers (R203), 32-bit
cells (R207), bytes of memory (R9), and the sparse tables in which every register file and memory is kept.
-/
namespace Sys2Proof

/-- A 64-bit general register (R203). -/
abbrev Word := BitVec 64
/-- A 32-bit matrix cell, accumulator lane or slot lane (R207, R179). -/
abbrev Cell := BitVec 32
/-- A byte of memory (R9). -/
abbrev Byte := BitVec 8
/-- A register number in a 6-bit field (R52, R56). -/
abbrev Reg := BitVec 6

/-- A table from numbers to values that lists only the keys whose value differs from the table's default,
keys strictly rising. Every register file, store and memory of the model is one. -/
abbrev Sparse (α : Type) := List (Nat × α)

end Sys2Proof
end

