-- ==== Sys2Proof/Syntax.lean ====
section
/-!
DEFINITION. The instructions and events of the machine: one constructor of `Instr` per row of the opcode table.
Rows with an encoding hold the operand fields of their encoding (R47 to R68). Rows without one are the device's own
steps and the inputs from outside; which unit such a step belongs to, and what the outside sent, stand in `EvArg`.
-/
namespace Sys2Proof

/-- The four engines of a core (R49); tag S is no engine but the shared walk. -/
inductive Eng where
  | c | a | v | w
deriving DecidableEq, Repr

/-- Header, token field, guard and rounding mode of an instruction tagged for one engine (R48, R53).
In the 32-bit form the token field, guard and rounding mode are absent and stand here as zero (R52). -/
structure Hdr where
  eng : Eng
  gap : BitVec 2
  sw : Bool
  /-- Bit 3 c, 2 a, 1 v, 0 w. -/
  pop : BitVec 4
  push : BitVec 4
  guard : BitVec 6
  rm : BitVec 2
deriving DecidableEq, Repr

/-- Header of an S-tagged instruction: it has no token field, guard or rounding mode (R54). -/
structure SHdr where
  gap : BitVec 2
  sw : Bool
deriving DecidableEq, Repr

/-- The field src2 of layout G (R56, R57). -/
inductive Src2 where
  | reg (r : Reg)
  | imm (i : BitVec 14)
  | lit (l : BitVec 32)
deriving DecidableEq, Repr

/-- src2 of layout G where a register is not admitted. -/
inductive Imm where
  | imm (i : BitVec 14)
  | lit (l : BitVec 32)
deriving DecidableEq, Repr

/-- The trip count of LOOP (R372). -/
inductive LoopCount where
  | reg (r : Reg)
  | imm (i : BitVec 14)
deriving DecidableEq, Repr

/-- The system register number of SYSR and SYSW (R419). -/
inductive SysNum where
  | reg (r : Reg)
  | num (i : BitVec 14)
deriving DecidableEq, Repr

/-- The directions of a matrix operand (R58). -/
inductive View where
  | tile | row | col | dia
deriving DecidableEq, Repr

/-- A 13-bit matrix operand (R58). -/
structure MOp where
  reg : BitVec 5
  view : View
  idx : BitVec 6
deriving DecidableEq, Repr

/-- src2 of layout M: a matrix operand or the literal (R57). -/
inductive VSrc where
  | mat (m : MOp)
  | lit (l : BitVec 32)
deriving DecidableEq, Repr

/-- The amount of a rotation or broadcast (R242, R243). -/
inductive AmtSrc where
  | reg (r : Reg)
  | lit (l : BitVec 32)
deriving DecidableEq, Repr

/-- The segment list of MLD and MST: one segment, the literal, or a register (R187). -/
inductive SegSrc where
  | one
  | lit (l : BitVec 32)
  | reg (r : Reg)
deriving DecidableEq, Repr

/-- Element types, in the order of their codes (R59). -/
inductive Ty where
  | f32 | bf16 | f16 | e4m3 | e5m2 | e3m2 | e2m3 | e2m1 | mq4
  | s4 | s8 | s16 | s32 | s64 | z4 | z8 | z16 | z32 | z64
deriving DecidableEq, Repr

/-- Scopes of REL, ACQ, FENCE and the atomics, in the order of their codes (R62). -/
inductive Scope where
  | core | clu | die | pkg | sys
deriving DecidableEq, Repr

/-- Package core number, 64 x die + core on die (R332). -/
abbrev CoreId := BitVec 8
abbrev DieId := BitVec 2
/-- Package stack number; die d owns 2d and 2d + 1 (R98). -/
abbrev StackId := BitVec 3
/-- Cluster number within a die (R332). -/
abbrev ClusterId := BitVec 3

/-- What the check bits of DRAM found at a read or a scrub (R115, R116). -/
inductive DramErr where
  | corrected
  | uncorrectable
deriving DecidableEq, Repr

/-- What an uncorrectable soft error struck in the storage of a core, or of the image in its shadow store (R431). -/
inductive CoreErr where
  /-- A general register. -/
  | greg (r : Reg)
  /-- A matrix cell, numbered 1024 x register + 64 x row + column. -/
  | cell (k : Nat)
  /-- A scratchpad byte of the live plane; one of the attic. -/
  | near (k : Nat)
  | attic (k : Nat)
  /-- An accumulator lane, numbered 512 x row + lane. -/
  | acc (k : Nat)
  /-- A slot lane, numbered 512 x selector + lane. -/
  | slot (k : Nat)
  /-- A lease bank element, numbered 256 x row + column. -/
  | bank (k : Nat)
  /-- Data of a store-log record. -/
  | log (n : Nat)
  /-- A system register, by number. -/
  | sys (n : Nat)
  /-- The stripe registers. -/
  | stripe
  /-- An engine's own state: counters, queues, fills of the access engine. -/
  | engine (e : Eng)
  /-- A queued command of the copy, weight-code or lease queue, by its number. -/
  | command (id : Nat)
  /-- An entry of the probe tag table. -/
  | probeTag (n : Nat)
  /-- An index register. -/
  | kreg (n : Nat)
  /-- A result in the landing buffer, by its place. -/
  | landing (n : Nat)
  /-- The trap frame. -/
  | frame
deriving DecidableEq, Repr

/-- Where an uncorrectable SRAM soft error struck (R431). -/
inductive SramErr where
  /-- An L1 line of a core. -/
  | l1 (c : CoreId) (line : Nat)
  /-- An L2 line that differs from DRAM only by being dirty or clean. -/
  | l2 (die : DieId) (slice : Nat) (line : Nat)
  /-- A code-cache page. -/
  | code (die : DieId) (page : Nat)
  /-- A code-buffer page of a core. -/
  | codeBuf (c : CoreId) (page : Nat)
  /-- A TLB entry of a core. -/
  | tlb (c : CoreId) (n : Nat)
  /-- An entry of the TLB of a die's shared engine, by its FIFO. -/
  | engineTlb (die : DieId) (fifo : Nat) (n : Nat)
  /-- A walk-cache entry of a die. -/
  | walk (die : DieId) (n : Nat)
  /-- A mask-cache chunk of a die. -/
  | mask (die : DieId) (n : Nat)
  /-- Storage of a core; of the context image in its shadow store. -/
  | core (c : CoreId) (e : CoreErr)
  | shadow (c : CoreId) (e : CoreErr)
  /-- A command, or a result element, of a window FIFO, by its place. -/
  | fifoCmd (die : DieId) (fifo : Nat) (n : Nat)
  | fifoRes (die : DieId) (fifo : Nat) (n : Nat)
  /-- A sequence slot of a die's sampler, by its handle. -/
  | seqSlot (die : DieId) (handle : Nat)
  /-- The state of a collective under way, by its place, or of a die's sampling run. -/
  | collective (die : DieId) (n : Nat)
  | sampleRun (die : DieId)
  /-- A decoder's ring, by its place; a page migration under way; a miss in the walk queue, by its place. -/
  | ring (die : DieId) (dec : Nat) (n : Nat)
  | migration (die : DieId) (n : Nat)
  | walkReq (die : DieId) (n : Nat)
  /-- A promotion tag of a stack's subarray (R103). -/
  | promo (stack : StackId) (sub : Nat) (n : Nat)
deriving DecidableEq, Repr

/-- What a collective peer sends for one step (R449): what makes the two commands members of one collective (tag, group table, kind; the
chunk gives its size), the sender's rank and the step. -/
structure PeerMsg where
  tag : BitVec 32
  group : List (Nat × Nat) := []
  kind : Nat := 0
  rank : Nat := 0
  step : Nat
  data : List Byte
deriving DecidableEq, Repr

/-- An access of a neighbour to this package's lent window (R445, R446). -/
structure LentReq where
  device : Nat
  offset : Nat
  len : Nat
  /-- The bytes of a store; none for a load. -/
  store : Option (List Byte)
deriving DecidableEq, Repr

/-- What the routing of a flit needs (R443, R444). -/
structure Flit where
  src : Nat
  dst : Nat
  crcGood : Bool
  body : Option LentReq
deriving DecidableEq, Repr

/-- What an event is about: the unit whose step it is, and what the outside world sent. Each event reads only the
fields its own meaning names. -/
structure EvArg where
  core : CoreId := 0
  die : DieId := 0
  stack : StackId := 0
  cluster : ClusterId := 0
  /-- A count, a position in a list, a slice, a fabric port, a decoder or a queue, as the event says. -/
  n : Nat := 0
  /-- A physical address, an offset in a management block, or a reason code. -/
  addr : Nat := 0
  /-- Length of a host read, the new tail of a doorbell, or power in milliwatts. -/
  len : Nat := 0
  /-- Value a management register write carries. -/
  value : Word := 0
  /-- A stack's answer to a heartbeat. -/
  ready : Bool := false
  bytes : List Byte := []
  dramErr : Option DramErr := none
  sramErr : Option SramErr := none
  peer : PeerMsg := { tag := 0, step := 0, data := [] }
  lent : LentReq := { device := 0, offset := 0, len := 0, store := none }
  flit : Flit := { src := 0, dst := 0, crcGood := true, body := none }
deriving DecidableEq, Repr

/-- The operations and events of the machine, one constructor per row of the opcode table. -/
inductive Instr where
  /-- NOP (R64). -/
  | nop (h : Hdr)
  /-- ADD (R216). -/
  | add (h : Hdr) (d a : Reg) (b : BitVec 4)
  /-- ADD_LONG (R216). -/
  | addLong (h : Hdr) (d a : Reg) (s : Src2)
  /-- SUB (R216). -/
  | sub (h : Hdr) (d a : Reg) (b : BitVec 4)
  /-- SUB_LONG (R216). -/
  | subLong (h : Hdr) (d a : Reg) (s : Src2)
  /-- MUL (R216). -/
  | mul (h : Hdr) (d a : Reg) (b : BitVec 4)
  /-- MUL_LONG (R216). -/
  | mulLong (h : Hdr) (d a : Reg) (s : Src2)
  /-- MULH_S (R216). -/
  | mulhS (h : Hdr) (d a : Reg) (b : BitVec 4)
  /-- MULH_S_LONG (R216). -/
  | mulhSLong (h : Hdr) (d a : Reg) (s : Src2)
  /-- MULH_Z (R216). -/
  | mulhZ (h : Hdr) (d a : Reg) (b : BitVec 4)
  /-- MULH_Z_LONG (R216). -/
  | mulhZLong (h : Hdr) (d a : Reg) (s : Src2)
  /-- DIV_S (R217). -/
  | divS (h : Hdr) (d a : Reg) (b : BitVec 4)
  /-- DIV_S_LONG (R217). -/
  | divSLong (h : Hdr) (d a : Reg) (s : Src2)
  /-- DIV_Z (R217). -/
  | divZ (h : Hdr) (d a : Reg) (b : BitVec 4)
  /-- DIV_Z_LONG (R217). -/
  | divZLong (h : Hdr) (d a : Reg) (s : Src2)
  /-- REM_S (R217). -/
  | remS (h : Hdr) (d a : Reg) (b : BitVec 4)
  /-- REM_S_LONG (R217). -/
  | remSLong (h : Hdr) (d a : Reg) (s : Src2)
  /-- REM_Z (R217). -/
  | remZ (h : Hdr) (d a : Reg) (b : BitVec 4)
  /-- REM_Z_LONG (R217). -/
  | remZLong (h : Hdr) (d a : Reg) (s : Src2)
  /-- AND (R216). -/
  | and64 (h : Hdr) (d a : Reg) (b : BitVec 4)
  /-- AND_LONG (R216). -/
  | and64Long (h : Hdr) (d a : Reg) (s : Src2)
  /-- OR (R216). -/
  | or64 (h : Hdr) (d a : Reg) (b : BitVec 4)
  /-- OR_LONG (R216). -/
  | or64Long (h : Hdr) (d a : Reg) (s : Src2)
  /-- XOR (R216). -/
  | xor64 (h : Hdr) (d a : Reg) (b : BitVec 4)
  /-- XOR_LONG (R216). -/
  | xor64Long (h : Hdr) (d a : Reg) (s : Src2)
  /-- SHL (R216). -/
  | shl (h : Hdr) (d a : Reg) (b : BitVec 4)
  /-- SHL_LONG (R216). -/
  | shlLong (h : Hdr) (d a : Reg) (s : Src2)
  /-- SHR_S (R216). -/
  | shrS (h : Hdr) (d a : Reg) (b : BitVec 4)
  /-- SHR_S_LONG (R216). -/
  | shrSLong (h : Hdr) (d a : Reg) (s : Src2)
  /-- SHR_Z (R216). -/
  | shrZ (h : Hdr) (d a : Reg) (b : BitVec 4)
  /-- SHR_Z_LONG (R216). -/
  | shrZLong (h : Hdr) (d a : Reg) (s : Src2)
  /-- ROT (R216). -/
  | rot (h : Hdr) (d a : Reg) (b : BitVec 4)
  /-- ROT_LONG (R216). -/
  | rotLong (h : Hdr) (d a : Reg) (s : Src2)
  /-- MIN_S (R216). -/
  | minS (h : Hdr) (d a : Reg) (b : BitVec 4)
  /-- MIN_S_LONG (R216). -/
  | minSLong (h : Hdr) (d a : Reg) (s : Src2)
  /-- MIN_Z (R216). -/
  | minZ (h : Hdr) (d a : Reg) (b : BitVec 4)
  /-- MIN_Z_LONG (R216). -/
  | minZLong (h : Hdr) (d a : Reg) (s : Src2)
  /-- MAX_S (R216). -/
  | maxS (h : Hdr) (d a : Reg) (b : BitVec 4)
  /-- MAX_S_LONG (R216). -/
  | maxSLong (h : Hdr) (d a : Reg) (s : Src2)
  /-- MAX_Z (R216). -/
  | maxZ (h : Hdr) (d a : Reg) (b : BitVec 4)
  /-- MAX_Z_LONG (R216). -/
  | maxZLong (h : Hdr) (d a : Reg) (s : Src2)
  /-- CLZ (R218). -/
  | clz (h : Hdr) (d a : Reg)
  /-- CLZ_LONG (R218). -/
  | clzLong (h : Hdr) (d a : Reg)
  /-- POPC (R218). -/
  | popc (h : Hdr) (d a : Reg)
  /-- POPC_LONG (R218). -/
  | popcLong (h : Hdr) (d a : Reg)
  /-- EXT_S (R219). -/
  | extS (h : Hdr) (d a : Reg) (s : Src2)
  /-- EXT_Z (R219). -/
  | extZ (h : Hdr) (d a : Reg) (s : Src2)
  /-- INS (R219). -/
  | ins (h : Hdr) (d a : Reg) (s : Src2)
  /-- SEQ (R216). -/
  | seq (h : Hdr) (d a : Reg) (b : BitVec 4)
  /-- SEQ_LONG (R216). -/
  | seqLong (h : Hdr) (d a : Reg) (s : Src2)
  /-- SLT_S (R216). -/
  | sltS (h : Hdr) (d a : Reg) (b : BitVec 4)
  /-- SLT_S_LONG (R216). -/
  | sltSLong (h : Hdr) (d a : Reg) (s : Src2)
  /-- SLT_Z (R216). -/
  | sltZ (h : Hdr) (d a : Reg) (b : BitVec 4)
  /-- SLT_Z_LONG (R216). -/
  | sltZLong (h : Hdr) (d a : Reg) (s : Src2)
  /-- SEL (R216). -/
  | sel (h : Hdr) (d a : Reg) (b : BitVec 4)
  /-- SEL_LONG (R216). -/
  | selLong (h : Hdr) (d a : Reg) (s : Src2)
  /-- LI (R220). -/
  | li (h : Hdr) (d : Reg) (i : BitVec 10)
  /-- LI_LONG (R220). -/
  | liLong (h : Hdr) (d : Reg) (shift : BitVec 6) (i : Imm)
  /-- MOV (R221). -/
  | mov (h : Hdr) (d a : Reg) (m : BitVec 4)
  /-- MOV_LONG (R221). -/
  | movLong (h : Hdr) (d a : Reg) (m : BitVec 4) (wide : Bool)
  /-- B_EQ (R373). -/
  | bEq (h : SHdr) (b a : Reg) (dec : Eng) (lv : Bool) (t : Imm)
  /-- B_NE (R373). -/
  | bNe (h : SHdr) (b a : Reg) (dec : Eng) (lv : Bool) (t : Imm)
  /-- B_LT_S (R373). -/
  | bLtS (h : SHdr) (b a : Reg) (dec : Eng) (lv : Bool) (t : Imm)
  /-- B_LT_Z (R373). -/
  | bLtZ (h : SHdr) (b a : Reg) (dec : Eng) (lv : Bool) (t : Imm)
  /-- B_GE_S (R373). -/
  | bGeS (h : SHdr) (b a : Reg) (dec : Eng) (lv : Bool) (t : Imm)
  /-- B_GE_Z (R373). -/
  | bGeZ (h : SHdr) (b a : Reg) (dec : Eng) (lv : Bool) (t : Imm)
  /-- J (R373). -/
  | jmp (h : SHdr) (t : Imm)
  /-- JL (R373). -/
  | jl (h : SHdr) (d : Reg) (t : Imm)
  /-- JR (R374). -/
  | jr (h : SHdr) (a : Reg) (dec : Eng)
  /-- LOOP (R375). -/
  | loop (h : SHdr) (dist : BitVec 12) (n : BitVec 3) (cnt : LoopCount)
  /-- SYNCPC (R379). -/
  | syncpc (h : SHdr)
  /-- SYNCPC_LONG (R379). -/
  | syncpcLong (h : SHdr)
  /-- SYNCPC_D (R380). -/
  | syncpcD (h : SHdr) (mask : BitVec 8)
  /-- SYNCPC_D_LONG (R380). -/
  | syncpcDLong (h : SHdr) (mask : BitVec 8)
  /-- TPOP (R369). -/
  | tpop (h : Hdr) (q : BitVec 4)
  /-- TPSH (R369). -/
  | tpsh (h : Hdr) (q : BitVec 4)
  /-- QCANCEL (R370). -/
  | qcancel (h : Hdr) (q : BitVec 4)
  /-- SLACK (R388). -/
  | slack (h : Hdr) (s : Src2)
  /-- SLACK_W (R388). -/
  | slackW (h : Hdr) (s : Src2)
  /-- TRAP (R420). -/
  | trap (h : Hdr) (i : BitVec 10)
  /-- SYSCALL (R420). -/
  | syscall (h : Hdr) (i : BitVec 10)
  /-- ERET (R421). -/
  | eret (h : Hdr)
  /-- SYSR (R422). -/
  | sysr (h : Hdr) (d : Reg) (n : SysNum)
  /-- SYSW (R423). -/
  | sysw (h : Hdr) (a : Reg) (n : SysNum)
  /-- LDOVT (R424). -/
  | ldovt (h : Hdr) (a : Reg)
  /-- HALT (R425). -/
  | halt (h : Hdr)
  /-- LD (R184). -/
  | ld (h : Hdr) (d a : Reg) (t : Ty) (s : Src2)
  /-- LD_LN (R184). -/
  | ldLn (h : Hdr) (d a : Reg) (t : Ty) (s : Src2)
  /-- ST (R184). -/
  | st (h : Hdr) (d a : Reg) (t : Ty) (s : Src2)
  /-- ST_LN (R184). -/
  | stLn (h : Hdr) (d a : Reg) (t : Ty) (s : Src2)
  /-- MLD (R189). -/
  | mld (h : Hdr) (d : MOp) (a : Reg) (t : Ty) (s : SegSrc)
  /-- MLD_LN (R189). -/
  | mldLn (h : Hdr) (d : MOp) (a : Reg) (t : Ty) (s : SegSrc)
  /-- MST (R189). -/
  | mst (h : Hdr) (d : MOp) (a : Reg) (t : Ty) (s : SegSrc)
  /-- MST_LN (R189). -/
  | mstLn (h : Hdr) (d : MOp) (a : Reg) (t : Ty) (s : SegSrc)
  /-- PROBE (R193). -/
  | probe (h : Hdr) (d a : Reg) (s : Src2)
  /-- PROBE_LN (R193). -/
  | probeLn (h : Hdr) (d a : Reg) (s : Src2)
  /-- COPY (R151). -/
  | copy (h : Hdr) (d a : Reg) (s : Src2)
  /-- COPY_LN (R148). -/
  | copyLn (h : Hdr) (d a : Reg) (s : Src2)
  /-- PUSHE (R145). -/
  | pushe (h : Hdr) (a : Reg) (s : Src2)
  /-- PUSHE_T (R145). -/
  | pusheT (h : Hdr) (d a : Reg) (s : Src2)
  /-- POPE (R146). -/
  | pope (h : Hdr) (d : Reg) (s : Src2)
  /-- POPE_T (R146). -/
  | popeT (h : Hdr) (d a : Reg) (s : Src2)
  /-- SETTLE (R353). -/
  | settle (h : Hdr) (code : Bool)
  /-- SETTLE_LONG (R353). -/
  | settleLong (h : Hdr) (code : Bool)
  /-- PROMOTE (R110). -/
  | promote (h : Hdr) (a : Reg) (s : Src2)
  /-- PROMOTE_H (R110). -/
  | promoteH (h : Hdr) (a : Reg) (s : Src2)
  /-- DEMOTE (R110). -/
  | demote (h : Hdr) (a : Reg) (s : Src2)
  /-- REL_CORE (R350). -/
  | relCore (h : Hdr)
  /-- REL_CORE_LONG (R350). -/
  | relCoreLong (h : Hdr)
  /-- REL_CLU (R350). -/
  | relClu (h : Hdr)
  /-- REL_CLU_LONG (R350). -/
  | relCluLong (h : Hdr)
  /-- REL_DIE (R350). -/
  | relDie (h : Hdr)
  /-- REL_DIE_LONG (R350). -/
  | relDieLong (h : Hdr)
  /-- REL_PKG (R350). -/
  | relPkg (h : Hdr)
  /-- REL_PKG_LONG (R350). -/
  | relPkgLong (h : Hdr)
  /-- REL_SYS (R350). -/
  | relSys (h : Hdr)
  /-- REL_SYS_LONG (R350). -/
  | relSysLong (h : Hdr)
  /-- ACQ_CORE (R351). -/
  | acqCore (h : Hdr) (a : Reg)
  /-- ACQ_CORE_LONG (R351). -/
  | acqCoreLong (h : Hdr) (a : Reg)
  /-- ACQ_CLU (R351). -/
  | acqClu (h : Hdr) (a : Reg)
  /-- ACQ_CLU_LONG (R351). -/
  | acqCluLong (h : Hdr) (a : Reg)
  /-- ACQ_DIE (R351). -/
  | acqDie (h : Hdr) (a : Reg)
  /-- ACQ_DIE_LONG (R351). -/
  | acqDieLong (h : Hdr) (a : Reg)
  /-- ACQ_PKG (R351). -/
  | acqPkg (h : Hdr) (a : Reg)
  /-- ACQ_PKG_LONG (R351). -/
  | acqPkgLong (h : Hdr) (a : Reg)
  /-- ACQ_SYS (R351). -/
  | acqSys (h : Hdr) (a : Reg)
  /-- ACQ_SYS_LONG (R351). -/
  | acqSysLong (h : Hdr) (a : Reg)
  /-- FENCE_CORE (R352). -/
  | fenceCore (h : Hdr)
  /-- FENCE_CORE_LONG (R352). -/
  | fenceCoreLong (h : Hdr)
  /-- FENCE_CLU (R352). -/
  | fenceClu (h : Hdr)
  /-- FENCE_CLU_LONG (R352). -/
  | fenceCluLong (h : Hdr)
  /-- FENCE_DIE (R352). -/
  | fenceDie (h : Hdr)
  /-- FENCE_DIE_LONG (R352). -/
  | fenceDieLong (h : Hdr)
  /-- FENCE_PKG (R352). -/
  | fencePkg (h : Hdr)
  /-- FENCE_PKG_LONG (R352). -/
  | fencePkgLong (h : Hdr)
  /-- FENCE_SYS (R352). -/
  | fenceSys (h : Hdr)
  /-- FENCE_SYS_LONG (R352). -/
  | fenceSysLong (h : Hdr)
  /-- AADD (R198). -/
  | aadd (h : Hdr) (sc : Scope) (d a : Reg) (t : Ty) (s : Src2)
  /-- AMIN (R198). -/
  | amin (h : Hdr) (sc : Scope) (d a : Reg) (t : Ty) (s : Src2)
  /-- AMAX (R198). -/
  | amax (h : Hdr) (sc : Scope) (d a : Reg) (t : Ty) (s : Src2)
  /-- AOR (R198). -/
  | aor (h : Hdr) (sc : Scope) (d a : Reg) (t : Ty) (s : Src2)
  /-- AAND (R198). -/
  | aand (h : Hdr) (sc : Scope) (d a : Reg) (t : Ty) (s : Src2)
  /-- AXCHG (R198). -/
  | axchg (h : Hdr) (sc : Scope) (d a : Reg) (t : Ty) (s : Src2)
  /-- ACAS (R198). -/
  | acas (h : Hdr) (sc : Scope) (d a : Reg) (t : Ty) (s : Src2)
  /-- AADD_N (R198). -/
  | aaddN (h : Hdr) (sc : Scope) (a : Reg) (t : Ty) (s : Src2)
  /-- AMIN_N (R198). -/
  | aminN (h : Hdr) (sc : Scope) (a : Reg) (t : Ty) (s : Src2)
  /-- AMAX_N (R198). -/
  | amaxN (h : Hdr) (sc : Scope) (a : Reg) (t : Ty) (s : Src2)
  /-- AOR_N (R198). -/
  | aorN (h : Hdr) (sc : Scope) (a : Reg) (t : Ty) (s : Src2)
  /-- AAND_N (R198). -/
  | aandN (h : Hdr) (sc : Scope) (a : Reg) (t : Ty) (s : Src2)
  /-- VADD (R232). -/
  | vadd (h : Hdr) (d a : MOp) (t : Ty) (s : VSrc)
  /-- VSUB (R232). -/
  | vsub (h : Hdr) (d a : MOp) (t : Ty) (s : VSrc)
  /-- VMUL (R232). -/
  | vmul (h : Hdr) (d a : MOp) (t : Ty) (s : VSrc)
  /-- VFMA (R232). -/
  | vfma (h : Hdr) (d a : MOp) (t : Ty) (s : VSrc)
  /-- VMIN (R232). -/
  | vmin (h : Hdr) (d a : MOp) (t : Ty) (s : VSrc)
  /-- VMAX (R232). -/
  | vmax (h : Hdr) (d a : MOp) (t : Ty) (s : VSrc)
  /-- VABS (R232). -/
  | vabs (h : Hdr) (d a : MOp) (t : Ty)
  /-- VNEG (R232). -/
  | vneg (h : Hdr) (d a : MOp) (t : Ty)
  /-- VAND (R235). -/
  | vand (h : Hdr) (d a : MOp) (t : Ty) (s : VSrc)
  /-- VOR (R235). -/
  | vor (h : Hdr) (d a : MOp) (t : Ty) (s : VSrc)
  /-- VXOR (R235). -/
  | vxor (h : Hdr) (d a : MOp) (t : Ty) (s : VSrc)
  /-- VSHL (R234). -/
  | vshl (h : Hdr) (d a : MOp) (t : Ty) (s : VSrc)
  /-- VSHR (R234). -/
  | vshr (h : Hdr) (d a : MOp) (t : Ty) (s : VSrc)
  /-- VCVT (R238). -/
  | vcvt (h : Hdr) (d a : MOp) (t t2 : Ty) (g : Reg)
  /-- VPACK (R240). -/
  | vpack (h : Hdr) (d a : MOp) (t t2 : Ty)
  /-- VUNPACK (R241). -/
  | vunpack (h : Hdr) (d a : MOp) (t t2 : Ty)
  /-- VCMP_EQ (R236). -/
  | vcmpEq (h : Hdr) (d a : MOp) (t : Ty) (s : VSrc)
  /-- VCMP_NE (R236). -/
  | vcmpNe (h : Hdr) (d a : MOp) (t : Ty) (s : VSrc)
  /-- VCMP_LT (R236). -/
  | vcmpLt (h : Hdr) (d a : MOp) (t : Ty) (s : VSrc)
  /-- VCMP_LE (R236). -/
  | vcmpLe (h : Hdr) (d a : MOp) (t : Ty) (s : VSrc)
  /-- VSEL (R237). -/
  | vsel (h : Hdr) (d a : MOp) (s : VSrc)
  /-- VROTR (R242). -/
  | vrotr (h : Hdr) (d a : MOp) (s : AmtSrc)
  /-- VROTC (R242). -/
  | vrotc (h : Hdr) (d a : MOp) (s : AmtSrc)
  /-- VBCR (R243). -/
  | vbcr (h : Hdr) (d a : MOp) (s : AmtSrc)
  /-- VBCC (R243). -/
  | vbcc (h : Hdr) (d a : MOp) (s : AmtSrc)
  /-- VREDR_ADD (R244). -/
  | vredrAdd (h : Hdr) (d a : MOp) (t : Ty)
  /-- VREDR_MAX (R244). -/
  | vredrMax (h : Hdr) (d a : MOp) (t : Ty)
  /-- VREDR_MIN (R244). -/
  | vredrMin (h : Hdr) (d a : MOp) (t : Ty)
  /-- VREDR_AMAX (R244). -/
  | vredrAmax (h : Hdr) (d a : MOp) (t : Ty)
  /-- VREDC_ADD (R244). -/
  | vredcAdd (h : Hdr) (d a : MOp) (t : Ty)
  /-- VREDC_MAX (R244). -/
  | vredcMax (h : Hdr) (d a : MOp) (t : Ty)
  /-- VREDC_MIN (R244). -/
  | vredcMin (h : Hdr) (d a : MOp) (t : Ty)
  /-- VREDC_AMAX (R244). -/
  | vredcAmax (h : Hdr) (d a : MOp) (t : Ty)
  /-- VEXP (R245). -/
  | vexp (h : Hdr) (d a : MOp) (t : Ty)
  /-- VLOG (R245). -/
  | vlog (h : Hdr) (d a : MOp) (t : Ty)
  /-- VRCP (R245). -/
  | vrcp (h : Hdr) (d a : MOp) (t : Ty)
  /-- VRSQ (R245). -/
  | vrsq (h : Hdr) (d a : MOp) (t : Ty)
  /-- VSIN (R245). -/
  | vsin (h : Hdr) (d a : MOp) (t : Ty)
  /-- VCOS (R245). -/
  | vcos (h : Hdr) (d a : MOp) (t : Ty)
  /-- VTANH (R245). -/
  | vtanh (h : Hdr) (d a : MOp) (t : Ty)
  /-- VADD_SAT (R233). -/
  | vaddSat (h : Hdr) (d a : MOp) (t : Ty) (s : VSrc)
  /-- VSUB_SAT (R233). -/
  | vsubSat (h : Hdr) (d a : MOp) (t : Ty) (s : VSrc)
  /-- VMUL_SAT (R233). -/
  | vmulSat (h : Hdr) (d a : MOp) (t : Ty) (s : VSrc)
  /-- VFMA_SAT (R233). -/
  | vfmaSat (h : Hdr) (d a : MOp) (t : Ty) (s : VSrc)
  /-- VABS_SAT (R233). -/
  | vabsSat (h : Hdr) (d a : MOp) (t : Ty)
  /-- VNEG_SAT (R233). -/
  | vnegSat (h : Hdr) (d a : MOp) (t : Ty)
  /-- VSHL_SAT (R234). -/
  | vshlSat (h : Hdr) (d a : MOp) (t : Ty) (s : VSrc)
  /-- WCALL (R256). -/
  | wcall (h : Hdr) (a : Reg) (s : Src2)
  /-- WSTRIPE (R254). -/
  | wstripe (h : Hdr) (a : Reg) (t : Ty) (s : Src2)
  /-- WZERO (R255). -/
  | wzero (h : Hdr) (s : Src2)
  /-- WDRAIN (R257). -/
  | wdrain (h : Hdr) (d : Reg) (st : Ty) (t : Ty) (s : Src2)
  /-- LACQ (R291). -/
  | lacq (h : Hdr) (s : Src2)
  /-- LACQ_T (R291). -/
  | lacqT (h : Hdr) (d : Reg) (s : Src2)
  /-- LREL (R292). -/
  | lrel (h : Hdr)
  /-- LCFG (R293). -/
  | lcfg (h : Hdr) (a : Reg) (s : Src2)
  /-- LMM (R295). -/
  | lmm (h : Hdr) (a : Reg) (s : Src2)
  /-- LMM_A (R295). -/
  | lmmA (h : Hdr) (a : Reg) (s : Src2)
  /-- LMMG (R296). -/
  | lmmg (h : Hdr) (a : Reg) (s : Src2)
  /-- LMMG_A (R296). -/
  | lmmgA (h : Hdr) (a : Reg) (s : Src2)
  /-- LSCORE (R298). -/
  | lscore (h : Hdr) (a : Reg) (s : Src2)
  /-- LSCORE_CM (R298). -/
  | lscoreCm (h : Hdr) (a : Reg) (s : Src2)
  /-- LSCORE_TM (R298). -/
  | lscoreTm (h : Hdr) (a : Reg) (s : Src2)
  /-- LPV (R297). -/
  | lpv (h : Hdr) (a : Reg) (s : Src2)
  /-- LPV_A (R297). -/
  | lpvA (h : Hdr) (a : Reg) (s : Src2)
  /-- LDRAIN (R302). -/
  | ldrain (h : Hdr) (d : Reg) (t : Ty) (s : Src2)
  /-- WPREP (R264). -/
  | wprep (w : BitVec 16) (col : BitVec 6) (p : BitVec 4)
  /-- WPREPA (R264). -/
  | wprepa (w : BitVec 16) (row : BitVec 6) (p : BitVec 4)
  /-- WSUM (R265). -/
  | wsum (ny nx : Bool) (y x : BitVec 5) (s : BitVec 4)
  /-- WACC (R266). -/
  | wacc (x : BitVec 5) (f : BitVec 8)
  /-- WNACC (R266). -/
  | wnacc (x : BitVec 5) (f : BitVec 8)
  /-- WMAP (R266). -/
  | wmap (x : BitVec 5) (m f : BitVec 8) (lit : BitVec 32)
  /-- WJMP (R267). -/
  | wjmp (j : BitVec 26)
  /-- WHOOK (R268). -/
  | whook (i : BitVec 8)
  /-- BIAS (R312). -/
  | lwBias (a : BitVec 4)
  /-- PENREP (R312). -/
  | lwPenrep (a : BitVec 4)
  /-- PENFRQ (R312). -/
  | lwPenfrq (a : BitVec 4)
  /-- PENPRS (R312). -/
  | lwPenprs (a : BitVec 4)
  /-- TEMP (R312). -/
  | lwTemp (a : BitVec 4)
  /-- CLAMP (R312). -/
  | lwClamp (b a : BitVec 4)
  /-- SCALE (R312). -/
  | lwScale (b a : BitVec 4)
  /-- TOPK (R312). -/
  | lwTopk (k : BitVec 16)
  /-- TOPP (R312). -/
  | lwTopp (a : BitVec 4)
  /-- MINP (R312). -/
  | lwMinp (a : BitVec 4)
  /-- SETV (R312). -/
  | lwSetv (x : BitVec 16) (a : BitVec 4)
  /-- SETV_LO (R312). -/
  | lwSetvLo (x : BitVec 16) (a : BitVec 4)
  /-- SKIP (R312). -/
  | lwSkip (n : BitVec 16)
  /-- SKIP_Z (R312). -/
  | lwSkipZ (n : BitVec 16) (a : BitVec 4)
  /-- SKIP_P (R312). -/
  | lwSkipP (n : BitVec 16) (a : BitVec 4)
  /-- SKIP_NG (R312). -/
  | lwSkipNg (n : BitVec 16)
  /-- WEND (R267). -/
  | wend
  /-- END (R312). -/
  | lwEnd
  /-- LDC (R312). -/
  | lwLdc
  /-- LDB (R312). -/
  | lwLdb
  /-- MASKG (R312). -/
  | lwMaskg
  /-- MASKB (R312). -/
  | lwMaskb
  /-- SOFTMAX (R312). -/
  | lwSoftmax
  /-- DRAW (R314). -/
  | lwDraw
  /-- ARGMAX (R312). -/
  | lwArgmax
  /-- LD_RETURN (R185). -/
  | evLdReturn
  /-- RESULT_WRITE (R226). -/
  | evResultWrite
  /-- MODE_CROSSING (R383). -/
  | evModeCrossing
  /-- PRCFG_WRITE (R191). -/
  | evPrcfgWrite
  /-- RECORD_SETTLE (R337). -/
  | evRecordSettle
  /-- L2_REQUEST (R120). -/
  | evL2Request
  /-- LINE_FILL (R123). -/
  | evLineFill
  /-- FILTER_CLEAR (R123). -/
  | evFilterClear
  /-- PAGE_WALK (R138). -/
  | evPageWalk
  /-- CODE_FETCH_ARRIVAL (R127). -/
  | evCodeFetchArrival
  /-- PROMOTION (R106). -/
  | evPromotion
  /-- DEMOTION (R107). -/
  | evDemotion
  /-- ROW_OPERATIONS_DONE (R110). -/
  | evRowOperationsDone
  /-- REFRESH (R112). -/
  | evRefresh
  /-- SCRUB (R112). -/
  | evScrub
  /-- HEARTBEAT (R112). -/
  | evHeartbeat
  /-- HEARTBEAT_MISSED (R113). -/
  | evHeartbeatMissed
  /-- FALLBACK_REFRESH (R113). -/
  | evFallbackRefresh
  /-- REFRESH_HANDBACK (R114). -/
  | evRefreshHandback
  /-- COPY_COMMAND (R149). -/
  | evCopyCommand
  /-- COPY_TRANSFER (R153). -/
  | evCopyTransfer
  /-- COPY_COMPLETE (R159). -/
  | evCopyComplete
  /-- PROBE_FILL (R194). -/
  | evProbeFill
  /-- FILL_DONE (R194). -/
  | evFillDone
  /-- INVALIDATE_PAGES (R130). -/
  | evInvalidatePages
  /-- INVALIDATE_ALL (R130). -/
  | evInvalidateAll
  /-- INVALIDATE_RANGE (R140). -/
  | evInvalidateRange
  /-- INVALIDATE_ASN (R140). -/
  | evInvalidateAsn
  /-- TLB_INVALIDATE_ALL (R140). -/
  | evTlbInvalidateAll
  /-- MIGRATE (R165). -/
  | evMigrate
  /-- RELEASE_OLD_FRAME (R166). -/
  | evReleaseOldFrame
  /-- COMPILE (R279). -/
  | evCompile
  /-- PATCH (R281). -/
  | evPatch
  /-- STRIPE_APPLY (R254). -/
  | evStripeApply
  /-- ZERO_APPLY (R255). -/
  | evZeroApply
  /-- SLACK_APPLY (R388). -/
  | evSlackApply
  /-- CALL_RUN (R262). -/
  | evCallRun
  /-- SEGMENT_START (R261). -/
  | evSegmentStart
  /-- RUN_GRANT (R287). -/
  | evRunGrant
  /-- GROUP_START (R285). -/
  | evGroupStart
  /-- TILE_LINE_ARRIVAL (R299). -/
  | evTileLineArrival
  /-- RUN_LIMIT (R285). -/
  | evRunLimit
  /-- LEASE_COMMAND_COMPLETE (R301). -/
  | evLeaseCommandComplete
  /-- LEAVE_GRANT (R455). -/
  | evLeaveGrant
  /-- POWER_THROTTLE (R456). -/
  | evPowerThrottle
  /-- OPEN (R306). -/
  | evOpen
  /-- BIND (R313). -/
  | evBind
  /-- CLOSE (R306). -/
  | evClose
  /-- SAMPLE (R319). -/
  | evSample
  /-- SAMPLE_STAGE2 (R323). -/
  | evSampleStage2
  /-- CLUSTER (R322). -/
  | evCluster
  /-- VERIFY (R325). -/
  | evVerify
  /-- NOTE (R326). -/
  | evNote
  /-- GRAMMAR_BIND (R321). -/
  | evGrammarBind
  /-- UNBIND (R321). -/
  | evUnbind
  /-- QUERY (R321). -/
  | evQuery
  /-- INVALIDATE (R321). -/
  | evInvalidate
  /-- RING (R449). -/
  | evRing
  /-- RSUM (R449). -/
  | evRsum
  /-- A2A (R449). -/
  | evA2a
  /-- COLLECTIVE_RECEIVE (R449). -/
  | evCollectiveReceive
  /-- KICK (R169). -/
  | evKick
  /-- DECODE_FRAME (R170). -/
  | evDecodeFrame
  /-- SPAWN (R408). -/
  | evSpawn
  /-- DOORBELL (R394). -/
  | evDoorbell
  /-- LAUNCH_ADMIT (R395). -/
  | evLaunchAdmit
  /-- MARKER_COMPLETE (R395). -/
  | evMarkerComplete
  /-- TASK_PLACE (R399). -/
  | evTaskPlace
  /-- TASK_START (R400). -/
  | evTaskStart
  /-- TASK_COMPLETE (R401). -/
  | evTaskComplete
  /-- TASK_FAULT (R402). -/
  | evTaskFault
  /-- EVENT_POST (R404). -/
  | evEventPost
  /-- AGING (R405). -/
  | evAging
  /-- TRAP_ENTRY (R416). -/
  | evTrapEntry
  /-- POISON_ROLLBACK (R432). -/
  | evPoisonRollback
  /-- SRAM_ERROR (R431). -/
  | evSramError
  /-- FATAL_ERROR (R434). -/
  | evFatalError
  /-- IMAGE_LOAD (R427). -/
  | evImageLoad
  /-- CONTEXT_EXCHANGE (R429). -/
  | evContextExchange
  /-- IMAGE_DRAIN (R427). -/
  | evImageDrain
  /-- CREATE (R392). -/
  | evCreate
  /-- SETVEC (R441). -/
  | evSetvec
  /-- DESTROY (R436). -/
  | evDestroy
  /-- QUEUE (R394). -/
  | evQueue
  /-- PREEMPT (R427). -/
  | evPreempt
  /-- DUMP (R441). -/
  | evDump
  /-- FRAMES (R436). -/
  | evFrames
  /-- LEND (R445). -/
  | evLend
  /-- POWER (R455). -/
  | evPower
  /-- ATTEST (R458). -/
  | evAttest
  /-- FIRMWARE (R457). -/
  | evFirmware
  /-- MANAGEMENT_REGISTER_WRITE (R440). -/
  | evManagementRegisterWrite
  /-- HOST_READ (R438). -/
  | evHostRead
  /-- HOST_WRITE (R438). -/
  | evHostWrite
  /-- LENT_ACCESS (R446). -/
  | evLentAccess
  /-- FLIT_RECEIVE (R443). -/
  | evFlitReceive
  /-- PORT_DOWN (R447). -/
  | evPortDown
  /-- PORT_UP (R443). -/
  | evPortUp
  /-- RESET (R103). -/
  | evReset
  /-- STARVED_CLK (R272). -/
  | evStarvedClk
  /-- PROBE_LAG (R387). -/
  | evProbeLag
  /-- POWER_WITHIN_BUDGET (R456). -/
  | evPowerWithinBudget
  /-- ORDERING_COMPLETE (R350). -/
  | evOrderingComplete
deriving DecidableEq, Repr

/-- Who moves in the next step. The device's parts run side by side; a step is one move of one of them. -/
inductive Turn where
  /-- Nobody moves. -/
  | idle
  /-- One clk of the package passes. -/
  | clk
  /-- One engine of one core looks at the instruction at its program counter. -/
  | engine (c : CoreId) (e : Eng)
  /-- The stream side of one core's weight-code engine executes the directive at its stream program counter. -/
  | stream (c : CoreId)
  /-- One die's sampler executes the next word of its run. -/
  | sampler (die : DieId)
  /-- A step of the device or an input from outside. -/
  | event (i : Instr) (arg : EvArg)
deriving DecidableEq, Repr, Inhabited

end Sys2Proof
end

