-- ==== Sys2Proof/Config.lean ====
section
/-!
DEFINITION. What the manual leaves free. Every constant here is opaque: it has no body, so no proof can learn its value,
and a statement about the machine holds whatever it is. `State.tick` and the operands make each use a value of its own.
-/
namespace Sys2Proof.Config

/-- Who moves in step `tick`, and what an event of that step carries: the order in which the parts of the package act,
and everything the outside world sends (log entry 1). -/
opaque schedule : Nat → Turn

/-- A choice the manual calls undecided, at step `tick` for the place `k` (R205, R208, R210, R340; log entry 2). -/
opaque undecided (tick k : Nat) : Nat

/-- The moment at which a read of an L page finds settled memory (R338; log entry 3). -/
opaque freeMoment (tick k : Nat) : Nat

/-- The device's own f32 special function `op` of R245; the model takes it only when it meets R246 (log entry 4). -/
opaque specialF32 (op : Nat) (x : BitVec 32) : BitVec 32

/-- Bytes of memory another device lends, where no store of this package is the latest (R446; log entry 5), and whether such a
byte is poisoned there. -/
opaque lentByte (tick device offset : Nat) : BitVec 8
opaque lentMark (tick device offset : Nat) : Bool
/-- Size of the window another device lends, zero for none (R445; log entry 5). -/
opaque lentSize (tick device : Nat) : Nat

/-- What a media decoder makes of an input, the codec's byte first (R167, R170): sample `(c, x, y)` of the frame, the fields of its
result: 0 status, 1 the earlier frame it repeats, 2 shown, 3 display index, 4 width, 5 height, 6 chroma width, 7 chroma height,
8 depth, 9 channels, 10 whether its profile, tier and level are those of R167, 11 whether it uses an extension that R167 leaves out
(screen content, scalable, large-scale tile); and of a damaged 64 x 64 area the nearest reference, by how many frames back it was decoded, or none (log entry 6). -/
opaque sample (tick : Nat) (input : List (BitVec 8)) (c x y : Nat) : Nat
opaque frame (tick : Nat) (input : List (BitVec 8)) (k : Nat) : Nat
opaque damaged (tick : Nat) (input : List (BitVec 8)) (x y : Nat) : Option (Option Nat)

/-- SHA-512 and Ed25519 of R457 and R458: digest, signature check under a release key, signature by the identity key
(log entry 7). -/
opaque sha512 (m : List (BitVec 8)) : List (BitVec 8)
opaque keyVerifies (m sig : List (BitVec 8)) : Bool
opaque identitySign (m : List (BitVec 8)) : List (BitVec 8)

/-- Silicon revision of MID and the digest of the firmware a package comes with (R440, R458; log entry 7). -/
opaque revision : BitVec 8
opaque firmwareDigest (version : Nat) : List (BitVec 8)

/-- Where a firmware header keeps its fields: magic good, version, counter, length, signed digest, signature (R457 names
them without offsets; log entry 7). -/
opaque imageMagicGood (img : List (BitVec 8)) : Bool
opaque imageVersion (img : List (BitVec 8)) : Nat
opaque imageCounter (img : List (BitVec 8)) : Nat
opaque imageBody (img : List (BitVec 8)) : List (BitVec 8)
opaque imageDigest (img : List (BitVec 8)) : List (BitVec 8)
opaque imageSignature (img : List (BitVec 8)) : List (BitVec 8)

/-- Byte `k` of the register image a core drains to its save area, a form of the device's own (R427; log entry 8). -/
opaque imageByte (tick k : Nat) : BitVec 8

/-- Power of one lease array at full rate, in milliwatts (R455; log entry 9). -/
opaque arrayPower : Nat

/-- Value of an error found in DRAM before correction is not seen; the pattern left by one that cannot be corrected
(R116; log entry 10). -/
opaque badByte (tick addr : Nat) : BitVec 8
/-- What the check bits of the DRAM read that step `tick` asks for find, and at which address (R115, R116; log entry 10). -/
opaque dramCheck (tick : Nat) : Option (Nat × DramErr)

end Sys2Proof.Config
end

