-- ==== Sys2Proof/Machine/Tables.lean ====
section
/-!
DEFINITION. Reading and writing the sparse tables in which registers and memory are kept, and the bit-field and
byte-order helpers of R7 and R9.
-/
namespace Sys2Proof.Machine

/-- Entry `k` of a table, `d` where it lists none. -/
def look {α : Type} (d : α) : Sparse α → Nat → α
  | [], _ => d
  | (j, w) :: m, k => if k = j then w else if k < j then d else look d m k

/-- The table with entry `k` set to `v`. An entry equal to the default is not listed. -/
def place {α : Type} [DecidableEq α] (d : α) : Sparse α → Nat → α → Sparse α
  | [], k, v => if v = d then [] else [(k, v)]
  | (j, w) :: m, k, v =>
    if k < j then (if v = d then (j, w) :: m else (k, v) :: (j, w) :: m)
    else if k = j then (if v = d then m.dropWhile (fun e => decide (e.1 ≤ k)) else (k, v) :: m)
    else (j, w) :: place d m k v

/-- Entry `k` of a list of keyed entries. -/
def findKey {α : Type} (m : Sparse α) (k : Nat) : Option α := (m.find? (fun p => p.1 == k)).map Prod.snd

/-- Set entry `k`, keys rising. -/
def setKey {α : Type} : Sparse α → Nat → α → Sparse α
  | [], k, v => [(k, v)]
  | (j, w) :: m, k, v => if k < j then (k, v) :: (j, w) :: m else if k = j then (k, v) :: m else (j, w) :: setKey m k v

/-- Entry `k` is set. -/
def hasKey {α : Type} (m : Sparse α) (k : Nat) : Bool := (findKey m k).isSome

def eraseKey {α : Type} (m : Sparse α) (k : Nat) : Sparse α := m.filter (fun p => p.1 != k)

/-- The lowest number below `n` that `m` does not list. -/
def freeKey {α : Type} (m : Sparse α) (n : Nat) : Option Nat := (List.range n).find? (fun k => (findKey m k).isNone)

/-- Entrywise greatest of two tables of times. -/
def mergeMax (a b : Sparse Nat) : Sparse Nat :=
  b.foldl (fun m p => place 0 m p.1 (Nat.max (look 0 m p.1) p.2)) a

/-- The form in which tables are kept: keys strictly rising, no entry equal to the default. -/
def tableWf {α : Type} [DecidableEq α] (d : α) : Sparse α → Bool
  | [] => true
  | [(_, w)] => decide (w ≠ d)
  | (j, w) :: (k, v) :: m => decide (w ≠ d) && decide (j < k) && tableWf d ((k, v) :: m)

/-- Set consecutive entries from `k`. -/
def placeAll {α : Type} [DecidableEq α] (d : α) (m : Sparse α) (k : Nat) : List α → Sparse α
  | [] => m
  | v :: vs => placeAll d (place d m k v) (k + 1) vs

/-- `n` consecutive entries from `k`. -/
def lookAll {α : Type} (d : α) (m : Sparse α) (k n : Nat) : List α := (List.range n).map (fun i => look d m (k + i))

/-- Bits `hi : lo` of a word (R7). -/
def bits (w : Word) (hi lo : Nat) : Nat := (w.toNat / 2 ^ lo) % 2 ^ (hi + 1 - lo)

/-- Bits `hi : lo` of a number. -/
def nbitsOf (n hi lo : Nat) : Nat := (n / 2 ^ lo) % 2 ^ (hi + 1 - lo)

/-- A little-endian number from its bytes (R9). -/
def leNat : List Byte → Nat
  | [] => 0
  | b :: bs => b.toNat + 256 * leNat bs

/-- The `n` bytes of a number, least significant first (R9). -/
def leBytes : Nat → Nat → List Byte
  | 0, _ => []
  | n + 1, v => BitVec.ofNat 8 v :: leBytes n (v / 256)

/-- `w` read as a two's-complement number of `b` bits. -/
def signedOf (b w : Nat) : Int := if w % 2 ^ b < 2 ^ (b - 1) then (w % 2 ^ b : Int) else (w % 2 ^ b : Int) - 2 ^ b

/-- The `b` low bits of an integer. -/
def wrapInt (b : Nat) (i : Int) : Nat := (i % (2 ^ b : Int)).toNat

/-- Word `k` of a list of words, zero past its end. -/
def wordAt (ws : List Word) (k : Nat) : Word := ws.getD k 0

/-- `n div m`, rounded up. -/
def ceilDiv (n m : Nat) : Nat := (n + m - 1) / m

/-- A list cut into pieces of `n`. -/
def chunks {α : Type} (n : Nat) : Nat → List α → List (List α)
  | 0, _ => []
  | f + 1, l => match l with
    | [] => []
    | _ => l.take n :: chunks n f (l.drop n)

/-- Words of 8 bytes, least significant byte first. -/
def wordsOf (bs : List Byte) : List Word := (chunks 8 (bs.length + 1) bs).map (fun c => BitVec.ofNat 64 (leNat c))

/-- The bytes of words. -/
def bytesOf (ws : List Word) : List Byte := ws.flatMap (fun w => leBytes 8 w.toNat)

/-- Move the first element that satisfies `p` to the front; unchanged when none does. -/
def toFront {α : Type} (p : α → Bool) (l : List α) : List α :=
  match l.find? p with
  | none => l
  | some x => x :: l.eraseP p

/-- Keep the first element of each value. -/
def dedupNat : List Nat → List Nat
  | [] => []
  | x :: xs => x :: (dedupNat xs).filter (fun y => y != x)

/-- Ascending order, by insertion. -/
def insertNat (x : Nat) : List Nat → List Nat
  | [] => [x]
  | y :: ys => if x ≤ y then x :: y :: ys else y :: insertNat x ys

def sortNat (l : List Nat) : List Nat := l.foldr insertNat []

end Sys2Proof.Machine
end

