-- ==== Sys2Proof/WellFormed.lean ====
section
/-!
DEFINITION. Which instructions have an encoding: the checks of R69 and of the entries it names, on the operand fields
of an instruction. `Instr.check` names the first check that fails; `Instr.wf` holds when none does. The device checks
an encoding before the guard, the tokens and the operands (R70).
-/
namespace Sys2Proof

/-- Why an instruction has no encoding. Every one of these raises ILLEGAL_INSTRUCTION (R69). -/
inductive IllFormed where
  /-- The opcode does not allow the tagged engine (R63). -/
  | engine
  /-- A 32-bit form with a token field, guard or rounding mode (R52). -/
  | shortForm
  /-- A pop or push bit naming the executing engine (R54). -/
  | selfToken
  /-- A rounding mode where none is admitted (R53). -/
  | rounding
  /-- A type the entry does not allow (R69). -/
  | type
  /-- A matrix operand or view that is not admitted (R58, R230). -/
  | view
  /-- A token queue that is reserved or belongs to another engine (R60, R369). -/
  | queue
  /-- A register number outside the range of its field. -/
  | register
  /-- A form of src2 the entry does not allow. -/
  | form
  /-- A reserved value inside an immediate or literal. -/
  | value
  /-- A decider other than C and A (R389). -/
  | decider
deriving DecidableEq, Repr

namespace Eng

/-- The bit of an engine in a pop or push set (R53). -/
def bit : Eng → BitVec 4
  | .c => 8#4
  | .a => 4#4
  | .v => 2#4
  | .w => 1#4

/-- The tag of an engine (R49). -/
def tag : Eng → BitVec 3
  | .c => 0#3
  | .a => 1#3
  | .v => 2#3
  | .w => 3#3

/-- The number of an engine where TCAUSE and the queues name it: 0 C, 1 A, 2 V, 3 W (R411). -/
def num : Eng → Nat
  | .c => 0
  | .a => 1
  | .v => 2
  | .w => 3

end Eng

/-- Producer and consumer of a token queue code (R60). -/
def queueEnds : Nat → Option (Eng × Eng)
  | 0 => some (.c, .a) | 1 => some (.c, .v) | 2 => some (.c, .w)
  | 3 => some (.a, .c) | 4 => some (.a, .v) | 5 => some (.a, .w)
  | 6 => some (.v, .c) | 7 => some (.v, .a) | 8 => some (.v, .w)
  | 9 => some (.w, .c) | 10 => some (.w, .a) | 11 => some (.w, .v)
  | _ => none

namespace Ty

def code : Ty → BitVec 5
  | .f32 => 0#5 | .bf16 => 1#5 | .f16 => 2#5 | .e4m3 => 3#5 | .e5m2 => 4#5 | .e3m2 => 5#5 | .e2m3 => 6#5
  | .e2m1 => 7#5 | .mq4 => 8#5 | .s4 => 9#5 | .s8 => 10#5 | .s16 => 11#5 | .s32 => 12#5 | .s64 => 13#5
  | .z4 => 14#5 | .z8 => 15#5 | .z16 => 16#5 | .z32 => 17#5 | .z64 => 18#5

/-- The type a code names; codes 19 to 31 are reserved (R59). -/
def ofCode (n : Nat) : Option Ty :=
  match n with
  | 0 => some .f32 | 1 => some .bf16 | 2 => some .f16 | 3 => some .e4m3 | 4 => some .e5m2 | 5 => some .e3m2
  | 6 => some .e2m3 | 7 => some .e2m1 | 8 => some .mq4 | 9 => some .s4 | 10 => some .s8 | 11 => some .s16
  | 12 => some .s32 | 13 => some .s64 | 14 => some .z4 | 15 => some .z8 | 16 => some .z16 | 17 => some .z32
  | 18 => some .z64 | _ => none

/-- The floating-point types (R71). -/
def isFloat : Ty → Bool
  | .f32 | .bf16 | .f16 | .e4m3 | .e5m2 | .e3m2 | .e2m3 | .e2m1 => true
  | _ => false

def isSigned : Ty → Bool
  | .s4 | .s8 | .s16 | .s32 | .s64 => true
  | _ => false

def isInt : Ty → Bool
  | .s4 | .s8 | .s16 | .s32 | .s64 | .z4 | .z8 | .z16 | .z32 | .z64 => true
  | _ => false

/-- Width of an element in bits (R71, R74, R83). -/
def width : Ty → Nat
  | .f32 | .s32 | .z32 => 32
  | .bf16 | .f16 | .s16 | .z16 => 16
  | .e4m3 | .e5m2 | .s8 | .z8 => 8
  | .e3m2 | .e2m3 => 6
  | .e2m1 | .mq4 | .s4 | .z4 => 4
  | .s64 | .z64 => 64

/-- The types a cell may hold, mq4 apart (R223). -/
def inCell : Ty → Bool
  | .mq4 | .s64 | .z64 => false
  | _ => true

/-- The types of a packed cell (R224). -/
def isPacked : Ty → Bool
  | .bf16 | .f16 | .s16 | .z16 | .e4m3 | .e5m2 | .s8 | .z8 | .e3m2 | .e2m3 | .e2m1 | .s4 | .z4 => true
  | _ => false

/-- The types of LD and ST (R183). -/
def inLoad : Ty → Bool
  | .s8 | .s16 | .s32 | .s64 | .z8 | .z16 | .z32 | .z64 | .f32 | .bf16 | .f16 => true
  | _ => false

def isWideFloat : Ty → Bool
  | .f32 | .bf16 | .f16 => true
  | _ => false

/-- The types of a stripe (R252). -/
def inStripe : Ty → Bool
  | .f32 | .bf16 | .f16 | .s4 | .s8 | .z8 => true
  | _ => false

def atomicInt : Ty → Bool
  | .s32 | .s64 | .z32 | .z64 => true
  | _ => false

def atomicAny (t : Ty) : Bool := t.atomicInt || t == .f32

end Ty

namespace MOp

/-- A tile has index 0 and a row index is below 16 (R58, R69). -/
def ok (m : MOp) : Bool :=
  match m.view with
  | .tile => m.idx == 0#6
  | .row => m.idx.toNat < 16
  | .col | .dia => true

/-- How many cells a view names (R230). -/
def count (m : MOp) : Nat :=
  match m.view with
  | .tile => 1024
  | .row => 64
  | .col | .dia => 16

end MOp

/-- The first check that fails. -/
def firstFail : List (Bool × IllFormed) → Option IllFormed
  | [] => none
  | (true, _) :: r => firstFail r
  | (false, e) :: _ => some e

namespace Hdr

/-- The checks of a 32-bit form admitted on the engines `es`. -/
def short (h : Hdr) (es : List Eng) : List (Bool × IllFormed) :=
  [(es.contains h.eng, .engine),
   (h.pop == 0#4 && h.push == 0#4 && h.guard == 0#6 && h.rm == 0#2, .shortForm)]

/-- The checks of a long form that admits rounding only when `rm` holds. -/
def long (h : Hdr) (es : List Eng) (rm : Bool) : List (Bool × IllFormed) :=
  [(es.contains h.eng, .engine),
   (h.pop &&& h.eng.bit == 0#4 && h.push &&& h.eng.bit == 0#4, .selfToken),
   (rm || h.rm == 0#2, .rounding)]

end Hdr

namespace Src2

/-- Bits from `n` up of an immediate or literal are reserved; a register form passes. -/
def below (s : Src2) (n : Nat) : Bool :=
  match s with
  | .reg _ => true
  | .imm i => i.toNat < 2 ^ n
  | .lit l => l.toNat < 2 ^ n

end Src2

/-- A transform word that holds no reserved value (R149, R150). -/
def xformOk (x : BitVec 32) : Bool :=
  x.toNat < 2 ^ 14 && x.extractLsb' 11 2 != 3#2 && x.extractLsb' 10 1 == 0#1 && x.extractLsb' 0 3 == 0#3 &&
  (if x.extractLsb' 8 1 == 0#1 then x.extractLsb' 3 5 == 0#5 else (x.extractLsb' 3 5).toNat < 19)

def Src2.xformOk (s : Src2) : Bool :=
  match s with
  | .reg _ => true
  | .imm i => Sys2Proof.xformOk (i.setWidth 32)
  | .lit l => Sys2Proof.xformOk l

def Eng.decides (e : Eng) : Bool := e == .c || e == .a

/-- The checks of MOV (R221). -/
def movChecks (h : Hdr) (d a : Reg) (m : BitVec 4) : List (Bool × IllFormed) :=
  [(m.toNat < 5, .value),
   (m.toNat < 3 || h.eng == .a, .engine),
   (m != 1#4 || a.toNat < 8, .register),
   (m != 2#4 || d.toNat < 8, .register),
   (m != 3#4 || a.toNat < 32, .register),
   (m != 4#4 || d.toNat < 32, .register)]

/-- The views of a lane-wise instruction: each admitted, with equal counts (R230). -/
def laneViews (d a : MOp) (s : Option VSrc) : List (Bool × IllFormed) :=
  [(d.ok && a.ok && d.count == a.count, .view),
   ((match s with
     | some (.mat m) => m.ok && m.count == d.count
     | _ => true), .view)]

def tileViews (d a : MOp) : List (Bool × IllFormed) :=
  [(d.ok && a.ok && d.view == .tile && a.view == .tile, .view)]

namespace Instr

/-- The first check of R69, or of the instruction's own entry, that fails. Rows without an encoding have none. -/
def check (i : Instr) : Option IllFormed :=
  match i with
  | .nop h => firstFail (h.short [.c, .a, .v, .w])
  | .add h .. | .sub h .. | .mul h .. | .mulhS h .. | .mulhZ h .. | .divS h .. | .divZ h .. | .remS h .. | .remZ h ..
  | .and64 h .. | .or64 h .. | .xor64 h .. | .shl h .. | .shrS h .. | .shrZ h .. | .rot h .. | .minS h .. | .minZ h ..
  | .maxS h .. | .maxZ h .. | .seq h .. | .sltS h .. | .sltZ h .. | .sel h .. | .clz h .. | .popc h .. | .li h .. =>
    firstFail (h.short [.c, .a])
  | .addLong h .. | .subLong h .. | .mulLong h .. | .mulhSLong h .. | .mulhZLong h .. | .divSLong h .. | .divZLong h ..
  | .remSLong h .. | .remZLong h .. | .and64Long h .. | .or64Long h .. | .xor64Long h .. | .shlLong h ..
  | .shrSLong h .. | .shrZLong h .. | .rotLong h .. | .minSLong h .. | .minZLong h .. | .maxSLong h ..
  | .maxZLong h .. | .seqLong h .. | .sltSLong h .. | .sltZLong h .. | .selLong h .. | .clzLong h .. | .popcLong h ..
  | .liLong h .. => firstFail (h.long [.c, .a] false)
  | .extS h _ _ s | .extZ h _ _ s | .ins h _ _ s => firstFail (h.long [.c, .a] false ++ [(s.below 12, .value)])
  | .mov h d a m => firstFail (h.short [.c, .a] ++ movChecks h d a m)
  | .movLong h d a m _ => firstFail (h.long [.c, .a] false ++ movChecks h d a m)
  | .bEq _ _ _ e .. | .bNe _ _ _ e .. | .bLtS _ _ _ e .. | .bLtZ _ _ _ e .. | .bGeS _ _ _ e .. | .bGeZ _ _ _ e ..
  | .jr _ _ e => firstFail [(e.decides, .decider)]
  | .jmp .. | .jl .. | .syncpc .. | .syncpcLong .. | .syncpcD .. | .syncpcDLong .. => none
  | .loop _ dist _ _ => firstFail [(dist != 0#12, .value)]
  | .tpop h q => firstFail (h.short [.c, .a, .v, .w] ++ [((queueEnds q.toNat).any (fun e => e.2 == h.eng), .queue)])
  | .tpsh h q => firstFail (h.short [.c, .a, .v, .w] ++ [((queueEnds q.toNat).any (fun e => e.1 == h.eng), .queue)])
  | .qcancel h q => firstFail (h.short [.c, .a] ++ [((queueEnds q.toNat).isSome, .queue)])
  | .slack h s => firstFail (h.long [.a] false ++ [(s.below 16, .value)])
  | .slackW h s => firstFail (h.long [.w] false ++ [(s.below 16, .value)])
  | .trap h _ | .syscall h _ | .eret h | .halt h => firstFail (h.short [.c])
  | .sysr h .. | .sysw h .. | .ldovt h _ => firstFail (h.long [.c] false)
  | .ld h _ _ t _ | .st h _ _ t _ => firstFail (h.long [.a] false ++ [(t.inLoad, .type)])
  | .ldLn h _ a t _ | .stLn h _ a t _ =>
    firstFail (h.long [.a] false ++ [(t.inLoad, .type), (a.toNat < 32, .register)])
  | .mld h d _ t _ | .mst h d _ t _ =>
    firstFail (h.long [.a] false ++ [(d.ok, .view), (t.width < 64, .type)])
  | .mldLn h d a t _ | .mstLn h d a t _ =>
    firstFail (h.long [.a] false ++ [(d.ok, .view), (t.width < 64, .type), (a.toNat < 32, .register)])
  | .probe h .. => firstFail (h.long [.a] false)
  | .probeLn h _ a _ => firstFail (h.long [.a] false ++ [(decide (a.toNat < 32), .register)])
  | .copy h _ a s => firstFail (h.long [.a] true ++ [(decide (a.toNat ≤ 52), .register), (s.xformOk, .value)])
  | .copyLn h d a s =>
    firstFail (h.long [.a] true ++ [(decide (a.toNat ≤ 52), .register), (d.toNat < 32, .register), (s.xformOk, .value)])
  | .pushe h .. | .pusheT h .. => firstFail (h.long [.a] true)
  | .pope h .. | .popeT h .. => firstFail (h.long [.a] false)
  | .settle h _ => firstFail (h.short [.a])
  | .settleLong h _ => firstFail (h.long [.a] false)
  | .promote h .. | .promoteH h .. | .demote h .. => firstFail (h.long [.a] false)
  | .relCore h | .relClu h | .relDie h | .relPkg h | .relSys h | .fenceCore h | .fenceClu h | .fenceDie h | .fencePkg h
  | .fenceSys h | .acqCore h _ | .acqClu h _ | .acqDie h _ | .acqPkg h _ | .acqSys h _ => firstFail (h.short [.a])
  | .relCoreLong h | .relCluLong h | .relDieLong h | .relPkgLong h | .relSysLong h | .fenceCoreLong h | .fenceCluLong h
  | .fenceDieLong h | .fencePkgLong h | .fenceSysLong h | .acqCoreLong h _ | .acqCluLong h _ | .acqDieLong h _
  | .acqPkgLong h _ | .acqSysLong h _ => firstFail (h.long [.a] false)
  | .aadd h _ _ _ t _ | .aaddN h _ _ t _ => firstFail (h.long [.a] (t == .f32) ++ [(t.atomicAny, .type)])
  | .amin h _ _ _ t _ | .amax h _ _ _ t _ | .aminN h _ _ t _ | .amaxN h _ _ t _ =>
    firstFail (h.long [.a] false ++ [(t.atomicAny, .type)])
  | .aor h _ _ _ t _ | .aand h _ _ _ t _ | .axchg h _ _ _ t _ | .acas h _ _ _ t _ | .aorN h _ _ t _ | .aandN h _ _ t _ =>
    firstFail (h.long [.a] false ++ [(t.atomicInt, .type)])
  | .vadd h d a t s | .vsub h d a t s | .vmul h d a t s | .vfma h d a t s =>
    firstFail (h.long [.v] t.isFloat ++ [(t.inCell, .type)] ++ laneViews d a (some s))
  | .vmin h d a t s | .vmax h d a t s | .vand h d a t s | .vor h d a t s | .vxor h d a t s | .vcmpEq h d a t s
  | .vcmpNe h d a t s | .vcmpLt h d a t s | .vcmpLe h d a t s =>
    firstFail (h.long [.v] false ++ [(t.inCell, .type)] ++ laneViews d a (some s))
  | .vshl h d a t s | .vshr h d a t s | .vaddSat h d a t s | .vsubSat h d a t s | .vmulSat h d a t s | .vfmaSat h d a t s
  | .vshlSat h d a t s =>
    firstFail (h.long [.v] false ++ [(t.inCell && t.isInt, .type)] ++ laneViews d a (some s))
  | .vabs h d a t | .vneg h d a t => firstFail (h.long [.v] false ++ [(t.inCell, .type)] ++ laneViews d a none)
  | .vabsSat h d a t | .vnegSat h d a t =>
    firstFail (h.long [.v] false ++ [(t.inCell && t.isInt, .type)] ++ laneViews d a none)
  | .vexp h d a t | .vlog h d a t | .vrcp h d a t | .vrsq h d a t | .vsin h d a t | .vcos h d a t | .vtanh h d a t =>
    firstFail (h.long [.v] false ++ [(t.isWideFloat, .type)] ++ laneViews d a none)
  | .vredrAdd h d a t =>
    firstFail (h.long [.v] t.isFloat ++ [(t.inCell, .type), (d.ok && a.ok && d.view == .col && a.view == .tile, .view)])
  | .vredrMax h d a t | .vredrMin h d a t | .vredrAmax h d a t =>
    firstFail (h.long [.v] false ++ [(t.inCell, .type), (d.ok && a.ok && d.view == .col && a.view == .tile, .view)])
  | .vredcAdd h d a t =>
    firstFail (h.long [.v] t.isFloat ++ [(t.inCell, .type), (d.ok && a.ok && d.view == .row && a.view == .tile, .view)])
  | .vredcMax h d a t | .vredcMin h d a t | .vredcAmax h d a t =>
    firstFail (h.long [.v] false ++ [(t.inCell, .type), (d.ok && a.ok && d.view == .row && a.view == .tile, .view)])
  | .vsel h d a s => firstFail (h.long [.v] false ++ laneViews d a (some s))
  | .vcvt h d a t t2 g =>
    firstFail (h.long [.v] true ++
      [(t.inCell, .type), (if t2 == .mq4 then t.isWideFloat else t2.inCell, .type), (t2 == .mq4 || g == 0#6, .value)] ++
      laneViews d a none)
  | .vpack h d a t t2 => firstFail (h.long [.v] true ++ [(t.isPacked && t2.inCell, .type)] ++ tileViews d a)
  | .vunpack h d a t t2 => firstFail (h.long [.v] true ++ [(t.inCell && t2.isPacked, .type)] ++ tileViews d a)
  | .vrotr h d a _ | .vrotc h d a _ | .vbcr h d a _ | .vbcc h d a _ =>
    firstFail (h.long [.v] false ++ tileViews d a)
  | .wcall h _ s => firstFail (h.long [.w] false ++ [(s.below 8, .value)])
  | .wstripe h _ t s =>
    firstFail (h.long [.w] true ++ [(t.inStripe, .type), (match s with | .imm _ => false | _ => true, .form), (s.below 28, .value)])
  | .wzero h s => firstFail (h.long [.w] false ++ [(s.below 16, .value)])
  | .wdrain h d sty t s =>
    firstFail (h.long [.w] true ++
      [(decide (d.toNat < 32), .register), (sty == .f32 || sty == .s32, .value), (t.inCell, .type), (s.below 14, .value)])
  | .lacq h s | .lacqT h _ s => firstFail (h.long [.c] false ++ [(s.below 2, .value)])
  | .lrel h => firstFail (h.long [.c] false)
  | .lcfg h a s => firstFail (h.long [.c] false ++ [(decide (a.toNat ≤ 60), .register), (s.below 4, .value)])
  | .lmm h .. | .lmmA h .. | .lmmg h .. | .lmmgA h .. | .lscore h .. | .lscoreCm h .. | .lscoreTm h .. | .lpv h ..
  | .lpvA h .. => firstFail (h.long [.c] false)
  | .ldrain h d t s =>
    firstFail (h.long [.c] true ++ [(decide (d.toNat < 32), .register), (t.inCell, .type), (s.below 9, .value)])
  | .wprep .. | .wprepa .. | .wsum .. | .wacc .. | .wnacc .. | .wmap .. | .wjmp .. | .wend | .whook .. => none
  | .lwTopk k => firstFail [(k != 0#16, .value)]
  | .lwEnd | .lwLdc | .lwLdb | .lwBias .. | .lwPenrep .. | .lwPenfrq .. | .lwPenprs .. | .lwTemp .. | .lwClamp ..
  | .lwScale .. | .lwMaskg | .lwMaskb | .lwTopp .. | .lwMinp .. | .lwSoftmax | .lwDraw | .lwArgmax | .lwSetv ..
  | .lwSetvLo .. | .lwSkip .. | .lwSkipZ .. | .lwSkipP .. | .lwSkipNg .. => none
  | .evLdReturn | .evResultWrite | .evModeCrossing | .evPrcfgWrite | .evRecordSettle
  | .evL2Request | .evLineFill | .evFilterClear | .evPageWalk | .evCodeFetchArrival | .evPromotion
  | .evDemotion | .evRowOperationsDone | .evRefresh | .evScrub | .evHeartbeat | .evHeartbeatMissed
  | .evFallbackRefresh | .evRefreshHandback | .evCopyCommand | .evCopyTransfer | .evCopyComplete
  | .evProbeFill | .evFillDone | .evInvalidatePages | .evInvalidateAll | .evInvalidateRange
  | .evInvalidateAsn | .evTlbInvalidateAll | .evMigrate | .evReleaseOldFrame | .evCompile
  | .evPatch | .evStripeApply | .evZeroApply | .evSlackApply | .evCallRun | .evSegmentStart
  | .evRunGrant | .evGroupStart | .evTileLineArrival | .evRunLimit | .evLeaseCommandComplete
  | .evLeaveGrant | .evPowerThrottle | .evOpen | .evBind | .evClose | .evSample | .evSampleStage2
  | .evCluster | .evVerify | .evNote | .evGrammarBind | .evUnbind | .evQuery | .evInvalidate
  | .evRing | .evRsum | .evA2a | .evCollectiveReceive | .evKick | .evDecodeFrame | .evSpawn
  | .evDoorbell | .evLaunchAdmit | .evMarkerComplete | .evTaskPlace | .evTaskStart
  | .evTaskComplete | .evTaskFault | .evEventPost | .evAging | .evTrapEntry | .evPoisonRollback
  | .evSramError | .evFatalError | .evImageLoad | .evContextExchange | .evImageDrain | .evCreate
  | .evSetvec | .evDestroy | .evQueue | .evPreempt | .evDump | .evFrames | .evLend
  | .evPower | .evAttest | .evFirmware | .evManagementRegisterWrite | .evHostRead | .evHostWrite
  | .evLentAccess | .evFlitReceive | .evPortDown | .evPortUp | .evReset | .evStarvedClk
  | .evProbeLag | .evPowerWithinBudget | .evOrderingComplete => none

/-- The instruction has an encoding and no check of its entry refuses it. -/
abbrev wf (i : Instr) : Prop := i.check = none

end Instr
end Sys2Proof
end

