-- ==== Sys2Proof/Machine/Num.lean ====
section
/-!
DEFINITION. Numbers, rounding and events (R71 to R97): decoding an element to its exact value, one rounding of an exact
value to a format, the overflow table, conversions, and the element arithmetic of every engine.
-/
namespace Sys2Proof.Machine

/-- Exponent bits, fraction bits, bias, code of the largest finite value, codes of infinity and NaN (R71, R73). -/
structure Fmt where
  ebits : Nat
  mbits : Nat
  bias : Nat
  maxCode : Nat
  infCode : Option Nat
  nanCode : Option Nat
  /-- Place of the format's entry in OVT (R81). -/
  ovtIndex : Nat
  /-- Group of its event counters (R93). -/
  group : Nat
deriving DecidableEq, Repr

def fmtOf : Ty → Option Fmt
  | .f32 => some ⟨8, 23, 127, 0x7F7FFFFF, some 0x7F800000, some 0x7FC00000, 0, 0⟩
  | .bf16 => some ⟨8, 7, 127, 0x7F7F, some 0x7F80, some 0x7FC0, 1, 1⟩
  | .f16 => some ⟨5, 10, 15, 0x7BFF, some 0x7C00, some 0x7E00, 2, 2⟩
  | .e4m3 => some ⟨4, 3, 7, 0x7E, none, some 0x7F, 3, 3⟩
  | .e5m2 => some ⟨5, 2, 15, 0x7B, some 0x7C, some 0x7E, 4, 4⟩
  | .e3m2 => some ⟨3, 2, 3, 0x1F, none, none, 5, 5⟩
  | .e2m3 => some ⟨2, 3, 1, 0x1F, none, none, 6, 5⟩
  | .e2m1 => some ⟨2, 1, 1, 0x7, none, none, 7, 6⟩
  | .mq4 | .s4 | .s8 | .s16 | .s32 | .s64 | .z4 | .z8 | .z16 | .z32 | .z64 => none

/-- Width in bits (R59). -/
def widthOf : Ty → Nat
  | .f32 | .s32 | .z32 => 32
  | .bf16 | .f16 | .s16 | .z16 => 16
  | .e4m3 | .e5m2 | .s8 | .z8 => 8
  | .e3m2 | .e2m3 => 6
  | .e2m1 | .mq4 | .s4 | .z4 => 4
  | .s64 | .z64 => 64

def isSigned : Ty → Bool
  | .s4 | .s8 | .s16 | .s32 | .s64 => true
  | .f32 | .bf16 | .f16 | .e4m3 | .e5m2 | .e3m2 | .e2m3 | .e2m1 | .mq4 | .z4 | .z8 | .z16 | .z32 | .z64 => false

/-- Group of a type's event counters (R93). -/
def groupOf (t : Ty) : Nat :=
  match fmtOf t with
  | some f => f.group
  | none => if t = .mq4 then 6 else 7

/-- The exact value of an element: not a number, an infinity with its sign, or `m x 2^e` with its sign. -/
inductive Num where
  | nan
  | inf (neg : Bool)
  | fin (neg : Bool) (m : Nat) (e : Int)
deriving DecidableEq, Repr

def Num.isNan : Num → Bool
  | .nan => true
  | .inf _ | .fin _ _ _ => false

def Num.isInf : Num → Bool
  | .inf _ => true
  | .nan | .fin _ _ _ => false

/-- The value of the encoding `w` (R71). -/
def numOfFmt (f : Fmt) (w : Nat) : Num :=
  let neg := w / 2 ^ (f.ebits + f.mbits) % 2 == 1
  let c := w % 2 ^ (f.ebits + f.mbits)
  let e := c / 2 ^ f.mbits
  let m := c % 2 ^ f.mbits
  if f.maxCode < c then (if f.infCode == some c then .inf neg else .nan)
  else if e == 0 then .fin neg m (1 - (f.bias : Int) - f.mbits)
  else .fin neg (m + 2 ^ f.mbits) ((e : Int) - f.bias - f.mbits)

/-- An element result: its bits and the kind of event it counts (R93, R94). -/
structure Elem where
  bits : Nat
  kind : Option Nat
deriving DecidableEq, Repr

/-- Sign of an encoding put in place. -/
def signBit (f : Fmt) (neg : Bool) : Nat := if neg then 2 ^ (f.ebits + f.mbits) else 0

/-- The canonical NaN (R73); a format without NaN gives +0 (R80). -/
def nanBits (f : Fmt) : Nat := f.nanCode.getD 0

/-- Does a quotient with remainder go up in magnitude (R76)? `odd`: the quotient is odd; `r2`: twice the remainder against the divisor. -/
def roundUp (rm : BitVec 2) (neg odd : Bool) (r d : Nat) : Bool :=
  if r == 0 then false
  else
    match rm.toNat with
    | 0 => decide (d < 2 * r) || (decide (2 * r = d) && odd)
    | 1 => false
    | 2 => neg
    | _ => !neg

/-- Where an overflow takes its result from (R78): the rounding mode, or the table. -/
inductive Over where
  | ieee
  | table (entry : Nat)
deriving DecidableEq, Repr

/-- The result of an overflow of sign `neg` (R78, R81). -/
def overflowBits (f : Fmt) (o : Over) (rm : BitVec 2) (neg : Bool) : Nat :=
  let mx := signBit f neg + f.maxCode
  let inf := match f.infCode with | some c => signBit f neg + c | none => mx
  match o with
  | .ieee =>
    match rm.toNat with
    | 0 => inf
    | 1 => mx
    | 2 => if neg then inf else mx
    | _ => if neg then mx else inf
  | .table 0 => mx
  | .table 1 => inf
  | .table _ => match f.nanCode with | some c => c | none => mx

/-- The kind an overflow counts (R94): NaN where the table's entry turns it into one, otherwise overflow. -/
def overflowKind (f : Fmt) (o : Over) : Nat :=
  match o with
  | .ieee | .table 0 | .table 1 => 2
  | .table _ => if f.nanCode.isSome then 0 else 2

/-- The largest `k` with `2^k ≤ n`, zero for zero. -/
def log2Nat (n : Nat) : Nat := n.log2

/-- One rounding of `num / den x 2^e` to the format, exponent range unbounded above (R77), as the unsigned code
`exponent x 2^mbits + fraction` and whether it is exact. -/
def roundCode (f : Fmt) (rm : BitVec 2) (neg : Bool) (num den : Nat) (e : Int) : Nat × Bool :=
  if num == 0 then (0, true)
  else
    let k0 : Int := (log2Nat num : Int) - log2Nat den + e
    -- the binary exponent of the value is k0 or k0 - 1
    let below : Bool :=
      let s := k0 - e
      if 0 ≤ s then decide (num < den * 2 ^ s.toNat) else decide (num * 2 ^ (-s).toNat < den)
    let k := if below then k0 - 1 else k0
    let emin : Int := 1 - (f.bias : Int)
    let q : Int := (if k < emin then emin else k) - f.mbits
    let sh := e - q
    let n := if 0 ≤ sh then num * 2 ^ sh.toNat else num
    let d := if 0 ≤ sh then den else den * 2 ^ (-sh).toNat
    let m0 := n / d
    let r := n % d
    let m := if roundUp rm neg (m0 % 2 == 1) r d then m0 + 1 else m0
    -- a mantissa that reaches the next power of two carries into the exponent of itself
    let code := if k < emin then m else m + (((k - emin).toNat) * 2 ^ f.mbits)
    (code, r == 0)

/-- One rounding of an exact value to a format, with overflow and the events of R94. -/
def roundElem (f : Fmt) (rm : BitVec 2) (o : Over) (neg : Bool) (num den : Nat) (e : Int) : Elem :=
  let (code, exact) := roundCode f rm neg num den e
  if f.maxCode < code then ⟨overflowBits f o rm neg, some (overflowKind f o)⟩
  else ⟨signBit f neg + code, if !exact && decide (code < 2 ^ f.mbits) then some 3 else none⟩

/-- A value given to a format: NaN and infinity as R73, R80 say, otherwise one rounding. -/
def elemOf (f : Fmt) (rm : BitVec 2) (o : Over) (n : Num) : Elem :=
  match n with
  | .nan => ⟨nanBits f, if f.nanCode.isNone then some 0 else none⟩
  | .inf neg =>
    match f.infCode with
    | some c => ⟨signBit f neg + c, none⟩
    | none => ⟨overflowBits f o rm neg, some (overflowKind f o)⟩
  | .fin neg m e => roundElem f rm o neg m 1 e

/-- Sum of two exact values; an exact zero sum of opposite signs is +0, except in RDN (R77). -/
def addNum (rm : BitVec 2) (a b : Num) : Num :=
  match a, b with
  | .nan, _ | _, .nan => .nan
  | .inf x, .inf y => if x == y then .inf x else .nan
  | .inf x, .fin _ _ _ => .inf x
  | .fin _ _ _, .inf y => .inf y
  | .fin x m e, .fin y n g =>
    let q := if e ≤ g then e else g
    let u : Int := (if x then -1 else 1) * (m * 2 ^ (e - q).toNat : Nat)
    let v : Int := (if y then -1 else 1) * (n * 2 ^ (g - q).toNat : Nat)
    let s := u + v
    if s == 0 then .fin (if x == y then x else rm.toNat == 2) 0 q
    else .fin (decide (s < 0)) s.natAbs q

def negNum : Num → Num
  | .nan => .nan
  | .inf x => .inf (!x)
  | .fin x m e => .fin (!x) m e

/-- Product of two exact values. -/
def mulNum (a b : Num) : Num :=
  match a, b with
  | .nan, _ | _, .nan => .nan
  | .inf x, .inf y => .inf (x != y)
  | .inf x, .fin y n _ => if n == 0 then .nan else .inf (x != y)
  | .fin x m _, .inf y => if m == 0 then .nan else .inf (x != y)
  | .fin x m e, .fin y n g => .fin (x != y) (m * n) (e + g)

/-- The event of an arithmetic result: a NaN not from a NaN operand is kind 0 (R93). -/
def withNan (operandNan : Bool) (r : Num) (e : Elem) : Elem :=
  if r.isNan then { e with kind := if operandNan then none else some 0 } else e

/-- One arithmetic result (R91): the exact value rounded once. -/
def arith (f : Fmt) (rm : BitVec 2) (o : Over) (operands : List Num) (r : Num) : Elem :=
  if operands.any Num.isInf && r.isInf then
    -- an infinity that comes from an infinite operand is not counted
    { elemOf f rm o r with kind := none }
  else withNan (operands.any Num.isNan) r (elemOf f rm o r)

/-- Overflow source of an arithmetic operation (R78): IEEE for f32, bf16 and f16, the table for narrower formats. -/
def arithOver (ovt : Word) (t : Ty) (f : Fmt) : Over :=
  match t with
  | .f32 | .bf16 | .f16 => .ieee
  | .e4m3 | .e5m2 | .e3m2 | .e2m3 | .e2m1 | .mq4 | .s4 | .s8 | .s16 | .s32 | .s64 | .z4 | .z8 | .z16 | .z32 | .z64 =>
    .table (bits ovt (2 * f.ovtIndex + 1) (2 * f.ovtIndex))

/-- Overflow source of a conversion to format `f` (R78). -/
def convOver (ovt : Word) (f : Fmt) : Over := .table (bits ovt (2 * f.ovtIndex + 1) (2 * f.ovtIndex))

/-- Range of an integer type. -/
def intRange (t : Ty) : Int × Int :=
  if isSigned t then (-(2 ^ (widthOf t - 1) : Int), 2 ^ (widthOf t - 1) - 1) else (0, 2 ^ widthOf t - 1)

/-- Value of an integer element. -/
def intOf (t : Ty) (w : Nat) : Int :=
  if isSigned t then signedOf (widthOf t) w else ((w % 2 ^ widthOf t : Nat) : Int)

/-- Keep the low bits of an integer result (R74). -/
def wrapElem (t : Ty) (i : Int) : Elem := ⟨wrapInt (widthOf t) i, none⟩

/-- Clamp an integer result to its type; a clamped result is kind 2 of group 7 (R233). -/
def clampElem (t : Ty) (i : Int) : Elem :=
  let (lo, hi) := intRange t
  if i < lo then ⟨wrapInt (widthOf t) lo, some 2⟩
  else if hi < i then ⟨wrapInt (widthOf t) hi, some 2⟩
  else ⟨wrapInt (widthOf t) i, none⟩

/-- `num / den x 2^e` rounded to an integer in the mode (R76, R79). -/
def roundInt (rm : BitVec 2) (neg : Bool) (m : Nat) (e : Int) : Int :=
  if 0 ≤ e then (if neg then -1 else 1) * (m * 2 ^ e.toNat : Nat)
  else
    let d := 2 ^ (-e).toNat
    let q := m / d
    let v := if roundUp rm neg (q % 2 == 1) (m % d) d then q + 1 else q
    (if neg then -1 else 1) * (v : Int)

/-- Exact value of an element of any type but mq4. -/
def numOf (t : Ty) (w : Nat) : Num :=
  match fmtOf t with
  | some f => numOfFmt f (w % 2 ^ widthOf t)
  | none => let i := intOf t w; .fin (decide (i < 0)) i.natAbs 0

/-- A conversion between element types (R77 to R80, R238). Its event belongs to the group of the destination. -/
def convNum (dt : Ty) (rm : BitVec 2) (ovt : Word) (n : Num) : Elem :=
  match fmtOf dt with
  | some f => elemOf f rm (convOver ovt f) n
  | none =>
    match n with
    | .nan => ⟨0, some 0⟩
    | .inf neg => ⟨wrapInt (widthOf dt) (if neg then (intRange dt).1 else (intRange dt).2), some 1⟩
    | .fin neg m e => clampElem dt (roundInt rm neg m e)

def convert (dt st : Ty) (rm : BitVec 2) (ovt : Word) (w : Nat) : Elem :=
  match fmtOf dt, fmtOf st with
  | some f, some _ =>
    if dt = st then (if (numOf st w).isNan then ⟨nanBits f, none⟩ else ⟨w % 2 ^ widthOf st, none⟩)
    else convNum dt rm ovt (numOf st w)
  | _, _ => convNum dt rm ovt (numOf st w)

/-- Level of an mq4 code, in 256ths (R83). -/
def mq4Level (c : Nat) : Bool × Nat :=
  let l := [0, 20, 41, 63, 87, 114, 147, 192]
  if c % 16 == 8 then (false, 256) else (decide (8 < c % 16), l.getD (c % 8) 0)

def f32Fmt : Fmt := ⟨8, 23, 127, 0x7F7FFFFF, some 0x7F800000, some 0x7FC00000, 0, 0⟩

/-- The first kind that applies, in the order NaN, overflow, infinity, underflow (R94). -/
def firstKind (ks : List (Option Nat)) : Option Nat :=
  if ks.contains (some 0) then some 0
  else if ks.contains (some 2) then some 2
  else if ks.contains (some 1) then some 1
  else if ks.contains (some 3) then some 3
  else none

/-- The f32 value of an mq4 element of a block with scale `q` in a group with super-scale `s`, with the event of its two
roundings (R85). -/
def mq4Elem (s q code : Nat) : Elem :=
  if code % 16 == 0 || q == 0 then ⟨0, none⟩
  else
    let (ln, lm) := mq4Level code
    let scale : Num × Option Nat :=
      match numOfFmt f32Fmt s with
      | .nan => (.nan, none)
      | .inf x => (.inf x, none)
      | .fin x m e =>
        let r := roundElem f32Fmt 0 .ieee x (m * q) 255 e
        (numOfFmt f32Fmt r.bits, r.kind)
    let v := elemOf f32Fmt 0 .ieee (mulNum (.fin ln lm (-8)) scale.1)
    ⟨v.bits, firstKind [scale.2, v.kind]⟩

def mq4Value (s q code : Nat) : Nat := (mq4Elem s q code).bits

/-- The event an mq4 value counts in group 6 (R85). -/
def mq4Event (w : Nat) : Option Nat :=
  match numOfFmt f32Fmt w with
  | .nan => some 0
  | .inf _ => some 1
  | .fin _ _ _ => none

/-- The exact scaled value of an element under scale byte `c` (R86). -/
def scaledNum (t : Ty) (c w : Nat) : Num :=
  if c == 0 then .fin false 0 0
  else if c == 0xFF then .nan
  else
    let e : Int := (c / 2 : Nat) - 63
    let n := numOf t w
    if c % 2 == 1 then mulNum n (.fin false 3 (e - 1)) else mulNum n (.fin false 1 e)

/-- Order of two exact values; no order with a NaN. -/
def ltNum (a b : Num) : Bool :=
  match a, b with
  | .nan, _ | _, .nan => false
  | .inf x, .inf y => x && !y
  | .inf x, .fin _ _ _ => x
  | .fin _ _ _, .inf y => !y
  | .fin _ _ _, .fin _ _ _ =>
    match addNum 0 a (negNum b) with
    | .fin neg m _ => neg && m != 0
    | .nan | .inf _ => false

/-- Magnitude order of two encodings of one format with -0 below +0 (R232). -/
def floatMin (f : Fmt) (wantMax : Bool) (a b : Nat) : Elem :=
  let x := numOfFmt f a
  let y := numOfFmt f b
  if x.isNan || y.isNan then ⟨nanBits f, none⟩
  else
    let aNeg := a / 2 ^ (f.ebits + f.mbits) % 2 == 1
    let aLess := ltNum x y || (!ltNum y x && aNeg)
    ⟨if aLess != wantMax then a else b, none⟩

/-- The lane-wise operations (R231). -/
inductive LaneOp where
  | add | sub | mul | fma | min | max | abs | neg | and | or | xor | shl | shr
deriving DecidableEq, Repr

/-- A lane-wise operation with a floating-point type (R232, R235): operands `a`, `s`, old destination `d`. -/
def floatLane (op : LaneOp) (t : Ty) (f : Fmt) (rm : BitVec 2) (ovt : Word) (a s d : Nat) : Elem :=
  let x := numOfFmt f a
  let y := numOfFmt f s
  let o := arithOver ovt t f
  let sgn := 2 ^ (f.ebits + f.mbits)
  match op with
  | .add => arith f rm o [x, y] (addNum rm x y)
  | .sub => arith f rm o [x, y] (addNum rm x (negNum y))
  | .mul => arith f rm o [x, y] (mulNum x y)
  | .fma => arith f rm o [x, y, numOfFmt f d] (addNum rm (mulNum x y) (numOfFmt f d))
  | .min => floatMin f false a s
  | .max => floatMin f true a s
  | .abs => if x.isNan then ⟨nanBits f, none⟩ else ⟨a % sgn, none⟩
  | .neg => if x.isNan then ⟨nanBits f, none⟩ else ⟨(a + sgn) % (2 * sgn), none⟩
  | .and => ⟨a &&& s, none⟩
  | .or => ⟨a ||| s, none⟩
  | .xor => ⟨a ^^^ s, none⟩
  | .shl | .shr => ⟨a, none⟩

/-- A lane-wise operation with an integer type, wrapping or saturating (R233 to R235). -/
def intLane (op : LaneOp) (sat : Bool) (t : Ty) (a s d : Nat) : Elem :=
  let b := widthOf t
  let x := intOf t a
  let y := intOf t s
  let fin := fun i => if sat then clampElem t i else wrapElem t i
  let n := s % 2 ^ (if b < 6 then b else 6)
  match op with
  | .add => fin (x + y)
  | .sub => fin (x - y)
  | .mul => fin (x * y)
  | .fma => fin (x * y + intOf t d)
  | .min => ⟨if x ≤ y then a else s, none⟩
  | .max => ⟨if x ≤ y then s else a, none⟩
  | .abs => fin (x.natAbs : Int)
  | .neg => fin (-x)
  | .and => ⟨a &&& s, none⟩
  | .or => ⟨a ||| s, none⟩
  | .xor => ⟨a ^^^ s, none⟩
  | .shl => if sat then clampElem t (x * 2 ^ n) else ⟨if b ≤ n then 0 else (a * 2 ^ n) % 2 ^ b, none⟩
  | .shr =>
    if isSigned t then wrapElem t (x / 2 ^ n) else ⟨if b ≤ n then 0 else a / 2 ^ n, none⟩

/-- A lane-wise operation of type `t` on whole cells: bits above the width are ignored (R223). -/
def laneOp (op : LaneOp) (sat : Bool) (t : Ty) (rm : BitVec 2) (ovt : Word) (a s d : Nat) : Elem :=
  let cut := fun w => w % 2 ^ widthOf t
  match fmtOf t with
  | some f => floatLane op t f rm ovt (cut a) (cut s) (cut d)
  | none => intLane op sat t (cut a) (cut s) (cut d)

/-- The relations of VCMP (R236). -/
inductive Cmp where
  | eq | ne | lt | le
deriving DecidableEq, Repr

def compareElems (c : Cmp) (t : Ty) (a s : Nat) : Bool :=
  let x := numOf t a
  let y := numOf t s
  if x.isNan || y.isNan then decide (c = .ne)
  else
    match c with
    | .eq => !ltNum x y && !ltNum y x
    | .ne => ltNum x y || ltNum y x
    | .lt => ltNum x y
    | .le => !ltNum y x

/-- Nodes of the reductions (R244). -/
inductive RedOp where
  | add | max | min | amax
deriving DecidableEq, Repr

/-- Largest magnitude, sign clear; s types clamp the smallest value (R244). -/
def magnitude (t : Ty) (a : Nat) : Elem :=
  match fmtOf t with
  | some f => floatLane .abs t f 0 0 (a % 2 ^ widthOf t) 0 0
  | none => if isSigned t then clampElem t ((intOf t a).natAbs : Int) else ⟨a % 2 ^ widthOf t, none⟩

def reduceNode (op : RedOp) (t : Ty) (rm : BitVec 2) (ovt : Word) (a b : Nat) : Elem :=
  match op with
  | .add => laneOp .add false t rm ovt a b 0
  | .max => laneOp .max false t rm ovt a b 0
  | .min => laneOp .min false t rm ovt a b 0
  | .amax => laneOp .max false t rm ovt a b 0

/-- One level of the pairwise tree of R92. -/
def treeLevel (node : Nat → Nat → Elem) : List Nat → List Elem
  | a :: b :: rest => node a b :: treeLevel node rest
  | [a] => [⟨a, none⟩]
  | [] => []

/-- The tree of R92 over a list whose length is a power of two, with the kinds its nodes met. -/
def treeSum (node : Nat → Nat → Elem) : Nat → List Nat → List (Option Nat) → Nat × List (Option Nat)
  | 0, l, ks => (l.headD 0, ks)
  | f + 1, l, ks =>
    match l with
    | [] => (0, ks)
    | [a] => (a, ks)
    | _ =>
      let r := treeLevel node l
      treeSum node f (r.map Elem.bits) (ks ++ r.map Elem.kind)

/-- A reduction over the cells of a row or column (R244), one result with one event. -/
def reduce (op : RedOp) (t : Ty) (rm : BitVec 2) (ovt : Word) (l : List Nat) : Elem :=
  let cut := l.map (fun w => w % 2 ^ widthOf t)
  let ins := if op = .amax then cut.map (magnitude t) else cut.map (fun w => (⟨w, none⟩ : Elem))
  let (r, ks) := treeSum (reduceNode op t rm ovt) 8 (ins.map Elem.bits) (ins.map Elem.kind)
  ⟨r, firstKind ks⟩

/-- Counters an element result of group `g` adds to: FEC number `4g + kind` (R93); group 7 has no kind 3. -/
def fecOf (g : Nat) (k : Option Nat) : List Nat :=
  match k with
  | some n => if g == 7 && n == 3 then [] else [4 * g + n]
  | none => []

/-- f32 arithmetic in a mode, as the weight-code engine and the lease array use it: bits and event. -/
def f32Add (rm : BitVec 2) (a b : Nat) : Elem := floatLane .add .f32 f32Fmt rm 0 a b 0
def f32Sub (rm : BitVec 2) (a b : Nat) : Elem := floatLane .sub .f32 f32Fmt rm 0 a b 0
def f32Mul (rm : BitVec 2) (a b : Nat) : Elem := floatLane .mul .f32 f32Fmt rm 0 a b 0

/-- f32 quotient, one rounding (R312: PENREP and TEMP). -/
def f32Div (rm : BitVec 2) (a b : Nat) : Nat :=
  match numOfFmt f32Fmt a, numOfFmt f32Fmt b with
  | .nan, _ | _, .nan => nanBits f32Fmt
  | .inf _, .inf _ => nanBits f32Fmt
  | .inf x, .fin y _ _ => signBit f32Fmt (x != y) + 0x7F800000
  | .fin x _ _, .inf y => signBit f32Fmt (x != y)
  | .fin x m e, .fin y n g =>
    if n == 0 then (if m == 0 then nanBits f32Fmt else signBit f32Fmt (x != y) + 0x7F800000)
    else (roundElem f32Fmt rm .ieee (x != y) m n (e - g)).bits

/-- An exact value rounded to f32 in RNE. -/
def f32Of (n : Num) : Nat := (elemOf f32Fmt 0 .ieee n).bits

/-- bf16 widened exactly to f32. -/
def f32OfBf16 (w : Nat) : Nat := (w % 65536) * 65536

end Sys2Proof.Machine
end

