-- ==== Sys2Proof/Machine/State.lean ====
section
/-!
DEFINITION. The state of the package as plain data: every register, store, queue and engine the manual names, the state
after reset, and the reasons a step can stop. Fields marked MODEL are the model's own: they decide who moves next, or keep
what the manual's undecided reads may still return.
-/
namespace Sys2Proof.Machine

/-- An older value of one entry of a file that some readers may still receive (R205, R208, R210, R160). MODEL. -/
structure Shadow (α : Type) where
  id : Nat
  key : Nat
  old : α
  /-- Who wrote over it, then or since: 0 C, 1 A, 2 V, 3 W, or 8 + the number of a queued command, each with the place of
  the writing instruction in its walk. -/
  srcs : List (Nat × Nat)
  /-- Readers that may still receive the old value: 0 C, 1 A, 2 V, 3 W, 4 the stream side. -/
  blind : List Nat
deriving DecidableEq, Repr

/-- A register file or store shared by the engines of a core: its contents, the older values that unsynchronised
readers may still receive, and the poison marks of R116. Entries that hold zero and no mark are not listed. -/
structure File (α : Type) where
  cur : Sparse α
  old : List (Shadow α)
  poison : Sparse Bool
deriving DecidableEq, Repr

/-- A file of zeros. -/
def File.zero {α : Type} : File α := { cur := [], old := [], poison := [] }

/-- The faults of R411, with their codes there. -/
inductive FaultCode where
  | illegalInstruction | translation | unbackedAddress | alignment | nearAddress | engineCommand | layout | formatConfig
  | probeConfig | atomic | order | memoryCommand | weightCode | lease | samplerCommand | emptyGrammar | grammarStack
  | grammarTable | sequenceFaulted | privilege | trap | syscall | poison | placement | nestedFault
deriving DecidableEq, Repr

/-- A fault as it is reported: code and cause of R411, the value for TVAL (R413), and whether it came with a result
element or from the stream side. -/
structure FaultRec where
  code : FaultCode
  cause : Nat := 0
  tval : Word := 0
  element : Bool := false
  popped : Bool := false
  stream : Option Nat := none
deriving DecidableEq, Repr

/-- A token: the engine whose instruction pushed it and that instruction's place in the walk (R205), the number of the
command that pushed it where one did (R160), the fault mark of R159, and the package clk of its push, in which it is not
yet there to be popped (R368). -/
structure Token where
  src : Nat
  seq : Nat
  cmd : Option Nat := none
  mark : Option FaultRec := none
  clk : Nat := 0
deriving DecidableEq, Repr

/-- A token queue of 16 places (R368): pushed tokens, oldest first, and places reserved by instructions in flight. -/
structure TokenQueue where
  toks : List Token := []
  reserved : Nat := 0
deriving DecidableEq, Repr

/-- An element of an outcome queue (R371), with the group of the branch that pushed it (R380). -/
structure Outcome where
  taken : Bool
  target : Nat
  group : Nat
deriving DecidableEq, Repr

/-- A stretch an engine is in (R376, R377). -/
inductive Stretch where
  /-- After a PROBE miss; ends with a J to `back`. -/
  | miss (back : Nat)
  /-- After a taken branch with the leave mark; ends at a SYNCPC.d. -/
  | leave
deriving DecidableEq, Repr

/-- An instruction in a decoded queue (R366): its address and parcels, only the first of one that the engine passes over
(R50), whether what was read of it is poisoned (R412), and the mode of its page (R382). -/
structure Decoded where
  addr : Nat
  parcels : List (BitVec 32)
  mark : Bool := false
  /-- Which parcel is the first poisoned one (R433). -/
  badAt : Nat := 0
  exposed : Bool := false
deriving DecidableEq, Repr

/-- The state of one engine of a core (R361 to R367, R211). -/
structure Engine where
  pc : Nat := 0
  walk : Nat := 0
  /-- Tags met so far in the current group (R362), and whether the engine has begun the group (R365). -/
  seen : List Nat := []
  begun : Bool := false
  /-- Instructions issued, which places an instruction in the walk (R204). MODEL. -/
  seq : Nat := 0
  /-- First core clk in which the engine may issue again (R367). -/
  nextIssue : Nat := 0
  lc : Sparse (BitVec 32) := []
  stretch : Option Stretch := none
  /-- Waiting at a SYNCPC or SYNCPC.d (R379). -/
  atSync : Bool := false
  /-- Mode it runs in, once its first page is known: exposed or interlocked (R382). -/
  exposed : Option Bool := none
  /-- Waiting at a mode crossing (R383). -/
  atCross : Bool := false
  halted : Bool := false
  /-- Brought to the SYNCPC.d of a leave (R380). -/
  joined : Bool := false
  /-- Back from a stretch, its mode not yet compared with the page's (R378); and the mode of the walk, in a miss stretch and until
  then (R382, R383). -/
  returned : Bool := false
  home : Option Bool := none
  /-- The instruction at the program counter issues once without popping (R421). -/
  noPop : Bool := false
  /-- Decoded queue (R366): at most eight instructions of the engine's own tag or S, with those it passes over between them. -/
  decoded : List Decoded := []
  /-- Faults of commands with an empty push set, to be raised at the next instruction (R159, R274, R301). -/
  owed : List FaultRec := []
  /-- The divider is busy before this core clk (R222). -/
  dividerFree : Nat := 0
  /-- Groups in which it has passed an instruction of the other engine that R385 orders with its own, a WCALL or an MST, which that
  engine may still issue. MODEL. -/
  ahead : List Nat := []
deriving DecidableEq, Repr

/-- Where a late result goes. -/
inductive Loc where
  | g (r : Nat)
  | cell (k : Nat)
  /-- A byte of the scratchpad, by near address. -/
  | near (a : Nat)
  /-- An index register; never the place of a late result. -/
  | k (n : Nat)
deriving DecidableEq, Repr

/-- One value on its way to its place, with its poison mark. -/
structure Late where
  loc : Loc
  val : Word
  mark : Bool := false
deriving DecidableEq, Repr

/-- What a landing entry does when its clk comes. -/
inductive LandAct where
  | write (ws : List Late)
  /-- The scratchpad read of one MLD segment (R189): near address, cells in order, element type. -/
  | loadSegment (a : Nat) (cells : List Nat) (t : Ty)
  /-- The cell reads of one MST segment (R189). -/
  | storeSegment (a : Nat) (cells : List Nat) (t : Ty)
deriving DecidableEq, Repr

/-- A result in flight (R384): when it lands, in core clk (none: when its memory access returns), whether its destination
is scoreboarded in every region (R185, R222), the tokens it pushes and the event counters it raises. -/
structure Landing where
  due : Option Nat
  eng : Eng
  seq : Nat
  /-- Group of the instruction (R385). -/
  tag : Nat := 0
  scoreboard : Bool
  act : LandAct
  push : BitVec 4 := 0
  counts : List Nat := []
  /-- An LD, counted under R186; an atomic, counted under R201. -/
  isLoad : Bool := false
  isAtomic : Bool := false
  /-- A matrix move issued before the trap whose handler runs: it completes, with the trap frame's tokens (R416). -/
  old : Bool := false
deriving DecidableEq, Repr

/-- A key of R332: time, then package core number, 256 for a home slice's own writes. -/
structure Key where
  time : Nat := 0
  num : Nat := 0
deriving DecidableEq, Repr

/-- A store-log record (R333). -/
structure LogRec where
  block : Nat
  data : BitVec 128
  mask : BitVec 128
  ctx : Nat
  /-- Release time, when published. -/
  time : Option Nat := none
  /-- Mark of the task that wrote it, while provisional (R357). -/
  prov : Option Nat := none
  settled : Bool := false
  poison : Bool := false
  /-- Compression of the page it was stored through (R163). -/
  comp : Nat := 0
  /-- Mark of the task that published it (R401). MODEL. -/
  owner : Option Nat := none
deriving DecidableEq, Repr

/-- A coherence class (R134). -/
inductive Coh where
  | p | l | o
deriving DecidableEq, Repr

/-- A line of an L1 (R180, R331): the moment of memory it was filled at, the bytes written since (P), and the lease
times of its copy (O). Lists of lines are in recency order, most recent first. -/
structure L1Line where
  line : Nat
  cls : Coh
  owner : Nat
  moment : Nat
  dirty : Sparse Byte := []
  wts : Nat := 0
  rts : Nat := 0
  /-- What each byte's last O store made known (R340). MODEL. -/
  vecs : Sparse (Sparse Nat) := []
  /-- Granules of a P line into which poisoned data has been stored (R116), by number. -/
  marks : List Nat := []
  /-- The cluster's exclusive copy of the line, which its .clu atomics work on (R344). -/
  exclusive : Bool := false
deriving DecidableEq, Repr

/-- A TLB entry (R137): the leaf it was made from, with the page's first address and size. -/
structure TlbEntry where
  asn : Nat
  base : Nat
  size : Nat
  leaf : Word
deriving DecidableEq, Repr

/-- A copy command (R148, R149), with the OVT and geometry registers and the level it was issued under (R82, R90). -/
structure CopyCmd where
  layout : List Word
  xform : BitVec 32
  near : Nat
  rm : BitVec 2
  id : Nat
  tag : Nat
  push : BitVec 4
  /-- Pushed to the copy engine's FIFO, so that it reports by a result element. -/
  fifo : Bool := false
  /-- Stream of a task being staged (R400), and the fault that reading its record has met, with which it ends. -/
  staging : Bool := false
  broken : Option FaultRec := none
  ctx : Nat := 0
  ovt : Word := 0
  bgm : List Word := []
  level : Bool := false
  /-- Place of its COPY in the access engine's walk; none for a pushed or a staging copy (R175). MODEL. -/
  order : Option Nat := none
deriving DecidableEq, Repr

/-- The copy command under way and how many elements it has moved (R151, R153). -/
structure CopyRun where
  cmd : CopyCmd
  pos : Nat
  /-- The fault that ends it. -/
  fault : Option FaultRec := none
  /-- Virtual lines of the far tensor still to be looked at for one O load each, rising, and the lines so loaded (R343). -/
  ahead : List Nat := []
  loaded : List L1Line := []
  /-- Bytes of O pages that the elements moved so far write, to be stored line by line: data, enabled bits, mark (R343). -/
  stores : Sparse (Byte × Byte × Bool) := []
deriving DecidableEq, Repr

/-- A probe fill (R194): tag-table entry and near address of its slot, the block's page and physical address as the PROBE
translated them, bytes written. -/
structure Fill where
  entry : Nat
  slot : Nat
  page : TlbEntry
  pa : Nat
  tag : Nat
  /-- Place of its PROBE in the access engine's walk (R175). MODEL. -/
  order : Nat
  pos : Nat := 0
deriving DecidableEq, Repr

/-- A near byte as it stood before a store at place `order` of the access engine's walk, while copy commands of earlier
places were still to act (R175). MODEL. -/
structure NearOld where
  order : Nat
  /-- Address in the scratchpad, or 2^21 more than a physical address for a spilled block. -/
  place : Nat
  old : Byte
  mark : Bool
deriving DecidableEq, Repr

/-- An entry of the probe tag table (R191). -/
structure ProbeTag where
  entry : Nat
  pending : Bool
  block : Nat
  /-- Poisoned by a soft error (R431). -/
  mark : Bool := false
deriving DecidableEq, Repr

/-- Stripe registers (R250, R252). -/
structure Stripe where
  base : Nat := 0
  pitch : Nat := 0
  k : Nat := 0
  ty : Ty := .f32
  rm : BitVec 2 := 0
  /-- Poisoned by a soft error (R431). -/
  mark : Bool := false
deriving DecidableEq, Repr

/-- What a queued weight-code command asks (R251, R254 to R256, R388). -/
inductive WOp where
  | stripe (st : Stripe)
  | zero (base count : Nat)
  | call (d gen abase : Nat)
  | slack (n : Nat)
deriving DecidableEq, Repr

/-- A command of the weight-code queue. `sees` lists the shadows it no longer reads as old (R258). -/
structure WCmd where
  op : WOp
  id : Nat
  tag : Nat
  push : BitVec 4
  seq : Nat
  sees : List Nat := []
deriving DecidableEq, Repr

/-- Position of a call in one descriptor (R259 to R262). -/
structure StreamPos where
  gen : Nat
  arow : Nat
  segTable : Nat
  segCount : Nat
  seg : Nat
  colbase : Nat := 0
  /-- First address and parcel count of the segment's code (R260, R271). -/
  start : Nat := 0
  parcels : Nat := 0
  pc : Nat := 0
  slack : Nat := 0
  lag : Nat := 0
  /-- Directives are being executed: the segment's entry has been chosen. -/
  inSegment : Bool := false
deriving DecidableEq, Repr

/-- What a read of the stream side has found, which it learns when the read returns (R474): a fault, poison at an address, an invalid
hook entry, or a valid one with the address of its descriptor (R268). -/
inductive StreamRead where
  | fault (f : FaultRec)
  | poison (tval : Nat)
  | noHook
  | hook (d : Nat)
deriving DecidableEq, Repr

/-- The call the stream side runs (R262), the caller's position while in a hooked descriptor (R268), and a read of a header or a hook
entry that has not returned. -/
structure StreamCall where
  cmd : WCmd
  abase : Nat
  floatKind : Bool
  pos : StreamPos
  caller : Option StreamPos := none
  read : Option StreamRead := none
deriving DecidableEq, Repr

/-- A valid sector of code (R127): the moment of its bytes, the granules of it that hold an error, those of them that an
engine has executed, and the cores that count the others when the sector goes (R415). -/
structure CodeSector where
  moment : Nat
  bad : List Nat := []
  run : List Nat := []
  cores : List Nat := []
deriving DecidableEq, Repr

/-- A code page in the die code cache (R127) or in a core's code buffer (R271): its valid sectors; pages stand in recency
order. -/
structure CodePage where
  page : Nat
  sectors : Sparse CodeSector
deriving DecidableEq, Repr

/-- Array operations (R295 to R298). -/
inductive LeaseOp where
  | lmm | lmmA | lmmg | lmmgA | lscore | lscoreCm | lscoreTm | lpv | lpvA
deriving DecidableEq, Repr

/-- What a core's own view of memory adds to settled memory at a moment: its log, the records it has replayed, its dirty
lines of P pages; with the earliest moment its reads may find (R338) and the moment itself (R299). -/
structure CoreView where
  log : List LogRec := []
  replay : List (Nat × LogRec) := []
  lines : List L1Line := []
  moment : Nat := 0
  now : Nat := 0
deriving DecidableEq, Repr

/-- A queued lease command with everything it read at issue (R293, R294), and the issuing core's view then (R299). -/
structure LeaseCmd where
  op : LeaseOp
  word : Word
  k : Nat
  slotA : List Word
  slotB : List Word
  score : List Word
  fmt : Word
  bgmA : Word
  bgmB : Word
  level : Bool := false
  /-- Power class of its session (R288). -/
  cls : Nat := 3
  /-- Step of its issue (R322). MODEL. -/
  stamp : Nat := 0
  view : CoreView := {}
  id : Nat
  tag : Nat
  push : BitVec 4
  seq : Nat
  /-- Groups of 32 along k already accumulated (R285). -/
  groups : Nat := 0
deriving DecidableEq, Repr

/-- A REL, FENCE or SETTLE that has issued and not completed (R350 to R353): scope, and the release time up to which it
speaks of records. -/
inductive Ordering where
  | rel (scope : Nat) (upto : Nat)
  | fence (scope : Nat) (upto : Nat)
  | settle (code : Bool) (upto : Nat)
deriving DecidableEq, Repr

structure OrderWait where
  op : Ordering
  push : BitVec 4
  id : Nat
  seq : Nat
deriving DecidableEq, Repr

/-- What an access asks of its page (R136). -/
structure Want where
  r : Bool := false
  w : Bool := false
  x : Bool := false
deriving DecidableEq, Repr

/-- An access that a walk is for (R138): a core by its number, a shared engine by 256 + 4096 x die + its FIFO's number; what it
asks of the page, and whether it is made at the privileged level. -/
structure WalkAsk where
  who : Nat
  want : Want := {}
  priv : Bool := false
deriving DecidableEq, Repr

/-- A walk that has failed for an access (R136): granule, cause (6: it met a poisoned entry, R433), and the access, which has
still to receive the result. -/
structure WalkFail where
  granule : Nat
  cause : Nat
  ask : WalkAsk
deriving DecidableEq, Repr

/-- A class N store on its way (R446): the bits it writes, with the mark of its data, and its place among the core's commands. -/
structure FlyingStore where
  ws : List (Nat × Byte × Byte)
  mark : Bool
  id : Nat
deriving DecidableEq, Repr

/-- What a trap entry puts aside (R416). -/
structure TrapFrame where
  engines : List Engine
  slipw : Word
  tokens : Sparse TokenQueue
  outcomes : Sparse (List Outcome)
  lag : Nat
  landing : List Landing
  leaving : Option (Nat × Nat)
  /-- Core clk from which the landing delays count. -/
  since : Nat
  /-- Commands numbered below this were queued before the trap; their tokens go into the frame. -/
  ids : Nat
  /-- Poisoned by a soft error (R431). -/
  mark : Bool := false
deriving DecidableEq, Repr

/-- What a popper acquires with an element (R346): the pushing core's publication, or a shared engine's key. -/
structure Release where
  core : Option Nat := none
  time : Nat := 0
  /-- What a pop makes known (R340). MODEL. -/
  known : Sparse Nat := []
deriving DecidableEq, Repr

/-- A command in a FIFO (R142, R145): when it was pushed, and by which task. -/
structure Cmd where
  ctx : Nat
  core : Nat
  stamp : Nat
  task : Option Nat
  words : List Word
  rm : BitVec 2 := 0
  release : Release := {}
  /-- Package clk of the push, by which those of different cores take effect (R308). -/
  clk : Nat := 0
  /-- Poisoned by a soft error (R431). -/
  mark : Bool := false
deriving DecidableEq, Repr

/-- One core with all it holds for the running context. -/
structure Core where
  /-- Context whose state the core holds. -/
  ctx : Option Nat := none
  /-- Scoreboard entry of the task on the core, and whether its engines run. -/
  task : Option Nat := none
  running : Bool := false
  /-- Core clk: the count that frozen clk stop (R384), and whether the present clk is frozen. -/
  ck : Nat := 0
  frozen : Bool := false
  /-- The present clk is a starved one (R272), or one in which an engine waits on a pending slot (R387), not yet counted. -/
  starved : Bool := false
  lagging : Bool := false
  g : File Word := File.zero
  /-- Registers written in this clk or the next, each with the clk of the write and the engine (R206). MODEL. -/
  gTurn : Sparse (Nat × Nat) := []
  cells : File Cell := File.zero
  /-- Live plane, by physical byte; the attic. -/
  near : File Byte := File.zero
  attic : Sparse Byte := []
  atticPoison : Sparse Bool := []
  acc : Sparse Cell := []
  accPoison : Sparse Bool := []
  slots : Sparse Cell := []
  slotPoison : Sparse Bool := []
  bank : Sparse Cell := []
  bankPoison : Sparse Bool := []
  /-- System registers by number (R209); LSES is kept in `leaseOpen`, `leaseClass` and `leaseQueue`. -/
  sys : File Word := File.zero
  kregs : Sparse Word := []
  /-- Index registers that a soft error has poisoned (R431). -/
  kMarks : List Nat := []
  engC : Engine := {}
  engA : Engine := {}
  engV : Engine := {}
  engW : Engine := {}
  tokens : Sparse TokenQueue := []
  outcomes : Sparse (List Outcome) := []
  landing : List Landing := []
  /-- A leave in progress (R380): group of the private branch and address of the SYNCPC.d, with its decider. -/
  leaving : Option (Nat × Nat) := none
  /-- Group of the HALT the control engine has executed (R425). -/
  haltAt : Option Nat := none
  /-- Holder of the decode slot (R366): 0 C, 1 A, 2 V, 3 W; and whether it has issued an instruction with the switch-away
  mark in this clk. -/
  holder : Nat := 0
  switched : Bool := false
  /-- For each reader and writer (8 x reader + writer), one more than the place of the latest instruction of the writer's
  walk whose token the reader has popped (R205, R208, R210). MODEL. -/
  heard : Sparse Nat := []
  /-- SLIPW before a SYSW of it, with the core clk of that SYSW's issue (R364). -/
  slipOld : Option (Nat × Word) := none
  /-- An access to a spilled block is stopping the clocks of the engines (R177). -/
  spillStall : Bool := false
  /-- Near places that an MST has written in this package clk (R175): the clk, the places. MODEL. -/
  mstPlaces : Nat × List Nat := (0, [])
  probeLag : Nat := 0
  trapFrame : Option TrapFrame := none
  /-- Faults the core has raised, by which the step sees that a turn raised one (R414). MODEL. -/
  raised : Nat := 0
  /-- Scratchpad port for matrix moves is free from this core clk (R190). -/
  portFree : Nat := 0
  nextId : Nat := 0
  /-- PRCFG waiting for the pending fills (R191), and whether PRCFG_WRITE has written it. -/
  prcfgWait : Option (Word × Bool) := none
  probeTags : List ProbeTag := []
  /-- Commands pushed to the core's copy FIFO, while its context is out (R151). -/
  pushedOut : List Cmd := []
  fillQueue : List Fill := []
  fillRun : Option Fill := none
  copyQueue : List CopyCmd := []
  copyRun : Option CopyRun := none
  /-- Near bytes that stores overtaking a copy have replaced (R175). MODEL. -/
  nearOld : List NearOld := []
  /-- PROMOTE, PROMOTE.H and DEMOTE not finished (R111): rows left and the tokens to push. -/
  rowOps : List (Nat × Nat × BitVec 4 × Nat) := []
  l1 : List L1Line := []
  tlb : List TlbEntry := []
  /-- Page walks of this core that have failed, until it receives the result (R136, R138). -/
  walkFail : List WalkFail := []
  log : List LogRec := []
  /-- The core's logical clock (R332). -/
  clock : Nat := 0
  /-- The moment m of R338. -/
  moment : Nat := 0
  /-- For each core and scope (8 x core + scope), the latest publication a chain of R340 leads from; and this core's
  publications with what each makes known: time, scope, chain. MODEL. -/
  known : Sparse Nat := []
  pubs : List (Nat × Nat × Sparse Nat) := []
  /-- Records replayed, each with its core's number (R339). -/
  replay : List (Nat × LogRec) := []
  orderWaits : List OrderWait := []
  /-- Class N stores that have been issued and not yet applied at their lenders, oldest first (R446). -/
  flying : List FlyingStore := []
  /-- Class N stores that failed on their way (R447). -/
  lostStores : Nat := 0
  stripe : Stripe := {}
  wQueue : List WCmd := []
  wSlack : Nat := 0
  call : Option StreamCall := none
  codeBuffer : List CodePage := []
  /-- Sectors asked of the die's code cache, and pages of the code buffer asked for (R127, R271). -/
  codeRequests : List Nat := []
  bufferRequests : List Nat := []
  leaseOpen : Bool := false
  leaseClass : Nat := 0
  leaseQueue : List LeaseCmd := []
  /-- LRELs whose earlier commands are not all complete: tokens, number, place in the control engine's walk (R292). -/
  lrels : List (BitVec 4 × Nat × Nat) := []
  /-- Faults of lease commands with an empty push set, raised at the next lease instruction (R301). -/
  leaseOwed : List FaultRec := []
  /-- Task dependences by replay of provisional records (R357). -/
  deps : List Nat := []
  /-- The task's records are no longer provisional; it cannot be rolled back (R359). -/
  noRollback : Bool := false
  /-- Poison was consumed; the sequencer takes the task back (R432). -/
  rollback : Bool := false
  /-- Program counter of the instruction that consumed it, where one did. -/
  rollbackPc : Option Nat := none
  /-- To be halted for a pre-emption when the present clk ends (R430); halted so while its task ran; the incoming image is in the
  attic and the shadow store (R427). -/
  haltAsked : Bool := false
  parked : Bool := false
  /-- First core clk after the halt, from which landing delays and gaps count when the context resumes (R384). -/
  parkedAt : Nat := 0
  /-- Since a pre-emption brought the context in: the first core clk in which it may issue, and the instructions its engines had issued
  before (R441). -/
  arrived : Option (Nat × Nat) := none
  loaded : Bool := false
  /-- Poison marks of storage whose data has none of its own (R431): engines whose state holds one, queued commands by number. -/
  engMarks : List Nat := []
  badCmds : List Nat := []
  /-- Counters armed and at or above the threshold by a SYSW, which post nothing until written below (R96). -/
  fecQuiet : List Nat := []
  /-- Counters that have crossed the threshold in this clk, whose records are posted at its end (R96). -/
  fecCrossed : List Nat := []
deriving DecidableEq, Repr

/-! ### Memory -/

/-- What one byte held before a write, with the keys of its bits: enough to read memory as of an earlier moment. MODEL. -/
structure Past where
  moment : Nat
  addr : Nat
  byte : Byte
  keys : List Key
deriving DecidableEq, Repr

/-- Tag of a promotion slot (R103). Lists of tags are in promotion order, oldest first. -/
structure PromoTag where
  slot : Nat
  row : Nat
  dirty : Bool
  hold : Bool
  /-- Lines of the slot written since its row was copied, each with the last moment whose bytes the cellar row keeps (R104). -/
  old : Sparse Nat := []
  /-- Poisoned by a soft error (R431). -/
  mark : Bool := false
deriving DecidableEq, Repr

/-- A row operation that has reached a bank (R105): promote, promote with hold, or demote; the cellar row's address;
the core that asked. -/
structure RowOp where
  kind : Nat
  addr : Nat
  core : Nat
  seq : Nat
deriving DecidableEq, Repr

/-- A stack with its controller and base-die manager (R98 to R117). -/
structure Stack where
  /-- By subarray number: channel x 2048 + bank x 32 + subarray. -/
  promo : Sparse (List PromoTag) := []
  rowOps : List RowOp := []
  refusedPromotions : Nat := 0
  refusedHolds : Nat := 0
  dirtyDemotions : Nat := 0
  corrected : Nat := 0
  uncorrectable : Nat := 0
  fallbackEntries : Nat := 0
  refusedDemotions : Nat := 0
  /-- Clk of the last good heartbeat, and heartbeats found missing since (R113). -/
  lastBeat : Nat := 0
  missed : Nat := 0
  failed : Bool := false
  /-- Clk of the detection, from which the first fallback refresh is due (R113). -/
  failedAt : Nat := 0
  /-- Clk of the first fallback refresh, from which rounds are counted. -/
  fallbackStart : Option Nat := none
  readyBeats : Nat := 0
  /-- The manager refreshes again and its next heartbeat lets row operations in (R114). -/
  handedBack : Bool := false
  refreshRow : Nat := 0
  scrubRow : Nat := 0
deriving DecidableEq, Repr

/-- A line of an L2 slice (R118 to R126); lists are in recency order, most recent first. -/
structure L2Line where
  line : Nat
  dirty : Bool
  pins : Nat
  noAlloc : Bool
  /-- Of a dirty line, the last moment whose bytes DRAM holds (R121). -/
  since : Nat := 0
  /-- Granules of the line, by number, that have gone bad in DRAM beneath its sound copy (R116). -/
  under : List Nat := []
deriving DecidableEq, Repr

/-- A request that has reached a slice, and the fill it has started (R120): line, policy (R122), whether it writes, who asks
(8 x package core number + unit of R117), and what the check bits of its DRAM read find, at which address (R115, R116). -/
structure L2Req where
  line : Nat
  policy : Nat
  write : Bool
  who : Nat
  err : Option (Nat × DramErr) := none
deriving DecidableEq, Repr

/-- One L2 slice: tags, the second-touch filter (R123), its miss count. -/
structure Slice where
  lines : List L2Line := []
  /-- Requests that have reached the slice, oldest first, and fills under way (R120). -/
  requests : List L2Req := []
  fills : List L2Req := []
  filter : Sparse Bool := []
  misses : Nat := 0
  /-- What a home atomic performed here makes known (R340). MODEL. -/
  known : Sparse Nat := []
deriving DecidableEq, Repr

/-! ### Engines and queues of a die -/

/-- A result element (R146), with the number of the copy command that it reports, which wrote the scratchpad. -/
structure Res where
  ctx : Nat
  val : Word
  release : Release := {}
  fault : Option FaultRec := none
  cmd : Option Nat := none
  /-- Poisoned by a soft error (R431). -/
  mark : Bool := false
deriving DecidableEq, Repr

/-- A FIFO of the window (R142): commands and results. -/
structure Fifo where
  cmds : List Cmd := []
  results : List Res := []
  /-- clk and rank of the last push and of the last pop, by which those of one clk come in the order of R145. -/
  pushed : Nat × Nat := (0, 0)
  popped : Nat × Nat := (0, 0)
deriving DecidableEq, Repr

/-- A table pointer of the walk cache (R138). -/
structure WalkEntry where
  asn : Nat
  level : Nat
  index : Nat
  table : Nat
deriving DecidableEq, Repr

/-- A miss waiting for a walker (R138): address space, 64 KiB granule, root table, and the accesses that wait. -/
structure WalkReq where
  asn : Nat
  granule : Nat
  root : Word
  asks : List WalkAsk
  /-- Poisoned by a soft error (R431). -/
  mark : Bool := false
deriving DecidableEq, Repr

/-- A context on a die (R391, R392). -/
structure Context where
  num : Nat
  mask : BitVec 8
  ptb : Word
  mailFirst : Nat
  mailCount : Nat
  ring : Nat
  tvec : Word := 0
deriving DecidableEq, Repr

/-- A hardware queue (R394). -/
structure HwQueue where
  ring : Nat
  ctx : Nat
  entries : Nat
  enable : Bool
  weight : Nat
  head : Nat
  lastTail : Nat
  /-- Doorbells whose records have not all been read: tail and clk, oldest first (R403). -/
  doorbells : List (Nat × Nat) := []
deriving DecidableEq, Repr

/-- States of a task (R398). -/
inductive TaskState where
  | waiting | ready | staging | running | ending
deriving DecidableEq, Repr

/-- A scoreboard entry (R398), with what its launch and descriptor say (R395, R396). -/
structure Task where
  ctx : Nat
  launch : Nat
  index : Nat
  single : Bool
  desc : Nat
  args : List Word
  tag : BitVec 32
  fused : Bool
  base : Nat
  /-- Queue number, or 4096 for the spawn port. -/
  source : Nat
  deps : Nat
  succs : List Nat
  state : TaskState
  core : Option Nat := none
  entry : Nat
  named : Option Nat
  persistent : Bool
  streams : List (Nat × Nat × BitVec 32)
  readySince : Nat := 0
  /-- Full milliseconds ready that have been counted (R405). -/
  aged : Nat := 0
  rollbacks : Nat := 0
  /-- Steps of R401 done. -/
  step : Nat := 0
  /-- The fault and the program counter it is reported with, and the clk of it (R430). -/
  fault : Option (FaultRec × Nat) := none
  faultClk : Nat := 0
  /-- Release of the PUSHE that spawned it (R408). -/
  release : Release := {}
deriving DecidableEq, Repr

/-- A launch admitted and not ended (R395, R402): tasks left, aborted. -/
structure Launch where
  id : Nat
  ctx : Nat
  source : Nat
  tag : BitVec 32
  single : Bool
  marker : Bool
  left : Nat
  aborted : Bool
deriving DecidableEq, Repr

/-- An event or management record waiting for its ring (R404, R442). -/
structure Posting where
  ctx : Nat
  words : List Word
  /-- The task whose completion or fault it reports. -/
  task : Option Nat := none
deriving DecidableEq, Repr

/-- A bound grammar and its state (R316, R317). -/
structure Grammar where
  header : Nat
  st : Nat
  stack : List Nat
deriving DecidableEq, Repr

/-- A sequence slot (R305, R306). -/
structure SeqSlot where
  ctx : Nat
  vocab : Nat
  clusters : Nat
  bf16 : Bool
  program : Option (List (BitVec 32))
  counts : Nat
  bias : Nat
  ban : Nat
  clusterTable : Nat
  seed : Word
  draw : Word
  grammar : Option Grammar := none
  faulted : Bool := false
  /-- Cluster drawn and not yet sampled (R322): number, f32 log probability, first token, count. -/
  pending : Option (Nat × Nat × Nat × Nat) := none
  /-- Poisoned by a soft error (R431). -/
  mark : Bool := false
deriving DecidableEq, Repr

/-- The command the sampler runs (R309, R319, R325): slot, slice, what is permitted where a grammar is bound, the state of the
program's run, the choice's stage and node, the tokens posted and the provisional grammar, and how it is to end. -/
structure SampleRun where
  cmd : Cmd
  handle : Nat
  base : Nat
  len : Nat
  permitted : Option (List Nat)
  /-- Per token: value, count, bias; scalars; live tokens, rising. -/
  x : Sparse Cell
  c : Sparse Cell
  b : Sparse Cell
  v : Sparse Cell
  live : List Nat
  /-- Tokens whose value, count or bias is poisoned, until the run uses it (R329). -/
  xMarks : List Nat := []
  cMarks : List Nat := []
  bMarks : List Nat := []
  /-- Live sets left by filters, oldest first, each with whether the filter was MASKG (R315). -/
  filters : List (Bool × List Nat)
  greedy : Bool
  pos : Nat
  stage : Nat
  node : Nat
  /-- VERIFY: the node table as (parent, entry, exit, token, row). -/
  nodes : List (Nat × Nat × Nat × Nat × Nat)
  /-- Cluster's log probability in a stage-2 run (R314). -/
  clusterLog : Option Nat
  posted : List Nat
  grammar : Option Grammar
  /-- The walk has ended with this status and fault; what it accepted is to be committed (R320, R326). -/
  ending : Option (Nat × Option FaultRec)
deriving DecidableEq, Repr

/-- A chunk of the grammar engine's mask cache (R318): its tag, its set, where it lies, the compression of its page and the
moment of its bytes; recency order. -/
structure MaskChunk where
  asn : Nat
  header : Nat
  mask : Nat
  chunk : Nat
  set : Nat
  pa : Nat
  comp : Nat := 0
  moment : Nat
  /-- Bytes of it that are poisoned (R329). -/
  marks : List Nat := []
deriving DecidableEq, Repr

/-- A cluster's lease array (R283, R285): holder of the present run, commands started in it, its clk, the clk at which
the arbiter may grant again, the last holder, whether its command has started in this run, the lines pinned, each with the
moment of its pin (R126), and for each core of the cluster the latest window of 1,024 clk in which its commands kept the
array busy, with how many clk of it (R288). -/
structure Array where
  holder : Option Nat := none
  started : Nat := 0
  since : Nat := 0
  /-- Busy until this clk with the group under way. -/
  busyUntil : Nat := 0
  grantFrom : Nat := 0
  last : Nat := 7
  pinned : Sparse Nat := []
  active : Bool := false
  spent : Sparse (Nat × Nat) := []
deriving DecidableEq, Repr

/-- A collective under way (R448, R449): its members as device and die, the step, whether the step's send has been made,
the greatest time of the writes its next element certifies. -/
structure Collective where
  cmd : Cmd
  members : List (Nat × Nat)
  step : Nat
  sent : Bool
  cert : Nat
deriving DecidableEq, Repr

/-- A frame a decoder has decoded (R170): the step of its decoding and its input, from which its samples follow, its sizes and
depth, and the earlier frame it repeats, counted back. MODEL. -/
structure MediaFrame where
  tick : Nat
  input : List Byte
  w : Nat
  h : Nat
  cw : Nat
  ch : Nat
  depth : Nat
  same : Option Nat := none
deriving DecidableEq, Repr

/-- A ring a decoder serves (R168, R169): its last tail (none: the head, once its kicks are discarded), the task whose kick came last, what
the kicks not yet used up release, each with its tail, and the frames of its stream that later ones may refer to, newest first. -/
structure DecodeRing where
  ctx : Nat
  core : Nat
  task : Option Nat := none
  header : Nat
  tail : Option Nat
  kicks : List (Nat × Release) := []
  frames : List MediaFrame := []
  /-- Poisoned by a soft error (R431). -/
  mark : Bool := false
deriving DecidableEq, Repr

/-- A page being moved (R165): old and new frame, size, whether the new leaf has been written and the invalidations
pushed, the switch, and whether the held records have settled and the command has its result; a redirect stays after it. -/
structure Migration where
  old : Nat
  new : Nat
  size : Nat
  pushed : Bool
  switched : Bool
  answered : Bool := false
  /-- Its command: the step and the core of its push. MODEL. -/
  stamp : Nat := 0
  core : Nat := 0
  /-- Poisoned by a soft error (R431). -/
  mark : Bool := false
deriving DecidableEq, Repr

/-- One compute die with its shared engines. -/
structure Die where
  fifos : Sparse Fifo := []
  codeCache : List CodePage := []
  walkQueue : List WalkReq := []
  walkCache : List WalkEntry := []
  /-- Walks that have failed for the die's shared engines, until they receive the result (R136, R138). -/
  walkFail : List WalkFail := []
  /-- TLBs of the shared engines, by engine (R137). -/
  tlbs : Sparse (List TlbEntry) := []
  slices : Sparse Slice := []
  /-- Exclusive copies that an L1 has given up, with what .clu atomics wrote into them; their records may still be unsettled (R200,
  R344). MODEL. -/
  outLines : List L1Line := []
  migrations : List Migration := []
  seqSlots : Sparse SeqSlot := []
  run : Option SampleRun := none
  /-- Ended runs whose commit writes overlap the next command's run, oldest first (R308). -/
  commits : List SampleRun := []
  maskCache : List MaskChunk := []
  arrays : Sparse Array := []
  fused : List Nat := []
  /-- For a fused cluster, one more than the launch for which its L1s were last cleaned (R182). -/
  fusedFor : Sparse Nat := []
  /-- By cluster, one more than the form (as `fusedFor` gives it) that its L1s had for the context being pre-empted (R182). -/
  formOut : Sparse Nat := []
  collectives : List Collective := []
  inbox : List PeerMsg := []
  rings : Sparse (List DecodeRing) := []
  contexts : List Context := []
  queues : Sparse HwQueue := []
  tasks : Sparse Task := []
  launches : List Launch := []
  nextLaunch : Nat := 0
  /-- Round robin of R405: source whose turn it is and places left in it, by context and level. -/
  turns : List (Nat × Nat × Nat × Nat) := []
  postings : List Posting := []
  mgmtPostings : List Posting := []
  mcb : Sparse Word := []
  mcbCopy : List Word := []
  mcbCode : Nat := 0
  busy : Bool := false
  status : Nat := 0
  overrun : Bool := false
  mevr : Word := 0
  mevl : Nat := 0
  /-- Preemption under way: incoming context and save table (R427, R441). -/
  preempt : Option (Nat × Nat × BitVec 8) := none
  ports : Sparse (Nat × Nat × Nat) := []
  portsDown : List Nat := []
  dramErrors : List Word := []
  /-- Soft errors in clean copies, which have only been counted (R431). -/
  softErrors : Nat := 0
deriving DecidableEq, Repr

/-- A window this package or a neighbour lends (R445): device, base here or none, size. -/
structure LentWindow where
  base : Nat
  size : Nat
deriving DecidableEq, Repr

/-- A core image out of its core (R427): context, core, save area, image, whether drained; the number from which the bytes of its
register image follow; where its cluster's L1s were fused, one more than the launch they were fused for (R181, R182); and the
classes for which leave is requested anew (R304). -/
structure SavedImage where
  ctx : Nat
  core : Nat
  area : Nat
  image : Core
  drained : Bool
  serial : Nat := 0
  fused : Nat := 0
  classes : List Nat := []
deriving DecidableEq, Repr

/-- What stops the whole package: nothing does. Every fault of the manual is taken, reported or posted. -/
inductive Fault where
deriving DecidableEq, Repr

/-- Why an instruction has no meaning. -/
inductive Refusal where
  /-- The arm is not written yet; raised by `exec`. Safe: nothing can be proved of it. -/
  | notModelled (mnemonic : String)
deriving DecidableEq, Repr

/-- The package. -/
structure State where
  /-- Steps taken, from which the free choices are drawn. MODEL. -/
  tick : Nat
  /-- Who moves in the next step, and what an event carries. MODEL. -/
  turn : Turn
  arg : EvArg
  /-- Package time base in clk (R6, R440). -/
  clk : Nat
  /-- The core whose state stands in `core`, and the engine that executes. MODEL. -/
  cur : Nat
  eng : Eng
  core : Core
  others : Sparse Core
  dies : Sparse Die
  /-- Settled memory: every byte that is not zero, addresses rising. -/
  mem : Sparse Byte
  /-- Poisoned granules of 32 bytes, by number (R115). -/
  memPoison : Sparse Bool
  /-- Marks that granules had before a change, newest first: moment of the change, granule, mark. MODEL. -/
  pastMarks : List (Nat × Nat × Bool)
  /-- Keys of settled writes, by bit (R332, R337). -/
  keys : Sparse Key
  /-- Settled writes so far, and what they wrote over, newest first. MODEL. -/
  now : Nat
  past : List Past
  /-- Write time and read lease of each line (R342). -/
  oLines : Sparse (Nat × Nat)
  /-- What an O load of each byte makes known (R340). MODEL. -/
  oKnown : Sparse (Sparse Nat)
  dramStacks : Sparse Stack
  images : List SavedImage
  lent : Option LentWindow
  /-- Bytes other devices lend, as the accesses of this package leave them (R446). -/
  remote : Sparse (Option Byte)
  /-- Granules of 32 bytes there that this package has stored poisoned data into (R116), by number. -/
  remotePoison : Sparse Bool
  /-- A unit met a miss that the walk pool cannot take up in this step (R138). MODEL. -/
  walkWait : Option WalkReq
  /-- What the check bits of a DRAM read that this step asks for find, and at which address (R115, R116). MODEL. -/
  found : Option (Nat × DramErr)
  device : Nat
  budget : Nat
  power : Nat
  throttled : Bool
  /-- clk of the last one the governor withheld (R456). -/
  heldClk : Nat
  /-- Leaves granted and requests waiting, oldest first: core and class (R455). -/
  leaves : List (Nat × Nat)
  leaveQueue : List (Nat × Nat)
  dumpRegion : Option Nat
  fatal : Option Nat
  staged : Option (Nat × Nat)
  /-- SHA-512 digests of the staged image, and of the running one where a reset has made a staged image run (R457, R458). -/
  stagedDigest : List Byte
  digest : Option (List Byte)
  fused : Nat
  firmware : Nat
  /-- Interrupts raised, oldest first: die and vector (R439). -/
  msi : List (Nat × Nat)
  /-- Bytes the last outside read returned (R438, R446). MODEL. -/
  out : List Byte
deriving DecidableEq, Repr

/-- The machine right after reset (R103, R342, R434, R457): no context, no task, every queue empty, memory listing nothing. -/
def State.reset : State :=
  { tick := 0, turn := .idle, arg := {}, clk := 0, cur := 0, eng := .c, core := {}, others := [], dies := [], mem := [],
    memPoison := [], pastMarks := [], keys := [], now := 0, past := [], oLines := [], oKnown := [], dramStacks := [], images := [], lent := none, remote := [],
    remotePoison := [], walkWait := none, found := none,
    device := 0, budget := 2600, power := 0, throttled := false, heldClk := 0, leaves := [], leaveQueue := [], dumpRegion := none,
    fatal := none, staged := none, stagedDigest := [], digest := none, fused := 0, firmware := 0, msi := [], out := [] }

end Sys2Proof.Machine
end

