-- ==== Sys2Proof/Machine/Flags.lean ====
section
/-!
DEFINITION. The floating-point event counters and the threshold (R93 to R96), and the event records the sequencer posts
(R404).
-/
namespace Sys2Proof.Machine

/-- Number of the die a core is on (R332). -/
def dieOfCore (c : Nat) : Nat := c / 64

def dieAt (s : State) (d : Nat) : Die := look {} s.dies d

def setDie (s : State) (d : Nat) (x : Die) : State := { s with dies := place {} s.dies d x }

def modDie (s : State) (d : Nat) (f : Die → Die) : State := setDie s d (f (dieAt s d))

def modCore (s : State) (f : Core → Core) : State := { s with core := f s.core }

/-- System register numbers (R209, R273, R289, R393, R410). -/
abbrev sysSLIPW : Nat := 0x0
abbrev sysOVT : Nat := 0x1
abbrev sysFPTH : Nat := 0x2
abbrev sysFTSEL : Nat := 0x3
abbrev sysPTB : Nat := 0x4
abbrev sysPRCFG : Nat := 0x5
abbrev sysFMT : Nat := 0x10
abbrev sysBGM : Nat := 0x20
abbrev sysFEC : Nat := 0x40
abbrev sysSPT : Nat := 0x80
abbrev sysLNA : Nat := 0xC0
abbrev sysHKTB : Nat := 0x100
abbrev sysWABS : Nat := 0x101
abbrev sysWFRZ : Nat := 0x102
abbrev sysLSES : Nat := 0x200
abbrev sysLWAIT : Nat := 0x201
abbrev sysLCS : Nat := 0x210
abbrev sysPRIV : Nat := 0x300
abbrev sysTVEC : Nat := 0x301
abbrev sysTPC : Nat := 0x302
abbrev sysTCAUSE : Nat := 0x306
abbrev sysTVAL : Nat := 0x307
abbrev sysTSPC : Nat := 0x308
abbrev sysTSCR : Nat := 0x309
abbrev sysCPFE : Nat := 0x30D
abbrev sysTASKID : Nat := 0x400
abbrev sysCTXN : Nat := 0x401
abbrev sysPCORE : Nat := 0x402
abbrev sysPARTM : Nat := 0x403

/-- A system register as the control engine's walk has left it. -/
def sysNow (c : Core) (n : Nat) : Word := look 0 c.sys.cur n

/-- A system register written by the device itself, whole. -/
def setSysNow (c : Core) (n : Nat) (v : Word) : Core :=
  { c with sys := { c.sys with cur := place 0 c.sys.cur n v, poison := place false c.sys.poison n false } }

/-- An event record of R404: kind, core, task index, launch tag, payload. -/
def eventWords (kind core index tag time : Nat) (payload : Word) : List Word :=
  [BitVec.ofNat 64 (kind + core * 2 ^ 48), BitVec.ofNat 64 (index + tag * 2 ^ 32), BitVec.ofNat 64 time, payload]

/-- Queue an event record of context `ctx` at the sequencer of die `d`. -/
def postEvent (s : State) (d ctx : Nat) (words : List Word) (task : Option Nat) : State :=
  modDie s d (fun x => { x with postings := x.postings ++ [{ ctx := ctx, words := words, task := task }] })

/-- A management record (R442): kind, unit, payload. -/
def postMgmt (s : State) (d kind unit : Nat) (payload : List Word) : State :=
  modDie s d (fun x => { x with mgmtPostings := x.mgmtPostings ++
    [{ ctx := 0, words := [BitVec.ofNat 64 (kind + 256 * unit), BitVec.ofNat 64 s.clk] ++ payload }] })

/-- One event of counter `n`: the counter saturates, and an armed counter that passes the threshold is disarmed and
posts a record at the end of the clk (R94, R96). -/
def countOne (c : Core) (n : Nat) : Core :=
  let old := (sysNow c (sysFEC + n)).toNat % 2 ^ 32
  let new := if old + 1 < 2 ^ 32 then old + 1 else 2 ^ 32 - 1
  let c1 := setSysNow c (sysFEC + n) (BitVec.ofNat 64 new)
  let fpth := sysNow c sysFPTH
  let thr := bits fpth 31 0
  if fpth.getLsbD (32 + n) && decide (thr ≠ 0) && decide (old < thr) && decide (thr ≤ new) && !c.fecQuiet.contains n then
    { setSysNow c1 sysFPTH (fpth &&& ~~~(1#64 <<< (32 + n))) with fecCrossed := n :: c.fecCrossed }
  else c1

/-- Count events of the current core's context (R94). -/
def countEvents (s : State) (ns : List Nat) : State := modCore s (fun c => ns.foldl countOne c)

/-- Each counter of `c`, on core `k` or out of it, that has crossed the threshold in this clk posts one record, in ascending
order, with the value that the clk's events have brought it to (R96). -/
def postCrossedOf (s : State) (k : Nat) (c : Core) : State :=
  let id := sysNow c sysTASKID
  (sortNat c.fecCrossed).foldl (fun s n =>
    postEvent s (dieOfCore k) (c.ctx.getD 0) (eventWords 2 k (bits id 11 0) (bits id 63 32) s.clk
      (BitVec.ofNat 64 (bits (sysNow c (sysFEC + n)) 31 0 + n * 2 ^ 32))) none) s

/-- The clk is over on the current core. -/
def postCrossed (s : State) : State := modCore (postCrossedOf s s.cur s.core) (fun c => { c with fecCrossed := [] })

/-- And for the contexts that are out, whose events the shared engines have counted. -/
def postCrossedOut (s : State) : State :=
  let s1 := s.images.foldl (fun s i => postCrossedOf s i.core i.image) s
  { s1 with images := s1.images.map (fun i => { i with image := { i.image with fecCrossed := [] } }) }

/-- The counter stands at or past the threshold. -/
def atThreshold (c : Core) (n : Nat) : Bool :=
  let thr := bits (sysNow c sysFPTH) 31 0
  decide (thr ≠ 0) && decide (thr ≤ (sysNow c (sysFEC + n)).toNat % 2 ^ 32)

/-- After a SYSW of an event counter or FPTH, `was` the core before it: a counter that it carries to or past the threshold, or arms
there, posts nothing until one writes it below and it crosses again by counting (R96). -/
def quietAfterWrite (was c : Core) (written : Nat) : Core :=
  let armed := fun n => (sysNow c sysFPTH).getLsbD (32 + n)
  let carried := fun n => atThreshold c n && !atThreshold was n
  { c with fecQuiet := (List.range 32).filter (fun n =>
      if written == sysFPTH then carried n || (armed n && atThreshold c n) || c.fecQuiet.contains n
      else if written == sysFEC + n then carried n || (atThreshold c n && c.fecQuiet.contains n)
      else c.fecQuiet.contains n) }

end Sys2Proof.Machine
end

