-- ==== Sys2Proof/Machine/Ops.lean ====
section
/-!
DEFINITION. The shared operations of a core: its engines, its register files as each engine reads them, token queues, the
walk, issue with its waits, guard and tokens, taking a fault (R416) and returning from one (R421).
-/
namespace Sys2Proof.Machine

/-! ### Cores and engines -/

/-- Make core `c` the one whose state stands in `core`. -/
def focus (s : State) (c : Nat) : State :=
  if c = s.cur then s
  else
    { s with
      cur := c
      core := look {} s.others c
      others := place {} (place {} s.others c {}) s.cur s.core }

/-- Core `c` of the package. -/
def coreAt (s : State) (c : Nat) : Core := if c = s.cur then s.core else look {} s.others c

/-- Change core `c`. -/
def modCoreAt (s : State) (c : Nat) (f : Core → Core) : State :=
  if c = s.cur then { s with core := f s.core } else { s with others := place {} s.others c (f (look {} s.others c)) }

def Core.eng (c : Core) : Eng → Engine
  | .c => c.engC
  | .a => c.engA
  | .v => c.engV
  | .w => c.engW

def Core.setEng (c : Core) (e : Eng) (x : Engine) : Core :=
  match e with
  | .c => { c with engC := x }
  | .a => { c with engA := x }
  | .v => { c with engV := x }
  | .w => { c with engW := x }

def modEng (s : State) (e : Eng) (f : Engine → Engine) : State :=
  modCore s (fun c => c.setEng e (f (c.eng e)))

/-- The four engines in the order of R206. -/
def allEngs : List Eng := [.c, .a, .v, .w]

/-- Change all four engines. -/
def modEngs (c : Core) (f : Engine → Engine) : Core :=
  { c with engC := f c.engC, engA := f c.engA, engV := f c.engV, engW := f c.engW }

/-! ### Files: reads by one of several readers (R205, R208, R210) -/

/-- What reader `r` receives from entry `k`: the present value, or, where writes are not yet known to it, one of the
values they wrote over, undecided. -/
def fileRead {α : Type} (d : α) (f : File α) (tick salt r k : Nat) : α :=
  match f.old.filter (fun o => o.key == k && o.blind.contains r) with
  | [] => look d f.cur k
  | os => (look d f.cur k :: os.map Shadow.old).getD (Config.undecided tick (salt + k) % (os.length + 1)) (look d f.cur k)

/-- Writer `src` has written entry `k` at place `seq` of its walk: it no longer receives what stood there before, nor does a
reader outside `readers`, and a token of its tells another so. -/
def fileTouch {α : Type} (os : List (Shadow α)) (src seq : Nat) (readers : List Nat) (k : Nat) : List (Shadow α) :=
  (os.map (fun o =>
    if o.key == k then { o with srcs := (src, seq) :: o.srcs, blind := o.blind.filter (fun r => r != src && readers.contains r) } else o)).filter
    (fun o => !o.blind.isEmpty)

/-- Write entry `k` as writer `src` at place `seq` of its walk. The readers in `readers` may still receive the old value. -/
def fileWrite {α : Type} [DecidableEq α] (d : α) (f : File α) (id src seq : Nat) (readers : List Nat) (k : Nat) (v : α) (mark : Bool) :
    File α :=
  let kept := fileTouch f.old src seq readers k
  let old := look d f.cur k
  { cur := place d f.cur k v
    old := if old = v ∨ readers = [] then kept else { id := id, key := k, old := old, srcs := [(src, seq)], blind := readers } :: kept
    poison := place false f.poison k mark }

/-- Write entry `k` with no reader left behind. -/
def fileSet {α : Type} [DecidableEq α] (d : α) (f : File α) (k : Nat) (v : α) (mark : Bool) : File α :=
  { f with cur := place d f.cur k v, old := f.old.filter (fun o => o.key != k), poison := place false f.poison k mark }

/-- Reader `r` has popped a token of writer `src` at place `seq`: what that writer wrote up to there is known to it (R205). -/
def fileSync {α : Type} (f : File α) (r src seq : Nat) : File α :=
  let seen := f.old.map (fun o =>
    if o.srcs.any (fun w => w.1 == src && decide (w.2 ≤ seq)) then { o with blind := o.blind.filter (fun x => x != r) } else o)
  { f with old := seen.filter (fun o => !o.blind.isEmpty) }

/-- Reader `r` has popped a token of engine `e`'s instruction at place `seq` or a later one. -/
def hasHeard (c : Core) (r : Nat) (e : Eng) (seq : Nat) : Bool := decide (seq < look 0 c.heard (8 * r + e.num))

/-- Readers of what an engine writes at place `seq` of its walk: of the three other engines and the stream side, those that
have not popped a token from that place or a later one (R205). -/
def otherReaders (c : Core) (e : Eng) (seq : Nat) : List Nat :=
  (([0, 1, 2, 3].filter (fun r => r != e.num)) ++ [4]).filter (fun r => !hasHeard c r e seq)

/-- Readers of a matrix cell that engine `e` writes: the access and the vector engine wait for each other's cells, and read
them from the clk of the write (R190, R227). So an exposed MST with no token reads a cell that the vector engine has still to write as it
stands, which is R227's old value; R208 and the table of R228 allow the new one too. DESIGN CHOICE, log entry 80. -/
def cellReaders (c : Core) (e : Eng) (seq : Nat) : List Nat :=
  (otherReaders c e seq).filter (fun r => !((e == .a && r == 2) || (e == .v && r == 1)))

/-- Salts that keep the undecided reads of different files apart. -/
abbrev saltG : Nat := 0
abbrev saltCell : Nat := 1000
abbrev saltSys : Nat := 100000
abbrev saltNear : Nat := 200000

/-- General register `r` as engine `e` reads it; g0 reads as zero (R203, R205). -/
def readG (s : State) (e : Eng) (r : Nat) : Word :=
  if r = 0 then 0 else fileRead 0 s.core.g s.tick saltG e.num r

/-- A matrix cell, numbered 1024 x register + 64 x row + column, as engine `e` reads it (R208). -/
def readCell (s : State) (e : Eng) (k : Nat) : Cell := fileRead 0 s.core.cells s.tick saltCell e.num k

/-- System register `n` as engine `e` reads it (R210). -/
def readSys (s : State) (e : Eng) (n : Nat) : Word := fileRead 0 s.core.sys s.tick saltSys e.num n

/-- Register `r` has a write of a later clk than `w`, or of clk `w` by an engine after `e` in the order C, A, V, W (R206). -/
def outranked (c : Core) (e : Eng) (w r : Nat) : Bool :=
  c.gTurn.any (fun p => p.1 == r && (decide (w < p.2.1) || (p.2.1 == w && decide (e.num < p.2.2))))

/-- Write general register `r` in clk `w` for place `seq` of engine `e`; a write to g0 is discarded (R203), and of two writes
in one clk that of the later engine stays (R206), and what stood there before both is older than either. -/
def writeGAt (s : State) (e : Eng) (w seq r : Nat) (v : Word) (mark : Bool) : State :=
  if r = 0 then s
  else if outranked s.core e w r then
    modCore s (fun c => { c with g := { c.g with old := fileTouch c.g.old e.num seq (otherReaders c e seq) r } })
  else modCore s (fun c => { c with
    g := fileWrite 0 c.g c.nextId e.num seq (otherReaders c e seq) r v mark, nextId := c.nextId + 1
    gTurn := (r, w, e.num) :: c.gTurn.filter (fun p => p.1 != r && decide (c.ck ≤ p.2.1)) })

/-- Write general register `r` 1 clk after the issue (R222). -/
def writeG (s : State) (e : Eng) (r : Nat) (v : Word) (mark : Bool) : State :=
  writeGAt s e (s.core.ck + 1) (s.core.eng e).seq r v mark

def writeCell (s : State) (e : Eng) (seq k : Nat) (v : Cell) (mark : Bool) : State :=
  modCore s (fun c => { c with
    cells := fileWrite 0 c.cells c.nextId e.num seq (cellReaders c e seq) k v mark, nextId := c.nextId + 1 })

/-- A SYSW by the control engine (R210). -/
def writeSys (s : State) (n : Nat) (v : Word) : State :=
  modCore s (fun c => { c with
    sys := fileWrite 0 c.sys c.nextId 0 c.engC.seq (otherReaders c .c c.engC.seq) n v false, nextId := c.nextId + 1
    slipOld := if n == sysSLIPW then some (c.ck, sysNow c sysSLIPW) else c.slipOld })

/-- The engine's own copy of a loop counter (R211). -/
def readLc (s : State) (e : Eng) (n : Nat) : BitVec 32 := look 0 (s.core.eng e).lc n

/-- Privileged level (R409). -/
def privileged (c : Core) : Bool := (sysNow c sysPRIV).getLsbD 0

/-! ### Token queues (R60, R368) -/

/-- Code of the queue from `p` to `q` (R60). -/
def queueCode (p q : Eng) : Nat := 3 * p.num + (if q.num < p.num then q.num else q.num - 1)

def queueAt (c : Core) (k : Nat) : TokenQueue := look {} c.tokens k

def setQueue (c : Core) (k : Nat) (q : TokenQueue) : Core := { c with tokens := place {} c.tokens k q }

/-- The engines a token field names: bit 3 C, 2 A, 1 V, 0 W (R53). -/
def maskEngs (m : BitVec 4) : List Eng := allEngs.filter (fun e => m.getLsbD (3 - e.num))

/-- The oldest token of a queue that was pushed before package clk `now`: of the pops and pushes of one clk the pops come
first (R368). -/
def TokenQueue.oldest (q : TokenQueue) (now : Nat) : Option Token :=
  match q.toks with
  | [] => none
  | t :: _ => if t.clk < now then some t else none

def popsReady (c : Core) (now : Nat) (e : Eng) (m : BitVec 4) : Bool :=
  (maskEngs m).all (fun p => ((queueAt c (queueCode p e)).oldest now).isSome)

/-- Every queue of a push set has a free place (R368). -/
def placesFree (c : Core) (e : Eng) (m : BitVec 4) : Bool :=
  (maskEngs m).all (fun q => let x := queueAt c (queueCode e q); decide (x.toks.length + x.reserved < 16))

/-- Reader `r` knows what writer `src` had written up to place `seq`. -/
def syncWriter (c : Core) (r src seq : Nat) : Core :=
  { c with g := fileSync c.g r src seq, cells := fileSync c.cells r src seq, near := fileSync c.near r src seq, sys := fileSync c.sys r src seq }

/-- Reader `r` knows what the command numbered `id` has written into the scratchpad (R160). -/
def syncCommand (c : Core) (r id : Nat) : Core := syncWriter c r (8 + id) id

/-- Reader `r` now knows what the pusher of `t` had written: its engine up to the instruction (R205, R208, R210), and the
command that the instruction queued (R160). -/
def syncCore (c : Core) (r : Nat) (t : Token) : Core :=
  let c := syncWriter c r t.src t.seq
  let c := match t.cmd with | some id => syncCommand c r id | none => c
  { c with heard := place 0 c.heard (8 * r + t.src) (Nat.max (look 0 c.heard (8 * r + t.src)) (t.seq + 1)) }

/-- The other marked tokens of the command that pushed `t` pop as ordinary tokens (R159). -/
def unmark (c : Core) (t : Token) : Core :=
  let plain := fun (q : Nat × TokenQueue) => (q.1, { q.2 with toks := q.2.toks.map (fun x => if x.cmd == t.cmd then { x with mark := none } else x) })
  if t.mark.isNone then c
  else { c with tokens := c.tokens.map plain, trapFrame := c.trapFrame.map (fun f => { f with tokens := f.tokens.map plain }) }

/-- Take the oldest token of queue `k` as engine `e`, where one stands there. -/
def popOne (c : Core) (e : Eng) (k : Nat) : Core × Option Token :=
  match (queueAt c k).toks with
  | [] => (c, none)
  | t :: ts => (unmark (syncCore (setQueue c k { queueAt c k with toks := ts }) e.num t) t, some t)

/-- Take one token from each queue of a pop set; the fault of the first marked one (R159, R368). -/
def takePops (c : Core) (e : Eng) : List Eng → Core × Option FaultRec
  | [] => (c, none)
  | p :: ps =>
    let (c1, t) := popOne c e (queueCode p e)
    let (c2, m) := takePops c1 e ps
    (c2, match t.bind Token.mark with | some f => some f | none => m)

/-- Push a token into each queue of a push set at once. -/
def pushNow (c : Core) (e : Eng) (m : BitVec 4) (t : Token) : Core :=
  (maskEngs m).foldl (fun c q =>
    let k := queueCode e q
    setQueue c k { queueAt c k with toks := (queueAt c k).toks ++ [t] }) c

/-- Reserve a place in each queue of a push set. -/
def reserve (c : Core) (e : Eng) (m : BitVec 4) : Core :=
  (maskEngs m).foldl (fun c q =>
    let k := queueCode e q
    setQueue c k { queueAt c k with reserved := (queueAt c k).reserved + 1 }) c

/-- Free the reserved places of a push set without pushing. -/
def release (c : Core) (e : Eng) (m : BitVec 4) : Core :=
  (maskEngs m).foldl (fun c q =>
    let k := queueCode e q
    setQueue c k { queueAt c k with reserved := (queueAt c k).reserved - 1 }) c

/-- Push the tokens for which places were reserved. -/
def pushReserved (c : Core) (e : Eng) (m : BitVec 4) (t : Token) : Core := pushNow (release c e m) e m t

/-- Push reserved tokens of a command numbered `id`: a command queued before a trap pushes into the trap frame's queues (R416). -/
def pushCommand (c : Core) (e : Eng) (m : BitVec 4) (id : Nat) (t : Token) : Core :=
  match c.trapFrame with
  | some f =>
    if id < f.ids then
      let c' := pushReserved { c with tokens := f.tokens } e m t
      { c with trapFrame := some { f with tokens := c'.tokens } }
    else pushReserved c e m t
  | none => pushReserved c e m t

/-! ### Results in flight (R384, R204, R227) -/

def Late.isAt (l : Late) (x : Loc) : Bool := l.loc == x

/-- Places a landing entry will write. -/
def Landing.targets (l : Landing) : List Loc :=
  match l.act with
  | .write ws => ws.map Late.loc
  | .loadSegment _ cells _ => cells.map Loc.cell
  | .storeSegment _ _ _ => []

/-- A write by a later instruction of the same engine, at place `seq` of its walk, takes the place of one still in flight
(R204, R227). -/
def dropTargets (e : Eng) (seq : Nat) (xs : List Loc) (l : Landing) : Landing :=
  if l.eng = e ∧ l.seq < seq then
    match l.act with
    | .write ws => { l with act := .write (ws.filter (fun w => !xs.contains w.loc)) }
    | .loadSegment _ _ _ | .storeSegment _ _ _ => l
  else l

def supersede (c : Core) (e : Eng) (seq : Nat) (xs : List Loc) : Core :=
  { c with landing := c.landing.map (dropTargets e seq xs) }

/-- Near byte `a` lies in a pending probe slot whose fill has not yet written it (R195); for an access of the access engine
at place `before` of its walk, the fill of an earlier PROBE (R175). -/
def nearPending (c : Core) (before : Option Nat) (a : Nat) : Bool :=
  let counts := fun (f : Fill) => decide (f.slot ≤ a) && decide (a < f.slot + 4096) && match before with | some n => decide (f.order < n) | none => true
  c.fillQueue.any counts || match c.fillRun with | some f => counts f && decide (f.slot + f.pos ≤ a) | none => false

/-- Bytes that `n` packed elements of `b` bits take: elements of 6 bits come in groups of three bytes (R75). -/
def packedBytes (b n : Nat) : Nat := if b == 6 then 3 * ceilDiv n 4 else ceilDiv (b * n) 8

/-- A matrix move's segment: it stands at the scratchpad port. -/
def Landing.isSegment (l : Landing) : Bool :=
  match l.act with
  | .write _ => false
  | .loadSegment _ _ _ | .storeSegment _ _ _ => true

/-- The segment touches a byte still awaited from a probe fill (R195). -/
def Landing.awaits (c : Core) (l : Landing) : Bool :=
  match l.act with
  | .write _ => false
  | .loadSegment a ks t | .storeSegment a ks t =>
    (List.range (packedBytes (widthOf t) ks.length)).any (fun i => nearPending c (some l.seq) (a + i))

/-- A matrix move, or what it is to write: it finishes before its context is saved (R190). -/
def Landing.isMove (l : Landing) : Bool :=
  l.isSegment || (l.eng == .a && l.targets.any (fun x => match x with | .cell _ | .near _ => true | .g _ | .k _ => false))

/-- The entry waits in the landing buffer for the context to resume (R384). -/
def Landing.keptBack (c : Core) (l : Landing) : Bool := c.parked && l.due.isSome && !l.scoreboard && !l.isMove

/-- Its clk has come (R222). -/
def Landing.timeUp (ck : Nat) (l : Landing) : Bool :=
  match l.due with
  | some d => decide (d ≤ ck)
  | none => false

/-- Entries whose clk has come; segments in the order of the port, none past one that waits for a fill. -/
def dueList (c : Core) : Bool → List Landing → List Landing
  | _, [] => []
  | blocked, l :: ls =>
    if !l.timeUp c.ck || l.keptBack c then dueList c blocked ls
    else if l.isSegment && (blocked || l.awaits c) then dueList c true ls
    else l :: dueList c blocked ls

def dueEntries (c : Core) : List Landing := dueList c false c.landing

/-- A segment's clk has come and it waits for a probe fill (R195, R387). -/
def portWaits (c : Core) : Bool := c.landing.any (fun l => l.timeUp c.ck && l.isSegment && l.awaits c)

/-- Put a result in flight. -/
def addLanding (c : Core) (l : Landing) : Core := { c with landing := c.landing ++ [l] }

/-- Engine `e` must wait for a result at one of `xs` (R382, R190, R227): in an interlocked region for any, in an
exposed one for a scoreboarded one. The access and vector engines also wait for each other's cells, and an engine that has
popped a token from the result's instruction or a later one waits for it in every region (R205). -/
def mustWait (c : Core) (e : Eng) (xs : List Loc) : Bool :=
  let exposed := (c.eng e).exposed == some true
  c.landing.any (fun l =>
    l.targets.any (fun t => xs.contains t &&
      (((l.scoreboard || !exposed) && (l.eng == e || match t with
        | .cell _ => (e == .a || e == .v) && (l.eng == .a || l.eng == .v)
        | .g _ | .near _ | .k _ => false)) ||
      (l.eng != e && hasHeard c e.num l.eng l.seq && match t with
        | .g _ => true
        | .cell _ | .near _ | .k _ => false))))

/-! ### The walk (R361 to R367) -/

/-- Number of a tag in a group: 0 to 3 for the engines, 4 for S. -/
abbrev tagS : Nat := 4

/-- An instruction of tag `tag` and `len` parcels has been passed: group bookkeeping of R362 and R363. In a stretch the
walk count stays (R376, R377). -/
def passed (x : Engine) (tag next : Nat) : Engine :=
  let x := { x with decoded := x.decoded.tail }
  match x.stretch with
  | some _ => { x with pc := next }
  | none =>
    if tag == tagS || next % 16384 == 0 then { x with pc := next, walk := x.walk + 1, seen := [], begun := false }
    else { x with pc := next, seen := tag :: x.seen }

/-- Engine `e` has issued an instruction whose switch-away bit is `sw`: where it holds the decode slot, the slot passes on at
the end of the clk (R48, R366). -/
def switchAway (s : State) (e : Eng) (sw : Bool) : State :=
  modCore s (fun c => { c with switched := c.switched || (sw && c.holder == e.num) })

/-- The executing engine has issued an instruction of its own tag: place in the walk, next issue clk, group, decode slot. -/
def issued (s : State) (h : Hdr) (next : Nat) : State :=
  switchAway (modEng s h.eng (fun x => { passed x h.eng.num next with
    seq := x.seq + 1, nextIssue := s.core.ck + 1 + h.gap.toNat, noPop := false })) h.eng h.sw

/-! ### Faults and traps (R411 to R421) -/

def FaultCode.num : FaultCode → Nat
  | .illegalInstruction => 1
  | .translation => 2
  | .unbackedAddress => 3
  | .alignment => 4
  | .nearAddress => 5
  | .engineCommand => 6
  | .layout => 7
  | .formatConfig => 8
  | .probeConfig => 9
  | .atomic => 10
  | .order => 11
  | .memoryCommand => 12
  | .weightCode => 13
  | .lease => 14
  | .samplerCommand => 15
  | .emptyGrammar => 16
  | .grammarStack => 17
  | .grammarTable => 18
  | .sequenceFaulted => 19
  | .privilege => 20
  | .trap => 21
  | .syscall => 22
  | .poison => 23
  | .placement => 24
  | .nestedFault => 25

/-- TCAUSE for a fault raised by `e` at level `level` (R411). -/
def causeWord (f : FaultRec) (e : Eng) (level : Nat) : Word :=
  BitVec.ofNat 64 (f.code.num + f.cause % 65536 * 2 ^ 16 + e.num * 2 ^ 34 + level * 2 ^ 36 +
    (if f.stream.isSome then 2 ^ 37 else 0) + (if f.popped then 2 ^ 38 else 0) + (if f.element then 2 ^ 39 else 0))

/-- The task on the core has faulted: its engines stop and the sequencer finds the fault (R402). -/
def endFaulted (s : State) (f : FaultRec) (pc : Nat) : State :=
  let s1 := modCore s (fun c => { c with running := false })
  match s.core.task with
  | none => s1
  | some t => modDie s1 (dieOfCore s.cur) (fun d =>
      { d with tasks := d.tasks.map (fun p => if p.1 == t then (t, { p.2 with fault := some (f, pc), faultClk := s.clk }) else p) })

/-- A late register or cell is written. Near bytes go through the scratchpad's table where they land (R190). -/
def landValue (s : State) (l : Landing) (w : Late) : State :=
  match w.loc with
  | .g r => writeGAt s l.eng (l.due.getD (s.core.ck + 1)) l.seq r w.val w.mark
  | .cell k => writeCell s l.eng l.seq k (w.val.setWidth 32) w.mark
  | .near _ | .k _ => s

def landWrites (s : State) (l : Landing) : State :=
  let s1 := match l.act with
    | .write ws => ws.foldl (fun s w => landValue s l w) (modCore s (fun c => supersede c l.eng l.seq (ws.map Late.loc)))
    | .loadSegment _ _ _ | .storeSegment _ _ _ => s
  let s2 := countEvents s1 l.counts
  let t : Token := { src := l.eng.num, seq := l.seq, clk := s.clk }
  modCore s2 (fun c => if l.old then pushCommand c l.eng l.push 0 t else pushReserved c l.eng l.push t)

/-- Land the scoreboarded results of the core and take them from the landing buffer. -/
def landScoreboarded (s : State) : State :=
  let now := s.core.landing.filter Landing.scoreboard
  now.foldl landWrites (modCore s (fun c => { c with landing := c.landing.filter (fun l => !l.scoreboard) }))

/-- An engine as it stands at the first instruction of a handler or a task. -/
def freshEngine (pc from' seq : Nat) : Engine := { pc := pc, nextIssue := from', seq := seq }

/-- What a fault leaves in the trap registers (R411, R413, R416): the four program counters, that of the raising engine
at `pc`, and TCAUSE, TVAL, TSPC. -/
def saveTrap (c : Core) (e : Eng) (f : FaultRec) (pc : Nat) : Core :=
  let c := c.setEng e { c.eng e with pc := pc, noPop := false }
  let regs : List (Nat × Word) :=
    [(sysTPC, BitVec.ofNat 64 c.engC.pc), (sysTPC + 1, BitVec.ofNat 64 c.engA.pc), (sysTPC + 2, BitVec.ofNat 64 c.engV.pc),
     (sysTPC + 3, BitVec.ofNat 64 c.engW.pc), (sysTCAUSE, causeWord f e 0), (sysTVAL, f.tval), (sysTSPC, BitVec.ofNat 64 (f.stream.getD 0))]
  regs.foldl (fun c p => setSysNow c p.1 p.2) c

/-- A matrix move at the scratchpad port, or bytes it has on their way there: an instruction already issued, which completes
while a handler runs (R416). -/
def Landing.completes (l : Landing) : Bool := l.isSegment || l.targets.any (fun x => match x with | .near _ => true | .g _ | .cell _ | .k _ => false)

/-- What the trap frame takes (R416). -/
def frameOf (c : Core) : TrapFrame :=
  { engines := allEngs.map c.eng, slipw := sysNow c sysSLIPW, tokens := c.tokens, outcomes := c.outcomes
    lag := c.probeLag, landing := c.landing.filter (fun l => !l.completes), leaving := c.leaving, since := c.ck + 1, ids := c.nextId }

/-- The core at the first instruction of the handler: privileged level, the walk's state cleared (R416). Whatever has landed by
then is older than what the handler writes (R204). -/
def atHandler (c : Core) : Core :=
  let h := (sysNow c sysTVEC).toNat
  let from' := c.ck + 16
  { setSysNow (setSysNow c sysPRIV 1) sysSLIPW 0 with
    engC := freshEngine h from' c.engC.seq
    engA := freshEngine h from' c.engA.seq
    engV := freshEngine h from' c.engV.seq
    engW := freshEngine h from' c.engW.seq
    tokens := []
    outcomes := []
    landing := (c.landing.filter Landing.completes).map (fun l => { l with old := true })
    leaving := none
    probeLag := 0
    holder := 0
    switched := false
    gTurn := []
    walkFail := []
    prcfgWait := none }

/-- Trap entry at user level (R416): results in flight land, the frame takes the walk's state, the trap registers the
fault, and the handler begins. -/
def enterHandler (s : State) (e : Eng) (f : FaultRec) (pc : Nat) : State :=
  modCore (landScoreboarded s) (fun c =>
    let c := saveTrap c e f pc
    atHandler { c with trapFrame := some (frameOf c) })

/-- The first `n` of the entries of core `k`, and those of the others. -/
def firstOf (k n : Nat) (l : List (Nat × Nat)) : List (Nat × Nat) :=
  (l.foldl (fun (x : List (Nat × Nat) × Nat) p => if p.1 == k then (if x.2 == 0 then x else (x.1 ++ [p], x.2 - 1)) else (x.1 ++ [p], x.2)) ([], n)).1

/-- The leave that a waiting LACQ of the current core has asked for is withdrawn, or returned where it has just been granted: what is
left is its sessions', open and closing (R291). -/
def withdrawLeave (s : State) : State :=
  let n := s.core.lrels.length + (if s.core.leaseOpen then 1 else 0)
  let held := (s.leaves.filter (fun p => p.1 == s.cur)).length
  { s with leaves := firstOf s.cur n s.leaves, leaveQueue := firstOf s.cur (n - held) s.leaveQueue }

/-- Raise fault `f` in engine `e`, its program counter saved as `pc` (R413): nested at privileged level (R418), the end
of the task where there is no handler, otherwise the handler (R416). -/
def takeTrap (s : State) (e : Eng) (f : FaultRec) (pc : Nat) : State :=
  let s := withdrawLeave (modCore s (fun c => { c with raised := c.raised + 1, walkFail := [] }))
  if privileged s.core then endFaulted s { code := .nestedFault, cause := f.code.num } pc
  else if sysNow s.core sysTVEC = 0 then endFaulted (modCore (landScoreboarded s) (fun c => saveTrap c e f pc)) f pc
  else enterHandler s e f pc

/-- The handler's token queues end with it: what it issued, numbered `n` and up, finishes and pushes nothing (R416, R421). -/
def endQueues (n : Nat) (c : Core) : Core :=
  let quiet := fun (id : Nat) (m : BitVec 4) => if n ≤ id then 0#4 else m
  { c with
    copyQueue := c.copyQueue.map (fun q => { q with push := quiet q.id q.push })
    copyRun := c.copyRun.map (fun r => { r with cmd := { r.cmd with push := quiet r.cmd.id r.cmd.push } })
    wQueue := c.wQueue.map (fun q => { q with push := quiet q.id q.push })
    call := c.call.map (fun k => { k with cmd := { k.cmd with push := quiet k.cmd.id k.cmd.push } })
    leaseQueue := c.leaseQueue.map (fun q => { q with push := quiet q.id q.push })
    lrels := c.lrels.map (fun q => (quiet q.2.1 q.1, q.2))
    rowOps := c.rowOps.map (fun q => (q.1, q.2.1, quiet q.2.1 q.2.2.1, q.2.2.2))
    orderWaits := c.orderWaits.map (fun w => { w with push := quiet w.id w.push }) }

/-- Engine `e` as a return leaves it: at the counter its trap register holds, no longer waiting at a meeting point or a
crossing that the handler has moved it away from; it may issue from clk `start` on, its own gap counted further; the engine
that TCAUSE names issues once without popping where bit 38 says so (R421, R384). -/
def backFrom (c : Core) (e : Eng) (x : Engine) (start since : Nat) : Engine :=
  let cause := sysNow c sysTCAUSE
  let pc := (sysNow c (sysTPC + e.num)).toNat
  { x with
    pc := pc, nextIssue := start + (x.nextIssue - since), seq := (c.eng e).seq, decoded := []
    atSync := x.atSync && pc == x.pc, atCross := x.atCross && pc == x.pc
    noPop := if bits cause 35 34 = e.num then cause.getLsbD 38 else x.noPop }

/-- Return from a handler (R421). A privileged core that has no trap frame finds nothing put aside: the counters, the level
and the clk of the first issue are set as ever. -/
def returnFromTrap (s : State) : State :=
  modCore s (fun c =>
    let start := c.ck + 16
    let level : Word := if (sysNow c sysTCAUSE).getLsbD 36 then 1 else 0
    match c.trapFrame with
    | none =>
      let back := fun (e : Eng) => backFrom c e (c.eng e) start (c.ck + 1)
      { setSysNow c sysPRIV level with engC := back .c, engA := back .a, engV := back .v, engW := back .w, holder := 0, switched := false }
    | some f =>
      let back := fun (e : Eng) => backFrom c e (f.engines.getD e.num {}) start f.since
      let c' := setSysNow (setSysNow c sysPRIV level) sysSLIPW f.slipw
      { endQueues f.ids c' with
        engC := back .c, engA := back .a, engV := back .v, engW := back .w
        tokens := f.tokens, outcomes := f.outcomes, probeLag := f.lag, leaving := f.leaving
        landing := c.landing.map (fun l => if l.old then { l with old := false } else { l with push := 0 }) ++
          f.landing.map (fun l => { l with due := l.due.map (fun d => start + (d - f.since)) })
        trapFrame := none, holder := 0, switched := false })

/-- The core has consumed poison (R432, R433): the sequencer takes the task back, unless it cannot be rolled back. The fault it
then raises is one of the instruction's own checks (R413). -/
def consumePoison (s : State) (e : Eng) (pc : Nat) (tval : Word) : State :=
  if s.core.noRollback then takeTrap s e { code := .poison, cause := 2, tval := tval, popped := (s.core.eng e).noPop } pc
  else modCore s (fun c => { c with rollback := true, rollbackPc := some pc, running := false })

/-! ### Issue -/

/-- How the body of an instruction ends. -/
inductive Act where
  /-- Performed; its tokens are pushed now. -/
  | done (s : State)
  /-- Performed, its result written 1 clk after the issue; its tokens are pushed in that clk (R222, R422 to R424). -/
  | soon (s : State)
  /-- Performed; its reserved tokens are pushed later, by what it put in flight. -/
  | later (s : State)
  /-- Ended without its effect; its reserved places are freed (R145, R146). -/
  | dropped (s : State)
  /-- Performed; the engine continues at `pc` (R193). -/
  | jump (s : State) (pc : Nat)
  /-- Waits at issue; `eff` is what the wait leaves behind (a page walk asked for, a spill). -/
  | wait (eff : State → State)
  /-- Raises a fault of its own, having done nothing. -/
  | trap (f : FaultRec)
  /-- Performed, then raises at its own address, its pops taken (R370). -/
  | trapAt (s : State) (f : FaultRec)
  /-- Leaves the whole state as it gives it: the walk does not simply go on (ERET). -/
  | whole (s : State)
  /-- Performed in full, then raises (R413). -/
  | trapAfter (s : State) (f : FaultRec)
  /-- Consumes poison (R432). -/
  | poison (tval : Word)

/-- The core's clk is not frozen, and whether it is one has been settled (R177, R272, R387). -/
def clkOpen (c : Core) : Bool := !c.frozen && !c.starved && !c.lagging

/-- The engine may issue: the core runs, its clk is not frozen, no result waits to be written, the gap has passed. -/
def engineReady (c : Core) (e : Eng) : Bool :=
  c.running && clkOpen c && !(c.eng e).halted && decide ((c.eng e).nextIssue ≤ c.ck) && (dueEntries c).isEmpty

def nothing (s : State) : State := s

/-- The token an instruction of engine `e` pushes now. -/
def ownToken (s : State) (e : Eng) : Token := { src := e.num, seq := (s.core.eng e).seq, clk := s.clk }

/-- The entry by which an instruction's tokens are pushed in the clk after its issue. -/
def tokensNext (c : Core) (h : Hdr) : Landing :=
  { due := some (c.ck + 1), eng := h.eng, seq := (c.eng h.eng).seq, tag := (c.eng h.eng).walk, scoreboard := false, act := .write [], push := h.push }

/-- Is one of the registers poisoned? -/
def anyPoison (c : Core) (xs : List Loc) : Bool :=
  xs.any (fun x => match x with
    | .g r => decide (r ≠ 0) && look false c.g.poison r
    | .cell k => look false c.cells.poison k
    | .near a => look false c.near.poison a
    | .k n => c.kMarks.contains n)

/-- The state in which the body runs: pops taken. -/
def popped (s : State) (h : Hdr) : State × Option FaultRec :=
  if (s.core.eng h.eng).noPop then (s, none)
  else
    let (c, m) := takePops s.core h.eng (maskEngs h.pop)
    ({ s with core := c }, m)

/-- The guard squashes the instruction (R55). -/
def squashed (s : State) (h : Hdr) : Bool := h.guard != 0#6 && readG s h.eng h.guard.toNat == 0

/-- Finish an instruction that pushes its tokens at issue. -/
def finishNow (s : State) (h : Hdr) (next : Nat) : State :=
  issued (modCore s (fun c => pushNow c h.eng h.push (ownToken s h.eng))) h next

/-- Finish an instruction that pushes its tokens in the clk after its issue. -/
def finishSoon (s : State) (h : Hdr) (next : Nat) : State :=
  issued (if h.push == 0 then s else modCore s (fun c => addLanding (reserve c h.eng h.push) (tokensNext c h))) h next

/-- Run a body and finish the instruction. `s` is the state at issue. -/
def finish (s : State) (h : Hdr) (next : Nat) (a : Act) : State :=
  match a with
  | .done t => finishNow t h next
  | .soon t => finishSoon t h next
  | .later t => issued (modCore t (fun c => reserve c h.eng h.push)) h next
  | .dropped t => issued t h next
  | .jump t pc => finishNow t h pc
  | .wait eff => eff s
  | .whole t => t
  | .trap f => takeTrap s h.eng { f with popped := (s.core.eng h.eng).noPop } (s.core.eng h.eng).pc
  | .trapAt t f => takeTrap t h.eng { f with popped := true } (s.core.eng h.eng).pc
  | .trapAfter t f => takeTrap (finishNow t h next) h.eng f next
  | .poison v => consumePoison s h.eng (s.core.eng h.eng).pc v

/-- Issue of an instruction tagged for one engine (R55, R70, R368, R412, R413): `len` parcels, `srcs` the registers and
cells it reads and consumes, `body` what it does. It waits for its guard as one that has popped its tokens (R205), and a squashed
instruction consumes nothing, a poisoned guard included (R248; of the engines but V: DEDUCED, log entry 69). -/
def issue (h : Hdr) (len : Nat) (srcs : List Loc) (body : State → Act) (s : State) : State :=
  let e := h.eng
  let x := s.core.eng e
  let next := x.pc + 4 * len
  if !engineReady s.core e then s
  else
    match x.owed with
    | f :: fs => takeTrap (modEng s e (fun x => { x with owed := fs })) e { f with popped := x.noPop } x.pc
    | [] =>
      let (p, m) := popped s h
      if !(x.noPop || popsReady s.core s.clk e h.pop) || !placesFree s.core e h.push || mustWait p.core e [.g h.guard.toNat] then s
      else
        match m with
        | some f => takeTrap p e { f with popped := true } x.pc
        | none =>
          if squashed p h then finishNow p h next
          else if mustWait p.core e srcs then s
          else if anyPoison p.core (.g h.guard.toNat :: srcs) then consumePoison s e x.pc 0
          else finish s h next (body p)

/-- An instruction of the four engines answers a next state. -/
def issueOut (h : Hdr) (len : Nat) (srcs : List Loc) (body : State → Act) (s : State) : Host.Outcome State Fault Refusal :=
  .next (issue h len srcs body s)

end Sys2Proof.Machine
end

