-- ==== Sys2Proof/Machine/Mem.lean ====
section
/-!
DEFINITION. Memory: the physical map (R101, R102), settled memory with its keys (R332, R337), compressed pages (R162,
R163), translation (R131 to R141), the L1, the store log and the view of a core (R330 to R346), ordered pages (R342).
-/
namespace Sys2Proof.Machine

/-! ### The physical map -/

/-- Latency class of an address: 0 C, 1 S, 2 N, 3 E (R101). -/
def classOf (pa : Nat) : Nat := nbitsOf pa 51 50

/-- Offsets of a die's window that the table of R142 lists: a FIFO's 64 bytes, or the management registers. -/
def isFifo (off : Nat) : Bool :=
  decide (off < 0x300) || (decide (0x10000 ≤ off) && decide (off < 0x11000)) || (decide (0x20000 ≤ off) && decide (off < 0x24000))
def isManagement (off : Nat) : Bool := decide (0x1000000 ≤ off) && decide (off < 0x2000000)

/-- Die and offset of a class E address (R101). -/
def windowDie (pa : Nat) : Nat := nbitsOf pa 31 30
def windowOffset (pa : Nat) : Nat := nbitsOf pa 29 0

/-- The address names a byte that exists (R102, R142). -/
def backed (pa : Nat) : Bool :=
  match classOf pa with
  | 0 => nbitsOf pa 49 39 == 0 && decide (nbitsOf pa 35 26 < 960)
  | 1 => nbitsOf pa 49 34 == 0
  | 2 => true
  | _ => nbitsOf pa 49 32 == 0 && (isFifo (windowOffset pa) || isManagement (windowOffset pa))

/-- Stack of a class C or S address (R101). -/
def stackOf (pa : Nat) : Nat := if classOf pa == 0 then nbitsOf pa 38 36 else nbitsOf pa 33 31

/-- Home die, die-local line number and slice (R118). -/
def homeDie (pa : Nat) : Nat := stackOf pa / 2
def lineNumber (pa : Nat) : Nat := if classOf pa == 0 then nbitsOf pa 36 7 else nbitsOf pa 31 7
def homeSlice (pa : Nat) : Nat := lineNumber pa % 48

/-- Subarray of a class C address: channel x 2048 + bank x 32 + subarray (R101). -/
def subarrayOf (pa : Nat) : Nat := nbitsOf pa 14 10 * 2048 + nbitsOf pa 20 15 * 32 + nbitsOf pa 25 21
def cellarRow (pa : Nat) : Nat := nbitsOf pa 35 26

/-! ### Stacks and slices -/

def stackAt (s : State) (k : Nat) : Stack := look {} s.dramStacks k

def setStack (s : State) (k : Nat) (x : Stack) : State := { s with dramStacks := place {} s.dramStacks k x }

def modStack (s : State) (k : Nat) (f : Stack → Stack) : State := setStack s k (f (stackAt s k))

/-- A line is written in its slot: the cellar row goes on holding what stood there at moment `m`, or earlier (R104). -/
def PromoTag.write (t : PromoTag) (line m : Nat) : PromoTag :=
  { t with dirty := true, old := if t.old.any (fun p => p.1 == line) then t.old else (line, m) :: t.old }

/-- The line of `pa` is written in DRAM, which held it as of moment `m`: in the promotion slot of its cellar row, where a
valid tag names the row (R104). -/
def promoWrite (s : State) (pa m : Nat) : State :=
  if classOf pa == 0 then
    modStack s (stackOf pa) (fun x =>
      { x with promo := x.promo.map (fun p => if p.1 == subarrayOf pa then
          (p.1, p.2.map (fun t => if t.row == cellarRow pa then t.write (pa / 128) m else t)) else p) })
  else s

def modSlice (s : State) (pa : Nat) (f : Slice → Slice) : State :=
  modDie s (homeDie pa) (fun d => { d with slices := place {} d.slices (homeSlice pa) (f (look {} d.slices (homeSlice pa))) })

def sliceOf (s : State) (pa : Nat) : Slice := look {} (dieAt s (homeDie pa)).slices (homeSlice pa)

/-- A write of the present moment reaches its home slice: a present line becomes dirty, an absent one is merged into DRAM
(R121). -/
def wroteLine (s : State) (pa : Nat) : State :=
  if 2 ≤ classOf pa then s
  else if (sliceOf s pa).lines.any (fun l => l.line == pa / 128) then
    modSlice s pa (fun x => { x with lines := x.lines.map (fun l =>
      if l.line == pa / 128 then { l with dirty := true, since := if l.dirty then l.since else s.now - 1 } else l) })
  else promoWrite s pa (s.now - 1)

/-- Change every core that `p` names. -/
def modCores (s : State) (p : Nat → Bool) (f : Core → Core) : State :=
  (s.cur :: s.others.map Prod.fst).foldl (fun s c => if p c then modCoreAt s c f else s) s

/-- A code sector goes: each error in it that was never executed is counted in CPFE (R415). When it is found never to be
executed is not said; the count is made here. DESIGN CHOICE, log entry 59. -/
def countLost (s : State) (x : CodeSector) : State :=
  let n := (x.bad.filter (fun g => !x.run.contains g)).length
  if n == 0 then s
  else x.cores.foldl (fun s k => modCoreAt s k (fun c =>
    setSysNow c sysCPFE (BitVec.ofNat 64 (Nat.min ((sysNow c sysCPFE).toNat % 2 ^ 32 + n) (2 ^ 32 - 1))))) s

/-- A settlement at a home slice invalidates the code sector that holds the line, in the die's code cache and its cores'
code buffers (R128). -/
def dropSector (s : State) (pa : Nat) : State :=
  if 2 ≤ classOf pa then s
  else
    let d := homeDie pa
    let page := pa / 16384
    let k := pa % 16384 / 256
    let without := fun (p : CodePage) => if p.page == page then { p with sectors := eraseKey p.sectors k } else p
    let lost := ((dieAt s d).codeCache.filter (fun p => p.page == page)).filterMap (fun p => findKey p.sectors k)
    let s := modDie s d (fun x => { x with codeCache := x.codeCache.map without })
    let s := modCores s (fun c => dieOfCore c == d) (fun c => { c with codeBuffer := c.codeBuffer.map without })
    lost.foldl countLost s

def wroteLines (s : State) (as : List Nat) : State :=
  (dedupNat (as.map (fun a => a / 128))).foldl (fun s l => wroteLine s (128 * l)) s

/-! ### Settled memory -/

/-- Unlisted bytes read as zero (log entry 11). -/
abbrev memDefault : Byte := 0

/-- Granule `g` of 32 bytes takes mark `b` at the present moment. -/
def setMark (s : State) (g : Nat) (b : Bool) : State :=
  { s with pastMarks := (s.now, g, look false s.memPoison g) :: s.pastMarks, memPoison := place false s.memPoison g b }

/-- Granules `gs` take mark `b`. -/
def setMarks (s : State) (gs : List Nat) (b : Bool) : State := gs.foldl (fun s g => setMark s g b) s

/-- The mark of granule `g` as memory stood at moment `m`. -/
def granuleMark (s : State) (m g : Nat) : Bool :=
  s.pastMarks.foldl (fun b p => if p.2.1 = g ∧ m < p.1 then p.2.2 else b) (look false s.memPoison g)

/-- Memory is in canonical form: addresses rising, no byte listed that reads as unlisted. -/
abbrev Memory.wf (m : Sparse Byte) : Prop := tableWf memDefault m = true

/-- Byte `a` of settled memory. -/
def memByte (s : State) (a : Nat) : Byte := look memDefault s.mem a

/-- Keys of the eight bits of byte `a`. -/
def keysAt (s : State) (a : Nat) : List Key := lookAll {} s.keys (8 * a) 8

/-- Store one byte and the keys of its bits, keeping what they were. `s.now` is the moment of the write. -/
def pokeByte (s : State) (a : Nat) (b : Byte) (ks : List Key) : State :=
  { s with
    past := { moment := s.now, addr := a, byte := memByte s a, keys := keysAt s a } :: s.past
    mem := place memDefault s.mem a b
    keys := placeAll {} s.keys (8 * a) ks }

/-- The next write is a new moment. -/
def newMoment (s : State) : State := { s with now := s.now + 1 }

/-- Byte `a` as memory stood at moment `m`. -/
def byteAt (s : State) (m a : Nat) : Byte :=
  s.past.foldl (fun b p => if p.addr = a ∧ m < p.moment then p.byte else b) (memByte s a)

/-- Keys of byte `a` as they stood at moment `m`. -/
def keysAtMoment (s : State) (m a : Nat) : List Key :=
  s.past.foldl (fun ks p => if p.addr = a ∧ m < p.moment then p.keys else ks) (keysAt s a)

/-- Key order (R332). -/
def Key.lt (a b : Key) : Bool := decide (a.time < b.time) || (a.time == b.time && decide (a.num < b.num))

/-- Merge enabled bits of a write with key `k` into a byte with its bits' keys: the greatest key keeps the bit (R337). -/
def mergeBits (b : Byte) (ks : List Key) (data mask : Byte) (k : Key) : Byte × List Key :=
  let take := fun i => mask.getLsbD i && (ks.getD i {}).lt k
  (BitVec.ofNat 8 ((List.range 8).foldl (fun acc i => acc + (if (if take i then data.getLsbD i else b.getLsbD i) then 2 ^ i else 0)) 0),
   (List.range 8).map (fun i => if take i then k else ks.getD i {}))

/-! ### Compressed pages (R162, R163) -/

/-- The block-scale rule of R156 over exact values, `L` the largest finite value of the type. -/
def chooseScale (t : Ty) (l : List Num) : Nat :=
  if l.all (fun n => match n with | .fin _ 0 _ => true | .fin _ _ _ | .nan | .inf _ => false) then 0
  else
    let mags := l.filterMap (fun n => match n with | .fin _ m e => some (Num.fin false m e) | .nan | .inf _ => none)
    let m := mags.foldl (fun a b => if ltNum a b then b else a) (.fin false 0 0)
    match m with
    | .fin _ 0 _ => 0x7E
    | .nan | .inf _ => 0x7E
    | .fin _ _ _ =>
      let top : Num := match fmtOf t with | some f => numOfFmt f f.maxCode | none => .fin false 1 0
      let fits := fun c => !ltNum (mulNum top (if c % 2 == 1 then .fin false 3 ((c / 2 : Nat) - 64) else .fin false 1 ((c / 2 : Nat) - 63))) m
      ((List.range 254).map (fun i => i + 1)).find? fits |>.getD 0xFE

/-- `x / scale(c)` as an encoding of type `t`, rounded in `rm` with overflow from `o` (R156, R163). In a block of zeros, where
the quotient is not defined, each element is a zero of its own sign: DESIGN CHOICE, log entry 54. -/
def divScale (t : Ty) (f : Fmt) (rm : BitVec 2) (o : Over) (c : Nat) (n : Num) : Elem :=
  let _ := t
  match n with
  | .nan | .inf _ => elemOf f rm o n
  | .fin neg m e =>
    let se : Int := (c / 2 : Nat) - 63
    if c == 0 then ⟨signBit f neg, none⟩
    else if c % 2 == 1 then roundElem f rm o neg m 3 (e - se + 1) else roundElem f rm o neg m 1 (e - se)

/-- Bytes a 256-byte chunk shows, from what `raw` stores for it (R162). -/
def expandChunk (comp : Nat) (raw : Nat → Byte) : List Byte :=
  let t : Ty := if comp == 1 then .e4m3 else .e5m2
  if comp == 3 then (List.range 64).flatMap (fun i => [0#8, 0#8, raw (2 * i), raw (2 * i + 1)])
  else (List.range 128).flatMap (fun i =>
    let n := scaledNum t (raw (128 + i / 32)).toNat (raw i).toNat
    match fmtOf .bf16 with
    | some f => leBytes 2 (elemOf f 0 (.table 0) n).bits
    | none => [])

/-- One block of a chunk encoded anew (R163): the compact bytes, as (offset in the chunk, byte). -/
def encodeBlock (comp blk : Nat) (shown : Nat → Byte) : List (Nat × Byte) :=
  if comp == 3 then
    let w := leNat ((List.range 4).map (fun j => shown (4 * blk + j)))
    let r := (convert .bf16 .f32 0 0 w).bits
    [(2 * blk, BitVec.ofNat 8 r), (2 * blk + 1, BitVec.ofNat 8 (r / 256))]
  else
    let t : Ty := if comp == 1 then .e4m3 else .e5m2
    match fmtOf t with
    | none => []
    | some f =>
      let el := (List.range 32).map (fun i => numOf .bf16 (leNat [shown (64 * blk + 2 * i), shown (64 * blk + 2 * i + 1)]))
      let c := chooseScale t el
      (128 + blk, BitVec.ofNat 8 c) :: ((List.range 32).map (fun i =>
        (32 * blk + i, BitVec.ofNat 8 (divScale t f 0 (.table 0) c (el.getD i .nan)).bits)))

/-- Bytes of a block as shown: 64 for codes 1 and 2, 4 for code 3. -/
def blockBytes (comp : Nat) : Nat := if comp == 3 then 4 else 64

/-- Byte `a` as a page of compression `comp` shows it at moment `m`. -/
def shownByte (s : State) (comp m a : Nat) : Byte :=
  if comp == 0 then byteAt s m a
  else (expandChunk comp (fun i => byteAt s m (a / 256 * 256 + i))).getD (a % 256) 0

/-- The stored bytes from which a page of compression `comp` shows byte `a` (R162). -/
def storedBytes (comp a : Nat) : List Nat :=
  let chunk := a / 256 * 256
  match comp with
  | 0 => [a]
  | 3 => [chunk + 2 * (a % 256 / 4), chunk + 2 * (a % 256 / 4) + 1]
  | _ => [chunk + a % 256 / 2, chunk + 128 + a % 256 / 64]

/-! ### Writes that settle -/

/-- Poison after a write of bytes `as`: a granule all of whose bytes are written loses its mark (R117). -/
def clearPoison (s : State) (as : List Nat) : State :=
  setMarks s ((dedupNat (as.map (fun a => a / 32))).filter (fun g => (List.range 32).all (fun i => as.contains (32 * g + i)))) false

/-- Set the keys of a shown byte's bits, keeping what they were. -/
def pokeKeys (s : State) (a : Nat) (ks : List Key) : State :=
  { s with
    past := { moment := s.now, addr := a, byte := memByte s a, keys := keysAt s a } :: s.past
    keys := placeAll {} s.keys (8 * a) ks }

/-- Settle the bits of one write into memory, those of 16-byte block `b` at key `k b` (R337, R163): the greatest key keeps each
bit, and a compressed page's blocks are encoded anew. -/
def settleBy (s : State) (comp : Nat) (k : Nat → Key) (ws : List (Nat × Byte × Byte)) : State :=
  let s := newMoment s
  let whole := (ws.filter (fun w => w.2.2 == 255)).map Prod.fst
  let s := wroteLines s (ws.map Prod.fst)
  let s := (dedupNat (ws.map (fun w => w.1 / 256))).foldl (fun s k => dropSector s (256 * k)) s
  if comp == 0 then
    ws.foldl (fun s w => let (b, ks) := mergeBits (memByte s w.1) (keysAt s w.1) w.2.1 w.2.2 (k (w.1 / 16)); pokeByte s w.1 b ks) (clearPoison s whole)
  else
    let shown := fun a => shownByte s comp s.now a
    let merged := ws.map (fun w => (w.1, mergeBits (shown w.1) (keysAt s w.1) w.2.1 w.2.2 (k (w.1 / 16))))
    let view := fun a => match merged.find? (fun p => p.1 == a) with | some p => p.2.1 | none => shown a
    let blocks := dedupNat (ws.map (fun w => w.1 / blockBytes comp))
    let encoded := fun (g : Nat) =>
      let chunk := g * blockBytes comp / 256 * 256
      let blk := g * blockBytes comp % 256 / blockBytes comp
      (encodeBlock comp blk (fun i => view (chunk + i))).map (fun p => (chunk + p.1, p.2))
    let compact := blocks.flatMap encoded
    let full := blocks.filter (fun g => (List.range (blockBytes comp)).all (fun i => whole.contains (g * blockBytes comp + i)))
    let s := clearPoison s ((full.flatMap encoded).map Prod.fst)
    let s := merged.foldl (fun s p => pokeKeys s p.1 p.2.2) s
    compact.foldl (fun s p => pokeByte s p.1 p.2 (keysAt s p.1)) s

/-- Settle bits into memory at one key. -/
def settle (s : State) (comp : Nat) (k : Key) (ws : List (Nat × Byte × Byte)) : State := settleBy s comp (fun _ => k) ws

/-- Overwrite whole bytes without a key of their own: write-backs of P pages, spilled blocks, zeroing (R180, R177, R436). -/
def overwrite (s : State) (ws : List (Nat × Byte)) : State :=
  let s := wroteLines (clearPoison (newMoment s) (ws.map Prod.fst)) (ws.map Prod.fst)
  ws.foldl (fun s w => pokeByte s w.1 w.2 (keysAt s w.1)) s

/-- Greatest settled time in the 16-byte blocks that bytes `as` lie in (R344, R438). -/
def greatestTime (s : State) (as : List Nat) : Nat :=
  (dedupNat (as.map (fun a => a / 16))).foldl (fun t b =>
    ((List.range 16).flatMap (fun i => keysAt s (16 * b + i))).foldl (fun t k => Nat.max t k.time) t) 0

/-- Time of a home slice's own write into block `b`, for one whose clock is `clock` (R344). -/
def blockTime (s : State) (clock b : Nat) : Nat := Nat.max clock (greatestTime s [16 * b]) + 1

/-- Writes into a page whose move is between its copying and its mapping switch, at the page's other frame: a die that has answered
reaches the new frame, the others the old (R165). DEDUCED, log entry 55. -/
def twinWrites (s : State) (ws : List (Nat × Byte × Byte)) : List (Nat × Byte × Byte) :=
  (s.dies.flatMap (fun d => d.2.migrations.filter (fun m => m.pushed && !m.switched))).flatMap (fun m => ws.filterMap (fun w =>
    if decide (m.old ≤ w.1) && decide (w.1 < m.old + m.size) then some (w.1 - m.old + m.new, w.2)
    else if decide (m.new ≤ w.1) && decide (w.1 < m.new + m.size) then some (w.1 - m.new + m.old, w.2) else none))

/-- A write the home slices make for a shared engine or a home atomic: settled at once with key (T, 256), T that of each block, and in
both frames of a page that is about to switch, so that no read misses it (R165); answers the largest T (R344, R346). -/
def engineWrite (s : State) (comp clock : Nat) (ws : List (Nat × Byte × Byte)) : State × Nat :=
  let all := ws ++ twinWrites s ws
  (settleBy s comp (fun b => { time := blockTime s clock b, num := 256 }) all, all.foldl (fun t w => Nat.max t (blockTime s clock (w.1 / 16))) 0)

/-- A promotion tag of the subarray that holds `a` is poisoned: every access reads it, and the row it finds is not known (R103,
R431). -/
def tagPoisoned (s : State) (a : Nat) : Bool :=
  classOf a == 0 && (look [] (stackAt s (stackOf a)).promo (subarrayOf a)).any PromoTag.mark

/-- Did byte `a` lie in a granule that was poisoned at moment `m`, or is it read through a tag that is? -/
def poisonedBy (s : State) (m a : Nat) : Bool := granuleMark s m (a / 32) || tagPoisoned s a

/-- Does byte `a` lie in a granule that is poisoned, or is read through a tag that is? -/
def memPoisoned (s : State) (a : Nat) : Bool := look false s.memPoison (a / 32) || tagPoisoned s a

/-- Was a granule poisoned at moment `m` from which a page of compression `comp` shows byte `a`? -/
def shownPoisonedBy (s : State) (comp m a : Nat) : Bool := (storedBytes comp a).any (poisonedBy s m)

/-- Is a granule poisoned from which a page of compression `comp` shows byte `a`? -/
def shownPoisoned (s : State) (comp a : Nat) : Bool := (storedBytes comp a).any (memPoisoned s)

/-- The granules of bytes `as` become poisoned (R116). -/
def poisonBytes (s : State) (as : List Nat) : State := setMarks s (dedupNat (as.map (fun a => a / 32))) true

/-- The granules that store shown bytes `as` become poisoned (R116). -/
def poisonShown (s : State) (comp : Nat) (as : List Nat) : State := poisonBytes s (as.flatMap (storedBytes comp))

/-! ### The home slice's request queue (R118 to R123) -/

/-- The weaker of a page's L2 policy and an instruction's (R122): 0 first touch, 1 second touch, 2 no allocate. -/
def policyRank (page instr : Nat) : Nat :=
  let p := if page == 1 then 0 else if page == 0 then 1 else 2
  if instr == 0 then p else Nat.max p instr

/-- The granule of `pa` is poisoned where it stands; what it holds is no longer known. -/
def spoilGranule (s : State) (pa : Nat) : State :=
  let g := pa / 32
  setMark ((List.range 32).foldl (fun s i => pokeByte s (32 * g + i) (Config.badByte s.tick (32 * g + i)) (keysAt s (32 * g + i))) (newMoment s)) g true

/-- The granule of `pa`, whose line no slice holds, is rewritten in DRAM as poisoned (R116). -/
def poisonGranule (s : State) (pa : Nat) : State :=
  let s := spoilGranule s pa
  promoWrite s pa (s.now - 1)

/-- A line leaves its slice: a dirty one is written back to DRAM (R120), whole, which cures what had gone bad there (R117); beneath a
clean one it comes to light (R116). -/
def leaveSlice (s : State) (v : L2Line) : State :=
  if v.dirty then promoWrite s (128 * v.line) v.since else v.under.foldl (fun s g => poisonGranule s (32 * g)) s

/-- A slice has requests for the line of `pa` before it, or fetches it: a request that arrives now is served after those (R120). -/
def sliceBusy (s : State) (pa : Nat) : Bool :=
  decide (classOf pa < 2) && ((sliceOf s pa).requests.any (fun r => r.line == pa / 128) || (sliceOf s pa).fills.any (fun f => f.line == pa / 128))

/-- What the check bits of a read of `pa`'s line that is asked for now find: the line is read from DRAM when its slice neither
holds it nor fetches it already (R115, R120). -/
def checkBits (s : State) (pa : Nat) : Option (Nat × DramErr) :=
  let x := sliceOf s pa
  if x.lines.any (fun l => l.line == pa / 128) || x.fills.any (fun f => f.line == pa / 128) || x.requests.any (fun r => r.line == pa / 128 && !r.write) then none
  else s.found.filter (fun f => f.1 / 128 == pa / 128)

/-- A request of `who` (8 x core + unit of R117) for the line of `pa` goes to its home slice. Data that meets an error which
cannot be corrected is poisoned from here on; the slice reports the error when the line arrives. -/
def askSlice (s : State) (who pa policy : Nat) (write : Bool) : State :=
  if 2 ≤ classOf pa then s
  else
    let err := if write then none else checkBits s pa
    let s := match err with
      | some (a, .uncorrectable) => poisonGranule s a
      | some (_, .corrected) | none => s
    modSlice s pa (fun x => { x with requests := x.requests ++ [{ line := pa / 128, policy := policy, write := write, who := who, err := err }] })

/-- Requests of the current core's unit `u`: 0 its accesses, 1 its copy engine, 5 its code fetch (R117). -/
def unitOf (s : State) (u : Nat) : Nat := 8 * s.cur + u

/-! ### Translation -/

def leafCoh (w : Word) : Coh := match bits w 63 62 with | 0 => .p | 1 => .l | _ => .o
def leafPolicy (w : Word) : Nat := bits w 61 60
def leafComp (w : Word) : Nat := bits w 59 57
def leafFrame (w : Word) : Nat := bits w 51 16 * 65536

def canonical (v : Nat) : Bool := decide (v < 2 ^ 48)

/-- A word of a page table, as settled at its home slice (R139). -/
def tableWord (s : State) (a : Nat) : Word := BitVec.ofNat 64 (leNat ((List.range 8).map (fun i => memByte s (a + i))))

/-- Index shift of a level (R132). -/
def levelShift (l : Nat) : Nat := match l with | 0 => 39 | 1 => 30 | 2 => 21 | _ => 16

def levelIndex (v l : Nat) : Nat := if l == 3 then nbitsOf v 20 16 else (v / 2 ^ levelShift l) % 512

/-- Cause a leaf at level `l` is refused with, if any (R134 to R136). The coherence class and L2 policy of a class E frame
are ignored (R135). -/
def leafCause (w : Word) (l : Nat) : Option Nat :=
  let cls := classOf (leafFrame w)
  let x := w.getLsbD 55
  if l == 0 || (cls != 3 && (bits w 63 62 == 3 || bits w 61 60 == 3)) || decide (3 < leafComp w) || bits w 15 2 != 0 then some 2
  else if leafFrame w % 2 ^ levelShift l != 0 then some 2
  else if w.getLsbD 56 && !x then some 2
  else if leafComp w != 0 && (bits w 63 62 != 1 || x || decide (2 ≤ cls)) then some 2
  else if cls == 2 && bits w 63 62 != 0 then some 2
  else if x && decide (2 ≤ cls) then some 2
  else none

/-- A walk from level `l` with its table at `table`: the leaf's entry or a cause of R136, and the pointers met. -/
def walkFrom (s : State) (asn v : Nat) : Nat → Nat → Nat → Except Nat TlbEntry × List WalkEntry
  | 0, _, _ => (.error 2, [])
  | fuel + 1, l, table =>
    if 2 ≤ classOf table || !backed table then (.error 3, [])
    else
      let w := tableWord s (table + 8 * levelIndex v l)
      match bits w 1 0 with
      | 0 => (.error 1, [])
      | 1 =>
        let next := bits w 51 8 * 256
        if l == 3 || bits w 63 52 != 0 || bits w 7 2 != 0 || (l != 2 && next % 4096 != 0) then (.error 2, [])
        else
          let (r, ps) := walkFrom s asn v fuel (l + 1) next
          (r, { asn := asn, level := l, index := v / 2 ^ levelShift l, table := next } :: ps)
      | 2 =>
        match leafCause w l with
        | some c => (.error c, [])
        | none => (.ok { asn := asn, base := v / 2 ^ levelShift l * 2 ^ levelShift l, size := 2 ^ levelShift l, leaf := w }, [])
      | _ => (.error 2, [])

/-- Where a walk starts: how many levels it may read, the first of them, and its table; below the deepest pointer that the die's
walk cache holds (R138). None where the root is malformed. -/
def walkStart (d : Die) (root : Word) (v : Nat) : Option (Nat × Nat × Nat) :=
  let hit := fun l => d.walkCache.find? (fun e => e.asn == bits root 63 52 && e.level == l && e.index == v / 2 ^ levelShift l)
  match hit 2, hit 1, hit 0 with
  | some e, _, _ => some (1, 3, e.table)
  | none, some e, _ => some (2, 2, e.table)
  | none, none, some e => some (3, 1, e.table)
  | none, none, none => if bits root 11 0 != 0 then none else some (4, 0, bits root 51 12 * 4096)

/-- A walk (R138). -/
def walk (s : State) (d : Die) (root : Word) (v : Nat) : Except Nat TlbEntry × List WalkEntry :=
  match walkStart d root v with
  | some (n, l, table) => walkFrom s (bits root 63 52) v n l table
  | none => (.error 2, [])

/-- The table entries that a walk from level `l` reads. -/
def wordsFrom (s : State) (v : Nat) : Nat → Nat → Nat → List Nat
  | 0, _, _ => []
  | fuel + 1, l, table =>
    if 2 ≤ classOf table || !backed table then []
    else
      let a := table + 8 * levelIndex v l
      let w := tableWord s a
      a :: (if bits w 1 0 == 1 then wordsFrom s v fuel (l + 1) (bits w 51 8 * 256) else [])

def walkWords (s : State) (d : Die) (root : Word) (v : Nat) : List Nat :=
  match walkStart d root v with
  | some (n, l, table) => wordsFrom s v n l table
  | none => []

/-- The pointers a walk has met enter the walk cache of 4,096 entries; those that entered it longest ago give way: DESIGN
CHOICE, log entry 50. -/
def addWalkEntries (d : Die) (ps : List WalkEntry) : Die :=
  { d with walkCache := ((ps.filter (fun p => !d.walkCache.contains p)) ++ d.walkCache).take 4096 }

def tlbHit (l : List TlbEntry) (asn v : Nat) : Option TlbEntry :=
  l.find? (fun t => t.asn == asn && decide (t.base ≤ v) && decide (v < t.base + t.size))

/-- Most recent first, at most `n` entries (R137). -/
def tlbAdd (l : List TlbEntry) (n : Nat) (t : TlbEntry) : List TlbEntry := (t :: l.filter (fun x => x != t)).take n

/-- The outcome of a translation. -/
inductive Tr where
  | ok (t : TlbEntry) (pa : Nat)
  | miss
  | bad (f : FaultRec)
deriving DecidableEq, Repr

/-- The fault of a failed translation (R136); that of a walk which met a poisoned entry is POISON cause 2 (R433). -/
def trFault (cause v : Nat) : FaultRec :=
  if cause == 6 then { code := .poison, cause := 2, tval := BitVec.ofNat 64 v } else { code := .translation, cause := cause, tval := BitVec.ofNat 64 v }
def unbackedFault (v : Nat) : FaultRec := { code := .unbackedAddress, tval := BitVec.ofNat 64 v }

/-- Rights of a page that translates (R136). An access that both its bit and the privileged-only bit deny reports cause 4:
DESIGN CHOICE, log entry 50. -/
def checkRights (t : TlbEntry) (v : Nat) (want : Want) (priv : Bool) : Tr :=
  let pa := leafFrame t.leaf + (v - t.base)
  if (want.r && !t.leaf.getLsbD 53) || (want.w && !t.leaf.getLsbD 54) || (want.x && !t.leaf.getLsbD 55) then .bad (trFault 4 v)
  else if t.leaf.getLsbD 52 && !priv then .bad (trFault 5 v)
  else .ok t pa

/-- An address that translates and is unbacked faults (R102). -/
def needBacked (v : Nat) : Tr → Tr
  | .ok t pa => if backed pa then .ok t pa else .bad (unbackedFault v)
  | .miss => .miss
  | .bad f => .bad f

def checkPage (t : TlbEntry) (v : Nat) (want : Want) (priv : Bool) : Tr := needBacked v (checkRights t v want priv)

/-- The failed walk answers access `a` of its granule: causes 4 and 5 are those of one access, the others of every one. -/
def WalkFail.of (p : WalkFail) (granule : Nat) (a : WalkAsk) : Bool := p.granule == granule && ((p.cause != 4 && p.cause != 5) || p.ask == a)

/-- Translation of `v` for the current core through its TLB (R137), short of the test of R102. -/
def translateRights (s : State) (e : Eng) (v : Nat) (want : Want) : Tr :=
  if !canonical v then .bad (trFault 0 v)
  else
    match tlbHit s.core.tlb (bits (readSys s e sysPTB) 63 52) v with
    | some t => checkRights t v want (privileged s.core)
    | none =>
      match s.core.walkFail.find? (fun p => p.of (v / 65536) { who := s.cur, want := want, priv := privileged s.core }) with
      | some p => .bad (trFault p.cause v)
      | none => .miss

def translate (s : State) (e : Eng) (v : Nat) (want : Want) : Tr := needBacked v (translateRights s e v want)

/-- The page becomes the most recent of the core's TLB. -/
def touchTlb (s : State) (t : TlbEntry) : State := modCore s (fun c => { c with tlb := tlbAdd c.tlb 256 t })

/-- Two misses of one address space and one page, as far as it is known before the walk has found the page's size: one
granule of 64 KiB. DESIGN CHOICE, log entry 50. -/
def WalkReq.same (q : WalkReq) (asn granule : Nat) : Bool := q.asn == asn && q.granule == granule

/-- Misses of requester `w` that wait or walk. -/
def walksOf (d : Die) (w : Nat) : Nat := (d.walkQueue.filter (fun q => q.asks.any (fun a => a.who == w))).length

/-- A miss enters a die's walk pool (R138): merged with a miss of the same page, at most 8 of one core, 4,096 in all. Those that a
walker has taken up still count among the 4,096: the rule lists walkers and queue apart. DESIGN CHOICE, log entry 72. -/
def queueWalk (d : Die) (r : WalkReq) : Die :=
  let same := fun (q : WalkReq) => q.same r.asn r.granule
  let whole := fun (a : WalkAsk) => decide (a.who < 256) && decide (8 ≤ walksOf d a.who) &&
    !d.walkQueue.any (fun q => same q && q.asks.any (fun b => b.who == a.who))
  if d.walkQueue.any (fun q => same q && r.asks.all q.asks.contains) then d
  else if r.asks.any whole then d
  else if d.walkQueue.any same then { d with walkQueue := d.walkQueue.map (fun q => if same q then { q with asks := q.asks ++ r.asks } else q) }
  else if 4096 ≤ d.walkQueue.length then d
  else { d with walkQueue := d.walkQueue ++ [r] }

/-- A miss of the current core asks its die's walk pool. -/
def askWalk (v : Nat) (want : Want) (s : State) : State :=
  let root := sysNow s.core sysPTB
  modDie s (dieOfCore s.cur) (fun d => queueWalk d
    { asn := bits root 63 52, granule := v / 65536, root := root, asks := [{ who := s.cur, want := want, priv := privileged s.core }] })

/-- The cause with which the outcome of a walk for the page of `v` refuses access `a`, if it does (R136). -/
def refusedFor (r : Except Nat TlbEntry) (v : Nat) (a : WalkAsk) : Option Nat :=
  match r with
  | .error c => some c
  | .ok t => match checkRights t v a.want a.priv with | .bad f => some f.cause | .ok _ _ | .miss => none

/-- The failure of a walk waits for the access it was made for, of a core or of a shared engine (R138). -/
def failWalk (granule cause : Nat) (s : State) (a : WalkAsk) : State :=
  let note := fun (l : List WalkFail) => { granule := granule, cause := cause, ask := a } :: l.filter (fun p => !p.of granule a)
  if a.who < 256 then modCoreAt s a.who (fun c => { c with walkFail := note c.walkFail })
  else modDie s ((a.who - 256) / 4096) (fun x => { x with walkFail := note x.walkFail })

/-- The result of a walk reaches an access that waits for it (R138): of a core or of a shared engine, which on a failure finds the
cause at its next attempt. Where the walk fails for the access it installs nothing (R136). -/
def walkResult (granule : Nat) (r : Except Nat TlbEntry) (s : State) (a : WalkAsk) : State :=
  match refusedFor r (granule * 65536) a, r with
  | none, .ok t =>
    if a.who < 256 then modCoreAt s a.who (fun c => { c with tlb := tlbAdd c.tlb 256 t })
    else
      let k := a.who % 4096 - 256
      modDie s ((a.who - 256) / 4096) (fun x => { x with tlbs := place [] x.tlbs k (tlbAdd (look [] x.tlbs k) 64 t) })
  | some cause, _ => failWalk granule cause s a
  | none, .error _ => s

/-- The walker reads its table entries through their home slices for the first access that waits (R117, R139), with the second-touch
policy: DESIGN CHOICE, log entry 73. -/
def readWords (s : State) (d : Nat) (root : Word) (v : Nat) (asks : List WalkAsk) : State :=
  let core := match asks with | a :: _ => if a.who < 256 then a.who else 64 * d | [] => 64 * d
  (walkWords s (dieAt s d) root v).foldl (fun s a => askSlice s (8 * core + 3) a 1 false) s

/-- A walk meets a poisoned table entry. -/
def walkPoison (s : State) (d : Nat) (root : Word) (v : Nat) : Bool := (walkWords s (dieAt s d) root v).any (memPoisoned s)

/-- A walk on die `d` for a page of address space `root` ends: where it succeeds for one of the accesses merged into it, or for
one of `more`, its pointers enter the walk cache; and every access merged with it has its result. -/
def endWalk (s : State) (d : Nat) (root : Word) (v : Nat) (more : List WalkAsk) : State × Except Nat TlbEntry :=
  let same := fun (q : WalkReq) => q.same (bits root 63 52) (v / 65536)
  let (r, ps) := walk s (dieAt s d) root v
  let waiting := ((dieAt s d).walkQueue.filter same).flatMap WalkReq.asks
  let s := modDie s d (fun x =>
    let x := if (waiting ++ more).any (fun a => (refusedFor r v a).isNone) then addWalkEntries x ps else x
    { x with walkQueue := x.walkQueue.filter (fun q => !same q) })
  (waiting.foldl (walkResult (v / 65536) r) s, r)

/-- A miss of requester `w` can be walked in this step: one of the 128 walkers takes it up, free or walking for the same
page, and a core has not 8 other misses waiting (R138). -/
def walkerFree (d : Die) (w asn granule : Nat) : Bool :=
  (decide (d.walkQueue.length < 128) || (d.walkQueue.take 128).any (fun q => q.same asn granule)) &&
    (decide (256 ≤ w) || decide (walksOf d w < 8) || d.walkQueue.any (fun q => q.same asn granule && q.asks.any (fun a => a.who == w)))

/-- The failures that a unit of the current core, or a shared engine of a die, has still to receive. -/
def failsOf (s : State) (own : Option (Nat × Nat)) : List WalkFail :=
  match own with | some (die, _) => (dieAt s die).walkFail | none => s.core.walkFail

/-- A failure has been received. -/
def received (s : State) (own : Option (Nat × Nat)) (p : WalkFail) : State :=
  match own with
  | some (die, _) => modDie s die (fun x => { x with walkFail := x.walkFail.erase p })
  | none => modCore s (fun c => { c with walkFail := c.walkFail.erase p })

/-- Translation for a unit that acts in steps of its own: the copy engine and the stream side through the core's TLB, a shared
engine through its own (R137). A miss is walked in the same step; where the pool cannot take it up, or the walk meets poison,
`walkWait` says so, and the step is taken again later (`keepWaiting`). -/
def translateNow (s : State) (root : Word) (own : Option (Nat × Nat)) (v : Nat) (want : Want) (priv : Bool) : State × Tr :=
  if !canonical v then (s, .bad (trFault 0 v))
  else
    let d := match own with | some (die, _) => die | none => dieOfCore s.cur
    let l := match own with | some (die, k) => look [] (dieAt s die).tlbs k | none => s.core.tlb
    let use := fun (s : State) (t : TlbEntry) => match own with
      | some (die, k) => modDie s die (fun x => { x with tlbs := place [] x.tlbs k (tlbAdd (look [] x.tlbs k) 64 t) })
      | none => touchTlb s t
    match tlbHit l (bits root 63 52) v with
    | some t => (use s t, checkPage t v want priv)
    | none =>
      let ask : WalkAsk := { who := match own with | some (die, k) => 256 + 4096 * die + k | none => s.cur, want := want, priv := priv }
      let asn := bits root 63 52
      let later := fun (s : State) => ({ s with walkWait := some { asn := asn, granule := v / 65536, root := root, asks := [ask] } }, Tr.miss)
      match (failsOf s own).find? (fun p => p.of (v / 65536) ask && p.ask.who == ask.who) with
      | some p => (received s own p, .bad (trFault p.cause v))
      | none =>
        if !walkerFree (dieAt s d) ask.who asn (v / 65536) then later s
        else
          let s := readWords s d root v [ask]
          if walkPoison s d root v then later s
          else
            match endWalk s d root v [ask] with
            | (s, .error c) => (s, .bad (trFault c v))
            | (s, .ok t) => (if (refusedFor (.ok t) v ask).isNone then use s t else s, checkPage t v want priv)

/-- What a step leaves when one of its misses has to wait for a walker: its place in the pool's queue (R138). -/
def keepWaiting (before after : State) : State :=
  match after.walkWait with
  | none => after
  | some r =>
    let d := match r.asks with | a :: _ => if a.who < 256 then dieOfCore a.who else (a.who - 256) / 4096 | [] => 0
    modDie before d (fun x => queueWalk x r)

/-! ### The store log (R333 to R337) -/

/-- Global mark of the task on the current core. -/
def taskMark (s : State) : Option Nat := s.core.task.map (fun t => dieOfCore s.cur * 4096 + t)

/-- Publish the log at scope `sc` (R336). -/
def publish (s : State) (sc : Nat) : State :=
  let mark := if s.core.noRollback then none else taskMark s
  modCore s (fun c =>
    let t := c.clock + 1
    let known := place 0 c.known (8 * s.cur + sc) t
    { c with
      clock := t
      known := known
      pubs := (t, sc, known) :: c.pubs
      log := c.log.map (fun r => if r.time.isNone then { r with time := some t, prov := mark, owner := taskMark s } else r) })

/-- Records of the task marked `m` cease to be provisional, in the log and where they have been replayed (R357, R359). -/
def endMark (m : Nat) (c : Core) : Core :=
  let f := fun (r : LogRec) => if r.prov == some m then { r with prov := none } else r
  { c with log := c.log.map f, replay := c.replay.map (fun p => (p.1, f p.2)) }

/-- Every core of the package, and every image put aside. -/
def modAll (s : State) (f : Core → Core) : State :=
  let s := modCores s (fun _ => true) f
  { s with images := s.images.map (fun i => { i with image := f i.image }) }

/-- Marks that stay on records of the core's context in its log after their tasks have faulted (log entry 12). -/
def keptMarks (c : Core) : List Nat :=
  ((c.log.filter (fun r => some r.ctx == c.ctx)).filterMap LogRec.prov).filter (fun m => decide (2 ^ 32 ≤ m))

/-- The records that the task on the core has published are irrevocable from now on, wherever they stand, and with them what a faulted
task of its context has left in the core's log (R357, R359). -/
def endPublished (s : State) : State := ((taskMark s).toList ++ keptMarks s.core).foldl (fun s m => modAll s (endMark m)) s

/-- The task's records cease to be provisional, and it cannot be rolled back (R359). -/
def endProvisional (s : State) : State := modCore (endPublished s) (fun c => { c with noRollback := true })

/-- One block's part of a store to an L page: merged into an unpublished record of the block, or a new record; none when
the log is full (R334, R335). -/
def logWrite (c : Core) (ctx block : Nat) (data mask : BitVec 128) (comp : Nat) (mark : Bool) : Option Core :=
  if c.log.any (fun r => r.block == block && r.time.isNone && r.ctx == ctx) then
    some { c with log := c.log.map (fun r =>
      if r.block == block && r.time.isNone && r.ctx == ctx then
        { r with data := (r.data &&& ~~~mask) ||| (data &&& mask), mask := r.mask ||| mask, poison := r.poison || mark } else r) }
  else if 8192 ≤ c.log.length then none
  else some { c with log := c.log ++ [{ block := block, data := data &&& mask, mask := mask, ctx := ctx, comp := comp, poison := mark }] }

/-- What a full log does while a store waits (R335, R359): publish when nothing is published; end the provisional state
when every record is held by it. -/
def spill (s : State) : State :=
  if s.core.log.all (fun r => r.time.isNone) then publish s 4
  else if s.core.log.all (fun r => r.prov.isSome) then endProvisional s
  else s

/-- A 128-bit value and mask from bytes of one block. -/
def blockBits (ws : List (Nat × Byte × Byte)) : BitVec 128 × BitVec 128 :=
  ws.foldl (fun p w =>
    let sh := 8 * (w.1 % 16)
    (p.1 ||| BitVec.shiftLeft (w.2.1.setWidth 128) sh, p.2 ||| BitVec.shiftLeft (w.2.2.setWidth 128) sh)) (0#128, 0#128)

/-- Group writes by `a / n`, in order of first appearance. -/
def groupBy (n : Nat) (ws : List (Nat × Byte × Byte)) : List (Nat × List (Nat × Byte × Byte)) :=
  (dedupNat (ws.map (fun w => w.1 / n))).map (fun g => (g, ws.filter (fun w => w.1 / n == g)))

def logAll (c : Core) (ctx comp : Nat) (mark : Bool) : List (Nat × List (Nat × Byte × Byte)) → Option Core
  | [] => some c
  | (g, ws) :: rest =>
    let (d, m) := blockBits ws
    match logWrite c ctx (16 * g) d m comp mark with
    | none => none
    | some c' => logAll c' ctx comp mark rest

/-! ### The L1 (R180, R181, R331) -/

/-- Core whose L1 holds a line: its own, or by address bits 9:7 in a fused cluster (R181). -/
def l1Holder (s : State) (line : Nat) : Nat :=
  if (dieAt s (dieOfCore s.cur)).fused.contains (s.cur % 64 / 8) then s.cur / 8 * 8 + line % 8 else s.cur

def l1Set (s : State) (line : Nat) : Nat :=
  if (dieAt s (dieOfCore s.cur)).fused.contains (s.cur % 64 / 8) then line / 8 % 1024 else line % 1024

def l1Find (s : State) (line : Nat) (cls : Coh) : Option L1Line :=
  (coreAt s (l1Holder s line)).l1.find? (fun l => l.line == line && l.cls == cls && (cls != .p || l.owner == s.cur))

/-- Write a line's dirty bytes back, with the marks of the data stored into it (R180, R116); what .clu atomics wrote into an exclusive
copy stays with the cluster (R200). -/
def writeBack (s : State) (l : L1Line) : State :=
  if l.dirty.isEmpty then s
  else if l.cls == .p then setMarks (overwrite s l.dirty) l.marks true
  else if l.exclusive then
    modDie s (dieOfCore l.owner) (fun d => { d with outLines := l :: d.outLines.filter (fun o => o.line != l.line || o.owner / 8 != l.owner / 8) })
  else s

/-- Byte `a` of a P line carries a mark: one stored into it, or one that its granule had when it was filled and that has not since been
stored over whole (R116, R117). -/
def linePoison (s : State) (l : L1Line) (a : Nat) : Bool :=
  l.marks.contains (a / 32) || (poisonedBy s l.moment a && !(List.range 32).all (fun i => hasKey l.dirty (a / 32 * 32 + i)))

/-- Put a line into its L1 as most recent. A copy of the line of another class is replaced (R331), and a full set gives
up its least recent line. -/
def l1Put (s : State) (x : L1Line) : State :=
  let h := l1Holder s x.line
  let ls := (coreAt s h).l1
  let same := fun (l : L1Line) => l.line == x.line && (l.cls != .p || x.cls != .p || l.owner == x.owner)
  let rest := ls.filter (fun l => !same l)
  let out := ls.filter (fun l => same l && l.cls != x.cls)
  let inSet := rest.filter (fun l => l1Set s l.line == l1Set s x.line)
  let victim := if 16 ≤ inSet.length then inSet.getLast? else none
  let kept := match victim with | some v => rest.filter (fun l => l != v) | none => rest
  let s := modCoreAt s h (fun c => { c with l1 := x :: kept })
  let s := out.foldl writeBack s
  match victim with
  | some v => writeBack s v
  | none => s

/-- An access of class `cls` that allocates nothing: a copy of the line of another class is replaced by none (R331). -/
def l1Drop (s : State) (line : Nat) (cls : Coh) : State :=
  let h := l1Holder s line
  let other := fun (l : L1Line) => l.line == line && l.cls != cls
  let out := (coreAt s h).l1.filter other
  if out.isEmpty then s
  else out.foldl writeBack (modCoreAt s h (fun c => { c with l1 := c.l1.filter (fun l => !other l) }))

/-- Cores whose L1s hold the current core's lines: its own, or its cluster's when they are fused (R181). -/
def l1Cores (s : State) : List Nat :=
  if (dieAt s (dieOfCore s.cur)).fused.contains (s.cur % 64 / 8) then (List.range 8).map (fun i => s.cur / 8 * 8 + i) else [s.cur]

/-- Write back the dirty P lines of the current core and invalidate its P lines among `p` (R353, R351). -/
def flushP (s : State) (p : L1Line → Bool) : State :=
  let h := fun (l : L1Line) => l.cls == .p && l.owner == s.cur && p l
  let s1 := (l1Cores s).foldl (fun s k => ((coreAt s k).l1.filter h).foldl writeBack s) s
  (l1Cores s).foldl (fun s k => modCoreAt s k (fun c => { c with l1 := c.l1.filter (fun l => !h l) })) s1

/-! ### What a core reads -/

/-- The migration that moves address `pa`, and where it goes (R165). -/
def movedFrom (s : State) (pa : Nat) : Option Migration :=
  (s.dies.flatMap (fun d => d.2.migrations)).find? (fun m => decide (m.old ≤ pa) && decide (pa < m.old + m.size))

/-- The migrations that move address `pa`, one after the other. -/
def movesOf (s : State) : Nat → Nat → List Migration
  | 0, _ => []
  | n + 1, pa => match movedFrom s pa with | some m => m :: movesOf s n (pa - m.old + m.new) | none => []

def movesAll (s : State) (pa : Nat) : List Migration := movesOf s (s.dies.flatMap (fun d => d.2.migrations)).length pa

/-- Where a record that names `pa` settles: every migration of its page has been followed (R165). -/
def homeOf (s : State) (pa : Nat) : Nat := (movesAll s pa).foldl (fun a m => a - m.old + m.new) pa

/-- The record writes the block of byte `a`, under the page's present frame or an earlier one. -/
def LogRec.covers (s : State) (r : LogRec) (a : Nat) : Bool :=
  r.block == a / 16 * 16 || homeOf s r.block == homeOf s (a / 16 * 16)

/-- Put a record's enabled bits over a byte, where its key is not below the bit's. -/
def overRecord (s : State) (a : Nat) (k : Key) (r : LogRec) (x : Byte × List Key) : Byte × List Key :=
  if r.covers s a then
    let sh := 8 * (a % 16)
    mergeBits x.1 x.2 ((r.data >>> sh).setWidth 8) ((r.mask >>> sh).setWidth 8) k
  else x

/-- A byte of an L page in the current core's view with settled memory as of moment `m` (R338). -/
def viewByte (s : State) (comp m a : Nat) : Byte :=
  let c := s.core
  let own := c.log.filter (fun r => some r.ctx == c.ctx)
  let x := (shownByte s comp m a, keysAtMoment s m a)
  let x := c.replay.foldl (fun x p => overRecord s a { time := p.2.time.getD 0, num := p.1 } p.2 x) x
  let x := (own.filter (fun r => r.time.isSome && !r.settled)).foldl (fun x r => overRecord s a { time := r.time.getD 0, num := s.cur } r x) x
  ((own.filter (fun r => r.time.isNone)).zipIdx.foldl (fun x q => overRecord s a { time := 2 ^ 64 + q.2, num := 0 } q.1 x) x).1

/-- Does the view of byte `a` of a page of compression `comp`, settled memory as of moment `m` beneath, carry a poison mark? -/
def viewPoison (s : State) (comp m a : Nat) : Bool :=
  shownPoisonedBy s comp m a || (s.core.log.any (fun r => !r.settled && r.covers s a && r.poison && some r.ctx == s.core.ctx)) ||
    s.core.replay.any (fun p => p.2.covers s a && p.2.poison)

/-- The moment a read of the current core finds L pages at: free, not before its moment (R338). -/
def pickMoment (s : State) (salt : Nat) : Nat :=
  s.core.moment + Config.freeMoment s.tick salt % (s.now - s.core.moment + 1)

/-- An O load of one line at pts, the core's clock (R342). -/
def oLoad (s : State) (u policy line : Nat) : State × L1Line :=
  match l1Find s line .o with
  | some l =>
    if s.core.clock ≤ l.rts then
      let s := l1Put s l
      (modCore s (fun c => { c with clock := Nat.max c.clock l.wts + 1 }), l)
    else oFill (askSlice s (unitOf s u) (128 * line) policy false) line
  | none => oFill (askSlice s (unitOf s u) (128 * line) policy false) line
where
  oFill (s : State) (line : Nat) : State × L1Line :=
    let (w, r) := look (0, 0) s.oLines line
    let pts := s.core.clock
    let r' := Nat.max r (Nat.max pts w + 32)
    let l : L1Line := { line := line, cls := .o, owner := s.cur, moment := s.now, wts := w, rts := r'
                        vecs := s.oKnown.filter (fun p => p.1 / 128 == line) }
    let s := { s with oLines := place (0, 0) s.oLines line (w, r') }
    (modCore (l1Put s l) (fun c => { c with clock := Nat.max pts w }), l)

/-- An O store of bits of one line by the current core (R342). -/
def oStore (s : State) (line : Nat) (ws : List (Nat × Byte × Byte)) : State :=
  let s := l1Drop s line .o
  let (_, r) := look (0, 0) s.oLines line
  let w := Nat.max s.core.clock (r + 1)
  let s := { s with oLines := place (0, 0) s.oLines line (w, w) }
  let s := settle s 0 { time := w, num := s.cur } ws
  let k := s.core.known
  let s := { s with oKnown := ws.foldl (fun m p => place [] m p.1 (mergeMax (look [] m p.1) k)) s.oKnown }
  let s := modDie s (homeDie (128 * line)) (fun d =>
    let sl := homeSlice (128 * line)
    let x : Slice := look {} d.slices sl
    { d with slices := place {} d.slices sl { x with known := mergeMax x.known k } })
  modCore s (fun c => { c with clock := w, l1 := c.l1.filter (fun l => !(l.line == line && l.cls == .o)) })

/-- Torus direction from this device to a neighbour `d` (R443, R444), if it is one. -/
def directionTo (s : State) (d : Nat) : Option Nat :=
  let c := fun (n k : Nat) => n / 8 ^ k % 8
  let turned := fun (k up : Nat) => (s.device / 8 ^ (k + 1)) * 8 ^ (k + 1) + (c s.device k + up) % 8 * 8 ^ k + s.device % 8 ^ k
  (List.range 6).find? (fun dir => d == turned (dir / 2) (if dir % 2 == 0 then 1 else 7))

/-- Torus port `p` of the package is up (R443). -/
def portUp (s : State) (p : Nat) : Bool := !(dieAt s (p / 3)).portsDown.contains (p % 3)

/-- A class N access that reaches its lender: a neighbour with a window that covers it, by a path that is up (R445, R447). -/
def lentReached (s : State) (pa n : Nat) : Bool :=
  let d := nbitsOf pa 49 31
  match directionTo s d with
  | none => false
  | some dir => (portUp s (2 * dir) || portUp s (2 * dir + 1)) && decide (nbitsOf pa 30 0 + n ≤ Config.lentSize s.tick d)

/-- Device that lends the byte at `pa` (R101). -/
def lenderOf (pa : Nat) : Nat := nbitsOf pa 49 31

/-- A byte another device lends (R446): what this package stored there last, else what the lender holds. -/
def lentValue (s : State) (pa : Nat) : Byte :=
  match look none s.remote (pa % 2 ^ 50) with
  | some b => b
  | none => Config.lentByte s.tick (lenderOf pa) (nbitsOf pa 30 0)

/-- A byte another device lends carries a mark. -/
def lentPoisoned (s : State) (pa : Nat) : Bool :=
  look false s.remotePoison (pa % 2 ^ 50 / 32) ||
    ((look none s.remote (pa % 2 ^ 50)).isNone && Config.lentMark s.tick (lenderOf pa) (nbitsOf pa 30 0))

/-- A P line of the current core, as its L1 holds it or as it is filled now through the home slice (R180). -/
def pLine (s : State) (u rank line : Nat) : State × L1Line :=
  match l1Find s line .p with
  | some l => (s, l)
  | none =>
    let s := askSlice s (unitOf s u) (128 * line) rank false
    (s, { line := line, cls := .p, owner := s.cur, moment := s.now })

/-- A read of a line of an L page finds a clean copy in the L1 that is not older than the core's moment, or fills one
(R330, R338); the cluster's exclusive copy stays what it is. -/
def lLine (s : State) (u rank line : Nat) : State :=
  match l1Find s line .l with
  | some l =>
    if l.exclusive || decide (s.core.moment ≤ l.moment) then l1Put s l
    else lFill (askSlice s (unitOf s u) (128 * line) rank false) line
  | none => lFill (askSlice s (unitOf s u) (128 * line) rank false) line
where
  lFill (s : State) (line : Nat) : State := l1Put s { line := line, cls := .l, owner := s.cur, moment := s.now }

/-! ### Stores on their way to other devices (R443 to R447) -/

/-- Position of a device in its slice, by coordinate (R444). -/
def coord (n k : Nat) : Nat := n / 8 ^ k % 8

/-- Direction of the first hop within a slice: x, then y, then z, the shorter way, at a distance of 4 the + way (R444). -/
def hopWithin (src dst : Nat) : Option Nat :=
  ((List.range 3).find? (fun k => coord src k != coord dst k)).map (fun k =>
    2 * k + (if (coord dst k + 8 - coord src k) % 8 ≤ 4 then 0 else 1))

/-- Ports a flit for device `dst` may leave by; none where it has arrived (R444). -/
def portsFor (s : State) (dst : Nat) : List Nat :=
  match hopWithin (s.device % 512) (dst % 512) with
  | some dir => [2 * dir, 2 * dir + 1]
  | none => if s.device / 512 == dst / 512 then [] else [12 + dst / 512 % 4]

/-- Die and local number of a package port (R443). -/
def portPlace (p : Nat) : Nat × Nat := if p < 12 then (p / 3, p % 3) else (p - 12, 3)

def portIsUp (s : State) (p : Nat) : Bool := !(dieAt s (portPlace p).1).portsDown.contains (portPlace p).2

/-- Add to a port's counters: sent, retried, link-down events. -/
def countPort (s : State) (die k : Nat) (a b c : Nat) : State :=
  modDie s die (fun d =>
    let (x, y, z) := look (0, 0, 0) d.ports k
    { d with ports := place (0, 0, 0) d.ports k (x + a, y + b, z + c) })

/-- `n` flits for device `dst` are sent, by either of the twins that are up (R440, R444). -/
def countFlits (s : State) (dst n : Nat) : State :=
  match (portsFor s dst).filter (portIsUp s) with
  | [] => s
  | p :: ps =>
    let q := (p :: ps).getD (Config.undecided s.tick 950000 % (ps.length + 1)) p
    countPort s (portPlace q).1 (portPlace q).2 n 0 0

/-- An access or a transfer takes flits for device `dst`, at least `n`; how many is not said. DESIGN CHOICE, log entry 66. -/
def sendFlits (s : State) (dst n : Nat) : State := countFlits s dst (n + Config.undecided s.tick 950001)

/-- Granules that writes touch, and those all of whose bytes they write (R117). -/
def granulesOf (ws : List (Nat × Byte × Byte)) : List Nat := dedupNat (ws.map (fun w => w.1 / 32))
def granuleWhole (ws : List (Nat × Byte × Byte)) (g : Nat) : Bool :=
  (List.range 32).all (fun i => ws.any (fun w => w.1 == 32 * g + i && w.2.2 == 255))

/-- A write of bits into memory another device lends (R446), with the mark of its data (R116). -/
def lentStore (s : State) (ws : List (Nat × Byte × Byte)) (mark : Bool) : State :=
  { s with
    remote := ws.foldl (fun m w => place none m (w.1 % 2 ^ 50) (some ((w.2.1 &&& w.2.2) ||| (lentValue s w.1 &&& ~~~w.2.2)))) s.remote
    remotePoison := (granulesOf ws).foldl (fun m g =>
      if mark then place false m (g % 2 ^ 45) true else if granuleWhole ws g then place false m (g % 2 ^ 45) false else m) s.remotePoison }

/-- Device a store is on its way to. -/
def FlyingStore.lender (f : FlyingStore) : Nat := match f.ws with | w :: _ => lenderOf w.1 | [] => 0

/-- The current core's stores on their way that `p` names are applied at their lenders, oldest first (R446). -/
def landFlying (s : State) (p : FlyingStore → Bool) : State :=
  modCore ((s.core.flying.filter p).foldl (fun s f => lentStore s f.ws f.mark) s)
    (fun c => { c with flying := c.flying.filter (fun f => !p f) })

/-- A class N store of the current core sets out (R446). -/
def sendStore (s : State) (ws : List (Nat × Byte × Byte)) (mark : Bool) : State :=
  let s := match ws with | w :: _ => sendFlits s (lenderOf w.1) ((ws.length + 255) / 256) | [] => s
  modCore s (fun c => { c with flying := c.flying ++ [{ ws := ws, mark := mark, id := c.nextId }], nextId := c.nextId + 1 })

/-- Stores that are applied as a clk ends: any, but those for one lender in order (R446); when is not said. -/
def flyingDue (s : State) : List FlyingStore :=
  (s.core.flying.foldl (fun (x : List FlyingStore × List Nat) f =>
    if x.2.contains f.lender || Config.undecided s.tick (2 ^ 67 + 256 * f.id + s.cur) % 2 == 0 then (x.1, f.lender :: x.2)
    else (x.1 ++ [f], x.2)) ([], [])).1

/-- The stores on their way in direction `dir` are lost (R447). -/
def loseFlying (s : State) (dir : Nat) (c : Core) : Core :=
  let gone := fun (f : FlyingStore) => directionTo s f.lender == some dir
  { c with flying := c.flying.filter (fun f => !gone f), lostStores := c.lostStores + (c.flying.filter gone).length }

/-- Bytes `pa .. pa + n - 1` of a page in the current core's view, `n` bytes within one 16-byte block, or one line of an
O page; each with its poison mark. Unit `u` of the core asks. -/
def readPiece (s : State) (u : Nat) (t : TlbEntry) (policy pa n : Nat) : State × List (Byte × Bool) :=
  let as := (List.range n).map (fun i => pa + i)
  if classOf pa == 2 then
    let s := landFlying (sendFlits s (lenderOf pa) 1) (fun f => f.lender == lenderOf pa)
    (s, as.map (fun a => (lentValue s a, lentPoisoned s a)))
  else
    let rank := policyRank (leafPolicy t.leaf) policy
    match leafCoh t.leaf with
    | .p =>
      let (s, l) := pLine s u rank (pa / 128)
      let s := l1Put s l
      (s, as.map (fun a => (match findKey l.dirty a with | some b => b | none => byteAt s l.moment a, linePoison s l a)))
    | .l =>
      let s := lLine s u rank (pa / 128)
      let m := pickMoment s pa
      let s := modCore s (fun c => { c with moment := m })
      (s, as.map (fun a => (viewByte s (leafComp t.leaf) m a, viewPoison s (leafComp t.leaf) m a)))
    | .o =>
      let (s, l) := oLoad s u rank (pa / 128)
      let k := as.foldl (fun k a => mergeMax k (look [] l.vecs a)) s.core.known
      (modCore s (fun c => { c with known := k }), as.map (fun a => (byteAt s l.moment a, poisonedBy s l.moment a)))

/-- Pieces of `pa .. pa + n - 1` that do not cross a multiple of `unit`. -/
def piecesOf (unit : Nat) : Nat → Nat → Nat → List (Nat × Nat)
  | 0, _, _ => []
  | f + 1, pa, n =>
    if n == 0 then []
    else
      let k := unit - pa % unit
      if n ≤ k then [(pa, n)] else (pa, k) :: piecesOf unit f (pa + k) (n - k)

/-- Bytes of one page in the current core's view, of any length, each with its poison mark. -/
def readMarked (s : State) (u : Nat) (t : TlbEntry) (policy pa n : Nat) : State × List (Byte × Bool) :=
  (piecesOf (if leafCoh t.leaf == .o then 128 else 16) (n + 1) pa n).foldl (fun x p =>
    let (s, b) := readPiece x.1 u t policy p.1 p.2
    (s, x.2 ++ b)) (s, [])

/-- Bytes of one page in the current core's view, with whether one of them is poisoned. -/
def readMem (s : State) (u : Nat) (t : TlbEntry) (policy pa n : Nat) : State × List Byte × Bool :=
  let (s, bs) := readMarked s u t policy pa n
  (s, bs.map Prod.fst, bs.any Prod.snd)

/-- A store of bits by the current core, under the page's class (R330, R334, R342, R446). None: the log is full. -/
def storeMem (s : State) (u : Nat) (t : TlbEntry) (policy : Nat) (ws : List (Nat × Byte × Byte)) (mark : Bool) : Option State :=
  match ws with
  | [] => some s
  | (pa, _, _) :: _ =>
    if classOf pa == 2 then some (sendStore s ws mark)
    else
      match leafCoh t.leaf with
      | .p =>
        some ((groupBy 128 ws).foldl (fun s g =>
          let (s, l) := pLine s u (policyRank (leafPolicy t.leaf) policy) g.1
          let old := fun a => match findKey l.dirty a with | some b => b | none => byteAt s l.moment a
          l1Put s { l with
            dirty := g.2.foldl (fun d w => setKey d w.1 ((w.2.1 &&& w.2.2) ||| (old w.1 &&& ~~~w.2.2))) l.dirty
            marks := if mark then dedupNat (granulesOf g.2 ++ l.marks) else l.marks.filter (fun k => !granuleWhole g.2 k) }) s)
      | .l =>
        match logAll s.core (s.core.ctx.getD 0) (leafComp t.leaf) mark (groupBy 16 ws) with
        | some c => some ((groupBy 128 ws).foldl (fun s g => l1Drop s g.1 .l) { s with core := c })
        | none => none
      | .o =>
        let s := (groupBy 128 ws).foldl (fun s g => oStore (askSlice s (unitOf s u) (128 * g.1) 0 true) g.1 g.2) s
        some (if mark then poisonBytes s (ws.map Prod.fst) else s)

/-- Whole bytes as writes with every bit enabled. -/
def wholeBytes (pa : Nat) (bs : List Byte) : List (Nat × Byte × Byte) :=
  (List.range bs.length).map (fun i => (pa + i, bs.getD i 0, 255#8))

/-! ### Replay (R339, R346) -/

/-- Scope codes: 0 core, 1 cluster, 2 die, 3 package, 4 system; does scope `sc` of core `w` reach core `r` (R341)? -/
def reaches (sc w r : Nat) : Bool :=
  match sc with
  | 0 => w == r
  | 1 => w / 8 == r / 8
  | 2 => w / 64 == r / 64
  | _ => true

/-- Core `w` as the current core's context has left it: on the core, or in an image put aside (R360). -/
def ctxCore (s : State) (w : Nat) : Core :=
  if (coreAt s w).ctx == s.core.ctx then coreAt s w
  else match s.images.find? (fun i => i.core == w && some i.ctx == s.core.ctx) with | some i => i.image | none => {}

/-- Replay core `w`'s published records up to release time `upto` into the current core (R339). Those of its own log its
reads find there; of a task it does not run they make it dependent as any other (R360). -/
def replayFrom (s : State) (w upto : Nat) : State :=
  let rs := (coreAt s w).log.filter (fun r => some r.ctx == s.core.ctx && !r.settled && match r.time with | some t => decide (t ≤ upto) | none => false)
  let marks := (rs.filterMap LogRec.prov).filter (fun m => some m != taskMark s)
  let pubs := (ctxCore s w).pubs.filter (fun p => decide (p.1 ≤ upto))
  modCore s (fun c => { c with
    replay := if w = s.cur then c.replay else c.replay ++ ((rs.map (fun r => (w, r))).filter (fun p => !c.replay.contains p))
    deps := dedupNat (c.deps ++ marks)
    clock := rs.foldl (fun t r => Nat.max t (r.time.getD 0)) c.clock
    known := match pubs with | p :: _ => mergeMax c.known p.2.2 | [] => c.known })

/-- The greatest release time core `w` has published. -/
def lastPublished (s : State) (w : Nat) : Nat := match (ctxCore s w).pubs with | p :: _ => p.1 | [] => 0

/-- The published tail an ACQ of scope `sc` reads in core `w`'s log: not before what a chain of R340 guarantees, otherwise free. -/
def acquiredTail (s : State) (sc w : Nat) : Nat :=
  let last := lastPublished s w
  let sure := if reaches sc s.cur w then
      (List.range 5).foldl (fun t k => if reaches k w s.cur then Nat.max t (look 0 s.core.known (8 * w + k)) else t) 0 else 0
  let times := ((ctxCore s w).pubs.map (fun p => p.1)).filter (fun t => decide (sure ≤ t))
  if w = s.cur then last else (sure :: times).getD (Config.undecided s.tick (300000 + w) % (times.length + 1)) last

/-- Acquire an element (R146, R346): replay the pusher's log up to its publication, or take an engine's key, and move
the moment. -/
def acquireElement (s : State) (r : Release) : State :=
  let s := match r.core with
    | some w => replayFrom s w r.time
    | none => s
  modCore s (fun c => { c with
    clock := Nat.max c.clock r.time, moment := s.now, known := mergeMax c.known r.known })

end Sys2Proof.Machine
end

