-- ==== Sys2Proof/Machine/Mgmt.lean ====
section
/-!
DEFINITION. A die's management registers as a core or the host reaches them (R440, R441), and the doorbells (R394).
-/
namespace Sys2Proof.Machine

def sat64 (n : Nat) : Word := BitVec.ofNat 64 (Nat.min n (2 ^ 64 - 1))

/-- A stack's counter (R440). -/
def stackCounter (x : Stack) (k : Nat) : Word :=
  match k with
  | 0 => sat64 x.refusedPromotions
  | 1 => sat64 x.refusedHolds
  | 2 => sat64 x.dirtyDemotions
  | 3 => sat64 x.corrected
  | 4 => sat64 x.uncorrectable
  | 5 => sat64 x.fallbackEntries
  | 6 => sat64 x.refusedDemotions
  | _ => 0

/-- A port's counter or state (R440). -/
def portCounter (d : Die) (p k : Nat) : Word :=
  let (sent, retried, downs) := look (0, 0, 0) d.ports p
  match k with
  | 0 => sat64 sent
  | 1 => sat64 retried
  | 2 => sat64 downs
  | 3 => if d.portsDown.contains p then 0 else 1
  | _ => 0

/-- Reading a management register at window offset `off` of die `d`; unlisted offsets read as zero (R440). -/
def mgmtRead (s : State) (d off : Nat) : Word :=
  let x := dieAt s d
  let o := off - 0x1000000
  if o == 0x0 then BitVec.ofNat 64 (s.device % 2 ^ 19 + d * 2 ^ 20 + Config.revision.toNat * 2 ^ 24)
  else if o == 0x8 then BitVec.ofNat 64 s.clk
  else if decide (0x40 ≤ o) && decide (o < 0x80) then look 0 x.mcb ((o - 0x40) / 8)
  else if o == 0x88 then BitVec.ofNat 64 (x.status + (if x.busy then 2 ^ 63 else 0))
  else if o == 0x100 then x.mevr
  else if o == 0x108 then sat64 x.mevl
  else if decide (0x20000 ≤ o) && decide (o < 0x20080) then stackCounter (stackAt s (2 * d + (o - 0x20000) / 0x40)) ((o - 0x20000) % 0x40 / 8)
  else if decide (0x30000 ≤ o) && decide (o < 0x30100) then portCounter x ((o - 0x30000) / 0x40) ((o - 0x30000) % 0x40 / 8)
  else 0

/-- An event of kind 5 (R404): reason, launch tag. -/
def postRefused (s : State) (d ctx reason tag : Nat) : State :=
  postEvent s d ctx (eventWords 5 0xFFFF 0 tag s.clk (BitVec.ofNat 64 reason)) none

/-- Ring of queue `n` with new tail `tail` (R394). Counts run freely in 32 bits. -/
def ringDoorbell (s : State) (d n tail : Nat) : State :=
  let x := dieAt s d
  match findKey x.queues n with
  | none => s
  | some q =>
    if !x.contexts.any (fun c => c.num == q.ctx) then s
    else
      let ahead := fun (t : Nat) => (t + 2 ^ 32 - q.head) % 2 ^ 32
      let t := tail % 2 ^ 32
      if ahead t < ahead q.lastTail ∨ q.entries < ahead t then postRefused s d q.ctx 2 0
      else modDie s d (fun x => { x with queues := setKey x.queues n { q with lastTail := t, doorbells := q.doorbells ++ [(t, s.clk)] } })

/-- A command whose code is reserved, or that this die does not allow, is malformed (R441). -/
def commandAdmitted (d code : Nat) : Bool := decide (1 ≤ code) && (decide (code ≤ 8) || (decide (code ≤ 11) && d == 0))

/-- A command ends: busy clears and the status is written (R441). -/
def commandDone (s : State) (d status : Nat) : State :=
  modDie s d (fun x => { x with busy := false, status := if x.overrun then 3 else status, overrun := false })

/-- A write of MCGO (R441). -/
def writeGo (s : State) (d : Nat) (v : Word) : State :=
  let x := dieAt s d
  if x.busy then modDie s d (fun x => { x with overrun := true })
  else
    let s1 := modDie s d (fun x => { x with
      mcbCopy := lookAll 0 x.mcb 0 8, mcbCode := v.toNat, busy := true, overrun := false })
    if commandAdmitted d v.toNat then s1 else commandDone s1 d 1

/-- Writing a management register; a write to a read-only or unlisted offset is ignored (R440). -/
def mgmtWrite (s : State) (d off : Nat) (v : Word) : State :=
  let o := off - 0x1000000
  if decide (0x40 ≤ o) && decide (o < 0x80) then modDie s d (fun x => { x with mcb := place 0 x.mcb ((o - 0x40) / 8) v })
  else if o == 0x80 then writeGo s d v
  else if o == 0x100 then modDie s d (fun x => { x with mevr := v })
  else if decide (0x10000 ≤ o) && decide (o < 0x18000) then ringDoorbell s d ((o - 0x10000) / 8) (v.toNat % 2 ^ 32)
  else s

/-- MANAGEMENT_REGISTER_WRITE (R440): the host writes a register without behaviour of its own; doorbells and command
words have events of their own. -/
def execEvManagementRegisterWrite (s : State) : Host.Outcome State Fault Refusal :=
  .next (mgmtWrite s s.arg.die.toNat (0x1000000 + 8 * (s.arg.addr % 2 ^ 21)) s.arg.value)

/-- DOORBELL (R394): a host write of a queue's doorbell. -/
def execEvDoorbell (s : State) : Host.Outcome State Fault Refusal :=
  .next (ringDoorbell s s.arg.die.toNat (s.arg.n % 4096) s.arg.len)

end Sys2Proof.Machine
end

