-- ==== Sys2Proof/Decode.lean ====
section
/-!
DEFINITION. The encoder and the decoders of the three kinds of words: main text (R47 to R64), weight-stream directives
(R65, R66, R263) and sampler logit words (R67, R311). The encoder lays every operand field where the manual's tables
put it; a decoder reads the fields of the opcode's layout, and refuses a word that the encoder would not have written
(a reserved bit that is set) or whose instruction `Instr.check` refuses.
-/
namespace Sys2Proof

/-- Why parcels are no instruction. Each raises ILLEGAL_INSTRUCTION (R69). -/
inductive DecodeError where
  /-- Length class 0b11 in main text. -/
  | lengthClass
  /-- Tag 0b101, 0b110 or 0b111. -/
  | reservedTag
  /-- No opcode admits this form. -/
  | noForm
  /-- A reserved bit is set. -/
  | reservedBit
  /-- The entry refuses the operands. -/
  | illFormed (e : IllFormed)
  /-- Not a directive parcel, or directive code 9 to 15. -/
  | noDirective
  /-- Operation code 20 to 31, or a modifier the operation does not list. -/
  | noLogitWord
deriving DecidableEq, Repr

/-- One bit. -/
def boolBit (b : Bool) : BitVec 1 := if b then 1#1 else 0#1

/-- Bits 15:0 of the first parcel (R48). -/
def Hdr.low (h : Hdr) (op : BitVec 8) (len : BitVec 2) : BitVec 16 :=
  boolBit h.sw ++ h.gap ++ op ++ h.eng.tag ++ len

/-- Bits 15:0 of the first parcel of an S-tagged instruction: tag 0b100 (R49). -/
def SHdr.low (h : SHdr) (op : BitVec 8) (len : BitVec 2) : BitVec 16 :=
  boolBit h.sw ++ h.gap ++ op ++ 4#3 ++ len

/-- First parcel of a 64-bit or 96-bit form (R53). -/
def Hdr.first (h : Hdr) (op : BitVec 8) (len : BitVec 2) : BitVec 32 :=
  h.pop ++ h.push ++ h.guard ++ h.rm ++ h.low op len

def SHdr.first (h : SHdr) (op : BitVec 8) (len : BitVec 2) : BitVec 32 := 0#16 ++ h.low op len

/-- Code of a view (R58). -/
def View.code : View → BitVec 2
  | .tile => 0#2
  | .row => 1#2
  | .col => 2#2
  | .dia => 3#2

def viewOf (c : BitVec 2) : View :=
  match c.toNat with
  | 0 => .tile
  | 1 => .row
  | 2 => .col
  | _ => .dia

/-- A matrix operand in its 13 bits (R58). -/
def MOp.bits (m : MOp) : BitVec 13 := m.reg ++ m.view.code ++ m.idx

def mopOf (b : BitVec 13) : MOp :=
  { reg := b.extractLsb' 8 5, view := viewOf (b.extractLsb' 6 2), idx := b.extractLsb' 0 6 }

def Imm.src2 : Imm → Src2
  | .imm i => .imm i
  | .lit l => .lit l

def LoopCount.src2 : LoopCount → Src2
  | .reg r => .reg r
  | .imm i => .imm i

def SysNum.src2 : SysNum → Src2
  | .reg r => .reg r
  | .num i => .imm i

/-- Decider field of a branch: 0 C, 1 A (R372). -/
def Eng.decider : Eng → BitVec 2
  | .c => 0#2
  | .a => 1#2
  | .v => 2#2
  | .w => 3#2

def deciderOf (b : BitVec 2) : Option Eng :=
  match b.toNat with
  | 0 => some .c
  | 1 => some .a
  | _ => none

def Scope.code : Scope → BitVec 8
  | .core => 0#8
  | .clu => 1#8
  | .die => 2#8
  | .pkg => 3#8
  | .sys => 4#8

/-- Layout G32 (R52). -/
def encG32 (h : Hdr) (op : BitVec 8) (d a : Reg) (b : BitVec 4) : List (BitVec 32) :=
  [d ++ a ++ b ++ h.low op 0#2]

/-- Second parcel of layout G (R56). -/
def gParcel (d a : Reg) (t : BitVec 5) : Src2 → BitVec 32
  | .reg r => d ++ a ++ t ++ 0#1 ++ (0#8 ++ r)
  | .imm i => d ++ a ++ t ++ 1#1 ++ i
  | .lit _ => d ++ a ++ t ++ 1#1 ++ 0#14

/-- Layout G: the literal takes a third parcel (R56, R57). -/
def encG (h : Hdr) (op : BitVec 8) (d a : Reg) (t : BitVec 5) (s : Src2) : List (BitVec 32) :=
  match s with
  | .lit l => [h.first op 2#2, gParcel d a t s, l]
  | .reg _ | .imm _ => [h.first op 1#2, gParcel d a t s]

/-- Layout G under tag S (R372, R379). -/
def encS (h : SHdr) (op : BitVec 8) (d a : Reg) (t : BitVec 5) (s : Src2) : List (BitVec 32) :=
  match s with
  | .lit l => [h.first op 2#2, gParcel d a t s, l]
  | .reg _ | .imm _ => [h.first op 1#2, gParcel d a t s]

/-- Second parcel of layout M (R56). -/
def mParcel (d a : BitVec 13) (t : BitVec 5) (l : BitVec 1) : BitVec 32 := d ++ a ++ t ++ l

def encM64 (h : Hdr) (op : BitVec 8) (d a : MOp) (t : BitVec 5) : List (BitVec 32) :=
  [h.first op 1#2, mParcel d.bits a.bits t 0#1]

def encM96 (h : Hdr) (op : BitVec 8) (d a : BitVec 13) (t : BitVec 5) (l : BitVec 1) (p2 : BitVec 32) :
    List (BitVec 32) :=
  [h.first op 2#2, mParcel d a t l, p2]

/-- A 96-bit vector instruction with its src2 (R57, R229). -/
def encV (h : Hdr) (op : BitVec 8) (d a : MOp) (t : BitVec 5) (s : VSrc) : List (BitVec 32) :=
  match s with
  | .mat m => encM96 h op d.bits a.bits t 0#1 (0#19 ++ m.bits)
  | .lit l => encM96 h op d.bits a.bits t 1#1 l

/-- A rotation or broadcast (R229). -/
def encAmt (h : Hdr) (op : BitVec 8) (d a : MOp) (s : AmtSrc) : List (BitVec 32) :=
  match s with
  | .reg r => encM96 h op d.bits a.bits 0#5 0#1 (0#26 ++ r)
  | .lit l => encM96 h op d.bits a.bits 0#5 1#1 l

/-- MLD and MST: field a holds a general register in bits 5:0 (R187). -/
def encSeg (h : Hdr) (op : BitVec 8) (d : MOp) (a : Reg) (t : Ty) (s : SegSrc) : List (BitVec 32) :=
  match s with
  | .one => [h.first op 1#2, mParcel d.bits (0#7 ++ a) t.code 0#1]
  | .lit l => encM96 h op d.bits (0#7 ++ a) t.code 1#1 l
  | .reg r => encM96 h op d.bits (0#7 ++ a) t.code 0#1 (0#26 ++ r)

/-- The parcels of an instruction with an encoding; none for the device's own steps and inputs. -/
def encode (i : Instr) : Option (List (BitVec 32)) :=
  match i with
  | .add h d a b => some (encG32 h 1#8 d a b)
  | .addLong h d a s => some (encG h 1#8 d a 0#5 s)
  | .sub h d a b => some (encG32 h 2#8 d a b)
  | .subLong h d a s => some (encG h 2#8 d a 0#5 s)
  | .mul h d a b => some (encG32 h 3#8 d a b)
  | .mulLong h d a s => some (encG h 3#8 d a 0#5 s)
  | .mulhS h d a b => some (encG32 h 4#8 d a b)
  | .mulhSLong h d a s => some (encG h 4#8 d a 0#5 s)
  | .mulhZ h d a b => some (encG32 h 5#8 d a b)
  | .mulhZLong h d a s => some (encG h 5#8 d a 0#5 s)
  | .divS h d a b => some (encG32 h 6#8 d a b)
  | .divSLong h d a s => some (encG h 6#8 d a 0#5 s)
  | .divZ h d a b => some (encG32 h 7#8 d a b)
  | .divZLong h d a s => some (encG h 7#8 d a 0#5 s)
  | .remS h d a b => some (encG32 h 8#8 d a b)
  | .remSLong h d a s => some (encG h 8#8 d a 0#5 s)
  | .remZ h d a b => some (encG32 h 9#8 d a b)
  | .remZLong h d a s => some (encG h 9#8 d a 0#5 s)
  | .and64 h d a b => some (encG32 h 10#8 d a b)
  | .and64Long h d a s => some (encG h 10#8 d a 0#5 s)
  | .or64 h d a b => some (encG32 h 11#8 d a b)
  | .or64Long h d a s => some (encG h 11#8 d a 0#5 s)
  | .xor64 h d a b => some (encG32 h 12#8 d a b)
  | .xor64Long h d a s => some (encG h 12#8 d a 0#5 s)
  | .shl h d a b => some (encG32 h 13#8 d a b)
  | .shlLong h d a s => some (encG h 13#8 d a 0#5 s)
  | .shrS h d a b => some (encG32 h 14#8 d a b)
  | .shrSLong h d a s => some (encG h 14#8 d a 0#5 s)
  | .shrZ h d a b => some (encG32 h 15#8 d a b)
  | .shrZLong h d a s => some (encG h 15#8 d a 0#5 s)
  | .rot h d a b => some (encG32 h 16#8 d a b)
  | .rotLong h d a s => some (encG h 16#8 d a 0#5 s)
  | .minS h d a b => some (encG32 h 17#8 d a b)
  | .minSLong h d a s => some (encG h 17#8 d a 0#5 s)
  | .minZ h d a b => some (encG32 h 18#8 d a b)
  | .minZLong h d a s => some (encG h 18#8 d a 0#5 s)
  | .maxS h d a b => some (encG32 h 19#8 d a b)
  | .maxSLong h d a s => some (encG h 19#8 d a 0#5 s)
  | .maxZ h d a b => some (encG32 h 20#8 d a b)
  | .maxZLong h d a s => some (encG h 20#8 d a 0#5 s)
  | .seq h d a b => some (encG32 h 26#8 d a b)
  | .seqLong h d a s => some (encG h 26#8 d a 0#5 s)
  | .sltS h d a b => some (encG32 h 27#8 d a b)
  | .sltSLong h d a s => some (encG h 27#8 d a 0#5 s)
  | .sltZ h d a b => some (encG32 h 28#8 d a b)
  | .sltZLong h d a s => some (encG h 28#8 d a 0#5 s)
  | .sel h d a b => some (encG32 h 29#8 d a b)
  | .selLong h d a s => some (encG h 29#8 d a 0#5 s)
  | .nop h => some (encG32 h 0#8 0#6 0#6 0#4)
  | .clz h d a => some (encG32 h 21#8 d a 0#4)
  | .clzLong h d a => some (encG h 21#8 d a 0#5 (.reg 0#6))
  | .popc h d a => some (encG32 h 22#8 d a 0#4)
  | .popcLong h d a => some (encG h 22#8 d a 0#5 (.reg 0#6))
  | .extS h d a s => some (encG h 23#8 d a 0#5 s)
  | .extZ h d a s => some (encG h 24#8 d a 0#5 s)
  | .ins h d a s => some (encG h 25#8 d a 0#5 s)
  | .li h d i => some [d ++ i ++ h.low 30#8 0#2]
  | .liLong h d s i => some (encG h 30#8 d s 0#5 i.src2)
  | .mov h d a m => some (encG32 h 31#8 d a m)
  | .movLong h d a m w => some (encG h 31#8 d a 0#5 (if w then .lit (m.setWidth 32) else .imm (m.setWidth 14)))
  | .bEq h b a e lv t => some (encS h 32#8 b a (e.decider ++ boolBit lv ++ 0#2) t.src2)
  | .bNe h b a e lv t => some (encS h 33#8 b a (e.decider ++ boolBit lv ++ 0#2) t.src2)
  | .bLtS h b a e lv t => some (encS h 34#8 b a (e.decider ++ boolBit lv ++ 0#2) t.src2)
  | .bLtZ h b a e lv t => some (encS h 35#8 b a (e.decider ++ boolBit lv ++ 0#2) t.src2)
  | .bGeS h b a e lv t => some (encS h 36#8 b a (e.decider ++ boolBit lv ++ 0#2) t.src2)
  | .bGeZ h b a e lv t => some (encS h 37#8 b a (e.decider ++ boolBit lv ++ 0#2) t.src2)
  | .jmp h t => some (encS h 38#8 0#6 0#6 0#5 t.src2)
  | .jl h d t => some (encS h 39#8 d 0#6 0#5 t.src2)
  | .jr h a e => some (encS h 40#8 0#6 a (e.decider ++ 0#3) (.reg 0#6))
  | .loop h dist n cnt => some (encS h 41#8 (dist.extractLsb' 6 6) (dist.extractLsb' 0 6) (0#2 ++ n) cnt.src2)
  | .syncpc h => some [0#16 ++ h.low 42#8 0#2]
  | .syncpcLong h => some (encS h 42#8 0#6 0#6 0#5 (.imm 0#14))
  | .syncpcD h m => some [0#4 ++ m ++ 0#4 ++ h.low 43#8 0#2]
  | .syncpcDLong h m => some (encS h 43#8 0#6 0#6 0#5 (.imm (m.setWidth 14)))
  | .tpop h q => some (encG32 h 44#8 0#6 0#6 q)
  | .tpsh h q => some (encG32 h 45#8 0#6 0#6 q)
  | .qcancel h q => some (encG32 h 46#8 0#6 0#6 q)
  | .slack h s => some (encG h 47#8 0#6 0#6 0#5 s)
  | .slackW h s => some (encG h 47#8 0#6 0#6 0#5 s)
  | .trap h i => some [0#6 ++ i ++ h.low 48#8 0#2]
  | .syscall h i => some [0#6 ++ i ++ h.low 49#8 0#2]
  | .eret h => some (encG32 h 50#8 0#6 0#6 0#4)
  | .halt h => some (encG32 h 54#8 0#6 0#6 0#4)
  | .sysr h d n => some (encG h 51#8 d 0#6 0#5 n.src2)
  | .sysw h a n => some (encG h 52#8 0#6 a 0#5 n.src2)
  | .ldovt h a => some (encG h 53#8 0#6 a 0#5 (.reg 0#6))
  | .ld h d a t s => some (encG h 64#8 d a t.code s)
  | .ldLn h d a t s => some (encG h 65#8 d a t.code s)
  | .st h d a t s => some (encG h 66#8 d a t.code s)
  | .stLn h d a t s => some (encG h 67#8 d a t.code s)
  | .probe h d a s => some (encG h 72#8 d a 0#5 s)
  | .probeLn h d a s => some (encG h 73#8 d a 0#5 s)
  | .copy h d a s => some (encG h 74#8 d a 0#5 s)
  | .copyLn h d a s => some (encG h 75#8 d a 0#5 s)
  | .pushe h a s => some (encG h 76#8 0#6 a 0#5 s)
  | .pusheT h d a s => some (encG h 77#8 d a 0#5 s)
  | .pope h d s => some (encG h 78#8 d 0#6 0#5 s)
  | .popeT h d a s => some (encG h 79#8 d a 0#5 s)
  | .settle h c => some (encG32 h 80#8 0#6 0#6 (if c then 1#4 else 0#4))
  | .settleLong h c => some (encG h 80#8 0#6 0#6 0#5 (.imm (if c then 1#14 else 0#14)))
  | .promote h a s => some (encG h 81#8 0#6 a 0#5 s)
  | .promoteH h a s => some (encG h 82#8 0#6 a 0#5 s)
  | .demote h a s => some (encG h 83#8 0#6 a 0#5 s)
  | .relCore h => some (encG32 h 96#8 0#6 0#6 0#4)
  | .relCoreLong h => some (encG h 96#8 0#6 0#6 0#5 (.reg 0#6))
  | .fenceCore h => some (encG32 h 106#8 0#6 0#6 0#4)
  | .fenceCoreLong h => some (encG h 106#8 0#6 0#6 0#5 (.reg 0#6))
  | .acqCore h a => some (encG32 h 101#8 0#6 a 0#4)
  | .acqCoreLong h a => some (encG h 101#8 0#6 a 0#5 (.reg 0#6))
  | .relClu h => some (encG32 h 97#8 0#6 0#6 0#4)
  | .relCluLong h => some (encG h 97#8 0#6 0#6 0#5 (.reg 0#6))
  | .fenceClu h => some (encG32 h 107#8 0#6 0#6 0#4)
  | .fenceCluLong h => some (encG h 107#8 0#6 0#6 0#5 (.reg 0#6))
  | .acqClu h a => some (encG32 h 102#8 0#6 a 0#4)
  | .acqCluLong h a => some (encG h 102#8 0#6 a 0#5 (.reg 0#6))
  | .relDie h => some (encG32 h 98#8 0#6 0#6 0#4)
  | .relDieLong h => some (encG h 98#8 0#6 0#6 0#5 (.reg 0#6))
  | .fenceDie h => some (encG32 h 108#8 0#6 0#6 0#4)
  | .fenceDieLong h => some (encG h 108#8 0#6 0#6 0#5 (.reg 0#6))
  | .acqDie h a => some (encG32 h 103#8 0#6 a 0#4)
  | .acqDieLong h a => some (encG h 103#8 0#6 a 0#5 (.reg 0#6))
  | .relPkg h => some (encG32 h 99#8 0#6 0#6 0#4)
  | .relPkgLong h => some (encG h 99#8 0#6 0#6 0#5 (.reg 0#6))
  | .fencePkg h => some (encG32 h 109#8 0#6 0#6 0#4)
  | .fencePkgLong h => some (encG h 109#8 0#6 0#6 0#5 (.reg 0#6))
  | .acqPkg h a => some (encG32 h 104#8 0#6 a 0#4)
  | .acqPkgLong h a => some (encG h 104#8 0#6 a 0#5 (.reg 0#6))
  | .relSys h => some (encG32 h 100#8 0#6 0#6 0#4)
  | .relSysLong h => some (encG h 100#8 0#6 0#6 0#5 (.reg 0#6))
  | .fenceSys h => some (encG32 h 110#8 0#6 0#6 0#4)
  | .fenceSysLong h => some (encG h 110#8 0#6 0#6 0#5 (.reg 0#6))
  | .acqSys h a => some (encG32 h 105#8 0#6 a 0#4)
  | .acqSysLong h a => some (encG h 105#8 0#6 a 0#5 (.reg 0#6))
  | .aadd h sc d a t s => some (encG h (112#8 + sc.code) d a t.code s)
  | .amin h sc d a t s => some (encG h (117#8 + sc.code) d a t.code s)
  | .amax h sc d a t s => some (encG h (122#8 + sc.code) d a t.code s)
  | .aor h sc d a t s => some (encG h (127#8 + sc.code) d a t.code s)
  | .aand h sc d a t s => some (encG h (132#8 + sc.code) d a t.code s)
  | .axchg h sc d a t s => some (encG h (137#8 + sc.code) d a t.code s)
  | .acas h sc d a t s => some (encG h (142#8 + sc.code) d a t.code s)
  | .aaddN h sc a t s => some (encG h (147#8 + sc.code) 0#6 a t.code s)
  | .aminN h sc a t s => some (encG h (152#8 + sc.code) 0#6 a t.code s)
  | .amaxN h sc a t s => some (encG h (157#8 + sc.code) 0#6 a t.code s)
  | .aorN h sc a t s => some (encG h (162#8 + sc.code) 0#6 a t.code s)
  | .aandN h sc a t s => some (encG h (167#8 + sc.code) 0#6 a t.code s)
  | .mld h d a t s => some (encSeg h 68#8 d a t s)
  | .mldLn h d a t s => some (encSeg h 69#8 d a t s)
  | .mst h d a t s => some (encSeg h 70#8 d a t s)
  | .mstLn h d a t s => some (encSeg h 71#8 d a t s)
  | .vadd h d a t s => some (encV h 176#8 d a t.code s)
  | .vsub h d a t s => some (encV h 177#8 d a t.code s)
  | .vmul h d a t s => some (encV h 178#8 d a t.code s)
  | .vfma h d a t s => some (encV h 179#8 d a t.code s)
  | .vmin h d a t s => some (encV h 180#8 d a t.code s)
  | .vmax h d a t s => some (encV h 181#8 d a t.code s)
  | .vand h d a t s => some (encV h 184#8 d a t.code s)
  | .vor h d a t s => some (encV h 185#8 d a t.code s)
  | .vxor h d a t s => some (encV h 186#8 d a t.code s)
  | .vshl h d a t s => some (encV h 187#8 d a t.code s)
  | .vshr h d a t s => some (encV h 188#8 d a t.code s)
  | .vaddSat h d a t s => some (encV h 216#8 d a t.code s)
  | .vsubSat h d a t s => some (encV h 217#8 d a t.code s)
  | .vmulSat h d a t s => some (encV h 218#8 d a t.code s)
  | .vfmaSat h d a t s => some (encV h 219#8 d a t.code s)
  | .vshlSat h d a t s => some (encV h 222#8 d a t.code s)
  | .vcmpEq h d a t s => some (encV h 192#8 d a t.code s)
  | .vcmpNe h d a t s => some (encV h 193#8 d a t.code s)
  | .vcmpLt h d a t s => some (encV h 194#8 d a t.code s)
  | .vcmpLe h d a t s => some (encV h 195#8 d a t.code s)
  | .vabs h d a t => some (encM64 h 182#8 d a t.code)
  | .vneg h d a t => some (encM64 h 183#8 d a t.code)
  | .vabsSat h d a t => some (encM64 h 220#8 d a t.code)
  | .vnegSat h d a t => some (encM64 h 221#8 d a t.code)
  | .vexp h d a t => some (encM64 h 209#8 d a t.code)
  | .vlog h d a t => some (encM64 h 210#8 d a t.code)
  | .vrcp h d a t => some (encM64 h 211#8 d a t.code)
  | .vrsq h d a t => some (encM64 h 212#8 d a t.code)
  | .vsin h d a t => some (encM64 h 213#8 d a t.code)
  | .vcos h d a t => some (encM64 h 214#8 d a t.code)
  | .vtanh h d a t => some (encM64 h 215#8 d a t.code)
  | .vredrAdd h d a t => some (encM64 h 201#8 d a t.code)
  | .vredrMax h d a t => some (encM64 h 202#8 d a t.code)
  | .vredrMin h d a t => some (encM64 h 203#8 d a t.code)
  | .vredrAmax h d a t => some (encM64 h 204#8 d a t.code)
  | .vredcAdd h d a t => some (encM64 h 205#8 d a t.code)
  | .vredcMax h d a t => some (encM64 h 206#8 d a t.code)
  | .vredcMin h d a t => some (encM64 h 207#8 d a t.code)
  | .vredcAmax h d a t => some (encM64 h 208#8 d a t.code)
  | .vsel h d a s => some (encV h 196#8 d a 0#5 s)
  | .vcvt h d a t t2 g => some (encM96 h 189#8 d.bits a.bits t.code 0#1 (0#14 ++ t2.code ++ (0#7 ++ g)))
  | .vpack h d a t t2 => some (encM96 h 190#8 d.bits a.bits t.code 0#1 (0#14 ++ t2.code ++ 0#13))
  | .vunpack h d a t t2 => some (encM96 h 191#8 d.bits a.bits t.code 0#1 (0#14 ++ t2.code ++ 0#13))
  | .vrotr h d a s => some (encAmt h 197#8 d a s)
  | .vrotc h d a s => some (encAmt h 198#8 d a s)
  | .vbcr h d a s => some (encAmt h 199#8 d a s)
  | .vbcc h d a s => some (encAmt h 200#8 d a s)
  | .wcall h a s => some (encG h 224#8 0#6 a 0#5 s)
  | .wstripe h a t s => some (encG h 225#8 0#6 a t.code s)
  | .wzero h s => some (encG h 226#8 0#6 0#6 0#5 s)
  | .wdrain h d y t s => some (encG h 227#8 d (0#1 ++ y.code) t.code s)
  | .lacq h s => some (encG h 228#8 0#6 0#6 0#5 s)
  | .lacqT h d s => some (encG h 229#8 d 0#6 0#5 s)
  | .lrel h => some (encG h 230#8 0#6 0#6 0#5 (.reg 0#6))
  | .lcfg h a s => some (encG h 231#8 0#6 a 0#5 s)
  | .lmm h a s => some (encG h 232#8 0#6 a 0#5 s)
  | .lmmA h a s => some (encG h 233#8 0#6 a 0#5 s)
  | .lmmg h a s => some (encG h 234#8 0#6 a 0#5 s)
  | .lmmgA h a s => some (encG h 235#8 0#6 a 0#5 s)
  | .lscore h a s => some (encG h 236#8 0#6 a 0#5 s)
  | .lscoreCm h a s => some (encG h 237#8 0#6 a 0#5 s)
  | .lscoreTm h a s => some (encG h 238#8 0#6 a 0#5 s)
  | .lpv h a s => some (encG h 239#8 0#6 a 0#5 s)
  | .lpvA h a s => some (encG h 240#8 0#6 a 0#5 s)
  | .ldrain h d t s => some (encG h 241#8 d 0#6 t.code s)
  | .wprep w c p => some [w ++ c ++ p ++ 0#4 ++ 3#2]
  | .wprepa w r p => some [w ++ r ++ p ++ 1#4 ++ 3#2]
  | .wsum ny nx y x s => some [0#10 ++ boolBit ny ++ boolBit nx ++ y ++ x ++ s ++ 2#4 ++ 3#2]
  | .wacc x f => some [0#13 ++ x ++ f ++ 3#4 ++ 3#2]
  | .wnacc x f => some [0#13 ++ x ++ f ++ 4#4 ++ 3#2]
  | .wmap x m f l => some [0#5 ++ x ++ m ++ f ++ 5#4 ++ 3#2, l]
  | .wjmp j => some [j ++ 6#4 ++ 3#2]
  | .wend => some [0#26 ++ 7#4 ++ 3#2]
  | .whook i => some [0#18 ++ i ++ 8#4 ++ 3#2]
  | .lwEnd => some [0#16 ++ 0#4 ++ 0#4 ++ 0#3 ++ 0#5]
  | .lwLdc => some [0#16 ++ 0#4 ++ 0#4 ++ 0#3 ++ 1#5]
  | .lwLdb => some [0#16 ++ 0#4 ++ 0#4 ++ 0#3 ++ 2#5]
  | .lwBias a => some [0#16 ++ 0#4 ++ a ++ 0#3 ++ 3#5]
  | .lwPenrep a => some [0#16 ++ 0#4 ++ a ++ 0#3 ++ 4#5]
  | .lwPenfrq a => some [0#16 ++ 0#4 ++ a ++ 0#3 ++ 5#5]
  | .lwPenprs a => some [0#16 ++ 0#4 ++ a ++ 0#3 ++ 6#5]
  | .lwTemp a => some [0#16 ++ 0#4 ++ a ++ 0#3 ++ 7#5]
  | .lwTopp a => some [0#16 ++ 0#4 ++ a ++ 0#3 ++ 13#5]
  | .lwMinp a => some [0#16 ++ 0#4 ++ a ++ 0#3 ++ 14#5]
  | .lwClamp b a => some [0#16 ++ b ++ a ++ 0#3 ++ 8#5]
  | .lwScale b a => some [0#16 ++ b ++ a ++ 0#3 ++ 9#5]
  | .lwMaskg => some [0#16 ++ 0#4 ++ 0#4 ++ 0#3 ++ 10#5]
  | .lwMaskb => some [0#16 ++ 0#4 ++ 0#4 ++ 0#3 ++ 11#5]
  | .lwTopk k => some [k ++ 0#4 ++ 0#4 ++ 0#3 ++ 12#5]
  | .lwSoftmax => some [0#16 ++ 0#4 ++ 0#4 ++ 0#3 ++ 15#5]
  | .lwDraw => some [0#16 ++ 0#4 ++ 0#4 ++ 0#3 ++ 16#5]
  | .lwArgmax => some [0#16 ++ 0#4 ++ 0#4 ++ 0#3 ++ 17#5]
  | .lwSetv x a => some [x ++ 0#4 ++ a ++ 0#3 ++ 18#5]
  | .lwSetvLo x a => some [x ++ 0#4 ++ a ++ 1#3 ++ 18#5]
  | .lwSkip n => some [n ++ 0#4 ++ 0#4 ++ 0#3 ++ 19#5]
  | .lwSkipZ n a => some [n ++ 0#4 ++ a ++ 1#3 ++ 19#5]
  | .lwSkipP n a => some [n ++ 0#4 ++ a ++ 2#3 ++ 19#5]
  | .lwSkipNg n => some [n ++ 0#4 ++ 0#4 ++ 3#3 ++ 19#5]
  | .evLdReturn | .evResultWrite | .evModeCrossing | .evPrcfgWrite | .evRecordSettle | .evL2Request | .evLineFill
  | .evFilterClear | .evPageWalk | .evCodeFetchArrival | .evPromotion | .evDemotion | .evRowOperationsDone
  | .evRefresh | .evScrub | .evHeartbeat | .evHeartbeatMissed | .evFallbackRefresh | .evRefreshHandback
  | .evCopyCommand | .evCopyTransfer | .evCopyComplete | .evProbeFill | .evFillDone | .evInvalidatePages
  | .evInvalidateAll | .evInvalidateRange | .evInvalidateAsn | .evTlbInvalidateAll | .evMigrate | .evReleaseOldFrame
  | .evCompile | .evPatch | .evStripeApply | .evZeroApply | .evSlackApply | .evCallRun | .evSegmentStart
  | .evRunGrant | .evGroupStart | .evTileLineArrival | .evRunLimit | .evLeaseCommandComplete | .evLeaveGrant
  | .evPowerThrottle | .evOpen | .evBind | .evClose | .evSample | .evSampleStage2 | .evCluster | .evVerify | .evNote
  | .evGrammarBind | .evUnbind | .evQuery | .evInvalidate | .evRing | .evRsum | .evA2a | .evCollectiveReceive
  | .evKick | .evDecodeFrame | .evSpawn | .evDoorbell | .evLaunchAdmit | .evMarkerComplete | .evTaskPlace
  | .evTaskStart | .evTaskComplete | .evTaskFault | .evEventPost | .evAging | .evTrapEntry | .evPoisonRollback
  | .evSramError | .evFatalError | .evImageLoad | .evContextExchange | .evImageDrain | .evCreate | .evSetvec
  | .evDestroy | .evQueue | .evPreempt | .evDump | .evFrames | .evLend | .evPower | .evAttest | .evFirmware
  | .evManagementRegisterWrite | .evHostRead | .evHostWrite | .evLentAccess | .evFlitReceive | .evPortDown
  | .evPortUp | .evReset | .evStarvedClk | .evProbeLag | .evPowerWithinBudget | .evOrderingComplete => none

/-- Fields of the first parcel of a 32-bit form (R52). -/
structure F32 where
  d : Reg
  a : Reg
  b : BitVec 4
  i : BitVec 10

def f32Fields (p0 : BitVec 32) : F32 :=
  { d := p0.extractLsb' 26 6, a := p0.extractLsb' 20 6, b := p0.extractLsb' 16 4, i := p0.extractLsb' 16 10 }

/-- Fields of the second parcel of layout G (R56, R372). -/
structure FG where
  d : Reg
  a : Reg
  t : BitVec 5
  l : BitVec 1
  i : BitVec 14

def gFields (p1 : BitVec 32) : FG :=
  { d := p1.extractLsb' 26 6, a := p1.extractLsb' 20 6, t := p1.extractLsb' 15 5, l := p1.extractLsb' 14 1,
    i := p1.extractLsb' 0 14 }

def FG.r (g : FG) : Reg := g.i.extractLsb' 0 6
def FG.s (g : FG) : Src2 := if g.l == 1#1 then .imm g.i else .reg g.r
def FG.ty (g : FG) : Option Ty := Ty.ofCode g.t.toNat
def FG.dec (g : FG) : BitVec 2 := g.t.extractLsb' 3 2
def FG.lv (g : FG) : Bool := g.t.extractLsb' 2 1 == 1#1

/-- Fields of the second parcel of layout M (R56). -/
structure FM where
  d : BitVec 13
  a : BitVec 13
  t : BitVec 5
  l : BitVec 1

def mFields (p1 : BitVec 32) : FM :=
  { d := p1.extractLsb' 19 13, a := p1.extractLsb' 6 13, t := p1.extractLsb' 1 5, l := p1.extractLsb' 0 1 }

def FM.dm (m : FM) : MOp := mopOf m.d
def FM.am (m : FM) : MOp := mopOf m.a
def FM.ar (m : FM) : Reg := m.a.extractLsb' 0 6
def FM.ty (m : FM) : Option Ty := Ty.ofCode m.t.toNat
def FM.vsrc (m : FM) (p2 : BitVec 32) : VSrc := if m.l == 1#1 then .lit p2 else .mat (mopOf (p2.extractLsb' 0 13))

/-- Second type code of a two-type instruction (R57). -/
def t2Of (p2 : BitVec 32) : Option Ty := Ty.ofCode (p2.extractLsb' 13 5).toNat

/-- The engine of a tag; none for S and the reserved tags (R49). -/
def engOfTag (t : BitVec 3) : Option Eng :=
  match t.toNat with
  | 0 => some .c
  | 1 => some .a
  | 2 => some .v
  | 3 => some .w
  | _ => none

/-- The opcode field (R48). -/
def opOf (p0 : BitVec 32) : Nat := (p0.extractLsb' 5 8).toNat

/-- The S control instructions are opcodes 0x20 to 0x2B (R63). -/
def opIsShared (op : Nat) : Bool := 0x20 ≤ op && op ≤ 0x2B

/-- Header of a main-text parcel; under tag S the engine is a placeholder. -/
def hdrOf (p0 : BitVec 32) (long : Bool) : Hdr :=
  { eng := (engOfTag (p0.extractLsb' 2 3)).getD .c, gap := p0.extractLsb' 13 2, sw := p0.extractLsb' 15 1 == 1#1,
    pop := if long then p0.extractLsb' 28 4 else 0#4, push := if long then p0.extractLsb' 24 4 else 0#4,
    guard := if long then p0.extractLsb' 18 6 else 0#6, rm := if long then p0.extractLsb' 16 2 else 0#2 }

def Hdr.s (h : Hdr) : SHdr := { gap := h.gap, sw := h.sw }

/-- The fields of a 32-bit form, by opcode (R61, R63). -/
def fields32 (p0 : BitVec 32) : Option Instr :=
  let h := hdrOf p0 false
  let f := f32Fields p0
  match opOf p0 with
  | 0x00 => some (.nop h)
  | 0x01 => some (.add h f.d f.a f.b)
  | 0x02 => some (.sub h f.d f.a f.b)
  | 0x03 => some (.mul h f.d f.a f.b)
  | 0x04 => some (.mulhS h f.d f.a f.b)
  | 0x05 => some (.mulhZ h f.d f.a f.b)
  | 0x06 => some (.divS h f.d f.a f.b)
  | 0x07 => some (.divZ h f.d f.a f.b)
  | 0x08 => some (.remS h f.d f.a f.b)
  | 0x09 => some (.remZ h f.d f.a f.b)
  | 0x0A => some (.and64 h f.d f.a f.b)
  | 0x0B => some (.or64 h f.d f.a f.b)
  | 0x0C => some (.xor64 h f.d f.a f.b)
  | 0x0D => some (.shl h f.d f.a f.b)
  | 0x0E => some (.shrS h f.d f.a f.b)
  | 0x0F => some (.shrZ h f.d f.a f.b)
  | 0x10 => some (.rot h f.d f.a f.b)
  | 0x11 => some (.minS h f.d f.a f.b)
  | 0x12 => some (.minZ h f.d f.a f.b)
  | 0x13 => some (.maxS h f.d f.a f.b)
  | 0x14 => some (.maxZ h f.d f.a f.b)
  | 0x15 => some (.clz h f.d f.a)
  | 0x16 => some (.popc h f.d f.a)
  | 0x1A => some (.seq h f.d f.a f.b)
  | 0x1B => some (.sltS h f.d f.a f.b)
  | 0x1C => some (.sltZ h f.d f.a f.b)
  | 0x1D => some (.sel h f.d f.a f.b)
  | 0x1E => some (.li h f.d f.i)
  | 0x1F => some (.mov h f.d f.a f.b)
  | 0x2A => some (.syncpc h.s)
  | 0x2B => some (.syncpcD h.s (p0.extractLsb' 20 8))
  | 0x2C => some (.tpop h f.b)
  | 0x2D => some (.tpsh h f.b)
  | 0x2E => some (.qcancel h f.b)
  | 0x30 => some (.trap h f.i)
  | 0x31 => some (.syscall h f.i)
  | 0x32 => some (.eret h)
  | 0x36 => some (.halt h)
  | 0x50 => some (.settle h (f.b == 1#4))
  | 0x60 => some (.relCore h)
  | 0x61 => some (.relClu h)
  | 0x62 => some (.relDie h)
  | 0x63 => some (.relPkg h)
  | 0x64 => some (.relSys h)
  | 0x65 => some (.acqCore h f.a)
  | 0x66 => some (.acqClu h f.a)
  | 0x67 => some (.acqDie h f.a)
  | 0x68 => some (.acqPkg h f.a)
  | 0x69 => some (.acqSys h f.a)
  | 0x6A => some (.fenceCore h)
  | 0x6B => some (.fenceClu h)
  | 0x6C => some (.fenceDie h)
  | 0x6D => some (.fencePkg h)
  | 0x6E => some (.fenceSys h)
  | _ => none

/-- The fields of a 64-bit form, by opcode (R61, R63). -/
def fields64 (p0 p1 : BitVec 32) : Option Instr :=
  let h := hdrOf p0 true
  let g := gFields p1
  let m := mFields p1
  match opOf p0 with
  | 0x01 => some (.addLong h g.d g.a g.s)
  | 0x02 => some (.subLong h g.d g.a g.s)
  | 0x03 => some (.mulLong h g.d g.a g.s)
  | 0x04 => some (.mulhSLong h g.d g.a g.s)
  | 0x05 => some (.mulhZLong h g.d g.a g.s)
  | 0x06 => some (.divSLong h g.d g.a g.s)
  | 0x07 => some (.divZLong h g.d g.a g.s)
  | 0x08 => some (.remSLong h g.d g.a g.s)
  | 0x09 => some (.remZLong h g.d g.a g.s)
  | 0x0A => some (.and64Long h g.d g.a g.s)
  | 0x0B => some (.or64Long h g.d g.a g.s)
  | 0x0C => some (.xor64Long h g.d g.a g.s)
  | 0x0D => some (.shlLong h g.d g.a g.s)
  | 0x0E => some (.shrSLong h g.d g.a g.s)
  | 0x0F => some (.shrZLong h g.d g.a g.s)
  | 0x10 => some (.rotLong h g.d g.a g.s)
  | 0x11 => some (.minSLong h g.d g.a g.s)
  | 0x12 => some (.minZLong h g.d g.a g.s)
  | 0x13 => some (.maxSLong h g.d g.a g.s)
  | 0x14 => some (.maxZLong h g.d g.a g.s)
  | 0x15 => some (.clzLong h g.d g.a)
  | 0x16 => some (.popcLong h g.d g.a)
  | 0x17 => some (.extS h g.d g.a g.s)
  | 0x18 => some (.extZ h g.d g.a g.s)
  | 0x19 => some (.ins h g.d g.a g.s)
  | 0x1A => some (.seqLong h g.d g.a g.s)
  | 0x1B => some (.sltSLong h g.d g.a g.s)
  | 0x1C => some (.sltZLong h g.d g.a g.s)
  | 0x1D => some (.selLong h g.d g.a g.s)
  | 0x1E => some (.liLong h g.d g.a (.imm g.i))
  | 0x1F => some (.movLong h g.d g.a (g.i.setWidth 4) false)
  | 0x20 => (deciderOf g.dec).map fun e => .bEq h.s g.d g.a e g.lv (.imm g.i)
  | 0x21 => (deciderOf g.dec).map fun e => .bNe h.s g.d g.a e g.lv (.imm g.i)
  | 0x22 => (deciderOf g.dec).map fun e => .bLtS h.s g.d g.a e g.lv (.imm g.i)
  | 0x23 => (deciderOf g.dec).map fun e => .bLtZ h.s g.d g.a e g.lv (.imm g.i)
  | 0x24 => (deciderOf g.dec).map fun e => .bGeS h.s g.d g.a e g.lv (.imm g.i)
  | 0x25 => (deciderOf g.dec).map fun e => .bGeZ h.s g.d g.a e g.lv (.imm g.i)
  | 0x26 => some (.jmp h.s (.imm g.i))
  | 0x27 => some (.jl h.s g.d (.imm g.i))
  | 0x28 => (deciderOf g.dec).map fun e => .jr h.s g.a e
  | 0x29 => some (.loop h.s (g.d ++ g.a) (g.t.setWidth 3) (if g.l == 1#1 then .imm g.i else .reg g.r))
  | 0x2A => some (.syncpcLong h.s)
  | 0x2B => some (.syncpcDLong h.s (g.i.setWidth 8))
  | 0x2F => some (if h.eng == .w then .slackW h g.s else .slack h g.s)
  | 0x33 => some (.sysr h g.d (if g.l == 1#1 then .num g.i else .reg g.r))
  | 0x34 => some (.sysw h g.a (if g.l == 1#1 then .num g.i else .reg g.r))
  | 0x35 => some (.ldovt h g.a)
  | 0x40 => g.ty.map fun t => .ld h g.d g.a t g.s
  | 0x41 => g.ty.map fun t => .ldLn h g.d g.a t g.s
  | 0x42 => g.ty.map fun t => .st h g.d g.a t g.s
  | 0x43 => g.ty.map fun t => .stLn h g.d g.a t g.s
  | 0x44 => m.ty.map fun t => .mld h m.dm m.ar t .one
  | 0x45 => m.ty.map fun t => .mldLn h m.dm m.ar t .one
  | 0x46 => m.ty.map fun t => .mst h m.dm m.ar t .one
  | 0x47 => m.ty.map fun t => .mstLn h m.dm m.ar t .one
  | 0x48 => some (.probe h g.d g.a g.s)
  | 0x49 => some (.probeLn h g.d g.a g.s)
  | 0x4A => some (.copy h g.d g.a g.s)
  | 0x4B => some (.copyLn h g.d g.a g.s)
  | 0x4C => some (.pushe h g.a g.s)
  | 0x4D => some (.pusheT h g.d g.a g.s)
  | 0x4E => some (.pope h g.d g.s)
  | 0x4F => some (.popeT h g.d g.a g.s)
  | 0x50 => some (.settleLong h (g.i == 1#14))
  | 0x51 => some (.promote h g.a g.s)
  | 0x52 => some (.promoteH h g.a g.s)
  | 0x53 => some (.demote h g.a g.s)
  | 0x60 => some (.relCoreLong h)
  | 0x61 => some (.relCluLong h)
  | 0x62 => some (.relDieLong h)
  | 0x63 => some (.relPkgLong h)
  | 0x64 => some (.relSysLong h)
  | 0x65 => some (.acqCoreLong h g.a)
  | 0x66 => some (.acqCluLong h g.a)
  | 0x67 => some (.acqDieLong h g.a)
  | 0x68 => some (.acqPkgLong h g.a)
  | 0x69 => some (.acqSysLong h g.a)
  | 0x6A => some (.fenceCoreLong h)
  | 0x6B => some (.fenceCluLong h)
  | 0x6C => some (.fenceDieLong h)
  | 0x6D => some (.fencePkgLong h)
  | 0x6E => some (.fenceSysLong h)
  | 0x70 => g.ty.map fun t => .aadd h .core g.d g.a t g.s
  | 0x71 => g.ty.map fun t => .aadd h .clu g.d g.a t g.s
  | 0x72 => g.ty.map fun t => .aadd h .die g.d g.a t g.s
  | 0x73 => g.ty.map fun t => .aadd h .pkg g.d g.a t g.s
  | 0x74 => g.ty.map fun t => .aadd h .sys g.d g.a t g.s
  | 0x75 => g.ty.map fun t => .amin h .core g.d g.a t g.s
  | 0x76 => g.ty.map fun t => .amin h .clu g.d g.a t g.s
  | 0x77 => g.ty.map fun t => .amin h .die g.d g.a t g.s
  | 0x78 => g.ty.map fun t => .amin h .pkg g.d g.a t g.s
  | 0x79 => g.ty.map fun t => .amin h .sys g.d g.a t g.s
  | 0x7A => g.ty.map fun t => .amax h .core g.d g.a t g.s
  | 0x7B => g.ty.map fun t => .amax h .clu g.d g.a t g.s
  | 0x7C => g.ty.map fun t => .amax h .die g.d g.a t g.s
  | 0x7D => g.ty.map fun t => .amax h .pkg g.d g.a t g.s
  | 0x7E => g.ty.map fun t => .amax h .sys g.d g.a t g.s
  | 0x7F => g.ty.map fun t => .aor h .core g.d g.a t g.s
  | 0x80 => g.ty.map fun t => .aor h .clu g.d g.a t g.s
  | 0x81 => g.ty.map fun t => .aor h .die g.d g.a t g.s
  | 0x82 => g.ty.map fun t => .aor h .pkg g.d g.a t g.s
  | 0x83 => g.ty.map fun t => .aor h .sys g.d g.a t g.s
  | 0x84 => g.ty.map fun t => .aand h .core g.d g.a t g.s
  | 0x85 => g.ty.map fun t => .aand h .clu g.d g.a t g.s
  | 0x86 => g.ty.map fun t => .aand h .die g.d g.a t g.s
  | 0x87 => g.ty.map fun t => .aand h .pkg g.d g.a t g.s
  | 0x88 => g.ty.map fun t => .aand h .sys g.d g.a t g.s
  | 0x89 => g.ty.map fun t => .axchg h .core g.d g.a t g.s
  | 0x8A => g.ty.map fun t => .axchg h .clu g.d g.a t g.s
  | 0x8B => g.ty.map fun t => .axchg h .die g.d g.a t g.s
  | 0x8C => g.ty.map fun t => .axchg h .pkg g.d g.a t g.s
  | 0x8D => g.ty.map fun t => .axchg h .sys g.d g.a t g.s
  | 0x8E => g.ty.map fun t => .acas h .core g.d g.a t g.s
  | 0x8F => g.ty.map fun t => .acas h .clu g.d g.a t g.s
  | 0x90 => g.ty.map fun t => .acas h .die g.d g.a t g.s
  | 0x91 => g.ty.map fun t => .acas h .pkg g.d g.a t g.s
  | 0x92 => g.ty.map fun t => .acas h .sys g.d g.a t g.s
  | 0x93 => g.ty.map fun t => .aaddN h .core g.a t g.s
  | 0x94 => g.ty.map fun t => .aaddN h .clu g.a t g.s
  | 0x95 => g.ty.map fun t => .aaddN h .die g.a t g.s
  | 0x96 => g.ty.map fun t => .aaddN h .pkg g.a t g.s
  | 0x97 => g.ty.map fun t => .aaddN h .sys g.a t g.s
  | 0x98 => g.ty.map fun t => .aminN h .core g.a t g.s
  | 0x99 => g.ty.map fun t => .aminN h .clu g.a t g.s
  | 0x9A => g.ty.map fun t => .aminN h .die g.a t g.s
  | 0x9B => g.ty.map fun t => .aminN h .pkg g.a t g.s
  | 0x9C => g.ty.map fun t => .aminN h .sys g.a t g.s
  | 0x9D => g.ty.map fun t => .amaxN h .core g.a t g.s
  | 0x9E => g.ty.map fun t => .amaxN h .clu g.a t g.s
  | 0x9F => g.ty.map fun t => .amaxN h .die g.a t g.s
  | 0xA0 => g.ty.map fun t => .amaxN h .pkg g.a t g.s
  | 0xA1 => g.ty.map fun t => .amaxN h .sys g.a t g.s
  | 0xA2 => g.ty.map fun t => .aorN h .core g.a t g.s
  | 0xA3 => g.ty.map fun t => .aorN h .clu g.a t g.s
  | 0xA4 => g.ty.map fun t => .aorN h .die g.a t g.s
  | 0xA5 => g.ty.map fun t => .aorN h .pkg g.a t g.s
  | 0xA6 => g.ty.map fun t => .aorN h .sys g.a t g.s
  | 0xA7 => g.ty.map fun t => .aandN h .core g.a t g.s
  | 0xA8 => g.ty.map fun t => .aandN h .clu g.a t g.s
  | 0xA9 => g.ty.map fun t => .aandN h .die g.a t g.s
  | 0xAA => g.ty.map fun t => .aandN h .pkg g.a t g.s
  | 0xAB => g.ty.map fun t => .aandN h .sys g.a t g.s
  | 0xB6 => m.ty.map fun t => .vabs h m.dm m.am t
  | 0xB7 => m.ty.map fun t => .vneg h m.dm m.am t
  | 0xC9 => m.ty.map fun t => .vredrAdd h m.dm m.am t
  | 0xCA => m.ty.map fun t => .vredrMax h m.dm m.am t
  | 0xCB => m.ty.map fun t => .vredrMin h m.dm m.am t
  | 0xCC => m.ty.map fun t => .vredrAmax h m.dm m.am t
  | 0xCD => m.ty.map fun t => .vredcAdd h m.dm m.am t
  | 0xCE => m.ty.map fun t => .vredcMax h m.dm m.am t
  | 0xCF => m.ty.map fun t => .vredcMin h m.dm m.am t
  | 0xD0 => m.ty.map fun t => .vredcAmax h m.dm m.am t
  | 0xD1 => m.ty.map fun t => .vexp h m.dm m.am t
  | 0xD2 => m.ty.map fun t => .vlog h m.dm m.am t
  | 0xD3 => m.ty.map fun t => .vrcp h m.dm m.am t
  | 0xD4 => m.ty.map fun t => .vrsq h m.dm m.am t
  | 0xD5 => m.ty.map fun t => .vsin h m.dm m.am t
  | 0xD6 => m.ty.map fun t => .vcos h m.dm m.am t
  | 0xD7 => m.ty.map fun t => .vtanh h m.dm m.am t
  | 0xDC => m.ty.map fun t => .vabsSat h m.dm m.am t
  | 0xDD => m.ty.map fun t => .vnegSat h m.dm m.am t
  | 0xE0 => some (.wcall h g.a g.s)
  | 0xE1 => g.ty.map fun t => .wstripe h g.a t g.s
  | 0xE2 => some (.wzero h g.s)
  | 0xE3 => g.ty.bind fun t => (Ty.ofCode g.a.toNat).map fun y => .wdrain h g.d y t g.s
  | 0xE4 => some (.lacq h g.s)
  | 0xE5 => some (.lacqT h g.d g.s)
  | 0xE6 => some (.lrel h)
  | 0xE7 => some (.lcfg h g.a g.s)
  | 0xE8 => some (.lmm h g.a g.s)
  | 0xE9 => some (.lmmA h g.a g.s)
  | 0xEA => some (.lmmg h g.a g.s)
  | 0xEB => some (.lmmgA h g.a g.s)
  | 0xEC => some (.lscore h g.a g.s)
  | 0xED => some (.lscoreCm h g.a g.s)
  | 0xEE => some (.lscoreTm h g.a g.s)
  | 0xEF => some (.lpv h g.a g.s)
  | 0xF0 => some (.lpvA h g.a g.s)
  | 0xF1 => g.ty.map fun t => .ldrain h g.d t g.s
  | _ => none

/-- The fields of a 96-bit form, by opcode (R61, R63). -/
def fields96 (p0 p1 p2 : BitVec 32) : Option Instr :=
  let h := hdrOf p0 true
  let g := gFields p1
  let m := mFields p1
  match opOf p0 with
  | 0x01 => some (.addLong h g.d g.a (.lit p2))
  | 0x02 => some (.subLong h g.d g.a (.lit p2))
  | 0x03 => some (.mulLong h g.d g.a (.lit p2))
  | 0x04 => some (.mulhSLong h g.d g.a (.lit p2))
  | 0x05 => some (.mulhZLong h g.d g.a (.lit p2))
  | 0x06 => some (.divSLong h g.d g.a (.lit p2))
  | 0x07 => some (.divZLong h g.d g.a (.lit p2))
  | 0x08 => some (.remSLong h g.d g.a (.lit p2))
  | 0x09 => some (.remZLong h g.d g.a (.lit p2))
  | 0x0A => some (.and64Long h g.d g.a (.lit p2))
  | 0x0B => some (.or64Long h g.d g.a (.lit p2))
  | 0x0C => some (.xor64Long h g.d g.a (.lit p2))
  | 0x0D => some (.shlLong h g.d g.a (.lit p2))
  | 0x0E => some (.shrSLong h g.d g.a (.lit p2))
  | 0x0F => some (.shrZLong h g.d g.a (.lit p2))
  | 0x10 => some (.rotLong h g.d g.a (.lit p2))
  | 0x11 => some (.minSLong h g.d g.a (.lit p2))
  | 0x12 => some (.minZLong h g.d g.a (.lit p2))
  | 0x13 => some (.maxSLong h g.d g.a (.lit p2))
  | 0x14 => some (.maxZLong h g.d g.a (.lit p2))
  | 0x17 => some (.extS h g.d g.a (.lit p2))
  | 0x18 => some (.extZ h g.d g.a (.lit p2))
  | 0x19 => some (.ins h g.d g.a (.lit p2))
  | 0x1A => some (.seqLong h g.d g.a (.lit p2))
  | 0x1B => some (.sltSLong h g.d g.a (.lit p2))
  | 0x1C => some (.sltZLong h g.d g.a (.lit p2))
  | 0x1D => some (.selLong h g.d g.a (.lit p2))
  | 0x1E => some (.liLong h g.d g.a (.lit p2))
  | 0x1F => some (.movLong h g.d g.a (p2.setWidth 4) true)
  | 0x20 => (deciderOf g.dec).map fun e => .bEq h.s g.d g.a e g.lv (.lit p2)
  | 0x21 => (deciderOf g.dec).map fun e => .bNe h.s g.d g.a e g.lv (.lit p2)
  | 0x22 => (deciderOf g.dec).map fun e => .bLtS h.s g.d g.a e g.lv (.lit p2)
  | 0x23 => (deciderOf g.dec).map fun e => .bLtZ h.s g.d g.a e g.lv (.lit p2)
  | 0x24 => (deciderOf g.dec).map fun e => .bGeS h.s g.d g.a e g.lv (.lit p2)
  | 0x25 => (deciderOf g.dec).map fun e => .bGeZ h.s g.d g.a e g.lv (.lit p2)
  | 0x26 => some (.jmp h.s (.lit p2))
  | 0x27 => some (.jl h.s g.d (.lit p2))
  | 0x2F => some (if h.eng == .w then .slackW h (.lit p2) else .slack h (.lit p2))
  | 0x40 => g.ty.map fun t => .ld h g.d g.a t (.lit p2)
  | 0x41 => g.ty.map fun t => .ldLn h g.d g.a t (.lit p2)
  | 0x42 => g.ty.map fun t => .st h g.d g.a t (.lit p2)
  | 0x43 => g.ty.map fun t => .stLn h g.d g.a t (.lit p2)
  | 0x44 => m.ty.map fun t => .mld h m.dm m.ar t (if m.l == 1#1 then .lit p2 else .reg (p2.setWidth 6))
  | 0x45 => m.ty.map fun t => .mldLn h m.dm m.ar t (if m.l == 1#1 then .lit p2 else .reg (p2.setWidth 6))
  | 0x46 => m.ty.map fun t => .mst h m.dm m.ar t (if m.l == 1#1 then .lit p2 else .reg (p2.setWidth 6))
  | 0x47 => m.ty.map fun t => .mstLn h m.dm m.ar t (if m.l == 1#1 then .lit p2 else .reg (p2.setWidth 6))
  | 0x48 => some (.probe h g.d g.a (.lit p2))
  | 0x49 => some (.probeLn h g.d g.a (.lit p2))
  | 0x4A => some (.copy h g.d g.a (.lit p2))
  | 0x4B => some (.copyLn h g.d g.a (.lit p2))
  | 0x4C => some (.pushe h g.a (.lit p2))
  | 0x4D => some (.pusheT h g.d g.a (.lit p2))
  | 0x4E => some (.pope h g.d (.lit p2))
  | 0x4F => some (.popeT h g.d g.a (.lit p2))
  | 0x51 => some (.promote h g.a (.lit p2))
  | 0x52 => some (.promoteH h g.a (.lit p2))
  | 0x53 => some (.demote h g.a (.lit p2))
  | 0x70 => g.ty.map fun t => .aadd h .core g.d g.a t (.lit p2)
  | 0x71 => g.ty.map fun t => .aadd h .clu g.d g.a t (.lit p2)
  | 0x72 => g.ty.map fun t => .aadd h .die g.d g.a t (.lit p2)
  | 0x73 => g.ty.map fun t => .aadd h .pkg g.d g.a t (.lit p2)
  | 0x74 => g.ty.map fun t => .aadd h .sys g.d g.a t (.lit p2)
  | 0x75 => g.ty.map fun t => .amin h .core g.d g.a t (.lit p2)
  | 0x76 => g.ty.map fun t => .amin h .clu g.d g.a t (.lit p2)
  | 0x77 => g.ty.map fun t => .amin h .die g.d g.a t (.lit p2)
  | 0x78 => g.ty.map fun t => .amin h .pkg g.d g.a t (.lit p2)
  | 0x79 => g.ty.map fun t => .amin h .sys g.d g.a t (.lit p2)
  | 0x7A => g.ty.map fun t => .amax h .core g.d g.a t (.lit p2)
  | 0x7B => g.ty.map fun t => .amax h .clu g.d g.a t (.lit p2)
  | 0x7C => g.ty.map fun t => .amax h .die g.d g.a t (.lit p2)
  | 0x7D => g.ty.map fun t => .amax h .pkg g.d g.a t (.lit p2)
  | 0x7E => g.ty.map fun t => .amax h .sys g.d g.a t (.lit p2)
  | 0x7F => g.ty.map fun t => .aor h .core g.d g.a t (.lit p2)
  | 0x80 => g.ty.map fun t => .aor h .clu g.d g.a t (.lit p2)
  | 0x81 => g.ty.map fun t => .aor h .die g.d g.a t (.lit p2)
  | 0x82 => g.ty.map fun t => .aor h .pkg g.d g.a t (.lit p2)
  | 0x83 => g.ty.map fun t => .aor h .sys g.d g.a t (.lit p2)
  | 0x84 => g.ty.map fun t => .aand h .core g.d g.a t (.lit p2)
  | 0x85 => g.ty.map fun t => .aand h .clu g.d g.a t (.lit p2)
  | 0x86 => g.ty.map fun t => .aand h .die g.d g.a t (.lit p2)
  | 0x87 => g.ty.map fun t => .aand h .pkg g.d g.a t (.lit p2)
  | 0x88 => g.ty.map fun t => .aand h .sys g.d g.a t (.lit p2)
  | 0x89 => g.ty.map fun t => .axchg h .core g.d g.a t (.lit p2)
  | 0x8A => g.ty.map fun t => .axchg h .clu g.d g.a t (.lit p2)
  | 0x8B => g.ty.map fun t => .axchg h .die g.d g.a t (.lit p2)
  | 0x8C => g.ty.map fun t => .axchg h .pkg g.d g.a t (.lit p2)
  | 0x8D => g.ty.map fun t => .axchg h .sys g.d g.a t (.lit p2)
  | 0x8E => g.ty.map fun t => .acas h .core g.d g.a t (.lit p2)
  | 0x8F => g.ty.map fun t => .acas h .clu g.d g.a t (.lit p2)
  | 0x90 => g.ty.map fun t => .acas h .die g.d g.a t (.lit p2)
  | 0x91 => g.ty.map fun t => .acas h .pkg g.d g.a t (.lit p2)
  | 0x92 => g.ty.map fun t => .acas h .sys g.d g.a t (.lit p2)
  | 0x93 => g.ty.map fun t => .aaddN h .core g.a t (.lit p2)
  | 0x94 => g.ty.map fun t => .aaddN h .clu g.a t (.lit p2)
  | 0x95 => g.ty.map fun t => .aaddN h .die g.a t (.lit p2)
  | 0x96 => g.ty.map fun t => .aaddN h .pkg g.a t (.lit p2)
  | 0x97 => g.ty.map fun t => .aaddN h .sys g.a t (.lit p2)
  | 0x98 => g.ty.map fun t => .aminN h .core g.a t (.lit p2)
  | 0x99 => g.ty.map fun t => .aminN h .clu g.a t (.lit p2)
  | 0x9A => g.ty.map fun t => .aminN h .die g.a t (.lit p2)
  | 0x9B => g.ty.map fun t => .aminN h .pkg g.a t (.lit p2)
  | 0x9C => g.ty.map fun t => .aminN h .sys g.a t (.lit p2)
  | 0x9D => g.ty.map fun t => .amaxN h .core g.a t (.lit p2)
  | 0x9E => g.ty.map fun t => .amaxN h .clu g.a t (.lit p2)
  | 0x9F => g.ty.map fun t => .amaxN h .die g.a t (.lit p2)
  | 0xA0 => g.ty.map fun t => .amaxN h .pkg g.a t (.lit p2)
  | 0xA1 => g.ty.map fun t => .amaxN h .sys g.a t (.lit p2)
  | 0xA2 => g.ty.map fun t => .aorN h .core g.a t (.lit p2)
  | 0xA3 => g.ty.map fun t => .aorN h .clu g.a t (.lit p2)
  | 0xA4 => g.ty.map fun t => .aorN h .die g.a t (.lit p2)
  | 0xA5 => g.ty.map fun t => .aorN h .pkg g.a t (.lit p2)
  | 0xA6 => g.ty.map fun t => .aorN h .sys g.a t (.lit p2)
  | 0xA7 => g.ty.map fun t => .aandN h .core g.a t (.lit p2)
  | 0xA8 => g.ty.map fun t => .aandN h .clu g.a t (.lit p2)
  | 0xA9 => g.ty.map fun t => .aandN h .die g.a t (.lit p2)
  | 0xAA => g.ty.map fun t => .aandN h .pkg g.a t (.lit p2)
  | 0xAB => g.ty.map fun t => .aandN h .sys g.a t (.lit p2)
  | 0xB0 => m.ty.map fun t => .vadd h m.dm m.am t (m.vsrc p2)
  | 0xB1 => m.ty.map fun t => .vsub h m.dm m.am t (m.vsrc p2)
  | 0xB2 => m.ty.map fun t => .vmul h m.dm m.am t (m.vsrc p2)
  | 0xB3 => m.ty.map fun t => .vfma h m.dm m.am t (m.vsrc p2)
  | 0xB4 => m.ty.map fun t => .vmin h m.dm m.am t (m.vsrc p2)
  | 0xB5 => m.ty.map fun t => .vmax h m.dm m.am t (m.vsrc p2)
  | 0xB8 => m.ty.map fun t => .vand h m.dm m.am t (m.vsrc p2)
  | 0xB9 => m.ty.map fun t => .vor h m.dm m.am t (m.vsrc p2)
  | 0xBA => m.ty.map fun t => .vxor h m.dm m.am t (m.vsrc p2)
  | 0xBB => m.ty.map fun t => .vshl h m.dm m.am t (m.vsrc p2)
  | 0xBC => m.ty.map fun t => .vshr h m.dm m.am t (m.vsrc p2)
  | 0xBD => m.ty.bind fun t => (t2Of p2).map fun t2 => .vcvt h m.dm m.am t t2 (p2.setWidth 6)
  | 0xBE => m.ty.bind fun t => (t2Of p2).map fun t2 => .vpack h m.dm m.am t t2
  | 0xBF => m.ty.bind fun t => (t2Of p2).map fun t2 => .vunpack h m.dm m.am t t2
  | 0xC0 => m.ty.map fun t => .vcmpEq h m.dm m.am t (m.vsrc p2)
  | 0xC1 => m.ty.map fun t => .vcmpNe h m.dm m.am t (m.vsrc p2)
  | 0xC2 => m.ty.map fun t => .vcmpLt h m.dm m.am t (m.vsrc p2)
  | 0xC3 => m.ty.map fun t => .vcmpLe h m.dm m.am t (m.vsrc p2)
  | 0xC4 => some (.vsel h m.dm m.am (m.vsrc p2))
  | 0xC5 => some (.vrotr h m.dm m.am (if m.l == 1#1 then .lit p2 else .reg (p2.setWidth 6)))
  | 0xC6 => some (.vrotc h m.dm m.am (if m.l == 1#1 then .lit p2 else .reg (p2.setWidth 6)))
  | 0xC7 => some (.vbcr h m.dm m.am (if m.l == 1#1 then .lit p2 else .reg (p2.setWidth 6)))
  | 0xC8 => some (.vbcc h m.dm m.am (if m.l == 1#1 then .lit p2 else .reg (p2.setWidth 6)))
  | 0xD8 => m.ty.map fun t => .vaddSat h m.dm m.am t (m.vsrc p2)
  | 0xD9 => m.ty.map fun t => .vsubSat h m.dm m.am t (m.vsrc p2)
  | 0xDA => m.ty.map fun t => .vmulSat h m.dm m.am t (m.vsrc p2)
  | 0xDB => m.ty.map fun t => .vfmaSat h m.dm m.am t (m.vsrc p2)
  | 0xDE => m.ty.map fun t => .vshlSat h m.dm m.am t (m.vsrc p2)
  | 0xE0 => some (.wcall h g.a (.lit p2))
  | 0xE1 => g.ty.map fun t => .wstripe h g.a t (.lit p2)
  | 0xE2 => some (.wzero h (.lit p2))
  | 0xE3 => g.ty.bind fun t => (Ty.ofCode g.a.toNat).map fun y => .wdrain h g.d y t (.lit p2)
  | 0xE4 => some (.lacq h (.lit p2))
  | 0xE5 => some (.lacqT h g.d (.lit p2))
  | 0xE7 => some (.lcfg h g.a (.lit p2))
  | 0xE8 => some (.lmm h g.a (.lit p2))
  | 0xE9 => some (.lmmA h g.a (.lit p2))
  | 0xEA => some (.lmmg h g.a (.lit p2))
  | 0xEB => some (.lmmgA h g.a (.lit p2))
  | 0xEC => some (.lscore h g.a (.lit p2))
  | 0xED => some (.lscoreCm h g.a (.lit p2))
  | 0xEE => some (.lscoreTm h g.a (.lit p2))
  | 0xEF => some (.lpv h g.a (.lit p2))
  | 0xF0 => some (.lpvA h g.a (.lit p2))
  | 0xF1 => g.ty.map fun t => .ldrain h g.d t (.lit p2)
  | _ => none

/-- Accept the instruction read from `ps` when the encoder writes exactly `ps` for it and no check refuses it. -/
def accept (i : Instr) (ps : List (BitVec 32)) : Except DecodeError Instr :=
  if encode i = some ps then
    match i.check with
    | none => .ok i
    | some e => .error (.illFormed e)
  else .error .reservedBit

/-- How many parcels a main-text instruction takes; none for length class 0b11 (R47). -/
def parcelCount (p0 : BitVec 32) : Option Nat :=
  match (p0.extractLsb' 0 2).toNat with
  | 0 => some 1
  | 1 => some 2
  | 2 => some 3
  | _ => none

/-- The main-text instruction that begins with parcel `p0`, followed in memory by `p1` and `p2`. -/
def decodeMain (p0 p1 p2 : BitVec 32) : Except DecodeError Instr :=
  if 4 < (p0.extractLsb' 2 3).toNat then .error .reservedTag
  else
    match parcelCount p0 with
    | none => .error .lengthClass
    | some 1 => match fields32 p0 with | some i => accept i [p0] | none => .error .noForm
    | some 2 => match fields64 p0 p1 with | some i => accept i [p0, p1] | none => .error .noForm
    | some _ => match fields96 p0 p1 p2 with | some i => accept i [p0, p1, p2] | none => .error .noForm

/-- The directive at a stream position, with the parcel after it for WMAP's literal (R65, R66, R263). -/
def decodeDirective (p0 p1 : BitVec 32) : Except DecodeError Instr :=
  if p0.extractLsb' 0 2 != 3#2 then .error .noDirective
  else
    match (p0.extractLsb' 2 4).toNat with
    | 0 => accept (.wprep (p0.extractLsb' 16 16) (p0.extractLsb' 10 6) (p0.extractLsb' 6 4)) [p0]
    | 1 => accept (.wprepa (p0.extractLsb' 16 16) (p0.extractLsb' 10 6) (p0.extractLsb' 6 4)) [p0]
    | 2 => accept (.wsum (p0.extractLsb' 21 1 == 1#1) (p0.extractLsb' 20 1 == 1#1) (p0.extractLsb' 15 5)
        (p0.extractLsb' 10 5) (p0.extractLsb' 6 4)) [p0]
    | 3 => accept (.wacc (p0.extractLsb' 14 5) (p0.extractLsb' 6 8)) [p0]
    | 4 => accept (.wnacc (p0.extractLsb' 14 5) (p0.extractLsb' 6 8)) [p0]
    | 5 => accept (.wmap (p0.extractLsb' 22 5) (p0.extractLsb' 14 8) (p0.extractLsb' 6 8) p1) [p0, p1]
    | 6 => accept (.wjmp (p0.extractLsb' 6 26)) [p0]
    | 7 => accept .wend [p0]
    | 8 => accept (.whook (p0.extractLsb' 6 8)) [p0]
    | _ => .error .noDirective

/-- The fields of a logit word, by operation code and modifier (R67, R311). -/
def fieldsLogit (p : BitVec 32) : Option Instr :=
  let imm := p.extractLsb' 16 16
  let b := p.extractLsb' 12 4
  let a := p.extractLsb' 8 4
  match (p.extractLsb' 0 5).toNat, (p.extractLsb' 5 3).toNat with
  | 0, 0 => some .lwEnd
  | 1, 0 => some .lwLdc
  | 2, 0 => some .lwLdb
  | 3, 0 => some (.lwBias a)
  | 4, 0 => some (.lwPenrep a)
  | 5, 0 => some (.lwPenfrq a)
  | 6, 0 => some (.lwPenprs a)
  | 7, 0 => some (.lwTemp a)
  | 8, 0 => some (.lwClamp b a)
  | 9, 0 => some (.lwScale b a)
  | 10, 0 => some .lwMaskg
  | 11, 0 => some .lwMaskb
  | 12, 0 => some (.lwTopk imm)
  | 13, 0 => some (.lwTopp a)
  | 14, 0 => some (.lwMinp a)
  | 15, 0 => some .lwSoftmax
  | 16, 0 => some .lwDraw
  | 17, 0 => some .lwArgmax
  | 18, 0 => some (.lwSetv imm a)
  | 18, 1 => some (.lwSetvLo imm a)
  | 19, 0 => some (.lwSkip imm)
  | 19, 1 => some (.lwSkipZ imm a)
  | 19, 2 => some (.lwSkipP imm a)
  | 19, 3 => some (.lwSkipNg imm)
  | _, _ => none

/-- The logit word `p` (R67, R68, R311, R313). -/
def decodeLogit (p : BitVec 32) : Except DecodeError Instr :=
  match fieldsLogit p with
  | some i => accept i [p]
  | none => .error .noLogitWord

/-- Parcel `k` of an instruction whose bits are `w` (R47). -/
def parcelOf (w k : Nat) : BitVec 32 := BitVec.ofNat 32 (w / 2 ^ (32 * k))

/-- Which of the three decoders reads a word given without its place: main text first, then the weight stream, then the
logit program. A word that is legal in more than one place reads as in the first of them, but for four words that are
the one spelling of their logit operation (log entry 13). -/
inductive WordKind where
  | main | directive | logit
deriving DecidableEq, Repr

def wordKind (w : Nat) : Option WordKind :=
  if w == 0x4 || w == 0x8 || w == 0xC || w == 0x53 then some .logit
  else
  match decodeMain (parcelOf w 0) (parcelOf w 1) (parcelOf w 2) with
  | .ok _ => some .main
  | .error _ =>
    match decodeDirective (parcelOf w 0) (parcelOf w 1) with
    | .ok _ => some .directive
    | .error _ =>
      match decodeLogit (parcelOf w 0) with
      | .ok _ => some .logit
      | .error _ => none

/-- The instruction read from an instruction whose bits are `w`; bits from `nbits` up are zero. -/
def decodeTableWord (nbits w : Nat) : Option Instr :=
  let w := w % 2 ^ nbits
  match wordKind w with
  | some .main => (decodeMain (parcelOf w 0) (parcelOf w 1) (parcelOf w 2)).toOption
  | some .directive => (decodeDirective (parcelOf w 0) (parcelOf w 1)).toOption
  | some .logit => (decodeLogit (parcelOf w 0)).toOption
  | none => none

end Sys2Proof
end

