-- ==== Sys2Proof/Machine/Operands.lean ====
section
/-!
DEFINITION. Operand forms: src2 (R56, R57), loop-nest addresses (R213), matrix views and segments (R58, R188), near
addresses through the scratchpad translation table (R174 to R178), packed elements (R75), the format table (R89, R90).
-/
namespace Sys2Proof.Machine

/-! ### src2 -/

/-- src2 with its immediate or literal sign-extended. -/
def src2S (s : State) (e : Eng) : Src2 → Word
  | .reg r => readG s e r.toNat
  | .imm i => i.signExtend 64
  | .lit l => l.signExtend 64

/-- src2 with its immediate or literal zero-extended. -/
def src2Z (s : State) (e : Eng) : Src2 → Word
  | .reg r => readG s e r.toNat
  | .imm i => i.setWidth 64
  | .lit l => l.setWidth 64

/-- The register src2 reads, if any. -/
def src2Locs : Src2 → List Loc
  | .reg r => [.g r.toNat]
  | .imm _ | .lit _ => []

/-- Parcels of a layout-G instruction: three with the literal (R57). -/
def src2Len : Src2 → Nat
  | .reg _ | .imm _ => 2
  | .lit _ => 3

def immLen : Imm → Nat
  | .imm _ => 2
  | .lit _ => 3

/-- A displacement in parcels (R372). -/
def immInt : Imm → Int
  | .imm i => i.toInt
  | .lit l => l.toInt

/-- `pc + 4 x disp`, within 64 bits. -/
def target (pc : Nat) (disp : Int) : Nat := (((pc : Int) + 4 * disp) % 2 ^ 64).toNat

/-! ### Loop-nest addresses (R212 to R214) -/

/-- The address loop-nest access `j` forms, or none where its descriptor has a reserved bit set. -/
def lnAddress (s : State) (j : Nat) : Option Word :=
  let d := readSys s .a (sysLNA + j)
  if bits d 57 48 != 0 then none
  else
    some ((List.range 8).foldl (fun acc t =>
      if d.getLsbD (6 * t + 5) then
        acc + (readLc s .a t).setWidth 64 * look 0 s.core.kregs (bits d (6 * t + 4) (6 * t))
      else acc) (readG s .a (bits d 63 58)))

/-- The registers a descriptor names: its base and the index registers of its enabled terms. -/
def lnLocs (s : State) (j : Nat) : List Loc :=
  let d := readSys s .a (sysLNA + j)
  .g (bits d 63 58) :: ((List.range 8).filter (fun t => d.getLsbD (6 * t + 5))).map (fun t => .k (bits d (6 * t + 4) (6 * t)))

/-! ### Matrix operands -/

/-- Number of a cell. -/
def cellNo (reg row col : Nat) : Nat := 1024 * (reg % 32) + 64 * row + col

/-- Cells of a view in the order of R188. -/
def viewCells (m : MOp) : List Nat :=
  let r := m.reg.toNat
  let i := m.idx.toNat
  match m.view with
  | .tile => (List.range 1024).map (fun k => 1024 * r + k)
  | .row => (List.range 64).map (fun j => cellNo r i j)
  | .col => (List.range 16).map (fun j => cellNo r j i)
  | .dia => (List.range 16).map (fun j => cellNo r j ((j + i) % 64))

/-- The view of segment `s` (R188). -/
def segmentCells (m : MOp) (k : Nat) : List Nat :=
  let r := m.reg.toNat
  let i := m.idx.toNat + k
  match m.view with
  | .tile => (List.range 1024).map (fun c => 1024 * ((r + k) % 32) + c)
  | .row => (List.range 64).map (fun j => cellNo (r + i / 16) (i % 16) j)
  | .col => (List.range 16).map (fun j => cellNo (r + i / 64) j (i % 64))
  | .dia => (List.range 16).map (fun j => cellNo (r + i / 64) j ((j + i % 64) % 64))

/-! ### Packed elements (R75) -/

/-- Element `k` of width `b` in packed bytes. -/
def elemAt (b : Nat) (bytes : Nat) (k : Nat) : Nat := (bytes / 2 ^ (b * k)) % 2 ^ b

/-- Elements packed into bytes. -/
def packElems (b : Nat) (l : List Nat) : List Byte :=
  leBytes (packedBytes b l.length) (((List.range l.length).foldl (fun acc k => acc + (l.getD k 0 % 2 ^ b) * 2 ^ (b * k)) 0))

def unpackElems (b n : Nat) (bs : List Byte) : List Nat :=
  let v := leNat bs
  (List.range n).map (elemAt b v)

/-! ### Near addresses (R174 to R178) -/

/-- Where a near byte lies. -/
inductive NearPlace where
  | outside
  | invalid
  | block (k : Nat)
  | spilled (pa : Nat)
deriving DecidableEq, Repr

/-- Place of near byte `a` through the table as reader `r` receives it (R176); old or new entry is drawn for each byte
(R178). -/
def nearPlace (s : State) (r a : Nat) : NearPlace :=
  if 2 ^ 21 ≤ a then .outside
  else
    let w := fileRead 0 s.core.sys s.tick (saltSys + 2 ^ 22 * (a + 1)) r (sysSPT + a / 32768)
    if !w.getLsbD 63 then .invalid
    else if w.getLsbD 62 then .spilled (bits w 51 15 * 32768 + a % 32768)
    else .block (bits w 5 0 * 32768 + a % 32768)

def nearFault (cause a : Nat) : FaultRec := { code := .nearAddress, cause := cause, tval := BitVec.ofNat 64 a }

/-- The fault of an access to near byte `a`, if any (R202). A byte of a spilled block whose frame is unbacked raises as any
access there does (R102, R177), with the near address: DESIGN CHOICE, log entry 57. -/
def nearCheck (s : State) (r a : Nat) : Option FaultRec :=
  match nearPlace s r a with
  | .outside => some (nearFault 1 a)
  | .invalid => some (nearFault 2 a)
  | .spilled pa => if backed pa then none else some (unbackedFault a)
  | .block _ => none

/-- Near byte `a` as reader `r` receives it (R160, R208, R258). One of an instruction already issued whose entry has become
invalid by the time it is reached reads as zero, and is not written: DESIGN CHOICE, log entry 57. -/
def nearByte (s : State) (r a : Nat) : Byte :=
  match nearPlace s r a with
  | .block k => fileRead 0 s.core.near s.tick saltNear r k
  | .spilled pa => memByte s pa
  | .outside | .invalid => 0

def nearPoison (s : State) (r a : Nat) : Bool :=
  match nearPlace s r a with
  | .block k => look false s.core.near.poison k
  | .spilled pa => memPoisoned s pa
  | .outside | .invalid => false

/-- Spilled bytes are accessed: their home slices serve them with the first-touch policy, and the clocks of the core's engines
stop until the access completes (R177). -/
def touchSpilled (s : State) (pas : List Nat) : State :=
  if pas.isEmpty then s
  else
    modCore ((dedupNat (pas.map (fun a => a / 128))).foldl (fun s l => askSlice s (unitOf s 0) (128 * l) 0 false) s) (fun c => { c with spillStall := true })

/-- Reader `r` reads near bytes `as`: what that does beside the bytes it gives. -/
def touchNear (s : State) (r : Nat) (as : List Nat) : State :=
  touchSpilled s (as.filterMap (fun a => match nearPlace s r a with | .spilled pa => some pa | .outside | .invalid | .block _ => none))

/-- A write of whole bytes into spilled blocks (R177), with their marks (R116). -/
def spillWrite (s : State) (ws : List (Nat × Byte × Bool)) : State :=
  if ws.isEmpty then s
  else
    let s := overwrite s (ws.map (fun w => (w.1, w.2.1)))
    let s := touchSpilled s (ws.map Prod.fst)
    poisonBytes s ((ws.filter (fun w => w.2.2)).map Prod.fst)

/-- Write near byte `a` as writer `src` at place `seq`; `readers` may still receive the old byte. -/
def nearWrite (s : State) (r src seq : Nat) (readers : List Nat) (a : Nat) (b : Byte) (mark : Bool) : State :=
  match nearPlace s r a with
  | .block k => modCore s (fun c => { c with near := fileWrite 0 c.near c.nextId src seq readers k b mark, nextId := c.nextId + 1 })
  | .spilled pa => if backed pa then spillWrite s [(pa, b, mark)] else s
  | .outside | .invalid => s

/-! ### The scratchpad in the access engine's walk order (R175) -/

/-- A near byte's place as one number, and none where there is no byte. -/
def placeNum : NearPlace → Option Nat
  | .block k => some k
  | .spilled pa => some (2 ^ 21 + pa)
  | .outside | .invalid => none

/-- Near byte `a` as it stands. -/
def nearCur (s : State) (a : Nat) : Byte :=
  match nearPlace s 1 a with
  | .block k => look 0 s.core.near.cur k
  | .spilled pa => memByte s pa
  | .outside | .invalid => 0

/-- The first store later than place `o` of the walk that has overtaken a copy at near byte `a`. -/
def overtaker (s : State) (o : Option Nat) (a : Nat) : Option NearOld :=
  match o, placeNum (nearPlace s 1 a) with
  | some n, some k => s.core.nearOld.find? (fun x => decide (n < x.order) && x.place == k)
  | _, _ => none

/-- Near byte `a` and its mark as a command at place `o` of the walk finds it: later stores have not acted. -/
def nearBefore (s : State) (o : Option Nat) (a : Nat) : Byte × Bool :=
  match overtaker s o a with
  | some x => (x.old, x.mark)
  | none => (nearCur s a, nearPoison s 1 a)

/-- Some copy command or fill at an earlier place of the walk than `n` is still to act. -/
def copiesBefore (c : Core) (n : Nat) : Bool :=
  let earlier := fun (q : CopyCmd) => match q.order with | some o => decide (o < n) | none => false
  c.copyQueue.any earlier || (match c.copyRun with | some r => earlier r.cmd | none => false) ||
  c.fillQueue.any (fun f => decide (f.order < n)) || (match c.fillRun with | some f => decide (f.order < n) | none => false)

/-- A write at place `n` of the access engine's walk overtakes copies of earlier places at near byte `a`: they are to find
what stood there before. -/
def keepNear (s : State) (n a : Nat) : State :=
  match placeNum (nearPlace s 1 a) with
  | some k =>
    if copiesBefore s.core n then
      modCore s (fun c => { c with nearOld := c.nearOld ++ [{ order := n, place := k, old := nearCur s a, mark := nearPoison s 1 a }] })
    else s
  | none => s

/-- An MST has written near byte `a` in this clk (R175). -/
def storedNow (s : State) (a : Nat) : Bool :=
  s.core.mstPlaces.1 == s.clk && (match placeNum (nearPlace s 1 a) with | some k => s.core.mstPlaces.2.contains k | none => false)

/-- Write near byte `a` for command `id` at place `o` of the walk: a later store's byte stays, and so does that of an MST of
this clk where no walk orders the two (R175). -/
def nearPut (s : State) (o : Option Nat) (src id : Nat) (readers : List Nat) (a : Nat) (b : Byte) (mark : Bool) : State :=
  match overtaker s o a with
  | some x => modCore s (fun c => { c with nearOld := c.nearOld.map (fun y => if y == x then { x with old := b, mark := mark } else y) })
  | none =>
    match o with
    | some n => nearWrite (keepNear s n a) 1 src id readers a b mark
    | none => if storedNow s a then s else nearWrite s 1 src id readers a b mark

/-- A matrix store at place `n` of the access engine's walk writes near bytes (R175). -/
def nearStore (s : State) (n : Nat) (ws : List (Nat × Byte × Bool)) : State :=
  let put := fun (s : State) (w : Nat × Byte × Bool) =>
    let s := keepNear s n w.1
    match nearPlace s 1 w.1 with
    | .block k => modCore s (fun c => { c with
        near := fileWrite 0 c.near c.nextId 1 n (otherReaders c .a n) k w.2.1 w.2.2, nextId := c.nextId + 1
        mstPlaces := (s.clk, k :: if c.mstPlaces.1 == s.clk then c.mstPlaces.2 else []) })
    | .spilled pa => modCore s (fun c => { c with mstPlaces := (s.clk, (2 ^ 21 + pa) :: if c.mstPlaces.1 == s.clk then c.mstPlaces.2 else []) })
    | .outside | .invalid => s
  let away := ws.filterMap (fun w => match nearPlace s 1 w.1 with
    | .spilled pa => if backed pa then some (pa, w.2) else none
    | .block _ | .outside | .invalid => none)
  spillWrite (ws.foldl put s) away

/-- Bytes on their way into the scratchpad from stores before place `n` of the walk, by place, the latest first (R190). -/
def nearComing (s : State) (n : Nat) : List (Nat × Byte × Bool) :=
  (s.core.landing.flatMap (fun l =>
    match l.act with
    | .write ws =>
      if l.eng == .a && decide (l.seq < n) then
        ws.filterMap (fun w =>
          match w.loc with
          | .near a => (placeNum (nearPlace s 1 a)).map (fun k => (k, w.val.setWidth 8, w.mark))
          | .g _ | .cell _ | .k _ => none)
      else []
    | .loadSegment _ _ _ | .storeSegment _ _ _ => [])).reverse

/-- Near byte `a` and its mark as a load of the access engine finds it, `coming` still on its way. -/
def nearLoad (s : State) (coming : List (Nat × Byte × Bool)) (a : Nat) : Byte × Bool :=
  match (placeNum (nearPlace s 1 a)).bind (findKey coming) with
  | some x => x
  | none => (nearByte s 1 a, nearPoison s 1 a)

/-- Matrix moves before place `n` of the access engine's walk have still to reach the scratchpad. -/
def movesBefore (ls : List Landing) (n : Nat) : Bool :=
  ls.any (fun l => l.eng == .a && decide (l.seq < n) && (l.isSegment || l.targets.any (fun x => match x with | .near _ => true | .g _ | .cell _ | .k _ => false)))

/-! ### The format table (R89, R90) -/

/-- Current entry as engine `e` reads it at issue. Bits of FTSEL beyond its fields are not looked at: R90 speaks of the entry's
alone. DESIGN CHOICE, log entry 70. -/
def currentFmt (s : State) (e : Eng) : Word :=
  let f := readSys s e sysFTSEL
  let base := bits f 7 4
  let n := if f.getLsbD 3 then ((readLc s e (bits f 2 0)).toNat + base) % 16 else base
  readSys s e (sysFMT + n)

/-- A geometry is consistent for a family's K step (R88). -/
def geometryOk (g : Word) (kstep : Nat) : Bool :=
  bits g 31 24 == 0 && bits g 23 16 == kstep && bits g 15 8 * bits g 7 0 == kstep

/-- Types R86 scales. -/
def canScale (t : Ty) : Bool :=
  match t with
  | .e4m3 | .e5m2 | .e3m2 | .e2m3 | .e2m1 => true
  | .f32 | .bf16 | .f16 | .mq4 | .s4 | .s8 | .s16 | .s32 | .s64 | .z4 | .z8 | .z16 | .z32 | .z64 => false

/-- Types of array operands (R294). -/
def arrayType (t : Ty) : Bool := canScale t || decide (t = .bf16) || decide (t = .f16)

/-- An operand of the current entry is admitted: its type code, its scaled bit, its geometry (R88, R90, R294). -/
def operandOk (s : State) (e : Eng) (code : Nat) (scaled : Bool) (bgm : Nat) : Bool :=
  match Ty.ofCode code with
  | none => false
  | some t => arrayType t && (!scaled || (canScale t && geometryOk (readSys s e (sysBGM + bgm)) 32))

/-- The current entry may be used by a lease command (R90, R294). -/
def fmtOk (s : State) (e : Eng) (w : Word) : Bool :=
  bits w 63 18 == 0 && operandOk s e (bits w 4 0) (w.getLsbD 10) (bits w 13 12) && operandOk s e (bits w 9 5) (w.getLsbD 11) (bits w 15 14)

def formatFault : FaultRec := { code := .formatConfig }

end Sys2Proof.Machine
end

