-- ==== Sys2Proof/Machine/Scalar.lean ====
section
/-!
DEFINITION. The scalar instructions of the control and access engines (R215 to R222), NOP (R64).
-/
namespace Sys2Proof.Machine

/-! ### Values (R216 to R219) -/

def mulhS (a b : Word) : Word := BitVec.ofInt 64 (a.toInt * b.toInt / 2 ^ 64)
def mulhZ (a b : Word) : Word := BitVec.ofNat 64 (a.toNat * b.toNat / 2 ^ 64)
/-- Division never faults: each case of R217. -/
def divZ (a b : Word) : Word := if b = 0 then BitVec.allOnes 64 else a / b
def remZ (a b : Word) : Word := if b = 0 then a else a % b
def divS (a b : Word) : Word :=
  if b = 0 then BitVec.allOnes 64 else if a = BitVec.intMin 64 && b = BitVec.allOnes 64 then BitVec.intMin 64 else BitVec.ofInt 64 (a.toInt.tdiv b.toInt)
def remS (a b : Word) : Word :=
  if b = 0 then a else if a = BitVec.intMin 64 && b = BitVec.allOnes 64 then 0 else BitVec.ofInt 64 (a.toInt.tmod b.toInt)
/-- Shifts and rotates read bits 5:0 of the amount. -/
def shiftOf (b : Word) : Nat := b.toNat % 64
def shlW (a b : Word) : Word := a <<< shiftOf b
def shrS (a b : Word) : Word := a.sshiftRight (shiftOf b)
def shrZ (a b : Word) : Word := a >>> shiftOf b
def rotW (a b : Word) : Word := a.rotateLeft (shiftOf b)
def minS (a b : Word) : Word := if a.toInt ≤ b.toInt then a else b
def minZ (a b : Word) : Word := if a.toNat ≤ b.toNat then a else b
def maxS (a b : Word) : Word := if a.toInt ≤ b.toInt then b else a
def maxZ (a b : Word) : Word := if a.toNat ≤ b.toNat then b else a
def boolW (b : Bool) : Word := if b then 1 else 0
def seqW (a b : Word) : Word := boolW (decide (a = b))
def sltS (a b : Word) : Word := boolW (decide (a.toInt < b.toInt))
def sltZ (a b : Word) : Word := boolW (decide (a.toNat < b.toNat))
/-- Significant bits of a number. -/
def sigBits (n : Nat) : Nat := if n = 0 then 0 else log2Nat n + 1
def clzW (a : Word) : Word := BitVec.ofNat 64 (64 - sigBits a.toNat)
def popcW (a : Word) : Word := BitVec.ofNat 64 ((List.range 64).filter (fun i => a.getLsbD i)).length
/-- The field word of R219: position, and length cut at bit 63. -/
def fieldPos (w : Word) : Nat := bits w 5 0
def fieldLen (w : Word) : Nat := Nat.min (bits w 11 6 + 1) (64 - fieldPos w)
def extZ (a w : Word) : Word := BitVec.ofNat 64 (a.toNat / 2 ^ fieldPos w % 2 ^ fieldLen w)
def extS (a w : Word) : Word := BitVec.ofInt 64 (signedOf (fieldLen w) (a.toNat / 2 ^ fieldPos w))
def insW (old a w : Word) : Word :=
  let m : Word := BitVec.ofNat 64 ((2 ^ fieldLen w - 1) * 2 ^ fieldPos w)
  (old &&& ~~~m) ||| ((a <<< fieldPos w) &&& m)

/-! ### Shared operations -/

/-- Write a general register at once, in place of any result of the engine still on its way there (R204). -/
def putG (s : State) (e : Eng) (r : Nat) (v : Word) : State :=
  writeG (modCore s (fun c => supersede c e (c.eng e).seq [.g r])) e r v false

/-- The late result of a general register; a result for g0 is discarded (R203). -/
def lateG (r : Nat) (v : Word) (mark : Bool) : LandAct := .write (if r = 0 then [] else [{ loc := .g r, val := v, mark := mark }])

/-- A scalar result written 1 clk after issue, before the engine can issue again (R222). -/
def scalarNow (h : Hdr) (len : Nat) (d : Reg) (srcs : List Loc) (val : State → Word) (s : State) : Host.Outcome State Fault Refusal :=
  issueOut h len srcs (fun p => .soon (putG p h.eng d.toNat (val p))) s

/-- A product, written 3 clk after issue (R222). -/
def scalarMul (h : Hdr) (len : Nat) (d : Reg) (srcs : List Loc) (val : State → Word) (s : State) : Host.Outcome State Fault Refusal :=
  issueOut h len srcs (fun p => .later (modCore p (fun c => addLanding c
    { due := some (c.ck + 3), eng := h.eng, seq := (c.eng h.eng).seq, scoreboard := false, act := lateG d.toNat (val p) false, push := h.push }))) s

/-- A quotient or remainder: the engine's divider must be free; the result takes 6 + b/2 clk for a dividend of b
significant bits, and is scoreboarded in every region (R222). -/
def scalarDiv (h : Hdr) (len : Nat) (d : Reg) (srcs : List Loc) (sig : State → Nat) (val : State → Word) (s : State) :
    Host.Outcome State Fault Refusal :=
  issueOut h len srcs (fun p =>
    if p.core.ck < (p.core.eng h.eng).dividerFree then .wait nothing
    else
      let due := p.core.ck + 6 + ceilDiv (sig p) 2
      .later (modCore p (fun c => addLanding (c.setEng h.eng { c.eng h.eng with dividerFree := due })
        { due := some due, eng := h.eng, seq := (c.eng h.eng).seq, scoreboard := true, act := lateG d.toNat (val p) false, push := h.push }))) s

/-- Register `a` as the executing engine reads it. -/
def ra (h : Hdr) (a : Reg) (p : State) : Word := readG p h.eng a.toNat
/-- The 4-bit immediate of a 32-bit form, sign-extended. -/
def imm4 (b : BitVec 4) : Word := b.signExtend 64
/-- Sources of a binary instruction. -/
def srcA (a : Reg) : List Loc := [.g a.toNat]
def srcAS (a : Reg) (x : Src2) : List Loc := .g a.toNat :: src2Locs x
def sigZ (w : Word) : Nat := sigBits w.toNat
def sigS (w : Word) : Nat := sigBits w.toInt.natAbs

/-! ### Meanings -/

/-- NOP (R64). -/
def execNop (h : Hdr) (s : State) : Host.Outcome State Fault Refusal := issueOut h 1 [] (fun p => .done p) s

/-- ADD (R216). -/
def execAdd (h : Hdr) (d a : Reg) (b : BitVec 4) (s : State) : Host.Outcome State Fault Refusal :=
  scalarNow h 1 d (srcA a) (fun p => ra h a p + imm4 b) s

def execAddLong (h : Hdr) (d a : Reg) (x : Src2) (s : State) : Host.Outcome State Fault Refusal :=
  scalarNow h (src2Len x) d (srcAS a x) (fun p => ra h a p + src2S p h.eng x) s

/-- SUB (R216). -/
def execSub (h : Hdr) (d a : Reg) (b : BitVec 4) (s : State) : Host.Outcome State Fault Refusal :=
  scalarNow h 1 d (srcA a) (fun p => ra h a p - imm4 b) s

def execSubLong (h : Hdr) (d a : Reg) (x : Src2) (s : State) : Host.Outcome State Fault Refusal :=
  scalarNow h (src2Len x) d (srcAS a x) (fun p => ra h a p - src2S p h.eng x) s

/-- AND (R216). -/
def execAnd64 (h : Hdr) (d a : Reg) (b : BitVec 4) (s : State) : Host.Outcome State Fault Refusal :=
  scalarNow h 1 d (srcA a) (fun p => ra h a p &&& imm4 b) s

def execAnd64Long (h : Hdr) (d a : Reg) (x : Src2) (s : State) : Host.Outcome State Fault Refusal :=
  scalarNow h (src2Len x) d (srcAS a x) (fun p => ra h a p &&& src2S p h.eng x) s

/-- OR (R216). -/
def execOr64 (h : Hdr) (d a : Reg) (b : BitVec 4) (s : State) : Host.Outcome State Fault Refusal :=
  scalarNow h 1 d (srcA a) (fun p => ra h a p ||| imm4 b) s

def execOr64Long (h : Hdr) (d a : Reg) (x : Src2) (s : State) : Host.Outcome State Fault Refusal :=
  scalarNow h (src2Len x) d (srcAS a x) (fun p => ra h a p ||| src2S p h.eng x) s

/-- XOR (R216). -/
def execXor64 (h : Hdr) (d a : Reg) (b : BitVec 4) (s : State) : Host.Outcome State Fault Refusal :=
  scalarNow h 1 d (srcA a) (fun p => ra h a p ^^^ imm4 b) s

def execXor64Long (h : Hdr) (d a : Reg) (x : Src2) (s : State) : Host.Outcome State Fault Refusal :=
  scalarNow h (src2Len x) d (srcAS a x) (fun p => ra h a p ^^^ src2S p h.eng x) s

/-- SHL (R216). -/
def execShl (h : Hdr) (d a : Reg) (b : BitVec 4) (s : State) : Host.Outcome State Fault Refusal :=
  scalarNow h 1 d (srcA a) (fun p => shlW (ra h a p) (imm4 b)) s

def execShlLong (h : Hdr) (d a : Reg) (x : Src2) (s : State) : Host.Outcome State Fault Refusal :=
  scalarNow h (src2Len x) d (srcAS a x) (fun p => shlW (ra h a p) (src2S p h.eng x)) s

/-- SHR_S (R216). -/
def execShrS (h : Hdr) (d a : Reg) (b : BitVec 4) (s : State) : Host.Outcome State Fault Refusal :=
  scalarNow h 1 d (srcA a) (fun p => shrS (ra h a p) (imm4 b)) s

def execShrSLong (h : Hdr) (d a : Reg) (x : Src2) (s : State) : Host.Outcome State Fault Refusal :=
  scalarNow h (src2Len x) d (srcAS a x) (fun p => shrS (ra h a p) (src2S p h.eng x)) s

/-- SHR_Z (R216). -/
def execShrZ (h : Hdr) (d a : Reg) (b : BitVec 4) (s : State) : Host.Outcome State Fault Refusal :=
  scalarNow h 1 d (srcA a) (fun p => shrZ (ra h a p) (imm4 b)) s

def execShrZLong (h : Hdr) (d a : Reg) (x : Src2) (s : State) : Host.Outcome State Fault Refusal :=
  scalarNow h (src2Len x) d (srcAS a x) (fun p => shrZ (ra h a p) (src2S p h.eng x)) s

/-- ROT (R216). -/
def execRot (h : Hdr) (d a : Reg) (b : BitVec 4) (s : State) : Host.Outcome State Fault Refusal :=
  scalarNow h 1 d (srcA a) (fun p => rotW (ra h a p) (imm4 b)) s

def execRotLong (h : Hdr) (d a : Reg) (x : Src2) (s : State) : Host.Outcome State Fault Refusal :=
  scalarNow h (src2Len x) d (srcAS a x) (fun p => rotW (ra h a p) (src2S p h.eng x)) s

/-- MIN_S (R216). -/
def execMinS (h : Hdr) (d a : Reg) (b : BitVec 4) (s : State) : Host.Outcome State Fault Refusal :=
  scalarNow h 1 d (srcA a) (fun p => minS (ra h a p) (imm4 b)) s

def execMinSLong (h : Hdr) (d a : Reg) (x : Src2) (s : State) : Host.Outcome State Fault Refusal :=
  scalarNow h (src2Len x) d (srcAS a x) (fun p => minS (ra h a p) (src2S p h.eng x)) s

/-- MIN_Z (R216). -/
def execMinZ (h : Hdr) (d a : Reg) (b : BitVec 4) (s : State) : Host.Outcome State Fault Refusal :=
  scalarNow h 1 d (srcA a) (fun p => minZ (ra h a p) (imm4 b)) s

def execMinZLong (h : Hdr) (d a : Reg) (x : Src2) (s : State) : Host.Outcome State Fault Refusal :=
  scalarNow h (src2Len x) d (srcAS a x) (fun p => minZ (ra h a p) (src2S p h.eng x)) s

/-- MAX_S (R216). -/
def execMaxS (h : Hdr) (d a : Reg) (b : BitVec 4) (s : State) : Host.Outcome State Fault Refusal :=
  scalarNow h 1 d (srcA a) (fun p => maxS (ra h a p) (imm4 b)) s

def execMaxSLong (h : Hdr) (d a : Reg) (x : Src2) (s : State) : Host.Outcome State Fault Refusal :=
  scalarNow h (src2Len x) d (srcAS a x) (fun p => maxS (ra h a p) (src2S p h.eng x)) s

/-- MAX_Z (R216). -/
def execMaxZ (h : Hdr) (d a : Reg) (b : BitVec 4) (s : State) : Host.Outcome State Fault Refusal :=
  scalarNow h 1 d (srcA a) (fun p => maxZ (ra h a p) (imm4 b)) s

def execMaxZLong (h : Hdr) (d a : Reg) (x : Src2) (s : State) : Host.Outcome State Fault Refusal :=
  scalarNow h (src2Len x) d (srcAS a x) (fun p => maxZ (ra h a p) (src2S p h.eng x)) s

/-- SEQ (R216). -/
def execSeq (h : Hdr) (d a : Reg) (b : BitVec 4) (s : State) : Host.Outcome State Fault Refusal :=
  scalarNow h 1 d (srcA a) (fun p => seqW (ra h a p) (imm4 b)) s

def execSeqLong (h : Hdr) (d a : Reg) (x : Src2) (s : State) : Host.Outcome State Fault Refusal :=
  scalarNow h (src2Len x) d (srcAS a x) (fun p => seqW (ra h a p) (src2S p h.eng x)) s

/-- SLT_S (R216). -/
def execSltS (h : Hdr) (d a : Reg) (b : BitVec 4) (s : State) : Host.Outcome State Fault Refusal :=
  scalarNow h 1 d (srcA a) (fun p => sltS (ra h a p) (imm4 b)) s

def execSltSLong (h : Hdr) (d a : Reg) (x : Src2) (s : State) : Host.Outcome State Fault Refusal :=
  scalarNow h (src2Len x) d (srcAS a x) (fun p => sltS (ra h a p) (src2S p h.eng x)) s

/-- SLT_Z (R216). -/
def execSltZ (h : Hdr) (d a : Reg) (b : BitVec 4) (s : State) : Host.Outcome State Fault Refusal :=
  scalarNow h 1 d (srcA a) (fun p => sltZ (ra h a p) (imm4 b)) s

def execSltZLong (h : Hdr) (d a : Reg) (x : Src2) (s : State) : Host.Outcome State Fault Refusal :=
  scalarNow h (src2Len x) d (srcAS a x) (fun p => sltZ (ra h a p) (src2S p h.eng x)) s

/-- MUL (R216). -/
def execMul (h : Hdr) (d a : Reg) (b : BitVec 4) (s : State) : Host.Outcome State Fault Refusal :=
  scalarMul h 1 d (srcA a) (fun p => ra h a p * imm4 b) s

def execMulLong (h : Hdr) (d a : Reg) (x : Src2) (s : State) : Host.Outcome State Fault Refusal :=
  scalarMul h (src2Len x) d (srcAS a x) (fun p => ra h a p * src2S p h.eng x) s

/-- MULH_S (R216). -/
def execMulhS (h : Hdr) (d a : Reg) (b : BitVec 4) (s : State) : Host.Outcome State Fault Refusal :=
  scalarMul h 1 d (srcA a) (fun p => mulhS (ra h a p) (imm4 b)) s

def execMulhSLong (h : Hdr) (d a : Reg) (x : Src2) (s : State) : Host.Outcome State Fault Refusal :=
  scalarMul h (src2Len x) d (srcAS a x) (fun p => mulhS (ra h a p) (src2S p h.eng x)) s

/-- MULH_Z (R216). -/
def execMulhZ (h : Hdr) (d a : Reg) (b : BitVec 4) (s : State) : Host.Outcome State Fault Refusal :=
  scalarMul h 1 d (srcA a) (fun p => mulhZ (ra h a p) (imm4 b)) s

def execMulhZLong (h : Hdr) (d a : Reg) (x : Src2) (s : State) : Host.Outcome State Fault Refusal :=
  scalarMul h (src2Len x) d (srcAS a x) (fun p => mulhZ (ra h a p) (src2S p h.eng x)) s

/-- DIV_S (R217). -/
def execDivS (h : Hdr) (d a : Reg) (b : BitVec 4) (s : State) : Host.Outcome State Fault Refusal :=
  scalarDiv h 1 d (srcA a) (fun p => sigS (ra h a p)) (fun p => divS (ra h a p) (imm4 b)) s

def execDivSLong (h : Hdr) (d a : Reg) (x : Src2) (s : State) : Host.Outcome State Fault Refusal :=
  scalarDiv h (src2Len x) d (srcAS a x) (fun p => sigS (ra h a p)) (fun p => divS (ra h a p) (src2S p h.eng x)) s

/-- DIV_Z (R217). -/
def execDivZ (h : Hdr) (d a : Reg) (b : BitVec 4) (s : State) : Host.Outcome State Fault Refusal :=
  scalarDiv h 1 d (srcA a) (fun p => sigZ (ra h a p)) (fun p => divZ (ra h a p) (imm4 b)) s

def execDivZLong (h : Hdr) (d a : Reg) (x : Src2) (s : State) : Host.Outcome State Fault Refusal :=
  scalarDiv h (src2Len x) d (srcAS a x) (fun p => sigZ (ra h a p)) (fun p => divZ (ra h a p) (src2S p h.eng x)) s

/-- REM_S (R217). -/
def execRemS (h : Hdr) (d a : Reg) (b : BitVec 4) (s : State) : Host.Outcome State Fault Refusal :=
  scalarDiv h 1 d (srcA a) (fun p => sigS (ra h a p)) (fun p => remS (ra h a p) (imm4 b)) s

def execRemSLong (h : Hdr) (d a : Reg) (x : Src2) (s : State) : Host.Outcome State Fault Refusal :=
  scalarDiv h (src2Len x) d (srcAS a x) (fun p => sigS (ra h a p)) (fun p => remS (ra h a p) (src2S p h.eng x)) s

/-- REM_Z (R217). -/
def execRemZ (h : Hdr) (d a : Reg) (b : BitVec 4) (s : State) : Host.Outcome State Fault Refusal :=
  scalarDiv h 1 d (srcA a) (fun p => sigZ (ra h a p)) (fun p => remZ (ra h a p) (imm4 b)) s

def execRemZLong (h : Hdr) (d a : Reg) (x : Src2) (s : State) : Host.Outcome State Fault Refusal :=
  scalarDiv h (src2Len x) d (srcAS a x) (fun p => sigZ (ra h a p)) (fun p => remZ (ra h a p) (src2S p h.eng x)) s

/-- SEL: the condition is the old value of gd (R216). -/
def selVal (h : Hdr) (d a : Reg) (y : Word) (p : State) : Word := if ra h d p = 0 then y else ra h a p

def execSel (h : Hdr) (d a : Reg) (b : BitVec 4) (s : State) : Host.Outcome State Fault Refusal :=
  scalarNow h 1 d (.g d.toNat :: srcA a) (fun p => selVal h d a (imm4 b) p) s

def execSelLong (h : Hdr) (d a : Reg) (x : Src2) (s : State) : Host.Outcome State Fault Refusal :=
  scalarNow h (src2Len x) d (.g d.toNat :: srcAS a x) (fun p => selVal h d a (src2S p h.eng x) p) s

/-- CLZ and POPC (R218). -/
def execClz (h : Hdr) (d a : Reg) (s : State) : Host.Outcome State Fault Refusal :=
  scalarNow h 1 d (srcA a) (fun p => clzW (ra h a p)) s

def execClzLong (h : Hdr) (d a : Reg) (s : State) : Host.Outcome State Fault Refusal :=
  scalarNow h 2 d (srcA a) (fun p => clzW (ra h a p)) s

def execPopc (h : Hdr) (d a : Reg) (s : State) : Host.Outcome State Fault Refusal :=
  scalarNow h 1 d (srcA a) (fun p => popcW (ra h a p)) s

def execPopcLong (h : Hdr) (d a : Reg) (s : State) : Host.Outcome State Fault Refusal :=
  scalarNow h 2 d (srcA a) (fun p => popcW (ra h a p)) s

/-- EXT.s, EXT.z and INS (R219). -/
def execExtS (h : Hdr) (d a : Reg) (x : Src2) (s : State) : Host.Outcome State Fault Refusal :=
  scalarNow h (src2Len x) d (srcAS a x) (fun p => extS (ra h a p) (src2Z p h.eng x)) s

def execExtZ (h : Hdr) (d a : Reg) (x : Src2) (s : State) : Host.Outcome State Fault Refusal :=
  scalarNow h (src2Len x) d (srcAS a x) (fun p => extZ (ra h a p) (src2Z p h.eng x)) s

def execIns (h : Hdr) (d a : Reg) (x : Src2) (s : State) : Host.Outcome State Fault Refusal :=
  scalarNow h (src2Len x) d (.g d.toNat :: srcAS a x) (fun p => insW (ra h d p) (ra h a p) (src2Z p h.eng x)) s

/-- LI (R220). -/
def execLi (h : Hdr) (d : Reg) (i : BitVec 10) (s : State) : Host.Outcome State Fault Refusal :=
  scalarNow h 1 d [] (fun _ => i.signExtend 64) s

def immS : Imm → Word
  | .imm i => i.signExtend 64
  | .lit l => l.signExtend 64

def execLiLong (h : Hdr) (d : Reg) (shift : BitVec 6) (i : Imm) (s : State) : Host.Outcome State Fault Refusal :=
  scalarNow h (immLen i) d [] (fun _ => immS i <<< shift.toNat) s

/-- The five moves of R221. -/
def moveBody (h : Hdr) (d a : Reg) (m : BitVec 4) (p : State) : Act :=
  match m.toNat with
  | 0 => .soon (putG p h.eng d.toNat (ra h a p))
  | 1 => .soon (putG p h.eng d.toNat ((readLc p h.eng (a.toNat % 8)).setWidth 64))
  | 2 => .soon (modEng p h.eng (fun x => { x with lc := place 0 x.lc (d.toNat % 8) ((ra h a p).setWidth 32) }))
  | 3 =>
    if anyPoison p.core [.k (a.toNat % 32)] then .poison 0 else .soon (putG p h.eng d.toNat (look 0 p.core.kregs (a.toNat % 32)))
  | _ => .soon (modCore p (fun c => { c with
      kregs := place 0 c.kregs (d.toNat % 32) (ra h a p), kMarks := c.kMarks.filter (fun n => n != d.toNat % 32) }))

/-- The register a move reads: none for codes 1 and 3. -/
def moveSrcs (a : Reg) (m : BitVec 4) : List Loc := if m.toNat == 1 || m.toNat == 3 then [] else srcA a

def execMov (h : Hdr) (d a : Reg) (m : BitVec 4) (s : State) : Host.Outcome State Fault Refusal :=
  issueOut h 1 (moveSrcs a m) (moveBody h d a m) s

def execMovLong (h : Hdr) (d a : Reg) (m : BitVec 4) (wide : Bool) (s : State) : Host.Outcome State Fault Refusal :=
  issueOut h (if wide then 3 else 2) (moveSrcs a m) (moveBody h d a m) s

end Sys2Proof.Machine
end

