-- ==== Sys2Proof/Machine/Control.lean ====
section
/-!
DEFINITION. The shared control instructions and the token instructions (R361 to R388): branches, jumps, LOOP, SYNCPC,
leaving a loop, TPOP, TPSH, QCANCEL, SLACK.
-/
namespace Sys2Proof.Machine

/-! ### Shared issue -/

/-- ILLEGAL_INSTRUCTION of an instruction, with its first parcel for TVAL (R413). -/
def illegalFault (i : Instr) : FaultRec :=
  { code := .illegalInstruction, tval := match encode i with | some (p :: _) => p.setWidth 64 | some [] | none => 0 }

/-- The executing engine goes from an S instruction to `next`, after `gap` more clk and, for a taken branch, two (R367). -/
def passS (s : State) (h : SHdr) (next : Nat) (taken : Bool) : State :=
  switchAway (modEng s s.eng (fun x => { passed x tagS next with
    seq := x.seq + 1, nextIssue := s.core.ck + 1 + h.gap.toNat + (if taken then 2 else 0), noPop := false })) s.eng h.sw

/-- An S instruction passed by an engine it does not concern (R377): no clk. -/
def skipS (s : State) (next : Nat) : State := modEng s s.eng (fun x => passed x tagS next)

/-- How an S instruction is issued by the executing engine: ready, no fault owed, admitted where it stands (R378). -/
def issueS (i : Instr) (inMiss inLeave : Bool) (body : State → Engine → State) (s : State) : Host.Outcome State Fault Refusal :=
  let e := s.eng
  let x := s.core.eng e
  if !engineReady s.core e then .next s
  else
    match x.owed with
    | f :: fs => .next (takeTrap (modEng s e (fun x => { x with owed := fs })) e f x.pc)
    | [] =>
      let admitted := match x.stretch with
        | none => true
        | some (.miss _) => inMiss
        | some .leave => inLeave
      if !admitted then .next (takeTrap s e (illegalFault i) x.pc) else .next (body s x)

/-- An instruction that is illegal as it stands raises before its guard, its tokens and its operands are looked at (R70). -/
def issueIllegal (e : Eng) (i : Instr) (s : State) : Host.Outcome State Fault Refusal :=
  let x := s.core.eng e
  if !engineReady s.core e then .next s
  else
    match x.owed with
    | f :: fs => .next (takeTrap (modEng s e (fun x => { x with owed := fs })) e { f with popped := x.noPop } x.pc)
    | [] => .next (takeTrap s e { illegalFault i with popped := x.noPop } x.pc)

/-! ### Outcome queues (R371) -/

/-- Queue from decider `d` to follower `f`. -/
def outcomeKey (d f : Eng) : Nat := 4 * d.num + f.num

def outcomesOf (c : Core) (d f : Eng) : List Outcome := look [] c.outcomes (outcomeKey d f)

/-- The three followers of a decider. -/
def followers (d : Eng) : List Eng := allEngs.filter (fun e => e != d)

def outcomeRoom (c : Core) (d : Eng) : Bool := (followers d).all (fun f => decide ((outcomesOf c d f).length < 16))

def pushOutcome (c : Core) (d : Eng) (o : Outcome) : Core :=
  { c with outcomes := (followers d).foldl (fun m f => place [] m (outcomeKey d f) (look [] m (outcomeKey d f) ++ [o])) c.outcomes }

/-- Decide or follow: the decider waits for its registers and for room, evaluates, tells the others; another engine waits
for the outcome. `next` continues with the outcome (R371). -/
def decided (s : State) (x : Engine) (dec : Eng) (srcs : List Loc) (eval : State → Except FaultRec (Bool × Nat))
    (next : State → Bool → Nat → State) : State :=
  if s.eng == dec then
    if !outcomeRoom s.core dec || mustWait s.core dec srcs then s
    else if anyPoison s.core srcs then consumePoison s dec x.pc 0
    else
      match eval s with
      | .error f => takeTrap s dec f x.pc
      | .ok (t, a) => next (modCore s (fun c => pushOutcome c dec { taken := t, target := a, group := x.walk })) t a
  else
    match outcomesOf s.core dec s.eng with
    | [] => s
    | o :: os => next (modCore s (fun c => { c with outcomes := place [] c.outcomes (outcomeKey dec s.eng) os })) o.taken o.target

/-! ### Branches (R372 to R377) -/

/-- Another engine's private branch: the engine passes it as an instruction it skips, or, where the leave of that branch's
group is in progress, continues at the SYNCPC.d (R377, R380). -/
def passPrivate (s : State) (fall : Nat) : State :=
  let x := s.core.eng s.eng
  match s.core.leaving with
  | some (g, pc) =>
    if x.walk == g then modEng s s.eng (fun x => { x with pc := pc, joined := true, seen := [], begun := true, decoded := [] })
    else skipS s fall
  | none => skipS s fall

/-- A branch with test `test`, shared or with the leave mark. -/
def branch (i : Instr) (h : SHdr) (b a : Reg) (dec : Eng) (lv : Bool) (t : Imm) (test : Word → Word → Bool) (s : State) :
    Host.Outcome State Fault Refusal :=
  let pc := (s.core.eng s.eng).pc
  let fall := pc + 4 * immLen t
  let dest := target pc (immInt t)
  let holds := fun (p : State) => test (readG p dec a.toNat) (readG p dec b.toNat)
  let srcs : List Loc := [.g a.toNat, .g b.toNat]
  if lv && s.eng != dec && (s.core.eng s.eng).stretch.isNone then
    .next (if s.core.running && clkOpen s.core && !(s.core.eng s.eng).halted then passPrivate s fall else s)
  else
    issueS i false false (fun s x =>
      if lv then
        if mustWait s.core dec srcs then s
        else if anyPoison s.core srcs then consumePoison s dec x.pc 0
        else if holds s then
          switchAway (modEng s dec (fun x => { x with
            pc := dest, stretch := some .leave, seq := x.seq + 1, nextIssue := s.core.ck + 3 + h.gap.toNat, noPop := false })) dec h.sw
        else passS s h fall false
      else
        decided s x dec srcs (fun p => .ok (holds p, dest)) (fun s t _ => passS s h (if t then dest else fall) t)) s

def execBEq (h : SHdr) (b a : Reg) (dec : Eng) (lv : Bool) (t : Imm) (s : State) : Host.Outcome State Fault Refusal :=
  branch (.bEq h b a dec lv t) h b a dec lv t (fun x y => x == y) s

def execBNe (h : SHdr) (b a : Reg) (dec : Eng) (lv : Bool) (t : Imm) (s : State) : Host.Outcome State Fault Refusal :=
  branch (.bNe h b a dec lv t) h b a dec lv t (fun x y => x != y) s

def execBLtS (h : SHdr) (b a : Reg) (dec : Eng) (lv : Bool) (t : Imm) (s : State) : Host.Outcome State Fault Refusal :=
  branch (.bLtS h b a dec lv t) h b a dec lv t (fun x y => decide (x.toInt < y.toInt)) s

def execBLtZ (h : SHdr) (b a : Reg) (dec : Eng) (lv : Bool) (t : Imm) (s : State) : Host.Outcome State Fault Refusal :=
  branch (.bLtZ h b a dec lv t) h b a dec lv t (fun x y => decide (x.toNat < y.toNat)) s

def execBGeS (h : SHdr) (b a : Reg) (dec : Eng) (lv : Bool) (t : Imm) (s : State) : Host.Outcome State Fault Refusal :=
  branch (.bGeS h b a dec lv t) h b a dec lv t (fun x y => decide (y.toInt ≤ x.toInt)) s

def execBGeZ (h : SHdr) (b a : Reg) (dec : Eng) (lv : Bool) (t : Imm) (s : State) : Host.Outcome State Fault Refusal :=
  branch (.bGeZ h b a dec lv t) h b a dec lv t (fun x y => decide (y.toNat ≤ x.toNat)) s

/-- The access engine's walk resumes after a miss stretch, to be set against the mode of the walk (R378): a group that the PROBE ended by standing last on its code page has
ended (R362, R376). -/
def resumed (x : Engine) (back : Nat) : Engine :=
  if back % 16384 == 0 then { x with pc := back, stretch := none, returned := true, walk := x.walk + 1, seen := [], begun := false }
  else { x with pc := back, stretch := none, returned := true }

/-- J: in a miss stretch it ends the stretch, and only at the instruction after the PROBE (R376, R378). -/
def execJmp (h : SHdr) (t : Imm) (s : State) : Host.Outcome State Fault Refusal :=
  issueS (.jmp h t) true true (fun s x =>
    let dest := target x.pc (immInt t)
    match x.stretch with
    | some (.miss back) =>
      if dest == back then switchAway (modEng s s.eng (fun x => { resumed x back with
        seq := x.seq + 1, nextIssue := s.core.ck + 3 + h.gap.toNat, noPop := false })) s.eng h.sw
      else takeTrap s s.eng (illegalFault (.jmp h t)) x.pc
    | some .leave | none => passS s h dest true) s

/-- JL: the control engine alone writes the link (R373). -/
def execJl (h : SHdr) (d : Reg) (t : Imm) (s : State) : Host.Outcome State Fault Refusal :=
  issueS (.jl h d t) false false (fun s x =>
    let s1 := if s.eng == .c then putG s .c d.toNat (BitVec.ofNat 64 (x.pc + 4 * immLen t)) else s
    passS s1 h (target x.pc (immInt t)) true) s

/-- JR: the decider checks the target it reads (R374). -/
def execJr (h : SHdr) (a : Reg) (dec : Eng) (s : State) : Host.Outcome State Fault Refusal :=
  issueS (.jr h a dec) false false (fun s x =>
    decided s x dec [.g a.toNat] (fun p =>
      let v := (readG p dec a.toNat).toNat
      if v % 4 ≠ 0 then .error { code := .alignment, tval := BitVec.ofNat 64 v }
      else if !canonical v then .error (trFault 0 v)
      else .ok (true, v)) (fun s _ v => passS s h v true)) s

/-- An engine's own copy of the counter after a LOOP that goes back or not (R375, R211). -/
def loopStep (s : State) (h : SHdr) (x : Engine) (n : Nat) (dist : Nat) (back : Bool) : State :=
  let v := look 0 x.lc n
  let s1 := modEng s s.eng (fun x => { x with lc := place 0 x.lc n (if back then v + 1 else 0) })
  passS s1 h (if back then target x.pc (-(dist : Int)) else x.pc + 8) false

def execLoop (h : SHdr) (dist : BitVec 12) (n : BitVec 3) (cnt : LoopCount) (s : State) : Host.Outcome State Fault Refusal :=
  issueS (.loop h dist n cnt) false false (fun s x =>
    let next := fun (x : Engine) => (look 0 x.lc n.toNat + 1).toNat
    match cnt with
    | .imm c => loopStep s h x n.toNat dist.toNat (decide (next x < Nat.max c.toNat 1))
    | .reg r =>
      decided s x .c [.g r.toNat] (fun p => .ok (decide (next x < Nat.max (readG p .c r.toNat).toNat 1), 0))
        (fun s t _ => loopStep s h x n.toNat dist.toNat t)) s

/-! ### Meeting points and leaving a loop (R379 to R381) -/

def zeroCounters (mask : BitVec 8) (lc : Sparse (BitVec 32)) : Sparse (BitVec 32) :=
  (List.range 8).foldl (fun m n => if mask.getLsbD n then place 0 m n 0 else m) lc

/-- All four engines stand at the meeting point. -/
def allMet (c : Core) : Bool := allEngs.all (fun e => (c.eng e).atSync)

/-- Every engine goes on from the meeting point, the holder of the decode slot among them. -/
def meetDone (s : State) (len : Nat) (h : SHdr) (f : Engine → Engine) : State :=
  modCore s (fun c => { modEngs c (fun x => f { passed { x with stretch := none } tagS (x.pc + 4 * len) with
    atSync := false, joined := false, seq := x.seq + 1, nextIssue := c.ck + 1 + h.gap.toNat, noPop := false }) with
    switched := c.switched || h.sw })

def meet (s : State) (h : SHdr) (len : Nat) (mask : BitVec 8) : State :=
  let s1 := modEng s s.eng (fun x => { x with atSync := true })
  if allMet s1.core then meetDone s1 len h (fun x => { x with lc := zeroCounters mask x.lc }) else s1

def execSyncpc (h : SHdr) (s : State) : Host.Outcome State Fault Refusal :=
  issueS (.syncpc h) false false (fun s _ => meet s h 1 0) s

def execSyncpcLong (h : SHdr) (s : State) : Host.Outcome State Fault Refusal :=
  issueS (.syncpcLong h) false false (fun s _ => meet s h 2 0) s

/-- A lease command has started when groups of it have run or its cluster's array holds it in the present run. -/
def leaseStarted (s : State) (n : Nat) (q : LeaseCmd) : Bool :=
  let a : Array := look {} (dieAt s (dieOfCore s.cur)).arrays (s.cur % 64 / 8)
  n == 0 && (decide (0 < q.groups) || (a.holder == some (s.cur % 8) && a.active))

/-- Discard what is tagged later than `b` and not started: commands with their reserved places, and outcomes (R380). -/
def discardLater (s : State) (b : Nat) : State :=
  let c := s.core
  let late := fun (t : Nat) => decide (b < t)
  let copies := c.copyQueue.filter (fun q => late q.tag && !q.fifo)
  let ws := c.wQueue.filter (fun q => late q.tag)
  let fills := c.fillQueue.filter (fun f => late f.tag)
  let started := match c.leaseQueue with | q :: _ => leaseStarted s 0 q | [] => false
  let keep := if started then c.leaseQueue.take 1 else []
  let rest := if started then c.leaseQueue.drop 1 else c.leaseQueue
  let leases := rest.filter (fun q => late q.tag)
  let c := copies.foldl (fun c q => release c .a q.push) c
  let c := ws.foldl (fun c q => release c .w q.push) c
  let c := leases.foldl (fun c q => release c .c q.push) c
  modCore { s with core := c } (fun c => { c with
    copyQueue := c.copyQueue.filter (fun q => !(late q.tag && !q.fifo))
    wQueue := c.wQueue.filter (fun q => !late q.tag)
    fillQueue := c.fillQueue.filter (fun f => !late f.tag)
    probeTags := c.probeTags.filter (fun t => !(fills.any (fun f => f.entry == t.entry)))
    leaseQueue := keep ++ rest.filter (fun q => !late q.tag)
    outcomes := (c.outcomes.map (fun p => (p.1, p.2.filter (fun o => !late o.group)))).filter (fun p => !p.2.isEmpty) })

/-- A started command tagged later than `b` is still under way. -/
def lateRunning (s : State) (b : Nat) : Bool :=
  let c := s.core
  (match c.copyRun with | some r => decide (b < r.cmd.tag) && !r.cmd.fifo | none => false) ||
  (match c.fillRun with | some f => decide (b < f.tag) | none => false) ||
  (match c.call with | some k => decide (b < k.cmd.tag) | none => false) ||
  (match c.leaseQueue with | q :: _ => decide (b < q.tag) && leaseStarted s 0 q | [] => false)

/-- SYNCPC.d: a meeting point of the shared walk, or the end of a private stretch (R379, R380). -/
def syncD (i : Instr) (h : SHdr) (len : Nat) (mask : BitVec 8) (s : State) : Host.Outcome State Fault Refusal :=
  issueS i false true (fun s x =>
    if privileged s.core then takeTrap s s.eng (illegalFault i) x.pc
    else
      let met := fun (s : State) (b : Nat) =>
        let s1 := modEng s s.eng (fun x => { x with atSync := true })
        if allMet s1.core && !lateRunning s1 b then
          let top := (allEngs.map (fun e => (s1.core.eng e).walk)).foldl Nat.max 0
          let s2 := meetDone s1 len h (fun x => { x with lc := zeroCounters mask x.lc, walk := top + 1, seen := [], begun := false })
          modCore s2 (fun c => { c with leaving := none })
        else s1
      match x.stretch, s.core.leaving with
      | some _, none =>
        -- the decider begins the leave
        let s1 := modCore (discardLater s x.walk) (fun c => { modEngs c (fun y => { y with atSync := false }) with
          leaving := some (x.walk, x.pc) })
        met (modEng s1 s.eng (fun x => { x with joined := true })) x.walk
      | some _, some (b, pc) =>
        if x.walk < b then
          -- the leave of the lower group prevails (R381)
          let s1 := modCore (discardLater s x.walk) (fun c => { modEngs c (fun y => { y with joined := false, atSync := false }) with
            leaving := some (x.walk, x.pc) })
          met (modEng s1 s.eng (fun x => { x with joined := true })) x.walk
        else if x.joined then met s b
        else modEng s s.eng (fun x => { x with pc := pc, stretch := none, joined := true, seen := [], begun := true, decoded := [] })
      | none, some (b, _) => if x.joined then met s b else meet s h len mask
      | none, none => meet s h len mask) s

def execSyncpcD (h : SHdr) (mask : BitVec 8) (s : State) : Host.Outcome State Fault Refusal :=
  syncD (.syncpcD h mask) h 1 mask s

def execSyncpcDLong (h : SHdr) (mask : BitVec 8) (s : State) : Host.Outcome State Fault Refusal :=
  syncD (.syncpcDLong h mask) h 2 mask s

/-! ### Tokens (R369, R370) -/

/-- Producer and consumer of a queue code (R60). -/
def producerOf (q : BitVec 4) : Eng := match q.toNat / 3 with | 0 => .c | 1 => .a | 2 => .v | _ => .w
def consumerOf (q : BitVec 4) : Eng := (followers (producerOf q)).getD (q.toNat % 3) .c

/-- The token-field bit of an engine (R53). -/
def maskBit (e : Eng) : BitVec 4 := 1#4 <<< (3 - e.num)

def execTpop (h : Hdr) (q : BitVec 4) (s : State) : Host.Outcome State Fault Refusal :=
  issueOut { h with pop := maskBit (producerOf q) } 1 [] (fun p => .done p) s

def execTpsh (h : Hdr) (q : BitVec 4) (s : State) : Host.Outcome State Fault Refusal :=
  issueOut { h with push := maskBit (consumerOf q) } 1 [] (fun p => .done p) s

/-- QCANCEL takes the tokens pushed before this clk (R368). It raises the fault of the oldest marked one, whose command's other
tokens then pop as ordinary ones (R159); the other removed tokens leave no trace. -/
def execQcancel (h : Hdr) (q : BitVec 4) (s : State) : Host.Outcome State Fault Refusal :=
  issueOut h 1 [] (fun p =>
    let x := queueAt p.core q.toNat
    let there := fun (t : Token) => decide (t.clk < p.clk)
    let p1 := modCore p (fun c => setQueue c q.toNat { x with toks := x.toks.filter (fun t => !there t) })
    match (x.toks.filter there).find? (fun t => t.mark.isSome) with
    | some t => .trapAt (modCore p1 (fun c => unmark c t)) (t.mark.getD { code := .illegalInstruction })
    | none => .done p1) s

/-! ### SLACK (R388) -/

/-- The access engine's SLACK writes the probe slack of SLIPW. -/
def execSlack (h : Hdr) (x : Src2) (s : State) : Host.Outcome State Fault Refusal :=
  issueOut h (src2Len x) (src2Locs x) (fun p =>
    let n := (src2Z p h.eng x).toNat % 65536
    .done (modCore p (fun c => { setSysNow c sysSLIPW (BitVec.ofNat 64 (bits (sysNow c sysSLIPW) 15 0 + n * 65536)) with probeLag := 0 }))) s

/-- Shadows engine W no longer receives, which the stream side stops receiving when it takes the command (R258). -/
def seenByW (c : Core) : List Nat :=
  let f := fun {α : Type} (os : List (Shadow α)) => (os.filter (fun o => !o.blind.contains 3)).map Shadow.id
  f c.near.old ++ f c.g.old ++ f c.sys.old

/-- Queue a weight-code command; a full queue waits (R251). -/
def queueW (h : Hdr) (p : State) (op : WOp) : Act :=
  if 16 ≤ p.core.wQueue.length then .wait nothing
  else .later (modCore p (fun c => { c with
    wQueue := c.wQueue ++ [{ op := op, id := c.nextId, tag := c.engW.walk, push := h.push, seq := c.engW.seq, sees := seenByW c }]
    nextId := c.nextId + 1 }))

def execSlackW (h : Hdr) (x : Src2) (s : State) : Host.Outcome State Fault Refusal :=
  issueOut h (src2Len x) (src2Locs x) (fun p => queueW h p (.slack ((src2Z p h.eng x).toNat % 65536))) s

end Sys2Proof.Machine
end

