-- ==== Sys2Proof/Machine/System.lean ====
section
/-!
DEFINITION. The system instructions (R419 to R426): TRAP, SYSCALL, ERET, SYSR, SYSW, LDOVT, HALT; the cut of the text into
groups (R362).
-/
namespace Sys2Proof.Machine

/-! ### System registers -/

/-- The numbers the tables of R209, R273, R289, R393 and R410 assign. -/
def sysAssigned (n : Nat) : Bool :=
  decide (n ≤ 0x5) || (decide (0x10 ≤ n) && decide (n ≤ 0x23)) || (decide (0x40 ≤ n) && decide (n ≤ 0x5F)) ||
  (decide (0x80 ≤ n) && decide (n ≤ 0xDF)) || (decide (0x100 ≤ n) && decide (n ≤ 0x102)) ||
  (decide (0x200 ≤ n) && decide (n ≤ 0x201)) || (decide (0x210 ≤ n) && decide (n ≤ 0x233)) ||
  (decide (0x300 ≤ n) && decide (n ≤ 0x30D)) || (decide (0x400 ≤ n) && decide (n ≤ 0x403))

/-- A register of the trap range that user level may not read (R410). -/
def sysHidden (n : Nat) : Bool := decide (0x300 ≤ n) && decide (n ≤ 0x30D) && n != sysPRIV && n != sysCPFE

/-- SYSW is refused at every level (R209, R289, R393, R410). -/
def sysFixed (n : Nat) : Bool :=
  n == sysOVT || n == sysLSES || (decide (0x210 ≤ n) && decide (n ≤ 0x233)) || n == sysPRIV || decide (0x400 ≤ n)

/-- SYSW needs privileged level (R209, R410). -/
def sysGuarded (n : Nat) : Bool :=
  n == sysPTB || (decide (0x80 ≤ n) && decide (n ≤ 0xBF)) || (decide (0x301 ≤ n) && decide (n ≤ 0x30D))

/-- Bits a register keeps (R423). -/
def sysKept (n : Nat) : Word :=
  if n == sysSLIPW then 0xFFFFFFFF
  else if n == sysPTB then 0xFFFFFFFFFFFFF000
  else if n == sysPRCFG then 0xFFFFF
  else if (decide (0x40 ≤ n) && decide (n ≤ 0x5F)) || n == sysWABS || n == sysWFRZ || n == sysLWAIT || n == sysCPFE then 0xFFFFFFFF
  else if n == sysTCAUSE then 0xFCFFFFFFFF
  else 0xFFFFFFFFFFFFFFFF

/-- The value checks of R176, R364 and R410. -/
def sysValueOk (n : Nat) (v : Word) : Bool :=
  if n == sysSLIPW then bits v 63 32 == 0
  else if n == sysTVEC then bits v 1 0 == 0 && bits v 63 48 == 0
  else if decide (0x80 ≤ n) && decide (n ≤ 0xBF) then
    bits v 61 52 == 0 && bits v 14 6 == 0 &&
      (if v.getLsbD 62 then bits v 5 0 == 0 && decide (bits v 51 50 < 2) else bits v 51 15 == 0)
  else true

/-- LSES (R289). -/
def lsesWord (c : Core) : Word :=
  BitVec.ofNat 64 ((if c.leaseOpen then 1 else 0) + 2 * c.leaseClass + 8 * c.leaseQueue.length)

/-- Events of counter `n` that instructions in flight have not counted; a read includes each or not, undecided (R95). -/
def countsInFlight (s : State) (n : Nat) : Nat :=
  let k := (s.core.landing.flatMap (fun l => l.counts.filter (fun x => x == n))).length
  Config.undecided s.tick (400000 + n) % (k + 1)

/-- What SYSR reads (R422). -/
def sysRead (s : State) (n : Nat) : Word :=
  if n == sysLSES then lsesWord s.core
  else if decide (sysFEC ≤ n) && decide (n ≤ 0x5F) then
    let v := (readSys s .c n).toNat + countsInFlight s (n - sysFEC)
    BitVec.ofNat 64 (Nat.min v (2 ^ 32 - 1))
  else readSys s .c n

/-- Number a SYSR or SYSW names (R419). -/
def sysNumber (s : State) : SysNum → Nat
  | .reg r => (readG s .c r.toNat).toNat % 2 ^ 14
  | .num i => i.toNat

def sysNumLocs : SysNum → List Loc
  | .reg r => [.g r.toNat]
  | .num _ => []

def privilegeFault (cause : Nat) : FaultRec := { code := .privilege, cause := cause }

/-- The encoding itself names a register that no table assigns: illegal before guard, tokens and operands (R70, R412). -/
def numberIllegal : SysNum → Bool
  | .num i => !sysAssigned i.toNat
  | .reg _ => false

/-- SYSR (R422). -/
def execSysr (h : Hdr) (d : Reg) (n : SysNum) (s : State) : Host.Outcome State Fault Refusal :=
  if numberIllegal n then issueIllegal h.eng (.sysr h d n) s
  else
    issueOut h 2 (sysNumLocs n) (fun p =>
      let k := sysNumber p n
      if !sysAssigned k then .trap (illegalFault (.sysr h d n))
      else if sysHidden k && !privileged p.core then .trap (privilegeFault 2)
      else if look false p.core.sys.poison k then .poison 0
      else .soon (putG p h.eng d.toNat (sysRead p k))) s

/-- Every probe entry is invalid (R191). -/
def clearTags (s : State) : State := modCore s (fun c => { c with probeTags := [] })

/-- The write of an admitted SYSW. -/
def syswWrite (s : State) (n : Nat) (v : Word) : State :=
  let s1 := writeSys s n (v &&& sysKept n)
  if n == sysFPTH || (decide (0x40 ≤ n) && decide (n ≤ 0x5F)) then modCore s1 (fun c => quietAfterWrite s.core c n) else s1

/-- SYSW of PRCFG: it waits for the pending fills, and PRCFG_WRITE then performs it (R191). -/
def syswProbe (p : State) (v : Word) : Act :=
  match p.core.prcfgWait with
  | some (w, true) => if w == v then .soon (modCore p (fun c => { c with prcfgWait := none })) else .wait nothing
  | some (_, false) => .wait nothing
  | none =>
    if p.core.probeTags.any ProbeTag.pending then
      .wait (fun s => modCore s (fun c => { c with prcfgWait := some (v, false) }))
    else .soon (clearTags (syswWrite p sysPRCFG v))

/-- SYSW (R423). -/
def execSysw (h : Hdr) (a : Reg) (n : SysNum) (s : State) : Host.Outcome State Fault Refusal :=
  if numberIllegal n then issueIllegal h.eng (.sysw h a n) s
  else
    issueOut h 2 (.g a.toNat :: sysNumLocs n) (fun p =>
      let k := sysNumber p n
      let v := readG p .c a.toNat
      if !sysAssigned k then .trap (illegalFault (.sysw h a n))
      else if sysFixed k then .trap (privilegeFault 3)
      else if sysGuarded k && !privileged p.core then .trap (privilegeFault 2)
      else if !sysValueOk k v then .trap formatFault
      else if k == sysPRCFG then syswProbe p v
      else .soon (syswWrite p k v)) s

/-- The pending fills are done: PRCFG is written and every entry is invalid (R191). -/
def execEvPrcfgWrite (s : State) : Host.Outcome State Fault Refusal :=
  let s := focus s s.arg.core.toNat
  match s.core.prcfgWait with
  | some (v, false) =>
    if s.core.probeTags.any ProbeTag.pending then .next s
    else .next (modCore (clearTags (syswWrite s sysPRCFG v)) (fun c => { c with prcfgWait := some (v, true) }))
  | some (_, true) | none => .next s

/-- LDOVT (R424). -/
def execLdovt (h : Hdr) (a : Reg) (s : State) : Host.Outcome State Fault Refusal :=
  issueOut h 2 [.g a.toNat] (fun p =>
    let v := readG p .c a.toNat
    if !privileged p.core then .trap (privilegeFault 1)
    else if bits v 63 16 != 0 || (List.range 8).any (fun i => bits v (2 * i + 1) (2 * i) == 3) then .trap formatFault
    else .soon (writeSys p sysOVT v)) s

/-! ### TRAP, SYSCALL, ERET, HALT -/

/-- The fault a code names; a code that is never reported stands for one of the 25, undecided (R411, R418). -/
def faultOfCode (tick n : Nat) : FaultCode :=
  let all : List FaultCode :=
    [.illegalInstruction, .translation, .unbackedAddress, .alignment, .nearAddress, .engineCommand, .layout, .formatConfig,
     .probeConfig, .atomic, .order, .memoryCommand, .weightCode, .lease, .samplerCommand, .emptyGrammar, .grammarStack,
     .grammarTable, .sequenceFaulted, .privilege, .trap, .syscall, .poison, .placement, .nestedFault]
  match all.find? (fun f => f.num == n) with
  | some f => f
  | none => all.getD (Config.undecided tick (500000 + n) % 25) .nestedFault

/-- One of these system registers, or the trap frame, holds poison (R431). -/
def trapMarked (c : Core) (ns : List Nat) : Bool := ns.any (look false c.sys.poison) || c.trapFrame.any TrapFrame.mark

/-- TRAP (R420); at privileged level it ends the task with what TCAUSE and the TPC of its engine field hold (R418). -/
def execTrap (h : Hdr) (i : BitVec 10) (s : State) : Host.Outcome State Fault Refusal :=
  issueOut h 1 [] (fun p =>
    if privileged p.core then
      let w := sysNow p.core sysTCAUSE
      if trapMarked p.core [sysTCAUSE, sysTVAL, sysTPC + bits w 35 34] then .poison 0
      else .whole (endFaulted p { code := faultOfCode p.tick (bits w 15 0), cause := bits w 31 16, tval := sysNow p.core sysTVAL }
        (sysNow p.core (sysTPC + bits w 35 34)).toNat)
    else .trapAfter p { code := .trap, cause := i.toNat }) s

/-- SYSCALL (R420, R418). -/
def execSyscall (h : Hdr) (i : BitVec 10) (s : State) : Host.Outcome State Fault Refusal :=
  issueOut h 1 [] (fun p => .trapAfter p { code := .syscall, cause := i.toNat }) s

/-! ### The cut of the text into groups, and a counter that a handler has moved -/

/-- Parcels an instruction's length class takes (R48); one for class 0b11. -/
def parcelsOf (p0 : BitVec 32) : Nat := (parcelCount p0).getD 1

/-- The instruction crosses a code page (R69). -/
def crosses (pc : Nat) (p0 : BitVec 32) : Bool := decide (16384 < pc % 16384 + 4 * parcelsOf p0)

/-- A parcel that raises in the first engine to reach it, whatever its tag (R69): length class 0b11, a reserved tag, an
instruction across a code-page boundary. -/
def everyEngine (pc : Nat) (p0 : BitVec 32) : Bool :=
  (parcelCount p0).isNone || decide (tagS < (p0.extractLsb' 2 3).toNat) || crosses pc p0

/-- Tag by which a parcel cuts the groups (R362). One that every engine reaches forms a group by itself, as an S-tagged
instruction does. DEDUCED, log entry 15. -/
def cutTag (pc : Nat) (p0 : BitVec 32) : Nat := if everyEngine pc p0 then tagS else (p0.extractLsb' 2 3).toNat

/-- The next instruction's tag begins a new group (R362). -/
def endsGroup (x : Engine) (tag : Nat) : Bool := x.seen.contains tag || (tag == tagS && !x.seen.isEmpty)

/-- Physical address of the code page that holds virtual address `v`, by a walk of the tables (R132). -/
def codeFrame (s : State) (v : Nat) : Option Nat :=
  let p := v / 16384 * 16384
  match (walk s (dieAt s (dieOfCore s.cur)) (sysNow s.core sysPTB) p).1 with
  | .ok t => if t.leaf.getLsbD 55 then some (leafFrame t.leaf + (p - t.base)) else none
  | .error _ => none

/-- The engine's walk carried along the straight line of text from its counter to `goal`, both in the page whose bytes are
at `page`: the cut into groups depends on lengths, tags and the path alone (R362). None where no instruction begins at `goal`. -/
def cutAlong (s : State) (page goal : Nat) : Nat → Engine → Option Engine
  | 0, _ => none
  | n + 1, x =>
    if x.pc == goal then some x
    else if goal < x.pc then none
    else
      let p0 := BitVec.ofNat 32 (leNat ((List.range 4).map (fun i => memByte s (page + x.pc % 16384 + i))))
      let tag := cutTag x.pc p0
      let y := if endsGroup x tag then { x with walk := x.walk + 1, seen := [], begun := false } else x
      cutAlong s page goal n (passed y tag (y.pc + 4 * parcelsOf p0))

/-- Weight-code calls and matrix stores, by their first parcel (R385). -/
def isWcall (p0 : BitVec 32) : Bool := (p0.extractLsb' 2 3).toNat == Eng.w.num && opOf p0 == 0xE0
def isMst (p0 : BitVec 32) : Bool := (p0.extractLsb' 2 3).toNat == Eng.a.num && (opOf p0 == 0x46 || opOf p0 == 0x47)

/-- The group in which engine `x` stands, in the page whose bytes are at `page`, holds a WCALL that it has still to pass. -/
def callInGroup (s : State) (page : Nat) : Nat → Engine → Bool
  | 0, _ => false
  | n + 1, x =>
    let p0 := BitVec.ofNat 32 (leNat ((List.range 4).map (fun i => memByte s (page + x.pc % 16384 + i))))
    let tag := cutTag x.pc p0
    let y := passed x tag (x.pc + 4 * parcelsOf p0)
    !endsGroup x tag && (isWcall p0 || (y.walk == x.walk && callInGroup s page n y))

/-- The group count of an engine that ERET sends to `goal` (R421). Where the handler has moved the counter forward in its
code page the groups are those of the text between; anywhere else a new group begins. DEDUCED from R362, log entry 15. -/
def recut (s : State) (x : Engine) (goal : Nat) : Engine :=
  if x.pc == goal || x.stretch.isSome then x
  else
    let fresh := { x with seen := [], begun := false }
    if x.pc < goal && goal / 16384 == x.pc / 16384 then
      match codeFrame s x.pc with
      | some page => (cutAlong s page goal 4096 x).getD fresh
      | none => fresh
    else fresh

/-- The trap frame with the walks of its engines at the saved counters of TPCC to TPCW. -/
def recutFrame (s : State) : State :=
  let at' := fun (f : TrapFrame) (e : Eng) =>
    let x := f.engines.getD e.num {}
    recut s x (sysNow s.core (sysTPC + e.num)).toNat
  modCore s (fun c => { c with trapFrame := c.trapFrame.map (fun f => { f with engines := allEngs.map (at' f) }) })

/-- ERET (R421). -/
def execEret (h : Hdr) (s : State) : Host.Outcome State Fault Refusal :=
  issueOut h 1 [] (fun p =>
    if !privileged p.core then .trap (privilegeFault 1)
    else if trapMarked p.core [sysTPC, sysTPC + 1, sysTPC + 2, sysTPC + 3, sysTCAUSE] then .poison 0
    else .whole (returnFromTrap (recutFrame p))) s

/-- HALT (R425): the control engine stops, the others stop at the end of its group, and the task enters ending (R401). -/
def execHalt (h : Hdr) (s : State) : Host.Outcome State Fault Refusal :=
  issueOut h 1 [] (fun p =>
    let p1 := modCore p (fun c => { c with
      haltAt := some c.engC.walk, engC := { c.engC with halted := true }, trapFrame := none })
    match p1.core.task with
    | none => .done p1
    | some t => .done (modDie p1 (dieOfCore p1.cur) (fun d =>
        { d with tasks := d.tasks.map (fun q => if q.1 == t then (t, { q.2 with state := .ending }) else q) }))) s

end Sys2Proof.Machine
end

