-- ==== Sys2Proof/Machine/Memory.lean ====
section
/-!
DEFINITION. The memory instructions (R172 to R202): LD, ST, MLD, MST, PROBE, the atomics, and the events that land their
results (LD_RETURN, RESULT_WRITE).
-/
namespace Sys2Proof.Machine

/-! ### Waits behind the ordering instructions (R350 to R353) -/

/-- A FENCE or SETTLE that later memory instructions wait for. -/
def Ordering.holdsAll : Ordering → Bool
  | .rel _ _ => false
  | .fence _ _ | .settle _ _ => true

/-- The instruction waits: every memory instruction behind a FENCE or SETTLE, an O access, home atomic, PUSHE, REL, ACQ
or FENCE behind any. -/
def orderHeld (c : Core) (strict : Bool) : Bool := c.orderWaits.any (fun w => strict || w.op.holdsAll)

/-! ### Addresses -/

def alignFault (v : Nat) : FaultRec := { code := .alignment, tval := BitVec.ofNat 64 v }
def engineFault (v : Nat) : FaultRec := { code := .engineCommand, tval := BitVec.ofNat 64 v }

/-- Canonical, aligned to `w` bytes, translated (R184, R198). -/
def accessPage (s : State) (v w : Nat) (want : Want) : Tr :=
  if !canonical v then .bad (trFault 0 v)
  else if v % w != 0 then .bad (alignFault v)
  else translate s .a v want

/-- A class E page is reached by 8-byte accesses of the management registers only (R184); a class N page where its lender
is reached (R445, R447). -/
def reachFault (s : State) (v pa w : Nat) : Option FaultRec :=
  match classOf pa with
  | 3 => if isManagement (windowOffset pa) && w == 8 then none else some (engineFault v)
  | 2 => if lentReached s pa w then none else some (unbackedFault v)
  | _ => none

/-- The page is of class O for ordering; class E and N pages are not (R135). -/
def isOrdered (t : TlbEntry) (pa : Nat) : Bool := decide (classOf pa < 2) && leafCoh t.leaf == .o

/-- Base address of a load-store form: a register, or a loop-nest access (R183). -/
inductive Base where
  | reg (r : Reg)
  | nest (j : Reg)

def baseLocs (s : State) : Base → List Loc
  | .reg r => [.g r.toNat]
  | .nest j => lnLocs s j.toNat

def baseAddr (s : State) : Base → Option Word
  | .reg r => some (readG s .a r.toNat)
  | .nest j => lnAddress s j.toNat

/-- Waits at issue for the registers an address is formed from, then goes on with the address (R213, R214). -/
def withBase (p : State) (b : Base) (k : Word → Act) : Act :=
  if mustWait p.core .a (baseLocs p b) then .wait nothing
  else if anyPoison p.core (baseLocs p b) then .poison 0
  else
    match baseAddr p b with
    | none => .trap formatFault
    | some v => k v

/-! ### LD and ST (R183 to R186) -/

/-- Bytes of a type. -/
def typeBytes (t : Ty) : Nat := widthOf t / 8

/-- A loaded value in its register: sign-extended for s types (R184). -/
def loaded (t : Ty) (n : Nat) : Word :=
  if isSigned t then BitVec.ofInt 64 (signedOf (widthOf t) n) else BitVec.ofNat 64 (n % 2 ^ widthOf t)

def outstandingLoads (c : Core) : Nat := (c.landing.filter Landing.isLoad).length
def outstandingAtomics (c : Core) : Nat := (c.landing.filter Landing.isAtomic).length

/-- Bytes a load returns, with the poison mark. -/
def loadBytes (s : State) (e : TlbEntry) (pa w : Nat) : State × List Byte × Bool :=
  if classOf pa == 3 then (s, leBytes w (mgmtRead s (windowDie pa) (windowOffset pa)).toNat, false)
  else readMem s 0 e 0 pa w

/-- A late result of the access engine that lands when its memory access returns. -/
def memLanding (h : Hdr) (c : Core) (act : LandAct) : Landing :=
  { due := none, eng := .a, seq := c.engA.seq, tag := c.engA.walk, scoreboard := true, act := act, push := h.push }

/-- When a load returns: a management register's 40 clk after issue on the core's own die, 62 clk on another (R440), memory when
its access has. -/
def loadDue (s : State) (pa : Nat) : Option Nat :=
  if classOf pa == 3 then some (s.core.ck + (if windowDie pa == dieOfCore s.cur then 40 else 62)) else none

def ldBody (h : Hdr) (d : Reg) (t : Ty) (v : Nat) (p : State) : Act :=
  let w := typeBytes t
  match accessPage p v w { r := true } with
  | .bad f => .trap f
  | .miss => .wait (askWalk v { r := true })
  | .ok e pa =>
    match reachFault p v pa w with
    | some f => .trap f
    | none =>
      if orderHeld p.core (isOrdered e pa) || decide (32 ≤ outstandingLoads p.core) then .wait nothing
      else
        let (p1, bs, mark) := loadBytes (touchTlb p e) e pa w
        .later (modCore p1 (fun c => addLanding c
          { memLanding h c (lateG d.toNat (loaded t (leNat bs)) mark) with isLoad := true, due := loadDue p pa }))

/-- A core's store of whole bytes, under the page's class, with the mark of its source. -/
def storeBytes (s : State) (e : TlbEntry) (pa : Nat) (bs : List Byte) (mark : Bool) : Option State :=
  if classOf pa == 3 then some (mgmtWrite s (windowDie pa) (windowOffset pa) (BitVec.ofNat 64 (leNat bs)))
  else storeMem s 0 e 0 (wholeBytes pa bs) mark

def stBody (d : Reg) (t : Ty) (v : Nat) (p : State) : Act :=
  let w := typeBytes t
  if mustWait p.core .a [.g d.toNat] then .wait nothing
  else
    let mark := anyPoison p.core [.g d.toNat]
    match accessPage p v w { w := true } with
    | .bad f => .trap f
    | .miss => .wait (askWalk v { w := true })
    | .ok e pa =>
      match reachFault p v pa w with
      | some f => .trap f
      | none =>
        if orderHeld p.core (isOrdered e pa) then .wait nothing
        else if mark && classOf pa == 3 then .poison (BitVec.ofNat 64 v)
        else
          match storeBytes (touchTlb p e) e pa (leBytes w (readG p .a d.toNat).toNat) mark with
          | none => .wait spill
          | some p1 => .done p1

def loadForm (h : Hdr) (d : Reg) (b : Base) (t : Ty) (x : Src2) (s : State) : Host.Outcome State Fault Refusal :=
  issueOut h (src2Len x) (src2Locs x) (fun p => withBase p b (fun v => ldBody h d t (v + src2S p .a x).toNat p)) s

def storeForm (h : Hdr) (d : Reg) (b : Base) (t : Ty) (x : Src2) (s : State) : Host.Outcome State Fault Refusal :=
  issueOut h (src2Len x) (src2Locs x) (fun p => withBase p b (fun v => stBody d t (v + src2S p .a x).toNat p)) s

def execLd (h : Hdr) (d a : Reg) (t : Ty) (x : Src2) (s : State) : Host.Outcome State Fault Refusal := loadForm h d (.reg a) t x s
def execLdLn (h : Hdr) (d a : Reg) (t : Ty) (x : Src2) (s : State) : Host.Outcome State Fault Refusal := loadForm h d (.nest a) t x s
def execSt (h : Hdr) (d a : Reg) (t : Ty) (x : Src2) (s : State) : Host.Outcome State Fault Refusal := storeForm h d (.reg a) t x s
def execStLn (h : Hdr) (d a : Reg) (t : Ty) (x : Src2) (s : State) : Host.Outcome State Fault Refusal := storeForm h d (.nest a) t x s

/-! ### MLD and MST (R187 to R190) -/

/-- Segment count and byte step (R187). -/
def segWord (w : Nat) : Nat × Int := (nbitsOf w 31 20, signedOf 20 (w % 2 ^ 20))

def segList (s : State) : SegSrc → Nat × Int
  | .one => (1, 0)
  | .lit l => segWord l.toNat
  | .reg r => segWord ((readG s .a r.toNat).toNat % 2 ^ 32)

def segLocs : SegSrc → List Loc
  | .one | .lit _ => []
  | .reg r => [.g r.toNat]

def segLen : SegSrc → Nat
  | .one => 2
  | .lit _ | .reg _ => 3

/-- The fault of one segment of `n` bytes at `a` (R189). -/
def segFault (s : State) (a : Int) (n : Nat) : Option FaultRec :=
  if a < 0 ∨ (2 ^ 21 : Int) < a + n then some (nearFault 1 (wrapInt 64 a))
  else if a % 4 != 0 then some (nearFault 3 a.toNat)
  else (List.range ((a.toNat % 32768 + n + 32767) / 32768)).findSome? (fun k =>
    (nearCheck s 1 (if k == 0 then a.toNat else (a.toNat / 32768 + k) * 32768)).map (fun f => { f with tval := wrapInt 64 a }))

/-- Bytes of a segment of `view`. -/
def segBytes (d : MOp) (t : Ty) : Nat := packedBytes (widthOf t) (viewCells d).length

/-- Stripes that the queued and running calls read, each with its call's group: a WSTRIPE queued before a call sets its
stripe (R251, R385). -/
def pendingCalls (c : Core) : List (Nat × Stripe) :=
  let now := match c.call with | some k => [(k.cmd.tag, c.stripe)] | none => []
  let q := c.wQueue.foldl (fun (x : Stripe × List (Nat × Stripe)) w =>
    match w.op with
    | .stripe st => (st, x.2)
    | .call _ _ _ => (x.1, x.2 ++ [(w.tag, x.1)])
    | .zero _ _ | .slack _ => x) (c.stripe, [])
  now ++ q.2

/-- Bytes of a stripe row (R254). -/
def rowBytes (t : Ty) : Nat := packedBytes (widthOf t) 512

/-- Does the stripe read a byte of `a .. a + n - 1`? -/
def stripeTouches (st : Stripe) (a n : Nat) : Bool :=
  (List.range st.k).any (fun k =>
    let r := st.base + k * st.pitch
    decide (r < a + n) && decide (a < r + rowBytes st.ty))

def interlocked (c : Core) (e : Eng) : Bool := (c.eng e).exposed != some true

/-- Engine `e` may still issue its instruction of group `g`, and is not waiting to be met. -/
def stillBefore (c : Core) (e : Eng) (g : Nat) : Bool :=
  let x := c.eng e
  !x.halted && !x.joined && !x.atSync && !x.atCross && (decide (x.walk < g) || (x.walk == g && !x.seen.contains e.num))

/-- Engine `e` is in a stretch, whose instructions have group `g` or an earlier one. What they will be is not known, so R385's waits
take it that they will be ones to wait for: DESIGN CHOICE, log entry 61. -/
def inStretch (c : Core) (e : Eng) (g : Nat) : Bool := (c.eng e).stretch.isSome && !(c.eng e).joined && decide ((c.eng e).walk ≤ g)

/-- Engine `e` passes the instruction with first parcel `p0`, of another engine, outside a stretch. -/
def noteAhead (c : Core) (e : Eng) (p0 : BitVec 32) (x : Engine) : Engine :=
  let note := fun (o : Eng) => { x with ahead := (x.walk :: x.ahead).filter (stillBefore c o) }
  match e with
  | .a => if isWcall p0 && x.stretch.isNone then note .w else x
  | .w => if isMst p0 && x.stretch.isNone then note .a else x
  | .c | .v => x

/-- A WCALL of an earlier group or of the access engine's own that the weight-code engine has still to issue. -/
def callAhead (s : State) : Bool :=
  let x := s.core.engA
  x.ahead.any (stillBefore s.core .w) || inStretch s.core .w x.walk ||
    (x.stretch.isNone && !x.seen.contains Eng.w.num && stillBefore s.core .w x.walk &&
      (codeFrame s x.pc).any (fun page => callInGroup s page 8 x))

/-- In an interlocked region an MST waits for the calls of its own and earlier groups that read its bytes, those among them
that the weight-code engine has still to issue (R385). -/
def mstHeld (s : State) (segs : List (Nat × Nat)) : Bool :=
  let c := s.core
  interlocked c .a && (callAhead s || (pendingCalls c).any (fun q => decide (q.1 ≤ c.engA.walk) && segs.any (fun g => stripeTouches q.2 g.1 g.2)))

/-- The segments enter the scratchpad port one a clk (R189, R190); the last one pushes the tokens. -/
def movePort (h : Hdr) (d : MOp) (a : Nat) (n : Nat) (step : Int) (act : Nat → List Nat → LandAct) (p : State) : State :=
  let segs := (List.range n).map (fun (k : Nat) => act ((a : Int) + (k : Int) * step).toNat (segmentCells d k))
  modCore p (fun c =>
    let entry := fun (k : Nat) (x : LandAct) => ({ due := some (c.ck + k), eng := .a, seq := c.engA.seq, tag := c.engA.walk
                                                   scoreboard := false, act := x, push := if k + 1 == n then h.push else 0 } : Landing)
    { c with
      landing := c.landing ++ segs.zipIdx.map (fun q => entry q.2 q.1)
      portFree := c.ck + n })

/-- MLD and MST: checks before any access, then the port (R189, R190). -/
def moveForm (h : Hdr) (d : MOp) (b : Base) (t : Ty) (x : SegSrc) (store : Bool) (s : State) : Host.Outcome State Fault Refusal :=
  issueOut h (segLen x) (segLocs x) (fun p => withBase p b (fun v =>
    let (n, step) := segList p x
    let bytes := segBytes d t
    let places := (List.range n).map (fun (k : Nat) => (v.toNat : Int) + (k : Int) * step)
    match places.findSome? (fun a => segFault p a bytes) with
    | some f => .trap f
    | none =>
      if n == 0 then .done p
      else if orderHeld p.core false || decide (p.core.ck < p.core.portFree) || p.core.landing.any Landing.isSegment && portWaits p.core then .wait nothing
      else if store then
        let cells := (List.range n).flatMap (segmentCells d)
        if mustWait p.core .a (cells.map Loc.cell) || mstHeld p (places.map (fun a => (a.toNat, bytes))) then .wait nothing
        else .later (movePort h d v.toNat n step (fun a ks => .storeSegment a ks t) p)
      else .later (movePort h d v.toNat n step (fun a ks => .loadSegment a ks t) p))) s

def execMld (h : Hdr) (d : MOp) (a : Reg) (t : Ty) (x : SegSrc) (s : State) : Host.Outcome State Fault Refusal := moveForm h d (.reg a) t x false s
def execMldLn (h : Hdr) (d : MOp) (a : Reg) (t : Ty) (x : SegSrc) (s : State) : Host.Outcome State Fault Refusal := moveForm h d (.nest a) t x false s
def execMst (h : Hdr) (d : MOp) (a : Reg) (t : Ty) (x : SegSrc) (s : State) : Host.Outcome State Fault Refusal := moveForm h d (.reg a) t x true s
def execMstLn (h : Hdr) (d : MOp) (a : Reg) (t : Ty) (x : SegSrc) (s : State) : Host.Outcome State Fault Refusal := moveForm h d (.nest a) t x true s

/-! ### Results land -/

/-- What a segment has read lands `lat` clk later, its tokens the clk after. Cells that an MLD issued before a trap has read
for go with the results that the trap put aside (R416). -/
def segmentLands (s : State) (l : Landing) (lat : Nat) (ws : List Late) : State :=
  modCore s (fun c =>
    let value : Landing := { l with due := some (c.ck + lat), act := .write ws, push := 0 }
    let tokens : List Landing := if l.push == 0 then [] else [{ l with due := some (c.ck + lat + 1), act := .write [] }]
    match c.trapFrame with
    | some f =>
      if l.old && !value.completes then
        { c with trapFrame := some { f with landing := f.landing ++ (value :: tokens).map (fun x => { x with old := false }) } }
      else { c with landing := c.landing ++ value :: tokens }
    | none => { c with landing := c.landing ++ value :: tokens })

/-- A segment at the port: an MLD reads its bytes, an MST its cells (R189, R190). -/
def runSegment (s : State) (l : Landing) : State :=
  match l.act with
  | .write _ => s
  | .loadSegment a ks t =>
    let b := widthOf t
    let n := packedBytes b ks.length
    let coming := nearComing s l.seq
    let bs := (List.range n).map (fun i => nearLoad s coming (a + i))
    let es := unpackElems b ks.length (bs.map Prod.fst)
    let bad := fun (k : Nat) => (List.range (b / 8 + 1)).any (fun j => (bs.getD (b * k / 8 + j) (0, false)).2)
    segmentLands (touchNear s 1 ((List.range n).map (fun i => a + i))) l 14 (ks.zipIdx.map (fun q => { loc := .cell q.1, val := BitVec.ofNat 64 (es.getD q.2 0), mark := bad q.2 }))
  | .storeSegment a ks t =>
    let b := widthOf t
    let bs := packElems b (ks.map (fun k => (readCell s .a k).toNat))
    let bad := fun (i : Nat) => (List.range 3).any (fun j =>
      match ks[8 * i / b + j]? with
      | some k => decide (b * (8 * i / b + j) < 8 * (i + 1)) && look false s.core.cells.poison k
      | none => false)
    segmentLands s l 4 (bs.zipIdx.map (fun q => { loc := .near (a + q.2), val := q.1.setWidth 64, mark := bad q.2 }))

/-- Near bytes that a landing entry brings. -/
def nearBytes (ws : List Late) : List (Nat × Byte × Bool) :=
  ws.filterMap (fun w => match w.loc with | .near a => some (a, w.val.setWidth 8, w.mark) | .g _ | .cell _ | .k _ => none)

/-- One entry whose clk has come. -/
def landDue (s : State) (l : Landing) : State :=
  match l.act with
  | .write ws => landWrites (if (nearBytes ws).isEmpty then s else nearStore s l.seq (nearBytes ws)) l
  | .loadSegment _ _ _ | .storeSegment _ _ _ => runSegment s l

/-- RESULT_WRITE (R226, R206, R228): everything due in this clk is written, in the order C, A, V, W; the segments of MLD and MST that
are due in it read what stands then, as one that issues in this clk does (R190, R227). -/
def execEvResultWrite (s : State) : Host.Outcome State Fault Refusal :=
  let s := focus s s.arg.core.toNat
  let due := dueEntries s.core
  let inOrder := allEngs.flatMap (fun e => due.filter (fun l => l.eng == e))
  let s1 := modCore s (fun c => { c with landing := c.landing.filter (fun l => !due.contains l) })
  .next ((inOrder.filter Landing.isSegment).foldl landDue ((inOrder.filter (fun l => !l.isSegment)).foldl landDue s1))

/-- LD_RETURN (R185, R198): the memory access of the `n`-th entry that waits for one has returned. -/
def execEvLdReturn (s : State) : Host.Outcome State Fault Refusal :=
  let s := focus s s.arg.core.toNat
  match (s.core.landing.filter (fun l => l.due.isNone))[s.arg.n]? with
  | none => .next s
  | some l => .next (landWrites (modCore s (fun c => { c with landing := c.landing.erase l })) l)

/-! ### PROBE (R191 to R196) -/

/-- Near address of entry `e`'s slot under the PRCFG word `w` (R191, R193). -/
def slotAddr (w : Word) (e : Nat) : Nat := 4096 * (bits w 9 0 + e)

/-- What PROBE writes: the slot's near address with the low 12 bits of `v` (R193). -/
def probeAddr (w : Word) (e v : Nat) : Word := BitVec.ofNat 64 (slotAddr w e + v % 4096)

/-- Entry a miss takes: the lowest invalid one, else the least recent that is not pending (R193). -/
def probeVictim (c : Core) (count : Nat) : Option Nat :=
  match (List.range count).find? (fun e => !c.probeTags.any (fun t => t.entry == e)) with
  | some e => some e
  | none => (c.probeTags.reverse.find? (fun t => !t.pending)).map ProbeTag.entry

/-- Where a miss sends the access engine. -/
def probeTarget (s : State) (pc : Nat) : Src2 → Nat
  | .reg r => (readG s .a r.toNat).toNat
  | .imm i => target pc i.toInt
  | .lit l => target pc l.toInt

/-- The miss: the entry is claimed, the fill queued, gd written; outside a stretch the engine branches (R193, R376). -/
def probeMiss (h : Hdr) (d : Reg) (x : Src2) (w : Word) (v e : Nat) (t : TlbEntry) (pa : Nat) (p : State) : Act :=
  let pc := p.core.engA.pc
  let next := pc + 4 * src2Len x
  let p1 := modCore p (fun c => { c with
    probeTags := { entry := e, pending := true, block := v / 4096 } :: c.probeTags.filter (fun t => t.entry != e)
    fillQueue := c.fillQueue ++ [{ entry := e, slot := slotAddr w e, page := t, pa := pa / 4096 * 4096, tag := c.engA.walk, order := c.engA.seq }] })
  let p2 := putG p1 h.eng d.toNat (probeAddr w e v)
  match p.core.engA.stretch with
  | some _ => .done p2
  | none => .jump (modEng p2 .a (fun y => { y with stretch := some (.miss next), home := y.exposed, seen := Eng.a.num :: y.seen })) (probeTarget p pc x)

def probeBody (h : Hdr) (d : Reg) (x : Src2) (v : Nat) (p : State) : Act :=
  match accessPage p v 1 { r := true } with
  | .bad f => .trap f
  | .miss => .wait (askWalk v { r := true })
  | .ok e pa =>
    let w := readSys p .a sysPRCFG
    let count := bits w 19 10
    if classOf pa == 3 then .trap (engineFault v)
    else if classOf pa == 2 && !lentReached p (pa / 4096 * 4096) 4096 then .trap (unbackedFault v)
    else if count == 0 || decide (512 < bits w 9 0 + count) then .trap { code := .probeConfig }
    else if orderHeld p.core false then .wait nothing
    else
      let p := touchTlb p e
      if p.core.probeTags.any ProbeTag.mark then .poison (BitVec.ofNat 64 v)
      else match p.core.probeTags.find? (fun t => t.block == v / 4096) with
      | some t =>
        .done (putG (modCore p (fun c => { c with probeTags := toFront (fun y => y.entry == t.entry) c.probeTags })) h.eng d.toNat
          (probeAddr w t.entry v))
      | none =>
        match probeVictim p.core count with
        | none => .wait nothing
        | some n => if 16 ≤ p.core.fillQueue.length then .wait nothing else probeMiss h d x w v n e pa p

def execProbe (h : Hdr) (d a : Reg) (x : Src2) (s : State) : Host.Outcome State Fault Refusal :=
  issueOut h (src2Len x) (src2Locs x) (fun p => withBase p (.reg a) (fun v => probeBody h d x v.toNat p)) s

def execProbeLn (h : Hdr) (d a : Reg) (x : Src2) (s : State) : Host.Outcome State Fault Refusal :=
  issueOut h (src2Len x) (src2Locs x) (fun p => withBase p (.nest a) (fun v => probeBody h d x v.toNat p)) s

/-! ### Atomics (R197 to R201, R344, R345) -/

inductive AOp where
  | add | min | max | or | and | xchg | cas
deriving DecidableEq, Repr

/-- The new value and its event (R198). -/
def atomicNew (op : AOp) (t : Ty) (rm : BitVec 2) (ovt : Word) (old x cmp : Nat) : Elem :=
  match op with
  | .add => laneOp .add false t rm ovt old x 0
  | .min => laneOp .min false t 0 ovt old x 0
  | .max => laneOp .max false t 0 ovt old x 0
  | .or => ⟨old ||| x, none⟩
  | .and => ⟨old &&& x, none⟩
  | .xchg => ⟨x, none⟩
  | .cas => ⟨if old == cmp then x else old, none⟩

/-- The operand: sign-extended for s types, zero-extended otherwise (R197). -/
def atomicOperand (s : State) (t : Ty) (x : Src2) : Nat :=
  (if isSigned t then src2S s .a x else src2Z s .a x).toNat % 2 ^ widthOf t

/-- Scope code (R62). -/
def scopeNum : Scope → Nat
  | .core => 0
  | .clu => 1
  | .die => 2
  | .pkg => 3
  | .sys => 4

/-- Scopes a page's class admits (R199). -/
def scopeAdmitted (sc : Scope) (c : Coh) : Bool :=
  match c with
  | .p => sc == .core
  | .l => true
  | .o => decide (2 ≤ scopeNum sc)

def atomicFault (cause v : Nat) : FaultRec := { code := .atomic, cause := cause, tval := BitVec.ofNat 64 v }

/-- Cores of the current core's cluster. -/
def clusterCores (s : State) : List Nat := (List.range 8).map (fun i => s.cur / 8 * 8 + i)

/-- The cluster's exclusive copy of a line, if it has one. -/
def exclusiveCopy (s : State) (line : Nat) : Option L1Line :=
  (clusterCores s).findSome? (fun c => (coreAt s c).l1.find? (fun l => l.line == line && l.cls == .l && l.exclusive))

/-- A record of some core of the cluster writes byte `a` and has not settled. -/
def clusterPending (s : State) (a : Nat) : Bool :=
  (clusterCores s).any (fun c => (coreAt s c).log.any (fun r => !r.settled && r.covers s a && (BitVec.ushiftRight r.mask (8 * (a % 16))).setWidth 8 != 0#8))

/-- What an exclusive copy that an L1 has given up brings back: the bytes that .clu atomics wrote and whose records are unsettled, which
settled memory does not show yet (R200). -/
def broughtBack (s : State) (line : Nat) : Sparse Byte :=
  match (dieAt s (dieOfCore s.cur)).outLines.find? (fun o => o.line == line && o.owner / 8 == s.cur / 8) with
  | some o => o.dirty.filter (fun p => clusterPending s p.1)
  | none => []

/-- The cluster's exclusive copy of a line: wherever in the cluster it stands, else filled from settled memory through its home
slice; the cluster's other copies of it go (R199, R344). -/
def takeExclusive (s : State) (policy line : Nat) : State × L1Line :=
  let copy := fun (l : L1Line) => l.line == line && l.cls == .l
  let alone := fun (s : State) => (clusterCores s).foldl (fun s c => modCoreAt s c (fun x => { x with l1 := x.l1.filter (fun l => !copy l) })) s
  match exclusiveCopy s line with
  | some l => (alone s, l)
  | none =>
    let back := broughtBack s line
    let s := modDie (askSlice (alone s) (unitOf s 0) (128 * line) policy false) (dieOfCore s.cur) (fun d => { d with
      outLines := d.outLines.filter (fun o => o.line != line || o.owner / 8 != s.cur / 8) })
    (s, { line := line, cls := .l, owner := s.cur, moment := s.now, dirty := back, exclusive := true })

def exclusiveByte (s : State) (l : L1Line) (a : Nat) : Byte :=
  match findKey l.dirty a with
  | some b => b
  | none => byteAt s l.moment a

/-- Settled bytes overlaid by the core's own log records of them, in any state (R344). -/
def overlaid (s : State) (a : Nat) : Byte :=
  (s.core.log.filter (fun r => some r.ctx == s.core.ctx && !r.settled && r.covers s a)).foldl (fun b r =>
    let sh := 8 * (a % 16)
    let d := BitVec.setWidth 8 (BitVec.ushiftRight r.data sh)
    let m := BitVec.setWidth 8 (BitVec.ushiftRight r.mask sh)
    (d &&& m) ||| (b &&& ~~~m)) (memByte s a)

/-- The chain of R340 through a home atomic: it observes what its slice has been told, and tells it what the core knows. -/
def homeSignal (s : State) (pa : Nat) : State :=
  let sl := homeSlice pa
  let d := homeDie pa
  let k := mergeMax s.core.known (look {} (dieAt s d).slices sl).known
  let s := modDie s d (fun x => { x with slices := place {} x.slices sl { look {} x.slices sl with known := k } })
  modCore s (fun c => { c with known := k })

/-- The old value of an atomic comes from DRAM in this step, with an error that cannot be corrected (R116). -/
def atomicErrs (s : State) (e : TlbEntry) (sc : Scope) (pa : Nat) : Bool :=
  let misses := match leafCoh e.leaf, sc with
    | .l, .clu => (exclusiveCopy s (pa / 128)).isNone
    | .l, .core | .p, _ => (l1Find s (pa / 128) (leafCoh e.leaf)).isNone
    | .l, _ | .o, _ => true
  misses && match checkBits s pa with | some (_, .uncorrectable) => true | some (_, .corrected) | none => false

/-- The old value that an atomic would read carries a poison mark (R116). -/
def atomicPoison (s : State) (e : TlbEntry) (sc : Scope) (pa w : Nat) : Bool :=
  let as := (List.range w).map (fun i => pa + i)
  match leafCoh e.leaf, sc with
  | .l, .clu => as.any (match exclusiveCopy s (pa / 128) with | some l => linePoison s l | none => memPoisoned s)
  | .l, .core | .p, _ => (readMem (touchTlb s e) 0 e 0 pa w).2.2
  | .l, _ => as.any (viewPoison s 0 s.now)
  | .o, _ => as.any (memPoisoned s)

/-- Read, compute, write at the place of R199. None: the log is full. -/
def atomicAt (s : State) (e : TlbEntry) (sc : Scope) (pa w : Nat) (f : Nat → Elem) : Option (State × Nat × Elem) :=
  let as := (List.range w).map (fun i => pa + i)
  match leafCoh e.leaf, sc with
  | .l, .clu =>
    let (s1, l) := takeExclusive s (policyRank (leafPolicy e.leaf) 0) (pa / 128)
    let old := leNat (as.map (exclusiveByte s1 l))
    let r := f old
    let bs := leBytes w r.bits
    let l1 := { l with dirty := as.zipIdx.foldl (fun m q => setKey m q.1 (bs.getD q.2 0)) l.dirty }
    match logAll s1.core (s1.core.ctx.getD 0) 0 false (groupBy 16 (wholeBytes pa bs)) with
    | none => none
    | some c => some (l1Put { s1 with core := c } l1, old, r)
  | .l, .core | .p, _ =>
    let (s1, bs, _) := readMem s 0 e 0 pa w
    let old := leNat bs
    let r := f old
    match storeMem s1 0 e 0 (wholeBytes pa (leBytes w r.bits)) false with
    | none => none
    | some s2 => some (s2, old, r)
  | .l, _ =>
    let s1 := homeSignal (askSlice s (unitOf s 0) pa 0 true) pa
    let old := leNat (as.map (overlaid s1))
    let r := f old
    let (s2, t) := engineWrite s1 0 s1.core.clock (wholeBytes pa (leBytes w r.bits))
    some (modCore s2 (fun c => { c with clock := t }), old, r)
  | .o, _ =>
    let s1 := homeSignal (askSlice s (unitOf s 0) pa 0 true) pa
    let old := leNat (as.map (memByte s1))
    let r := f old
    let s2 := modCore s1 (fun c => { c with known := as.foldl (fun k a => mergeMax k (look [] s1.oKnown a)) c.known })
    some (oStore s2 (pa / 128) (wholeBytes pa (leBytes w r.bits)), old, r)

/-- The checks of R198, the waits of R201 and R350, the operation; `d` is the result register of a returning form. -/
def atomicBody (op : AOp) (h : Hdr) (sc : Scope) (d : Option Reg) (t : Ty) (x : Src2) (v : Nat) (p : State) : Act :=
  let w := typeBytes t
  match accessPage p v w { r := true, w := true } with
  | .bad f => .trap f
  | .miss => .wait (askWalk v { r := true, w := true })
  | .ok e pa =>
    let home := decide (2 ≤ scopeNum sc)
    if classOf pa == 3 then .trap (engineFault v)
    else if classOf pa == 2 then .trap (atomicFault 2 v)
    else if leafComp e.leaf != 0 then .trap (atomicFault 3 v)
    else if !scopeAdmitted sc (leafCoh e.leaf) then .trap (atomicFault 1 v)
    else if orderHeld p.core home || decide (16 ≤ outstandingAtomics p.core) then .wait nothing
    else if atomicErrs p e sc pa then .wait (fun s => askSlice s (unitOf s 0) pa (policyRank (leafPolicy e.leaf) 0) false)
    else if atomicPoison p e sc pa w then .poison (BitVec.ofNat 64 v)
    else
      let cmp := match d with | some r => (readG p .a r.toNat).toNat % 2 ^ widthOf t | none => 0
      let new := fun old => atomicNew op t h.rm (readSys p .a sysOVT) old (atomicOperand p t x) cmp
      match atomicAt (touchTlb p e) e sc pa w new with
      | none => .wait spill
      | some (p1, old, r) =>
        let act := match d with | some g => lateG g.toNat (loaded t old) false | none => .write []
        .later (modCore p1 (fun c => addLanding c
          { memLanding h c act with isAtomic := true, counts := if t = .f32 then fecOf 0 r.kind else [] }))

def atomicForm (op : AOp) (h : Hdr) (sc : Scope) (d : Option Reg) (a : Reg) (t : Ty) (x : Src2) (s : State) : Host.Outcome State Fault Refusal :=
  let cmp : List Loc := match op, d with | .cas, some r => [.g r.toNat] | _, _ => []
  issueOut h (src2Len x) (.g a.toNat :: (src2Locs x ++ cmp)) (fun p => atomicBody op h sc d t x (readG p .a a.toNat).toNat p) s

def execAadd (h : Hdr) (sc : Scope) (d a : Reg) (t : Ty) (x : Src2) (s : State) : Host.Outcome State Fault Refusal := atomicForm .add h sc (some d) a t x s
def execAmin (h : Hdr) (sc : Scope) (d a : Reg) (t : Ty) (x : Src2) (s : State) : Host.Outcome State Fault Refusal := atomicForm .min h sc (some d) a t x s
def execAmax (h : Hdr) (sc : Scope) (d a : Reg) (t : Ty) (x : Src2) (s : State) : Host.Outcome State Fault Refusal := atomicForm .max h sc (some d) a t x s
def execAor (h : Hdr) (sc : Scope) (d a : Reg) (t : Ty) (x : Src2) (s : State) : Host.Outcome State Fault Refusal := atomicForm .or h sc (some d) a t x s
def execAand (h : Hdr) (sc : Scope) (d a : Reg) (t : Ty) (x : Src2) (s : State) : Host.Outcome State Fault Refusal := atomicForm .and h sc (some d) a t x s
def execAxchg (h : Hdr) (sc : Scope) (d a : Reg) (t : Ty) (x : Src2) (s : State) : Host.Outcome State Fault Refusal := atomicForm .xchg h sc (some d) a t x s
def execAcas (h : Hdr) (sc : Scope) (d a : Reg) (t : Ty) (x : Src2) (s : State) : Host.Outcome State Fault Refusal := atomicForm .cas h sc (some d) a t x s
def execAaddN (h : Hdr) (sc : Scope) (a : Reg) (t : Ty) (x : Src2) (s : State) : Host.Outcome State Fault Refusal := atomicForm .add h sc none a t x s
def execAminN (h : Hdr) (sc : Scope) (a : Reg) (t : Ty) (x : Src2) (s : State) : Host.Outcome State Fault Refusal := atomicForm .min h sc none a t x s
def execAmaxN (h : Hdr) (sc : Scope) (a : Reg) (t : Ty) (x : Src2) (s : State) : Host.Outcome State Fault Refusal := atomicForm .max h sc none a t x s
def execAorN (h : Hdr) (sc : Scope) (a : Reg) (t : Ty) (x : Src2) (s : State) : Host.Outcome State Fault Refusal := atomicForm .or h sc none a t x s
def execAandN (h : Hdr) (sc : Scope) (a : Reg) (t : Ty) (x : Src2) (s : State) : Host.Outcome State Fault Refusal := atomicForm .and h sc none a t x s

end Sys2Proof.Machine
end

