-- ==== Sys2Proof/Machine/Order.lean ====
section
/-!
DEFINITION. The ordering instructions (R348 to R355): REL, ACQ, FENCE, SETTLE; their completion, and the settlement of
published records (R337).
-/
namespace Sys2Proof.Machine

/-! ### REL (R350) -/

/-- Every record of the core's context published up to `t` has settled. -/
def settledUpTo (c : Core) (t : Nat) : Bool :=
  c.log.all (fun r => some r.ctx != c.ctx || r.settled || match r.time with | some x => decide (t < x) | none => true)

def addWait (h : Hdr) (o : Ordering) (s : State) : State :=
  modCore s (fun c => { c with orderWaits := c.orderWaits ++ [{ op := o, push := h.push, id := c.nextId, seq := c.engA.seq }], nextId := c.nextId + 1 })

/-- The publication of REL or FENCE at scope `sc`; at .sys the records become irrevocable (R357). -/
def releaseAt (s : State) (sc : Nat) : State :=
  let s := publish s sc
  if sc == 4 then endPublished s else s

/-- A class N store that failed on its way is reported at the next REL.sys or FENCE.sys (R447). -/
def lostFault (s : State) : FaultRec := unbackedFault (Config.undecided s.tick 700000)

/-- The fault of R447 once, then the instruction. -/
def withLost (sc : Nat) (p : State) (k : State → Act) : Act :=
  if sc == 4 && decide (0 < p.core.lostStores) then .trapAt (modCore p (fun c => { c with lostStores := 0 })) (lostFault p)
  else k p

def relForm (sc : Scope) (h : Hdr) (len : Nat) (s : State) : Host.Outcome State Fault Refusal :=
  issueOut h len [] (fun p =>
    if orderHeld p.core true then .wait nothing
    else withLost (scopeNum sc) p (fun p =>
      let p1 := releaseAt p (scopeNum sc)
      .later (addWait h (.rel (scopeNum sc) p1.core.clock) p1))) s

/-! ### ACQ (R349, R351) -/

/-- The logs a selector names; the cause when it is malformed or reaches too far. -/
def selected (sc me : Nat) (w : Word) : Except Nat (List Nat) :=
  let kind := bits w 63 62
  let mask := bits w 15 8
  let num := bits w 7 0
  let all := (List.range 256).filter (fun c => reaches sc me c)
  let pick := fun (cs : List Nat) => if cs.all (fun c => reaches sc me c) then .ok cs else .error 1
  if bits w 61 16 != 0 then .error 2
  else
    match kind with
    | 0 => if mask != 0 || num != 0 then .error 2 else .ok all
    | 1 => if mask != 0 then .error 2 else pick [num]
    | 2 => if decide (32 ≤ num) then .error 2 else pick (((List.range 8).filter (fun i => mask / 2 ^ i % 2 == 1)).map (fun i => 8 * num + i))
    | _ => .error 2

/-- Lines of P pages in the package's lent window. -/
def inLent (s : State) (l : L1Line) : Bool :=
  match s.lent with
  | some w => decide (w.base < 128 * (l.line + 1)) && decide (128 * l.line < w.base + w.size)
  | none => false

/-- Replay the logs named, move the moment, and at .sys drop the lines of the lent window (R339, R351). -/
def acquire (s : State) (sc : Nat) (ws : List Nat) : State :=
  let s := ws.foldl (fun s w => replayFrom s w (acquiredTail s sc w)) s
  let s := modCore s (fun c => { c with moment := s.now })
  if sc == 4 then flushP s (inLent s) else s

/-- Chain steps of R340 at this core: an ACQ names logs in ascending order of core number. -/
def acqForm (sc : Scope) (h : Hdr) (a : Reg) (len : Nat) (s : State) : Host.Outcome State Fault Refusal :=
  issueOut h len [.g a.toNat] (fun p =>
    let w := readG p .a a.toNat
    match selected (scopeNum sc) p.cur w with
    | .error c => .trap { code := .order, cause := c }
    | .ok ws => if orderHeld p.core true then .wait nothing else .done (acquire p (scopeNum sc) ws)) s

/-! ### FENCE and SETTLE (R352, R353) -/

/-- Copy commands pushed to the core's FIFO that have not entered its queue. -/
def pushedCopies (s : State) : List Cmd := (look {} (dieAt s (dieOfCore s.cur)).fifos (0x400 + s.cur % 64)).cmds

/-- No earlier copy command, probe fill, LD or atomic of the core is under way. -/
def accessesDone (s : State) : Bool :=
  let c := s.core
  (pushedCopies s).isEmpty && c.copyQueue.isEmpty && c.copyRun.isNone && c.fillQueue.isEmpty && c.fillRun.isNone && outstandingLoads c == 0 && outstandingAtomics c == 0

def fenceForm (sc : Scope) (h : Hdr) (len : Nat) (s : State) : Host.Outcome State Fault Refusal :=
  issueOut h len [] (fun p =>
    if orderHeld p.core true || !accessesDone p then .wait nothing
    else withLost (scopeNum sc) p (fun p =>
      let p1 := releaseAt p (scopeNum sc)
      .later (addWait h (.fence (scopeNum sc) p1.core.clock) p1))) s

def settleForm (h : Hdr) (code : Bool) (len : Nat) (s : State) : Host.Outcome State Fault Refusal :=
  issueOut h len [] (fun p =>
    if orderHeld p.core false then .wait nothing
    else .later (addWait h (.settle code p.core.clock) (endPublished p))) s

/-! ### Completion -/

/-- It acts at scope .sys. -/
def Ordering.reachesSys : Ordering → Bool
  | .rel sc _ | .fence sc _ => sc == 4
  | .settle _ _ => false

/-- The instruction may complete (R350, R352, R353). -/
def Ordering.complete (c : Core) : Ordering → Bool
  | .rel sc t | .fence sc t => sc != 4 || settledUpTo c t
  | .settle _ t => settledUpTo c t

/-- What completion does beyond its tokens. -/
def Ordering.finish (s : State) : Ordering → State
  | .rel _ _ => s
  | .fence sc _ => acquire s sc ((List.range 256).filter (fun c => reaches sc s.cur c))
  | .settle code _ => if code then flushP s (fun _ => true) else s

/-- ORDERING_COMPLETE (R350 to R354): the `n`-th of the core's uncompleted REL, FENCE and SETTLE completes; at .sys once every
earlier class N store has been applied at its lender (R446). -/
def execEvOrderingComplete (s : State) : Host.Outcome State Fault Refusal :=
  let s := focus s s.arg.core.toNat
  match s.core.orderWaits[s.arg.n]? with
  | none => .next s
  | some w =>
    if !w.op.complete s.core || (w.op.reachesSys && s.core.flying.any (fun f => decide (f.id < w.id))) then .next s
    else
      let s1 := modCore s (fun c => { c with orderWaits := c.orderWaits.eraseIdx s.arg.n })
      .next (modCore (w.op.finish s1) (fun c => pushCommand c .a w.push w.id { src := Eng.a.num, seq := w.seq, cmd := some w.id, clk := s.clk }))

/-! ### Settlement (R337) -/

/-- A line pinned for a tile fetch (R126). -/
def linePinned (s : State) (pa : Nat) : Bool :=
  decide (classOf pa < 2) && (sliceOf s pa).lines.any (fun l => l.line == pa / 128 && decide (0 < l.pins))

/-- The places that a record naming `pa` passes on its way: the old frames of its page and the present one (R165). -/
def framesOf (s : State) (pa : Nat) : List Nat := (movesAll s pa).foldl (fun l m => (l.headD pa - m.old + m.new) :: l) [pa]

/-- Settlement of a record is held (R337): by its task, by a pinned line, by a migration whose mapping has not switched. -/
def settleHeld (s : State) (r : LogRec) : Bool :=
  r.prov.isSome || (framesOf s r.block).any (linePinned s) || (movesAll s r.block).any (fun m => !m.switched)

/-- Another record that the same migration has held, with nothing else to hold it, comes before this one of core `c` in release-time
order (R165, step 5). -/
def behindOlder (s : State) (c n : Nat) (r : LogRec) : Bool :=
  (movesAll s r.block).any (fun m => m.switched && !m.answered && (List.range 256).any (fun k => ((coreAt s k).log.zipIdx).any (fun q =>
    q.1.time.isSome && !q.1.settled && (movesAll s q.1.block).contains m && !settleHeld s q.1 &&
      (({ time := q.1.time.getD 0, num := k } : Key).lt { time := r.time.getD 0, num := c } || (k == c && q.1.time == r.time && decide (q.2 < n))))))

/-- Enabled bits of a record, byte by byte, at block address `block`. -/
def recordWrites (r : LogRec) (block : Nat) : List (Nat × Byte × Byte) :=
  ((List.range 16).map (fun i =>
    (block + i, (BitVec.ushiftRight r.data (8 * i)).setWidth 8, (BitVec.ushiftRight r.mask (8 * i)).setWidth 8))).filter (fun w => w.2.2 != 0)

/-- A record settles at its home slice, at the present frame of a page that has moved, with the mark of its data (R116). -/
def settleRecord (s : State) (core : Nat) (r : LogRec) : State :=
  let ws := recordWrites r (homeOf s r.block)
  let s := settle s r.comp { time := r.time.getD 0, num := core } ws
  if r.poison then poisonShown s r.comp (ws.map Prod.fst) else s

/-- Head passes the settled records at the log's front (R337). -/
def passHead (c : Core) : Core := { c with log := c.log.dropWhile LogRec.settled }

/-- A core goes on reading its own store once the record has settled, whatever moment it reads memory at (R185): the record
stays in the replay set of the context that wrote it. -/
def keepOwn (n : Nat) (r : LogRec) (c : Core) : Core :=
  if some r.ctx == c.ctx && !c.replay.contains (n, r) then { c with replay := c.replay ++ [(n, r)] } else c

/-- RECORD_SETTLE (R337): the `n`-th record of the core's log, if published and not held. -/
def execEvRecordSettle (s : State) : Host.Outcome State Fault Refusal :=
  let s := focus s s.arg.core.toNat
  match s.core.log[s.arg.n]? with
  | none => .next s
  | some r =>
    if r.time.isNone || r.settled || settleHeld s r || behindOlder s s.cur s.arg.n r then .next s
    else
      let s1 := settleRecord s s.cur r
      let s1 := { s1 with images := s1.images.map (fun i => if i.core == s1.cur then { i with image := keepOwn s1.cur r i.image } else i) }
      .next (modCore s1 (fun c => passHead (keepOwn s1.cur r { c with log := c.log.set s.arg.n { r with settled := true } })))

/-! ### Meanings -/

def execRelCore (h : Hdr) (s : State) : Host.Outcome State Fault Refusal := relForm .core h 1 s
def execRelCoreLong (h : Hdr) (s : State) : Host.Outcome State Fault Refusal := relForm .core h 2 s
def execRelClu (h : Hdr) (s : State) : Host.Outcome State Fault Refusal := relForm .clu h 1 s
def execRelCluLong (h : Hdr) (s : State) : Host.Outcome State Fault Refusal := relForm .clu h 2 s
def execRelDie (h : Hdr) (s : State) : Host.Outcome State Fault Refusal := relForm .die h 1 s
def execRelDieLong (h : Hdr) (s : State) : Host.Outcome State Fault Refusal := relForm .die h 2 s
def execRelPkg (h : Hdr) (s : State) : Host.Outcome State Fault Refusal := relForm .pkg h 1 s
def execRelPkgLong (h : Hdr) (s : State) : Host.Outcome State Fault Refusal := relForm .pkg h 2 s
def execRelSys (h : Hdr) (s : State) : Host.Outcome State Fault Refusal := relForm .sys h 1 s
def execRelSysLong (h : Hdr) (s : State) : Host.Outcome State Fault Refusal := relForm .sys h 2 s
def execFenceCore (h : Hdr) (s : State) : Host.Outcome State Fault Refusal := fenceForm .core h 1 s
def execFenceCoreLong (h : Hdr) (s : State) : Host.Outcome State Fault Refusal := fenceForm .core h 2 s
def execFenceClu (h : Hdr) (s : State) : Host.Outcome State Fault Refusal := fenceForm .clu h 1 s
def execFenceCluLong (h : Hdr) (s : State) : Host.Outcome State Fault Refusal := fenceForm .clu h 2 s
def execFenceDie (h : Hdr) (s : State) : Host.Outcome State Fault Refusal := fenceForm .die h 1 s
def execFenceDieLong (h : Hdr) (s : State) : Host.Outcome State Fault Refusal := fenceForm .die h 2 s
def execFencePkg (h : Hdr) (s : State) : Host.Outcome State Fault Refusal := fenceForm .pkg h 1 s
def execFencePkgLong (h : Hdr) (s : State) : Host.Outcome State Fault Refusal := fenceForm .pkg h 2 s
def execFenceSys (h : Hdr) (s : State) : Host.Outcome State Fault Refusal := fenceForm .sys h 1 s
def execFenceSysLong (h : Hdr) (s : State) : Host.Outcome State Fault Refusal := fenceForm .sys h 2 s
def execAcqCore (h : Hdr) (a : Reg) (s : State) : Host.Outcome State Fault Refusal := acqForm .core h a 1 s
def execAcqCoreLong (h : Hdr) (a : Reg) (s : State) : Host.Outcome State Fault Refusal := acqForm .core h a 2 s
def execAcqClu (h : Hdr) (a : Reg) (s : State) : Host.Outcome State Fault Refusal := acqForm .clu h a 1 s
def execAcqCluLong (h : Hdr) (a : Reg) (s : State) : Host.Outcome State Fault Refusal := acqForm .clu h a 2 s
def execAcqDie (h : Hdr) (a : Reg) (s : State) : Host.Outcome State Fault Refusal := acqForm .die h a 1 s
def execAcqDieLong (h : Hdr) (a : Reg) (s : State) : Host.Outcome State Fault Refusal := acqForm .die h a 2 s
def execAcqPkg (h : Hdr) (a : Reg) (s : State) : Host.Outcome State Fault Refusal := acqForm .pkg h a 1 s
def execAcqPkgLong (h : Hdr) (a : Reg) (s : State) : Host.Outcome State Fault Refusal := acqForm .pkg h a 2 s
def execAcqSys (h : Hdr) (a : Reg) (s : State) : Host.Outcome State Fault Refusal := acqForm .sys h a 1 s
def execAcqSysLong (h : Hdr) (a : Reg) (s : State) : Host.Outcome State Fault Refusal := acqForm .sys h a 2 s
def execSettle (h : Hdr) (code : Bool) (s : State) : Host.Outcome State Fault Refusal := settleForm h code 1 s
def execSettleLong (h : Hdr) (code : Bool) (s : State) : Host.Outcome State Fault Refusal := settleForm h code 2 s

end Sys2Proof.Machine
end

