-- ==== Sys2Proof/Machine/Shelf.lean ====
section
/-!
DEFINITION. Shelf and cellar (R98 to R117): PROMOTE, PROMOTE.H and DEMOTE, the promotion cache, the base-die manager with
its heartbeats and fallback, errors in DRAM.
-/
namespace Sys2Proof.Machine

/-! ### PROMOTE, PROMOTE.H, DEMOTE (R109 to R111) -/

def commandFault : FaultRec := { code := .memoryCommand }
/-- The fault where it lies with the page: its address is that of the instruction (R413). DEDUCED, log entry 16. -/
def commandFaultAt (v : Nat) : FaultRec := { commandFault with tval := BitVec.ofNat 64 v }

/-- Give a row operation to its stack. A bank receives those of different cores in the order in which the instructions issue:
DESIGN CHOICE, log entry 52; R105 leaves their arrival open. -/
def sendRowOp (kind id : Nat) (s : State) (pa : Nat) : State :=
  modStack s (stackOf pa) (fun x => { x with rowOps := x.rowOps ++ [{ kind := kind, addr := pa, core := s.cur, seq := id }] })

/-- The checks of R110 in their order, then the row operations of the class C granules. -/
def rowBody (kind : Nat) (h : Hdr) (a : Reg) (x : Src2) (p : State) : Act :=
  let v := (readG p .a a.toNat).toNat
  let n := (src2Z p .a x).toNat
  if n == 0 then .done p
  else if 4096 < n then .trap commandFault
  else
    match translateRights p .a v { r := true } with
    | .bad f => .trap f
    | .miss => .wait (askWalk v { r := true })
    | .ok t pa =>
      let first := v / 1024 * 1024
      let granules := (List.range n).map (fun k => pa / 1024 * 1024 + 1024 * k)
      if t.base + t.size < first + 1024 * n then .trap (commandFaultAt v)
      else if classOf pa == 3 then .trap (commandFaultAt v)
      else
        match granules.zipIdx.find? (fun g => !backed g.1) with
        | some g => .trap (unbackedFault (Nat.max v (first + 1024 * g.2)))
        | none =>
          if orderHeld p.core false || decide (16 ≤ p.core.rowOps.length) then .wait nothing
          else
            let id := p.core.nextId
            let rows := granules.filter (fun g => classOf g == 0)
            let p1 := modCore (touchTlb p t) (fun c => { c with
              nextId := id + 1, rowOps := c.rowOps ++ [(rows.length, id, h.push, c.engA.seq)] })
            .later (rows.foldl (sendRowOp kind id) p1)

def rowForm (kind : Nat) (h : Hdr) (a : Reg) (x : Src2) (s : State) : Host.Outcome State Fault Refusal :=
  issueOut h (src2Len x) (.g a.toNat :: src2Locs x) (rowBody kind h a x) s

def execPromote (h : Hdr) (a : Reg) (x : Src2) (s : State) : Host.Outcome State Fault Refusal := rowForm 0 h a x s
def execPromoteH (h : Hdr) (a : Reg) (x : Src2) (s : State) : Host.Outcome State Fault Refusal := rowForm 1 h a x s
def execDemote (h : Hdr) (a : Reg) (x : Src2) (s : State) : Host.Outcome State Fault Refusal := rowForm 2 h a x s

/-! ### Row operations at the bank (R105 to R108) -/

/-- Channel and bank of an address. -/
def bankOf (pa : Nat) : Nat := nbitsOf pa 14 10 * 64 + nbitsOf pa 20 15

/-- The stack refuses row operations: its manager has failed, or has taken refresh back and not yet sent a heartbeat
(R113, R114). -/
def refusing (x : Stack) : Bool := x.failed || x.handedBack

def heldCount (ts : List PromoTag) : Nat := (ts.filter PromoTag.hold).length

/-- Set the hold bit for .H where fewer than 24 are held; true when it is refused (R106). -/
def holdTag (h : Bool) (held : Nat) (t : PromoTag) : PromoTag × Bool :=
  if !h then (t, false) else if held < 24 then ({ t with hold := true }, false) else (t, true)

/-- A promotion of cellar row `row` in a subarray (R106): the tags in promotion order, whether a hold was refused, and
whether a dirty victim was demoted. -/
def promoteRow (h : Bool) (row : Nat) (ts : List PromoTag) : List PromoTag × Bool × Bool :=
  match ts.find? (fun t => t.row == row) with
  | some t =>
    let (t1, no) := holdTag h (heldCount ts) t
    (ts.filter (fun t => t.row != row) ++ [t1], no, false)
  | none =>
    match (List.range 32).find? (fun n => !ts.any (fun t => t.slot == n)) with
    | some n =>
      let (t1, no) := holdTag h (heldCount ts) { slot := n, row := row, dirty := false, hold := false }
      (ts ++ [t1], no, false)
    | none =>
      match ts.find? (fun t => !t.hold) with
      | none => (ts, h, false)
      | some v =>
        let rest := ts.filter (fun t => t.slot != v.slot)
        let (t1, no) := holdTag h (heldCount rest) { slot := v.slot, row := row, dirty := false, hold := false }
        (rest ++ [t1], no, v.dirty)

/-- A demotion of the slot that holds `row` (R107), and whether it copied back. -/
def demoteRow (row : Nat) (ts : List PromoTag) : List PromoTag × Bool :=
  (ts.filter (fun t => t.row != row), ts.any (fun t => t.row == row && t.dirty))

/-- Count `b` as one. -/
def oneIf (b : Bool) : Nat := if b then 1 else 0

/-- One row operation at its bank. -/
def applyRowOp (x : Stack) (r : RowOp) : Stack :=
  let ts := look [] x.promo (subarrayOf r.addr)
  if refusing x then
    if r.kind == 2 then { x with refusedDemotions := x.refusedDemotions + 1 } else { x with refusedPromotions := x.refusedPromotions + 1 }
  else if r.kind == 2 then
    let (ts1, copied) := demoteRow (cellarRow r.addr) ts
    { x with promo := place [] x.promo (subarrayOf r.addr) ts1, dirtyDemotions := x.dirtyDemotions + oneIf copied }
  else
    let (ts1, no, copied) := promoteRow (r.kind == 1) (cellarRow r.addr) ts
    { x with
      promo := place [] x.promo (subarrayOf r.addr) ts1
      refusedHolds := x.refusedHolds + oneIf no
      dirtyDemotions := x.dirtyDemotions + oneIf copied }

/-- One row less to go for the instruction numbered `id`. -/
def rowDone (id : Nat) (c : Core) : Core :=
  { c with rowOps := c.rowOps.map (fun q => if q.2.1 == id then (q.1 - 1, q.2) else q) }

/-- The `n`-th row operation of a stack, when it is the oldest of its bank and of the kind asked for (R105). -/
def rowEvent (demote : Bool) (s : State) : State :=
  let k := s.arg.stack.toNat
  let x := stackAt s k
  match x.rowOps[s.arg.n]? with
  | none => s
  | some r =>
    if (r.kind == 2) != demote || (x.rowOps.take s.arg.n).any (fun q => bankOf q.addr == bankOf r.addr) then s
    else
      let s1 := setStack s k { applyRowOp x r with rowOps := x.rowOps.eraseIdx s.arg.n }
      modCoreAt s1 r.core (rowDone r.seq)

def execEvPromotion (s : State) : Host.Outcome State Fault Refusal := .next (rowEvent false s)
def execEvDemotion (s : State) : Host.Outcome State Fault Refusal := .next (rowEvent true s)

/-- ROW_OPERATIONS_DONE (R110): the `n`-th unfinished instruction has no row left and pushes its tokens. -/
def execEvRowOperationsDone (s : State) : Host.Outcome State Fault Refusal :=
  let s := focus s s.arg.core.toNat
  match s.core.rowOps[s.arg.n]? with
  | some (0, id, push, seq) =>
    .next (modCore s (fun c => pushCommand { c with rowOps := c.rowOps.eraseIdx s.arg.n } .a push id { src := Eng.a.num, seq := seq, cmd := some id, clk := s.clk }))
  | some (_ + 1, _, _, _) | none => .next s

/-! ### Refresh, scrubbing and heartbeats (R112 to R114) -/

/-- Rows of a bank, the span of one refresh or scrub position. -/
def bankRows : Nat := 32768

/-- REFRESH (R112): the manager refreshes the next row of every bank. -/
def execEvRefresh (s : State) : Host.Outcome State Fault Refusal :=
  .next (modStack s s.arg.stack.toNat (fun x => if x.failed then x else { x with refreshRow := (x.refreshRow + 1) % bankRows }))

/-- clk between heartbeats, and in a fallback refresh round of 16 ms (R112, R113). -/
def beatClk : Nat := 700
def roundClk : Nat := 11200000

/-- HEARTBEAT (R112, R114): the count of missing ones is cancelled; eight ready ones in a row earn the handback. -/
def execEvHeartbeat (s : State) : Host.Outcome State Fault Refusal :=
  .next (modStack s s.arg.stack.toNat (fun x =>
    { x with lastBeat := s.clk, missed := 0, handedBack := false
             readyBeats := if x.failed && s.arg.ready then x.readyBeats + 1 else 0 }))

/-- HEARTBEAT_MISSED (R113): one more heartbeat is not there when due; the fourth is the detection. -/
def execEvHeartbeatMissed (s : State) : Host.Outcome State Fault Refusal :=
  .next (modStack s s.arg.stack.toNat (fun x =>
    if s.clk < x.lastBeat + beatClk * (x.missed + 1) then x
    else if x.failed then { x with missed := x.missed + 1, readyBeats := 0 }
    else if x.missed + 1 < 4 then { x with missed := x.missed + 1 }
    else { x with missed := x.missed + 1, failed := true, failedAt := s.clk, fallbackStart := none, readyBeats := 0, handedBack := false
                  fallbackEntries := x.fallbackEntries + 1 }))

/-- FALLBACK_REFRESH (R113): the controller's sequencer refreshes; the first one starts its rounds and posts STACK_FALLBACK. -/
def execEvFallbackRefresh (s : State) : Host.Outcome State Fault Refusal :=
  let k := s.arg.stack.toNat
  let x := stackAt s k
  if !x.failed then .next s
  else
    let x1 := { x with refreshRow := (x.refreshRow + 1) % bankRows }
    match x.fallbackStart with
    | some _ => .next (setStack s k x1)
    | none => .next (postMgmt (setStack s k { x1 with fallbackStart := some s.clk }) (k / 2) 1 (k % 2) [0, 0])

/-- The present clk ends a fallback round of a stack whose manager has been ready for eight heartbeats (R114). -/
def handbackDue (s : State) (x : Stack) : Bool :=
  match x.fallbackStart with
  | some t => x.failed && decide (8 ≤ x.readyBeats) && decide (t < s.clk) && (s.clk - t) % roundClk == 0
  | none => false

/-- What a stack owes in the present clk: a heartbeat that comes or is found missing, the handback at the end of the round (R113,
R114). -/
def stackOwed (s : State) (k : Nat) : Bool :=
  let x := stackAt s k
  decide (x.lastBeat + beatClk * (x.missed + 1) ≤ s.clk) || handbackDue s x

/-- The first fallback refresh has not come within 700 clk of the detection, 3,500 clk after the last good heartbeat: that is fatal
(R113, R434). -/
def refreshLate (s : State) (k : Nat) : Bool :=
  let x := stackAt s k
  x.failed && x.fallbackStart.isNone && decide (x.failedAt + beatClk ≤ s.clk)

/-- REFRESH_HANDBACK (R114): at the end of a round, after eight ready heartbeats. -/
def execEvRefreshHandback (s : State) : Host.Outcome State Fault Refusal :=
  let k := s.arg.stack.toNat
  let x := stackAt s k
  if handbackDue s x then
    .next (postMgmt (setStack s k { x with failed := false, fallbackStart := none, readyBeats := 0, handedBack := true }) (k / 2) 2 (k % 2) [0, 0])
  else .next s

/-! ### Errors in DRAM (R115 to R117) -/

/-- Physical row of an address, through its promotion slot where a tag names it (R117). -/
def physicalRow (s : State) (pa : Nat) : Nat :=
  if classOf pa == 0 then
    match (look [] (stackAt s (stackOf pa)).promo (subarrayOf pa)).find? (fun t => t.row == cellarRow pa) with
    | some t => 32 + t.slot
    | none => 64 + cellarRow pa
  else nbitsOf pa 30 26

/-- The uncorrectable-error record (R117): kind 0 read, 1 scrubber. -/
def errorRecord (s : State) (pa kind unit core : Nat) : List Word :=
  let who := if kind == 1 then 0 else core / 64 * 2 ^ 46 + core % 64 * 2 ^ 40
  [BitVec.ofNat 64 (pa / 32 * 32 + kind * 2 ^ 60),
   BitVec.ofNat 64 (physicalRow s pa * 2 ^ 3 + nbitsOf pa 25 21 * 2 ^ 13 + nbitsOf pa 20 15 * 2 ^ 18 + nbitsOf pa 14 10 * 2 ^ 24 +
     stackOf pa * 2 ^ 29 + unit * 2 ^ 37 + who)]

/-- An error found at address `pa` is counted (R115, R116). -/
def countError (s : State) (pa : Nat) (e : DramErr) : State :=
  modStack s (stackOf pa) (fun x =>
    match e with
    | .corrected => { x with corrected := x.corrected + 1 }
    | .uncorrectable => { x with uncorrectable := x.uncorrectable + 1 })

/-- The granule of `pa` has gone bad in DRAM, where the scrubber rewrites it as poisoned: beneath a line that its slice holds sound, the
line stays as it is (R116). -/
def rotGranule (s : State) (pa : Nat) : State :=
  match (sliceOf s pa).lines.find? (fun l => l.line == pa / 128) with
  | some l =>
    modSlice (promoWrite s pa (if l.dirty then l.since else s.now)) pa (fun x => { x with lines := x.lines.map (fun k =>
      if k.line == pa / 128 then { k with under := dedupNat (pa / 32 :: k.under) } else k) })
  | none => poisonGranule s pa

/-- What the check bits found at address `pa` (R115, R116): one that cannot be corrected poisons the granule. -/
def dramError (s : State) (pa : Nat) : Option DramErr → State
  | none => s
  | some .corrected => countError s pa .corrected
  | some .uncorrectable => countError (rotGranule s pa) pa .uncorrectable

/-- The error that the DRAM read of a request has met is counted, and one that cannot be corrected is recorded with the die of
its requester (R115 to R117). -/
def reportError (s : State) (q : L2Req) : State :=
  match q.err with
  | none => s
  | some (a, .corrected) => countError s a .corrected
  | some (a, .uncorrectable) =>
    modDie (countError s a .uncorrectable) (dieOfCore (q.who / 8)) (fun d => { d with
      dramErrors := d.dramErrors ++ errorRecord s a 0 (q.who % 8) (q.who / 8) })

/-- A read of `who` that allocates nothing and is served at once: a hit renews the line's recency, a miss reads DRAM, whose check bits
report (R115 to R117, R120, R127). -/
def readThrough (s : State) (who pa : Nat) : State :=
  if 2 ≤ classOf pa then s
  else
    let err := checkBits s pa
    let s := match err with
      | some (a, .uncorrectable) => poisonGranule s a
      | some (_, .corrected) | none => s
    reportError (modSlice s pa (fun x => { x with lines := toFront (fun l => l.line == pa / 128) x.lines })) { line := pa / 128, policy := 2, write := false, who := who, err := err }

/-- An address of DRAM. -/
def inDram (pa : Nat) : Bool := decide (classOf pa < 2) && decide (pa < 2 ^ 52) && backed pa

/-- SCRUB (R112, R115, R116): the manager scrubs a row; an error it cannot correct is recorded with the host. -/
def execEvScrub (s : State) : Host.Outcome State Fault Refusal :=
  let k := s.arg.stack.toNat
  let pa := s.arg.addr
  if (stackAt s k).failed then .next s
  else
    let s := modStack s k (fun x => { x with scrubRow := (x.scrubRow + 1) % bankRows })
    if !inDram pa || stackOf pa != k then .next s
    else
      let rec' := errorRecord s pa 1 4 0
      let s := dramError s pa s.arg.dramErr
      if s.arg.dramErr == some .uncorrectable then .next (postMgmt s (k / 2) 3 (k % 2) rec') else .next s

end Sys2Proof.Machine
end

