-- ==== Sys2Proof/Machine/Fetch.lean ====
section
/-!
DEFINITION. An engine's arrival at its next instruction: leaving and halting, groups and the slip window (R361 to R365,
R380, R425), what it passes without a clk (R361), faults recorded against it (R413), modes (R382, R383), fetch through the TLB and the die's code cache (R127, R128, R137), decoding (R366, R69).
-/
namespace Sys2Proof.Machine

/-! ### The die's code cache -/

/-- Code pages are 16 KiB and sectors 256 bytes (R127). -/
def codePageOf (pa : Nat) : Nat := pa / 16384
def sectorOf (pa : Nat) : Nat := pa % 16384 / 256

/-- A valid sector of the die's code cache. -/
def cachedSector (d : Die) (pa : Nat) : Option CodeSector :=
  (d.codeCache.find? (fun p => p.page == codePageOf pa)).bind (fun p => findKey p.sectors (sectorOf pa))

/-- The moment of the code cache's copy of a sector, if it is valid. -/
def sectorMoment (d : Die) (pa : Nat) : Option Nat := (cachedSector d pa).map CodeSector.moment

/-- The page becomes the most recent of its set. -/
def touchCode (d : Die) (page : Nat) : Die := { d with codeCache := toFront (fun p => p.page == page) d.codeCache }

/-- The page that gives way when page `page` enters a full set (R127). -/
def codeVictim (d : Die) (page : Nat) : Option CodePage :=
  let inSet := d.codeCache.filter (fun q => q.page % 128 == page % 128)
  if 16 ≤ inSet.length then inSet.getLast? else none

/-- A sector read at the home slice now, for core `who` (R128): the errors in it, and the cores that may count them (R415). -/
def newSector (s : State) (pa who : Nat) : CodeSector :=
  let g := pa / 256 * 8
  let holders := (s.cur :: s.others.map Prod.fst).filter (fun c =>
    dieOfCore c == dieOfCore who && (coreAt s c).codeBuffer.any (fun f => f.page == codePageOf pa))
  { moment := s.now, bad := ((List.range 8).map (fun i => g + i)).filter (fun g => memPoisoned s (32 * g))
    cores := sortNat (dedupNat (who :: holders)) }

/-- Put a sector into its page as the most recent page of its set; a new page takes the least recent way of a full set (R127). -/
def putSector (d : Die) (pa : Nat) (x : CodeSector) : Die :=
  let page := codePageOf pa
  match d.codeCache.find? (fun p => p.page == page) with
  | some p =>
    { d with codeCache := { p with sectors := setKey p.sectors (sectorOf pa) x } :: d.codeCache.filter (fun q => q.page != page) }
  | none =>
    let kept := match codeVictim d page with | some v => d.codeCache.filter (fun q => q.page != v.page) | none => d.codeCache
    { d with codeCache := { page := page, sectors := [(sectorOf pa, x)] } :: kept }

/-- Lines of a sector. -/
def sectorLines (pa : Nat) : List Nat := [pa / 256 * 256, pa / 256 * 256 + 128]

/-- The sector at `pa` has to be read at its home slice, which has other requests for one of its lines before (R120). -/
def sectorWaits (s : State) (pa : Nat) : Bool := (cachedSector (dieAt s (dieOfCore s.cur)) pa).isNone && (sectorLines pa).any (sliceBusy s)

/-- A request of core `who` for the sector at `pa` is served by its die's code cache, which fills the sector through the home slice
where it does not hold it; a copy it holds stays as it is (R127, R128). -/
def fillSector (s : State) (pa who : Nat) : State :=
  let die := dieOfCore who
  let d := dieAt s die
  match cachedSector d pa with
  | some _ => setDie s die (touchCode d (codePageOf pa))
  | none =>
    let lost := match d.codeCache.find? (fun p => p.page == codePageOf pa), codeVictim d (codePageOf pa) with
      | none, some v => v.sectors.map Prod.snd
      | none, none | some _, _ => []
    let s1 := (sectorLines pa).foldl (fun s a => readThrough s (8 * who + 5) a) s
    lost.foldl countLost (modDie s1 die (fun d => putSector d pa (newSector s1 pa who)))

/-- An error in the parcel at `pa` has been executed: it is counted no more (R415). -/
def executed (s : State) (pa : Nat) : State :=
  modDie s (dieOfCore s.cur) (fun d => { d with codeCache := d.codeCache.map (fun p =>
    if p.page == codePageOf pa then
      { p with sectors := p.sectors.map (fun q => if q.1 == sectorOf pa then (q.1, { q.2 with run := pa / 32 :: q.2.run }) else q) }
    else p) })

/-- A code byte of the die's code cache, where its sector is valid. -/
def codeByte (s : State) (d : Die) (pa : Nat) : Option Byte := (sectorMoment d pa).map (fun m => byteAt s m pa)

/-- Every element of a list of options, or none. -/
def allSome {α : Type} : List (Option α) → Option (List α)
  | [] => some []
  | none :: _ => none
  | some a :: l => (allSome l).map (fun r => a :: r)

/-- A parcel of code. -/
def codeParcel (s : State) (d : Die) (pa : Nat) : Option (BitVec 32) :=
  (allSome ((List.range 4).map (fun i => codeByte s d (pa + i)))).map (fun bs => BitVec.ofNat 32 (leNat bs))

/-- The parcel at `pa` lies in a granule whose error the cache's copy carries. -/
def parcelBad (d : Die) (pa : Nat) : Bool :=
  match cachedSector d pa with
  | some x => x.bad.contains (pa / 32)
  | none => false

/-- Ask for a sector of code (R127). -/
def askSector (s : State) (pa : Nat) : State :=
  modCore s (fun c => if c.codeRequests.contains (pa / 256) then c else { c with codeRequests := c.codeRequests ++ [pa / 256] })

/-- The next invalid sector of a page after `k`, wrapping round. -/
def nextInvalid (d : Die) (page k : Nat) : Option Nat :=
  ((List.range 63).map (fun i => (k + 1 + i) % 64)).find? (fun j => (sectorMoment d (page * 16384 + 256 * j)).isNone)

/-- What a fetch finds at an address: it waits, and `eff` is what it asks for; it fails; or the value. -/
inductive Fetched (α : Type) where
  | wait (eff : State → State)
  | bad (f : FaultRec)
  | got (x : α)

/-- One parcel for engine `e`: the parcel, whether it is poisoned, the mode of its page. -/
def fetchParcel (s : State) (e : Eng) (v : Nat) : Fetched (BitVec 32 × Bool × Bool) :=
  let d := dieAt s (dieOfCore s.cur)
  match translate s e v { x := true } with
  | .miss => .wait (askWalk v { x := true })
  | .bad f => .bad f
  | .ok t pa =>
    match codeParcel s d pa with
    | none => .wait (fun s => askSector s (if (sectorMoment d pa).isNone then pa else pa + 3))
    | some p => .got (p, parcelBad d pa, t.leaf.getLsbD 56)

/-- The `n` further parcels of an instruction, from address `v`: a fetch fault of any of them comes first (R69, R412). -/
def fetchRest (s : State) (e : Eng) : Nat → Nat → Decoded → Fetched Decoded
  | 0, _, x => .got x
  | n + 1, v, x =>
    match fetchParcel s e v with
    | .wait f => .wait f
    | .bad f => .bad f
    | .got (p, m, _) => fetchRest s e n (v + 4)
        { x with parcels := x.parcels ++ [p], mark := x.mark || m, badAt := if m && !x.mark then x.parcels.length else x.badAt }

/-- The instruction at `pc` is another engine's, which `e` passes over (R50). -/
def passesOver (e : Eng) (pc : Nat) (p0 : BitVec 32) : Bool :=
  let t := cutTag pc p0
  t != e.num && t != tagS

/-- The instruction at `pc` as engine `e` reads it (R50, R366): of one that it passes over, the first parcel. -/
def fetchInstr (s : State) (e : Eng) (pc : Nat) : Fetched Decoded :=
  match fetchParcel s e pc with
  | .wait f => .wait f
  | .bad f => .bad f
  | .got (p0, m, mode) =>
    let x : Decoded := { addr := pc, parcels := [p0], mark := m, exposed := mode }
    if passesOver e pc p0 then .got x else fetchRest s e (parcelsOf p0 - 1) (pc + 4) x

/-! ### The decode slot (R366) -/

/-- Address after a decoded instruction. -/
def Decoded.next (d : Decoded) : Nat := d.addr + 4 * parcelsOf (d.parcels.headD 0)

/-- Instructions in an engine's decoded queue that it is to issue; only they take its places. -/
def ownDecoded (e : Eng) (l : List Decoded) : Nat := (l.filter (fun d => !passesOver e d.addr (d.parcels.headD 0))).length

/-- Up to `k` more instructions of engine `e` that begin in the 64-byte window `w`, with those it passes over, from `pc` on. -/
def decodeFrom (s : State) (e : Eng) (w : Nat) : Nat → Nat → Nat → List Decoded
  | 0, _, _ => []
  | n + 1, k, pc =>
    if pc / 64 != w then []
    else
      match fetchInstr s e pc with
      | .wait _ | .bad _ => []
      | .got d =>
        let own := !passesOver e pc (d.parcels.headD 0)
        if own && k == 0 then [] else d :: decodeFrom s e w n (if own then k - 1 else k) d.next

/-- Decoded instructions of an engine from its program counter on. -/
def queueAtPc (x : Engine) : List Decoded := x.decoded.dropWhile (fun d => d.addr != x.pc)

/-- The pages that decoded instructions were read through are used (R137). -/
def touchPages (s : State) (e : Eng) (l : List Decoded) : State :=
  (dedupNat (l.map (fun d => d.addr / 16384))).foldl (fun s p =>
    match translate s e (16384 * p) { x := true } with
    | .ok t _ => touchTlb s t
    | .miss | .bad _ => s) s

/-- The slot serves engine `e` in window `w`: up to four instructions, while its queue of eight has room. -/
def serve (s : State) (w : Nat) (e : Eng) : State :=
  let x := s.core.eng e
  let q := queueAtPc x
  let from' := match q.getLast? with | some d => d.next | none => x.pc
  let room := 8 - ownDecoded e q
  if x.pc / 64 != w || x.halted then s
  else
    let more := decodeFrom s e w 16 (Nat.min 4 room) from'
    modEng (touchPages s e more) e (fun x => { x with decoded := q ++ more })

/-- The engine that holds the slot. -/
def holderOf (c : Core) : Eng := allEngs.getD c.holder .c

/-- Its decoded queue has room. -/
def hasRoom (c : Core) (e : Eng) : Bool := decide (ownDecoded e (queueAtPc (c.eng e)) < 8)

/-- The slot passes at the end of a clk, to the next engine that has room and does not wait, where there is one (R366). -/
def passHolder (c : Core) (waits : Eng → Bool) : Core :=
  let h := holderOf c
  let others := [1, 2, 3].map (fun i => allEngs.getD ((c.holder + i) % 4) .c)
  let c := { c with switched := false }
  if !hasRoom c h || waits h then
    match others.find? (fun e => hasRoom c e && !waits e) with | some e => { c with holder := e.num } | none => c
  else c

/-- Some engine still fetches from the granule of a failed walk, whose result waits for it; of any other fetch it is forgotten. -/
def stillFetches (c : Core) (p : WalkFail) : Bool :=
  !p.ask.want.x || allEngs.any (fun e =>
    let x := c.eng e
    let a := match (queueAtPc x).getLast? with | some d => d.next | none => x.pc
    a / 65536 == p.granule || (a + 8) / 65536 == p.granule)

/-- The decode slot of the current core in the clk that ends. `waits` says which engines wait. -/
def decodeSlot (s : State) (waits : Eng → Bool) : State :=
  if !s.core.running || s.core.frozen then s
  else
    let pc := (s.core.eng (holderOf s.core)).pc
    let s1 := allEngs.foldl (fun s e => serve s (pc / 64) e) s
    let s2 := match translate s .c pc { x := true } with
      | .ok _ pa => modDie s1 (dieOfCore s1.cur) (fun d => touchCode d (codePageOf pa))
      | .miss | .bad _ => s1
    let switched := s.core.switched
    modCore s2 (fun c => passHolder { c with walkFail := c.walkFail.filter (stillFetches c) } (fun e => waits e || (switched && e == holderOf c)))

/-! ### Arrival -/

/-- What an engine finds. -/
inductive Arrival where
  /-- It does not issue in this step. -/
  | stay (s : State)
  /-- It stands at `i`, an instruction of its own tag or of tag S. -/
  | run (s : State) (i : Instr)

/-- Group of the trailing engine, among those in no stretch (R365). -/
def trailing (c : Core) : Option Nat :=
  ((allEngs.map c.eng).filter (fun x => x.stretch.isNone)).foldl (fun t x =>
    match t with | none => some x.walk | some n => some (Nat.min n x.walk)) none

/-- SLIPW as the slip controller reads it: a SYSW of it counts from the clk after its issue (R364). -/
def slipWord (c : Core) : Word :=
  match c.slipOld with
  | some (k, w) => if c.ck == k then w else sysNow c sysSLIPW
  | none => sysNow c sysSLIPW

/-- The slip rule lets a group begin (R365). -/
def slipOk (c : Core) (g : Nat) : Bool :=
  match trailing c with
  | none => true
  | some t => decide (g - t ≤ bits (slipWord c) 15 0)

/-- The engine before an instruction of tag `tag`: in its group, true; at a boundary the old group ends, the new one begins
when the slip rule lets it, and the engine moves on in a later turn. -/
def beginGroup (s : State) (e : Eng) (tag : Nat) : State × Bool :=
  let x := s.core.eng e
  match x.stretch with
  | some _ => (s, true)
  | none =>
    let x1 := if endsGroup x tag then { x with walk := x.walk + 1, seen := [], begun := false } else x
    if x1.begun then (s, true)
    else if slipOk s.core x1.walk then (modEng s e (fun _ => { x1 with begun := true }), false)
    else (modEng s e (fun _ => x1), false)

/-- A fault of the fetch or of the encoding, raised when the engine could issue (R413, R421). An engine still in its gap has not
yet reached the parcel, and one that comes without a gap raises in its place (R69). DESIGN CHOICE, log entry 51. -/
def raiseAt (s : State) (e : Eng) (f : FaultRec) (pc : Nat) : Arrival :=
  if engineReady s.core e then .stay (takeTrap s e f pc) else .stay s

/-- The engine stands at a decoded instruction. -/
def meetInstr (s : State) (e : Eng) (d : Decoded) : Arrival :=
  let x := s.core.eng e
  let p0 := d.parcels.headD 0
  let illegal := fun (s : State) => raiseAt s e { code := .illegalInstruction, tval := p0.setWidth 64 } x.pc
  let tag := cutTag x.pc p0
  let (s1, goes) := beginGroup s e tag
  if !goes then .stay s1
  else if everyEngine x.pc p0 then illegal s1
  else if tag != e.num && tag != tagS then .stay (modEng s1 e (fun x => passed (noteAhead s1.core e p0 x) tag d.next))
  else
    match decodeMain p0 (d.parcels.getD 1 0) (d.parcels.getD 2 0) with
    | .error _ => illegal s1
    | .ok i => .run s1 i

/-- Results of the core still to be written: of one engine, or of all. -/
def pendingOf (c : Core) (e : Eng) : Bool := c.landing.any (fun l => l.eng == e)

/-- Mode of the page the engine is on against the one it comes from (R378, R383). True: it may go on. An engine back from a miss
stretch comes from the mode of its walk; where the page has the other one, it stands at a crossing as the others do. DEDUCED, log entry 81. -/
def crossMode (s : State) (e : Eng) (mode : Bool) : State × Bool :=
  let x := s.core.eng e
  let goesOn := (modEng s e (fun x => { x with exposed := some mode, returned := false }), true)
  if x.returned && x.home.isSome && x.home != some mode then
    if x.exposed != x.home && pendingOf s.core e then (s, false)
    else (modEng s e (fun x => { x with exposed := x.home, returned := false, atCross := true }), false)
  else if x.exposed == some mode || x.exposed.isNone then goesOn
  else if x.stretch.isSome || x.returned || x.joined then
    if pendingOf s.core e then (s, false) else goesOn
  else (modEng s e (fun x => { x with atCross := true }), false)

/-- Poison in the parcels that the engine has reached counts as a fetch of them (R412, R415); its address is that of the first
poisoned one (R433). -/
def meetPoison (s : State) (e : Eng) (d : Decoded) : Arrival :=
  if engineReady s.core e then
    let s1 := match translate s e d.addr { x := true } with
      | .ok _ pa => (List.range d.parcels.length).foldl (fun s i => executed s (pa + 4 * i)) s
      | .miss | .bad _ => s
    .stay (consumePoison s1 e d.addr (BitVec.ofNat 64 (d.addr + 4 * d.badAt)))
  else .stay s

/-- The engine looks at its program counter: a decoded instruction stands there, or it waits for the decode slot and meets
the faults of its fetch, which leave its counter at the parcel that has them, whose address is TVAL too (R366, R413). -/
def arriveAt (s : State) (e : Eng) : Arrival :=
  match queueAtPc (s.core.eng e) with
  | d :: rest =>
    let (s1, goes) := crossMode s e d.exposed
    if !goes then .stay s1
    else
      let s2 := modEng s1 e (fun x => { x with decoded := d :: rest })
      if d.mark then meetPoison s2 e d else meetInstr s2 e d
  | [] =>
    match fetchInstr s e (s.core.eng e).pc with
    | .wait f => .stay (f s)
    | .bad f => raiseAt s e f f.tval.toNat
    | .got _ => .stay s

/-- The engine is brought to the SYNCPC.d of a leave (R380). -/
def leaves (c : Core) (x : Engine) : Option Nat :=
  match c.leaving with
  | some (b, pc) => if !x.joined && decide (b < x.walk) then some pc else none
  | none => none

/-- A SYSW of PRCFG at which the control engine waits is not performed when the engine leaves it (R191, R380). -/
def leaveWait (s : State) (e : Eng) : State := if e == .c then modCore s (fun c => { c with prcfgWait := none }) else s

/-- The engine stands beyond the group of the HALT (R425). -/
def pastHalt (c : Core) (x : Engine) : Bool :=
  match c.haltAt with
  | some g => decide (g < x.walk)
  | none => false

/-- A system register that the device's units read of themselves: all but the counters, the trap registers and the task's own
numbers, which only SYSR reads. -/
def sysControl (n : Nat) : Bool :=
  n != sysFPTH && !(decide (sysFEC ≤ n) && decide (n ≤ 0x5F)) && n != sysWABS && n != sysWFRZ && n != sysLSES && n != sysLWAIT &&
    decide (n ≤ sysTVEC)

/-- Poison in the engine's own state or in a register that its units read, which its next issue consumes (R431): DESIGN CHOICE,
log entry 65. -/
def stateMarked (c : Core) (e : Eng) : Bool := c.engMarks.contains e.num || c.sys.poison.any (fun p => p.2 && sysControl p.1)

/-- Engine `e` stands at a decoded instruction of another engine, which it passes without a clk (R361). -/
def skips (s : State) (e : Eng) : Bool :=
  let x := s.core.eng e
  s.core.running && clkOpen s.core && !x.halted && !x.atCross && !pastHalt s.core x && (leaves s.core x).isNone &&
    match queueAtPc x with
    | d :: _ => passesOver e x.pc (d.parcels.headD 0) && !d.mark
    | [] => false

/-- Engine `e` passes such instructions as far as the slip rule lets it. -/
def skipOn : Nat → State → Eng → State
  | 0, s, _ => s
  | n + 1, s, e =>
    if skips s e then
      match arriveAt s e with
      | .stay t => if t.core.eng e == s.core.eng e then t else skipOn n t e
      | .run t _ => t
    else s

/-- Every engine of the current core has passed what it passes in this clk. -/
def skipAll (s : State) : State := (allEngs ++ allEngs ++ allEngs ++ allEngs).foldl (skipOn 32) s

/-- Engine `e` stands at an instruction that it issues: of its own tag or tag S, decoded and reached (R361). -/
def standsAt (c : Core) (e : Eng) : Bool :=
  let x := c.eng e
  match x.decoded with
  | d :: _ =>
    let t := cutTag x.pc (d.parcels.headD 0)
    engineReady c e && !x.atCross && d.addr == x.pc && (t == e.num || t == tagS)
  | [] => false

/-- A fault recorded against an engine is raised at its next instruction (R413, R416). Of engines that fault in one clk the
first in the order C, A, V, W is reported (R414), and of a fault and poison the poison counts (R430): no other engine stands at an
instruction that it could issue. An engine that issues raises the fault in its own turn. -/
def execEvTrapEntry (s : State) : Host.Outcome State Fault Refusal :=
  let s := focus s s.arg.core.toNat
  match allEngs.filter (standsAt s.core) with
  | [] | _ :: _ :: _ => .next s
  | [e] =>
    match (s.core.eng e).owed with
    | [] => .next s
    | f :: fs =>
      let s := skipAll s
      .next (takeTrap (modEng s e (fun x => { x with owed := fs })) e { f with popped := (s.core.eng e).noPop } (s.core.eng e).pc)

/-- Engine `e` of the current core arrives at its next instruction. -/
def arrive (s : State) (e : Eng) : Arrival :=
  let x := s.core.eng e
  if !s.core.running || !clkOpen s.core || x.halted then .stay s
  else if stateMarked s.core e && engineReady s.core e then .stay (consumePoison s e x.pc 0)
  else if pastHalt s.core x then .stay (modEng s e (fun x => { x with halted := true }))
  else
    match leaves s.core x with
    | some pc =>
      .stay (leaveWait (modEng s e (fun x => { x with
        pc := pc, stretch := none, joined := true, atSync := false, atCross := false, seen := [], begun := true, decoded := [] })) e)
    | none => if x.atCross then .stay s else arriveAt s e

/-- MODE_CROSSING (R383): all four engines stand at the crossing, nothing is pending, and every outcome queue is empty. -/
def execEvModeCrossing (s : State) : Host.Outcome State Fault Refusal :=
  let s := focus s s.arg.core.toNat
  if allEngs.all (fun e => (s.core.eng e).atCross) && s.core.landing.isEmpty && s.core.outcomes.all (fun q => q.2.isEmpty) then
    .next (modCore s (fun c => modEngs c (fun x => { x with atCross := false, exposed := x.exposed.map (fun b => !b) })))
  else .next s

/-- A page of code arrives in the current core's code buffer, each sector of it through the die's code cache (R127, R271). -/
def fillBuffer (s : State) (page : Nat) : State :=
  let s1 := (List.range 64).foldl (fun s k => fillSector s (16384 * page + 256 * k) s.cur) s
  let held : Sparse CodeSector := (List.range 64).filterMap (fun k =>
    (cachedSector (dieAt s1 (dieOfCore s1.cur)) (16384 * page + 256 * k)).map (fun x => (k, x)))
  let was : Sparse CodeSector := match s1.core.codeBuffer.find? (fun f => f.page == page) with | some f => f.sectors | none => []
  let sectors := held.map (fun q => (q.1, (findKey was q.1).getD q.2))
  modCore s1 (fun c => { c with
    codeBuffer := { page := page, sectors := sectors } :: (c.codeBuffer.filter (fun f => f.page != page)).take 15
    bufferRequests := c.bufferRequests.filter (fun p => p != page) })

/-- CODE_FETCH_ARRIVAL (R120, R127, R271): the `n`-th sector a core has asked for arrives, and the following sectors of its page
are fetched in turn; or a page arrives in its code buffer. -/
def execEvCodeFetchArrival (s : State) : Host.Outcome State Fault Refusal :=
  let s := focus s s.arg.core.toNat
  let die := dieOfCore s.cur
  match s.core.codeRequests[s.arg.n]? with
  | some k =>
    if sectorWaits s (256 * k) then .next s else
    let s1 := fillSector s (256 * k) s.cur
    let page := k / 64
    let rest := s.core.codeRequests.eraseIdx s.arg.n
    let rest := match nextInvalid (dieAt s1 die) page (k % 64) with
      | some j => if rest.contains (64 * page + j) then rest else rest ++ [64 * page + j]
      | none => rest
    .next (modCore s1 (fun c => { c with codeRequests := rest }))
  | none =>
    match s.core.bufferRequests[s.arg.n - s.core.codeRequests.length]? with
    | none => .next s
    | some page => if (List.range 64).any (fun k => sectorWaits s (16384 * page + 256 * k)) then .next s else .next (fillBuffer s page)

end Sys2Proof.Machine
end

