-- ==== Sys2Proof/Machine/Engine.lean ====
section
/-!
DEFINITION. The engine and register window (R142 to R147, R473): FIFOs, PUSHE and POPE, and what the shared engines of a
die have in common: taking commands, reading and writing memory for them (R346), posting results.
-/
namespace Sys2Proof.Machine

/-! ### FIFOs -/

/-- Numbers of the FIFOs, their window offsets divided by 64. -/
abbrev fifoCode : Nat := 0
abbrev fifoWalk : Nat := 1
abbrev fifoMigration : Nat := 2
abbrev fifoGoleus : Nat := 3
abbrev fifoSampler : Nat := 4
abbrev fifoGrammar : Nat := 5
abbrev fifoCollective : Nat := 6
abbrev fifoSpawn : Nat := 7
abbrev fifoDecoder : Nat := 8
abbrev fifoCopy : Nat := 0x400
abbrev fifoMail : Nat := 0x800

/-- Words of a FIFO's commands and its depth (R142). -/
def fifoShape (k : Nat) : Nat × Nat :=
  if fifoMail ≤ k then (1, 16)
  else if fifoCopy ≤ k then (13, 32)
  else if fifoDecoder ≤ k then (2, 64)
  else
    match k with
    | 0 => (2, 64)
    | 1 => (2, 64)
    | 2 => (4, 16)
    | 5 => (4, 64)
    | 7 => (8, 256)
    | _ => (8, 64)

def fifoAt (s : State) (d k : Nat) : Fifo := look {} (dieAt s d).fifos k

def setFifo (s : State) (d k : Nat) (f : Fifo) : State := modDie s d (fun x => { x with fifos := place {} x.fifos k f })

/-- The context `n` of a die. -/
def contextOn (d : Die) (n : Nat) : Option Context := d.contexts.find? (fun c => c.num == n)

/-- Mailbox `m` of die `d` is the context's (R392). -/
def mailboxOf (s : State) (d m ctx : Nat) : Bool :=
  match contextOn (dieAt s d) ctx with
  | some c => decide (c.mailFirst ≤ m) && decide (m < c.mailFirst + c.mailCount)
  | none => false

/-- The FIFO at a physical address the current core may reach: its die and number (R143, R145). -/
def fifoReached (s : State) (pa : Nat) : Option (Nat × Nat) :=
  let d := windowDie pa
  let off := windowOffset pa
  let k := off / 64
  if classOf pa != 3 || !isFifo off || off % 64 != 0 then none
  else if decide (fifoCopy ≤ k) && decide (k < fifoMail) && !(d == dieOfCore s.cur && k - fifoCopy == s.cur % 64) then none
  else if decide (fifoMail ≤ k) && !mailboxOf s d (k - fifoMail) (s.core.ctx.getD 0) then none
  else some (d, k)

/-- Results waiting for context `ctx` (R146). -/
def resultsOf (f : Fifo) (ctx : Nat) : List Res := f.results.filter (fun r => r.ctx == ctx)

/-- The oldest command whose context has fewer than 256 results waiting (R146): one of another context passes a command that this
limit holds, though commands start in the order of the FIFO. DESIGN CHOICE, log entry 71. -/
def firstCmd (f : Fifo) : Option Cmd := f.cmds.find? (fun c => decide ((resultsOf f c.ctx).length < 256))

/-- The command an engine starts next; one that is poisoned is not performed, its reading starts the rollback (R431, R432). -/
def nextCmd (f : Fifo) : Option Cmd := (firstCmd f).filter (fun c => !c.mark)

/-- Take a command out of its FIFO. -/
def dropCmd (f : Fifo) (c : Cmd) : Fifo := { f with cmds := f.cmds.erase c }

/-- Put a result element into a FIFO. -/
def postRes (s : State) (d k : Nat) (r : Res) : State := setFifo s d k { fifoAt s d k with results := (fifoAt s d k).results ++ [r] }

/-- Post a result element; `t` is the largest key time of the writes it certifies (R346). -/
def postResult (s : State) (d k ctx : Nat) (v : Word) (t : Nat) (f : Option FaultRec) : State :=
  postRes s d k { ctx := ctx, val := v, release := { time := t }, fault := f }

/-- Finish a command with one result. -/
def answer (s : State) (d k : Nat) (c : Cmd) (v : Word) (t : Nat) (f : Option FaultRec) : State :=
  postResult (setFifo s d k (dropCmd (fifoAt s d k) c)) d k c.ctx v t f

/-! ### PUSHE and POPE (R144 to R147) -/

/-- Scope of a push's release (R145). -/
def pushScope (s : State) (d k : Nat) : Nat :=
  if decide (fifoCopy ≤ k) && decide (k < fifoMail) then 0 else if d == dieOfCore s.cur then 2 else 3

/-- A pushed copy command carries what a COPY reads at issue besides its own words: OVT and the level (R82), the
geometry registers (R90). -/
def issueWords (s : State) : List Word :=
  readSys s .a sysOVT :: (if privileged s.core then 1 else 0) :: (List.range 4).map (fun i => readSys s .a (sysBGM + i))

/-- Base level of the task on the current core, which bounds what it spawns (R408). -/
def spawnLevel (s : State) : Word :=
  match s.core.task.bind (findKey (dieAt s (dieOfCore s.cur)).tasks) with
  | some t => BitVec.ofNat 64 t.base
  | none => 7

/-- Place of core `c` among those that reach a FIFO of die `d` in one clk: the die's own cores first, by number (R145). -/
def fifoRank (d c : Nat) : Nat := if dieOfCore c == d then c else 256 + c

/-- A core after the current one in the order of R145 has been served at a FIFO in this clk already: the current one is served in
a later clk. `last` is the clk and the rank of that service. -/
def outOfTurn (s : State) (d : Nat) (last : Nat × Nat) : Bool := last.1 == s.clk && decide (fifoRank d s.cur < last.2)

/-- Append the command of a push whose release has been made. -/
def pushCmd (s : State) (d k : Nat) (ws : List Word) (rm : BitVec 2) : State :=
  let ws := if decide (fifoCopy ≤ k) && decide (k < fifoMail) then ws ++ issueWords s
    else if k == fifoSpawn then ws ++ [spawnLevel s] else ws
  let q := fifoAt s d k
  let r : Release := { core := some s.cur, time := s.core.clock, known := s.core.known }
  setFifo s d k { q with
    pushed := (s.clk, fifoRank d s.cur)
    cmds := q.cmds ++ [{ ctx := s.core.ctx.getD 0, core := s.cur, stamp := s.tick, task := taskMark s, words := ws, rm := rm, release := r, clk := s.clk }] }

def fifoFull (s : State) (d k : Nat) : Bool := decide ((fifoShape k).2 ≤ (fifoAt s d k).cmds.length)

/-- PUSHE and PUSHE.t (R145); `d` is the status register of PUSHE.t. -/
def pushBody (h : Hdr) (d : Option Reg) (a : Reg) (x : Src2) (p : State) : Act :=
  let v := (src2Z p .a x).toNat
  match translate p .a v { w := true } with
  | .bad f => .trap f
  | .miss => .wait (askWalk v { w := true })
  | .ok t pa =>
    match fifoReached p pa with
    | none => .trap (engineFault v)
    | some (die, k) =>
      let n := (fifoShape k).1
      let isCopy := decide (fifoCopy ≤ k) && decide (k < fifoMail)
      let locs : List Loc := (List.range n).map (fun i => .g (a.toNat + i))
      if h.rm != 0 && !isCopy then .trap (engineFault v)
      else if 64 < a.toNat + n then .trap (engineFault v)
      else if orderHeld p.core true || mustWait p.core .a locs || outOfTurn p die (fifoAt p die k).pushed then .wait nothing
      else if anyPoison p.core locs then .poison 0
      else if fifoFull p die k then
        match d with
        | none => .wait nothing
        | some r => .dropped (putG p h.eng r.toNat 0)
      else
        let ws := (List.range n).map (fun i => readG p .a (a.toNat + i))
        let p1 := pushCmd (publish (touchTlb p t) (pushScope p die k)) die k ws h.rm
        .done (match d with | none => p1 | some r => putG p1 h.eng r.toNat 1)

/-- Take an element for the current core: the element and the FIFO left. An element of a mailbox is what a core pushed. -/
def takeElement (s : State) (d k : Nat) : Option (Res × State) :=
  let f := { fifoAt s d k with popped := (s.clk, fifoRank d s.cur) }
  if fifoMail ≤ k then
    match f.cmds with
    | [] => none
    | c :: cs => some ({ ctx := c.ctx, val := wordAt c.words 0, release := c.release, mark := c.mark }, setFifo s d k { f with cmds := cs })
  else
    match f.results.find? (fun r => some r.ctx == s.core.ctx) with
    | none => none
    | some r => some (r, setFifo s d k { f with results := f.results.erase r })

/-- The core acquires exactly that element (R146): what its pusher published, what an engine wrote for its command, and the near
bytes of a copy command. -/
def acquireResult (s : State) (r : Res) : State :=
  let s := acquireElement s r.release
  match r.cmd with
  | some id => modCore s (fun c => (List.range 5).foldl (fun c reader => syncCommand c reader id) c)
  | none => s

/-- The element has been taken: the registers get it, the core acquires it, and the fault it carries is raised (R146, R147). -/
def popTaken (h : Hdr) (d : Reg) (st : Option Reg) (x : Res) (p1 : State) : Act :=
  let p2 := putG p1 h.eng d.toNat x.val
  let p3 := match st with | none => p2 | some r => putG p2 h.eng r.toNat 1
  let p4 := acquireResult p3 x
  match x.fault with
  | none => .done p4
  | some f => .trapAfter p4 { f with element := true, tval := x.val }

/-- POPE and POPE.t (R146); `st` is the status register of POPE.t. -/
def popBody (h : Hdr) (d : Reg) (x : Src2) (st : Option Reg) (p : State) : Act :=
  let v := (src2Z p .a x).toNat
  match translate p .a v { r := true } with
  | .bad f => .trap f
  | .miss => .wait (askWalk v { r := true })
  | .ok t pa =>
    match fifoReached p pa with
    | none => .trap (engineFault v)
    | some (die, k) =>
      if orderHeld p.core false || outOfTurn p die (fifoAt p die k).popped then .wait nothing
      else
        match takeElement (touchTlb p t) die k with
        | none =>
          match st with
          | none => .wait nothing
          | some r => .dropped (putG p h.eng r.toNat 0)
        | some (x, p1) => if x.mark then .poison 0 else popTaken h d st x p1

def execPushe (h : Hdr) (a : Reg) (x : Src2) (s : State) : Host.Outcome State Fault Refusal :=
  issueOut h (src2Len x) (src2Locs x) (pushBody h none a x) s

def execPusheT (h : Hdr) (d a : Reg) (x : Src2) (s : State) : Host.Outcome State Fault Refusal :=
  issueOut h (src2Len x) (src2Locs x) (pushBody h (some d) a x) s

def execPope (h : Hdr) (d : Reg) (x : Src2) (s : State) : Host.Outcome State Fault Refusal :=
  issueOut h (src2Len x) (src2Locs x) (popBody h d x none) s

def execPopeT (h : Hdr) (d a : Reg) (x : Src2) (s : State) : Host.Outcome State Fault Refusal :=
  issueOut h (src2Len x) (src2Locs x) (popBody h d x (some a)) s

/-! ### Memory as a shared engine reaches it -/

/-- Root of a context's tables on a die. -/
def rootOf (s : State) (d ctx : Nat) : Word := match contextOn (dieAt s d) ctx with | some c => c.ptb | none => 0

/-- Who makes an access: die, engine and context, with the release the engine has acquired (R147). -/
structure Agent where
  die : Nat
  unit : Nat
  ctx : Nat
  release : Release := {}
  /-- Reads and writes translate as this context's own, or the tables are read with no log at all (R347). -/
  settledOnly : Bool := false
  /-- Core whose context counts its events (R93). -/
  core : Nat := 0
deriving DecidableEq, Repr

def Cmd.agent (c : Cmd) (d k : Nat) : Agent := { die := d, unit := k, ctx := c.ctx, release := c.release, core := c.core }

/-- Translate for an agent; a class E frame is refused (R473), a class N frame needs its lender (R445). -/
def agentPage (s : State) (g : Agent) (v n : Nat) (want : Want) : State × Except FaultRec (TlbEntry × Nat) :=
  match translateNow s (rootOf s g.die g.ctx) (some (g.die, g.unit)) v want false with
  | (s, .bad f) => (s, .error f)
  | (s, .miss) => (s, .error (trFault 1 v))
  | (s, .ok t pa) =>
    match classOf pa with
    | 3 => (s, .error (engineFault v))
    | 2 => if lentReached s pa n then (s, .ok (t, pa)) else (s, .error (unbackedFault v))
    | _ => (s, .ok (t, pa))

/-- Records of the releasing core that an agent has acquired (R147, R346). -/
def agentRecords (s : State) (g : Agent) : List LogRec :=
  match g.release.core with
  | some w =>
    if g.settledOnly then []
    else (coreAt s w).log.filter (fun r => r.ctx == g.ctx && !r.settled && match r.time with | some t => decide (t ≤ g.release.time) | none => false)
  | none => []

/-- A byte as an agent reads it. -/
def agentByte (s : State) (rs : List (Nat × LogRec)) (t : TlbEntry) (a : Nat) : Byte :=
  if classOf a == 2 then lentValue s a
  else
    match leafCoh t.leaf with
    | .p | .o => memByte s a
    | .l => (rs.foldl (fun x p => overRecord s a { time := p.2.time.getD 0, num := p.1 } p.2 x) (shownByte s (leafComp t.leaf) s.now a, keysAt s a)).1

/-- A byte that an agent reads carries a mark (R116). -/
def agentPoison (s : State) (rs : List (Nat × LogRec)) (t : TlbEntry) (a : Nat) : Bool :=
  if classOf a == 2 then lentPoisoned s a
  else shownPoisoned s (leafComp t.leaf) a || rs.any (fun p => p.2.covers s a && p.2.poison)

/-- Lease renewal of the lines of an O page that an agent reads (R343). -/
def renewLines (s : State) (clock pa n : Nat) : State :=
  (dedupNat ((List.range n).map (fun i => (pa + i) / 128))).foldl (fun s l =>
    let (w, r) := look (0, 0) s.oLines l
    { s with oLines := place (0, 0) s.oLines l (w, Nat.max r (Nat.max clock w + 32)) }) s

/-- Ask the home slices for the lines of `pa .. pa + n - 1` on behalf of `who`. -/
def askLines (s : State) (who : Nat) (t : TlbEntry) (pa n : Nat) : State :=
  (dedupNat ((List.range n).map (fun i => (pa + i) / 128))).foldl (fun s l => askSlice s who (128 * l) (policyRank (leafPolicy t.leaf) 0) false) s

/-- A shared engine other than the tile fetch, acting for a core (R117). -/
def Agent.who (g : Agent) : Nat := 8 * g.core + 3

/-- Read bytes of memory for an agent, page by page; with the poison mark. -/
def agentRead (s : State) (g : Agent) (v n : Nat) : State × Except FaultRec (List Byte × Bool) :=
  (piecesOf 65536 (n / 65536 + 3) v n).foldl (fun x p =>
    match x with
    | (s, .error f) => (s, .error f)
    | (s, .ok (bs, m)) =>
      match agentPage s g p.1 p.2 { r := true } with
      | (s, .error f) => (s, .error f)
      | (s, .ok (t, pa)) =>
        let rs := (agentRecords s g).map (fun r => (g.release.core.getD 0, r))
        let as := (List.range p.2).map (fun i => pa + i)
        let s1 := askLines (if classOf pa == 2 then sendFlits s (lenderOf pa) 1 else s) g.who t pa p.2
        let s2 := if classOf pa != 2 && leafCoh t.leaf == .o then renewLines s1 g.release.time pa p.2 else s1
        (s2, .ok (bs ++ as.map (agentByte s2 rs t), m || as.any (agentPoison s2 rs t)))) (s, .ok ([], false))

/-- A write of an agent to one page: settled at once with key (T, 256) (R346); a line of an O page at its own T (R343).
Answers the largest T. -/
def agentPut (s : State) (t : TlbEntry) (clock : Nat) (ws : List (Nat × Byte × Byte)) : State × Nat :=
  match ws with
  | [] => (s, 0)
  | (pa, _, _) :: _ =>
    if classOf pa == 2 then (lentStore (sendFlits s (lenderOf pa) ((ws.length + 255) / 256)) ws false, 0)
    else
      match leafCoh t.leaf with
      | .p | .l => engineWrite s (leafComp t.leaf) clock ws
      | .o =>
        (groupBy 128 ws).foldl (fun x q =>
          let k := Nat.max (Nat.max clock (look (0, 0) x.1.oLines q.1).2) (greatestTime x.1 (q.2.map Prod.fst)) + 1
          let s := { x.1 with oLines := place (0, 0) x.1.oLines q.1 (k, k) }
          (settle s 0 { time := k, num := 256 } q.2, Nat.max x.2 k)) (s, 0)

/-- Does every page of a range translate for an agent? -/
def agentCheck (s : State) (g : Agent) (v n : Nat) (want : Want) : State × Option FaultRec :=
  (piecesOf 65536 (n / 65536 + 3) v n).foldl (fun x p =>
    match x with
    | (s, some f) => (s, some f)
    | (s, none) =>
      match agentPage s g p.1 p.2 want with
      | (s, .error f) => (s, some f)
      | (s, .ok _) => (s, none)) (s, none)

/-- Write bytes of memory for an agent, page by page; answers the largest T. -/
def agentWrite (s : State) (g : Agent) (v : Nat) (bs : List Byte) : State × Except FaultRec Nat :=
  (piecesOf 65536 (bs.length / 65536 + 3) v bs.length).foldl (fun x p =>
    match x with
    | (s, .error f) => (s, .error f)
    | (s, .ok k) =>
      match agentPage s g p.1 p.2 { w := true } with
      | (s, .error f) => (s, .error f)
      | (s, .ok (t, pa)) =>
        let (s, k1) := agentPut s t g.release.time (wholeBytes pa ((bs.drop (p.1 - v)).take p.2))
        (s, .ok (Nat.max k k1))) (s, .ok 0)

/-- Count events of context `ctx` in the core `c` that pushed the command, or in its image put aside (R94). -/
def countIn (s : State) (c ctx : Nat) (ns : List Nat) : State :=
  let back := s.cur
  if (coreAt s c).ctx == some ctx then focus (countEvents (focus s c) ns) back
  else
    match s.images.find? (fun i => i.core == c && i.ctx == ctx) with
    | none => s
    | some i =>
      let s1 := focus s c
      let s2 := countEvents { s1 with core := i.image } ns
      focus { s2 with core := s1.core, images := s2.images.map (fun x => if x == i then { i with image := s2.core } else x) } back

/-- Words and numbers of a record read from memory. -/
def recNat (bs : List Byte) (lo n : Nat) : Nat := leNat ((bs.drop lo).take n)

/-! ### Poison consumed for a task (R329, R432, R433) -/

/-- The image of a task that is put aside (R430). -/
def imageOf (m : Nat) (i : SavedImage) : Bool := i.image.task == some (m % 4096) && i.core / 64 == m / 4096

/-- Of a fault and the consumption of poison in one clk the fault is discarded (R430). -/
def unfault (s : State) (m : Nat) : State :=
  modDie s (m / 4096) (fun d => { d with tasks := d.tasks.map (fun p =>
    if p.1 == m % 4096 && p.2.faultClk == s.clk then (p.1, { p.2 with fault := none }) else p) })

/-- An engine has consumed poison on behalf of the task `mark` names. -/
def poisonTask (s : State) (mark : Option Nat) (tval : Word) : State :=
  match mark with
  | none => s
  | some m =>
    let s := { s with images := s.images.map (fun i =>
      if imageOf m i && !i.image.noRollback then { i with image := { i.image with rollback := true } } else i) }
    let s := unfault s m
    (List.range 64).foldl (fun s i =>
      let c := m / 4096 * 64 + i
      if (coreAt s c).task == some (m % 4096) then
        modCoreAt s c (fun x =>
          if x.noRollback then { x with engA := { x.engA with owed := x.engA.owed ++ [{ code := .poison, cause := 2, tval := tval }] } }
          else { x with rollback := true, running := false })
      else s) s

/-- The task a mark names is on a core and can be rolled back. -/
def canRollBack (s : State) (mark : Option Nat) : Bool :=
  match mark with
  | none => false
  | some m => (List.range 64).any (fun i =>
      let c := coreAt s (m / 4096 * 64 + i)
      c.task == some (m % 4096) && !c.noRollback) || s.images.any (fun i => imageOf m i && !i.image.noRollback)

/-- A command has met poison: its task is taken back, the command with it, or the command ends with POISON cause 2. -/
def poisonCmd (s : State) (d k : Nat) (c : Cmd) (v : Word) : State :=
  if canRollBack s c.task then poisonTask (setFifo s d k (dropCmd (fifoAt s d k) c)) c.task 0
  else answer s d k c v 0 (some { code := .poison, cause := 2 })

end Sys2Proof.Machine
end

