-- ==== Sys2Proof/Machine/Cache.lean ====
section
/-!
DEFINITION. The memory-side cache (R118 to R126), the walk pool with its commands (R137 to R140), the code cache's commands
(R130), and page migration (R164 to R166).
-/
namespace Sys2Proof.Machine

/-! ### L2 requests and fills (R120 to R123) -/

def sliceNo (s : State) : Slice := look {} (dieAt s s.arg.die.toNat).slices s.arg.n

def setSlice (s : State) (x : Slice) : State :=
  modDie s s.arg.die.toNat (fun d => { d with slices := place {} d.slices s.arg.n x })

/-- L2_REQUEST (R120): the slice serves the request at position `len`, the oldest for its line; a miss of a read starts a
fill, a request that meets a fill in flight waits for it, a write of an absent line is merged into DRAM (R121). -/
def execEvL2Request (s : State) : Host.Outcome State Fault Refusal :=
  let x := sliceNo s
  match x.requests[s.arg.len]? with
  | none => .next s
  | some r =>
    if (x.requests.take s.arg.len).any (fun q => q.line == r.line) || x.fills.any (fun f => f.line == r.line) then .next s
    else
      let x1 := { x with requests := x.requests.eraseIdx s.arg.len }
      if x.lines.any (fun l => l.line == r.line) then
        .next (reportError (setSlice s { x1 with lines := toFront (fun l => l.line == r.line) x1.lines }) r)
      else if r.write then .next (setSlice s x1)
      else .next (setSlice s { x1 with fills := x1.fills ++ [r] })

def rotl16 (n k : Nat) : Nat := (n * 2 ^ k + n / 2 ^ (16 - k)) % 65536

/-- The three filter places of an address (R123). -/
def filterPlaces (pa : Nat) : List Nat :=
  let x := nbitsOf pa 51 7
  let a := x % 65536
  let b := x / 65536 % 65536
  let c := x / 2 ^ 32 % 65536
  [a ^^^ b ^^^ c, a ^^^ rotl16 b 5 ^^^ rotl16 c 11, rotl16 a 3 ^^^ rotl16 b 8 ^^^ c]

/-- The second-touch test and its change of the filter (R123). -/
def secondTouch (x : Slice) (pa : Nat) : Slice × Bool :=
  let hs := filterPlaces pa
  if hs.all (fun h => look false x.filter h) then ({ x with misses := x.misses + 1 }, true)
  else ({ x with filter := hs.foldl (fun f h => place false f h true) x.filter, misses := x.misses + 1 }, false)

/-- Set of a line in its slice (R118). -/
def l2Set (line : Nat) : Nat := lineNumber (128 * line) % 1024

/-- Allocate a line as most recent, where it is not there already: the least recent unpinned way of a full set gives way, and
goes back to DRAM when dirty (R120). -/
def l2Allocate (s : State) (x : Slice) (line : Nat) : State :=
  let inSet := x.lines.filter (fun l => l2Set l.line == l2Set line)
  let new : L2Line := { line := line, dirty := false, pins := 0, noAlloc := false }
  if x.lines.any (fun l => l.line == line) then setSlice s { x with lines := toFront (fun l => l.line == line) x.lines }
  else if inSet.length < 16 then setSlice s { x with lines := new :: x.lines }
  else
    match (inSet.filter (fun l => l.pins == 0)).getLast? with
    | none => setSlice s x
    | some v =>
      let s1 := setSlice s { x with lines := new :: x.lines.filter (fun l => l.line != v.line) }
      leaveSlice s1 v

/-- LINE_FILL (R120, R123, R115, R116): the `len`-th fill of a slice returns from DRAM and serves the reads that wait for it, as
hits; what its check bits found is reported. -/
def execEvLineFill (s : State) : Host.Outcome State Fault Refusal :=
  let x := sliceNo s
  match x.fills[s.arg.len]? with
  | none => .next s
  | some r =>
    if r.policy == 1 && decide (65536 ≤ x.misses) then .next s
    else
      let x1 := { x with fills := x.fills.eraseIdx s.arg.len }
      let (x2, keep) := match r.policy with
        | 0 => (x1, true)
        | 1 => secondTouch x1 (128 * r.line)
        | _ => (x1, false)
      let x3 := { x2 with requests := x2.requests.filter (fun q => q.line != r.line || q.write) }
      .next (reportError (if keep then l2Allocate s x3 r.line else setSlice s x3) r)

/-- FILTER_CLEAR (R123): after 65,536 counted misses the filter starts anew. -/
def execEvFilterClear (s : State) : Host.Outcome State Fault Refusal :=
  let x := sliceNo s
  if x.misses == 65536 then .next (setSlice s { x with filter := [], misses := 0 }) else .next s

/-! ### Page walks (R138, R139) -/

/-- The task for which a walk is made: the one a core runs, or that of the command its engine performs. -/
def askTask (s : State) (a : WalkAsk) : Option Nat :=
  if a.who < 256 then (coreAt s a.who).task.map (fun t => dieOfCore a.who * 4096 + t)
  else (nextCmd (fifoAt s ((a.who - 256) / 4096) ((a.who - 256) % 4096))).bind Cmd.task

/-- A walk has consumed poison for an access: its task is taken back, or the access fails with POISON cause 2 (R432, R433). -/
def poisonAsk (granule : Nat) (s : State) (a : WalkAsk) : State :=
  if canRollBack s (askTask s a) then poisonTask s (askTask s a) 0 else failWalk granule 6 s a

/-- PAGE_WALK (R138, R139): one of the die's 128 walks under way ends, and every merged requester has its result; one that meets a
poisoned entry installs nothing. -/
def execEvPageWalk (s : State) : Host.Outcome State Fault Refusal :=
  let die := s.arg.die.toNat
  match ((dieAt s die).walkQueue.take 128)[s.arg.n]? with
  | none => .next s
  | some q =>
    let v := q.granule * 65536
    let s := readWords s die q.root v q.asks
    if q.mark || walkPoison s die q.root v then
      .next (q.asks.foldl (poisonAsk q.granule) (modDie s die (fun d => { d with walkQueue := d.walkQueue.filter (fun p => !p.same q.asn q.granule) })))
    else .next (endWalk s die q.root v []).1

/-! ### Code-cache commands (R130) -/

/-- Remove the pages that `p` names from a die's code cache and its cores' code buffers; errors in them that were never
executed are counted (R415). -/
def dropCode (s : State) (d : Nat) (p : Nat → Bool) : State :=
  let lost := ((dieAt s d).codeCache.filter (fun c => p c.page)).flatMap (fun c => c.sectors.map Prod.snd)
  let s := modDie s d (fun x => { x with codeCache := x.codeCache.filter (fun c => !p c.page) })
  let s := modCores s (fun c => dieOfCore c == d) (fun c => { c with codeBuffer := c.codeBuffer.filter (fun f => !p f.page) })
  lost.foldl countLost s

/-- INVALIDATE_PAGES (R130): command 0, and every record with a reserved code. -/
def execEvInvalidatePages (s : State) : Host.Outcome State Fault Refusal :=
  let d := s.arg.die.toNat
  match nextCmd (fifoAt s d fifoCode) with
  | none => .next s
  | some c =>
    let w := wordAt c.words 0
    let addr := (wordAt c.words 1).toNat
    let count := bits w 63 32
    if bits w 7 0 == 1 then .next s
    else if bits w 31 0 != 0 || count == 0 || decide (65536 < count) || addr % 16384 != 0 then .next (answer s d fifoCode c 1 0 none)
    else .next (answer (dropCode s d (fun p => decide (addr / 16384 ≤ p) && decide (p < addr / 16384 + count))) d fifoCode c 0 0 none)

/-- INVALIDATE_ALL (R130): command 1, which ignores address and count. -/
def execEvInvalidateAll (s : State) : Host.Outcome State Fault Refusal :=
  let d := s.arg.die.toNat
  match nextCmd (fifoAt s d fifoCode) with
  | none => .next s
  | some c =>
    let w := wordAt c.words 0
    if bits w 7 0 != 1 then .next s
    else if bits w 31 8 != 0 then .next (answer s d fifoCode c 1 0 none)
    else .next (answer (dropCode s d (fun _ => true)) d fifoCode c 0 0 none)

/-! ### Walk-pool commands (R140) -/

/-- Remove what matches from every TLB of a die and from its walk cache: `p` on an ASN, a first address and a size. -/
def dropWalks (s : State) (d : Nat) (p : Nat → Nat → Nat → Bool) : State :=
  let keep := fun (t : TlbEntry) => !p t.asn t.base t.size
  let s := modDie s d (fun x => { x with
    walkCache := x.walkCache.filter (fun e => !p e.asn (e.index * 2 ^ levelShift e.level) (2 ^ levelShift e.level))
    tlbs := x.tlbs.map (fun q => (q.1, q.2.filter keep))
    walkFail := x.walkFail.filter (fun f => (List.range 4096).all (fun asn => !p asn (f.granule * 65536) 65536)) })
  modCores s (fun c => dieOfCore c == d) (fun c => { c with
    tlb := c.tlb.filter keep, walkFail := c.walkFail.filter (fun f => !p (bits (sysNow c sysPTB) 63 52) (f.granule * 65536) 65536) })

/-- A record's malformed parts beyond its code. -/
def walkCmdBad (code : Nat) (w addr : Word) : Bool :=
  bits w 15 8 != 0 || (decide (code < 2) && bits w 31 28 != 0) ||
    (code == 0 && (bits w 63 32 == 0 || decide (2 ^ 28 < bits w 63 32) || addr.toNat % 65536 != 0))

/-- One walk-pool command, performed by the event of its own code. -/
def walkCommand (s : State) (mine : Nat → Bool) (p : Word → Word → Nat → Nat → Nat → Bool) : Host.Outcome State Fault Refusal :=
  let d := s.arg.die.toNat
  match nextCmd (fifoAt s d fifoWalk) with
  | none => .next s
  | some c =>
    let w := wordAt c.words 0
    let a := wordAt c.words 1
    let code := bits w 7 0
    if !mine code then .next s
    else if decide (2 < code) || walkCmdBad code w a then .next (answer s d fifoWalk c 1 0 none)
    else .next (answer (dropWalks s d (p w a)) d fifoWalk c 0 0 none)

/-- INVALIDATE_RANGE (R140): command 0, and every record with a reserved code. -/
def execEvInvalidateRange (s : State) : Host.Outcome State Fault Refusal :=
  walkCommand s (fun c => c != 1 && c != 2) (fun w a asn base size =>
    asn == bits w 27 16 && decide (base < a.toNat + 65536 * bits w 63 32) && decide (a.toNat < base + size))

def execEvInvalidateAsn (s : State) : Host.Outcome State Fault Refusal :=
  walkCommand s (fun c => c == 1) (fun w _ asn _ _ => asn == bits w 27 16)

def execEvTlbInvalidateAll (s : State) : Host.Outcome State Fault Refusal :=
  walkCommand s (fun c => c == 2) (fun _ _ _ _ _ => true)

/-! ### Page migration (R164 to R166) -/

/-- The migration engine's own name in the walk pools' result queues. -/
def migrator (d : Nat) : Nat := 4096 + d

/-- Offsets within a page that hold a byte or a key, at the old or the new frame. -/
def pageOffsets (s : State) (m : Migration) : List Nat :=
  let at' := fun (f a : Nat) => if decide (f ≤ a) && decide (a < f + m.size) then some (a - f) else none
  sortNat (dedupNat ((s.mem.map Prod.fst ++ s.keys.map (fun (k : Nat × Key) => k.1 / 8)).flatMap (fun a => (at' m.old a).toList ++ (at' m.new a).toList)))

/-- Every chunk of the page is copied as stored, keys and poison with it (R165). -/
def copyPage (s : State) (m : Migration) : State :=
  let os := pageOffsets s m
  let s1 := os.foldl (fun s o => pokeByte s (m.new + o) (memByte s (m.old + o)) (keysAt s (m.old + o))) (newMoment s)
  let marks := fun (f : Nat) => (s.memPoison.map Prod.fst).filter (fun g => decide (f ≤ 32 * g) && decide (32 * g < f + m.size))
  wroteLines (setMarks (setMarks s1 (marks m.new) false) ((marks m.old).map (fun g => g - m.old / 32 + m.new / 32)) true) (os.map (fun o => m.new + o))

/-- The leaf a migration command names: its entry and its value, when it is a valid class L leaf (R165). -/
def migrateLeaf (s : State) (d : Nat) (c : Cmd) : State × Option TlbEntry :=
  match agentRead s (c.agent d fifoMigration) (wordAt c.words 3).toNat 8 with
  | (s, .error _) => (s, none)
  | (s, .ok (bs, _)) =>
    let root := rootOf s d c.ctx
    let (r, _) := walkFrom s (bits root 63 52) (wordAt c.words 0).toNat 4 0 (bits root 51 12 * 4096)
    match r with
    | .error _ => (s, none)
    | .ok t => if t.leaf = BitVec.ofNat 64 (leNat bs) && leafCoh t.leaf == .l && canonical (wordAt c.words 0).toNat then (s, some t) else (s, none)

/-- A new frame of the page's size in class C or S memory. -/
def frameFits (new size : Nat) : Bool :=
  new % size == 0 && decide (new < 2 ^ 52) && decide (classOf new < 2) && backed new && backed (new + size - 1)

/-- The record pushed to every walk pool at the switch. -/
def switchRecord (c : Cmd) (t : TlbEntry) : List Word :=
  [BitVec.ofNat 64 (bits (wordAt c.words 1) 43 32 * 2 ^ 16 + t.size / 65536 * 2 ^ 32), BitVec.ofNat 64 t.base]

/-- Change a die's migration. -/
def setMigration (s : State) (d : Nat) (m n : Migration) : State :=
  modDie s d (fun x => { x with migrations := x.migrations.map (fun y => if y == m then n else y) })

/-- Copy, write the leaf, push the invalidations (R165, steps 3 and 4). Where memory refuses the write of the leaf the switch goes
on without it: DESIGN CHOICE, log entry 55. -/
def migrateSwitch (s : State) (d : Nat) (c : Cmd) (t : TlbEntry) (m : Migration) : State :=
  let leaf := t.leaf.toNat - leafFrame t.leaf + m.new
  let s1 := copyPage s m
  let (s2, _) := agentWrite s1 (c.agent d fifoMigration) (wordAt c.words 3).toNat (leBytes 8 leaf)
  let rec' := switchRecord c t
  let s3 := [0, 1, 2, 3].foldl (fun s e =>
    let q := fifoAt s e fifoWalk
    setFifo s e fifoWalk { q with cmds := q.cmds ++ [{ ctx := migrator d, core := c.core, stamp := s.tick, task := none, words := rec' }] }) s2
  setMigration s3 d m { m with pushed := true }

/-- Once all four walk pools have answered, their results are taken and the mapping has switched (R165, step 4). -/
def migrateMapped (s : State) (d : Nat) (m : Migration) : State :=
  if [0, 1, 2, 3].all (fun e => !(resultsOf (fifoAt s e fifoWalk) (migrator d)).isEmpty) then
    let s1 := [0, 1, 2, 3].foldl (fun s e =>
      let q := fifoAt s e fifoWalk
      setFifo s e fifoWalk { q with results := q.results.filter (fun r => r.ctx != migrator d) }) s
    setMigration s1 d m { m with switched := true }
  else s

/-- Some store log holds a record for the page that nothing but the migration has kept from settling. -/
def heldRecords (s : State) (m : Migration) : Bool :=
  (List.range 256).any (fun c => (coreAt s c).log.any (fun r =>
    r.time.isSome && !r.settled && (movesAll s r.block).contains m && !settleHeld s r))

/-- The held records settle, each in a step of its own, and then the command has its result (R165, steps 5 to 7). -/
def migrateEnd (s : State) (d : Nat) (c : Cmd) (m : Migration) : State :=
  if heldRecords s m then s else answer (setMigration s d m { m with answered := true }) d fifoMigration c 0 0 none

/-- Code and reserved fields of a migration command. -/
def migrateCode (c : Cmd) : Nat := bits (wordAt c.words 1) 7 0
def migrateBad (c : Cmd) : Bool := decide (1 < migrateCode c) || bits (wordAt c.words 1) 31 8 != 0 || bits (wordAt c.words 1) 63 44 != 0

/-- The migration belongs to the command. -/
def Migration.isOf (m : Migration) (c : Cmd) : Bool := m.stamp == c.stamp && m.core == c.core

/-- A step of a migration whose command has been discarded (R432): one that has not written its leaf is given up, of any other the
mapping switch goes on, with no result. DEDUCED, log entry 35. -/
def migrateOrphan (s : State) (d : Nat) (m : Migration) : State :=
  if !m.pushed then modDie s d (fun x => { x with migrations := x.migrations.filter (fun y => y != m) })
  else if !m.switched then migrateMapped s d m
  else if heldRecords s m then s else setMigration s d m { m with answered := true }

/-- MIGRATE (R165): the next step of the migration under way on a die. -/
def execEvMigrate (s : State) : Host.Outcome State Fault Refusal :=
  let d := s.arg.die.toNat
  match (dieAt s d).migrations.find? (fun m => !m.answered && !(firstCmd (fifoAt s d fifoMigration)).any m.isOf) with
  | some m => .next (migrateOrphan s d m)
  | none =>
  match nextCmd (fifoAt s d fifoMigration) with
  | none => .next s
  | some c =>
    if migrateCode c == 1 then .next s
    else if migrateBad c then .next (answer s d fifoMigration c 1 0 none)
    else
      match (dieAt s d).migrations.find? (fun m => !m.answered) with
      | some m =>
        if m.mark then .next (poisonCmd (setMigration s d m { m with mark := false }) d fifoMigration c 0)
        else if m.switched then .next (migrateEnd s d c m)
        else if m.pushed then .next (migrateMapped s d m)
        else if [0, 1, 2, 3].any (fun e => decide (64 ≤ (fifoAt s e fifoWalk).cmds.length)) then .next s
        else
          match migrateLeaf s d c with
          | (s1, some t) => .next (migrateSwitch s1 d c t m)
          | (s1, none) =>
            .next (answer (modDie s1 d (fun x => { x with migrations := x.migrations.filter (fun y => y != m) })) d fifoMigration c 2 0 none)
      | none =>
        let new := (wordAt c.words 2).toNat
        match migrateLeaf s d c with
        | (s1, some t) =>
          if frameFits new t.size then
            .next (modDie s1 d (fun x => { x with
              migrations := x.migrations ++ [{ old := leafFrame t.leaf, new := new, size := t.size, pushed := false, switched := false, stamp := c.stamp, core := c.core }] }))
          else .next (answer s1 d fifoMigration c 2 0 none)
        | (s1, none) => .next (answer s1 d fifoMigration c 2 0 none)

/-- The address lies in the range, or its page has been moved through it. -/
def passesFrame (s : State) (base size a : Nat) : Bool := (framesOf s a).any (fun b => decide (base ≤ b) && decide (b < base + size))

/-- Some store log of the package holds an unsettled record that names the range, itself or by a redirect (R166). -/
def logsName (s : State) (base size : Nat) : Bool :=
  (List.range 256).any (fun c => (coreAt s c).log.any (fun r => !r.settled && passesFrame s base size r.block))

/-- With the redirect goes the old name: what cores keep of settled records names the present frame. -/
def renameRecords (s : State) (base size : Nat) : State :=
  modAll s (fun c => { c with replay := c.replay.map (fun p =>
    if passesFrame s base size p.2.block then (p.1, { p.2 with block := homeOf s p.2.block }) else p) })

/-- RELEASE_OLD_FRAME (R166): the redirect goes, whichever die's engine has moved the page. A frame that no migration names is taken as one of 64 KiB: DESIGN CHOICE, log entry 55. -/
def execEvReleaseOldFrame (s : State) : Host.Outcome State Fault Refusal :=
  let d := s.arg.die.toNat
  match nextCmd (fifoAt s d fifoMigration) with
  | none => .next s
  | some c =>
    let old := (wordAt c.words 2).toNat
    if migrateCode c != 1 then .next s
    else if migrateBad c then .next (answer s d fifoMigration c 1 0 none)
    else
      let size := match (s.dies.flatMap (fun x => x.2.migrations)).find? (fun m => m.old == old) with | some m => m.size | none => 65536
      if logsName s old size then .next s
      else
        let s1 := (s.dies.map Prod.fst).foldl (fun s e => modDie s e (fun x => { x with
          migrations := x.migrations.filter (fun m => m.old != old || !m.switched) })) (renameRecords s old size)
        .next (answer s1 d fifoMigration c 0 0 none)

end Sys2Proof.Machine
end

