-- ==== Sys2Proof/Machine/Special.lean ====
section
/-!
DEFINITION. The special functions of the vector engine (R245 to R247): exact values to 320 fractional bits, rounded once
for bf16 and f16; for f32 the device's own result wherever it keeps within the bounds of R246.
-/
namespace Sys2Proof.Machine

/-- The functions of R245, in the order of their opcodes. -/
inductive Fn where
  | exp | log | rcp | rsq | sin | cos | tanh
deriving DecidableEq, Repr

def Fn.num : Fn → Nat
  | .exp => 0
  | .log => 1
  | .rcp => 2
  | .rsq => 3
  | .sin => 4
  | .cos => 5
  | .tanh => 6

/-- Fractional bits of the fixed-point values below. -/
def fixBits : Nat := 320

def fixOne : Nat := 2 ^ fixBits

/-- Sum of `z + z^3/3 + z^5/5 + …` in fixed point, `z2` the square of `z`. -/
def atanhSum (z2 : Nat) : Nat → Nat → Nat → Nat
  | 0, _, _ => 0
  | n + 1, k, p => p / k + atanhSum z2 n (k + 2) (p * z2 / fixOne)

def ln2Fix : Nat :=
  let z := fixOne / 3
  2 * atanhSum (z * z / fixOne) 120 1 z

/-- Sum of `1/q - 1/(3 q^3) + …`, signs alternating. -/
def atanSum (q2 : Nat) : Nat → Bool → Nat → Nat → Int
  | 0, _, _, _ => 0
  | n + 1, plus, k, p => (if plus then 1 else -1) * ((p / k : Nat) : Int) + atanSum q2 n (!plus) (k + 2) (p / q2)

def piFix : Nat := (16 * atanSum 25 150 true 1 (fixOne / 5) - 4 * atanSum 57121 45 true 1 (fixOne / 239)).toNat

/-- `e^y` for `y` below one, in fixed point. -/
def expSum (y : Nat) : Nat → Nat → Nat → Nat
  | 0, _, _ => 0
  | n + 1, k, p => p + expSum y n (k + 1) (p * y / fixOne / k)

/-- `sin y` for `y` up to 1.58, in fixed point. -/
def sinSum (y2 : Nat) : Nat → Bool → Nat → Nat → Int
  | 0, _, _, _ => 0
  | n + 1, plus, k, p =>
    (if plus then 1 else -1) * (p : Int) + sinSum y2 n (!plus) (k + 2) (p * y2 / fixOne / ((k + 1) * (k + 2)))

/-- `m x 2^e` in fixed point, rounded down. -/
def toFix (m : Nat) (e : Int) : Nat :=
  let s := e + fixBits
  if 0 ≤ s then m * 2 ^ s.toNat else m / 2 ^ (-s).toNat

/-- The largest integer whose square is at most `n`, by bits from `2^b` down. -/
def isqrtBits (n : Nat) : Nat → Nat → Nat
  | 0, r => r
  | b + 1, r => let c := r + 2 ^ b; isqrtBits n b (if c * c ≤ n then c else r)

/-- An exact value, or one known to lie just above a fixed-point number: sign, numerator, denominator, exponent. -/
structure Approx where
  neg : Bool
  num : Nat
  den : Nat
  e : Int
  exact : Bool
deriving DecidableEq, Repr

/-- A value a little above `v` in fixed point: the bit below stands for the rest. -/
def above (neg : Bool) (v : Nat) : Approx := ⟨neg, 2 * v + 1, 1, -(fixBits : Int) - 1, false⟩

/-- `2^x` for a finite `x`. -/
def expApprox (neg : Bool) (m : Nat) (e : Int) : Approx :=
  if m == 0 then ⟨false, 1, 1, 0, true⟩
  else if 12 < (log2Nat m : Int) + e then ⟨false, 1, 1, if neg then -5000 else 5000, false⟩
  else
    let v := toFix m e
    let k : Int := if neg then -((ceilDiv v fixOne : Nat) : Int) else ((v / fixOne : Nat) : Int)
    let f : Int := (if neg then -(v : Int) else (v : Int)) - k * fixOne
    if f == 0 then ⟨false, 1, 1, k, true⟩
    else
      let r := expSum (f.toNat * ln2Fix / fixOne) 90 1 fixOne
      ⟨false, 2 * r + 1, 1, k - fixBits - 1, false⟩

/-- `log2` of a positive `m x 2^e`. -/
def logApprox (m : Nat) (e : Int) : Approx :=
  let b := log2Nat m
  let k : Int := (b : Int) + e
  if m == 2 ^ b then ⟨decide (k < 0), k.natAbs, 1, 0, true⟩
  else
    let z := (m - 2 ^ b) * fixOne / (m + 2 ^ b)
    let l := 2 * atanhSum (z * z / fixOne) 120 1 z * fixOne / ln2Fix
    let s : Int := k * fixOne + l
    above (decide (s < 0)) s.natAbs

def rsqApprox (m : Nat) (e : Int) : Approx :=
  -- 1/sqrt(m 2^e) with e made even
  let odd := e % 2 != 0
  let m' := if odd then 2 * m else m
  let e' := if odd then e - 1 else e
  let n := 2 ^ (2 * fixBits) / m'
  let r := isqrtBits n (fixBits + 2) 0
  if r * r * m' == 2 ^ (2 * fixBits) then ⟨false, r, 1, -(fixBits : Int) - e' / 2, true⟩
  else ⟨false, 2 * r + 1, 1, -(fixBits : Int) - 1 - e' / 2, false⟩

/-- `sin(pi t)` for `t` in fixed point, taken modulo 2. -/
def sinTurn (neg : Bool) (t : Nat) : Approx :=
  let u := t % (2 * fixOne)
  let flip := decide (fixOne ≤ u)
  let v := if flip then u - fixOne else u
  let w := if fixOne < 2 * v then fixOne - v else v
  if w == 0 then ⟨neg, 0, 1, 0, true⟩
  else if 2 * w == fixOne then ⟨neg != flip, 1, 1, 0, true⟩
  else
    let y := w * piFix / fixOne
    above (neg != flip) (sinSum (y * y / fixOne) 75 true 1 y).toNat

def tanhApprox (neg : Bool) (m : Nat) (e : Int) : Approx :=
  if m == 0 then ⟨neg, 0, 1, 0, true⟩
  else if 6 < (log2Nat m : Int) + e then ⟨neg, 2 ^ 300 - 1, 1, -300, false⟩
  else
    let y := 2 * toFix m e
    let k := y / ln2Fix
    let ex := expSum (y - k * ln2Fix) 90 1 fixOne * 2 ^ k
    ⟨neg, 2 * ((ex - fixOne) * fixOne / (ex + fixOne)) + 1, 1, -(fixBits : Int) - 1, false⟩

/-- The function at a finite operand for which R247 names no special result. -/
def fnApprox (fn : Fn) (neg : Bool) (m : Nat) (e : Int) : Approx :=
  match fn with
  | .exp => expApprox neg m e
  | .log => logApprox m e
  | .rcp => ⟨neg, 1, m, -e, m == 2 ^ log2Nat m⟩
  | .rsq => rsqApprox m e
  | .sin => sinTurn neg (if 0 ≤ e then 0 else toFix (m % 2 ^ (1 - e).toNat) e)
  | .cos => sinTurn false ((if 0 ≤ e then (if m % 2 == 1 && e == 0 then fixOne else 0) else toFix (m % 2 ^ (1 - e).toNat) e) + fixOne / 2)
  | .tanh => tanhApprox neg m e

/-- `|p - v|` against `n` units of `2^u`, cross-multiplied. -/
def withinUnits (p : Num) (v : Approx) (n : Nat) (u : Int) : Bool :=
  match p with
  | .nan | .inf _ => false
  | .fin pn pm pe =>
    let q : Int := if pe ≤ v.e then (if pe ≤ u then pe else u) else (if v.e ≤ u then v.e else u)
    let a : Int := (if pn then -1 else 1) * ((pm * v.den * 2 ^ (pe - q).toNat : Nat) : Int)
    let b : Int := (if v.neg then -1 else 1) * ((v.num * 2 ^ (v.e - q).toNat : Nat) : Int)
    decide ((a - b).natAbs ≤ n * v.den * 2 ^ (u - q).toNat)

/-- Exponent of the last place of an f32 result near `v` (R246): `v` lies from `2^k` up to `2^(k+1)`. -/
def ulpExp (v : Approx) : Int :=
  let s : Int := (log2Nat v.num : Int) - log2Nat v.den
  let below : Bool := if 0 ≤ s then decide (v.num < v.den * 2 ^ s.toNat) else decide (v.num * 2 ^ (-s).toNat < v.den)
  let k := s + v.e - (if below then 1 else 0)
  (if k < -126 then -126 else k) - 23

/-- Does the device's result meet the bound of R246 for its function? -/
def meetsBound (fn : Fn) (p : Num) (v : Approx) : Bool :=
  match fn with
  | .rcp | .rsq => withinUnits p v 1 (ulpExp v)
  | .exp | .tanh => withinUnits p v 2 (ulpExp v)
  | .log => if v.num * 2 ^ (v.e + fixBits + 2).toNat < v.den * 2 ^ (fixBits + 2) then withinUnits p v 1 (-21) else withinUnits p v 2 (ulpExp v)
  | .sin | .cos => withinUnits p v 1 (-22)

/-- An exact case of R246, with `r` the value rounded: its bounds leave nothing to the device there. -/
def exactCase (fn : Fn) (r : Elem) (v : Approx) : Bool :=
  v.exact &&
    match fn with
    | .rcp => decide (2 ^ 23 ≤ r.bits % 2 ^ 31)
    | .exp => withinUnits (numOfFmt f32Fmt r.bits) v 0 0
    | .log | .rsq | .sin | .cos | .tanh => true

/-- The result at a finite operand: one rounding in RNE, or in f32 the device's own result within its bound. -/
def fnFinite (fn : Fn) (t : Ty) (f : Fmt) (w : Nat) (neg : Bool) (m : Nat) (e : Int) : Elem :=
  let v := fnApprox fn neg m e
  let r := roundElem f 0 .ieee v.neg v.num v.den v.e
  if t = .f32 && !exactCase fn r v && r.kind != some 2 then
    let p := (Config.specialF32 fn.num (BitVec.ofNat 32 w)).toNat
    if meetsBound fn (numOfFmt f32Fmt p) v then
      ⟨p, if p % 2 ^ 31 < 2 ^ 23 then some 3 else none⟩
    else r
  else r

/-- A special function of an element (R245 to R247). -/
def special (fn : Fn) (t : Ty) (w : Nat) : Elem :=
  match fmtOf t with
  | none => ⟨w, none⟩
  | some f =>
    let w := w % 2 ^ widthOf t
    let nan := nanBits f
    let inf := f.infCode.getD 0
    let one := f.bias * 2 ^ f.mbits
    let sg := signBit f true
    match numOfFmt f w, fn with
    | .nan, _ => ⟨nan, none⟩
    | .inf false, .exp => ⟨inf, none⟩
    | .inf false, .log => ⟨inf, none⟩
    | .inf false, .rcp => ⟨0, none⟩
    | .inf false, .rsq => ⟨0, none⟩
    | .inf false, .tanh => ⟨one, none⟩
    | .inf true, .exp => ⟨0, none⟩
    | .inf true, .log => ⟨nan, some 0⟩
    | .inf true, .rcp => ⟨sg, none⟩
    | .inf true, .rsq => ⟨nan, some 0⟩
    | .inf true, .tanh => ⟨sg + one, none⟩
    | .inf _, .sin => ⟨nan, some 0⟩
    | .inf _, .cos => ⟨nan, some 0⟩
    | .fin neg m e, fn =>
      if m == 0 then
        match fn with
        | .exp | .cos => ⟨one, none⟩
        | .log => ⟨sg + inf, some 1⟩
        | .rcp | .rsq => ⟨(if neg then sg else 0) + inf, some 1⟩
        | .sin | .tanh => ⟨if neg then sg else 0, none⟩
      else if neg && (fn == .log || fn == .rsq) then ⟨nan, some 0⟩
      else fnFinite fn t f w neg m e

end Sys2Proof.Machine
end

