-- ==== Sys2Proof/Machine/Vector.lean ====
section
/-!
DEFINITION. The vector engine (R223 to R249). Results are written and tokens pushed at the latency of R226.
-/
namespace Sys2Proof.Machine

/-! ### Shared operations -/

/-- A cell written by a vector instruction: number, contents, poison mark, event of its type's group. -/
structure VecCell where
  key : Nat
  val : Nat
  mark : Bool := false
  counts : List Nat := []
deriving DecidableEq, Repr

def cellLocs (ks : List Nat) : List Loc := ks.map Loc.cell

def VecCell.late (x : VecCell) : Late := { loc := .cell x.key, val := BitVec.ofNat 64 (x.val % 2 ^ 32), mark := x.mark }

/-- Put a vector result in flight for `lat` clk (R226, R227). -/
def vecLand (h : Hdr) (lat : Nat) (xs : List VecCell) (p : State) : Act :=
  .later (modCore p (fun c => addLanding c
    { due := some (c.ck + lat), eng := h.eng, seq := (c.eng h.eng).seq, scoreboard := false
      act := .write (xs.map VecCell.late), push := h.push, counts := xs.flatMap VecCell.counts }))

/-- A vector instruction that consumes what it reads: `cells` its sources, `regs` the general registers it names. -/
def vecOut (h : Hdr) (len lat : Nat) (cells : List Nat) (regs : List Loc) (val : State → List VecCell) (s : State) :
    Host.Outcome State Fault Refusal :=
  issueOut h len (regs ++ cellLocs cells) (fun p => vecLand h lat (val p) p) s

/-- A vector instruction that moves whole cells with their marks and consumes nothing, the mark of an amount register
included (R248). -/
def vecMove (h : Hdr) (len lat : Nat) (cells : List Nat) (regs : List Loc) (val : State → List VecCell) (s : State) :
    Host.Outcome State Fault Refusal :=
  issueOut h len [] (fun p => if mustWait p.core h.eng (regs ++ cellLocs cells) then .wait nothing else vecLand h lat (val p) p) s

/-- A cell's contents as a number. -/
def cellNat (p : State) (k : Nat) : Nat := (readCell p .v k).toNat

def cellMark (p : State) (k : Nat) : Bool := look false p.core.cells.poison k

/-- Cells src2 reads. -/
def vsrcCells : VSrc → List Nat
  | .mat m => viewCells m
  | .lit _ => []

/-- Element `k` of src2 (R230). -/
def vsrcAt (p : State) (x : VSrc) (k : Nat) : Nat :=
  match x with
  | .mat m => cellNat p ((viewCells m).getD k 0)
  | .lit l => l.toNat

/-- Lane-wise: element `k` of `d` from element `k` of `a`, src2 and the old `d` (R230). -/
def lanes (p : State) (d a : MOp) (f : Nat → Nat → Nat → Nat → Elem) (g : Nat) : List VecCell :=
  ((viewCells d).zip (viewCells a)).zipIdx.map (fun q =>
    let e := f q.2 (cellNat p q.1.2) (cellNat p q.1.1) q.1.1
    { key := q.1.1, val := e.bits, counts := fecOf g e.kind })

/-- OVT as the vector engine reads it at issue (R82). -/
def vecOvt (p : State) : Word := readSys p .v sysOVT

/-- A lane-wise instruction of two sources (R232 to R235); VFMA also reads the old destination. -/
def laneBin (op : LaneOp) (sat : Bool) (h : Hdr) (d a : MOp) (t : Ty) (x : VSrc) (s : State) : Host.Outcome State Fault Refusal :=
  vecOut h 3 4 (viewCells a ++ vsrcCells x ++ (if op = .fma then viewCells d else [])) []
    (fun p => lanes p d a (fun k u o _ => laneOp op sat t h.rm (vecOvt p) u (vsrcAt p x k) o) (groupOf t)) s

/-- A lane-wise instruction of one source. -/
def laneUn (op : LaneOp) (sat : Bool) (h : Hdr) (d a : MOp) (t : Ty) (s : State) : Host.Outcome State Fault Refusal :=
  vecOut h 2 4 (viewCells a) [] (fun p => lanes p d a (fun _ u _ _ => laneOp op sat t h.rm (vecOvt p) u 0 0) (groupOf t)) s

/-- VCMP (R236). -/
def vecCompare (c : Cmp) (h : Hdr) (d a : MOp) (t : Ty) (x : VSrc) (s : State) : Host.Outcome State Fault Refusal :=
  vecOut h 3 4 (viewCells a ++ vsrcCells x) []
    (fun p => lanes p d a (fun k u _ _ =>
      ⟨if compareElems c t (u % 2 ^ widthOf t) (vsrcAt p x k % 2 ^ widthOf t) then 0xFFFFFFFF else 0, none⟩) 0) s

/-- The special functions (R245). -/
def vecSpecial (fn : Fn) (h : Hdr) (d a : MOp) (t : Ty) (s : State) : Host.Outcome State Fault Refusal :=
  vecOut h 2 12 (viewCells a) [] (fun p => lanes p d a (fun _ u _ _ => special fn t u) (groupOf t)) s

/-- A row's or column's cells of a whole tile. -/
def rowCells (r i : Nat) : List Nat := (List.range 64).map (fun j => cellNo r i j)
def colCells (r j : Nat) : List Nat := (List.range 16).map (fun i => cellNo r i j)

/-- A reduction of each line of `a` into one cell of `d` (R244). -/
def vecReduce (op : RedOp) (lat : Nat) (line : Nat → List Nat) (h : Hdr) (d a : MOp) (t : Ty) (s : State) :
    Host.Outcome State Fault Refusal :=
  vecOut h 2 lat (viewCells a) [] (fun p =>
    (viewCells d).zipIdx.map (fun q =>
      let e := reduce op t h.rm (vecOvt p) ((line q.2).map (cellNat p))
      { key := q.1, val := e.bits, counts := fecOf (groupOf t) e.kind })) s

def vecReduceR (op : RedOp) (h : Hdr) (d a : MOp) (t : Ty) (s : State) : Host.Outcome State Fault Refusal :=
  vecReduce op 9 (rowCells a.reg.toNat) h d a t s

def vecReduceC (op : RedOp) (h : Hdr) (d a : MOp) (t : Ty) (s : State) : Host.Outcome State Fault Refusal :=
  vecReduce op 5 (colCells a.reg.toNat) h d a t s

/-- The amount of a rotation or broadcast (R242, R243). -/
def amount (p : State) : AmtSrc → Nat
  | .reg r => (readG p .v r.toNat).toNat
  | .lit l => l.toNat

def amountLocs : AmtSrc → List Loc
  | .reg r => [.g r.toNat]
  | .lit _ => []

/-- A whole tile moved cell by cell: cell (i, j) of `d` takes the cell of `a` that `src` names (R242, R243). -/
def vecTile (lat : Nat) (src : Nat → Nat → Nat → Nat × Nat) (h : Hdr) (d a : MOp) (x : AmtSrc) (s : State) :
    Host.Outcome State Fault Refusal :=
  vecMove h 3 lat (viewCells a) (amountLocs x) (fun p =>
    (List.range 1024).map (fun k =>
      let (i, j) := src (amount p x) (k / 64) (k % 64)
      let from' := cellNo a.reg.toNat i j
      { key := cellNo d.reg.toNat (k / 64) (k % 64), val := cellNat p from', mark := cellMark p from' })) s

/-- Elements of a packed cell (R224). -/
def packCount (t : Ty) : Nat := match widthOf t with | 16 => 2 | 8 => 4 | 6 => 4 | _ => 8

/-- An mq4 source cell under super-scale `sup` converted to `dt` (R225, R239). -/
def mq4Convert (dt : Ty) (rm : BitVec 2) (ovt : Word) (sup w : Nat) : Nat × List Nat :=
  let v := mq4Elem sup (w / 16 % 256) (w % 16)
  let e := if dt = .f32 then v else convert dt .f32 rm ovt v.bits
  (e.bits, match mq4Event v.bits with
    | some k => fecOf 6 (some k)
    | none => fecOf (groupOf dt) (firstKind [v.kind, e.kind]))

/-! ### Meanings -/

def execVadd (h : Hdr) (d a : MOp) (t : Ty) (x : VSrc) (s : State) : Host.Outcome State Fault Refusal :=
  laneBin .add false h d a t x s

def execVsub (h : Hdr) (d a : MOp) (t : Ty) (x : VSrc) (s : State) : Host.Outcome State Fault Refusal :=
  laneBin .sub false h d a t x s

def execVmul (h : Hdr) (d a : MOp) (t : Ty) (x : VSrc) (s : State) : Host.Outcome State Fault Refusal :=
  laneBin .mul false h d a t x s

def execVfma (h : Hdr) (d a : MOp) (t : Ty) (x : VSrc) (s : State) : Host.Outcome State Fault Refusal :=
  laneBin .fma false h d a t x s

def execVmin (h : Hdr) (d a : MOp) (t : Ty) (x : VSrc) (s : State) : Host.Outcome State Fault Refusal :=
  laneBin .min false h d a t x s

def execVmax (h : Hdr) (d a : MOp) (t : Ty) (x : VSrc) (s : State) : Host.Outcome State Fault Refusal :=
  laneBin .max false h d a t x s

def execVand (h : Hdr) (d a : MOp) (t : Ty) (x : VSrc) (s : State) : Host.Outcome State Fault Refusal :=
  laneBin .and false h d a t x s

def execVor (h : Hdr) (d a : MOp) (t : Ty) (x : VSrc) (s : State) : Host.Outcome State Fault Refusal :=
  laneBin .or false h d a t x s

def execVxor (h : Hdr) (d a : MOp) (t : Ty) (x : VSrc) (s : State) : Host.Outcome State Fault Refusal :=
  laneBin .xor false h d a t x s

def execVshl (h : Hdr) (d a : MOp) (t : Ty) (x : VSrc) (s : State) : Host.Outcome State Fault Refusal :=
  laneBin .shl false h d a t x s

def execVshr (h : Hdr) (d a : MOp) (t : Ty) (x : VSrc) (s : State) : Host.Outcome State Fault Refusal :=
  laneBin .shr false h d a t x s

def execVabs (h : Hdr) (d a : MOp) (t : Ty) (s : State) : Host.Outcome State Fault Refusal :=
  laneUn .abs false h d a t s

def execVneg (h : Hdr) (d a : MOp) (t : Ty) (s : State) : Host.Outcome State Fault Refusal :=
  laneUn .neg false h d a t s

def execVaddSat (h : Hdr) (d a : MOp) (t : Ty) (x : VSrc) (s : State) : Host.Outcome State Fault Refusal :=
  laneBin .add true h d a t x s

def execVsubSat (h : Hdr) (d a : MOp) (t : Ty) (x : VSrc) (s : State) : Host.Outcome State Fault Refusal :=
  laneBin .sub true h d a t x s

def execVmulSat (h : Hdr) (d a : MOp) (t : Ty) (x : VSrc) (s : State) : Host.Outcome State Fault Refusal :=
  laneBin .mul true h d a t x s

def execVfmaSat (h : Hdr) (d a : MOp) (t : Ty) (x : VSrc) (s : State) : Host.Outcome State Fault Refusal :=
  laneBin .fma true h d a t x s

def execVshlSat (h : Hdr) (d a : MOp) (t : Ty) (x : VSrc) (s : State) : Host.Outcome State Fault Refusal :=
  laneBin .shl true h d a t x s

def execVabsSat (h : Hdr) (d a : MOp) (t : Ty) (s : State) : Host.Outcome State Fault Refusal :=
  laneUn .abs true h d a t s

def execVnegSat (h : Hdr) (d a : MOp) (t : Ty) (s : State) : Host.Outcome State Fault Refusal :=
  laneUn .neg true h d a t s

def execVcmpEq (h : Hdr) (d a : MOp) (t : Ty) (x : VSrc) (s : State) : Host.Outcome State Fault Refusal :=
  vecCompare .eq h d a t x s

def execVcmpNe (h : Hdr) (d a : MOp) (t : Ty) (x : VSrc) (s : State) : Host.Outcome State Fault Refusal :=
  vecCompare .ne h d a t x s

def execVcmpLt (h : Hdr) (d a : MOp) (t : Ty) (x : VSrc) (s : State) : Host.Outcome State Fault Refusal :=
  vecCompare .lt h d a t x s

def execVcmpLe (h : Hdr) (d a : MOp) (t : Ty) (x : VSrc) (s : State) : Host.Outcome State Fault Refusal :=
  vecCompare .le h d a t x s

def execVexp (h : Hdr) (d a : MOp) (t : Ty) (s : State) : Host.Outcome State Fault Refusal :=
  vecSpecial .exp h d a t s

def execVlog (h : Hdr) (d a : MOp) (t : Ty) (s : State) : Host.Outcome State Fault Refusal :=
  vecSpecial .log h d a t s

def execVrcp (h : Hdr) (d a : MOp) (t : Ty) (s : State) : Host.Outcome State Fault Refusal :=
  vecSpecial .rcp h d a t s

def execVrsq (h : Hdr) (d a : MOp) (t : Ty) (s : State) : Host.Outcome State Fault Refusal :=
  vecSpecial .rsq h d a t s

def execVsin (h : Hdr) (d a : MOp) (t : Ty) (s : State) : Host.Outcome State Fault Refusal :=
  vecSpecial .sin h d a t s

def execVcos (h : Hdr) (d a : MOp) (t : Ty) (s : State) : Host.Outcome State Fault Refusal :=
  vecSpecial .cos h d a t s

def execVtanh (h : Hdr) (d a : MOp) (t : Ty) (s : State) : Host.Outcome State Fault Refusal :=
  vecSpecial .tanh h d a t s

def execVredrAdd (h : Hdr) (d a : MOp) (t : Ty) (s : State) : Host.Outcome State Fault Refusal :=
  vecReduceR .add h d a t s

def execVredrMax (h : Hdr) (d a : MOp) (t : Ty) (s : State) : Host.Outcome State Fault Refusal :=
  vecReduceR .max h d a t s

def execVredrMin (h : Hdr) (d a : MOp) (t : Ty) (s : State) : Host.Outcome State Fault Refusal :=
  vecReduceR .min h d a t s

def execVredrAmax (h : Hdr) (d a : MOp) (t : Ty) (s : State) : Host.Outcome State Fault Refusal :=
  vecReduceR .amax h d a t s

def execVredcAdd (h : Hdr) (d a : MOp) (t : Ty) (s : State) : Host.Outcome State Fault Refusal :=
  vecReduceC .add h d a t s

def execVredcMax (h : Hdr) (d a : MOp) (t : Ty) (s : State) : Host.Outcome State Fault Refusal :=
  vecReduceC .max h d a t s

def execVredcMin (h : Hdr) (d a : MOp) (t : Ty) (s : State) : Host.Outcome State Fault Refusal :=
  vecReduceC .min h d a t s

def execVredcAmax (h : Hdr) (d a : MOp) (t : Ty) (s : State) : Host.Outcome State Fault Refusal :=
  vecReduceC .amax h d a t s

/-- VSEL (R237): the old cell of `d` chooses; the result carries the marks of the choice and of the chosen cell. -/
def execVsel (h : Hdr) (d a : MOp) (x : VSrc) (s : State) : Host.Outcome State Fault Refusal :=
  vecMove h 3 4 (viewCells d ++ viewCells a ++ vsrcCells x) [] (fun p =>
    ((viewCells d).zip (viewCells a)).zipIdx.map (fun q =>
      let other := match x with | .mat m => cellMark p ((viewCells m).getD q.2 0) | .lit _ => false
      let yes := cellNat p q.1.1 != 0
      { key := q.1.1
        val := if yes then cellNat p q.1.2 else vsrcAt p x q.2
        mark := cellMark p q.1.1 || (if yes then cellMark p q.1.2 else other) })) s

/-- VCVT (R238, R239). -/
def execVcvt (h : Hdr) (d a : MOp) (t t2 : Ty) (g : Reg) (s : State) : Host.Outcome State Fault Refusal :=
  if t2 = .mq4 then
    vecOut h 3 4 (viewCells a) [.g g.toNat] (fun p =>
      ((viewCells d).zip (viewCells a)).map (fun q =>
        let (v, ks) := mq4Convert t h.rm (vecOvt p) ((readG p .v g.toNat).toNat % 2 ^ 32) (cellNat p q.2)
        { key := q.1, val := v, counts := ks })) s
  else
    vecOut h 3 4 (viewCells a) [] (fun p => lanes p d a (fun _ u _ _ => convert t t2 h.rm (vecOvt p) (u % 2 ^ widthOf t2)) (groupOf t)) s

/-- VPACK (R240). -/
def execVpack (h : Hdr) (d a : MOp) (t t2 : Ty) (s : State) : Host.Outcome State Fault Refusal :=
  let f := packCount t
  let src := fun (k c : Nat) => 1024 * ((a.reg.toNat + k) % 32) + c
  vecOut h 3 4 ((List.range f).flatMap (fun k => (List.range 1024).map (src k))) [] (fun p =>
    (List.range 1024).map (fun c =>
      let es := (List.range f).map (fun k => convert t t2 h.rm (vecOvt p) (cellNat p (src k c) % 2 ^ widthOf t2))
      { key := 1024 * d.reg.toNat + c
        val := es.zipIdx.foldl (fun v e => v + e.1.bits * 2 ^ (e.2 * widthOf t)) 0
        counts := es.flatMap (fun e => fecOf (groupOf t) e.kind) })) s

/-- VUNPACK (R241). -/
def execVunpack (h : Hdr) (d a : MOp) (t t2 : Ty) (s : State) : Host.Outcome State Fault Refusal :=
  let w := widthOf t2
  vecOut h 3 4 (viewCells a) [] (fun p =>
    (List.range (packCount t2)).flatMap (fun k => (List.range 1024).map (fun c =>
      let e := convert t t2 h.rm (vecOvt p) (cellNat p (1024 * a.reg.toNat + c) / 2 ^ (k * w) % 2 ^ w)
      { key := 1024 * ((d.reg.toNat + k) % 32) + c, val := e.bits, counts := fecOf (groupOf t) e.kind }))) s

/-- VROTR, VROTC (R242), VBCR, VBCC (R243). -/
def execVrotr (h : Hdr) (d a : MOp) (x : AmtSrc) (s : State) : Host.Outcome State Fault Refusal :=
  vecTile 6 (fun n i j => (i, (j + 64 - n % 64) % 64)) h d a x s

def execVrotc (h : Hdr) (d a : MOp) (x : AmtSrc) (s : State) : Host.Outcome State Fault Refusal :=
  vecTile 3 (fun n i j => ((i + 16 - n % 16) % 16, j)) h d a x s

def execVbcr (h : Hdr) (d a : MOp) (x : AmtSrc) (s : State) : Host.Outcome State Fault Refusal :=
  vecTile 4 (fun n i _ => (i, n % 64)) h d a x s

def execVbcc (h : Hdr) (d a : MOp) (x : AmtSrc) (s : State) : Host.Outcome State Fault Refusal :=
  vecTile 2 (fun n _ j => (n % 16, j)) h d a x s

end Sys2Proof.Machine
end

