-- ==== Sys2Proof/Machine/Copy.lean ====
section
/-!
DEFINITION. The copy engine (R148 to R161): COPY and COPY.ln, the tensor layout record, transforms and weight expansion,
faults and completion of a copy; probe fills (R194).
-/
namespace Sys2Proof.Machine

/-! ### Issue (R148, R151) -/

def copyLocs (a : Reg) (x : Src2) : List Loc := (List.range 12).map (fun i => Loc.g (a.toNat + i)) ++ src2Locs x

/-- Append a COPY to the copy engine's queue. -/
def copyBody (h : Hdr) (a : Reg) (x : Src2) (near : Nat) (p : State) : Act :=
  if orderHeld p.core false || decide (32 ≤ p.core.copyQueue.length) || !(pushedCopies p).isEmpty then .wait nothing
  else
    let ws := issueWords p
    .later (modCore p (fun c => { c with
      copyQueue := c.copyQueue ++ [{ layout := (List.range 12).map (fun i => readG p .a (a.toNat + i)), xform := (src2Z p .a x).setWidth 32
                                     near := near, rm := h.rm, id := c.nextId, tag := c.engA.walk, push := h.push, ctx := c.ctx.getD 0
                                     ovt := wordAt ws 0, level := wordAt ws 1 == 1, bgm := ws.drop 2, order := some c.engA.seq }]
      nextId := c.nextId + 1 }))

def execCopy (h : Hdr) (d a : Reg) (x : Src2) (s : State) : Host.Outcome State Fault Refusal :=
  issueOut h (src2Len x) (.g d.toNat :: copyLocs a x) (fun p => copyBody h a x (readG p .a d.toNat).toNat p) s

def execCopyLn (h : Hdr) (d a : Reg) (x : Src2) (s : State) : Host.Outcome State Fault Refusal :=
  issueOut h (src2Len x) (copyLocs a x) (fun p => withBase p (.nest d) (fun v => copyBody h a x v.toNat p)) s

/-- COPY_COMMAND (R149): a pushed command enters the core's copy queue. -/
def execEvCopyCommand (s : State) : Host.Outcome State Fault Refusal :=
  let s := focus s s.arg.core.toNat
  let d := dieOfCore s.cur
  let k := fifoCopy + s.cur % 64
  match (fifoAt s d k).cmds with
  | [] => .next s
  | q :: qs =>
    if decide (32 ≤ s.core.copyQueue.length) || some q.ctx != s.core.ctx then .next s
    else
      let w := wordAt q.words 12
      .next (modCore (setFifo s d k { fifoAt s d k with cmds := qs }) (fun c => { c with
        copyQueue := c.copyQueue ++ [{ layout := q.words.take 12, xform := BitVec.ofNat 32 (bits w 63 32), near := bits w 31 0, rm := q.rm
                                       id := c.nextId, tag := c.engA.walk, push := 0, fifo := true, ctx := q.ctx
                                       ovt := wordAt q.words 13, level := wordAt q.words 14 == 1, bgm := q.words.drop 15 }]
        nextId := c.nextId + 1 }))

/-! ### The layout record (R152) -/

structure Layout where
  base : Nat
  ext : List Nat
  str : List Nat
  org : List Int
  win : List Nat
  fill : Nat
  fillmode : Nat
  ty : Nat
  scaled : Bool
  geom : Nat
  inter : Nat
  scalebase : Nat
deriving DecidableEq, Repr

def layoutOf (ws : List Word) : Layout :=
  let f := fun (k hi lo : Nat) => bits (wordAt ws k) hi lo
  { base := f 0 47 0, ext := [f 1 31 0, f 1 63 32, f 2 31 0, f 2 63 32], str := [f 3 47 0, f 4 47 0, f 5 47 0]
    org := [signedOf 32 (f 6 31 0), signedOf 32 (f 6 63 32), signedOf 32 (f 7 31 0), signedOf 32 (f 7 63 32)]
    win := [f 8 15 0, f 8 31 16, f 8 47 32, f 8 63 48], fill := f 9 31 0, fillmode := f 9 33 32
    ty := f 10 4 0, scaled := (wordAt ws 10).getLsbD 5, geom := f 10 7 6, inter := f 10 11 8, scalebase := f 11 47 0 }

/-- Reserved bits of word `k`. -/
def reservedOf (ws : List Word) (k : Nat) : Nat :=
  let w := wordAt ws k
  match k with
  | 0 | 3 | 4 | 5 | 11 => bits w 63 48
  | 9 =>
    let above := match Ty.ofCode (layoutOf ws).ty with | some t => bits w 31 0 / 2 ^ Nat.min 32 (widthOf t) | none => 0
    bits w 63 34 + above
  | 10 => bits w 63 12
  | _ => 0

def CopyCmd.store (c : CopyCmd) : Bool := c.xform.getLsbD 13
def CopyCmd.policy (c : CopyCmd) : Nat := nbitsOf c.xform.toNat 12 11
def CopyCmd.converts (c : CopyCmd) : Bool := c.xform.getLsbD 8
def CopyCmd.transposes (c : CopyCmd) : Bool := c.xform.getLsbD 9
def CopyCmd.far (c : CopyCmd) : Option Ty := Ty.ofCode (layoutOf c.layout).ty
def CopyCmd.nearTy (c : CopyCmd) : Option Ty := if c.converts then Ty.ofCode (nbitsOf c.xform.toNat 7 3) else c.far
/-- The geometry the record names, as it was read at issue. -/
def CopyCmd.geometry (c : CopyCmd) : Word := wordAt c.bgm (layoutOf c.layout).geom
def CopyCmd.total (c : CopyCmd) : Nat := (layoutOf c.layout).win.foldl (fun a b => a * b) 1

/-- Window indices of the `q`-th element visited (R153). -/
def visit (l : Layout) (q : Nat) : List Nat :=
  let w := fun k => l.win.getD k 1
  [q % w 0, q / w 0 % w 1, q / (w 0 * w 1) % w 2, q / (w 0 * w 1 * w 2)]

def coords (l : Layout) (i : List Nat) : List Int := (List.range 4).map (fun k => l.org.getD k 0 + (i.getD k 0 : Int))

def insideExt (l : Layout) (x : List Int) : Bool :=
  (List.range 4).all (fun k => decide (0 ≤ x.getD k 0) && decide (x.getD k 0 < (l.ext.getD k 0 : Int)))

/-- Edge coordinates (R153, fill mode 1). -/
def clampExt (l : Layout) (x : List Int) : List Nat :=
  (List.range 4).map (fun k =>
    let v := x.getD k 0
    if v < 0 then 0 else Nat.min v.toNat (l.ext.getD k 0 - 1))

/-- Near index of the element at window indices `i` (R153). -/
def nearIndex (l : Layout) (transposed : Bool) (i : List Nat) : Nat :=
  let w := fun k => l.win.getD k 1
  let n := fun k => i.getD k 0
  if transposed then ((n 3 * w 2 + n 2) * w 0 + n 0) * w 1 + n 1 else ((n 3 * w 2 + n 2) * w 1 + n 1) * w 0 + n 0

/-- Row and column of an element in its tensor's blocks (R155). -/
def blockAxes (l : Layout) (x : List Nat) : Nat × Nat :=
  let e := fun k => l.ext.getD k 1
  (x.getD 1 0 + e 1 * (x.getD 2 0 + e 2 * x.getD 3 0), x.getD 0 0)

/-- Elements of the block at `(bi, bj)`, by coordinates. -/
def blockElems (l : Layout) (g : Word) (bi bj : Nat) : List (List Nat) :=
  let e := fun k => l.ext.getD k 1
  (List.range (bits g 15 8)).flatMap (fun a => (List.range (bits g 7 0)).filterMap (fun b =>
    let i := bi * bits g 15 8 + a
    let j := bj * bits g 7 0 + b
    if decide (j < e 0) && decide (i < e 1 * e 2 * e 3) then some [j, i % e 1, i / e 1 % e 2, i / (e 1 * e 2)] else none))

/-- Window indices of tensor coordinates, when the window holds them. -/
def windowOf (l : Layout) (x : List Nat) : Option (List Nat) :=
  let i := (List.range 4).map (fun k => ((x.getD k 0 : Nat) : Int) - l.org.getD k 0)
  if (List.range 4).all (fun k => decide (0 ≤ i.getD k 0) && decide (i.getD k 0 < (l.win.getD k 0 : Int))) then some (i.map Int.toNat) else none

/-! ### Checks before any byte moves (R158) -/

def layoutFault (cause : Nat) : FaultRec := { code := .layout, cause := cause }

/-- Type, scaled bit and geometry admitted by the operation (R154, R155). -/
def copyTypesOk (c : CopyCmd) : Bool :=
  let l := layoutOf c.layout
  match c.far, c.nearTy with
  | some f, some n => if c.converts then n != .mq4 && (!l.scaled || canScale f) else f != .mq4 && !l.scaled && l.geom == 0
  | _, _ => false

/-- Every block the window touches lies wholly inside it (R156). -/
def blocksWhole (c : CopyCmd) : Bool :=
  let l := layoutOf c.layout
  let g := c.geometry
  (List.range c.total).all (fun q =>
    let x := coords l (visit l q)
    !insideExt l x ||
      (let (i, j) := blockAxes l (x.map Int.toNat)
       (blockElems l g (i / bits g 15 8) (j / bits g 7 0)).all (fun y => (windowOf l y).isSome)))

/-- The first check that fails (R158). -/
def checkCopy (c : CopyCmd) : Option FaultRec :=
  let l := layoutOf c.layout
  match (List.range 12).find? (fun k => reservedOf c.layout k != 0) with
  | some k => some (layoutFault (1 + k * 2 ^ 12))
  | none =>
    if 6 < l.inter ∨ 1 < l.fillmode then some (layoutFault 5)
    else if !Sys2Proof.xformOk c.xform then some (layoutFault 6)
    else if (l.ext ++ l.win).any (fun n => n == 0) then some (layoutFault 2)
    else if !copyTypesOk c then some (layoutFault 3)
    else if c.converts && l.scaled && !geometryOk c.geometry 32 then some formatFault
    else if c.store && l.scaled && !blocksWhole c then some (layoutFault 3)
    else if c.store && c.far == some .mq4 && !(l.org.all (fun o => o == 0) && l.win == l.ext) then some (layoutFault 3)
    else
      match c.nearTy with
      | some n => if 2 ^ 21 < c.near + packedBytes (widthOf n) c.total then some (layoutFault 4) else none
      | none => some (layoutFault 3)

/-! ### Reaching memory and the scratchpad -/

/-- Translate for the core's own engines beside its four, at the level of the command (R137); class E is refused (R473). -/
def corePage (s : State) (level : Bool) (v n : Nat) (want : Want) : State × Except FaultRec (TlbEntry × Nat) :=
  match translateNow s (sysNow s.core sysPTB) none v want level with
  | (s, .bad f) => (s, .error f)
  | (s, .miss) => (s, .error (trFault 1 v))
  | (s, .ok t pa) =>
    match classOf pa with
    | 3 => (s, .error (engineFault v))
    | 2 => if lentReached s pa n then (s, .ok (t, pa)) else (s, .error (unbackedFault v))
    | _ => (s, .ok (t, pa))

/-- Bytes of one page as unit `u` of the core reads them; of a line in `loaded`, as its one O load has found them (R343). -/
def readLoaded (s : State) (loaded : List L1Line) (u : Nat) (t : TlbEntry) (policy pa n : Nat) : State × List Byte × Bool :=
  (piecesOf 128 (n + 1) pa n).foldl (fun x p =>
    let (s, bs, m) := x
    match loaded.find? (fun l => l.line == p.1 / 128) with
    | some l =>
      let as := (List.range p.2).map (fun i => p.1 + i)
      let k := as.foldl (fun k a => mergeMax k (look [] l.vecs a)) s.core.known
      (modCore s (fun c => { c with known := k }), bs ++ as.map (byteAt s l.moment), m || as.any (poisonedBy s l.moment))
    | none =>
      let (s, b, k) := readMem s u t policy p.1 p.2
      (s, bs ++ b, m || k)) (s, [], false)

/-- Bytes of memory in the core's view (R160), page by page; with the poison mark. -/
def readFar (s : State) (loaded : List L1Line) (u : Nat) (level : Bool) (policy v n : Nat) : State × Except FaultRec (List Byte × Bool) :=
  (piecesOf 65536 (n / 65536 + 3) v n).foldl (fun x p =>
    match x with
    | (s, .error f) => (s, .error f)
    | (s, .ok (bs, m)) =>
      match corePage s level p.1 p.2 { r := true } with
      | (s, .error f) => (s, .error f)
      | (s, .ok (t, pa)) =>
        let (s, b, k) := readLoaded s loaded u t policy pa p.2
        (s, .ok (bs ++ b, m || k))) (s, .ok ([], false))

/-- Bytes that the core's stream side or its sequencer reads. -/
def coreRead (s : State) (level : Bool) (policy v n : Nat) : State × Except FaultRec (List Byte × Bool) := readFar s [] 0 level policy v n

/-- Bytes that the copy engine reads for the command under way. -/
def copyRead (s : State) (c : CopyCmd) (v n : Nat) : State × Except FaultRec (List Byte × Bool) :=
  readFar s (match s.core.copyRun with | some r => r.loaded | none => []) 1 c.level c.policy v n

/-- Merge a write of bits into what is to be stored to a byte. -/
def mergeStore (mark : Bool) (m : Sparse (Byte × Byte × Bool)) (w : Nat × Byte × Byte) : Sparse (Byte × Byte × Bool) :=
  let was := (findKey m w.1).getD (0, 0, false)
  setKey m w.1 ((was.1 &&& ~~~w.2.2) ||| (w.2.1 &&& w.2.2), was.2.1 ||| w.2.2, was.2.2 || mark)

/-- The copy engine writes bits into a page: into an O page at the end of the command, line by line (R343). None: the log is full. -/
def copyPut (s : State) (t : TlbEntry) (policy pa : Nat) (ws : List (Nat × Byte × Byte)) (mark : Bool) : Option State :=
  if isOrdered t pa then
    some (modCore s (fun c => { c with copyRun := c.copyRun.map (fun r => { r with stores := ws.foldl (mergeStore mark) r.stores }) }))
  else storeMem s 1 t policy ws mark

/-- Store bits of consecutive bytes from `v` as an ST would (R160). False: the log is full. -/
def copyWrite (s : State) (level : Bool) (policy v : Nat) (ws : List (Byte × Byte)) (mark : Bool) : State × Except FaultRec Bool :=
  (piecesOf 65536 (ws.length / 65536 + 3) v ws.length).foldl (fun x p =>
    match x with
    | (s, .error f) => (s, .error f)
    | (s, .ok false) => (s, .ok false)
    | (s, .ok true) =>
      match corePage s level p.1 p.2 { w := true } with
      | (s, .error f) => (s, .error f)
      | (s, .ok (t, pa)) =>
        let part := (ws.drop (p.1 - v)).take p.2
        match copyPut s t policy pa (part.zipIdx.map (fun q => (pa + q.2, q.1.1, q.1.2))) mark with
        | some s' => (s', .ok true)
        | none => (s, .ok false)) (s, .ok true)

/-- Bits `p .. p + b - 1` of a byte sequence set to `val`: first byte, and each byte with its mask. -/
def bitBytes (p b val : Nat) : Nat × List (Byte × Byte) :=
  let sh := p % 8
  let n := ceilDiv (sh + b) 8
  let v := leBytes n (val % 2 ^ b * 2 ^ sh)
  let m := leBytes n ((2 ^ b - 1) * 2 ^ sh)
  (p / 8, v.zip m)

/-- Near element `q` of width `b`, with its poison mark. -/
def nearElem (s : State) (o : Option Nat) (near b q : Nat) : Except FaultRec (Nat × Bool) :=
  let (k, bs) := bitBytes (b * q) b 0
  let as := (List.range bs.length).map (fun i => near + k + i)
  match as.findSome? (nearCheck s 1) with
  | some f => .error f
  | none => .ok (leNat (as.map (fun a => (nearBefore s o a).1)) / 2 ^ (b * q % 8) % 2 ^ b, as.any (fun a => (nearBefore s o a).2))

/-- Zero bits that pad the last group of `n` packed elements (R75). -/
def padBits (b n : Nat) : Nat := 8 * packedBytes b n - b * n

/-- Write near element `q` of a tensor of `n` as command `id` (R160), the last one with its padding. -/
def putNear (s : State) (order : Option Nat) (near b n q id val : Nat) (mark : Bool) : Except FaultRec State :=
  let (o, bs) := bitBytes (b * q) (if q + 1 == n then b + padBits b n else b) (val % 2 ^ b)
  match ((List.range bs.length).map (fun i => near + o + i)).findSome? (nearCheck s 1) with
  | some f => .error f
  | none =>
    .ok (bs.zipIdx.foldl (fun s w =>
      let a := near + o + w.2
      let (d, m) := w.1
      let was := nearBefore s order a
      nearPut s order (8 + id) id [0, 1, 2, 3, 4] a ((d &&& m) ||| (was.1 &&& ~~~m)) (mark || (m != 255 && was.2))) s)

/-! ### One element (R153 to R157) -/

/-- What moving an element comes to. -/
inductive Move where
  | ok (s : State)
  | fault (s : State) (f : FaultRec)
  /-- The log is full (R335). -/
  | wait (s : State)
  | poison (s : State)

/-- Byte offset and bit offset of the element at coordinates `x` of a dense-row tensor (R153). -/
def farPlace (l : Layout) (b : Nat) (x : List Nat) : Nat × Nat :=
  let o := x.getD 1 0 * l.str.getD 0 0 + x.getD 2 0 * l.str.getD 1 0 + x.getD 3 0 * l.str.getD 2 0
  let o := if l.inter == 0 then o else o ^^^ (o / 2 ^ (5 * l.inter + 10) % 32 * 1024)
  (l.base + o + b * x.getD 0 0 / 8, b * x.getD 0 0 % 8)

/-- The constant fill of a far type (R152). -/
def fillBits (l : Layout) (t : Ty) : Nat :=
  match t with
  | .s64 => (BitVec.ofNat 32 l.fill).signExtend 64 |>.toNat
  | _ => l.fill % 2 ^ widthOf t

/-- Address of the scale byte of the element at `x` (R87). -/
def scalePlace (l : Layout) (g : Word) (x : List Nat) : Nat :=
  let (i, j) := blockAxes l x
  l.scalebase + i / bits g 15 8 * bits g 63 48 + j / bits g 7 0 * bits g 47 32

/-- Linear index of an mq4 element (R155). -/
def mq4Index (l : Layout) (x : List Nat) : Nat :=
  let e := fun k => l.ext.getD k 1
  x.getD 0 0 + e 0 * (x.getD 1 0 + e 1 * (x.getD 2 0 + e 2 * x.getD 3 0))

/-- Bytes of an mq4 group record (R84). -/
def mq4Record : Nat := 8576

/-- An mq4 element of group records at `base`: super-scale, and code with scale as a cell holds them; FORMAT_CONFIG for a
reserved byte that is not zero (R84). -/
def mq4Load (rd : State → Nat → Nat → State × Except FaultRec (List Byte × Bool)) (s : State) (base n : Nat) :
    State × Except FaultRec (Nat × Nat × Bool) :=
  let r := base + n / 16384 * mq4Record
  let k := n % 16384
  match rd s (r + 8452) 124 with
  | (s, .error f) => (s, .error f)
  | (s, .ok (reserved, _)) =>
    match rd s (r + 8448) 4 with
    | (s, .error f) => (s, .error f)
    | (s, .ok (sup, m)) =>
      match rd s (r + 8192 + k / 64) 1 with
      | (s, .error f) => (s, .error f)
      | (s, .ok (q, m2)) =>
        match rd s (r + k / 2) 1 with
        | (s, .error f) => (s, .error f)
        | (s, .ok (c, m3)) =>
          if reserved.any (fun b => b != 0) then (s, .error formatFault)
          else (s, .ok (leNat sup, (c.headD 0).toNat / 2 ^ (4 * (k % 2)) % 16 + 16 * (q.headD 0).toNat, m || m2 || m3))

/-- Far bits of an element as read, with the poison mark. -/
def farBits (s : State) (c : CopyCmd) (b : Nat) (p : Nat × Nat) : State × Except FaultRec (Nat × Bool) :=
  match copyRead s c p.1 (ceilDiv (p.2 + b) 8) with
  | (s, .error f) => (s, .error f)
  | (s, .ok (bs, m)) => (s, .ok (leNat bs / 2 ^ p.2 % 2 ^ b, m))

/-- Write a loaded element and count its events. -/
def landElem (c : CopyCmd) (n : Ty) (q : Nat) (e : Nat) (counts : List Nat) (mark : Bool) (s : State) : Move :=
  match putNear s c.order c.near (widthOf n) c.total q c.id e mark with
  | .error f => .fault s f
  | .ok s => .ok (countEvents s counts)

/-- Load one element (R153 to R155). -/
def loadElem (s : State) (c : CopyCmd) (f n : Ty) (idx : Nat) : Move :=
  let l := layoutOf c.layout
  let i := visit l idx
  let q := nearIndex l c.transposes i
  let x := coords l i
  if !insideExt l x && l.fillmode == 0 then
    let w := fillBits l f
    if !c.converts then landElem c n q w [] false s
    else if f = .mq4 then
      let (ln, lm) := mq4Level w
      let e := convert n .f32 c.rm c.ovt (elemOf f32Fmt 0 .ieee (.fin ln lm (-8))).bits
      landElem c n q e.bits (fecOf (groupOf n) e.kind) false s
    else
      let e := convert n f c.rm c.ovt w
      landElem c n q e.bits (fecOf (groupOf n) e.kind) false s
  else
    let y := clampExt l x
    if f = .mq4 then
      match mq4Load (fun s v k => copyRead s c v k) s l.base (mq4Index l y) with
      | (s, .error e) => .fault s e
      | (s, .ok (_, _, true)) => .poison s
      | (s, .ok (sup, w, false)) => let (e, counts) := mq4Convert n c.rm c.ovt sup w; landElem c n q e counts false s
    else
      match farBits s c (widthOf f) (farPlace l (widthOf f) y) with
      | (s, .error e) => .fault s e
      | (s, .ok (w, m)) =>
        if !c.converts then landElem c n q w [] m s
        else if m then .poison s
        else if l.scaled then
          match copyRead s c (scalePlace l c.geometry y) 1 with
          | (s, .error e) => .fault s e
          | (s, .ok (_, true)) => .poison s
          | (s, .ok (bs, false)) =>
            let e := convNum n c.rm c.ovt (scaledNum f (bs.headD 0).toNat w)
            landElem c n q e.bits (fecOf (groupOf n) e.kind) false s
        else
          let e := convert n f c.rm c.ovt w
          landElem c n q e.bits (fecOf (groupOf n) e.kind) false s

/-- Near elements as exact values, with a poison mark over them all. -/
def nearNums (s : State) (c : CopyCmd) (n : Ty) (qs : List Nat) : Except FaultRec (List Num × Bool) :=
  qs.foldl (fun x q =>
    match x with
    | .error f => .error f
    | .ok (l, m) =>
      match nearElem s c.order c.near (widthOf n) q with
      | .error f => .error f
      | .ok (w, k) => .ok (l ++ [numOf n w], m || k)) (.ok ([], false))

/-- Store bits at a far place. -/
def putFar (s : State) (c : CopyCmd) (v p b val : Nat) (mark : Bool) (counts : List Nat) : Move :=
  let (o, bs) := bitBytes p b val
  match copyWrite s c.level c.policy (v + o) bs mark with
  | (s, .error f) => .fault s f
  | (s, .ok false) => .wait s
  | (s, .ok true) => .ok (countEvents s counts)

def Move.andThen (m : Move) (k : State → Move) : Move :=
  match m with
  | .ok s => k s
  | .fault s f => .fault s f
  | .wait s => .wait s
  | .poison s => .poison s

/-- Near indices of tensor elements. -/
def nearOf (l : Layout) (c : CopyCmd) (xs : List (List Nat)) : List Nat :=
  xs.map (fun x => nearIndex l c.transposes ((windowOf l x).getD []))

/-- Store an element of a scaled tensor; the block's first element visited writes its scale byte (R156). -/
def storeScaled (s : State) (c : CopyCmd) (f n : Ty) (x : List Nat) (w : Nat) : Move :=
  let l := layoutOf c.layout
  let g := c.geometry
  let (i, j) := blockAxes l x
  let els := blockElems l g (i / bits g 15 8) (j / bits g 7 0)
  match nearNums s c n (nearOf l c els), fmtOf f with
  | .error e, _ => .fault s e
  | .ok (_, true), _ => .poison s
  | .ok (_, false), none => .ok s
  | .ok (ns, false), some fm =>
    let sc := chooseScale f ns
    let e := divScale f fm c.rm (convOver c.ovt fm) sc (numOf n w)
    let (v, p) := farPlace l (widthOf f) x
    let scale := if els.head? == some x then putFar s c (scalePlace l g x) 0 8 sc false [] else .ok s
    scale.andThen (fun s => putFar s c v p (widthOf f) e.bits false (fecOf (groupOf f) e.kind))

/-- Largest finite magnitude among exact values. -/
def largest (l : List Num) : Num :=
  l.foldl (fun a n => match n with
    | .fin _ m e => if ltNum a (.fin false m e) then .fin false m e else a
    | .nan | .inf _ => a) (.fin false 0 0)

/-- Scale of a block whose largest magnitude is `b` in a group of super-scale `sup` (R157). -/
def mq4Scale (sup b : Num) : Nat :=
  match sup, b with
  | .fin _ m2 e2, .fin _ m1 e1 =>
    if m1 == 0 || m2 == 0 then 0
    else
      let d := e1 - e2
      Nat.min 255 (if 0 ≤ d then ceilDiv (255 * m1 * 2 ^ d.toNat) m2 else ceilDiv (255 * m1) (m2 * 2 ^ (-d).toNat))
  | _, _ => 0

/-- Distance between two exact values. -/
def distNum (a b : Num) : Num :=
  match addNum 0 a (negNum b) with
  | .fin _ m e => .fin false m e
  | .nan => .nan
  | .inf _ => .inf false

/-- The mq4 code of a value, and its event (R157). -/
def mq4Code (sup q : Nat) (n : Num) : Nat × List Nat :=
  match n with
  | .nan => (0, fecOf 6 (some 0))
  | .inf neg => (if neg then 15 else 8, fecOf 6 (some 2))
  | .fin _ _ _ =>
    let dist := fun c => distNum n (numOfFmt f32Fmt (mq4Value sup q c))
    let better := fun (a b : Nat) => ltNum (dist a) (dist b) || (!ltNum (dist b) (dist a) && decide ((mq4Level a).2 < (mq4Level b).2))
    ((List.range 16).foldl (fun b c => if better c b then c else b) 0, [])

/-- Super-scale and scales of the group that element `k` belongs to, of a tensor of `total` elements: f32 encoding, and
the scale of every block (R157). -/
def mq4Group (nums : List Num) : Nat × List Nat :=
  let sup := (elemOf f32Fmt 0 .ieee (largest nums)).bits
  (sup, (chunks 64 257 nums).map (fun b => mq4Scale (numOfFmt f32Fmt sup) (largest b)))

/-- Store an element of an mq4 tensor; a group's first element writes its scales, its super-scale, its reserved bytes and
the codes of unused elements (R157, R84). -/
def storeMq4 (s : State) (c : CopyCmd) (n : Ty) (k : Nat) : Move :=
  let l := layoutOf c.layout
  let first := k / 16384 * 16384
  let count := Nat.min 16384 (c.total - first)
  let near := fun q => nearIndex l c.transposes (visit l q)
  match nearNums s c n ((List.range count).map (fun i => near (first + i))) with
  | .error e => .fault s e
  | .ok (_, true) => .poison s
  | .ok (nums, false) =>
    let (sup, qs) := mq4Group nums
    let r := l.base + k / 16384 * mq4Record
    let (code, counts) := mq4Code sup (qs.getD (k % 16384 / 64) 0) (nums.getD (k % 16384) .nan)
    let tail : List Byte := (List.range 256).map (fun b => BitVec.ofNat 8 (qs.getD b 0)) ++ leBytes 4 sup ++ List.replicate 124 0
    let head := if k % 16384 == 0 then
        (match copyWrite s c.level c.policy (r + 8192) (tail.map (fun b => (b, 255#8))) false with
          | (s, .error f) => Move.fault s f
          | (s, .ok false) => .wait s
          | (s, .ok true) =>
            if count == 16384 then .ok s else putFar s c r (4 * count) (4 * (16384 - count)) 0 false [])
      else .ok s
    head.andThen (fun s => putFar s c r (4 * (k % 16384)) 4 code false counts)

/-- Bytes of a near element. -/
def nearSpan (near b q : Nat) : List Nat := (List.range (ceilDiv (b * q % 8 + b) 8)).map (fun i => near + b * q / 8 + i)

/-- Store one element (R153, R155 to R157). -/
def storeElem (s : State) (c : CopyCmd) (f n : Ty) (idx : Nat) : Move :=
  let l := layoutOf c.layout
  let i := visit l idx
  let x := coords l i
  if !insideExt l x then .ok s
  else if f = .mq4 then storeMq4 s c n idx
  else
    match nearElem s c.order c.near (widthOf n) (nearIndex l c.transposes i) with
    | .error e => .fault s e
    | .ok (w, m) =>
      let s := touchNear s 1 (nearSpan c.near (widthOf n) (nearIndex l c.transposes i))
      let y := x.map Int.toNat
      let (v, p) := farPlace l (widthOf f) y
      if !c.converts then putFar s c v p (widthOf f) w m []
      else if m then .poison s
      else if l.scaled then storeScaled s c f n y w
      else
        let e := convert f n c.rm c.ovt w
        putFar s c v p (widthOf f) e.bits false (fecOf (groupOf f) e.kind)

/-- Far bytes that a load reads for the element at position `idx`: address and count. -/
def farReads (c : CopyCmd) (f : Ty) (idx : Nat) : List (Nat × Nat) :=
  let l := layoutOf c.layout
  let x := coords l (visit l idx)
  if !insideExt l x && l.fillmode == 0 then []
  else
    let y := clampExt l x
    if f = .mq4 then
      let k := mq4Index l y % 16384
      let r := l.base + mq4Index l y / 16384 * mq4Record
      [(r + 8192 + k / 64, 1), (r + 8448, 128), (r + k / 2, 1)]
    else
      let p := farPlace l (widthOf f) y
      (p.1, ceilDiv (p.2 + widthOf f) 8) :: (if l.scaled then [(scalePlace l c.geometry y, 1)] else [])

/-- Virtual lines that a load reads, rising. -/
def farLines (c : CopyCmd) : List Nat :=
  match c.far with
  | none => []
  | some f =>
    if c.store then []
    else sortNat (dedupNat ((List.range c.total).flatMap (fun k => (farReads c f k).flatMap (fun r => [r.1 / 128, (r.1 + r.2 - 1) / 128]))))

def moveElem (s : State) (c : CopyCmd) (idx : Nat) : Move :=
  match c.far, c.nearTy with
  | some f, some n => if c.store then storeElem s c f n idx else loadElem s c f n idx
  | _, _ => .ok s

/-! ### Running and finishing a command (R151, R158, R159) -/

/-- Virtual address of the poisoned byte that a load meets at element `k`, the first of the element where it is met no more; 0 for a
store, which meets it in the scratchpad (R433). -/
def poisonedAt (s : State) (c : CopyCmd) (k : Nat) : Nat :=
  match c.far, c.store with
  | some f, false =>
    let vs := (farReads c f k).flatMap (fun r => (List.range r.2).map (fun i => r.1 + i))
    (vs.find? (fun v => match (copyRead s c v 1).2 with | .ok (_, m) => m | .error _ => false)).getD (vs.headD 0)
  | _, _ => 0

/-- The copy under way has consumed poison: rollback, or the fault of R433. -/
def copyPoison (s : State) (r : CopyRun) : State :=
  if s.core.noRollback then
    modCore s (fun c => { c with copyRun := some { r with fault := some { code := .poison, cause := 2, tval := BitVec.ofNat 64 (poisonedAt s r.cmd r.pos) } } })
  else poisonTask s (taskMark s) 0

/-- The record of a fault met at element `k` gives the element's index (R158, R413). DEDUCED, log entry 16. -/
def metAt (k : Nat) (f : FaultRec) : FaultRec := { f with tval := BitVec.ofNat 64 k }

/-- The O accesses of a command at place `order` of the walk wait for earlier RELs, ACQs and FENCEs (R350). -/
def accessHeld (c : Core) (order : Option Nat) : Bool :=
  match order with
  | some n => c.orderWaits.any (fun w => decide (w.seq < n))
  | none => false

def modRun (s : State) (f : CopyRun → CopyRun) : State := modCore s (fun c => { c with copyRun := c.copyRun.map f })

/-- The command looks at virtual line `v` of its far tensor before it moves an element: a line of an O page is loaded once (R343). -/
def lookAhead (s : State) (r : CopyRun) (v : Nat) : State :=
  let past := fun (s : State) => modRun s (fun r => { r with ahead := r.ahead.tail })
  match corePage s r.cmd.level (128 * v) 128 { r := true } with
  | (s, .error _) => past s
  | (s1, .ok (t, pa)) =>
    if !isOrdered t pa then past s1
    else if accessHeld s.core r.cmd.order then s
    else
      let (s, l) := oLoad s1 1 (policyRank (leafPolicy t.leaf) r.cmd.policy) (pa / 128)
      modRun (past s) (fun r => { r with loaded := l :: r.loaded })

/-- One line of the O pages that the command writes is stored (R342, R343). -/
def storeLine (s : State) (r : CopyRun) : State :=
  match r.stores with
  | [] => s
  | (a, _) :: _ =>
    if accessHeld s.core r.cmd.order then s
    else
      let line := a / 128
      let mine := r.stores.filter (fun w => w.1 / 128 == line)
      let s := oStore (askSlice s (unitOf s 1) (128 * line) 0 true) line (mine.map (fun w => (w.1, w.2.1, w.2.2.1)))
      let s := poisonBytes s ((mine.filter (fun w => w.2.2.2)).map Prod.fst)
      modRun s (fun r => { r with stores := r.stores.filter (fun w => w.1 / 128 != line) })

/-- Move up to `n` elements of the command under way, in visiting order. -/
def moveElems : Nat → State → State
  | 0, s => s
  | n + 1, s =>
    match s.core.copyRun with
    | none => s
    | some r =>
      if r.fault.isSome || decide (r.cmd.total ≤ r.pos) then s
      else
        match moveElem s r.cmd r.pos with
        | .ok s => moveElems n (modRun s (fun r => { r with pos := r.pos + 1 }))
        | .fault s f => modRun s (fun x => { x with fault := some (metAt r.pos f) })
        | .wait s => spill s
        | .poison s => copyPoison s r

/-- A command starts when the matrix moves before it in the walk have reached the scratchpad (R175). -/
def waitsForMoves (c : Core) (q : CopyCmd) : Bool :=
  match q.order with
  | some n => movesBefore (c.landing ++ (match c.trapFrame with | some f => f.landing | none => [])) n
  | none => false

/-- Nothing that stores overtook is still to act. -/
def dropOld (c : Core) : Core :=
  if c.copyQueue.isEmpty && c.copyRun.isNone && c.fillQueue.isEmpty && c.fillRun.isNone then { c with nearOld := [] } else c

/-- The command has moved what it is to move. -/
def CopyRun.moved (r : CopyRun) : Bool := r.fault.isSome || decide (r.cmd.total ≤ r.pos)

/-- Results of the core's copy FIFO that wait for the context of a pushed command: at 256 none is started (R146). -/
def resultsFull (s : State) (q : CopyCmd) : Bool :=
  q.fifo && decide (256 ≤ (resultsOf (fifoAt s (dieOfCore s.cur) (fifoCopy + s.cur % 64)) q.ctx).length)

/-- A command as it starts: its record is checked before any byte moves (R158). -/
def startRun (q : CopyCmd) : CopyRun :=
  match q.broken.orElse (fun _ => checkCopy q) with
  | some f => { cmd := q, pos := 0, fault := some f }
  | none => { cmd := q, pos := 0, ahead := farLines q }

/-- COPY_TRANSFER (R151, R153, R158): the copy engine starts its next command and checks it, or goes on with the one under way:
it loads the next of its lines of O pages, moves `n` elements, or stores the next of those lines. -/
def execEvCopyTransfer (s : State) : Host.Outcome State Fault Refusal :=
  let s := focus s s.arg.core.toNat
  match s.core.copyRun with
  | some r =>
    match r.ahead with
    | v :: _ => .next (lookAhead s r v)
    | [] => .next (if r.moved then storeLine s r else moveElems s.arg.n s)
  | none =>
    if s.core.fillRun.isSome || !s.core.fillQueue.isEmpty then .next s
    else
      match s.core.copyQueue with
      | [] => .next s
      | q :: qs =>
        if waitsForMoves s.core q || resultsFull s q || s.core.badCmds.contains q.id then .next s
        else .next (modCore s (fun c => { c with copyQueue := qs, copyRun := some (startRun q) }))

/-- Tokens of command `id`, whose instruction stands at place `seq` of its engine's walk, marked with its fault; with an empty push
set the fault is owed by engine `owes` (R159, R274, R301). -/
def endTokens (clk : Nat) (owner owes : Eng) (push : BitVec 4) (id seq : Nat) (f : Option FaultRec) (c : Core) : Core :=
  let t : Token := { src := owner.num, seq := seq, cmd := some id, mark := f, clk := clk }
  match f with
  | some x =>
    if push == 0 then c.setEng owes { c.eng owes with owed := (c.eng owes).owed ++ [x] }
    else pushCommand c owner push id t
  | none => pushCommand c owner push id t

/-- The result word of a pushed copy that met `f` at element `k` (R149). -/
def copyResult (f : Option FaultRec) (k : Nat) : Word :=
  match f with
  | none => 0
  | some x => BitVec.ofNat 64 (x.code.num + x.cause % 65536 * 2 ^ 16 + k % 2 ^ 32 * 2 ^ 32)

/-- A stream of a task being staged has faulted (R400, R402). -/
def stagingFault (s : State) (f : FaultRec) : State :=
  let s := modCore s (fun c => { c with copyQueue := c.copyQueue.filter (fun q => !q.staging) })
  match s.core.task with
  | none => s
  | some t => modDie s (dieOfCore s.cur) (fun d =>
      { d with tasks := d.tasks.map (fun p => if p.1 == t then (t, { p.2 with fault := some (f, p.2.entry) }) else p) })

/-- COPY_COMPLETE (R149, R159). -/
def execEvCopyComplete (s : State) : Host.Outcome State Fault Refusal :=
  let s := focus s s.arg.core.toNat
  match s.core.copyRun with
  | none => .next s
  | some r =>
    if !r.moved || !r.stores.isEmpty then .next s
    else
      let s1 := modCore s (fun c => dropOld { c with copyRun := none })
      if r.cmd.fifo then
        .next (postRes s1 (dieOfCore s.cur) (fifoCopy + s.cur % 64) { ctx := r.cmd.ctx, val := copyResult r.fault r.pos, fault := r.fault, cmd := some r.cmd.id })
      else if r.cmd.staging then
        .next (match r.fault with | some f => stagingFault s1 f | none => s1)
      else .next (modCore s1 (endTokens s.clk .a .a r.cmd.push r.cmd.id (r.cmd.order.getD 0) r.fault))

/-! ### Probe fills (R194) -/

/-- Bytes that a step of a fill moves: of an O page, whole lines, each by one load (R343). -/
def fillSpan (f : Fill) (n : Nat) : Nat :=
  Nat.min (if leafCoh f.page.leaf == .o then 128 * ceilDiv n 128 else n) (4096 - f.pos)

/-- PROBE_FILL: the copy engine starts the oldest waiting fill, or moves `n` bytes of the one under way. -/
def execEvProbeFill (s : State) : Host.Outcome State Fault Refusal :=
  let s := focus s s.arg.core.toNat
  match s.core.fillRun with
  | none =>
    match s.core.fillQueue, s.core.copyRun with
    | f :: fs, none =>
      if movesBefore s.core.landing f.order then .next s else .next (modCore s (fun c => { c with fillQueue := fs, fillRun := some f }))
    | _, _ => .next s
  | some f =>
    let n := fillSpan f s.arg.n
    if isOrdered f.page f.pa && accessHeld s.core (some f.order) then .next s
    else
      let (s1, bs) := readMarked s 1 f.page 0 (f.pa + f.pos) n
      let s2 := bs.zipIdx.foldl (fun s b => nearPut s (some f.order) 1 f.order [] (f.slot + f.pos + b.2) b.1.1 b.1.2) s1
      .next (modCore s2 (fun c => { c with fillRun := some { f with pos := f.pos + n } }))

/-- FILL_DONE (R194): the fill's entry is no longer pending. -/
def execEvFillDone (s : State) : Host.Outcome State Fault Refusal :=
  let s := focus s s.arg.core.toNat
  match s.core.fillRun with
  | none => .next s
  | some f =>
    if f.pos < 4096 then .next s
    else .next (modCore s (fun c => dropOld { c with
      fillRun := none, probeTags := c.probeTags.map (fun t => if t.entry == f.entry then { t with pending := false } else t) }))

end Sys2Proof.Machine
end

