-- ==== Sys2Proof/Machine/Weight.lean ====
section
/-!
DEFINITION. The weight-code engine (R250 to R274): its main-text instructions, the command queue, the stream side with its
directives, the code buffer and the starved clk.
-/
namespace Sys2Proof.Machine

/-! ### Rows of lanes (R179) -/

/-- Number of lane 0 of accumulator row `r`, and of a slot selector's lane 0 (R263). -/
def accBase (r : Nat) : Nat := 512 * (r % 256)
def slotBase (x : Nat) : Nat := 512 * (x % 32)

/-- The `n` entries of a table from `k`. -/
def rangeOf (m : Sparse Cell) (k n : Nat) : List Cell :=
  lookAll 0 (m.filter (fun p => decide (k ≤ p.1) && decide (p.1 < k + n))) k n

/-- The table with the entries from `k` on set to `vs`. -/
def setRange (m : Sparse Cell) (k : Nat) (vs : List Cell) : Sparse Cell :=
  m.filter (fun p => decide (p.1 < k)) ++
    (vs.zipIdx.filterMap (fun q => if q.1 = 0 then none else some (k + q.2, q.1))) ++
    m.filter (fun p => decide (k + vs.length ≤ p.1))

/-- Is an entry of the range poisoned? -/
def rangePoison (m : Sparse Bool) (k n : Nat) : Bool := m.any (fun p => decide (k ≤ p.1) && decide (p.1 < k + n))

def clearRange (m : Sparse Bool) (k n : Nat) : Sparse Bool := m.filter (fun p => !(decide (k ≤ p.1) && decide (p.1 < k + n)))

def accRow (c : Core) (r : Nat) : List Cell := rangeOf c.acc (accBase r) 512
def slotRow (c : Core) (x : Nat) : List Cell := rangeOf c.slots (slotBase x) 512

def setAcc (c : Core) (r : Nat) (vs : List Cell) : Core :=
  { c with acc := setRange c.acc (accBase r) vs, accPoison := clearRange c.accPoison (accBase r) 512 }

def setSlot (c : Core) (x : Nat) (vs : List Cell) : Core :=
  { c with slots := setRange c.slots (slotBase x) vs, slotPoison := clearRange c.slotPoison (slotBase x) 512 }

/-! ### WSTRIPE, WZERO, WCALL, WDRAIN (R253 to R258) -/

def weightFault (cause : Nat) : FaultRec := { code := .weightCode, cause := cause }

/-- The checks of WSTRIPE at issue (R254). -/
def stripeFault (st : Stripe) : Option FaultRec :=
  if st.base % 4 != 0 || st.pitch % 4 != 0 then some (nearFault 3 st.base)
  else if 0x1FFFFF < st.base + (st.k - 1) * st.pitch + rowBytes st.ty - 1 then some (nearFault 1 st.base)
  else none

/-- The stripe a WSTRIPE names: pitch in bits 15:0 of its word, K - 1 in bits 27:16. -/
def stripeOf (base word : Nat) (t : Ty) (rm : BitVec 2) : Stripe :=
  { base := base, pitch := word % 65536, k := word / 65536 % 4096 + 1, ty := t, rm := rm }

def execWstripe (h : Hdr) (a : Reg) (t : Ty) (x : Src2) (s : State) : Host.Outcome State Fault Refusal :=
  issueOut h (src2Len x) (.g a.toNat :: src2Locs x) (fun p =>
    let st := stripeOf (readG p .w a.toNat).toNat (src2Z p .w x).toNat t h.rm
    match stripeFault st with
    | some f => .trap f
    | none => queueW h p (.stripe st)) s

def execWzero (h : Hdr) (x : Src2) (s : State) : Host.Outcome State Fault Refusal :=
  issueOut h (src2Len x) (src2Locs x) (fun p =>
    let w := (src2Z p .w x).toNat
    queueW h p (.zero (w % 256) (w / 256 % 256 + 1))) s

/-- A descriptor header (R259). -/
structure Matrix where
  floor : Nat
  gen : Nat
  table : Nat
  count : Nat
  k : Nat
  rows : Nat
  arow : Nat
  floatKind : Bool
deriving DecidableEq, Repr

/-- Read a header's 64 bytes; none where it is malformed. -/
def matrixOf (bs : List Byte) : Option Matrix :=
  let m : Matrix := {
    floor := recNat bs 56 8, gen := recNat bs 48 8, table := recNat bs 40 8, count := recNat bs 36 4
    k := recNat bs 32 4, rows := recNat bs 30 2, arow := recNat bs 29 1, floatKind := recNat bs 28 1 == 0 }
  if recNat bs 0 4 != 0x57434F44 || recNat bs 4 24 != 0 || decide (1 < recNat bs 28 1) then none
  else if m.rows == 0 || decide (256 < m.rows) || m.k == 0 || decide (4194304 < m.k) then none
  else if m.count != ceilDiv m.k 64 || m.table % 64 != 0 then none
  else some m

/-- Level of the core, as a permission of its accesses. -/
def coreLevel (s : State) : Bool := privileged s.core

/-- The stream side's or WCALL's reading of a header at `d` (R256, R262, R268). The mark says it is poisoned. -/
def readMatrix (s : State) (d : Nat) : State × Except FaultRec (Matrix × Bool) :=
  match coreRead s (coreLevel s) 0 d 64 with
  | (s, .error f) => (s, .error f)
  | (s, .ok (bs, mark)) =>
    if d % 64 != 0 then (s, .error (weightFault 1))
    else
      match matrixOf bs with
      | none => (s, .error (weightFault 1))
      | some m => (s, .ok (m, mark))

/-- In an interlocked region a WCALL waits for the MSTs of earlier groups that write its stripe (R385). What those that the access engine
has still to issue will write is not known, so it waits for each: DESIGN CHOICE, log entry 61. -/
def callHeld (c : Core) : Bool :=
  let st := (c.wQueue.foldl (fun (x : Stripe) w => match w.op with | .stripe st => st | .call _ _ _ | .zero _ _ | .slack _ => x) c.stripe)
  interlocked c .w && (c.engW.ahead.any (fun g => decide (g < c.engW.walk) && stillBefore c .a g) ||
    (decide (0 < c.engW.walk) && inStretch c .a (c.engW.walk - 1)) ||
    c.landing.any (fun l => l.eng == .a && decide (l.tag < c.engW.walk) &&
      match l.act with
      | .storeSegment a ks t => stripeTouches st a (packedBytes (widthOf t) ks.length)
      | .write ws => ws.any (fun w => match w.loc with | .near a => stripeTouches st a 1 | .g _ | .cell _ | .k _ => false)
      | .loadSegment _ _ _ => false))

def execWcall (h : Hdr) (a : Reg) (x : Src2) (s : State) : Host.Outcome State Fault Refusal :=
  issueOut h (src2Len x) (.g a.toNat :: src2Locs x) (fun p =>
    let d := (readG p .w a.toNat).toNat
    match translate p .w d { r := true } with
    | .miss => .wait (askWalk d { r := true })
    | .bad f => .trap f
    | .ok _ _ =>
      if decide (16 ≤ p.core.wQueue.length) || callHeld p.core then .wait nothing
      else
        match readMatrix p d with
        | (_, .error f) => .trap (if f.code = .weightCode then { f with tval := BitVec.ofNat 64 d } else f)
        | (p1, .ok (m, mark)) =>
          if mark then .poison (BitVec.ofNat 64 d)
          else queueW h p1 (.call d m.gen ((src2Z p .w x).toNat % 256))) s

/-- Every weight-code command issued before has been completed (R257). -/
def weightIdle (c : Core) : Bool := c.wQueue.isEmpty && c.call.isNone

/-- One register's landing of a WDRAIN: the 16 rows' lane block `blk` as cells of `reg` (R257). -/
def drainLanding (h : Hdr) (p : State) (st dt : Ty) (row blk reg k n : Nat) : Landing :=
  let es := (List.range 16).flatMap (fun i => (rangeOf p.core.acc (accBase (row + i) + 64 * blk) 64).zipIdx.map (fun q =>
    (cellNo reg i q.2, convert dt st h.rm (readSys p .w sysOVT) q.1.toNat)))
  { due := some (p.core.ck + 4 + k), eng := .w, seq := p.core.engW.seq, tag := p.core.engW.walk, scoreboard := false
    act := .write (es.map (fun e => { loc := .cell e.1, val := BitVec.ofNat 64 e.2.bits }))
    push := if k + 1 == n then h.push else 0
    counts := es.flatMap (fun e => fecOf (groupOf dt) e.2.kind) }

def execWdrain (h : Hdr) (d : Reg) (st : Ty) (t : Ty) (x : Src2) (s : State) : Host.Outcome State Fault Refusal :=
  issueOut h (src2Len x) (src2Locs x) (fun p =>
    let w := (src2Z p .w x).toNat
    let row := w % 256
    let n := w / 2048 % 8 + 1
    if !weightIdle p.core then .wait nothing
    else if (List.range n).any (fun k => (List.range 16).any (fun i =>
        rangePoison p.core.accPoison (accBase (row + i) + 64 * ((w / 256 + k) % 8)) 64)) then .poison 0
    else
      .later (modCore p (fun c => (List.range n).foldl (fun c k =>
        addLanding c (drainLanding h p st t row ((w / 256 + k) % 8) ((d.toNat + k) % 32) k n)) c))) s

/-! ### The command queue (R251) -/

/-- The stream side takes a command: what engine W had seen at its issue is known to it (R258). -/
def streamSees (ids : List Nat) (c : Core) : Core :=
  let see := fun {α : Type} (f : File α) =>
    let os := f.old.map (fun o => if ids.contains o.id then { o with blind := o.blind.filter (fun r => r != 4) } else o)
    ({ f with old := os.filter (fun o => !o.blind.isEmpty) } : File α)
  { c with g := see c.g, near := see c.near, sys := see c.sys }

/-- The oldest queued command, if the stream side is free to take it. -/
def nextWeight (c : Core) : Option WCmd := if c.call.isSome then none else c.wQueue.head?.filter (fun w => !c.badCmds.contains w.id)

/-- Take the command `w` and push its tokens. -/
def takeWeight (clk : Nat) (w : WCmd) (c : Core) : Core :=
  endTokens clk .w .w w.push w.id w.seq none (streamSees w.sees { c with wQueue := c.wQueue.tail })

/-- STRIPE_APPLY (R254). -/
def execEvStripeApply (s : State) : Host.Outcome State Fault Refusal :=
  let s := focus s s.arg.core.toNat
  match nextWeight s.core with
  | none => .next s
  | some w =>
    match w.op with
    | .stripe st => .next (modCore s (fun c => takeWeight s.clk w { c with stripe := st }))
    | .zero _ _ | .call _ _ _ | .slack _ => .next s

/-- ZERO_APPLY (R255). -/
def execEvZeroApply (s : State) : Host.Outcome State Fault Refusal :=
  let s := focus s s.arg.core.toNat
  match nextWeight s.core with
  | none => .next s
  | some w =>
    match w.op with
    | .zero base n => .next (modCore s (fun c => takeWeight s.clk w ((List.range n).foldl (fun c i => setAcc c (base + i) (List.replicate 512 0)) c)))
    | .stripe _ | .call _ _ _ | .slack _ => .next s

/-- SLACK_APPLY (R388). -/
def execEvSlackApply (s : State) : Host.Outcome State Fault Refusal :=
  let s := focus s s.arg.core.toNat
  match nextWeight s.core with
  | none => .next s
  | some w =>
    match w.op with
    | .slack n => .next (modCore s (fun c => takeWeight s.clk w { c with wSlack := n }))
    | .stripe _ | .call _ _ _ | .zero _ _ => .next s

/-! ### Calls and segments (R259 to R262, R267, R268, R274) -/

/-- The call ends; a fault marks its tokens (R262, R274). -/
def endCall (s : State) (k : StreamCall) (f : Option FaultRec) : State :=
  modCore s (fun c => endTokens s.clk .w .w k.cmd.push k.cmd.id k.cmd.seq f { c with call := none })

/-- A fault on the stream side ends the call (R274). -/
def streamFault (s : State) (f : FaultRec) : State :=
  match s.core.call with
  | none => s
  | some k => endCall s k (some { f with stream := some k.pos.pc })

/-- The stream side consumes poison (R116, R432, R433). -/
def streamPoison (s : State) (tval : Nat) : State :=
  if s.core.noRollback then streamFault s { code := .poison, cause := 2, tval := BitVec.ofNat 64 tval }
  else modCore s (fun c => { c with rollback := true, running := false })

def kindOf (t : Ty) : Bool := decide (t = .f32) || decide (t = .bf16) || decide (t = .f16)

/-- CALL_RUN (R262): the stream side takes a call and reads its header again; what the read finds wrong it learns when the read returns
(R474). -/
def execEvCallRun (s : State) : Host.Outcome State Fault Refusal :=
  let s := focus s s.arg.core.toNat
  match nextWeight s.core with
  | none => .next s
  | some w =>
    match w.op with
    | .stripe _ | .zero _ _ | .slack _ => .next s
    | .call d gen abase =>
      let s1 := modCore s (fun c => streamSees w.sees { c with wQueue := c.wQueue.tail })
      let k : StreamCall := { cmd := w, abase := abase, floatKind := true, pos := { gen := gen, arow := 0, segTable := 0, segCount := 0, seg := 0 } }
      let found := fun (s : State) (r : StreamRead) => modCore s (fun c => { c with call := some { k with read := some r } })
      match readMatrix s1 d with
      | (s2, .error f) => .next (found s2 (.fault f))
      | (s2, .ok (m, mark)) =>
        if mark then .next (found s2 (.poison d))
        else if m.floatKind != kindOf s.core.stripe.ty || decide (s.core.stripe.k < m.k) then .next (found s2 (.fault (weightFault 3)))
        else
          .next (modCore s2 (fun c => { c with call := some { k with
            floatKind := m.floatKind
            pos := { gen := gen, arow := m.arow, segTable := m.table, segCount := m.count, seg := 0 } } }))

/-- A segment entry (R260). -/
structure Segment where
  valid : Bool
  gen : Nat
  start : Nat
  slack : Nat
  parcels : Nat
  /-- No reserved bit is set; the low bits of the stream address, a multiple of 4, count as reserved. -/
  clean : Bool
deriving DecidableEq, Repr

def segmentOf (bs : List Byte) : Segment :=
  { valid := recNat bs 0 1 % 2 == 1, gen := recNat bs 24 8, start := recNat bs 16 8, slack := recNat bs 12 4
    parcels := recNat bs 8 4, clean := decide (recNat bs 0 1 < 2) && recNat bs 1 7 == 0 && recNat bs 16 8 % 4 == 0 }

/-- The entry a call of generation `gen` uses (R261). -/
def chooseSegment (gen : Nat) (bs : List Byte) : Option Segment :=
  let e0 := segmentOf bs
  let e1 := segmentOf (bs.drop 32)
  let ok := fun (e : Segment) => e.valid && decide (e.gen ≤ gen)
  let pick := if ok e0 && ok e1 then (if e0.gen < e1.gen then some e1 else some e0)
    else if ok e0 then some e0 else if ok e1 then some e1 else none
  match pick with
  | some e => if e.clean then some e else none
  | none => none

/-- The entry of the segment at `pos` as a load would find it now. -/
def segmentNow (s : State) (pos : StreamPos) : State × Except FaultRec (Segment × Bool) :=
  match coreRead s (coreLevel s) 0 (pos.segTable + 64 * pos.seg) 64 with
  | (s, .error f) => (s, .error f)
  | (s, .ok (bs, mark)) =>
    match chooseSegment pos.gen bs with
    | none => (s, .error (weightFault 2))
    | some e => (s, .ok (e, mark))

def setPos (s : State) (pos : StreamPos) : State := modCore s (fun c => { c with call := c.call.map (fun k => { k with pos := pos }) })

/-- A read of a header or of a hook entry returns (R268, R474): that of a valid entry is followed by that of its descriptor's header. -/
def readReturns (s : State) (k : StreamCall) (r : StreamRead) : State :=
  match r with
  | .fault f => streamFault s f
  | .poison v => streamPoison s v
  | .noHook => modCore s (fun c => { c with call := some { k with pos := k.caller.getD k.pos, caller := none, read := none } })
  | .hook d =>
    let found := fun (s : State) (r : StreamRead) => modCore s (fun c => { c with call := some { k with read := some r } })
    match readMatrix s d with
    | (s1, .error f) => found s1 (.fault f)
    | (s1, .ok (m, mark)) =>
      if mark then found s1 (.poison d)
      else
        modCore s1 (fun c => { c with call := some { k with
          read := none, pos := { k.pos with gen := m.gen, arow := m.arow, segTable := m.table, segCount := m.count, seg := 0 } } })

/-- SEGMENT_START (R261): what the stream side reads before it executes directives returns, at last the entry of the segment. -/
def execEvSegmentStart (s : State) : Host.Outcome State Fault Refusal :=
  let s := focus s s.arg.core.toNat
  match s.core.call with
  | none => .next s
  | some k =>
    match k.read with
    | some r => .next (readReturns s k r)
    | none =>
      if k.pos.inSegment then .next s
      else
      match segmentNow s k.pos with
      | (s1, .error f) => .next (streamFault s1 f)
      | (s1, .ok (e, mark)) =>
        if mark then .next (streamPoison s1 (k.pos.segTable + 64 * k.pos.seg))
        else
          .next (setPos s1 { k.pos with
            colbase := 64 * k.pos.seg, start := e.start, parcels := e.parcels, pc := e.start
            slack := Nat.max e.slack s.core.wSlack, inSegment := true })

/-- Go on after a segment: the next one, whose entry is still to be read and whose lag is 0. -/
def nextSegment (pos : StreamPos) : StreamPos := { pos with seg := pos.seg + 1, inSegment := false, lag := 0 }

/-! ### Directives (R263 to R269) -/

/-- Execute a directive in the running call. -/
def onStream (s : State) (f : StreamCall → State) : Host.Outcome State Fault Refusal :=
  match s.core.call with
  | none => .next s
  | some k => if k.pos.inSegment then .next (f k) else .next s

/-- Finish a directive of `n` parcels with the events its results count. -/
def directiveDone (s : State) (k : StreamCall) (n : Nat) (counts : List Nat) : State :=
  countEvents (setPos s { k.pos with pc := k.pos.pc + 4 * n }) counts

/-- Events of results: float kinds in group 0, clamped integers in group 7 (R269). -/
def streamCounts (floatKind : Bool) (es : List Elem) : List Nat := es.flatMap (fun e => fecOf (if floatKind then 0 else 7) e.kind)

def cellsOf (es : List Elem) : List Cell := es.map (fun e => BitVec.ofNat 32 e.bits)

/-- A weight times a stripe element or an accumulator lane, as exact values of types `wt` and `t` (R264). -/
def product (floatKind exact : Bool) (rm : BitVec 2) (w : BitVec 16) (t : Ty) (x : Nat) : Elem :=
  if floatKind then
    let a := numOf .bf16 w.toNat
    let b := numOf t x
    arith f32Fmt rm .ieee [a, b] (mulNum a b)
  else
    let v := intOf .s16 w.toNat * intOf t x
    if exact then wrapElem .s32 v else clampElem .s32 v

/-- Near address of stripe row `k`. -/
def stripeRow (st : Stripe) (k : Nat) : Nat := st.base + k * st.pitch

def rowAddrs (st : Stripe) (k : Nat) : List Nat := (List.range (rowBytes st.ty)).map (fun i => stripeRow st k + i)

/-- WPREP (R264). -/
def execWprep (w : BitVec 16) (col : BitVec 6) (q : BitVec 4) (s : State) : Host.Outcome State Fault Refusal :=
  onStream s (fun k =>
    let st := s.core.stripe
    let row := k.pos.colbase + col.toNat
    if st.k ≤ row then streamFault s (weightFault 4)
    else
      let as := rowAddrs st row
      match as.findSome? (nearCheck s 4) with
      | some f => streamFault s f
      | none =>
        if as.any (nearPending s.core none) then s
        else if as.any (nearPoison s 4) then streamPoison s (stripeRow st row)
        else
          let xs := unpackElems (widthOf st.ty) 512 (as.map (nearByte s 4))
          let es := xs.map (product k.floatKind true st.rm w st.ty)
          directiveDone (modCore (touchNear s 4 as) (fun c => setSlot c q.toNat (cellsOf es))) k 1 (streamCounts k.floatKind es))

/-- WPREPA (R264). -/
def execWprepa (w : BitVec 16) (row : BitVec 6) (q : BitVec 4) (s : State) : Host.Outcome State Fault Refusal :=
  onStream s (fun k =>
    let r := k.abase + k.pos.arow + row.toNat
    if rangePoison s.core.accPoison (accBase r) 512 then streamPoison s 0
    else
      let es := (accRow s.core r).map (fun x => product k.floatKind false s.core.stripe.rm w (if k.floatKind then .f32 else .s32) x.toNat)
      directiveDone (modCore s (fun c => setSlot c q.toNat (cellsOf es))) k 1 (streamCounts k.floatKind es))

/-- Sum or difference of two lanes: one rounding, or clamped (R265, R266, R91). -/
def laneSum (floatKind : Bool) (rm : BitVec 2) (sub : Bool) (a b : Nat) : Elem :=
  if floatKind then (if sub then f32Sub rm a b else f32Add rm a b)
  else clampElem .s32 (if sub then intOf .s32 a - intOf .s32 b else intOf .s32 a + intOf .s32 b)

/-- A lane with a sign put before it, as WSUM takes it: `(±x) + (±y)` in one rounding (R265). -/
def signedSum (floatKind : Bool) (rm : BitVec 2) (nx ny : Bool) (x y : Nat) : Elem :=
  if floatKind then
    let flip := fun (n : Bool) (v : Nat) => if n then Nat.xor v 0x80000000 else v
    f32Add rm (flip nx x) (flip ny y)
  else clampElem .s32 ((if nx then - intOf .s32 x else intOf .s32 x) + (if ny then - intOf .s32 y else intOf .s32 y))

/-- WSUM (R265). -/
def execWsum (ny nx : Bool) (y x : BitVec 5) (q : BitVec 4) (s : State) : Host.Outcome State Fault Refusal :=
  onStream s (fun k =>
    if rangePoison s.core.slotPoison (slotBase x.toNat) 512 || rangePoison s.core.slotPoison (slotBase y.toNat) 512 then streamPoison s 0
    else
      let es := ((slotRow s.core x.toNat).zip (slotRow s.core y.toNat)).map (fun p =>
        signedSum k.floatKind s.core.stripe.rm nx ny p.1.toNat p.2.toNat)
      directiveDone (modCore s (fun c => setSlot c (16 + q.toNat) (cellsOf es))) k 1 (streamCounts k.floatKind es))

/-- One row-add (R266), with its events. -/
def rowAdd (floatKind : Bool) (rm : BitVec 2) (sub : Bool) (x r : Nat) (a : Core × List Nat) : Core × List Nat :=
  let es := ((accRow a.1 r).zip (slotRow a.1 x)).map (fun p => laneSum floatKind rm sub p.1.toNat p.2.toNat)
  (setAcc a.1 r (cellsOf es), a.2 ++ streamCounts floatKind es)

/-- Row-adds of slot `x` into the listed rows, in order; each with whether it subtracts. -/
def rowAdds (s : State) (k : StreamCall) (x : Nat) (rows : List (Nat × Bool)) (n : Nat) : State :=
  if rangePoison s.core.slotPoison (slotBase x) 512 || rows.any (fun r => rangePoison s.core.accPoison (accBase r.1) 512) then streamPoison s 0
  else
    let (c, counts) := rows.foldl (fun a r => rowAdd k.floatKind s.core.stripe.rm r.2 x r.1 a) (s.core, [])
    directiveDone { s with core := c } k n counts

/-- WACC (R266). -/
def execWacc (x : BitVec 5) (f : BitVec 8) (s : State) : Host.Outcome State Fault Refusal :=
  onStream s (fun k => rowAdds s k x.toNat [(k.abase + f.toNat, false)] 1)

/-- WNACC (R266). -/
def execWnacc (x : BitVec 5) (f : BitVec 8) (s : State) : Host.Outcome State Fault Refusal :=
  onStream s (fun k => rowAdds s k x.toNat [(k.abase + f.toNat, true)] 1)

/-- Targets of a WMAP: offset from the base row, and whether it subtracts (R266). -/
def mapTargets (m : BitVec 8) (lit : BitVec 32) : List (Nat × Bool) :=
  ((List.range 8).map (fun i => (lit.toNat / 16 ^ i % 16, m.getLsbD i))).filter (fun p => p.1 != 15)

/-- WMAP (R266). -/
def execWmap (x : BitVec 5) (m f : BitVec 8) (lit : BitVec 32) (s : State) : Host.Outcome State Fault Refusal :=
  onStream s (fun k => rowAdds s k x.toNat ((mapTargets m lit).map (fun p => (k.abase + f.toNat + p.1, p.2))) 2)

/-- WJMP (R267). -/
def execWjmp (j : BitVec 26) (s : State) : Host.Outcome State Fault Refusal :=
  onStream s (fun k => setPos s { k.pos with pc := target k.pos.pc j.toInt })

/-- WEND (R267). -/
def execWend (s : State) : Host.Outcome State Fault Refusal :=
  onStream s (fun k =>
    if k.pos.seg + 1 < k.pos.segCount then setPos s (nextSegment k.pos)
    else
      match k.caller with
      | some p => modCore s (fun c => { c with call := some { k with pos := p, caller := none } })
      | none => endCall s k none)

/-- WHOOK (R268): the read of its entry begins, which counts against the hooked descriptor's first segment, and no directive is
executed before what it leads to has been read (R474). -/
def execWhook (i : BitVec 8) (s : State) : Host.Outcome State Fault Refusal :=
  onStream s (fun k =>
    let tb := fileRead 0 s.core.sys s.tick saltSys 4 sysHKTB
    if k.caller.isSome then streamFault s (weightFault 5)
    else if bits tb 2 0 != 0 || bits tb 63 48 != 0 then streamFault s (weightFault 6)
    else
      let v := tb.toNat + 8 * i.toNat
      let (s1, got) := coreRead s (coreLevel s) 0 v 8
      let found : StreamRead :=
        match got with
        | .error f => .fault f
        | .ok (_, true) => .poison v
        | .ok (bs, false) =>
          let e := BitVec.ofNat 64 (leNat bs)
          if bits e 62 48 != 0 then .fault (weightFault 6) else if e.getLsbD 63 then .hook (bits e 47 0) else .noHook
      modCore s1 (fun c => { c with call := some { k with
        caller := some { k.pos with pc := k.pos.pc + 4 }
        pos := { gen := 0, arow := 0, segTable := 0, segCount := 0, seg := 0, pc := k.pos.pc }
        read := some found } }))

/-! ### The code buffer (R271) -/

/-- The sector of the core's code buffer that holds `pa`. -/
def bufferSector (c : Core) (pa : Nat) : Option CodeSector :=
  (c.codeBuffer.find? (fun f => f.page == codePageOf pa)).bind (fun f => findKey f.sectors (sectorOf pa))

/-- A code byte of the core's code buffer. -/
def bufferByte (s : State) (pa : Nat) : Option Byte := (bufferSector s.core pa).map (fun x => byteAt s x.moment pa)

def bufferParcel (s : State) (pa : Nat) : Option (BitVec 32) :=
  (allSome ((List.range 4).map (fun i => bufferByte s (pa + i)))).map (fun bs => BitVec.ofNat 32 (leNat bs))

/-- Ask for a code page; at most four requests are in flight. -/
def askPage (page : Nat) (c : Core) : Core :=
  if c.bufferRequests.contains page || decide (4 ≤ c.bufferRequests.length) then c
  else { c with bufferRequests := c.bufferRequests ++ [page] }

/-- Translate a code address for the stream side. -/
def streamPage (s : State) (v : Nat) : State × Tr := translateNow s (sysNow s.core sysPTB) none v { x := true } (coreLevel s)

/-- Code pages that hold `n` parcels from `v` on, in order. -/
def pagesOf (v n : Nat) : List Nat := (List.range (ceilDiv (v % 16384 + 4 * n) 16384)).map (fun i => v / 16384 + i)

/-- Code pages of the segments from `j` on, in stream order, added to `acc` until the buffer's 16 frames would be full. -/
def pagesAhead (s : State) (pos : StreamPos) : Nat → Nat → List Nat → List Nat
  | 0, _, acc => acc
  | n + 1, j, acc =>
    if 16 ≤ acc.length then acc
    else
      match segmentNow s { pos with seg := j } with
      | (_, .ok (e, _)) => pagesAhead s pos n (j + 1) (dedupNat (acc ++ pagesOf e.start (Nat.min e.parcels 65536)))
      | (_, .error _) => acc

/-- Pages of the first queued call, added to `acc`. -/
def pagesQueued (s : State) (acc : List Nat) : List Nat :=
  match s.core.wQueue.findSome? (fun w => match w.op with | .call d g _ => some (d, g) | .stripe _ | .zero _ _ | .slack _ => none) with
  | none => acc
  | some (d, g) =>
    match readMatrix s d with
    | (_, .ok (m, _)) => pagesAhead s { gen := g, arow := 0, segTable := m.table, segCount := m.count, seg := 0 } m.count 0 acc
    | (_, .error _) => acc

/-- Pages of the current segment from the stream program counter on; where it has left the segment by a WJMP the page it is in, then
all of them. -/
def pagesHere (pos : StreamPos) : List Nat :=
  if !pos.inSegment then []
  else if decide (pos.start ≤ pos.pc) && decide (pos.pc < pos.start + 4 * pos.parcels) then
    pagesOf pos.pc (Nat.min (pos.parcels - (pos.pc - pos.start) / 4) 65536)
  else pagesOf pos.pc 1 ++ pagesOf pos.start (Nat.min pos.parcels 65536)

/-- Pages of a position's segments that are still to run, added to `acc`. -/
def pagesFrom (s : State) (pos : StreamPos) (acc : List Nat) : List Nat :=
  let j := if pos.inSegment then pos.seg + 1 else pos.seg
  pagesAhead s pos (pos.segCount - j) j (dedupNat (acc ++ pagesHere pos))

/-- Virtual code pages in stream order: the current segment, those that follow, of a hooked descriptor and then of its caller, the
next queued call (R271). -/
def wantedPages (s : State) : List Nat :=
  match s.core.call with
  | none => (pagesQueued s []).take 16
  | some k => (pagesQueued s ((match k.caller with | some p => pagesFrom s p | none => id) (pagesFrom s k.pos []))).take 16

/-- Request one wanted page, into a free frame; a full buffer frees the least recent frame not wanted, unless four requests are in flight.
A page that does not translate yet asks for its walk. -/
def prefetch (s : State) : State :=
  let find := (wantedPages s).map (fun v => (16384 * v, translate s .w (16384 * v) { x := true }))
  let pas := find.filterMap (fun q => match q.2 with | .ok _ pa => some (codePageOf pa) | .miss | .bad _ => none)
  let c := s.core
  let next := find.find? (fun q => match q.2 with
    | .ok _ pa => !c.codeBuffer.any (fun f => f.page == codePageOf pa) && !c.bufferRequests.contains (codePageOf pa)
    | .miss => true
    | .bad _ => false)
  match next with
  | some (_, .ok _ pa) =>
    if 4 ≤ c.bufferRequests.length then s
    else if c.codeBuffer.length + c.bufferRequests.length < 16 then modCore s (askPage (codePageOf pa))
    else
      match (c.codeBuffer.filter (fun f => !pas.contains f.page)).getLast? with
      | some f => modCore s (fun c => askPage (codePageOf pa) { c with codeBuffer := c.codeBuffer.filter (fun g => g.page != f.page) })
      | none => s
  | some (v, .miss) => askWalk v { x := true } s
  | some (_, .bad _) | none => s

/-- What the stream program counter finds. -/
inductive StreamGot where
  | fault (f : FaultRec)
  | missing (page : Nat)
  | poison (pa : Nat)
  | parcel (p : BitVec 32) (page : Nat)

def streamParcel (s : State) (v : Nat) : State × StreamGot :=
  match streamPage s v with
  | (s, .bad f) => (s, .fault f)
  | (s, .miss) => (s, .fault (trFault 1 v))
  | (s, .ok _ pa) =>
    match bufferParcel s pa with
    | none => (s, .missing (codePageOf pa))
    | some p =>
      let bad := match bufferSector s.core pa with | some x => x.bad.contains (pa / 32) | none => false
      (s, if bad then .poison pa else .parcel p (codePageOf pa))

/-- The directive has a literal parcel (WMAP). -/
def takesLiteral (p0 : BitVec 32) : Bool := (p0.extractLsb' 0 6).toNat == 23

/-- The stream side looks at its program counter. -/
def arriveStream (s : State) : Arrival :=
  let s := prefetch s
  match s.core.call with
  | none => .stay s
  | some k =>
    if !clkOpen s.core || !k.pos.inSegment then .stay s
    else
      let v := k.pos.pc
      let illegal := fun (s : State) (p : BitVec 32) => Arrival.stay (streamFault s { code := .illegalInstruction, tval := p.setWidth 64 })
      match streamParcel s v with
      | (s, .fault f) => .stay (streamFault s f)
      | (s, .missing page) => .stay (modCore s (askPage page))
      | (s, .poison pa) => .stay (streamPoison (executed s pa) v)
      | (s, .parcel p0 page) =>
        let s := modCore s (fun c => { c with codeBuffer := toFront (fun f => f.page == page) c.codeBuffer })
        let run := fun (s : State) (p1 : BitVec 32) =>
          match decodeDirective p0 p1 with
          | .ok i => Arrival.run s i
          | .error _ => illegal s p0
        if !takesLiteral p0 then run s 0
        else if v % 16384 == 16380 then illegal s p0
        else
          match streamParcel s (v + 4) with
          | (s, .fault f) => .stay (streamFault s f)
          | (s, .missing page) => .stay (modCore s (askPage page))
          | (s, .poison pa) => .stay (streamPoison (executed s pa) (v + 4))
          | (s, .parcel p1 _) => run s p1

/-! ### Starved clk and pending slots (R272, R474, R387) -/

/-- The parcel at `v` is not in the code buffer. -/
def parcelMissing (s : State) (v : Nat) : Bool :=
  match streamPage s v with
  | (s1, .ok _ pa) => (bufferParcel s1 pa).isNone
  | (_, .miss) => true
  | (_, .bad _) => false

/-- The next directive is not in the code buffer with all its parcels, or a header or entry is being read. -/
def streamStarved (s : State) : Bool :=
  match s.core.call with
  | none => false
  | some k =>
    if !k.pos.inSegment then true
    else
      parcelMissing s k.pos.pc ||
        match streamParcel s k.pos.pc with
        | (_, .parcel p0 _) => takesLiteral p0 && k.pos.pc % 16384 != 16380 && parcelMissing s (k.pos.pc + 4)
        | (_, .fault _) | (_, .missing _) | (_, .poison _) => false

/-- The stream side waits on a byte of a pending probe slot. -/
def streamPending (s : State) : Bool :=
  match s.core.call with
  | none => false
  | some k =>
    k.pos.inSegment &&
      match streamParcel s k.pos.pc with
      | (_, .parcel p0 _) =>
        match decodeDirective p0 0 with
        | .ok (.wprep _ col _) => (rowAddrs s.core.stripe (k.pos.colbase + col.toNat)).any (nearPending s.core none)
        | .ok _ | .error _ => false
      | (_, .fault _) | (_, .missing _) | (_, .poison _) => false

/-- Slack of the segment at `pos`; that of SLACK alone where no such segment is found. DEDUCED, log entry 19. -/
def segmentSlack (s : State) (pos : StreamPos) : Nat :=
  match segmentNow s pos with
  | (_, .ok (e, _)) => Nat.max e.slack s.core.wSlack
  | (_, .error _) => s.core.wSlack

/-- Slack that a starved clk counts against: the segment's, or that of the segment that the read in flight is to start (R474). -/
def slackNow (s : State) (k : StreamCall) : Nat :=
  match k.read with
  | some (.hook d) =>
    match readMatrix s d with
    | (_, .ok (m, _)) => segmentSlack s { k.pos with gen := m.gen, segTable := m.table, segCount := m.count, seg := 0 }
    | (_, .error _) => s.core.wSlack
  | some (.fault _) | some (.poison _) | some .noHook => s.core.wSlack
  | none => if k.pos.inSegment then k.pos.slack else segmentSlack s k.pos

/-- A 32-bit counter of the weight-code engine grows by one and saturates (R273). -/
def bumpSys (c : Core) (n : Nat) : Core := setSysNow c n (BitVec.ofNat 64 (Nat.min ((sysNow c n).toNat % 2 ^ 32 + 1) (2 ^ 32 - 1)))

/-- STARVED_CLK (R272): a starved clk is absorbed, or freezes the core. -/
def execEvStarvedClk (s : State) : Host.Outcome State Fault Refusal :=
  let s := focus s s.arg.core.toNat
  match s.core.call with
  | none => .next (modCore s (fun c => { c with starved := false }))
  | some k =>
    if !s.core.starved then .next s
    else if k.pos.lag < slackNow s k then
      .next (modCore (setPos s { k.pos with lag := k.pos.lag + 1 }) (fun c => bumpSys { c with starved := false } sysWABS))
    else .next (modCore s (fun c => bumpSys { c with starved := false, frozen := true } sysWFRZ))

/-- PROBE_LAG (R387): a clk in which an engine waits on a pending slot is absorbed, or freezes the core. -/
def execEvProbeLag (s : State) : Host.Outcome State Fault Refusal :=
  let s := focus s s.arg.core.toNat
  if !s.core.lagging then .next s
  else if s.core.probeLag < bits (sysNow s.core sysSLIPW) 31 16 then
    .next (modCore s (fun c => { c with lagging := false, probeLag := c.probeLag + 1 }))
  else .next (modCore s (fun c => { c with lagging := false, frozen := true }))

end Sys2Proof.Machine
end

