-- ==== Sys2Proof/Machine/Lease.lean ====
section
/-!
DEFINITION. The shared lease array (R283 to R304): sessions and leaves, configuration slots, commands, runs, tile fetch, the
arithmetic of a group, LDRAIN; and the governor's leaves (R455).
-/
namespace Sys2Proof.Machine

def leaseFault (cause : Nat) : FaultRec := { code := .lease, cause := cause }

/-- Issue of a lease-array instruction: a fault of an earlier command with an empty push set is raised first (R301), before the
instruction's own pops and guard are looked at: DESIGN CHOICE, log entry 75. -/
def issueLease (h : Hdr) (len : Nat) (srcs : List Loc) (body : State → Act) (s : State) : Host.Outcome State Fault Refusal :=
  match s.core.leaseOwed with
  | [] => issueOut h len srcs body s
  | f :: fs =>
    if !engineReady s.core .c then .next s
    else .next (takeTrap (modCore s (fun c => { c with leaseOwed := fs })) .c { f with popped := s.core.engC.noPop } s.core.engC.pc)

/-! ### Leave (R288, R291, R455) -/

/-- Charge of a class against the budget, in quarters of a milliwatt. -/
def leaseCharge (cls : Nat) : Nat := (cls + 1) * Config.arrayPower

/-- A session of class `cls` fits the budget beside the leaves already granted. -/
def leaveFits (s : State) (cls : Nat) : Bool :=
  decide ((s.leaves.map (fun p => leaseCharge p.2)).sum + leaseCharge cls ≤ 4000 * s.budget)

/-- Leaves that core `c` holds; those of closed sessions whose commands are not complete come first. -/
def leavesOf (s : State) (c : Nat) : List (Nat × Nat) := s.leaves.filter (fun p => p.1 == c)

/-- The leave of a session of class `cls` being opened has been granted. -/
def leaveHeld (s : State) (cls : Nat) : Option Nat := (((leavesOf s s.cur)[s.core.lrels.length]?).map Prod.snd).filter (fun k => k == cls)

/-- Return the oldest leave of core `c`, or withdraw its oldest request where none has been granted, as a resumed session's (R304). -/
def returnLeave (s : State) (c : Nat) : State :=
  match s.leaves.find? (fun p => p.1 == c) with
  | some p => { s with leaves := s.leaves.erase p }
  | none => { s with leaveQueue := s.leaveQueue.eraseP (fun p => p.1 == c) }

def openSession (s : State) (cls : Nat) : State := modCore s (fun c => { c with leaseOpen := true, leaseClass := cls })

/-- LEAVE_GRANT (R455): requests are granted in the order they arrived. -/
def execEvLeaveGrant (s : State) : Host.Outcome State Fault Refusal :=
  match s.leaveQueue with
  | [] => .next s
  | q :: qs => if leaveFits s q.2 then .next { s with leaves := s.leaves ++ [q], leaveQueue := qs } else .next s

/-- A waiting LACQ asks for leave of class `cls`, once; one that now names another class withdraws what it has asked for before. -/
def askLeave (cls : Nat) (s : State) : State :=
  if ((leavesOf s s.cur ++ s.leaveQueue.filter (fun q => q.1 == s.cur))[s.core.lrels.length]?).map Prod.snd == some cls then s
  else
    let s := withdrawLeave s
    { s with leaveQueue := s.leaveQueue ++ [(s.cur, cls)] }

def execLacq (h : Hdr) (x : Src2) (s : State) : Host.Outcome State Fault Refusal :=
  issueLease h (src2Len x) (src2Locs x) (fun p =>
    if p.core.leaseOpen then .trap (leaseFault 2)
    else
      match leaveHeld p ((src2Z p .c x).toNat % 4) with
      | some cls => .done (openSession p cls)
      | none => .wait (askLeave ((src2Z p .c x).toNat % 4))) s

def execLacqT (h : Hdr) (d : Reg) (x : Src2) (s : State) : Host.Outcome State Fault Refusal :=
  issueLease h (src2Len x) (src2Locs x) (fun p =>
    let cls := (src2Z p .c x).toNat % 4
    if p.core.leaseOpen then .trap (leaseFault 2)
    else
      match leaveHeld p cls with
      | some cls => .done (putG (openSession p cls) .c d.toNat 1)
      | none =>
        if p.leaveQueue.isEmpty && leaveFits p cls then
          .done (putG (openSession { p with leaves := p.leaves ++ [(p.cur, cls)] } cls) .c d.toNat 1)
        else .done (putG p .c d.toNat 0)) s

/-- LRELs of the focused core whose earlier commands are all complete push their tokens and return their leave (R288, R292). -/
def settleLrels (s : State) : State :=
  let open' := fun (c : Core) (p : BitVec 4 × Nat × Nat) => c.leaseQueue.any (fun q => decide (q.id < p.2.1))
  let done := s.core.lrels.filter (fun p => !open' s.core p)
  done.foldl (fun s p => returnLeave (modCore s (fun c => pushCommand c .c p.1 p.2.1 { src := 0, seq := p.2.2, cmd := some p.2.1, clk := s.clk })) s.cur)
    (modCore s (fun c => { c with lrels := c.lrels.filter (open' c) }))

def execLrel (h : Hdr) (s : State) : Host.Outcome State Fault Refusal :=
  issueLease h 2 [] (fun p =>
    if !p.core.leaseOpen then .trap (leaseFault 2)
    else if p.core.leaseQueue.isEmpty then .done (returnLeave (modCore p (fun c => { c with leaseOpen := false })) p.cur)
    else .later (modCore p (fun c => { c with
      leaseOpen := false, lrels := c.lrels ++ [(h.push, c.nextId, c.engC.seq)], nextId := c.nextId + 1 }))) s

/-! ### Configuration slots (R293) -/

/-- The reserved bits of a slot's words are zero. -/
def slotClean (slot : Nat) (w : List Word) : Bool :=
  bits (wordAt w 3) 63 48 == 0 && bits (wordAt w 2) 63 48 == 0 &&
    (if slot == 8 then bits (wordAt w 0) 63 32 == 0 else bits (wordAt w 1) 63 48 == 0 && bits (wordAt w 0) 63 48 == 0)

def execLcfg (h : Hdr) (a : Reg) (x : Src2) (s : State) : Host.Outcome State Fault Refusal :=
  issueLease h (src2Len x) (src2Locs x ++ (List.range 4).map (fun i => Loc.g (a.toNat + i))) (fun p =>
    let slot := (src2Z p .c x).toNat % 16
    let w := (List.range 4).map (fun i => readG p .c (a.toNat + i))
    if decide (8 < slot) || !slotClean slot w then .trap (leaseFault 3)
    else .done (w.zipIdx.foldl (fun s q => writeSys s (sysLCS + 4 * slot + q.2) q.1) p)) s

/-! ### Array commands at issue (R294) -/

/-- Fields of the command word. -/
def cmdA (w : Word) : Nat := bits w 2 0
def cmdB (w : Word) : Nat := bits w 6 4
def cmdM (w : Word) : Nat := bits w 23 16 + 1
def cmdN (w : Word) : Nat := bits w 31 24 + 1
def cmdRow (w : Word) : Nat := bits w 39 32
def cmdCol (w : Word) : Nat := bits w 47 40

def wordOk (w : Word) (k : Nat) : Bool :=
  !w.getLsbD 3 && bits w 15 7 == 0 && bits w 63 48 == 0 && decide (cmdRow w + cmdM w ≤ 256) && decide (cmdCol w + cmdN w ≤ 256) &&
    k % 32 == 0 && decide (32 ≤ k) && decide (k ≤ 2 ^ 24)

/-- The current core's view of memory beyond what has settled (R299). -/
def viewNow (s : State) : CoreView :=
  { log := s.core.log, replay := s.core.replay
    lines := (List.range 8).flatMap (fun i => (coreAt s (s.cur / 8 * 8 + i)).l1.filter (fun l => l.cls == .p && l.owner == s.cur))
    moment := s.core.moment, now := s.now }

/-- The words of a configuration slot as the control engine reads them. -/
def slotWords (s : State) (n : Nat) : List Word := (List.range 4).map (fun i => readSys s .c (sysLCS + 4 * n + i))

/-- An array command (R294): checks in order, then the queue. -/
def leaseForm (op : LeaseOp) (h : Hdr) (a : Reg) (x : Src2) (s : State) : Host.Outcome State Fault Refusal :=
  issueLease h (src2Len x) (.g a.toNat :: src2Locs x) (fun p =>
    let w := readG p .c a.toNat
    let k := (src2Z p .c x).toNat
    if !p.core.leaseOpen then .trap (leaseFault 1)
    else if !wordOk w k then .trap (leaseFault 3)
    else if !fmtOk p .c (currentFmt p .c) then .trap formatFault
    else if 16 ≤ p.core.leaseQueue.length then .wait nothing
    else
      let fmt := currentFmt p .c
      let q : LeaseCmd := {
        op := op, word := w, k := k, slotA := slotWords p (cmdA w), slotB := slotWords p (cmdB w), score := slotWords p 8
        fmt := fmt, bgmA := readSys p .c (sysBGM + bits fmt 13 12), bgmB := readSys p .c (sysBGM + bits fmt 15 14)
        level := privileged p.core, cls := p.core.leaseClass, stamp := p.tick, view := viewNow p, id := p.core.nextId, tag := p.core.engC.walk, push := h.push, seq := p.core.engC.seq }
      .later (modCore p (fun c => { c with leaseQueue := c.leaseQueue ++ [q], nextId := c.nextId + 1 }))) s

def execLmm (h : Hdr) (a : Reg) (x : Src2) (s : State) : Host.Outcome State Fault Refusal := leaseForm .lmm h a x s
def execLmmA (h : Hdr) (a : Reg) (x : Src2) (s : State) : Host.Outcome State Fault Refusal := leaseForm .lmmA h a x s
def execLmmg (h : Hdr) (a : Reg) (x : Src2) (s : State) : Host.Outcome State Fault Refusal := leaseForm .lmmg h a x s
def execLmmgA (h : Hdr) (a : Reg) (x : Src2) (s : State) : Host.Outcome State Fault Refusal := leaseForm .lmmgA h a x s
def execLscore (h : Hdr) (a : Reg) (x : Src2) (s : State) : Host.Outcome State Fault Refusal := leaseForm .lscore h a x s
def execLscoreCm (h : Hdr) (a : Reg) (x : Src2) (s : State) : Host.Outcome State Fault Refusal := leaseForm .lscoreCm h a x s
def execLscoreTm (h : Hdr) (a : Reg) (x : Src2) (s : State) : Host.Outcome State Fault Refusal := leaseForm .lscoreTm h a x s
def execLpv (h : Hdr) (a : Reg) (x : Src2) (s : State) : Host.Outcome State Fault Refusal := leaseForm .lpv h a x s
def execLpvA (h : Hdr) (a : Reg) (x : Src2) (s : State) : Host.Outcome State Fault Refusal := leaseForm .lpvA h a x s

/-! ### LDRAIN (R302) -/

/-- One register's landing of an LDRAIN. -/
def bankLanding (h : Hdr) (p : State) (dt : Ty) (tile reg k n : Nat) : Landing :=
  let es := (List.range 16).flatMap (fun i => (rangeOf p.core.bank (256 * (16 * (tile / 4) + i) + 64 * (tile % 4)) 64).zipIdx.map (fun q =>
    (cellNo reg i q.2, convert dt .f32 h.rm (readSys p .c sysOVT) q.1.toNat)))
  { due := some (p.core.ck + 4 + k), eng := .c, seq := p.core.engC.seq, tag := p.core.engC.walk, scoreboard := false
    act := .write (es.map (fun e => { loc := .cell e.1, val := BitVec.ofNat 64 e.2.bits }))
    push := if k + 1 == n then h.push else 0
    counts := es.flatMap (fun e => fecOf (groupOf dt) e.2.kind) }

def tilePoison (c : Core) (tile : Nat) : Bool :=
  (List.range 16).any (fun i => rangePoison c.bankPoison (256 * (16 * (tile / 4) + i) + 64 * (tile % 4)) 64)

def execLdrain (h : Hdr) (d : Reg) (t : Ty) (x : Src2) (s : State) : Host.Outcome State Fault Refusal :=
  issueLease h (src2Len x) (src2Locs x) (fun p =>
    let w := (src2Z p .c x).toNat
    let n := w / 64 % 8 + 1
    if !p.core.leaseQueue.isEmpty then .wait nothing
    else if (List.range n).any (fun k => tilePoison p.core ((w % 64 + k) % 64)) then .poison 0
    else
      .later (modCore p (fun c => (List.range n).foldl (fun c k =>
        addLanding c (bankLanding h p t ((w % 64 + k) % 64) ((d.toNat + k) % 32) k n)) c))) s

/-! ### Reading operands (R299) -/

/-- The array an event names, and the core that holds it. -/
def arrayOf (s : State) : Array := look {} (dieAt s s.arg.die.toNat).arrays s.arg.cluster.toNat

def setArray (s : State) (x : Array) : State :=
  modDie s s.arg.die.toNat (fun d => { d with arrays := place {} d.arrays s.arg.cluster.toNat x })

/-- Byte `a` of a P page by the line `l` of the core's L1, if there is one, settled memory of moment `m` beneath; with its mark. -/
def lineByte (s : State) (l : Option L1Line) (m a : Nat) : Byte × Bool :=
  match l with
  | some l => ((findKey l.dirty a).getD (byteAt s l.moment a), linePoison s l a)
  | none => (byteAt s m a, poisonedBy s m a)

/-- A byte as a group reads it, with its mark: as it stood when its line was pinned (R126), and of what was written since the command's
issue the old or the new, undecided (R299); of an O page, what the O load of its line has found (R343). -/
def leaseByte (s : State) (q : LeaseCmd) (t : TlbEntry) (a : Nat) : Byte × Bool :=
  if classOf a == 2 then (lentValue s a, lentPoisoned s a)
  else
    let old := Config.undecided s.tick (2 ^ 64 + 2 * a) % 2 == 1
    let upto := Nat.max q.view.now ((findKey (arrayOf s).pinned (a / 128)).getD s.now)
    let m := q.view.now + Config.undecided s.tick (2 ^ 64 + 2 * a + 1) % (upto - q.view.now + 1)
    match leafCoh t.leaf with
    | .p => lineByte s (if old then q.view.lines.find? (fun l => l.line == a / 128) else l1Find s (a / 128) .p) m a
    | .l =>
      let v := if old then { s with core := { s.core with log := q.view.log, replay := q.view.replay } } else s
      (viewByte v (leafComp t.leaf) m a, viewPoison v (leafComp t.leaf) m a)
    | .o => (byteAt s upto a, poisonedBy s upto a)

/-- Bytes of the issuing core's memory for a command, with the virtual address of the first that is poisoned (R433). -/
def leaseRead (s : State) (q : LeaseCmd) (v n : Nat) : State × Except FaultRec (List Byte × Option Nat) :=
  (piecesOf 65536 (n / 65536 + 3) (v % 2 ^ 64) n).foldl (fun x p =>
    match x with
    | (s, .error f) => (s, .error f)
    | (s, .ok (bs, m)) =>
      match corePage s q.level p.1 p.2 { r := true } with
      | (s, .error f) => (s, .error f)
      | (s, .ok (t, pa)) =>
        let s := if classOf pa == 2 then landFlying (sendFlits s (lenderOf pa) 1) (fun f => f.lender == lenderOf pa) else s
        let new := (List.range p.2).map (fun i => leaseByte s q t (pa + i))
        (s, .ok (bs ++ new.map Prod.fst, m <|> (new.findIdx? Prod.snd).map (fun i => p.1 + i))))
    (s, .ok ([], none))

/-- An operand in memory. -/
structure Operand where
  base : Nat
  stride : Nat
  scaleBase : Nat
  ty : Ty
  scaled : Bool
  geom : Word
deriving DecidableEq, Repr

def operandOf (slot : List Word) (code : Nat) (scaled : Bool) (geom : Word) : Operand :=
  { base := bits (wordAt slot 0) 47 0, stride := bits (wordAt slot 1) 47 0, scaleBase := bits (wordAt slot 2) 47 0
    ty := (Ty.ofCode code).getD .f32, scaled := scaled, geom := geom }

def LeaseCmd.opA (q : LeaseCmd) : Operand := operandOf q.slotA (bits q.fmt 4 0) (q.fmt.getLsbD 10) q.bgmA
def LeaseCmd.opB (q : LeaseCmd) : Operand := operandOf q.slotB (bits q.fmt 9 5) (q.fmt.getLsbD 11) q.bgmB
def LeaseCmd.m (q : LeaseCmd) : Nat := cmdM q.word
def LeaseCmd.n (q : LeaseCmd) : Nat := cmdN q.word
def LeaseCmd.rm (q : LeaseCmd) : BitVec 2 := BitVec.ofNat 2 (bits q.fmt 17 16)

/-- Block extent along the dense axis, and along the memory rows (R87, R295, R297); 32 for an unscaled operand. -/
def Operand.w (o : Operand) : Nat := if o.scaled then bits o.geom 7 0 else 32
def Operand.h (o : Operand) : Nat := if o.scaled then bits o.geom 15 8 else 32

/-- Elements `j .. j + n - 1` of memory row `i`. -/
def readElems (s : State) (q : LeaseCmd) (o : Operand) (i j n : Nat) : State × Except FaultRec (List Nat × Option Nat) :=
  let b := widthOf o.ty
  match leaseRead s q (o.base + i * o.stride + b * j / 8) (ceilDiv (b * j % 8 + b * n) 8) with
  | (s, .error f) => (s, .error f)
  | (s, .ok (bs, m)) => (s, .ok ((List.range n).map (fun k => leNat bs / 2 ^ (b * j % 8 + b * k) % 2 ^ b), m))

/-- Scale byte of element (i, j); 0x7E, whose scale is one, for an unscaled operand (R86, R87). -/
def readScale (s : State) (q : LeaseCmd) (o : Operand) (i j : Nat) : State × Except FaultRec (Nat × Option Nat) :=
  if !o.scaled then (s, .ok (0x7E, none))
  else
    match leaseRead s q (o.scaleBase + i / bits o.geom 15 8 * bits o.geom 63 48 + j / bits o.geom 7 0 * bits o.geom 47 32) 1 with
    | (s, .error f) => (s, .error f)
    | (s, .ok (bs, m)) => (s, .ok ((bs.headD 0).toNat, m))

/-- Fold a read over a list, collecting answers and the first poisoned address. -/
def gather {α β : Type} (f : State → α → State × Except FaultRec (β × Option Nat)) (s : State) (l : List α) : State × Except FaultRec (List β × Option Nat) :=
  l.foldl (fun x a =>
    match x with
    | (s, .error e) => (s, .error e)
    | (s, .ok (bs, m)) =>
      match f s a with
      | (s, .error e) => (s, .error e)
      | (s, .ok (b, k)) => (s, .ok (bs ++ [b], m <|> k))) (s, .ok ([], none))

/-- One side of a group: for each output row or column, its 32 elements and the scale byte of each. -/
abbrev Side := List (List Nat × List Nat)

/-- An operand whose dense axis is k (R295). -/
def sideDense (s : State) (q : LeaseCmd) (o : Operand) (rows k0 : Nat) : State × Except FaultRec (Side × Option Nat) :=
  gather (fun s i =>
    match readElems s q o i k0 32 with
    | (s, .error f) => (s, .error f)
    | (s, .ok (es, m)) =>
      match gather (fun s b => readScale s q o i (k0 + b * o.w)) s (List.range (32 / o.w)) with
      | (s, .error f) => (s, .error f)
      | (s, .ok (cs, m2)) => (s, .ok ((es, (List.range 32).map (fun k => cs.getD (k / o.w) 0x7E)), m <|> m2))) s (List.range rows)

/-- B of LPV, whose memory rows run along k (R297). -/
def sideAcross (s : State) (q : LeaseCmd) (o : Operand) (cols k0 : Nat) : State × Except FaultRec (Side × Option Nat) :=
  match gather (fun s k => readElems s q o (k0 + k) 0 cols) s (List.range 32) with
  | (s, .error f) => (s, .error f)
  | (s, .ok (rows, m)) =>
    match gather (fun s b => gather (fun s c => readScale s q o (k0 + b * o.h) (c * o.w)) s (List.range (ceilDiv cols o.w))) s (List.range (32 / o.h)) with
    | (s, .error f) => (s, .error f)
    | (s, .ok (cs, m2)) =>
      (s, .ok ((List.range cols).map (fun n =>
        (rows.map (fun r => r.getD n 0), (List.range 32).map (fun k => (cs.getD (k / o.h) []).getD (n / o.w) 0x7E))), m <|> m2))

/-- A z32 array of memory. -/
def readArray (s : State) (q : LeaseCmd) (a n : Nat) : State × Except FaultRec (List Nat × Option Nat) :=
  match leaseRead s q a (4 * n) with
  | (s, .error f) => (s, .error f)
  | (s, .ok (bs, m)) => (s, .ok ((List.range n).map (fun i => recNat bs (4 * i) 4), m))

/-- B of LMMG: compressed sparse rows made dense for the group (R296). -/
def sideSparse (s : State) (q : LeaseCmd) (o : Operand) (rows k0 : Nat) : State × Except FaultRec (Side × Option Nat) :=
  match readArray s q o.stride (rows + 1) with
  | (s, .error f) => (s, .error f)
  | (s, .ok (ptr, m)) =>
    if (List.range rows).any (fun n => decide (ptr.getD (n + 1) 0 < ptr.getD n 0)) then (s, .error (leaseFault 4))
    else
      let e0 := ptr.getD 0 0
      let total := ptr.getD rows 0 - e0
      match readArray s q (bits (wordAt q.slotB 3) 47 0 + 4 * e0) total with
      | (s, .error f) => (s, .error f)
      | (s, .ok (idx, m2)) =>
        if idx.any (fun k => decide (q.k ≤ k)) then (s, .error (leaseFault 4))
        else
          match gather (fun s n =>
            let mine := (List.range (ptr.getD (n + 1) 0 - ptr.getD n 0)).map (fun i => ptr.getD n 0 - e0 + i)
            let last := fun (k : Nat) => (mine.filter (fun e => idx.getD e 0 == k0 + k)).getLast?
            match gather (fun s k => match last k with
              | none => (s, .ok (0, none))
              | some e =>
                match readElems s q { o with stride := 0 } 0 (e0 + e) 1 with
                | (s, .error f) => (s, .error f)
                | (s, .ok (v, m)) => (s, .ok (v.headD 0, m))) s (List.range 32) with
            | (s, .error f) => (s, .error f)
            | (s, .ok (es, m)) =>
              match gather (fun s b => readScale s q o n (k0 + b * o.w)) s (List.range (32 / o.w)) with
              | (s, .error f) => (s, .error f)
              | (s, .ok (cs, m2)) => (s, .ok ((es, (List.range 32).map (fun k => cs.getD (k / o.w) 0x7E)), m <|> m2))) s (List.range rows) with
          | (s, .error f) => (s, .error f)
          | (s, .ok (side, m3)) => (s, .ok (side, m <|> m2 <|> m3))

/-- Both sides of group `g`. -/
def groupSides (s : State) (q : LeaseCmd) (g : Nat) : State × Except FaultRec (Side × Side × Option Nat) :=
  match sideDense s q q.opA q.m (32 * g) with
  | (s, .error f) => (s, .error f)
  | (s, .ok (a, m)) =>
    let b := match q.op with
      | .lmm | .lmmA | .lscore | .lscoreCm | .lscoreTm => sideDense s q q.opB q.n (32 * g)
      | .lmmg | .lmmgA => sideSparse s q q.opB q.n (32 * g)
      | .lpv | .lpvA => sideAcross s q q.opB q.n (32 * g)
    match b with
    | (s, .error f) => (s, .error f)
    | (s, .ok (b, m2)) => (s, .ok (a, b, m <|> m2))

/-! ### Arithmetic (R91, R92, R295) -/

/-- Sub-step length: the lesser block extent along k. -/
def LeaseCmd.step (q : LeaseCmd) : Nat :=
  Nat.min q.opA.w (match q.op with | .lpv | .lpvA => q.opB.h | .lmm | .lmmA | .lmmg | .lmmgA | .lscore | .lscoreCm | .lscoreTm => q.opB.w)

/-- An element before its scale: zero in a block of scale byte 0, NaN in one of 0xFF (R86). -/
def blockElem (t : Ty) (c w : Nat) : Num := if c == 0 then .fin false 0 0 else if c == 0xFF then .nan else numOf t w

/-- The scale of a byte (R86). -/
def scaleNum (c : Nat) : Num :=
  let e : Int := (c / 2 : Nat) - 63
  if c == 0 || c == 0xFF then .fin false 1 0 else if c % 2 == 1 then .fin false 3 (e - 1) else .fin false 1 e

/-- One K step: tree of products, scales, accumulation; with the kind its one result counts (R91, R94). -/
def kStep (rm : BitVec 2) (ta tb : Ty) (a b : List (Nat × Nat)) (acc : Nat) : Elem :=
  let prods := (a.zip b).map (fun p =>
    let x := blockElem ta p.1.2 p.1.1
    let y := blockElem tb p.2.2 p.2.1
    arith f32Fmt rm .ieee [x, y] (mulNum x y))
  let (sum, ks) := treeSum (f32Add 0) 8 (prods.map Elem.bits) (prods.map Elem.kind)
  let n := numOf .f32 sum
  let t := arith f32Fmt rm .ieee [n] (mulNum n (mulNum (scaleNum (a.headD (0, 0x7E)).2) (scaleNum (b.headD (0, 0x7E)).2)))
  let r := f32Add rm acc t.bits
  ⟨r.bits, firstKind (ks ++ [t.kind, r.kind])⟩

/-- One output element over a group: its sub-steps in ascending order, with their counts. -/
def groupElem (q : LeaseCmd) (a b : List Nat × List Nat) (acc : Nat) : Nat × List Nat :=
  let xs := a.1.zip a.2
  let ys := b.1.zip b.2
  (List.range (32 / q.step)).foldl (fun r i =>
    let e := kStep q.rm q.opA.ty q.opB.ty ((xs.drop (i * q.step)).take q.step) ((ys.drop (i * q.step)).take q.step) r.1
    (e.bits, r.2 ++ fecOf 0 e.kind)) (acc, [])

/-- The command adds to what the bank holds. -/
def LeaseOp.adds : LeaseOp → Bool
  | .lmmA | .lmmgA | .lpvA => true
  | .lmm | .lmmg | .lpv | .lscore | .lscoreCm | .lscoreTm => false

def LeaseOp.scores : LeaseOp → Bool
  | .lscore | .lscoreCm | .lscoreTm => true
  | .lmm | .lmmA | .lmmg | .lmmgA | .lpv | .lpvA => false

/-- Number of the bank element of output (m, n). -/
def bankNo (q : LeaseCmd) (m n : Nat) : Nat := 256 * (cmdRow q.word + m) + cmdCol q.word + n

/-- Interval pairs of LSCORE.tm. -/
def readPairs (s : State) (q : LeaseCmd) (a n : Nat) : State × Except FaultRec (List (Nat × Nat) × Option Nat) :=
  match readArray s q a (2 * n) with
  | (s, .error f) => (s, .error f)
  | (s, .ok (ws, m)) => (s, .ok ((List.range n).map (fun i => (ws.getD (2 * i) 0, ws.getD (2 * i + 1) 0)), m))

/-- Which keys each query sees (R298). -/
def visibility (s : State) (q : LeaseCmd) : State × Except FaultRec ((Nat → Nat → Bool) × Option Nat) :=
  match q.op with
  | .lscoreCm =>
    let w := wordAt q.score 1
    (s, .ok (fun m n => decide (bits w 63 32 + n ≤ bits w 31 0 + m), none))
  | .lscoreTm =>
    match readPairs s q (bits (wordAt q.score 2) 47 0) q.m with
    | (s, .error f) => (s, .error f)
    | (s, .ok (qs, m1)) =>
      match readPairs s q (bits (wordAt q.score 3) 47 0) q.n with
      | (s, .error f) => (s, .error f)
      | (s, .ok (ks, m2)) =>
        (s, .ok (fun m n =>
          let (qe, qx) := qs.getD m (0, 0)
          let (ke, kx) := ks.getD n (0, 0)
          decide (ke ≤ qe) && decide (qx ≤ kx), m1 <|> m2))
  | .lmm | .lmmA | .lmmg | .lmmgA | .lscore | .lpv | .lpvA => (s, .ok (fun _ _ => true, none))

/-- Element (m, n) after a group: accumulated, and at a score's last group scaled or masked. -/
def outElem (q : LeaseCmd) (last : Bool) (vis : Nat → Nat → Bool) (a b : List Nat × List Nat) (m n acc : Nat) : Nat × List Nat :=
  let r := groupElem q a b acc
  if last && q.op.scores then
    if vis m n then let e := f32Mul q.rm r.1 (bits (wordAt q.score 0) 31 0); (e.bits, r.2 ++ fecOf 0 e.kind)
    else (0xFF800000, r.2)
  else r

/-- How a group ends. -/
inductive GroupEnd where
  | done (s : State)
  | fault (s : State) (f : FaultRec)
  | poison (s : State) (tval : Nat)

/-- Perform group `q.groups` into the bank of the focused core. -/
def runGroup (s : State) (q : LeaseCmd) : GroupEnd :=
  let last := q.groups + 1 == q.k / 32
  match groupSides s q q.groups with
  | (s, .error f) => .fault s f
  | (s, .ok (a, b, mark)) =>
    match (if last then visibility s q else (s, .ok (fun _ _ => true, none))) with
    | (s, .error f) => .fault s f
    | (s, .ok (vis, mark2)) =>
      let fresh := q.groups == 0 && !q.op.adds
      let keys := (List.range q.m).flatMap (fun m => (List.range q.n).map (fun n => (m, n)))
      let held := if !fresh && keys.any (fun p => look false s.core.bankPoison (bankNo q p.1 p.2)) then some 0 else none
      match mark <|> mark2 <|> held with
      | some v => .poison s v
      | none =>
        let (bank, counts) := keys.foldl (fun (x : Sparse Cell × List Nat) p =>
          let k := bankNo q p.1 p.2
          let r := outElem q last vis (a.getD p.1 ([], [])) (b.getD p.2 ([], [])) p.1 p.2 (if fresh then 0 else (look 0 s.core.bank k).toNat)
          (place 0 x.1 k (BitVec.ofNat 32 r.1), x.2 ++ r.2)) (s.core.bank, [])
        .done (countEvents (modCore s (fun c => { c with
          bank := bank, bankPoison := keys.foldl (fun m p => place false m (bankNo q p.1 p.2) false) c.bankPoison })) counts)

/-! ### Runs (R285, R287, R300) -/

def clusterCore (s : State) (k : Nat) : Nat := 64 * s.arg.die.toNat + 8 * s.arg.cluster.toNat + k

/-- The core's queue may be served: it holds a command, and its session's leave has been granted, a resumed core's anew (R304; that its
queue waits for this: DESIGN CHOICE, log entry 76). -/
def mayServe (s : State) (c : Nat) : Bool := !(coreAt s c).leaseQueue.isEmpty && !(leavesOf s c).isEmpty

/-- RUN_GRANT (R287). -/
def execEvRunGrant (s : State) : Host.Outcome State Fault Refusal :=
  let x := arrayOf s
  if x.holder.isSome || decide (s.clk < x.grantFrom) then .next s
  else
    match ((List.range 8).map (fun i => (x.last + 1 + i) % 8)).find? (fun k => mayServe s (clusterCore s k)) with
    | none => .next s
    | some k => .next (setArray s { x with holder := some k, started := 0, since := s.clk, busyUntil := s.clk, active := false, pinned := [] })

/-- Release one pin of a line; what a no-allocate page brought in becomes the least recent of its set (R124). -/
def unpinLine (s : State) (line : Nat) : State :=
  modSlice s (128 * line) (fun x =>
    match x.lines.find? (fun l => l.line == line) with
    | none => x
    | some l =>
      let l' := { l with pins := l.pins - 1 }
      if l'.pins == 0 && l.noAlloc then { x with lines := x.lines.filter (fun m => m.line != line) ++ [{ l' with noAlloc := false }] }
      else { x with lines := x.lines.map (fun m => if m.line == line then l' else m) })

/-- The run ends: pins are released, the arbiter may grant from 2 clk later (R287, R299). -/
def endRun (s : State) : State :=
  let x := arrayOf s
  setArray ((x.pinned.map Prod.fst).foldl unpinLine s)
    { x with holder := none, last := x.holder.getD x.last, grantFrom := s.clk + 2, active := false, pinned := [] }

def runLimit : Nat := 65536

/-- RUN_LIMIT (R285): 65,536 clk have passed and no group is in progress; the command is cut. -/
def execEvRunLimit (s : State) : Host.Outcome State Fault Refusal :=
  let x := arrayOf s
  match x.holder with
  | none => .next s
  | some k =>
    let whole := match (coreAt s (clusterCore s k)).leaseQueue with | q :: _ => x.active && q.groups == q.k / 32 | [] => false
    if decide (s.clk < x.since + runLimit) || decide (s.clk < x.busyUntil) || whole then .next s else .next (endRun s)

/-! ### Tile fetch (R124, R125, R299) -/

/-- A line to be fetched: its number, an address by which it is reached, and whether its page is of no-allocate policy. -/
structure TileLine where
  line : Nat
  v : Nat
  noAlloc : Bool
  /-- Its page is of class O. -/
  ord : Bool
deriving DecidableEq, Repr

/-- Physical lines of a range, as far as it translates. -/
def linesOf (s : State) (q : LeaseCmd) (v n : Nat) : List TileLine :=
  (piecesOf 65536 (n / 65536 + 3) (v % 2 ^ 64) n).flatMap (fun p =>
    match corePage s q.level p.1 p.2 { r := true } with
    | (_, .ok (t, pa)) =>
      if classOf pa < 2 then
        (List.range (ceilDiv (pa % 128 + p.2) 128)).map (fun i => { line := pa / 128 + i, v := p.1, noAlloc := decide (2 ≤ leafPolicy t.leaf), ord := isOrdered t pa })
      else []
    | (_, .error _) => [])

def scaleRanges (o : Operand) (is js : List Nat) : List (Nat × Nat) :=
  if o.scaled then
    is.flatMap (fun i => js.map (fun j =>
      (o.scaleBase + i / bits o.geom 15 8 * bits o.geom 63 48 + j / bits o.geom 7 0 * bits o.geom 47 32, 1)))
  else []

/-- Ranges a group reads of an operand whose dense axis is k. -/
def denseRanges (o : Operand) (rows k0 : Nat) : List (Nat × Nat) :=
  (List.range rows).map (fun i => (o.base + i * o.stride + widthOf o.ty * k0 / 8, 4 * widthOf o.ty)) ++
    scaleRanges o (List.range rows) ((List.range (32 / o.w)).map (fun b => k0 + b * o.w))

def acrossRanges (o : Operand) (cols k0 : Nat) : List (Nat × Nat) :=
  (List.range 32).map (fun k => (o.base + (k0 + k) * o.stride, packedBytes (widthOf o.ty) cols)) ++
    scaleRanges o ((List.range (32 / o.h)).map (fun b => k0 + b * o.h)) ((List.range (ceilDiv cols o.w)).map (fun c => c * o.w))

/-- Ranges of a sparse operand: pointers, indices, and the values of the group's columns. Each group reads both arrays whole, and pins
them: the rule does not say which of their lines one group reads. DESIGN CHOICE, log entry 74. -/
def sparseRanges (s : State) (q : LeaseCmd) (o : Operand) (rows k0 : Nat) : List (Nat × Nat) :=
  let ptr := match readArray s q o.stride (rows + 1) with | (_, .ok (l, _)) => l | (_, .error _) => []
  let e0 := ptr.getD 0 0
  let n := ptr.getD rows 0 - e0
  let aux := bits (wordAt q.slotB 3) 47 0
  let idx := match readArray s q (aux + 4 * e0) n with | (_, .ok (l, _)) => l | (_, .error _) => []
  let mine := (List.range idx.length).filter (fun e => decide (k0 ≤ idx.getD e 0) && decide (idx.getD e 0 < k0 + 32))
  [(o.stride, 4 * (rows + 1)), (aux + 4 * e0, 4 * n)] ++
    mine.map (fun e => (o.base + widthOf o.ty * (e0 + e) / 8, ceilDiv (widthOf o.ty * (e0 + e) % 8 + widthOf o.ty) 8)) ++
    scaleRanges o (List.range rows) ((List.range (32 / o.w)).map (fun b => k0 + b * o.w))

/-- Lines group `g` reads. -/
def groupLines (s : State) (q : LeaseCmd) (g : Nat) : List TileLine :=
  if q.k / 32 ≤ g then []
  else
    let b := match q.op with
      | .lmm | .lmmA | .lscore | .lscoreCm | .lscoreTm => denseRanges q.opB q.n (32 * g)
      | .lmmg | .lmmgA => sparseRanges s q q.opB q.n (32 * g)
      | .lpv | .lpvA => acrossRanges q.opB q.n (32 * g)
    let tables := match q.op with
      | .lscoreTm => if g + 1 == q.k / 32 then [(bits (wordAt q.score 2) 47 0, 8 * q.m), (bits (wordAt q.score 3) 47 0, 8 * q.n)] else []
      | .lmm | .lmmA | .lmmg | .lmmgA | .lscore | .lscoreCm | .lpv | .lpvA => []
    (denseRanges q.opA q.m (32 * g) ++ b ++ tables).flatMap (fun r => linesOf s q r.1 r.2)

/-- Every line that a group reads is pinned (R285, R299). -/
def allPinned (x : Array) (ls : List TileLine) : Bool := ls.all (fun l => hasKey x.pinned l.line)

/-- Lines of the head command's groups still to run, in order. -/
def headLines (s : State) (q : LeaseCmd) : List (List TileLine) :=
  (List.range (q.k / 32 - q.groups)).map (fun i => groupLines s q (q.groups + i))

/-- Lines of the groups of the commands behind the head that this run may still start, in order (R285, R299). -/
def laterLines (s : State) (x : Array) (qs : List LeaseCmd) : List (List TileLine) :=
  let started := if x.active then x.started else x.started + 1
  (qs.take (16 - started)).flatMap (headLines s)

/-- Lines that the K steps fetched for still read: those of the head's groups from `q.groups` on, and of the later groups as far
as the tile fetch has come (R124). -/
def stillRead (s : State) (x : Array) (q : LeaseCmd) (qs : List LeaseCmd) : List Nat :=
  let later := laterLines s x qs
  let n := (later.takeWhile (allPinned x)).length
  ((headLines s q).flatten ++ (later.take (n + 1)).flatten).map TileLine.line

/-- The pins of lines that no K step still reads are released, once the group under way is over (R124). -/
def releasePins (s : State) (x : Array) (q : LeaseCmd) (qs : List LeaseCmd) : State × Array :=
  if s.clk < x.busyUntil then (s, x)
  else
    let keep := stillRead s x q qs
    (((x.pinned.map Prod.fst).filter (fun l => !keep.contains l)).foldl unpinLine s, { x with pinned := x.pinned.filter (fun l => keep.contains l.1) })

/-- The pinning budget leaves room for a line (R125). The 16,384 lines of one array are counted wherever they lie, in its own
die's slices and in those of others: DESIGN CHOICE, log entry 53. -/
def pinRoom (s : State) (x : Array) (line : Nat) : Bool :=
  let sl := sliceOf s (128 * line)
  let pinned := sl.lines.filter (fun l => decide (0 < l.pins))
  if pinned.any (fun l => l.line == line) then decide (x.pinned.length < 16384)
  else
    decide ((pinned.filter (fun l => l2Set l.line == l2Set line)).length < 12) && decide (pinned.length < 4096) && decide (x.pinned.length < 16384)

/-- Allocate and pin a line at its home slice, where it becomes the most recent (R124). -/
def pinLine (s : State) (line : Nat) (noAlloc : Bool) : State :=
  let x := sliceOf s (128 * line)
  if x.lines.any (fun l => l.line == line) then
    modSlice s (128 * line) (fun x => { x with
      lines := toFront (fun l => l.line == line) (x.lines.map (fun l => if l.line == line then { l with pins := l.pins + 1 } else l)) })
  else
    let inSet := x.lines.filter (fun l => l2Set l.line == l2Set line)
    let victim := if inSet.length < 16 then none else (inSet.filter (fun l => l.pins == 0)).getLast?
    let s1 := modSlice s (128 * line) (fun x => { x with
      lines := { line := line, dirty := false, pins := 1, noAlloc := noAlloc } :: (match victim with | some v => x.lines.filter (fun l => l.line != v.line) | none => x.lines) })
    match victim with
    | some v => leaveSlice s1 v
    | none => s1

/-- A line arrives at the array and is pinned; what the check bits of its DRAM read found is reported for the tile fetch unit
(R116, R117). A line of an O page is loaded by one O load of the core (R342, R343). -/
def fetchLine (s : State) (q : LeaseCmd) (l : TileLine) : State :=
  let s := (corePage s q.level l.v 1 { r := true }).1
  let s := if l.ord then modCore (renewLines s s.core.clock (128 * l.line) 128) (fun c => { c with clock := Nat.max c.clock (look (0, 0) s.oLines l.line).1 }) else s
  let err := checkBits s (128 * l.line)
  let s := match err with
    | some (a, .uncorrectable) => poisonGranule s a
    | some (_, .corrected) | none => s
  reportError (pinLine s l.line l.noAlloc) { line := l.line, policy := 0, write := false, who := unitOf s 2, err := err }

/-- TILE_LINE_ARRIVAL (R120, R299): the next line arrives and is pinned, of the head command's groups in their order and then of those
of the run's next commands, as far as the budget allows, once its slice has served the requests for it that came before. -/
def execEvTileLineArrival (s : State) : Host.Outcome State Fault Refusal :=
  let x := arrayOf s
  match x.holder with
  | none => .next s
  | some k =>
    let s1 := focus s (clusterCore s k)
    match s1.core.leaseQueue with
    | [] => .next s1
    | q :: qs =>
      let (s2, x) := releasePins s1 x q qs
      match ((headLines s2 q).flatten ++ (laterLines s2 x qs).flatten).find? (fun l => !hasKey x.pinned l.line) with
      | none => .next (setArray s2 x)
      | some l =>
        if pinRoom s2 x l.line && !sliceBusy s2 (128 * l.line) then
          let s3 := fetchLine s2 q l
          .next (setArray s3 { x with pinned := setKey x.pinned l.line s3.now })
        else .next (setArray s2 x)

/-! ### Groups and completion (R285, R300, R301) -/

/-- Array clk of a group (R300). -/
def groupClk (q : LeaseCmd) : Nat :=
  let half := fun (t : Ty) => decide (t = .bf16) || decide (t = .f16)
  let byte := fun (t : Ty) => decide (t = .e4m3) || decide (t = .e5m2)
  let c := if half q.opA.ty || half q.opB.ty then 64 else if byte q.opA.ty || byte q.opB.ty then 32 else 16
  c * (32 / q.step)

/-- Clk after the last group before the command completes. -/
def closingClk (q : LeaseCmd) : Nat :=
  match q.op with
  | .lscoreCm | .lscoreTm => 28
  | .lmm | .lmmA | .lmmg | .lmmgA | .lscore | .lpv | .lpvA => 24

/-- Clk of a window of 1,024 that a session of class `cls` may keep the array busy (R288). -/
def busyShare (cls : Nat) : Nat := 256 * (cls + 1)

/-- The clk at which `n` busy clk from clk `t` on are over, and what of its share of the latest window the core has then used: the
array works at once as long as the window's share lasts and stands idle for the rest of it (R288). Where in a window the idle
clk stand is not said: DESIGN CHOICE, log entry 62. -/
def busyEnd (share : Nat) : Nat → Nat → Nat → Nat × Nat → Nat × Nat × Nat
  | 0, _, t, spent => (t, spent)
  | fuel + 1, n, t, spent =>
    let w := t / 1024
    let used := if spent.1 = w then spent.2 else 0
    let room := Nat.min (share - used) (1024 * (w + 1) - t)
    if n ≤ room then (t + n, w, used + n) else busyEnd share fuel (n - room) (1024 * (w + 1)) (w, used + room)

/-- Tokens of the head command, marked with its fault. -/
def leaseTokens (clk : Nat) (q : LeaseCmd) (f : Option FaultRec) (c : Core) : Core :=
  let t : Token := { src := 0, seq := q.seq, cmd := some q.id, clk := clk }
  match f with
  | some x =>
    if q.push == 0 then { c with leaseOwed := c.leaseOwed ++ [x] } else pushCommand c .c q.push q.id { t with mark := some x }
  | none => pushCommand c .c q.push q.id t

/-- A faulted command ends; the commands behind it are discarded with unmarked tokens (R301). -/
def failLease (s : State) (q : LeaseCmd) (f : FaultRec) : State :=
  let s1 := modCore s (fun c =>
    let rest := c.leaseQueue.tail
    rest.foldl (fun c r => leaseTokens s.clk r none c) (leaseTokens s.clk q (some f) { c with leaseQueue := [] }))
  endRun (settleLrels s1)

/-- The array has consumed poison at address `v`, 0 for its bank, for the issuing core's task (R432, R433): it ends at its K step. -/
def poisonLease (s : State) (q : LeaseCmd) (v : Nat) : State :=
  if s.core.noRollback then failLease s q { code := .poison, cause := 2, tval := BitVec.ofNat 64 v }
  else endRun (modCore s (fun c => { c with rollback := true, running := false }))

/-- GROUP_START (R285): the next group of the head command runs, when its lines are pinned and the limit has not passed. -/
def execEvGroupStart (s : State) : Host.Outcome State Fault Refusal :=
  let x := arrayOf s
  match x.holder with
  | none => .next s
  | some k =>
    let s := focus s (clusterCore s k)
    match s.core.leaseQueue with
    | [] => .next s
    | q :: qs =>
      if decide (s.clk < x.busyUntil) || decide (x.since + runLimit ≤ s.clk) || decide (q.k / 32 ≤ q.groups) || s.core.badCmds.contains q.id then
        .next s
      else if !allPinned x (groupLines s q q.groups) then .next s
      else
        match runGroup s q with
        | .fault s f => .next (failLease s q f)
        | .poison s v => .next (poisonLease s q v)
        | .done s1 =>
          let (s1, x) := releasePins s1 x q qs
          let q' := { q with groups := q.groups + 1 }
          let s2 := modCore s1 (fun c => { c with leaseQueue := q' :: qs })
          let (ended, spent) := busyEnd (busyShare q.cls) (groupClk q) (groupClk q) s.clk (look (0, 0) x.spent k)
          let till := ended + (if q'.groups == q.k / 32 then closingClk q else 0)
          .next (setArray s2 { x with
            busyUntil := till, spent := place (0, 0) x.spent k spent, active := true
            started := if x.active then x.started else x.started + 1 })

/-- LEASE_COMMAND_COMPLETE (R301, R292): the head command's last element is written. -/
def execEvLeaseCommandComplete (s : State) : Host.Outcome State Fault Refusal :=
  let x := arrayOf s
  match x.holder with
  | none => .next (settleLrels (focus s s.arg.core.toNat))
  | some k =>
    let s := focus s (clusterCore s k)
    match s.core.leaseQueue with
    | [] => .next (endRun (settleLrels s))
    | q :: qs =>
      if decide (q.groups < q.k / 32) || decide (s.clk < x.busyUntil) then .next s
      else
        let s1 := settleLrels (modCore s (fun c => leaseTokens s.clk q none { c with leaseQueue := qs }))
        if qs.isEmpty || decide (16 ≤ x.started) || decide (x.since + runLimit ≤ s.clk) then .next (endRun s1)
        else .next (setArray s1 { x with active := false })

end Sys2Proof.Machine
end

