-- ==== Sys2Proof/Machine/Goleus.lean ====
section
/-!
DEFINITION. The Goleus compile unit (R275 to R282): weights of a segment, factoring, emission, COMPILE and PATCH.
-/
namespace Sys2Proof.Machine

/-! ### Commands (R275) -/

structure Goleus where
  code : Nat
  ty : Nat
  hook : Option Nat
  arow : Nat
  rows : Nat
  k : Nat
  slack : Nat
  source : Nat
  pitch : Nat
  desc : Nat
  area : Nat
  size : Nat
  seg : Nat
deriving DecidableEq, Repr

def goleusOf (bs : List Byte) : Goleus :=
  { code := recNat bs 0 1, ty := recNat bs 2 1, hook := if recNat bs 3 1 % 2 == 1 then some (recNat bs 4 1) else none
    arow := recNat bs 5 1, rows := recNat bs 6 2, k := recNat bs 8 4, slack := recNat bs 12 4, source := recNat bs 16 8
    pitch := recNat bs 24 8, desc := recNat bs 32 8, area := recNat bs 40 8, size := recNat bs 48 8, seg := recNat bs 56 4 }

/-- Kind of a source type Goleus admits (R276): true for float. -/
def goleusKind (t : Ty) : Option Bool :=
  match t with
  | .f32 | .bf16 | .f16 | .e4m3 | .e5m2 | .e3m2 | .e2m3 | .e2m1 | .mq4 => some true
  | .s4 | .s8 | .s16 | .z4 | .z8 => some false
  | .s32 | .s64 | .z16 | .z32 | .z64 => none

def goleusTy (g : Goleus) : Option (Ty × Bool) := (Ty.ofCode g.ty).bind (fun t => (goleusKind t).map (fun k => (t, k)))

def goleusBad (bs : List Byte) (g : Goleus) : Bool :=
  decide (1 < g.code) || recNat bs 1 1 != 0 || decide (1 < recNat bs 3 1) || recNat bs 60 4 != 0 || (goleusTy g).isNone ||
    g.rows == 0 || decide (256 < g.rows) || g.k == 0 || decide (4194304 < g.k) || g.desc % 64 != 0 || g.area % 16384 != 0

/-! ### Weights (R276) -/

/-- Why a command writes nothing: a status, or a fault. -/
inductive Refused where
  | status (n : Nat)
  | fault (f : FaultRec)
deriving DecidableEq, Repr

/-- A float weight as bf16; none where it is not representable. -/
def weightBits (n : Num) : Option Nat :=
  match fmtOf .bf16 with
  | none => none
  | some f =>
    match n with
    | .nan | .inf _ => none
    | .fin _ _ _ =>
      let w := (elemOf f 0 .ieee n).bits
      if (numOfFmt f w).isInf then none else some (if w % 0x8000 == 0 then 0 else w)

/-- The 16-bit weight of an element of a type other than mq4. -/
def weightOf (t : Ty) (float : Bool) (w : Nat) : Option Nat :=
  if float then weightBits (numOf t w) else some (wrapInt 16 (intOf t w))

/-- Columns of segment `j`. -/
def segColumns (k j : Nat) : Nat := Nat.min 64 (k - 64 * j)

/-- An mq4 value that is NaN or infinite counts in group 6 of the issuing core's context (R85, R93). -/
def countMq4 (s : State) (g : Agent) (v : Nat) : State := countIn s g.core g.ctx (fecOf 6 (mq4Event v))

/-- One mq4 weight. -/
def mq4Weight (s : State) (g : Agent) (base n : Nat) : State × Except Refused (Nat × Bool) :=
  match mq4Load (fun s v k => agentRead s g v k) s base n with
  | (s, .error f) => (s, .error (.fault f))
  | (s, .ok (sup, w, m)) =>
    let v := mq4Value sup (w / 16) (w % 16)
    match weightBits (numOf .f32 v) with
    | some b => (s, .ok (b, m))
    | none => if m then (s, .error (.status 0)) else (countMq4 s g v, .error (.status 5))

/-- Row `i` of segment `j`: its weights, and whether poison was read. -/
def rowWeights (s : State) (g : Agent) (c : Goleus) (t : Ty) (float : Bool) (j i : Nat) : State × Except Refused (List Nat × Bool) :=
  let n := segColumns c.k j
  if t = .mq4 then
    (List.range n).foldl (fun x q =>
      match x with
      | (s, .error e) => (s, .error e)
      | (s, .ok (ws, m)) =>
        match mq4Weight s g c.source (i * c.k + 64 * j + q) with
        | (s, .error (.status 0)) => (s, .ok (ws ++ [0], true))
        | (s, .error e) => (s, .error e)
        | (s, .ok (w, m2)) => (s, .ok (ws ++ [w], m || m2))) (s, .ok ([], false))
  else
    match agentRead s g (c.source + i * c.pitch + 8 * widthOf t * j) (packedBytes (widthOf t) n) with
    | (s, .error f) => (s, .error (.fault f))
    | (s, .ok (bs, m)) =>
      let ws := (unpackElems (widthOf t) n bs).map (weightOf t float)
      if m then (s, .ok (List.replicate n 0, true))
      else
        match allSome ws with
        | some ws => (s, .ok (ws, false))
        | none => (s, .error (.status 5))

/-- All rows of segment `j`. -/
def segWeights (s : State) (g : Agent) (c : Goleus) (t : Ty) (float : Bool) (j : Nat) : State × Except Refused (List (List Nat) × Bool) :=
  (List.range c.rows).foldl (fun x i =>
    match x with
    | (s, .error e) => (s, .error e)
    | (s, .ok (rs, m)) =>
      match rowWeights s g c t float j i with
      | (s, .error e) => (s, .error e)
      | (s, .ok (r, m2)) => (s, .ok (rs ++ [r], m || m2))) (s, .ok ([], false))

/-! ### Factoring (R277) -/

/-- A term: column, weight, the rows that hold it. -/
structure Term where
  col : Nat
  val : Nat
  rows : List Nat
deriving DecidableEq, Repr

/-- Terms of a segment from its rows of weights. -/
def termsOf (rows : List (List Nat)) (n : Nat) : List Term :=
  (List.range n).flatMap (fun k =>
    let col := rows.map (fun r => r.getD k 0)
    ((dedupNat col).filter (fun v => v != 0)).map (fun v =>
      { col := k, val := v, rows := (List.range rows.length).filter (fun i => col.getD i 0 == v) }))

/-- A chosen pair: positions of its terms and the rows they share. -/
structure Pair where
  t : Nat
  u : Nat
  rows : List Nat
deriving DecidableEq, Repr

/-- The pair of largest share, ties to the lowest columns, then to the earliest terms. -/
def bestPair (ts : List Term) (rest : List (List Nat)) : Option Pair :=
  let at' := fun (i : Nat) => (ts.getD i { col := 0, val := 0, rows := [] }).col
  let cands := (List.range ts.length).flatMap (fun t => ((List.range ts.length).filter (fun u => decide (t < u) && decide (at' t < at' u))).map (fun u =>
    ({ t := t, u := u, rows := (rest.getD t []).filter (fun r => (rest.getD u []).contains r) } : Pair)))
  let key := fun (p : Pair) => [at' p.t, at' p.u, p.t, p.u]
  let better := fun (p q : Pair) => decide (q.rows.length < p.rows.length) || (p.rows.length == q.rows.length && decide (key p < key q))
  cands.foldl (fun b p => match b with | none => some p | some q => if better p q then some p else some q) none

def choosePairs (ts : List Term) : Nat → List (List Nat) → List Pair × List (List Nat)
  | 0, rest => ([], rest)
  | n + 1, rest =>
    match bestPair ts rest with
    | none => ([], rest)
    | some p =>
      if p.rows.length < 2 then ([], rest)
      else
        let drop := fun (l : List Nat) => l.filter (fun r => !p.rows.contains r)
        let rest' := rest.zipIdx.map (fun q => if q.2 == p.t || q.2 == p.u then drop q.1 else q.1)
        let (ps, r) := choosePairs ts n rest'
        (p :: ps, r)

/-! ### Emission (R277, R278) -/

/-- Groups of the row-adds of one slot: up to eight rows within 14 of the first. -/
def addGroups : Nat → List Nat → List (List Nat)
  | 0, _ => []
  | f + 1, rows =>
    match rows with
    | [] => []
    | b :: more =>
      let g := b :: ((more.takeWhile (fun r => decide (r ≤ b + 14))).take 7)
      g :: addGroups f (rows.drop g.length)

/-- Literal of a WMAP: the offsets in ascending order, unused nibbles 15. -/
def mapLiteral (g : List Nat) : BitVec 32 :=
  BitVec.ofNat 32 ((List.range 8).foldl (fun acc i => acc + (match g[i]? with | some r => r - g.headD 0 | none => 15) * 16 ^ i) 0)

/-- Row-adds of slot selector `x` to ascending rows (R278). -/
def emitAdds (x : Nat) (rows : List Nat) : List Instr :=
  (addGroups 257 rows).map (fun g =>
    match g with
    | [b] => .wacc (BitVec.ofNat 5 x) (BitVec.ofNat 8 b)
    | _ => .wmap (BitVec.ofNat 5 x) 0 (BitVec.ofNat 8 (g.headD 0)) (mapLiteral g))

/-- Slots in use: term and slot. -/
def slotOf (used : List (Nat × Nat)) (t : Nat) : Nat := ((used.find? (fun p => p.1 == t)).map Prod.snd).getD 0

def lowestFree (used : List (Nat × Nat)) : Nat := ((List.range 16).find? (fun q => !used.any (fun p => p.2 == q))).getD 0

/-- A pair emitted after the pair at position `i` of term `t` still names `f` first. -/
def stillFirst (ps : List Pair) (t i f : Nat) : Bool :=
  ps.zipIdx.any (fun q => q.1.t == f && (decide (t < q.1.u) || (q.1.u == t && decide (i < q.2))))

/-- Directives of the term at position `t`. -/
def emitTerm (ts : List Term) (ps : List Pair) (rest : List (List Nat)) (used : List (Nat × Nat)) (t : Nat) : List Instr × List (Nat × Nat) :=
  let term := ts.getD t { col := 0, val := 0, rows := [] }
  let slot := lowestFree used
  let used := used ++ [(t, slot)]
  let prep : Instr := .wprep (BitVec.ofNat 16 term.val) (BitVec.ofNat 6 term.col) (BitVec.ofNat 4 slot)
  let (sums, used) := (ps.zipIdx.filter (fun q => q.1.u == t)).foldl (fun (a : List Instr × List (Nat × Nat)) q =>
    let sum : Instr := .wsum false false (BitVec.ofNat 5 slot) (BitVec.ofNat 5 (slotOf a.2 q.1.t)) 0
    (a.1 ++ sum :: emitAdds 16 q.1.rows,
     if stillFirst ps t q.2 q.1.t then a.2 else a.2.filter (fun p => p.1 != q.1.t))) (([], used) : List Instr × List (Nat × Nat))
  (prep :: sums ++ emitAdds slot (rest.getD t []), if ps.any (fun p => p.t == t) then used else used.filter (fun p => p.1 != t))

/-- The directives of a segment of `n` columns, without its WEND. -/
def emitSegment (rows : List (List Nat)) (n : Nat) (hook : Option Nat) : List Instr :=
  let ts := termsOf rows n
  let (ps, rest) := choosePairs ts 15 (ts.map Term.rows)
  let body := (List.range ts.length).foldl (fun (a : List Instr × List (Nat × Nat)) t =>
    let (is, used) := emitTerm ts ps rest a.2 t
    (a.1 ++ is, used)) ([], [])
  body.1 ++ (match hook with | some h => [.whook (BitVec.ofNat 8 h)] | none => []) ++ [.wend]

/-- Parcels of directives placed from parcel `pos` of the code area; a WMAP never stands on the last parcel of a page (R279). -/
def placeCode : Nat → List Instr → List (BitVec 32)
  | _, [] => []
  | pos, i :: is =>
    let ps := (encode i).getD []
    if ps.length == 2 && pos % 4096 == 4095 then
      (encode (.wjmp 1)).getD [] ++ ps ++ placeCode (pos + 3) is
    else ps ++ placeCode (pos + ps.length) is

/-- The parcels of segment `j`, placed from parcel `pos`; with the poison mark. -/
def segCode (s : State) (g : Agent) (c : Goleus) (t : Ty) (float : Bool) (j pos : Nat) : State × Except Refused (List (BitVec 32) × Bool) :=
  match segWeights s g c t float j with
  | (s, .error e) => (s, .error e)
  | (s, .ok (rows, m)) =>
    (s, .ok (placeCode pos (emitSegment rows (segColumns c.k j) (if j + 1 == ceilDiv c.k 64 then c.hook else none)), m))

/-- All segments from segment 0 on. -/
def allCode (s : State) (g : Agent) (c : Goleus) (t : Ty) (float : Bool) : State × Except Refused (List (List (BitVec 32)) × Bool) :=
  (List.range (ceilDiv c.k 64)).foldl (fun x j =>
    match x with
    | (s, .error e) => (s, .error e)
    | (s, .ok (segs, m)) =>
      match segCode s g c t float j ((segs.map List.length).sum) with
      | (s, .error e) => (s, .error e)
      | (s, .ok (ps, m2)) => (s, .ok (segs ++ [ps], m || m2))) (s, .ok ([], false))

/-! ### Writing (R279 to R282) -/

def parcelBytes (ps : List (BitVec 32)) : List Byte := ps.flatMap (fun p => leBytes 4 p.toNat)

/-- Bytes of a segment entry (R260). -/
def entryBytes (gen start slack parcels : Nat) : List Byte :=
  1#8 :: List.replicate 7 0#8 ++ leBytes 4 parcels ++ leBytes 4 slack ++ leBytes 8 start ++ leBytes 8 gen

/-- Header of a fresh compile (R279). -/
def headerBytes (c : Goleus) (float : Bool) : List Byte :=
  leBytes 4 0x57434F44 ++ List.replicate 24 0#8 ++ leBytes 1 (if float then 0 else 1) ++ leBytes 1 c.arow ++ leBytes 2 c.rows ++
    leBytes 4 c.k ++ leBytes 4 (ceilDiv c.k 64) ++ leBytes 8 (c.desc + 64) ++ leBytes 8 0 ++ leBytes 8 0

/-- Check translation of every range, then write them all; answers the largest T. -/
def writeAll (s : State) (g : Agent) (ws : List (Nat × List Byte)) : State × Except FaultRec Nat :=
  let (s, bad) := ws.foldl (fun (x : State × Option FaultRec) w =>
    match x.2 with
    | some _ => x
    | none => agentCheck x.1 g w.1 w.2.length { w := true }) (s, none)
  match bad with
  | some f => (s, .error f)
  | none => ws.foldl (fun x w =>
      match x with
      | (s, .error f) => (s, .error f)
      | (s, .ok t) =>
        match agentWrite s g w.1 w.2 with
        | (s, .error f) => (s, .error f)
        | (s, .ok k) => (s, .ok (Nat.max t k))) (s, .ok 0)

/-- End a command that wrote nothing. -/
def goleusRefuse (s : State) (d : Nat) (c : Cmd) : Refused → State
  | .status n => answer s d fifoGoleus c (BitVec.ofNat 64 n) 0 none
  | .fault f => answer s d fifoGoleus c 6 0 (some f)

/-- Write what a command emits and post its result. -/
def goleusWrite (s : State) (d : Nat) (c : Cmd) (parcels : Nat) (ws : List (Nat × List Byte)) : State :=
  match writeAll s (c.agent d fifoGoleus) ws with
  | (s, .error f) => goleusRefuse s d c (.fault f)
  | (s, .ok t) => answer s d fifoGoleus c (BitVec.ofNat 64 (parcels * 2 ^ 32)) t none

/-- Addresses of the segments placed one behind the other. -/
def segStarts (area : Nat) : List (List (BitVec 32)) → List (Nat × Nat)
  | [] => []
  | ps :: more => (area, ps.length) :: segStarts (area + 4 * ps.length) more

/-- COMPILE (R275 to R280): command 0, and every malformed command. -/
def execEvCompile (s : State) : Host.Outcome State Fault Refusal :=
  let d := s.arg.die.toNat
  match nextCmd (fifoAt s d fifoGoleus) with
  | none => .next s
  | some c =>
    let bs := bytesOf c.words
    let g := goleusOf bs
    match goleusTy g with
    | none => if g.code == 1 then .next s else .next (goleusRefuse s d c (.status 1))
    | some (t, float) =>
      if g.code == 1 then .next s
      else if goleusBad bs g then .next (goleusRefuse s d c (.status 1))
      else
        match allCode s (c.agent d fifoGoleus) g t float with
        | (s1, .error e) => .next (goleusRefuse s1 d c e)
        | (s1, .ok (segs, mark)) =>
          let n := (segs.map List.length).sum
          if mark then .next (poisonCmd s1 d fifoGoleus c 6)
          else if g.size < 4 * n then .next (goleusRefuse s1 d c (.status 2))
          else
            let entries := (segStarts g.area segs).flatMap (fun p => entryBytes 0 p.1 g.slack p.2 ++ List.replicate 32 0#8)
            .next (goleusWrite s1 d c n [(g.area, parcelBytes segs.flatten), (g.desc, headerBytes g float ++ entries)])

/-- The entry a patch writes, 0 or 1, and whether floor refuses it (R281). -/
def patchEntry (bs : List Byte) (floor : Nat) : Nat × Bool :=
  let e0 := segmentOf bs
  let e1 := segmentOf (bs.drop 32)
  let pick := if !e0.valid then 0 else if !e1.valid then 1 else if e0.gen < e1.gen then 0 else 1
  let other := if pick == 0 then e1 else e0
  (pick, other.valid && decide (floor < other.gen))

/-- PATCH (R281): command 1. -/
def execEvPatch (s : State) : Host.Outcome State Fault Refusal :=
  let d := s.arg.die.toNat
  match nextCmd (fifoAt s d fifoGoleus) with
  | none => .next s
  | some c =>
    let bs := bytesOf c.words
    let g := goleusOf bs
    let a := c.agent d fifoGoleus
    if g.code != 1 then .next s
    else
      match goleusTy g with
      | none => .next (goleusRefuse s d c (.status 1))
      | some (t, float) =>
        if goleusBad bs g then .next (goleusRefuse s d c (.status 1))
        else
          match agentRead s a g.desc 64 with
          | (s1, .error f) => .next (goleusRefuse s1 d c (.fault f))
          | (s1, .ok (hb, m1)) =>
            match matrixOf hb with
            | none => .next (if m1 then poisonCmd s1 d fifoGoleus c 6 else goleusRefuse s1 d c (.status 4))
            | some m =>
              if m1 then .next (poisonCmd s1 d fifoGoleus c 6)
              else if m.k != g.k || m.rows != g.rows || m.floatKind != float || decide (m.count ≤ g.seg) then .next (goleusRefuse s1 d c (.status 4))
              else
                match agentRead s1 a (m.table + 64 * g.seg) 64 with
                | (s2, .error f) => .next (goleusRefuse s2 d c (.fault f))
                | (s2, .ok (eb, m2)) =>
                  let (pick, refused) := patchEntry eb m.floor
                  if m2 then .next (poisonCmd s2 d fifoGoleus c 6)
                  else if refused then .next (goleusRefuse s2 d c (.status 3))
                  else
                    match segCode s2 a g t float g.seg 0 with
                    | (s3, .error e) => .next (goleusRefuse s3 d c e)
                    | (s3, .ok (ps, m3)) =>
                      if m3 then .next (poisonCmd s3 d fifoGoleus c 6)
                      else if g.size < 4 * ps.length then .next (goleusRefuse s3 d c (.status 2))
                      else
                        .next (goleusWrite s3 d c ps.length
                          [(g.area, parcelBytes ps), (m.table + 64 * g.seg + 32 * pick, entryBytes (m.gen + 1) g.area g.slack ps.length)])

end Sys2Proof.Machine
end

