-- ==== Sys2Proof/Machine/Grammar.lean ====
section
/-!
DEFINITION. The grammar engine (R316 to R321): headers, permitted sets through the mask cache, advancing a state, and its
commands.
-/
namespace Sys2Proof.Machine

/-! ### How sampler and grammar commands end (R307) -/

/-- Why a command cannot go on. -/
inductive Bad where
  | status (n : Nat) (f : Option FaultRec)
  | poison
deriving DecidableEq, Repr

/-- The fault a status raises at its POPE. -/
def statusFault (n : Nat) : Option FaultRec :=
  match n with
  | 0x80 | 0x81 | 0x82 | 0x83 => some { code := .samplerCommand, cause := n - 0x7F }
  | 0x90 => some { code := .emptyGrammar }
  | 0x91 => some { code := .grammarStack }
  | 0x92 => some { code := .grammarTable }
  | 0x93 => some { code := .sequenceFaulted }
  | _ => none

def bad (n : Nat) : Bad := .status n (statusFault n)

/-- Status of a fault met reading memory. -/
def badRead (f : FaultRec) : Bad :=
  .status (match f.code with | .translation => 0xA0 | .unbackedAddress => 0xA1 | _ => 0xA2) (some f)

/-! ### Tables (R316) -/

/-- Settled bytes of a grammar table as the grammar engine reads them for a command, with the positions of the poisoned ones; only
class C and S frames hold one. -/
def gramBytes (s : State) (a : Agent) (v n : Nat) : State × Except Bad (List Byte × List Nat) :=
  (piecesOf 65536 (n / 65536 + 3) v n).foldl (fun x p =>
    match x with
    | (s, .error e) => (s, .error e)
    | (s, .ok (bs, ms)) =>
      match translateNow s (rootOf s a.die a.ctx) (some (a.die, fifoGrammar)) p.1 { r := true } false with
      | (s, .bad f) => (s, .error (badRead f))
      | (s, .miss) => (s, .error (badRead (trFault 1 p.1)))
      | (s, .ok t pa) =>
        if 2 ≤ classOf pa then (s, .error (bad 0x92))
        else
          let as := (List.range p.2).map (fun i => pa + i)
          let s1 := askLines s a.who t pa p.2
          (s1, .ok (bs ++ as.map (shownByte s1 (leafComp t.leaf) s1.now),
            ms ++ ((List.range p.2).filter (fun i => shownPoisoned s1 (leafComp t.leaf) (pa + i))).map (fun i => bs.length + i)))) (s, .ok ([], []))

/-- Bytes that are used as they are read: poison among them is consumed (R329). -/
def gramRead (s : State) (a : Agent) (v n : Nat) : State × Except Bad (List Byte) :=
  match gramBytes s a v n with
  | (s, .error e) => (s, .error e)
  | (s, .ok (bs, ms)) => (s, if ms.isEmpty then .ok bs else .error .poison)

/-- A grammar header. -/
structure GramHdr where
  masks : Nat
  index : Nat
  actions : Nat
  classes : Nat
  vocab : Nat
  states : Nat
  symbols : Nat
  limit : Nat
  start : Nat
  maskCount : Nat
  q : Nat
deriving DecidableEq, Repr

/-- Read a header's 64 bytes against a slot's vocabulary; none where it is malformed. -/
def gramOf (bs : List Byte) (vocab : Nat) : Option GramHdr :=
  let g : GramHdr := {
    masks := recNat bs 56 8, index := recNat bs 48 8, actions := recNat bs 40 8, classes := recNat bs 32 8, vocab := recNat bs 28 4
    states := recNat bs 26 2, symbols := recNat bs 25 1, limit := recNat bs 24 1, start := recNat bs 22 2, maskCount := recNat bs 20 2
    q := recNat bs 19 1 + 1 }
  if recNat bs 0 4 != 0x47524D52 || recNat bs 4 15 != 0 || g.masks % 64 != 0 || g.vocab != vocab then none
  else if g.states == 0 || decide (4096 < g.states) || g.symbols == 0 || g.limit == 0 || decide (64 < g.limit) || decide (g.states ≤ g.start) || g.maskCount == 0 then none
  else some g

/-- The header a slot's grammar names, as it stands. -/
def readGram (s : State) (a : Agent) (header vocab : Nat) : State × Except Bad GramHdr :=
  match gramRead s a header 64 with
  | (s, .error e) => (s, .error e)
  | (s, .ok bs) => if header % 64 != 0 then (s, .error (bad 0x92)) else (s, match gramOf bs vocab with | some g => .ok g | none => .error (bad 0x92))

/-- Key of a state: `s x (Y + 1) + top`. -/
def gramKey (h : GramHdr) (g : Grammar) : Nat := g.st * (h.symbols + 1) + g.stack.headD 0

/-! ### The mask cache (R318) -/

def maskChunks (h : GramHdr) : Nat := ceilDiv h.vocab 512

def maskSet (h : GramHdr) (mask chunk : Nat) : Nat := (mask * maskChunks h + chunk) % 512

/-- Put a chunk in as most recent of its set of 16 ways. -/
def keepChunk (l : List MaskChunk) (m : MaskChunk) : List MaskChunk :=
  let inSet := l.filter (fun x => x.set == m.set)
  let kept := if 16 ≤ inSet.length then match inSet.getLast? with | some v => l.filter (fun x => x != v) | none => l else l
  m :: kept

/-- The 64 bytes of a chunk, from the cache or from memory, and the positions of poisoned ones. -/
def readChunk (s : State) (a : Agent) (header : Nat) (h : GramHdr) (mask chunk : Nat) : State × Except Bad (List Byte × List Nat) :=
  let d := a.die
  let root := rootOf s d a.ctx
  let asn := bits root 63 52
  let mine := fun (m : MaskChunk) => m.asn == asn && m.header == header && m.mask == mask && m.chunk == chunk &&
    m.set == maskSet h mask chunk
  match (dieAt s d).maskCache.find? mine with
  | some m =>
    (modDie s d (fun x => { x with maskCache := toFront mine x.maskCache }), .ok ((List.range 64).map (fun i => shownByte s m.comp m.moment (m.pa + i)), m.marks))
  | none =>
    let v := h.masks + 64 * (mask * maskChunks h + chunk)
    match gramBytes s a v 64 with
    | (s, .error e) => (s, .error e)
    | (s, .ok (bs, ms)) =>
      match translateNow s root (some (d, fifoGrammar)) v { r := true } false with
      | (s, .ok t pa) =>
        let m : MaskChunk := { asn := asn, header := header, mask := mask, chunk := chunk, set := maskSet h mask chunk, pa := pa, comp := leafComp t.leaf
                               moment := s.now, marks := ms }
        (modDie s d (fun x => { x with maskCache := keepChunk x.maskCache m }), .ok (bs, ms))
      | (s, .miss) | (s, .bad _) => (s, .ok (bs, ms))

/-- Bits of the bytes of a bitmap that are set, below `n`. -/
def setBits (bs : List Byte) (n : Nat) : List Nat := (List.range n).filter (fun x => (bs.getD (x / 8) 0).getLsbD (x % 8))

/-- The permitted set M of a grammar's state (R318), and the tokens whose bits of the mask are poisoned (R329). -/
def permittedBy (s : State) (a : Agent) (vocab : Nat) (g : Grammar) : State × Except Bad (List Nat × List Nat) :=
  match readGram s a g.header vocab with
  | (s, .error e) => (s, .error e)
  | (s, .ok h) =>
    match gramRead s a (h.index + 2 * gramKey h g) 2 with
    | (s, .error e) => (s, .error e)
    | (s, .ok ib) =>
      let mask := leNat ib
      if h.maskCount ≤ mask then (s, .error (bad 0x92))
      else
        let r := (List.range (maskChunks h)).foldl (fun (x : State × Except Bad (List Byte × List Nat)) c =>
          match x with
          | (s, .error e) => (s, .error e)
          | (s, .ok (bs, ms)) =>
            match readChunk s a g.header h mask c with
            | (s, .error e) => (s, .error e)
            | (s, .ok (b, k)) => (s, .ok (bs ++ b, ms ++ k.map (fun i => bs.length + i)))) (s, .ok ([], []))
        match r with
        | (s, .error e) => (s, .error e)
        | (s, .ok (bs, ms)) => (s, .ok (setBits bs vocab, (List.range vocab).filter (fun x => ms.contains (x / 8))))

/-! ### Advancing (R317) -/

/-- The state after an action word; an error is its status. -/
def applyAction (h : GramHdr) (g : Grammar) (act : Nat) : Except Bad Grammar :=
  let next := act % 4096
  let sym := act / 65536 % 256
  let op := act / 16384 % 4
  if op == 3 || act / 2 ^ 24 != 0 || act / 4096 % 4 != 0 || decide (h.states ≤ next) then .error (bad 0x92)
  else
    match op with
    | 1 =>
      if sym == 0 || decide (h.symbols < sym) then .error (bad 0x92)
      else if h.limit ≤ g.stack.length then .error (bad 0x91)
      else .ok { g with st := next, stack := sym :: g.stack }
    | 2 =>
      match g.stack with
      | [] => .error (bad 0x92)
      | _ :: rest => .ok { g with st := next, stack := rest }
    | _ => .ok { g with st := next }

/-- Advance a grammar's state by token `x`. -/
def advance (s : State) (a : Agent) (vocab : Nat) (g : Grammar) (x : Nat) : State × Except Bad Grammar :=
  match readGram s a g.header vocab with
  | (s, .error e) => (s, .error e)
  | (s, .ok h) =>
    match gramRead s a (h.classes + x) 1 with
    | (s, .error e) => (s, .error e)
    | (s, .ok cb) =>
      if h.q ≤ leNat cb then (s, .error (bad 0x92))
      else
        match gramRead s a (h.actions + 4 * (gramKey h g * h.q + leNat cb)) 4 with
        | (s, .error e) => (s, .error e)
        | (s, .ok ab) => (s, applyAction h g (leNat ab))

/-! ### Slots -/

/-- The slot `n` of die `d`, when it is open and the context's (R305). -/
def slotFor (s : State) (d n ctx : Nat) : Option SeqSlot :=
  match findKey (dieAt s d).seqSlots n with
  | some x => if x.ctx == ctx then some x else none
  | none => none

def setSeq (s : State) (d n : Nat) (x : SeqSlot) : State := modDie s d (fun y => { y with seqSlots := setKey y.seqSlots n x })

/-- Slot handle of a sampler command (not of OPEN), and of a grammar command (not of INVALIDATE). -/
def handleOf (c : Cmd) : Nat := bits (wordAt c.words 0) 63 32

def kindByte (c : Cmd) : Nat := bits (wordAt c.words 0) 7 0

def samplerNames (c : Cmd) (n : Nat) : Bool := kindByte c != 0 && handleOf c == n
def grammarNames (c : Cmd) (n : Nat) : Bool := kindByte c != 3 && handleOf c == n

/-- Command `q` takes effect before `c`: it was pushed in an earlier clk, in the same clk by a core that comes first in the order of
R145, or earlier by the same core (R308). -/
def Cmd.before (d : Nat) (q c : Cmd) : Bool :=
  let key := fun (x : Cmd) => [x.clk, fifoRank d x.core, x.stamp]
  decide (key q < key c)

/-- The command reads a sequence slot that is poisoned (R431). -/
def grammarSpoilt (s : State) (d : Nat) (c : Cmd) : Bool :=
  grammarNames c (handleOf c) && (match findKey (dieAt s d).seqSlots (handleOf c) with | some x => x.mark | none => false)

/-- The grammar command that may start: every push of its clk has been made, and no earlier sampler command names its slot (R308). -/
def grammarHead (s : State) (d : Nat) : Option Cmd :=
  match nextCmd (fifoAt s d fifoGrammar) with
  | none => none
  | some c =>
    if decide (s.clk ≤ c.clk) || grammarSpoilt s d c || (fifoAt s d fifoSampler).cmds.any (fun q => q.before d c && grammarNames c (handleOf q) && kindByte q != 0) then none
    else some c

/-! ### Commands (R321) -/

/-- A grammar result: lone token, state, depth, status. -/
def gramResult (lone : Nat) (g : Option Grammar) (status : Nat) : Word :=
  let st := match g with | some g => g.st | none => 0
  let depth := match g with | some g => g.stack.length | none => 0
  BitVec.ofNat 64 (lone * 2 ^ 32 + st * 2 ^ 20 + depth * 2 ^ 12 + status)

abbrev noLone : Nat := 0xFFFFFFFF

/-- End a grammar command. -/
def endGrammar (s : State) (d : Nat) (c : Cmd) (lone : Nat) (g : Option Grammar) : Option Bad → State
  | none => answer s d fifoGrammar c (gramResult lone g 0) 0 none
  | some (.status n f) => answer s d fifoGrammar c (gramResult lone g n) 0 f
  | some .poison => poisonCmd s d fifoGrammar c (gramResult lone g (Config.undecided s.tick 900000 % 256))

/-- Reserved bytes and range of a grammar command. -/
def grammarBad (c : Cmd) : Bool :=
  decide (3 < kindByte c) || bits (wordAt c.words 0) 31 8 != 0 || wordAt c.words 1 != 0 || wordAt c.words 3 != 0 || decide (1023 < handleOf c)

/-- A command of kind `k` at the head, checked, with its slot. -/
def grammarCommand (s : State) (mine : Nat → Bool) (body : State → Nat → Cmd → SeqSlot → State) : Host.Outcome State Fault Refusal :=
  let d := s.arg.die.toNat
  match grammarHead s d with
  | none => .next s
  | some c =>
    if !mine (kindByte c) then .next s
    else if grammarBad c then .next (endGrammar s d c noLone none (some (bad 0x80)))
    else
      match slotFor s d (handleOf c) c.ctx with
      | none => .next (endGrammar s d c noLone none (some (bad 0x81)))
      | some x => .next (body s d c x)

/-- GRAMMAR_BIND (R321): kind 0, and every reserved kind. -/
def execEvGrammarBind (s : State) : Host.Outcome State Fault Refusal :=
  grammarCommand s (fun k => k != 1 && k != 2 && k != 3) (fun s d c x =>
    let header := (wordAt c.words 2).toNat
    match readGram s (c.agent d fifoGrammar) header x.vocab with
    | (s, .error e) => endGrammar s d c noLone x.grammar (some e)
    | (s, .ok h) =>
      let g : Grammar := { header := header, st := h.start, stack := [] }
      endGrammar (setSeq s d (handleOf c) { x with grammar := some g, faulted := false }) d c noLone (some g) none)

/-- UNBIND (R321). -/
def execEvUnbind (s : State) : Host.Outcome State Fault Refusal :=
  grammarCommand s (fun k => k == 1) (fun s d c x =>
    endGrammar (setSeq s d (handleOf c) { x with grammar := none, faulted := false }) d c noLone none none)

/-- QUERY (R321). -/
def execEvQuery (s : State) : Host.Outcome State Fault Refusal :=
  grammarCommand s (fun k => k == 2) (fun s d c x =>
    match x.grammar with
    | none => endGrammar s d c noLone none none
    | some g =>
      match permittedBy s (c.agent d fifoGrammar) x.vocab g with
      | (s, .error e) => endGrammar s d c noLone (some g) (some e)
      | (s, .ok (_, _ :: _)) => endGrammar s d c noLone (some g) (some .poison)
      | (s, .ok (m, [])) => endGrammar s d c (match m with | [t] => t | _ => noLone) (some g) none)

/-- INVALIDATE (R321): chunks tagged with the header address leave the die's cache. -/
def execEvInvalidate (s : State) : Host.Outcome State Fault Refusal :=
  let d := s.arg.die.toNat
  match grammarHead s d with
  | none => .next s
  | some c =>
    if kindByte c != 3 then .next s
    else if bits (wordAt c.words 0) 31 8 != 0 || wordAt c.words 1 != 0 || wordAt c.words 3 != 0 then .next (endGrammar s d c noLone none (some (bad 0x80)))
    else
      let asn := bits (rootOf s d c.ctx) 63 52
      let header := (wordAt c.words 2).toNat
      .next (endGrammar (modDie s d (fun x => { x with maskCache := x.maskCache.filter (fun m => !(m.header == header && m.asn == asn)) })) d c noLone none none)

end Sys2Proof.Machine
end

