-- ==== Sys2Proof/Machine/Sampler.lean ====
section
/-!
DEFINITION. The sampler (R305 to R326): slots, runs of the logit program word by word, choices, commits, clusters and
speculative trees.
-/
namespace Sys2Proof.Machine

/-! ### Elements (R307) -/

def tokenElem (tok logp : Nat) (forced dropped : Bool) : Word :=
  BitVec.ofNat 64 (tok * 2 ^ 32 + logp % 65536 * 65536 + (if forced then 2048 else 0) + (if dropped then 1024 else 0))

def commitElem (n : Nat) (g : Option Grammar) (status : Nat) : Word :=
  BitVec.ofNat 64 (n * 2 ^ 32 + (match g with | some g => g.stack.length | none => 0) * 65536 + 256 + status)

def statusElem (hi status : Nat) : Word := BitVec.ofNat 64 (hi * 2 ^ 32 + 512 + status)

/-! ### Commands (R305) -/

/-- Byte `i` .. `i + n - 1` of a command. -/
def cmdNat (c : Cmd) (i n : Nat) : Nat := recNat (bytesOf c.words) i n

/-- Commands under way: that of the run, and those whose commit writes are still to be made. -/
def Die.sampling (x : Die) : List Cmd := (x.commits ++ x.run.toList).map SampleRun.cmd

/-- The command reads a sequence slot that is poisoned; CLOSE reads nothing of it (R431). -/
def samplerSpoilt (s : State) (d : Nat) (c : Cmd) : Bool :=
  samplerNames c (handleOf c) && kindByte c != 2 && (match findKey (dieAt s d).seqSlots (handleOf c) with | some x => x.mark | none => false)

/-- The sampler command that may start: no run is under way but one that has ended, every push of its clk has been made, and no
earlier command of either engine that names its slot is unfinished (R305, R308). -/
def samplerHead (s : State) (d : Nat) : Option Cmd :=
  let x := dieAt s d
  let q := fifoAt s d fifoSampler
  if x.run.any (fun r => r.ending.isNone || !x.commits.isEmpty) then none
  else
    match nextCmd { q with cmds := q.cmds.filter (fun c => !x.sampling.contains c) } with
    | none => none
    | some c =>
      if decide (s.clk ≤ c.clk) || samplerSpoilt s d c || x.sampling.any (fun q => samplerNames c (handleOf q)) ||
        (fifoAt s d fifoGrammar).cmds.any (fun q => q.before d c && samplerNames c (handleOf q) && kindByte q != 3) then none
      else some c

/-- A command starts: a run that has ended goes on to its commit writes beside it (R308). -/
def makeWay (s : State) (d : Nat) : State := modDie s d (fun x => { x with commits := x.commits ++ x.run.toList, run := none })

def setRun (s : State) (d : Nat) (r : Option SampleRun) : State := modDie s d (fun x => { x with run := r })

/-- Read memory for a sampler command; poison is consumed (R329). -/
def samRead (s : State) (d : Nat) (c : Cmd) (v n : Nat) : State × Except Bad (List Byte) :=
  match agentRead s (c.agent d fifoSampler) v n with
  | (s, .error f) => (s, .error (badRead f))
  | (s, .ok (bs, m)) => (s, if m then .error .poison else .ok bs)

/-- Read `n` elements of `w` bytes that a run may come to use: their values, and the positions of the poisoned ones (R329). -/
def samRow (s : State) (d : Nat) (c : Cmd) (v w n : Nat) : State × Except Bad (List Nat × List Nat) :=
  let a := c.agent d fifoSampler
  match agentRead s a v (w * n) with
  | (s, .error f) => (s, .error (badRead f))
  | (s, .ok (bs, m)) =>
    let marked := fun (i : Nat) => match (agentRead s a (v + w * i) w).2 with | .ok (_, k) => k | .error _ => false
    (s, .ok ((List.range n).map (fun i => recNat bs (w * i) w), if m then (List.range n).filter marked else []))

/-! ### Commit (R320, R326) -/

/-- Add one to a token's count, saturating; answers the largest T. -/
def bumpCount (s : State) (d : Nat) (c : Cmd) (x : SeqSlot) (tok : Nat) : State × Except Bad Nat :=
  match samRead s d c (x.counts + 2 * tok) 2 with
  | (s, .error e) => (s, .error e)
  | (s, .ok bs) =>
    match agentWrite s (c.agent d fifoSampler) (x.counts + 2 * tok) (leBytes 2 (Nat.min (leNat bs + 1) 65535)) with
    | (s, .error f) => (s, .error (badRead f))
    | (s, .ok t) => (s, .ok t)

/-- Every count of the tokens can be read and written. -/
def countsReach (s : State) (d : Nat) (c : Cmd) (x : SeqSlot) (toks : List Nat) : State × Option Bad :=
  toks.foldl (fun r t =>
    match r with
    | (s, some e) => (s, some e)
    | (s, none) =>
      match samRead s d c (x.counts + 2 * t) 2 with
      | (s, .error e) => (s, some e)
      | (s, .ok _) =>
        match agentCheck s (c.agent d fifoSampler) (x.counts + 2 * t) 2 { w := true } with
        | (s, some f) => (s, some (badRead f))
        | (s, none) => (s, none)) (s, none)

def bumpCounts (s : State) (d : Nat) (c : Cmd) (x : SeqSlot) (toks : List Nat) : State × Nat :=
  toks.foldl (fun r t =>
    match bumpCount r.1 d c x t with
    | (s, .ok k) => (s, Nat.max r.2 k)
    | (s, .error _) => (s, r.2)) (s, 0)

/-- The faults that put a slot into the faulted state. -/
def faultsSlot (n : Nat) : Bool := n == 0x90 || n == 0x91 || n == 0x92

/-- End a command with a commit element of no tokens. -/
def refuseCommit (s : State) (d : Nat) (c : Cmd) (g : Option Grammar) : Bad → State
  | .status n f => answer s d fifoSampler c (commitElem 0 g n) 0 f
  | .poison => poisonCmd s d fifoSampler c (commitElem 0 g (Config.undecided s.tick 900001 % 256))

/-- Commit tokens and a grammar state to a slot and end the command with its commit element. Where a count cannot be reached no
token is committed: a fault of R320 met before is reported all the same and leaves the slot faulted. DESIGN CHOICE, log entry 63. -/
def commitNow (s : State) (d : Nat) (c : Cmd) (x : SeqSlot) (toks : List Nat) (g : Option Grammar) (draws : Bool) (status : Nat)
    (f : Option FaultRec) : State :=
  match countsReach s d c x toks with
  | (s, some e) =>
    if faultsSlot status && e != .poison then refuseCommit (setSeq s d (handleOf c) { x with faulted := true }) d c x.grammar (.status status f)
    else refuseCommit s d c x.grammar e
  | (s, none) =>
    let (s, t) := bumpCounts s d c x toks
    let draw := if draws && (status == 0 || !toks.isEmpty) then x.draw + 1 else x.draw
    let s := setSeq s d (handleOf c) { x with grammar := g, draw := draw, faulted := x.faulted || faultsSlot status }
    answer s d fifoSampler c (commitElem toks.length g status) t f

/-- The slot a run works on. -/
def runSlot (s : State) (d : Nat) (r : SampleRun) : Option SeqSlot := findKey (dieAt s d).seqSlots r.handle

/-- An ended run is committed. -/
def commitEnded (s : State) (d : Nat) (r : SampleRun) : State :=
  match runSlot s d r, r.ending with
  | some x, some (status, f) => commitNow s d r.cmd x r.posted r.grammar true status f
  | _, _ => s

/-- The commit writes still to be made are made; a command's elements come after those of the commands before it. -/
def flushCommits (s : State) (d : Nat) : State :=
  (dieAt s d).commits.foldl (fun s r => commitEnded s d r) (modDie s d (fun x => { x with commits := [] }))

/-- Commit tokens of a command that runs no program. -/
def commitTokens (s : State) (d : Nat) (c : Cmd) (x : SeqSlot) (toks : List Nat) (g : Option Grammar) (draws : Bool) (status : Nat)
    (f : Option FaultRec) : State := commitNow (flushCommits s d) d c x toks g draws status f

/-- The run under way has ended: commit it. -/
def commitRun (s : State) (d : Nat) (r : SampleRun) (status : Nat) (f : Option FaultRec) : State :=
  commitEnded (setRun (flushCommits s d) d none) d { r with ending := some (status, f) }

/-- Every command before the one that ends now has its elements: a run that has ended is committed first (R308). -/
def flushEarlier (s : State) (d : Nat) : State := flushCommits (makeWay s d) d

/-- End a command with a status element, after the elements of those before it. -/
def endStatus (s : State) (d : Nat) (c : Cmd) (hi : Nat) (b : Option Bad) : State :=
  let s := flushEarlier s d
  match b with
  | none => answer s d fifoSampler c (statusElem hi 0) 0 none
  | some (.status n f) => answer s d fifoSampler c (statusElem hi n) 0 f
  | some .poison => poisonCmd s d fifoSampler c (statusElem hi (Config.undecided s.tick 900001 % 256))

/-- End a command with a commit element of no tokens. -/
def endCommit (s : State) (d : Nat) (c : Cmd) (g : Option Grammar) (b : Bad) : State := refuseCommit (flushEarlier s d) d c g b

/-! ### OPEN, BIND, CLOSE (R306, R313) -/

/-- SKIP distance of a word. -/
def skipOf (w : BitVec 32) : Option Nat :=
  match decodeLogit w with
  | .ok (.lwSkip n) | .ok (.lwSkipZ n _) | .ok (.lwSkipP n _) | .ok (.lwSkipNg n) => some n.toNat
  | .ok _ | .error _ => none

/-- Status of a program: 0 accepted, 1 a bad word, 2 a target beyond the word after the last (R68, R313). -/
def programStatus (ws : List (BitVec 32)) : Nat :=
  if ws.any (fun w => match decodeLogit w with | .ok _ => false | .error _ => true) then 1
  else if ws.zipIdx.any (fun p => match skipOf p.1 with | some n => decide (ws.length < p.2 + 1 + n) | none => false) then 2
  else 0

/-- Read and check a program of `n` words: what the slot is to hold and the status. -/
def readProgram (s : State) (d : Nat) (c : Cmd) (a n : Nat) : State × Except Bad (Option (List (BitVec 32)) × Nat) :=
  if 256 < n then (s, .ok (none, 2))
  else if n == 0 then (s, .ok (none, 0))
  else
    match samRead s d c a (4 * n) with
    | (s, .error e) => (s, .error e)
    | (s, .ok bs) =>
      let ws := (List.range n).map (fun i => BitVec.ofNat 32 (recNat bs (4 * i) 4))
      let st := programStatus ws
      (s, .ok (if st == 0 then some ws else none, st))

/-- A descriptor's fields are within R306's table, its cluster table apart. -/
def descOk (bs : List Byte) : Bool :=
  decide (recNat bs 0 1 ≤ 1) && recNat bs 1 15 == 0 && recNat bs 80 48 == 0 && decide (1 ≤ recNat bs 16 4) && decide (recNat bs 16 4 ≤ 262144) &&
    decide (recNat bs 20 2 ≤ 256) && recNat bs 24 8 % 4 == 0 && recNat bs 32 8 % 64 == 0 && recNat bs 40 8 % 64 == 0 && recNat bs 48 8 % 64 == 0 &&
    (recNat bs 20 2 == 0 || recNat bs 72 8 % 8 == 0)

/-- First token and count of each cluster. -/
def clustersOf (bs : List Byte) (n : Nat) : List (Nat × Nat) := (List.range n).map (fun i => (recNat bs (8 * i) 4, recNat bs (8 * i + 4) 4))

/-- The entries tile the vocabulary in ascending order (R306). -/
def clustersTile (vocab : Nat) : Nat → List (Nat × Nat) → Bool
  | from', [] => from' == vocab
  | from', (f, n) :: l => f == from' && decide (1 ≤ n) && clustersTile vocab (f + n) l

/-- OPEN (R306): kind 0, and every reserved kind. One that meets a fault in its descriptor, its cluster table or its program opens nothing
and ends with the status of the fault; the cluster table's address is looked at only where there is one. DEDUCED, log entry 32. -/
def execEvOpen (s : State) : Host.Outcome State Fault Refusal :=
  let d := s.arg.die.toNat
  match samplerHead s d with
  | none => .next s
  | some c =>
    let a := cmdNat c 8 8
    if decide (1 ≤ kindByte c) && decide (kindByte c ≤ 6) then .next s
    else if kindByte c != 0 || cmdNat c 1 7 != 0 || cmdNat c 16 48 != 0 || a % 64 != 0 then .next (endStatus s d c 0 (some (bad 0x80)))
    else
      match samRead (makeWay s d) d c a 128 with
      | (s, .error e) => .next (endStatus s d c 0 (some e))
      | (s, .ok bs) =>
        if !descOk bs then .next (endStatus s d c 0 (some (bad 0x80)))
        else
          let n := recNat bs 20 2
          match (if n == 0 then (s, .ok []) else samRead s d c (recNat bs 72 8) (8 * n)) with
          | (s, .error e) => .next (endStatus s d c 0 (some e))
          | (s, .ok cb) =>
            if n != 0 && !clustersTile (recNat bs 16 4) 0 (clustersOf cb n) then .next (endStatus s d c 0 (some (bad 0x80)))
            else
              match readProgram s d c (recNat bs 24 8) (recNat bs 22 2) with
              | (s, .error e) => .next (endStatus s d c 0 (some e))
              | (s, .ok (prog, st)) =>
                match freeKey (dieAt s d).seqSlots 1024 with
                | none => .next (endStatus s d c 0 (some (bad 3)))
                | some k =>
                  let x : SeqSlot := {
                    ctx := c.ctx, vocab := recNat bs 16 4, clusters := n, bf16 := recNat bs 0 1 == 1, program := prog
                    counts := recNat bs 32 8, bias := recNat bs 40 8, ban := recNat bs 48 8, clusterTable := recNat bs 72 8
                    seed := BitVec.ofNat 64 (recNat bs 56 8), draw := BitVec.ofNat 64 (recNat bs 64 8) }
                  .next (endStatus (setSeq s d k x) d c k (if st == 0 then none else some (bad st)))

/-- A command of kind `k` that names a slot: its own checks, then the slot (R305). -/
def slotCommand (s : State) (k : Nat) (ok : Cmd → Bool) (body : State → Nat → Cmd → SeqSlot → State) : Host.Outcome State Fault Refusal :=
  let d := s.arg.die.toNat
  let commits := k == 3 || k == 5 || k == 6
  let refuse := fun (c : Cmd) (n : Nat) => if commits then endCommit s d c none (bad n) else endStatus s d c 0 (some (bad n))
  match samplerHead s d with
  | none => .next s
  | some c =>
    if kindByte c != k then .next s
    else if cmdNat c 1 3 != 0 || decide (1023 < handleOf c) || !ok c then .next (refuse c 0x80)
    else
      match slotFor s d (handleOf c) c.ctx with
      | none => .next (refuse c 0x81)
      | some x => .next (body (makeWay s d) d c x)

/-- BIND (R306, R313). -/
def execEvBind (s : State) : Host.Outcome State Fault Refusal :=
  slotCommand s 1 (fun c => cmdNat c 8 8 % 4 == 0 && cmdNat c 18 46 == 0) (fun s d c x =>
    match readProgram s d c (cmdNat c 8 8) (cmdNat c 16 2) with
    | (s, .error e) => endStatus s d c 0 (some e)
    | (s, .ok (prog, st)) =>
      if st == 0 then endStatus (setSeq s d (handleOf c) { x with program := prog }) d c 0 none else endStatus s d c 0 (some (bad st)))

/-- CLOSE (R306). -/
def execEvClose (s : State) : Host.Outcome State Fault Refusal :=
  slotCommand s 2 (fun c => cmdNat c 8 56 == 0) (fun s d c _ =>
    endStatus (modDie s d (fun y => { y with seqSlots := eraseKey y.seqSlots (handleOf c) })) d c 0 none)

/-! ### Weights and ranking (R310) -/

/-- A difference times log2 e, and times ln 2, each one rounding. -/
def timesLog2e (n : Num) : Nat :=
  match n with
  | .fin neg m e => (roundElem f32Fmt 0 .ieee neg (m * fixOne) ln2Fix e).bits
  | .nan | .inf _ => f32Of n

def timesLn2 (n : Num) : Nat :=
  match n with
  | .fin neg m e => (roundElem f32Fmt 0 .ieee neg (m * ln2Fix) fixOne e).bits
  | .nan | .inf _ => f32Of n

def f32Num (w : Nat) : Num := numOf .f32 w

def isPosInf (w : Nat) : Bool := w == 0x7F800000
def finite32 (w : Nat) : Bool := w / 2 ^ 23 % 256 != 255

/-- Weights of live tokens with values `x`, tokens rising: (token, weight). -/
def weights (l : List (Nat × Nat)) : List (Nat × Nat) :=
  if l.any (fun p => isPosInf p.2) then l.map (fun p => (p.1, if isPosInf p.2 then 0x3F800000 else 0))
  else
    match (l.filter (fun p => finite32 p.2)) with
    | [] => l.map (fun p => (p.1, 0))
    | q :: qs =>
      let m := qs.foldl (fun b p => if ltNum (f32Num b) (f32Num p.2) then p.2 else b) q.2
      l.map (fun p => (p.1,
        if finite32 p.2 then (special .exp .f32 (timesLog2e (addNum 0 (f32Num p.2) (negNum (f32Num m))))).bits else 0))

def supportOf (ws : List (Nat × Nat)) : List (Nat × Nat) := ws.filter (fun p => p.2 % 2 ^ 31 != 0 && decide (p.2 < 2 ^ 31))

/-- Running sums are single additions in ascending token order. -/
def sumWeights (ws : List (Nat × Nat)) : Nat := ws.foldl (fun a p => (f32Add 0 a p.2).bits) 0

/-- Token `a` of value `x` stands before `b` in the ranking order. -/
def ranksBefore (p q : Nat × Nat) : Bool :=
  let x := f32Num p.2
  let y := f32Num q.2
  if x.isNan then y.isNan && decide (p.1 < q.1)
  else if y.isNan then true
  else ltNum y x || (!ltNum x y && decide (p.1 < q.1))

def rankInsert (p : Nat × Nat) : List (Nat × Nat) → List (Nat × Nat)
  | [] => [p]
  | q :: qs => if ranksBefore p q then p :: q :: qs else q :: rankInsert p qs

/-- Tokens with their values in ranking order. -/
def ranked (l : List (Nat × Nat)) : List (Nat × Nat) := l.foldr rankInsert []

/-- SOFTMAX's value for a token of the support (R312). -/
def logProb (w sum : Nat) : Nat :=
  timesLn2 (addNum 0 (f32Num (special .log .f32 w).bits) (negNum (f32Num (special .log .f32 sum).bits)))

/-- An f32 value rounded to bf16 in RNE, and the sum of two rounded once. -/
def toBf16 (n : Num) : Nat := match fmtOf .bf16 with | some f => (elemOf f 0 .ieee n).bits | none => 0

/-! ### Choices (R312, R314, R315) -/

/-- Ten rounds of Philox4x32 (R314). -/
def philox : Nat → Nat × Nat → Nat × Nat × Nat × Nat → Nat × Nat × Nat × Nat
  | 0, _, c => c
  | n + 1, (k0, k1), (c0, c1, c2, c3) =>
    let p0 := 0xD2511F53 * c0
    let p1 := 0xCD9E8D57 * c2
    philox n ((k0 + 0x9E3779B9) % 2 ^ 32, (k1 + 0xBB67AE85) % 2 ^ 32)
      (Nat.xor (Nat.xor (p1 / 2 ^ 32) c1) k0, p1 % 2 ^ 32, Nat.xor (Nat.xor (p0 / 2 ^ 32) c3) k1, p0 % 2 ^ 32)

/-- The uniform number: 24 bits, in units of 2^-24. -/
def uniform (seed draw : Word) (node stage : Nat) : Nat :=
  (philox 10 (bits seed 31 0, bits seed 63 32) (bits draw 31 0, bits draw 63 32, node, stage)).1 / 256

/-- The draw over a support: the lowest token whose running sum exceeds `target`, else the highest. -/
def drawFrom (target : Nat) : Nat → List (Nat × Nat) → Nat × Nat → Nat × Nat
  | _, [], last => last
  | acc, p :: ps, _ =>
    let acc := (f32Add 0 acc p.2).bits
    if ltNum (f32Num target) (f32Num acc) then p else drawFrom target acc ps p

/-- How a choice picks from a support. -/
inductive Pick where
  | argmax
  | draw (u : Nat)
deriving DecidableEq, Repr

/-- A choice: token, f32 log probability (none: from outside every support), whether filters were dropped. -/
structure Choice where
  tok : Nat
  logp : Option Nat
  dropped : Bool
deriving DecidableEq, Repr

/-- Choose from the support of a live set, if it has one. -/
def chooseFrom (p : Pick) (live : List (Nat × Nat)) : Option (Nat × Nat) :=
  let sup := supportOf (weights live)
  let sum := sumWeights sup
  match sup with
  | [] => none
  | q :: _ =>
    let t := match p with
      | .argmax => (((ranked live).filter (fun r => sup.any (fun w => w.1 == r.1))).map Prod.fst).headD q.1
      | .draw u => (drawFrom (f32Of (mulNum (.fin false u (-24)) (f32Num sum))) 0 sup q).1
    match sup.find? (fun w => w.1 == t) with
    | some w => some (t, logProb w.2 sum)
    | none => none

/-- A choice under the empty-support rule (R315): live ∩ M, then earlier filters' live sets, then the lowest of M ∩ slice. -/
def chooseRule (p : Pick) (x : Nat → Nat) (slice live : List Nat) (filters : List (Bool × List Nat)) (m : List Nat) : Option Choice :=
  let vals := fun (l : List Nat) => ((l.filter (fun t => m.contains t)).map (fun t => (t, x t)))
  match chooseFrom p (vals live) with
  | some (t, l) => some { tok := t, logp := some l, dropped := false }
  | none =>
    let earlier := (((filters.take (filters.length - 1)).reverse.filter (fun f => !f.1)).map Prod.snd) ++ [slice]
    match earlier.findSome? (fun l => chooseFrom p (vals l)) with
    | some (t, l) => some { tok := t, logp := some l, dropped := true }
    | none =>
      match slice.filter (fun t => m.contains t) with
      | [] => none
      | t :: _ => some { tok := t, logp := none, dropped := true }

/-! ### Runs -/

/-- The tokens of the slice. -/
def SampleRun.slice (r : SampleRun) : List Nat := (List.range r.len).map (fun i => r.base + i)

def SampleRun.xAt (r : SampleRun) (t : Nat) : Nat := (look 0 r.x t).toNat

/-- The run is to end with `b`, committing what it has posted; poison takes the command back. -/
def endRunWith (s : State) (d : Nat) (r : SampleRun) : Bad → State
  | .status n f => setRun s d (some { r with ending := some (n, f) })
  | .poison =>
    if canRollBack s r.cmd.task then poisonCmd (setRun s d none) d fifoSampler r.cmd 0
    else setRun s d (some { r with ending := some (Config.undecided s.tick 900001 % 256, some { code := .poison, cause := 2 }) })

/-- Load the row of logits at `a` and start the program (R309). -/
def startProgram (s : State) (d : Nat) (r : SampleRun) (bf16 : Bool) (a : Nat) : State :=
  let w := if bf16 then 2 else 4
  match samRow s d r.cmd a w r.len with
  | (s, .error e) => endRunWith s d r e
  | (s, .ok (vs, ms)) =>
    let xs := vs.map (fun v => BitVec.ofNat 32 (if bf16 then f32OfBf16 v else v))
    setRun s d (some { r with
      x := placeAll 0 [] r.base xs, c := [], b := [], v := [], live := r.slice, filters := [], greedy := false, pos := 0
      xMarks := ms.map (fun i => r.base + i), cMarks := [], bMarks := [] })

/-- Log probability an element reports (R314). -/
def reported (r : SampleRun) (forced : Bool) (logp : Option Nat) : Nat :=
  match logp with
  | none => 0xFF80
  | some l =>
    match r.clusterLog with
    | some c => toBf16 (addNum 0 (f32Num c) (f32Num (if forced then 0 else l)))
    | none => if forced then 0 else toBf16 (f32Num l)

/-- Check a chosen token, post its element, advance the provisional state (R317, R325). -/
def postToken (s : State) (d : Nat) (r : SampleRun) (x : SeqSlot) (tok : Nat) (forced : Bool) (logp : Option Nat) (dropped : Bool) :
    State × Except Bad SampleRun :=
  let post := fun (s : State) => postResult (flushCommits s d) d fifoSampler r.cmd.ctx (tokenElem tok (reported r forced logp) forced dropped) 0 none
  match r.grammar with
  | none => (post s, .ok { r with posted := r.posted ++ [tok] })
  | some g =>
    match advance s (r.cmd.agent d fifoGrammar) x.vocab g tok with
    | (s, .error e) => (s, .error e)
    | (s, .ok g') => (post s, .ok { r with posted := r.posted ++ [tok], grammar := some g' })

/-- Begin a choice: read M; empty, forced, or the program over the row (R319). Forced: the token. -/
def beginChoice (s : State) (d : Nat) (r : SampleRun) (x : SeqSlot) : State × Except Bad (SampleRun × Option Nat) :=
  match r.grammar with
  | none => (s, .ok ({ r with permitted := none }, if r.len == 1 then some r.base else none))
  | some g =>
    match permittedBy s (r.cmd.agent d fifoGrammar) x.vocab g with
    | (s, .error e) => (s, .error e)
    | (s, .ok (m, ms)) =>
      let mine := fun (t : Nat) => decide (r.base ≤ t) && decide (t < r.base + r.len)
      if ms.any mine then (s, .error .poison) else
      match m.filter mine with
      | [] => (s, .error (bad 0x90))
      | [t] => (s, .ok ({ r with permitted := some [t] }, some t))
      | l => (s, .ok ({ r with permitted := some l }, none))

/-- The node records of a VERIFY: row of node `n`. -/
def nodeAt (r : SampleRun) (n : Nat) : Nat × Nat × Nat × Nat × Nat := r.nodes.getD n (0, 0, 0, 0, 0)

def rowOfNode (r : SampleRun) (n : Nat) : Nat := (nodeAt r n).2.2.2.2

/-- Lowest-indexed child of node `n` whose token is `t`. -/
def childOf (r : SampleRun) (n t : Nat) : Option Nat :=
  ((List.range r.nodes.length).filter (fun i => i != 0 && (nodeAt r i).1 == n && (nodeAt r i).2.2.2.1 == t)).head?

/-- Walk a VERIFY from node `r.node` (R325): forced nodes pass at once, until a program is to run or the walk stops. -/
def walkTree : Nat → State → Nat → SampleRun → SeqSlot → State
  | 0, s, d, r, _ => setRun s d (some { r with ending := some (0, none) })
  | f + 1, s, d, r, x =>
    if rowOfNode r r.node == 0 then setRun s d (some { r with ending := some (0, none) })
    else
      match beginChoice s d r x with
      | (s, .error e) => endRunWith s d r e
      | (s, .ok (r, none)) => startProgram s d r x.bf16 (rowOfNode r r.node)
      | (s, .ok (r, some t)) =>
        match postToken s d r x t true (some 0) false with
        | (s, .error e) => endRunWith s d r e
        | (s, .ok r) =>
          match childOf r r.node t with
          | some n => walkTree f s d { r with node := n } x
          | none => setRun s d (some { r with ending := some (0, none) })

/-- A choice has been made: post the token, and go on to the next node of a VERIFY or end (R314, R325). -/
def chosen (s : State) (d : Nat) (r : SampleRun) (c : Option Choice) : State :=
  match runSlot s d r, c with
  | none, _ => setRun s d none
  | some _, none => endRunWith s d r (bad 0x90)
  | some x, some c =>
    match postToken s d r x c.tok false c.logp c.dropped with
    | (s, .error e) => endRunWith s d r e
    | (s, .ok r) =>
      if r.nodes.isEmpty then setRun s d (some { r with ending := some (0, none) })
      else
        match childOf r r.node c.tok with
        | some n => walkTree 65 s d { r with node := n } x
        | none => setRun s d (some { r with ending := some (0, none) })

/-- Tokens whose values a choice uses (R315): those of the live set and of each earlier one it falls back to. -/
def examined (p : Pick) (r : SampleRun) : List Nat :=
  let m := r.permitted.getD r.slice
  let earlier := (((r.filters.take (r.filters.length - 1)).reverse.filter (fun f => !f.1)).map Prod.snd) ++ [r.slice]
  let sets := (r.live :: earlier).map (fun l => l.filter (fun t => m.contains t))
  let empty := sets.takeWhile (fun l => (chooseFrom p (l.map (fun t => (t, r.xAt t)))).isNone)
  (sets.take (empty.length + 1)).flatten

/-- Choose over the run's state; poison among what the choice uses is consumed (R329). -/
def choose (s : State) (d : Nat) (r : SampleRun) (p : Pick) : State :=
  if (examined p r).any (fun t => r.xMarks.contains t) then endRunWith s d r .poison
  else chosen s d r (chooseRule p r.xAt r.slice r.live r.filters (r.permitted.getD r.slice))

/-! ### SAMPLE, VERIFY (R319 to R326) -/

def emptyRun (c : Cmd) (x : SeqSlot) (base len stage : Nat) (nodes : List (Nat × Nat × Nat × Nat × Nat)) (clusterLog : Option Nat) : SampleRun :=
  { cmd := c, handle := handleOf c, base := base, len := len, permitted := none, x := [], c := [], b := [], v := [], live := [], filters := []
    greedy := false, pos := 0, stage := stage, node := 0, nodes := nodes, clusterLog := clusterLog, posted := [], grammar := x.grammar, ending := none }

/-- Start a SAMPLE over its slice (R319). -/
def startSample (s : State) (d : Nat) (r : SampleRun) (x : SeqSlot) (row : Nat) : State :=
  match beginChoice s d r x with
  | (s, .error e) => endRunWith s d r e
  | (s, .ok (r, none)) => startProgram s d r x.bf16 row
  | (s, .ok (r, some t)) =>
    match postToken s d r x t true (some 0) false with
    | (s, .error e) => endRunWith s d r e
    | (s, .ok r) => setRun s d (some { r with ending := some (0, none) })

/-- Fields of a SAMPLE. -/
def sampleOk (c : Cmd) : Bool := cmdNat c 25 39 == 0 && decide (cmdNat c 24 1 < 2) && cmdNat c 20 4 != 0 && cmdNat c 8 8 % 64 == 0

/-- Checks common to SAMPLE and stage 2, after the slot: slice within V, not faulted. -/
def sampleRefused (c : Cmd) (x : SeqSlot) : Option Nat :=
  if x.vocab < cmdNat c 16 4 + cmdNat c 20 4 then some 0x80 else if x.faulted then some 0x93 else none

/-- A kind-3 command of the given stage bit. -/
def sampleEvent (stage2 : Bool) (s : State) (body : State → Nat → Cmd → SeqSlot → State) : Host.Outcome State Fault Refusal :=
  match samplerHead s s.arg.die.toNat with
  | none => .next s
  | some c => if (cmdNat c 24 1 % 2 == 1) != stage2 then .next s else slotCommand s 3 sampleOk body

/-- SAMPLE (R319), stage bit clear. -/
def execEvSample (s : State) : Host.Outcome State Fault Refusal :=
  sampleEvent false s (fun s d c x =>
    match sampleRefused c x with
    | some n => endCommit s d c x.grammar (bad n)
    | none =>
      if x.pending.isSome then endCommit s d c x.grammar (bad 0x83)
      else startSample s d (emptyRun c x (cmdNat c 16 4) (cmdNat c 20 4) 0 [] none) x (cmdNat c 8 8))

/-- SAMPLE of stage 2 (R323). -/
def execEvSampleStage2 (s : State) : Host.Outcome State Fault Refusal :=
  sampleEvent true s (fun s d c x =>
    match sampleRefused c x with
    | some n => endCommit s d c x.grammar (bad n)
    | none =>
      match x.pending with
      | none => endCommit s d c x.grammar (bad 0x83)
      | some (_, logp, first, count) =>
        if first != cmdNat c 16 4 || count != cmdNat c 20 4 then endCommit s d c x.grammar (bad 0x83)
        else
          let x' := { x with pending := none }
          startSample (setSeq s d (handleOf c) x') d (emptyRun c x' first count 2 [] (some logp)) x' (cmdNat c 8 8))

/-- Node records of a VERIFY: (parent, entry, exit, token, row). -/
def nodesOf (bs : List Byte) (n : Nat) : List (Nat × Nat × Nat × Nat × Nat) :=
  (List.range n).map (fun i =>
    let f := fun (o k : Nat) => recNat bs (32 * i + o) k
    (f 8 4, f 16 4, f 20 4, f 12 4, f 0 8))

/-- The rules of a node table (R324). -/
def nodesOk (bs : List Byte) (n vocab : Nat) : Bool :=
  let l := nodesOf bs n
  let at' := fun (i : Nat) => l.getD i (0, 0, 0, 0, 0)
  (List.range n).all (fun i =>
    let (parent, entry, exit, tok, row) := at' i
    recNat bs (32 * i + 24) 8 == 0 && row % 64 == 0 && decide (entry ≤ exit) &&
      (if i == 0 then entry == 0 && exit == 0xFFFFFFFF && tok == 0 && parent == 0
       else
        let (_, pe, px, _, _) := at' parent
        decide (parent < i) && decide (tok < vocab) && decide (pe ≤ entry) && decide (exit ≤ px)))

/-- VERIFY (R324, R325). -/
def execEvVerify (s : State) : Host.Outcome State Fault Refusal :=
  slotCommand s 5 (fun c => cmdNat c 17 47 == 0 && decide (2 ≤ cmdNat c 16 1) && decide (cmdNat c 16 1 ≤ 64) && cmdNat c 8 8 % 32 == 0) (fun s d c x =>
    let n := cmdNat c 16 1
    if x.faulted then endCommit s d c x.grammar (bad 0x93)
    else if x.pending.isSome then endCommit s d c x.grammar (bad 0x83)
    else if x.clusters != 0 then endCommit s d c x.grammar (bad 0x82)
    else
      match samRead s d c (cmdNat c 8 8) (32 * n) with
      | (s, .error e) => endCommit s d c x.grammar e
      | (s, .ok bs) =>
        if !nodesOk bs n x.vocab then endCommit s d c x.grammar (bad 0x82)
        else walkTree 65 s d (emptyRun c x 0 x.vocab 0 (nodesOf bs n) none) x)

/-! ### NOTE, CLUSTER (R322, R326) -/

/-- Accept listed tokens one by one; what stopped it. -/
def noteTokens (s : State) (d : Nat) (c : Cmd) (x : SeqSlot) (toks : List Nat) : State × List Nat × Option Grammar × Option Bad :=
  toks.foldl (fun r t =>
    match r with
    | (s, done, g, some e) => (s, done, g, some e)
    | (s, done, none, none) => (s, done ++ [t], none, none)
    | (s, done, some g, none) =>
      match permittedBy s (c.agent d fifoGrammar) x.vocab g with
      | (s, .error e) => (s, done, some g, some e)
      | (s, .ok (m, ms)) =>
        if ms.contains t then (s, done, some g, some .poison)
        else if !m.contains t then (s, done, some g, some (bad 0x90))
        else
          match advance s (c.agent d fifoGrammar) x.vocab g t with
          | (s, .error e) => (s, done, some g, some e)
          | (s, .ok g') => (s, done ++ [t], some g', none)) (s, [], x.grammar, none)

/-- NOTE (R326). -/
def execEvNote (s : State) : Host.Outcome State Fault Refusal :=
  slotCommand s 6 (fun c => cmdNat c 20 44 == 0 && decide (1 ≤ cmdNat c 16 4) && decide (cmdNat c 16 4 ≤ 4096) && cmdNat c 8 8 % 4 == 0) (fun s d c x =>
    let n := cmdNat c 16 4
    if x.faulted then endCommit s d c x.grammar (bad 0x93)
    else if x.pending.isSome then endCommit s d c x.grammar (bad 0x83)
    else
      match samRead s d c (cmdNat c 8 8) (4 * n) with
      | (s, .error e) => endCommit s d c x.grammar e
      | (s, .ok bs) =>
        let toks := (List.range n).map (fun i => recNat bs (4 * i) 4)
        if toks.any (fun t => decide (x.vocab ≤ t)) then endCommit s d c x.grammar (bad 0x80)
        else
          match noteTokens s d c x toks with
          | (s, done, g, none) => commitTokens s d c x done g false 0 none
          | (s, done, g, some (.status n f)) => commitTokens s d c x done g false n f
          | (s, _, _, some .poison) => endCommit s d c x.grammar .poison)

/-- The core that pushed a command as its context has left it, on the core or in its saved image (R304). -/
def pusher (s : State) (c : Cmd) : Core :=
  if (coreAt s c.core).ctx == some c.ctx then coreAt s c.core
  else match s.images.find? (fun i => i.ctx == c.ctx && i.core == c.core) with | some i => i.image | none => {}

/-- CLUSTER (R322). -/
def execEvCluster (s : State) : Host.Outcome State Fault Refusal :=
  slotCommand s 4 (fun c => cmdNat c 9 3 == 0 && cmdNat c 16 48 == 0) (fun s d c x =>
    if x.faulted then endStatus s d c 0 (some (bad 0x93))
    else if x.clusters == 0 then endStatus s d c 0 (some (bad 0x83))
    else if (pusher s c).leaseQueue.any (fun q => decide (q.stamp ≤ c.stamp)) then s
    else
      match samRead s d c x.clusterTable (8 * x.clusters) with
      | (s, .error e) => endStatus s d c 0 (some e)
      | (s, .ok cb) =>
        let cl := clustersOf cb x.clusters
        let permitted : State × Except Bad (Option (List Nat)) := match x.grammar with
          | none => (s, .ok none)
          | some g =>
            match permittedBy s (c.agent d fifoGrammar) x.vocab g with
            | (s, .error e) => (s, .error e)
            | (s, .ok (m, ms)) => (s, if ms.isEmpty then .ok (some m) else .error .poison)
        let failed := fun (s : State) (e : Bad) =>
          match e with
          | .status n _ => endStatus (if faultsSlot n then setSeq s d (handleOf c) { x with faulted := true } else s) d c 0 (some e)
          | .poison => endStatus s d c 0 (some e)
        match permitted with
        | (s, .error e) => failed s e
        | (s, .ok m) =>
          let bank := (pusher s c).bank
          let marks := (pusher s c).bankPoison
          let row := 256 * cmdNat c 8 1
          let live := (List.range x.clusters).filter (fun i =>
            match m with
            | none => true
            | some m => let (f, n) := cl.getD i (0, 0); m.any (fun t => decide (f ≤ t) && decide (t < f + n)))
          let t := cmdNat c 12 4
          let warm := finite32 t && ltNum (.fin false 0 0) (f32Num t)
          let z := fun (i : Nat) => let w := (look 0 bank (row + i)).toNat; if warm then f32Div 0 w t else w
          if live.isEmpty then failed s (bad 0x90)
          else if live.any (fun i => look false marks (row + i)) then failed s .poison
          else
            match chooseRule (if warm then .draw (uniform x.seed x.draw 0 1) else .argmax) z live live [] live with
            | none => failed s (bad 0x90)
            | some ch =>
              let (f, n) := cl.getD ch.tok (0, 0)
              endStatus (setSeq s d (handleOf c) { x with pending := some (ch.tok, ch.logp.getD 0xFF800000, f, n) }) d c ch.tok none)

/-! ### Logit words (R312) -/

/-- Perform a word of the run of the die an event names. -/
def onRun (s : State) (f : Nat → SampleRun → State) : Host.Outcome State Fault Refusal :=
  let d := s.arg.die.toNat
  match (dieAt s d).run with
  | none => .next s
  | some r => if r.ending.isSome then .next s else .next (f d r)

/-- Go on to the next word with a changed run. -/
def wordDone (s : State) (d : Nat) (r : SampleRun) : State := setRun s d (some { r with pos := r.pos + 1 })

/-- A word uses what it reads of live tokens, of their values those of the tokens that `uses` names: a poisoned one among them is consumed.
What it makes of a token that is not live it carries on, and no mark of it is lost (R329). Which words use a value is not said: DESIGN CHOICE, log entry 64. -/
def usingMarks (s : State) (d : Nat) (r : SampleRun) (marks : List Nat) (go : SampleRun → State) (uses : Nat → Bool := fun _ => true) : State :=
  if r.live.any (fun t => (uses t && r.xMarks.contains t) || marks.contains t) then endRunWith s d r .poison
  else go { r with xMarks := dedupNat (marks ++ r.xMarks) }

/-- Change the value of every token of the slice. -/
def mapX (r : SampleRun) (f : Nat → Nat → Nat) : SampleRun :=
  { r with x := placeAll 0 [] r.base (r.slice.map (fun t => BitVec.ofNat 32 (f t (r.xAt t)))) }

/-- A word that changes every value, with the tokens of its other table that are marked. -/
def onX (s : State) (marks : SampleRun → List Nat) (f : SampleRun → Nat → Nat → Nat)
    (uses : SampleRun → Nat → Bool := fun _ _ => true) : Host.Outcome State Fault Refusal :=
  onRun s (fun d r => usingMarks s d r (marks r) (fun r => wordDone s d (mapX r (f r))) (uses r))

def noMarks (_ : SampleRun) : List Nat := []

def SampleRun.vAt (r : SampleRun) (a : BitVec 4) : Nat := (look 0 r.v a.toNat).toNat
def SampleRun.cAt (r : SampleRun) (t : Nat) : Nat := (look 0 r.c t).toNat
/-- A token that occurs: the words that penalise such tokens leave every other value as it is, unused (R312). -/
def SampleRun.occurs (r : SampleRun) (t : Nat) : Bool := r.cAt t != 0
def SampleRun.bAt (r : SampleRun) (t : Nat) : Nat := (look 0 r.b t).toNat

/-- Leave a smaller live set and record the filter. -/
def filtered (s : State) (d : Nat) (r : SampleRun) (grammar : Bool) (live : List Nat) : State :=
  wordDone s d { r with live := live, filters := r.filters ++ [(grammar, live)] }

/-- A filter that compares the values of the live tokens. -/
def filterBy (s : State) (keep : SampleRun → List Nat) : Host.Outcome State Fault Refusal :=
  onRun s (fun d r => usingMarks s d r [] (fun r => filtered s d r false (r.live.filter (fun t => (keep r).contains t))))

/-- Live tokens with their values, rising. -/
def liveVals (r : SampleRun) : List (Nat × Nat) := r.live.map (fun t => (t, r.xAt t))

/-- Tokens of a list in rising order, as `live` lists them. -/
def inLive (r : SampleRun) (keep : List Nat) : List Nat := r.live.filter (fun t => keep.contains t)

/-- Entries of a table the slot names, for the slice, and the tokens whose entries are poisoned. -/
def sliceRead (s : State) (d : Nat) (r : SampleRun) (a w : Nat) : State × Except Bad (List Nat × List Nat) :=
  match samRow s d r.cmd (a + w * r.base) w r.len with
  | (s, .error e) => (s, .error e)
  | (s, .ok (l, ms)) => (s, .ok (l, ms.map (fun i => r.base + i)))

/-- Provisional deltas of a token at the run's node (R325). -/
def deltas (r : SampleRun) (t : Nat) : Nat :=
  let (_, e, x, _, _) := nodeAt r r.node
  ((List.range r.nodes.length).filter (fun i => i != 0 && (let (_, ie, ix, tok, _) := nodeAt r i; decide (ie ≤ e) && decide (x ≤ ix) && tok == t))).length

/-- A word that reads a table of the slot. -/
def withTable (s : State) (f : Nat → SampleRun → SeqSlot → State) : Host.Outcome State Fault Refusal :=
  onRun s (fun d r => match runSlot s d r with | none => setRun s d none | some x => f d r x)

/-- LDC. -/
def execLwLdc (s : State) : Host.Outcome State Fault Refusal :=
  withTable s (fun d r x =>
    match sliceRead s d r x.counts 2 with
    | (s, .error e) => endRunWith s d r e
    | (s, .ok (l, ms)) => wordDone s d { r with c := placeAll 0 [] r.base (l.zipIdx.map (fun p => BitVec.ofNat 32 (p.1 + deltas r (r.base + p.2)))), cMarks := ms })

/-- LDB. -/
def execLwLdb (s : State) : Host.Outcome State Fault Refusal :=
  withTable s (fun d r x =>
    if x.bias == 0 then wordDone s d { r with b := [], bMarks := [] }
    else
      match sliceRead s d r x.bias 2 with
      | (s, .error e) => endRunWith s d r e
      | (s, .ok (l, ms)) => wordDone s d { r with b := placeAll 0 [] r.base (l.map (fun w => BitVec.ofNat 32 (f32OfBf16 w))), bMarks := ms })

/-- BIAS. -/
def execLwBias (a : BitVec 4) (s : State) : Host.Outcome State Fault Refusal :=
  onX s SampleRun.bMarks (fun r t x => f32Of (addNum 0 (f32Num x) (mulNum (f32Num (r.vAt a)) (f32Num (r.bAt t)))))

/-- PENREP. -/
def execLwPenrep (a : BitVec 4) (s : State) : Host.Outcome State Fault Refusal :=
  onX s SampleRun.cMarks (fun r t x =>
    if r.cAt t == 0 then x
    else if ltNum (.fin false 0 0) (f32Num x) then f32Div 0 x (r.vAt a) else (f32Mul 0 x (r.vAt a)).bits) SampleRun.occurs

/-- PENFRQ. -/
def execLwPenfrq (a : BitVec 4) (s : State) : Host.Outcome State Fault Refusal :=
  onX s SampleRun.cMarks (fun r t x => f32Of (addNum 0 (f32Num x) (negNum (mulNum (f32Num (r.vAt a)) (.fin false (r.cAt t) 0)))))

/-- PENPRS. -/
def execLwPenprs (a : BitVec 4) (s : State) : Host.Outcome State Fault Refusal :=
  onX s SampleRun.cMarks (fun r t x => if r.cAt t == 0 then x else (f32Sub 0 x (r.vAt a)).bits) SampleRun.occurs

/-- TEMP. -/
def execLwTemp (a : BitVec 4) (s : State) : Host.Outcome State Fault Refusal :=
  onRun s (fun d r =>
    let t := r.vAt a
    if finite32 t && ltNum (.fin false 0 0) (f32Num t) then usingMarks s d r [] (fun r => wordDone s d (mapX r (fun _ x => f32Div 0 x t)))
    else wordDone s d { r with greedy := true })

/-- CLAMP. -/
def execLwClamp (b a : BitVec 4) (s : State) : Host.Outcome State Fault Refusal :=
  onX s noMarks (fun r _ x => (floatMin f32Fmt false (floatMin f32Fmt true x (r.vAt a)).bits (r.vAt b)).bits)

/-- SCALE. -/
def execLwScale (b a : BitVec 4) (s : State) : Host.Outcome State Fault Refusal :=
  onX s noMarks (fun r _ x => f32Of (addNum 0 (mulNum (f32Num x) (f32Num (r.vAt a))) (f32Num (r.vAt b))))

/-- MASKG. -/
def execLwMaskg (s : State) : Host.Outcome State Fault Refusal :=
  onRun s (fun d r => filtered s d r true (match r.permitted with | some m => inLive r m | none => r.live))

/-- MASKB. -/
def execLwMaskb (s : State) : Host.Outcome State Fault Refusal :=
  withTable s (fun d r x =>
    if x.ban == 0 then filtered s d r false r.live
    else
      match samRow s d r.cmd (x.ban + r.base / 8) 1 (ceilDiv (r.base % 8 + r.len) 8) with
      | (s, .error e) => endRunWith s d r e
      | (s, .ok (bs, ms)) =>
        if r.live.any (fun t => ms.contains (t / 8 - r.base / 8)) then endRunWith s d r .poison
        else filtered s d r false (r.live.filter (fun t => bs.getD (t / 8 - r.base / 8) 0 / 2 ^ (t % 8) % 2 == 0)))

/-- TOPK. -/
def execLwTopk (k : BitVec 16) (s : State) : Host.Outcome State Fault Refusal :=
  filterBy s (fun r => ((ranked (liveVals r)).take k.toNat).map Prod.fst)

/-- The shortest initial stretch of a ranked support whose running sum reaches `goal`; all of it when none does. -/
def upToGoal (goal : Nat) : Nat → List (Nat × Nat) → List Nat
  | _, [] => []
  | acc, p :: ps =>
    let acc := (f32Add 0 acc p.2).bits
    if ltNum (f32Num acc) (f32Num goal) then p.1 :: upToGoal goal acc ps else [p.1]

/-- Support of the live set in ranking order, with weights. -/
def rankedSupport (r : SampleRun) : List (Nat × Nat) :=
  let sup := supportOf (weights (liveVals r))
  (ranked (liveVals r)).filterMap (fun q => sup.find? (fun w => w.1 == q.1))

/-- A scalar is NaN or at most 0. -/
def nanOrLow (p : Nat) : Bool := (f32Num p).isNan || !ltNum (.fin false 0 0) (f32Num p)

/-- TOPP. -/
def execLwTopp (a : BitVec 4) (s : State) : Host.Outcome State Fault Refusal :=
  filterBy s (fun r =>
    let p := r.vAt a
    let sup := rankedSupport r
    if nanOrLow p then (sup.map Prod.fst).take 1 else upToGoal (f32Mul 0 p (sumWeights (supportOf (weights (liveVals r))))).bits 0 sup)

/-- MINP. -/
def execLwMinp (a : BitVec 4) (s : State) : Host.Outcome State Fault Refusal :=
  filterBy s (fun r =>
    let p := r.vAt a
    let ws := weights (liveVals r)
    (if nanOrLow p then supportOf ws else ws.filter (fun w => !ltNum (f32Num w.2) (f32Num p))).map Prod.fst)

/-- SOFTMAX. -/
def execLwSoftmax (s : State) : Host.Outcome State Fault Refusal :=
  onRun s (fun d r => usingMarks s d r [] (fun r =>
    let sup := supportOf (weights (liveVals r))
    let sum := sumWeights sup
    wordDone s d (mapX r (fun t x =>
      if r.live.contains t then match sup.find? (fun w => w.1 == t) with | some w => logProb w.2 sum | none => 0xFF800000 else x))))

/-- DRAW (R314). -/
def execLwDraw (s : State) : Host.Outcome State Fault Refusal :=
  withTable s (fun d r x => choose s d r (if r.greedy then .argmax else .draw (uniform x.seed x.draw r.node r.stage)))

/-- ARGMAX. -/
def execLwArgmax (s : State) : Host.Outcome State Fault Refusal := onRun s (fun d r => choose s d r .argmax)

/-- END chooses as ARGMAX does. -/
def execLwEnd (s : State) : Host.Outcome State Fault Refusal := onRun s (fun d r => choose s d r .argmax)

def setV (r : SampleRun) (a : BitVec 4) (w : Nat) : SampleRun := { r with v := place 0 r.v a.toNat (BitVec.ofNat 32 w) }

/-- SETV. -/
def execLwSetv (x : BitVec 16) (a : BitVec 4) (s : State) : Host.Outcome State Fault Refusal :=
  onRun s (fun d r => wordDone s d (setV r a (x.toNat * 65536)))

/-- SETV.lo. -/
def execLwSetvLo (x : BitVec 16) (a : BitVec 4) (s : State) : Host.Outcome State Fault Refusal :=
  onRun s (fun d r => wordDone s d (setV r a (r.vAt a / 65536 * 65536 + x.toNat)))

/-- Skip `n` words when the condition holds. -/
def skipWhen (s : State) (n : BitVec 16) (p : SampleRun → Bool) : Host.Outcome State Fault Refusal :=
  onRun s (fun d r => setRun s d (some { r with pos := r.pos + 1 + (if p r then n.toNat else 0) }))

def execLwSkip (n : BitVec 16) (s : State) : Host.Outcome State Fault Refusal := skipWhen s n (fun _ => true)

/-- SKIP.z: ±0 or NaN. -/
def execLwSkipZ (n : BitVec 16) (a : BitVec 4) (s : State) : Host.Outcome State Fault Refusal :=
  skipWhen s n (fun r => r.vAt a % 2 ^ 31 == 0 || (f32Num (r.vAt a)).isNan)

def execLwSkipP (n : BitVec 16) (a : BitVec 4) (s : State) : Host.Outcome State Fault Refusal :=
  skipWhen s n (fun r => ltNum (.fin false 0 0) (f32Num (r.vAt a)))

/-- SKIP.ng: no grammar is bound. -/
def execLwSkipNg (n : BitVec 16) (s : State) : Host.Outcome State Fault Refusal := skipWhen s n (fun r => r.permitted.isNone)

/-! ### The sampler's turn -/

/-- Commit writes that overlap a run are made now: no run waits for them, the run beside them has ended, or it is left to them (R308). -/
def commitsNow (s : State) (x : Die) : Bool :=
  !x.commits.isEmpty && (match x.run with | none => true | some r => r.ending.isSome) || (!x.commits.isEmpty && Config.undecided s.tick 900002 % 2 == 1)

/-- What the sampler of die `d` does next: commit an ended run, or the word at its position. -/
def arriveSampler (s : State) (d : Nat) : Arrival :=
  if commitsNow s (dieAt s d) then .stay (flushCommits s d) else
  match (dieAt s d).run with
  | none => .stay s
  | some r =>
    match r.ending with
    | some (n, f) => .stay (commitRun s d r n f)
    | none =>
      match runSlot s d r with
      | none => .stay (setRun s d none)
      | some x =>
        match (x.program.getD [])[r.pos]? with
        | none => .stay (choose s d r .argmax)
        | some w =>
          match decodeLogit w with
          | .ok i => .run s i
          | .error _ => .stay (choose s d r .argmax)

end Sys2Proof.Machine
end

