-- ==== Sys2Proof/Machine/Tasks.lean ====
section
/-!
DEFINITION. Tile tasks and the task sequencer (R391 to R408): launches and graphs, the scoreboard, placement, staging, the
start and the end of a task, dependences between tasks (R357, R358), events, priorities.
-/
namespace Sys2Proof.Machine

/-! ### Tasks by mark -/

/-- Die and scoreboard entry in one number. -/
def markOf (d n : Nat) : Nat := d * 4096 + n

def taskAt (s : State) (d n : Nat) : Option Task := findKey (dieAt s d).tasks n

def setTask (s : State) (d n : Nat) (t : Task) : State := modDie s d (fun x => { x with tasks := setKey x.tasks n t })

def modTask (s : State) (d n : Nat) (f : Task → Task) : State :=
  match taskAt s d n with | some t => setTask s d n (f t) | none => s

/-- The task with mark `m` is over: what it wrote is provisional no longer, and no task depends on it (R357, R401). -/
def endDeps (m : Nat) (c : Core) : Core :=
  let c := endMark m c
  { c with deps := c.deps.filter (fun x => x != m) }

/-- The mark of a faulted task gives way to one that no other task bears: its records stay held, and what depends on it waits. -/
def keepMark (m u : Nat) (c : Core) : Core :=
  let put := fun (r : LogRec) => if r.prov == some m then { r with prov := some u } else r
  { c with log := c.log.map put, replay := c.replay.map (fun p => (p.1, put p.2))
           deps := c.deps.map (fun x => if x == m then u else x) }

/-- The records of the task with mark `m` stand in the logs as no task's. -/
def disown (m : Nat) (c : Core) : Core := { c with log := c.log.map (fun r => if r.owner == some m then { r with owner := none } else r) }

/-- Every core and image that holds the task with mark `m`. -/
def coresOf (s : State) (m : Nat) : List Core :=
  let mine := fun (n : Nat) (c : Core) => c.task == some (m % 4096) && n / 64 == m / 4096
  ((List.range 256).filter (fun n => mine n (coreAt s n))).map (coreAt s) ++
    ((s.images.filter (fun i => mine i.core i.image)).map SavedImage.image)

/-- Tasks the task with mark `m` depends on at once. -/
def depsOf (s : State) (m : Nat) : List Nat := (coresOf s m).flatMap (fun c => c.deps.filter (fun x => x != m))

/-- Close a list of marks under a relation. -/
def closeMarks (next : Nat → List Nat) : Nat → List Nat → List Nat
  | 0, l => l
  | n + 1, l =>
    let l' := dedupNat (l ++ l.flatMap next)
    if l'.length == l.length then l else closeMarks next n l'

/-- A task and all it depends on. -/
def dependsOn (s : State) (m : Nat) : List Nat := closeMarks (depsOf s) 16384 [m]

/-! ### Launches, descriptors and graphs (R395 to R398) -/

/-- A launch record (R395). -/
structure LaunchRec where
  kind : Nat
  level : Nat
  fused : Bool
  tag : BitVec 32
  desc : Nat
  args : List Word
deriving DecidableEq, Repr

def launchOf (bs : List Byte) : LaunchRec :=
  { kind := recNat bs 0 1, level := recNat bs 1 1, fused := recNat bs 2 1 % 2 == 1, tag := BitVec.ofNat 32 (recNat bs 4 4)
    desc := recNat bs 8 8, args := (List.range 6).map (fun w => BitVec.ofNat 64 (recNat bs (16 + 8 * w) 8)) }

/-- The record breaks its layout. -/
def launchBad (bs : List Byte) : Bool :=
  let r := launchOf bs
  decide (2 < r.kind) || decide (7 < r.level) || decide (1 < recNat bs 2 1) || recNat bs 3 1 != 0 ||
    (if r.kind == 2 then r.desc != 0 else r.desc % 64 != 0)

/-- A task descriptor (R396). -/
structure TaskDesc where
  entry : Nat
  persistent : Bool
  named : Option Nat
  streams : List (Nat × Nat × BitVec 32)
  deps : Nat
  succs : List Nat
deriving DecidableEq, Repr

def streamOf (bs : List Byte) (k : Nat) : Nat × Nat × BitVec 32 :=
  (recNat bs (64 + 16 * k) 8, recNat bs (72 + 16 * k) 4, BitVec.ofNat 32 (recNat bs (76 + 16 * k) 4))

def descBad (bs : List Byte) : Bool :=
  let n := recNat bs 14 1
  recNat bs 0 8 % 4 != 0 || recNat bs 8 5 != 0 || decide (1 < recNat bs 13 1) || decide (8 < n) || decide (1 < recNat bs 15 1) ||
    (recNat bs 13 1 == 0 && recNat bs 16 2 != 0) || recNat bs 18 14 != 0 || decide (4095 < recNat bs 32 4) || decide (4095 < recNat bs 36 4) ||
    recNat bs 40 8 % 4 != 0 || (recNat bs 36 4 == 0 && recNat bs 40 8 != 0) || recNat bs 48 16 != 0 ||
    (List.range 8).any (fun k =>
      if k < n then (streamOf bs k).1 % 32 != 0 || (streamOf bs k).2.2.getLsbD 13 else recNat bs (64 + 16 * k) 16 != 0)

def descOf (bs : List Byte) (succs : List Nat) : TaskDesc :=
  { entry := recNat bs 0 8, persistent := recNat bs 15 1 == 1, named := if recNat bs 13 1 == 1 then some (recNat bs 16 2) else none
    streams := (List.range (recNat bs 14 1)).map (streamOf bs), deps := recNat bs 32 4, succs := succs }

/-- Take a task of count 0 out of a graph and release its successors, `n` times over. -/
def unwind (ds : List TaskDesc) : Nat → List (Nat × Nat) → List (Nat × Nat)
  | 0, l => l
  | n + 1, l =>
    match l.find? (fun p => p.2 == 0) with
    | none => l
    | some p =>
      let out := (ds.getD p.1 { entry := 0, persistent := false, named := none, streams := [], deps := 0, succs := [] }).succs
      unwind ds n ((l.filter (fun q => q.1 != p.1)).map (fun q => (q.1, q.2 - out.count q.1)))

/-- Successor indices, dependency counts, no cycle (R397). -/
def graphOk (ds : List TaskDesc) : Bool :=
  let succs := ds.flatMap TaskDesc.succs
  succs.all (fun k => decide (k < ds.length)) && ds.zipIdx.all (fun p => p.1.deps == succs.count p.2) &&
    (unwind ds ds.length (ds.zipIdx.map (fun p => (p.2, p.1.deps)))).isEmpty

/-- Read a descriptor with its successor list: none when it is malformed. -/
def readDesc (s : State) (g : Agent) (a : Nat) : State × Except FaultRec (Option TaskDesc) :=
  match agentRead s g a 192 with
  | (s, .error f) => (s, .error f)
  | (s, .ok (bs, _)) =>
    if descBad bs then (s, .ok none)
    else
      let n := recNat bs 36 4
      match agentRead s g (recNat bs 40 8) (4 * n) with
      | (s, .error f) => (s, .error f)
      | (s, .ok (l, _)) => (s, .ok (some (descOf bs ((List.range n).map (fun i => recNat l (4 * i) 4)))))

/-- Read descriptors; none when one of them is malformed. -/
def readDescs (s : State) (g : Agent) : List Nat → State × Except FaultRec (Option (List TaskDesc))
  | [] => (s, .ok (some []))
  | a :: as =>
    match readDesc s g a with
    | (s, .error f) => (s, .error f)
    | (s, .ok none) => (s, .ok none)
    | (s, .ok (some d)) =>
      match readDescs s g as with
      | (s, .error f) => (s, .error f)
      | (s, .ok none) => (s, .ok none)
      | (s, .ok (some ds)) => (s, .ok (some (d :: ds)))

/-- Scoreboard entries of a die. -/
def boardSize : Nat := 4096

/-- The lowest `n` free scoreboard entries. -/
def freeEntries (d : Die) (n : Nat) : List Nat := ((List.range boardSize).filter (fun k => (findKey d.tasks k).isNone)).take n

/-- Enter a launch and its tasks (R398). -/
def enterLaunch (s : State) (g : Agent) (source cap : Nat) (r : LaunchRec) (addrs : List Nat) (ds : List TaskDesc) : State :=
  let ctx := g.ctx
  modDie s g.die (fun x =>
    let id := x.nextLaunch
    let entry := fun (p : TaskDesc × Nat) =>
      ({ ctx := ctx, launch := id, index := p.2, single := r.kind == 0, desc := addrs.getD p.2 0, args := r.args, tag := r.tag, fused := r.fused
         base := Nat.min r.level cap, source := source, deps := p.1.deps, succs := p.1.succs, state := if p.1.deps == 0 then .ready else .waiting
         entry := p.1.entry, named := p.1.named, persistent := p.1.persistent, streams := p.1.streams, readySince := s.clk, release := g.release } : Task)
    let put := ((freeEntries x ds.length).zip (ds.zipIdx.map entry)).foldl (fun m q => setKey m q.1 q.2) x.tasks
    { x with
      tasks := put, nextLaunch := id + 1
      launches := x.launches ++ [{ id := id, ctx := ctx, source := source, tag := r.tag, single := r.kind == 0, marker := r.kind == 2
                                   left := ds.length, aborted := false }] })

/-- What becomes of a launch record: it waits for scoreboard entries, or ends with a status: 0 admitted, 1 malformed, 3 beyond
the scoreboard. -/
inductive Admission where
  | wait (s : State)
  | done (s : State) (status : Nat)

/-- The addresses of a launch's task descriptors; a status when there are none. -/
def launchDescs (s : State) (g : Agent) (r : LaunchRec) : State × Except FaultRec (Except Nat (List Nat)) :=
  if r.kind == 0 then (s, .ok (.ok [r.desc]))
  else
    match agentRead s g r.desc 64 with
    | (s, .error f) => (s, .error f)
    | (s, .ok (bs, _)) =>
      let n := recNat bs 4 4
      if recNat bs 0 4 != 0x47525048 || n == 0 || recNat bs 8 8 % 64 != 0 || recNat bs 16 48 != 0 then (s, .ok (.error 1))
      else if boardSize < n then (s, .ok (.error 3))
      else (s, .ok (.ok ((List.range n).map (fun i => recNat bs 8 8 + 192 * i))))

/-- Admit a launch record read as bytes (R395 to R398). A descriptor, graph or list that cannot be read is malformed. -/
def admitLaunch (s : State) (g : Agent) (source cap : Nat) (bs : List Byte) : Admission :=
  let r := launchOf bs
  if launchBad bs then .done s 1
  else if r.kind == 2 then .done (enterLaunch s g source cap r [] []) 0
  else
    match launchDescs s g r with
    | (s, .error _) => .done s 1
    | (s, .ok (.error n)) => .done s n
    | (s, .ok (.ok as)) =>
      match readDescs s g as with
      | (s, .error _) => .done s 1
      | (s, .ok none) => .done s 1
      | (s, .ok (some ds)) =>
        if !graphOk ds then .done s 1
        else if (freeEntries (dieAt s g.die) ds.length).length < ds.length then .wait s
        else .done (enterLaunch s g source cap r as ds) 0

/-- The sequencer as it reaches memory for a context: settled memory only (R394, R347). -/
def sequencer (d ctx : Nat) : Agent := { die := d, unit := fifoSpawn, ctx := ctx, settledOnly := true }

def setQueueEntry (s : State) (d n : Nat) (q : HwQueue) : State := modDie s d (fun x => { x with queues := setKey x.queues n q })

/-- Queue `n` has a record that may enter. -/
def queuePending (s : State) (d n : Nat) : Bool :=
  match findKey (dieAt s d).queues n with
  | some q => q.enable && q.head != q.lastTail
  | none => false

/-- Try the record at the head of queue `n` (R394, R395). -/
def admitHead (s : State) (d n : Nat) : Admission :=
  match findKey (dieAt s d).queues n with
  | none => .wait s
  | some q =>
    if !q.enable || q.head == q.lastTail then .wait s
    else
      let head := (q.head + 1) % 2 ^ 32
      let past := fun (s : State) => setQueueEntry s d n { q with head := head, doorbells := q.doorbells.filter (fun b => b.1 != head) }
      match agentRead s (sequencer d q.ctx) (q.ring + 64 * (q.head % q.entries)) 64 with
      | (s, .error _) => .done (past (postRefused s d q.ctx 5 0)) 5
      | (s, .ok (bs, _)) =>
        match admitLaunch s (sequencer d q.ctx) n 7 bs with
        | .wait s => .wait s
        | .done s 0 => .done (past s) 0
        | .done s k => .done (past (postRefused s d q.ctx k (launchOf bs).tag.toNat)) k

/-- clk of the doorbell that made the record at a queue's head ready. -/
def HwQueue.rung (q : HwQueue) : Nat :=
  match q.doorbells.find? (fun b => decide (0 < (b.1 + 2 ^ 32 - q.head) % 2 ^ 32) && decide ((b.1 + 2 ^ 32 - q.head) % 2 ^ 32 ≤ q.entries)) with
  | some b => b.2
  | none => 0

/-- Queue `n` lets another go first: a doorbell of this clk may still come, or a lower-numbered queue holds a launch rung in the same clk
as its own and its head can be admitted (R403). -/
def queueBefore (s : State) (d n : Nat) : Bool :=
  match findKey (dieAt s d).queues n with
  | none => false
  | some q => (!q.doorbells.isEmpty && decide (s.clk ≤ q.rung)) ||
      ((dieAt s d).queues.filter (fun p => decide (p.1 < n) && p.2.doorbells.any (fun b => b.2 == q.rung) && queuePending s d p.1)).any (fun p =>
        match admitHead s d p.1 with | .done _ _ => true | .wait _ => false)

/-- LAUNCH_ADMIT (R394, R395): the next record of queue `n`. -/
def execEvLaunchAdmit (s : State) : Host.Outcome State Fault Refusal :=
  let d := s.arg.die.toNat
  if queueBefore s d s.arg.n then .next s
  else
    match admitHead s d s.arg.n with
    | .wait s => .next s
    | .done s _ => .next s

/-- Result element of the spawn port (R408). -/
def spawnElem (tag status : Nat) : Word := BitVec.ofNat 64 (tag * 2 ^ 32 + status)

/-- SPAWN (R408): the oldest launch record at the spawn port is admitted or refused. -/
def execEvSpawn (s : State) : Host.Outcome State Fault Refusal :=
  let d := s.arg.die.toNat
  match nextCmd (fifoAt s d fifoSpawn) with
  | none => .next s
  | some c =>
    let bs := bytesOf (c.words.take 8)
    let tag := (launchOf bs).tag.toNat
    match admitLaunch s (c.agent d fifoSpawn) 4096 (wordAt c.words 8).toNat bs with
    | .wait s => .next s
    | .done s 0 => .next (answer s d fifoSpawn c (spawnElem tag 0) 0 none)
    | .done s k => .next (answer (postRefused s d c.ctx 4 tag) d fifoSpawn c (spawnElem tag k) 0 none)

/-- MARKER_COMPLETE (R395): every launch of its source admitted before it has completed. -/
def execEvMarkerComplete (s : State) : Host.Outcome State Fault Refusal :=
  let d := s.arg.die.toNat
  match (dieAt s d).launches.find? (fun l => l.id == s.arg.n && l.marker) with
  | none => .next s
  | some l =>
    if (dieAt s d).launches.any (fun m => m.source == l.source && decide (m.id < l.id)) then .next s
    else
      let s1 := modDie s d (fun x => { x with launches := x.launches.filter (fun m => m.id != l.id) })
      .next (postEvent s1 d l.ctx (eventWords 0 0xFFFF 0 l.tag.toNat s.clk 0) none)

/-! ### Placement (R399, R405, R406) -/

/-- Effective level of a ready task (R405, R407). -/
def levelOf (t : Task) : Nat := Nat.min 7 (t.base + t.aged)

/-- clk of a full millisecond. -/
def msClk : Nat := 700000

/-- A full millisecond of the task's wait has not been counted. -/
def agingDue (s : State) (t : Task) : Bool :=
  t.state == .ready && !t.persistent && decide (t.base + t.aged < 7) && decide (t.readySince + msClk * (t.aged + 1) ≤ s.clk)

/-- AGING (R405): each full millisecond that task `n` has been ready raises its level by one. -/
def execEvAging (s : State) : Host.Outcome State Fault Refusal :=
  let d := s.arg.die.toNat
  .next (modTask s d s.arg.n (fun t => if agingDue s t then { t with aged := t.aged + 1 } else t))

/-- Cores of a context's partition on a die, ascending. -/
def partition (s : State) (d ctx : Nat) : List Nat :=
  match contextOn (dieAt s d) ctx with
  | none => []
  | some c => ((List.range 64).filter (fun k => c.mask.getLsbD (k / 8))).map (fun k => 64 * d + k)

/-- A core that no task occupies and that no pre-emption has claimed. -/
def coreFree (s : State) (ctx c : Nat) : Bool :=
  (coreAt s c).task.isNone && (coreAt s c).ctx == some ctx &&
    match (dieAt s (dieOfCore c)).preempt with
    | some (_, _, m) => !m.getLsbD (c % 64 / 8)
    | none => true

/-- Tasks on the cores of a core's cluster. -/
def clusterTasks (s : State) (c : Nat) : List Task :=
  (List.range 8).filterMap (fun i => ((coreAt s (c / 8 * 8 + i)).task).bind (taskAt s (dieOfCore c)))

/-- The cluster's fusion admits the task: it is as the launch asks, or nothing occupies it and it may change (R399, R181). -/
def clusterAdmits (s : State) (t : Task) (c : Nat) : Bool :=
  let on := clusterTasks s c
  let fused := (dieAt s (dieOfCore c)).fused.contains (c % 64 / 8)
  if t.fused then on.all (fun u => u.launch == t.launch) && (fused || on.isEmpty) else !fused || on.isEmpty

/-- The core a ready task would be placed on now. -/
def coreFor (s : State) (d : Nat) (t : Task) : Option Nat :=
  let ok := fun c => coreFree s t.ctx c && clusterAdmits s t c
  match t.named with
  | some c => if (partition s d t.ctx).contains c && ok c then some c else none
  | none => (partition s d t.ctx).find? ok

/-- The named core of a task lies outside its partition. -/
def misplaced (s : State) (d : Nat) (t : Task) : Bool :=
  match t.named with | some c => !(partition s d t.ctx).contains c | none => false

/-- Places a source has in its turn. -/
def weightOfSource (s : State) (d source : Nat) : Nat := match findKey (dieAt s d).queues source with | some q => Nat.max 1 q.weight | none => 1

/-- The source whose turn it is among those that have a task to place, and the places left to it (R405). -/
def turnOf (s : State) (d ctx level : Nat) (sources : List Nat) : Nat × Nat :=
  let fresh := fun (x : Nat) => (x, weightOfSource s d x)
  match (dieAt s d).turns.find? (fun t => t.1 == ctx && t.2.1 == level) with
  | none => fresh (sources.headD 0)
  | some (_, _, src, left) =>
    if decide (0 < left) && sources.contains src then (src, left)
    else match sources.find? (fun x => decide (src < x)) with | some x => fresh x | none => fresh (sources.headD 0)

/-- The older of two ready tasks. -/
def olderTask (a b : Nat × Task) : Nat × Task :=
  if a.2.readySince < b.2.readySince then a
  else if b.2.readySince < a.2.readySince then b
  else if a.2.launch < b.2.launch then a
  else if b.2.launch < a.2.launch then b
  else if a.2.index ≤ b.2.index then a else b

/-- The task of context `ctx` that the sequencer places next, with its turn (R405). -/
def nextTask (s : State) (d ctx : Nat) : Option (Nat × Task × Nat × Nat) :=
  let can := (dieAt s d).tasks.filter (fun p => p.2.ctx == ctx && p.2.state == .ready && (coreFor s d p.2).isSome)
  let top := can.foldl (fun l p => Nat.max l (levelOf p.2)) 0
  let best := can.filter (fun p => levelOf p.2 == top)
  let (src, left) := turnOf s d ctx top (sortNat (dedupNat (best.map (fun p => p.2.source))))
  match best.filter (fun p => p.2.source == src) with
  | [] => none
  | p :: ps => let q := ps.foldl olderTask p; some (q.1, q.2, src, left)

/-- Write back the dirty lines of the L1s of a cluster and invalidate every line (R182). -/
def cleanCluster (s : State) (c : Nat) : State :=
  (List.range 8).foldl (fun s i =>
    let k := c / 8 * 8 + i
    modCoreAt ((coreAt s k).l1.foldl writeBack s) k (fun x => { x with l1 := [] })) s

/-- The cluster takes the form the task asks for: its L1s are cleaned before the first task of a fused launch, and when a fused one
is fused no more (R182). -/
def fuseFor (s : State) (t : Task) (c : Nat) : State :=
  let k := c % 64 / 8
  let d := dieAt s (dieOfCore c)
  if d.fused.contains k == t.fused && (!t.fused || look 0 d.fusedFor k == t.launch + 1) then s
  else modDie (cleanCluster s c) (dieOfCore c) (fun d => { d with
    fused := if t.fused then k :: d.fused.filter (fun x => x != k) else d.fused.filter (fun x => x != k)
    fusedFor := place 0 d.fusedFor k (if t.fused then t.launch + 1 else 0) })

/-- A stream of the task on the current core as a copy command numbered `id` (R396, R400). -/
def stagingCmd (s : State) (ctx id : Nat) (q : Nat × Nat × BitVec 32) (record : List Byte) : CopyCmd :=
  let ws := issueWords s
  { layout := wordsOf record, xform := q.2.2, near := q.2.1, rm := 0, id := id, tag := 0, push := 0, staging := true, ctx := ctx
    ovt := wordAt ws 0, level := false, bgm := ws.drop 2 }

/-- The streams of a task as copy commands of its core, up to one whose record cannot be read, which ends with that fault in its
turn; a poisoned record is consumed (R400, R432). -/
def stagingCmds (s : State) (ctx : Nat) : Nat → List (Nat × Nat × BitVec 32) → State × List CopyCmd
  | _, [] => (s, [])
  | id, q :: qs =>
    match coreRead s false 0 q.1 96 with
    | (s, .error f) => (s, [{ stagingCmd s ctx id q [] with broken := some f }])
    | (s, .ok (bs, mark)) =>
      let s := if mark then modCore s (fun c => { c with rollback := true }) else s
      let (s, l) := stagingCmds s ctx (id + 1) qs
      (s, stagingCmd s ctx id q bs :: l)

/-- TASK_PLACE (R399, R400): the next task of context `n` is placed; the core acquires and its streams are queued. A task
whose named core lies outside the partition faults. -/
def execEvTaskPlace (s : State) : Host.Outcome State Fault Refusal :=
  let d := s.arg.die.toNat
  let ctx := s.arg.n
  match (dieAt s d).tasks.find? (fun p => p.2.ctx == ctx && p.2.state == .ready && misplaced s d p.2) with
  | some (n, t) => .next (setTask s d n { t with state := .ending, fault := some ({ code := .placement }, t.entry) })
  | none =>
    match nextTask s d ctx with
    | none => .next s
    | some (n, t, src, left) =>
      match coreFor s d t with
      | none => .next s
      | some c =>
        let s := setTask s d n { t with state := .staging, core := some c, step := 0 }
        let s := modDie s d (fun x => { x with turns := (ctx, levelOf t, src, left - 1) :: x.turns.filter (fun y => !(y.1 == ctx && y.2.1 == levelOf t)) })
        let s := focus (fuseFor s t c) c
        let s := modCore s (fun x => { x with task := some n, running := false, rollback := false, rollbackPc := none, noRollback := false, deps := [] })
        let s := acquire (acquireElement s t.release) 3 (List.range 256)
        let (s, l) := stagingCmds s t.ctx s.core.nextId t.streams
        .next (modCore s (fun x => { x with copyQueue := x.copyQueue ++ l, nextId := x.nextId + l.length }))

/-! ### Start (R400) -/

/-- Nothing the core has queued or in flight is left. -/
def coreIdle (c : Core) : Bool :=
  c.copyQueue.isEmpty && c.copyRun.isNone && c.fillQueue.isEmpty && c.fillRun.isNone && c.wQueue.isEmpty && c.call.isNone &&
    c.leaseQueue.isEmpty && c.lrels.isEmpty && c.rowOps.isEmpty && c.orderWaits.isEmpty && c.landing.isEmpty

/-- The registers a task finds (R400). -/
def startRegs (t : Task) : List Word :=
  [0, BitVec.ofNat 64 t.desc] ++ (List.range 6).map (wordAt t.args) ++ [t.tag.setWidth 64, BitVec.ofNat 64 t.index]

def regFile (ws : List Word) : File Word := { cur := placeAll 0 [] 0 ws, old := [], poison := [] }

/-- PARTM of a context's cores (R393). -/
def partm (mask : BitVec 8) (d : Nat) : Word := BitVec.ofNat 64 (mask.toNat + 256 * d)

/-- The core at the first instruction of a task. -/
def startCore (c : Core) (t : Task) (num d : Nat) (mask : BitVec 8) : Core :=
  let fresh := fun (x : Engine) => { freshEngine t.entry (c.ck + 1) x.seq with owed := x.owed }
  let regs : List (Nat × Word) :=
    [(sysSLIPW, 0), (sysPRIV, 0), (sysTASKID, BitVec.ofNat 64 (t.index + t.tag.toNat * 2 ^ 32)), (sysCTXN, BitVec.ofNat 64 t.ctx),
     (sysPCORE, BitVec.ofNat 64 num), (sysPARTM, partm mask d)]
  { regs.foldl (fun c p => setSysNow c p.1 p.2) { c with sys := { c.sys with old := [] } } with
    engC := fresh c.engC, engA := fresh c.engA, engV := fresh c.engV, engW := fresh c.engW
    g := regFile (startRegs t), cells := { c.cells with old := [] }, near := { c.near with old := [] }
    tokens := [], outcomes := [], landing := [], leaving := none, haltAt := none, holder := 0, switched := false, slipOld := none, probeLag := 0, trapFrame := none
    prcfgWait := none, walkFail := [], running := true }

/-- TASK_START (R400): every stream of the task on the core is resident. -/
def execEvTaskStart (s : State) : Host.Outcome State Fault Refusal :=
  let s := focus s s.arg.core.toNat
  let d := dieOfCore s.cur
  match s.core.task with
  | none => .next s
  | some n =>
    match taskAt s d n with
    | none => .next s
    | some t =>
      if t.state != .staging || t.fault.isSome || s.core.rollback || !coreIdle s.core || !(pushedCopies s).isEmpty then .next s
      else
        let mask := match contextOn (dieAt s d) t.ctx with | some c => c.mask | none => 0
        .next (setTask (modCore s (fun c => startCore c t s.cur d mask)) d n { t with state := .running })

/-! ### Completion (R401, R357, R358) -/

/-- Commands of a task that shared engines have queued or are running. -/
def commandsOf (s : State) (m : Nat) : Bool :=
  s.dies.any (fun d =>
    d.2.fifos.any (fun f => decide (f.1 < fifoMail) && f.2.cmds.any (fun c => c.task == some m)) ||
      d.2.sampling.any (fun c => c.task == some m) || d.2.collectives.any (fun k => k.cmd.task == some m))

/-- Every command has completed, every access has returned, every engine has stopped (R401, step 1). -/
def drained (s : State) (m : Nat) : Bool :=
  coreIdle s.core && (pushedCopies s).isEmpty && allEngs.all (fun e => (s.core.eng e).halted) && !commandsOf s m

/-- Leaves granted to core `c` and its waiting requests go back (R288, R401). -/
def dropLeaves (s : State) (c : Nat) : State :=
  { s with leaves := s.leaves.filter (fun p => p.1 != c), leaveQueue := s.leaveQueue.filter (fun p => p.1 != c) }

/-- Steps 2 and 3: the lease session is closed, and the log is published as REL.pkg does. -/
def closeTask (s : State) : State :=
  publish (modCore (dropLeaves s s.cur) (fun c => { c with leaseOpen := false })) 3

/-- The task has finished steps 1 to 3. -/
def closedTask (s : State) (m : Nat) : Bool :=
  match taskAt s (m / 4096) (m % 4096) with
  | some t => t.state == .ending && t.fault.isNone && decide (3 ≤ t.step)
  | none => false

/-- Step 4 for every task of a cycle at once (R358). -/
def completeAll (s : State) (ms : List Nat) : State :=
  ms.foldl (fun s m => modTask (modAll s (endDeps m)) (m / 4096) (m % 4096) (fun t => if t.step == 3 then { t with step := 4 } else t)) s

/-- The tasks that complete with `m`: those of its cycle. -/
def cycleOf (s : State) (m : Nat) : List Nat := (dependsOn s m).filter (fun x => x == m || (dependsOn s x).contains m)

/-- A record that the task has published is unsettled, in its core's log or where it ran before a pre-emption (R360, R401). -/
def taskUnsettled (s : State) (m : Nat) : Bool := (List.range 256).any (fun c => (coreAt s c).log.any (fun r => r.owner == some m && !r.settled))

/-- TASK_COMPLETE (R401): the next step of the ending task on a core. -/
def execEvTaskComplete (s : State) : Host.Outcome State Fault Refusal :=
  let s := focus s s.arg.core.toNat
  let d := dieOfCore s.cur
  match s.core.task with
  | none => .next s
  | some n =>
    match taskAt s d n with
    | none => .next s
    | some t =>
      let m := markOf d n
      if t.state != .ending || t.fault.isSome || s.core.rollback then .next s
      else if t.step < 3 then
        if drained s m then .next (setTask (closeTask s) d n { t with step := 3 }) else .next s
      else if t.step == 3 then
        if (dependsOn s m).all (closedTask s) then .next (completeAll s (cycleOf s m)) else .next s
      else if t.step == 4 then
        if taskUnsettled s m then .next s
        else
          .next (postEvent (setTask s d n { t with step := 6 }) d t.ctx (eventWords 0 s.cur (if t.single then 0 else t.index) t.tag.toNat s.clk 0)
            (some n))
      else .next s

/-! ### The end of a task and of its launch (R402) -/

/-- A core is no longer occupied by entry `n` (R399). -/
def freeCore (s : State) (n : Nat) (t : Task) : State :=
  match t.core with
  | none => s
  | some c => if (coreAt s c).task == some n then
      modCoreAt s c (fun x => { setSysNow x sysPRIV 0 with task := none, running := false, haltAt := none, trapFrame := none }) else s

/-- After the last task of launch `id`, the clusters fused for it are cleaned and, where no task occupies them, unfused (R182). -/
def unfuseIdle (s : State) (d id : Nat) : State :=
  ((dieAt s d).fused.filter (fun k => look 0 (dieAt s d).fusedFor k == id + 1)).foldl (fun s k =>
    modDie (cleanCluster s (64 * d + 8 * k)) d (fun x =>
      if (clusterTasks s (64 * d + 8 * k)).isEmpty then { x with fused := x.fused.filter (fun y => y != k), fusedFor := place 0 x.fusedFor k 0 } else x)) s

/-- The launch has `k` tasks less; when none is left it ends, a graph with its event. -/
def launchLess (s : State) (d id k : Nat) : State :=
  match (dieAt s d).launches.find? (fun l => l.id == id) with
  | none => s
  | some l =>
    if k < l.left then modDie s d (fun x => { x with launches := x.launches.map (fun y => if y.id == id then { y with left := y.left - k } else y) })
    else
      let s1 := modDie s d (fun x => { x with launches := x.launches.filter (fun y => y.id != id) })
      let s1 := unfuseIdle s1 d id
      if l.single then s1 else postEvent s1 d l.ctx (eventWords (if l.aborted then 4 else 3) 0xFFFF 0 l.tag.toNat s.clk 0) none

/-- One successor of a launch has one dependence less (R401, step 7). -/
def releaseOne (s : State) (d id k : Nat) : State :=
  modDie s d (fun x => { x with tasks := x.tasks.map (fun p =>
    if p.2.launch == id && p.2.index == k && p.2.state == .waiting then
      (p.1, { p.2 with deps := p.2.deps - 1, state := if p.2.deps ≤ 1 then .ready else .waiting, readySince := s.clk })
    else p) })

/-- The event of entry `n` counts as posted: the core and the entry are freed, successors released (R398, R401, R402). -/
def taskPosted (s : State) (d n : Nat) : State :=
  match taskAt s d n with
  | none => s
  | some t =>
    let s := modDie (freeCore s n t) d (fun x => { x with tasks := eraseKey x.tasks n })
    let s := if t.fault.isSome then s else t.succs.foldl (fun s k => releaseOne s d t.launch k) s
    launchLess s d t.launch 1

/-- What stays of a faulted task's published records: the manual says when a completed task's cease to be provisional, and
not when a faulted one's do (log entry 12). -/
def faultedMark (s : State) (m : Nat) : State :=
  let drop := fun (c : Cmd) => if c.task == some m then { c with task := none } else c
  let s := { s with dies := s.dies.map (fun d => (d.1, { d.2 with fifos := d.2.fifos.map (fun f => (f.1, { f.2 with cmds := f.2.cmds.map drop })) })) }
  let s := modAll s (if Config.undecided s.tick (800000 + m) % 2 == 0 then endDeps m else keepMark m (2 ^ 32 + s.tick))
  modAll s (disown m)

/-- Payload of a kind 1 event (R404). -/
def faultPayload (f : FaultRec) (pc : Nat) : Word := BitVec.ofNat 64 (f.code.num + f.cause % 65536 * 2 ^ 16 + pc % 2 ^ 32 * 2 ^ 32)

/-- TASK_FAULT (R402): entry `n` has faulted; its event is queued and its graph aborted. -/
def execEvTaskFault (s : State) : Host.Outcome State Fault Refusal :=
  let d := s.arg.die.toNat
  let n := s.arg.n
  match taskAt s d n with
  | none => .next s
  | some t =>
    match t.fault with
    | none => .next s
    | some (f, pc) =>
      if 6 ≤ t.step then .next s
      else
        let s := setTask s d n { t with state := .ending, step := 6 }
        let s := match t.core with
          | some c => modCoreAt s c (fun x => { x with running := false, rollback := false, rollbackPc := none, trapFrame := none })
          | none => s
        let s := faultedMark s (markOf d n)
        let s := postEvent s d t.ctx (eventWords 1 (t.core.getD 0xFFFF) (if t.single then 0 else t.index) t.tag.toNat s.clk (faultPayload f pc)) (some n)
        let s := modDie s d (fun x => { x with launches := x.launches.map (fun l => if l.id == t.launch then { l with aborted := true } else l) })
        let gone := (dieAt s d).tasks.filter (fun p => p.2.launch == t.launch && (p.2.state == .waiting || p.2.state == .ready))
        let s := modDie s d (fun x => { x with tasks := x.tasks.filter (fun p => !(gone.any (fun q => q.1 == p.1))) })
        .next (if gone.isEmpty then s else launchLess s d t.launch gone.length)

/-! ### Posting (R404, R442) -/

/-- A ring header (R404). -/
structure Ring where
  array : Nat
  entries : Nat
  tail : Nat
  head : Nat
  vector : Nat
deriving DecidableEq, Repr

def ringOf (bs : List Byte) : Ring :=
  { array := recNat bs 0 8, entries := recNat bs 8 4, tail := recNat bs 12 4, head := recNat bs 16 4, vector := recNat bs 20 4 }

def Ring.usable (r : Ring) : Bool := (List.range 17).any (fun k => r.entries == 2 ^ k)
def Ring.full (r : Ring) : Bool := (r.tail + 2 ^ 32 - r.head) % 2 ^ 32 == r.entries
def Ring.slot (r : Ring) : Nat := r.array + 32 * (r.tail % r.entries)

/-- Take posting `p` off its die's list; its task's end goes on. -/
def posted (s : State) (d : Nat) (p : Posting) : State :=
  let s := modDie s d (fun x => { x with postings := x.postings.erase p })
  match p.task with
  | some n => taskPosted s d n
  | none => s

/-- Write a record and the ring's new tail for a context, then raise the vector; false when memory refuses. -/
def writeRecord (s : State) (d ctx header : Nat) (r : Ring) (words : List Word) : State × Bool :=
  let g := sequencer d ctx
  match agentCheck s g (header + 12) 4 { r := true, w := true } with
  | (s, some _) => (s, false)
  | (s, none) =>
    match agentWrite s g r.slot (bytesOf words) with
    | (s, .error _) => (s, false)
    | (s, .ok _) =>
      match agentWrite s g (header + 12) (leBytes 4 ((r.tail + 1) % 2 ^ 32)) with
      | (s, .error _) => (s, false)
      | (s, .ok _) => ({ s with msi := s.msi ++ [(d, r.vector)] }, true)

/-- Post an event record of a context (R404). -/
def postOne (s : State) (d : Nat) (p : Posting) : State :=
  let lost := fun (s : State) => posted (postMgmt s d 8 0 [BitVec.ofNat 64 p.ctx, 0]) d p
  match contextOn (dieAt s d) p.ctx with
  | none => posted s d p
  | some c =>
    match agentRead s (sequencer d p.ctx) c.ring 64 with
    | (s, .error _) => lost s
    | (s, .ok (bs, _)) =>
      let r := ringOf bs
      if !r.usable then lost s
      else if r.full then
        match p.task with
        | none => s
        | some n => match taskAt s d n with | some t => freeCore s n t | none => s
      else
        match writeRecord s d p.ctx c.ring r p.words with
        | (s, true) => posted s d p
        | (s, false) => lost s

/-- A later posting of a context begins to wait where it finds the ring full: its core is no longer occupied (R399, R404). -/
def beginWait (s : State) (d : Nat) (p : Posting) : State :=
  match contextOn (dieAt s d) p.ctx with
  | none => s
  | some c =>
    match agentRead s (sequencer d p.ctx) c.ring 64 with
    | (s, .error _) => s
    | (s, .ok (bs, _)) =>
      if (ringOf bs).usable && (ringOf bs).full then
        match p.task.bind (taskAt s d) with | some t => freeCore s (p.task.getD 0) t | none => s
      else s

/-- Physical bytes that exist in class C or S memory: rows are stretches of 64 MiB there, and each that the range touches exists
(R101, R102). -/
def physBacked (a n : Nat) : Bool :=
  decide (a + n ≤ 2 ^ 52) && decide (classOf a < 2) && decide (classOf (a + n - 1) < 2) &&
    (List.range ((a + n - 1) / 2 ^ 26 - a / 2 ^ 26 + 1)).all (fun i => backed ((a / 2 ^ 26 + i) * 2 ^ 26))

def memBytes (s : State) (a n : Nat) : List Byte := (List.range n).map (fun i => memByte s (a + i))

/-- A write of firmware or of the host path to physical memory, settled as a home slice's own (R346). -/
def physWrite (s : State) (a : Nat) (bs : List Byte) : State :=
  (groupBy 128 (wholeBytes a bs)).foldl (fun s q => (engineWrite s 0 0 q.2).1) s

/-- Post the oldest management record (R442): lost on an unusable or full ring, but that a FATAL record waits for room. -/
def postMgmtOne (s : State) (d : Nat) (p : Posting) : State :=
  let off := fun (s : State) => modDie s d (fun x => { x with mgmtPostings := x.mgmtPostings.erase p })
  let lost := off (modDie s d (fun x => { x with mevl := x.mevl + 1 }))
  let h := (dieAt s d).mevr.toNat
  let r := ringOf (memBytes s h 64)
  if h == 0 || h % 64 != 0 || !physBacked h 64 || !r.usable then lost
  else if r.full then (if bits (wordAt p.words 0) 7 0 == 4 then s else lost)
  else if !physBacked r.slot 32 then lost
  else
    let s1 := physWrite (physWrite s r.slot (bytesOf p.words)) (h + 12) (leBytes 4 ((r.tail + 1) % 2 ^ 32))
    off { s1 with msi := s1.msi ++ [(d, r.vector)] }

/-- EVENT_POST (R404, R442): posting `n` of a die, the oldest of its context, or a later one that may begin to wait; past the last, the
oldest management record. -/
def execEvEventPost (s : State) : Host.Outcome State Fault Refusal :=
  let d := s.arg.die.toNat
  let l := (dieAt s d).postings
  match l[s.arg.n]? with
  | some p => if (l.take s.arg.n).any (fun q => q.ctx == p.ctx) then .next (beginWait s d p) else .next (postOne s d p)
  | none => match (dieAt s d).mgmtPostings with | [] => .next s | p :: _ => .next (postMgmtOne s d p)

end Sys2Proof.Machine
end

