-- ==== Sys2Proof/Machine/Preempt.lean ====
section
/-!
DEFINITION. Pre-emption of a partition (R427 to R430), rollback after an uncorrectable error (R431 to R433), fatal errors and
the dump (R434, R435).
-/
namespace Sys2Proof.Machine

/-! ### Rollback (R358, R432) -/

/-- A core with everything of its task taken away, what it holds of the records of `ms` included. -/
def strippedCore (c : Core) : Core :=
  { setSysNow c sysPRIV 0 with
    task := none, running := false, rollback := false, rollbackPc := none, haltAsked := false, parked := false, haltAt := none, landing := [], tokens := []
    outcomes := [], leaving := none, trapFrame := none, copyQueue := [], copyRun := none, nearOld := [], fillQueue := [], fillRun := none
    probeTags := c.probeTags.filter (fun t => !t.pending), prcfgWait := none, wQueue := [], call := none, leaseQueue := [], lrels := []
    leaseOwed := [], leaseOpen := false, rowOps := [], orderWaits := [], deps := []
    engC := { c.engC with owed := [] }, engA := { c.engA with owed := [] }, engV := { c.engV with owed := [] }, engW := { c.engW with owed := [] }
    pushedOut := [], codeRequests := [], bufferRequests := [], slipOld := none, spillStall := false, engMarks := [], badCmds := []
    log := c.log.filter (fun r => r.time.isSome || some r.ctx != c.ctx) }

/-- Provisional records of the tasks `ms` are gone, from logs and from replay sets (R358). -/
def discardRecords (ms : List Nat) (c : Core) : Core :=
  let keep := fun (r : LogRec) => match r.prov with | some m => !ms.contains m | none => true
  { c with log := c.log.filter keep, replay := c.replay.filter (fun p => keep p.2) }

/-- Tasks that can be rolled back and depend on the task with mark `m` at once. -/
def dependents (s : State) (m : Nat) : List Nat :=
  let hit := fun (c : Core) => c.task.isSome && !c.noRollback && c.deps.contains m
  ((List.range 256).filter (fun n => hit (coreAt s n))).map (fun n => markOf (n / 64) ((coreAt s n).task.getD 0)) ++
    ((s.images.filter (fun i => hit i.image)).map (fun i => markOf (i.core / 64) (i.image.task.getD 0)))

/-- A command that its engine has begun and that acts beyond the task, on memory's frames: it goes on. -/
def goesOn (d : Die) (k : Nat) (q : Cmd) : Bool := k == fifoMigration && d.migrations.any (fun m => !m.answered) && (nextCmd (look {} d.fifos k)) == some q

/-- The commands of the task with mark `m` go from a die's engines, queued and started (R432); what it has put into mailboxes and
spawned stays. -/
def discardCommands (m : Nat) (d : Die) : Die :=
  { d with
    fifos := d.fifos.map (fun p =>
      if p.1 < fifoMail && p.1 != fifoSpawn then (p.1, { p.2 with cmds := p.2.cmds.filter (fun q => q.task != some m) }) else p)
    run := d.run.filter (fun r => r.cmd.task != some m)
    commits := d.commits.filter (fun r => r.cmd.task != some m)
    collectives := d.collectives.filter (fun k => k.cmd.task != some m)
    rings := d.rings.map (fun p => (p.1, p.2.map (fun r => if r.task == some m then { r with kicks := [], tail := none } else r))) }

/-- Strip the core or image that holds the task with mark `m`; its leaves and its commands at the engines go too (R432). -/
def stripTask (s : State) (m : Nat) : State :=
  let s := { s with dies := s.dies.map (fun p => (p.1, discardCommands m p.2)) }
  let s := (List.range 64).foldl (fun s i =>
    let c := m / 4096 * 64 + i
    if (coreAt s c).task == some (m % 4096) then dropLeaves (modCoreAt s c strippedCore) c else s) s
  { s with images := s.images.map (fun i => if imageOf m i then { i with image := strippedCore i.image, classes := [] } else i) }

/-- The task returns to ready (R398). -/
def readyAgain (now : Nat) (t : Task) : Task := { t with state := .ready, core := none, step := 0, readySince := now, aged := 0 }

/-- Take back the task with mark `m` on core `c`, which stopped at `pc`, and what depends on it; a fourth time the task
faults instead (R432). -/
def rollBack (s : State) (m c : Nat) (pc : Option Nat) : State :=
  let ms := closeMarks (dependents s) 16384 [m]
  let s := modAll (ms.foldl stripTask s) (discardRecords ms)
  let s := ms.foldl (fun s x => modTask s (x / 4096) (x % 4096) (readyAgain s.clk)) s
  let s := modTask s (m / 4096) (m % 4096) (fun t => { t with rollbacks := t.rollbacks + 1 })
  match taskAt s (m / 4096) (m % 4096) with
  | none => s
  | some t =>
    if t.rollbacks < 4 then s
    else
      let at' := pc.getD (Config.undecided s.tick 910000 % 2 ^ 48)
      let s := setTask s (m / 4096) (m % 4096) { t with state := .ending, core := some c, fault := some ({ code := .poison, cause := 1 }, at') }
      modCoreAt s c (fun x => { x with task := some (m % 4096) })

/-- POISON_ROLLBACK (R432): the task of a core, or one put aside from it, has consumed poison. -/
def execEvPoisonRollback (s : State) : Host.Outcome State Fault Refusal :=
  let c := s.arg.core.toNat
  let go := fun (x : Core) => match x.task with
    | some n => if x.rollback && (match taskAt s (c / 64) n with | some t => t.fault.isNone && decide (t.step < 4) | none => false)
        then .next (rollBack s (markOf (c / 64) n) c x.rollbackPc) else .next s
    | none => Host.Outcome.next s
  if (coreAt s c).rollback then go (coreAt s c)
  else match s.images.find? (fun i => i.core == c && i.image.rollback) with | some i => go i.image | none => .next s

/-! ### Pre-emption (R427 to R430) -/

def markGranule (s : State) (g : Nat) : State := setMark s g true

/-- Cores of the masked clusters of a die, ascending. -/
def maskedCores (d : Nat) (mask : BitVec 8) : List Nat :=
  ((List.range 64).filter (fun k => mask.getLsbD (k / 8))).map (fun k => 64 * d + k)

/-- The outgoing and the incoming save area of core `c` in the save table (R441). -/
def saveAreas (s : State) (table d : Nat) (mask : BitVec 8) (c : Nat) : Nat × Nat :=
  let k := ((maskedCores d mask).filter (fun x => decide (x < c))).length
  let bs := memBytes s (table + 16 * k) 16
  (recNat bs 0 8, recNat bs 8 8)

/-- A save area: 3 MiB, 64 KiB-aligned, in class C or S (R427). -/
def areaSize : Nat := 3145728
def areaOk (a : Nat) : Bool := a % 65536 == 0 && physBacked a areaSize

/-- PREEMPT (R441, R427): the command is checked and the pre-emption of its cores begins. -/
def execEvPreempt (s : State) : Host.Outcome State Fault Refusal :=
  let d := s.arg.die.toNat
  let x := dieAt s d
  let w := wordAt x.mcbCopy 0
  let mask := BitVec.ofNat 8 (bits w 7 0)
  let inc := bits w 27 16
  let table := (wordAt x.mcbCopy 1).toNat
  if !x.busy || x.mcbCode != 5 || x.preempt.isSome then .next s
  else
    let outgoing := x.contexts.filter (fun c => c.mask &&& mask != 0)
    let areas := (maskedCores d mask).map (saveAreas s table d mask)
    let bad := bits w 15 8 != 0 || bits w 63 28 != 0 || mask == 0 || !physBacked table (16 * areas.length) ||
      areas.any (fun a => !areaOk a.1 || (a.2 != 0 && !areaOk a.2)) || outgoing.length != 1 ||
      outgoing.any (fun c => c.mask &&& mask != mask || c.num == inc)
    match contextOn x inc with
    | none => .next (commandDone s d 1)
    | some c =>
      if bad then .next (commandDone s d 1)
      else if c.mask != 0 then .next (commandDone s d 2)
      else .next (modDie s d (fun x => { x with preempt := some (inc, table, mask) }))

/-- The pre-emption that names core `c`: the incoming context, with the core's save areas. -/
def preemptOf (s : State) (c : Nat) : Option (Nat × Nat × Nat × BitVec 8) :=
  match (dieAt s (dieOfCore c)).preempt with
  | none => none
  | some (inc, table, mask) =>
    if mask.getLsbD (c % 64 / 8) && (coreAt s c).ctx != some inc then
      let (o, i) := saveAreas s table (dieOfCore c) mask c
      some (inc, o, i, mask)
    else none

/-- Bytes of a drained image's register part, in the device's own form. -/
def registerBytes (i : SavedImage) : List Byte := (List.range (2 ^ 20)).map (Config.imageByte i.serial)

/-- The drained image whose register part stands in the save area at `area`, where the host may have copied it (R427). One whose
bytes are those of no image is taken as a context that has never run: DESIGN CHOICE, log entry 36. -/
def imageAt (s : State) (ctx area : Nat) : Option SavedImage :=
  if area == 0 then none
  else s.images.find? (fun i => i.ctx == ctx && i.drained && memBytes s (area + 2 ^ 21) (2 ^ 20) == registerBytes i)

/-- IMAGE_LOAD (R427, step 1): the incoming scratchpad plane is read into the attic with its marks, once the outgoing image before it
has drained. -/
def execEvImageLoad (s : State) : Host.Outcome State Fault Refusal :=
  let s := focus s s.arg.core.toNat
  match preemptOf s s.cur with
  | none => .next s
  | some (_, _, a, _) =>
    let undrained := s.images.any (fun i => !i.drained && (i.core == s.cur || i.area == a))
    if s.core.loaded || undrained then .next s
    else
      let plane := (s.mem.filter (fun p => decide (a ≤ p.1) && decide (p.1 < a + 2 ^ 21))).map (fun (p : Nat × Byte) => (p.1 - a, p.2))
      let marks := (s.memPoison.filter (fun p => decide (a / 32 ≤ p.1) && decide (p.1 < a / 32 + 65536))).flatMap (fun p =>
        (List.range 32).map (fun i => (32 * p.1 - a + i, true)))
      .next (modCore s (fun c => if a == 0 then { c with loaded := true, attic := [], atticPoison := [] }
        else { c with loaded := true, attic := plane, atticPoison := marks }))

/-- The system registers of a context that has never run on the core (R176, R392, R393, R410). -/
def freshRegs (x : Context) (num d : Nat) (mask : BitVec 8) : Sparse Word :=
  let spt := (List.range 64).foldl (fun m n => place 0 m (sysSPT + n) (BitVec.ofNat 64 (2 ^ 63 + n))) []
  let regs : List (Nat × Word) :=
    [(sysPTB, x.ptb), (sysTVEC, x.tvec), (sysCTXN, BitVec.ofNat 64 x.num), (sysPCORE, BitVec.ofNat 64 num), (sysPARTM, partm mask d)]
  regs.foldl (fun m p => place 0 m p.1 p.2) spt

/-- What stays in a core when its context changes: its clk, log, TLB and port (R428, R360); `attic` is what becomes its attic. -/
def onCore (old new : Core) (attic : File Byte) : Core :=
  { new with
    ck := old.ck, frozen := old.frozen, starved := false, lagging := false, log := old.log, tlb := old.tlb, l1 := []
    attic := attic.cur, atticPoison := attic.poison, gTurn := [], mstPlaces := (0, []), slipOld := none, spillStall := false
    portFree := old.portFree, nextId := Nat.max old.nextId new.nextId, loaded := false, codeBuffer := [], codeRequests := [], bufferRequests := []
    walkFail := [], holder := 0, switched := false, haltAsked := false, parked := false, parkedAt := 0
    arrived := some (old.ck + 4, new.engC.seq + new.engA.seq + new.engV.seq + new.engW.seq) }

/-- A core as a newly created context finds it: everything zero (R436, R97, R207, R212, R250). -/
def newCore (old : Core) (x : Context) (num d : Nat) (mask : BitVec 8) (attic : File Byte) : Core :=
  onCore old { ctx := some x.num, sys := { cur := freshRegs x num d mask, old := [], poison := [] } } attic

/-- The image a core leaves behind: nothing of what stays in the core (R428, R390). -/
def leaveImage (c : Core) : Core :=
  let undecode := fun (x : Engine) => { x with decoded := [] }
  { modEngs c undecode with
    log := [], tlb := [], l1 := [], attic := [], atticPoison := [], codeBuffer := [], codeRequests := [], bufferRequests := []
    walkFail := [], prcfgWait := none, loaded := false, portFree := 0, gTurn := [], slipOld := none, spillStall := false, switched := false }

/-- A saved context on a core: what was left of landing delays and gaps counts from its first issue clk (R384), and the plane that
came with it is live again. -/
def resumedCore (old : Core) (i : SavedImage) (num d : Nat) (mask : BitVec 8) (attic : File Byte) : Core :=
  let r := old.ck + 4
  let left := fun (t : Nat) => r + (t - i.image.parkedAt)
  let wake := fun (x : Engine) => { x with nextIssue := left x.nextIssue, dividerFree := 0 }
  let c := onCore old (modEngs i.image wake) attic
  let c := setSysNow (setSysNow c sysPCORE (BitVec.ofNat 64 num)) sysPARTM (partm mask d)
  { c with
    near := { c.near with cur := old.attic, poison := old.atticPoison }
    landing := c.landing.map (fun l => { l with due := l.due.map left })
    running := i.image.parked }

/-- The core's engines and commands have come to rest (R428): issued instructions are complete, no fill and no run of the array is under way. -/
def atRest (s : State) : Bool :=
  let c := s.core
  let a : Array := look {} (dieAt s (dieOfCore s.cur)).arrays (s.cur % 64 / 8)
  c.landing.all (fun l => l.keptBack c) && c.fillRun.isNone && c.rowOps.isEmpty && c.orderWaits.isEmpty &&
    a.holder != some (s.cur % 8)

/-- Dirty lines of P pages are written back and every line invalidated (R428); class N stores on their way have reached their
lenders. -/
def cleanL1 (s : State) : State :=
  let s := landFlying s (fun _ => true)
  if (dieAt s (dieOfCore s.cur)).fused.contains (s.cur % 64 / 8) then cleanCluster s s.cur
  else modCore (s.core.l1.foldl writeBack s) (fun c => { c with l1 := [] })

/-- For a fused cluster, one more than the launch it is fused for; 0 for an unfused one. -/
def fusedNumber (x : Die) (k : Nat) : Nat := if x.fused.contains k then Nat.max 1 (look 0 x.fusedFor k) else 0

/-- The commands at the core's copy FIFO go out with the context, or come back with it (R151). -/
def pushedGo (s : State) (ctx : Nat) : State :=
  let k := fifoCopy + s.cur % 64
  let f := fifoAt s (dieOfCore s.cur) k
  modCore (setFifo s (dieOfCore s.cur) k { f with cmds := f.cmds.filter (fun q => q.ctx != ctx) })
    (fun c => { c with pushedOut := f.cmds.filter (fun q => q.ctx == ctx) })

def pushedBack (s : State) : State :=
  let k := fifoCopy + s.cur % 64
  let f := fifoAt s (dieOfCore s.cur) k
  modCore (setFifo s (dieOfCore s.cur) k { f with cmds := s.core.pushedOut ++ f.cmds }) (fun c => { c with pushedOut := [] })

/-- Put the outgoing context aside (R428, R360, R304). -/
def putAside (s : State) (area : Nat) : State :=
  match s.core.ctx with
  | none => cleanL1 s
  | some o =>
    let s := pushedGo (cleanL1 (publish s 4)) o
    let sessions := s.core.lrels.length + (if s.core.leaseOpen then 1 else 0)
    let classes := (((leavesOf s s.cur) ++ s.leaveQueue.filter (fun p => p.1 == s.cur)).map Prod.snd).take sessions
    let x := dieAt s (dieOfCore s.cur)
    let k := s.cur % 64 / 8
    let form := match findKey x.formOut k with | some f => f - 1 | none => fusedNumber x k
    let i : SavedImage := { ctx := o, core := s.cur, area := area, image := leaveImage s.core, drained := false, serial := s.tick
                            fused := form, classes := classes }
    { dropLeaves s s.cur with images := i :: s.images }

/-- The cluster's L1s take the form the incoming images know: fused for the launch `f - 1`, or unfused where `f` is 0 (R182). The first
core of the cluster that exchanges brings the form, and notes the one that the outgoing images are saved with. -/
def fuseAs (s : State) (f : Nat) : State :=
  let k := s.cur % 64 / 8
  let d := dieOfCore s.cur
  if hasKey (dieAt s d).formOut k then s
  else
    let was := fusedNumber (dieAt s d) k
    let s := modDie s d (fun x => { x with formOut := place 0 x.formOut k (was + 1) })
    if was == f then s
    else modDie (cleanCluster s s.cur) d (fun x => { x with
      fused := if f == 0 then x.fused.filter (fun y => y != k) else dedupNat (k :: x.fused), fusedFor := place 0 x.fusedFor k f })

/-- The form that the incoming images of the current core's cluster know. -/
def formIn (s : State) (inc table : Nat) (mask : BitVec 8) : Nat :=
  ((List.range 8).map (fun i => s.cur / 8 * 8 + i)).foldl (fun f c =>
    match imageAt s inc (saveAreas s table (dieOfCore c) mask c).2 with | some i => Nat.max f i.fused | none => f) 0

/-- Bring the incoming context onto the core, its cluster's L1s in form `f` (R427, step 3; R360). -/
def bringIn (s : State) (inc area f : Nat) (mask : BitVec 8) : State :=
  let d := dieOfCore s.cur
  let out := s.core.near
  match contextOn (dieAt s d) inc with
  | none => s
  | some x =>
    match imageAt s inc area with
    | none => fuseAs (modCore s (fun c => newCore c x s.cur d mask out)) f
    | some i =>
      let s := { s with images := s.images.erase i }
      let s := pushedBack (fuseAs (modCore s (fun c => resumedCore c i s.cur d mask out)) f)
      let s := (List.range 256).foldl (fun s w => replayFrom s w (2 ^ 64)) s
      let s := modCore s (fun c => { c with deps := c.deps.filter (fun m => some m != taskMark s) })
      let s := { s with leaveQueue := s.leaveQueue ++ i.classes.map (fun k => (s.cur, k)) }
      match s.core.task with
      | some n => modTask s d n (fun t => { t with core := some s.cur })
      | none => s

/-- The core has issued for the context that a pre-emption has brought to it: one whose engines run, an instruction; any other has
come to its first issue clk. DESIGN CHOICE for the latter, log entry 77. -/
def hasIssued (c : Core) : Bool :=
  match c.arrived with
  | none => true
  | some (k, n) => if c.running then decide (n < c.engC.seq + c.engA.seq + c.engV.seq + c.engW.seq) else decide (k ≤ c.ck)

/-- The partition has moved when every named core holds the incoming context, and the command ends once every one has issued for it
(R441). -/
def finishPreempt (s : State) (d : Nat) : State :=
  match (dieAt s d).preempt with
  | none => s
  | some (inc, _, mask) =>
    if (maskedCores d mask).all (fun c => (coreAt s c).ctx == some inc) then
      let s := modDie s d (fun x => { x with
        contexts := x.contexts.map (fun c => if c.num == inc then { c with mask := c.mask ||| mask } else { c with mask := c.mask &&& ~~~mask }) })
      if (maskedCores d mask).all (fun c => hasIssued (coreAt s c)) then
        commandDone (modDie s d (fun x => { x with preempt := none, formOut := [] })) d 0
      else s
    else s

/-- The task on the core keeps it from being halted: it is ending, faulted, or being taken back (R427, R430). -/
def holdsCore (s : State) : Bool :=
  match s.core.task.bind (taskAt s (dieOfCore s.cur)) with
  | some t => t.state == .ending || t.fault.isSome || s.core.rollback
  | none => false

/-- Every core of the current core's cluster has been halted and come to rest: its L1s may change their form (R182). -/
def clusterResting (s : State) : Bool :=
  ((List.range 8).map (fun i => s.cur / 8 * 8 + i)).all (fun c => !(coreAt s c).running && atRest (focus s c))

/-- CONTEXT_EXCHANGE (R427, R429): once its image is loaded the core is to be halted at its engines' boundaries at the end of the
clk, after what its engines do in it (R430); at rest, it exchanges the contexts and flips the planes. -/
def execEvContextExchange (s : State) : Host.Outcome State Fault Refusal :=
  let s := focus s s.arg.core.toNat
  match preemptOf s s.cur with
  | none => .next s
  | some (inc, o, i, mask) =>
    let d := dieOfCore s.cur
    let f := formIn s inc (match (dieAt s d).preempt with | some (_, t, _) => t | none => 0) mask
    if !s.core.loaded || holdsCore s then .next s
    else if s.core.running then .next (modCore s (fun c => { c with haltAsked := true }))
    else if !atRest s || (f != fusedNumber (dieAt s d) (s.cur % 64 / 8) && !clusterResting s) then .next s
    else .next (finishPreempt (bringIn (putAside s o) inc i f mask) d)

/-- Bytes of a drained image: the plane, which stands in the core's attic, then a register image of the device's own form (R427). -/
def imageBytes (s : State) (i : SavedImage) : List Byte := (List.range (2 ^ 21)).map (look 0 (coreAt s i.core).attic) ++ registerBytes i

/-- IMAGE_DRAIN (R427, step 4): the outgoing image reaches its save area. -/
def execEvImageDrain (s : State) : Host.Outcome State Fault Refusal :=
  match s.images.find? (fun i => i.core == s.arg.core.toNat && !i.drained) with
  | none => .next s
  | some i =>
    let bs := imageBytes s i
    let s1 := overwrite s ((List.range bs.length).map (fun k => (i.area + k, bs.getD k 0)))
    let s2 := (coreAt s i.core).atticPoison.foldl (fun s p => markGranule s ((i.area + p.1) / 32)) s1
    .next { s2 with images := s2.images.map (fun x => if x == i then { i with drained := true } else x) }

/-! ### Fatal errors (R434, R435) -/

/-- A section of the dump: type, unit, contents. -/
abbrev Section := Nat × Nat × List Byte

/-- A store-log record as R333 lays it out. -/
def logBytes (r : LogRec) : List Byte := leBytes 8 r.block ++ leBytes 16 r.data.toNat ++ leBytes 16 r.mask.toNat

/-- Bytes whose form the manual leaves to the device. -/
def ownBytes (s : State) (salt n : Nat) : List Byte := (List.range n).map (fun k => Config.imageByte s.tick (salt + k))

/-- Counters of a die in the order of R440: its two stacks, then its four ports. -/
def counterBytes (s : State) (d : Nat) : List Byte :=
  bytesOf ((List.range 14).map (fun i => stackCounter (stackAt s (2 * d + i / 7)) (i % 7)) ++ (List.range 16).map (fun i => portCounter (dieAt s d) (i / 4) (i % 4)))

/-- Sections of the dump: core images, each the scratchpad plane and a register image of the device's own form (R427), store logs, scoreboards, error records, management counters. -/
def dumpSections (s : State) : List Section :=
  (List.range 256).map (fun c => (1, c, (List.range (2 ^ 21)).map (look 0 (coreAt s c).near.cur) ++ ownBytes s (c * areaSize) (areaSize - 2 ^ 21))) ++
    (List.range 256).map (fun c => (2, c, (coreAt s c).log.flatMap logBytes)) ++
    (List.range 4).flatMap (fun d => [(3, d, ownBytes s (2 ^ 40 + d * 2 ^ 20) (4096 * 64)), (4, d, bytesOf (dieAt s d).dramErrors), (5, d, counterBytes s d)])

/-- Directory entries with running offsets. -/
def dumpDirectory : Nat → List Section → List Byte
  | _, [] => []
  | off, (ty, unit, bs) :: rest =>
    leBytes 2 ty ++ leBytes 2 unit ++ leBytes 4 bs.length ++ leBytes 8 off ++ dumpDirectory (off + bs.length) rest

/-- The dump (R435): header, directory, sections. -/
def dumpBytes (s : State) (reason die : Nat) (trigger : List Byte) : List Byte :=
  let secs := dumpSections s
  let header := leBytes 4 0x504D5544 ++ leBytes 4 1 ++ leBytes 4 die ++ leBytes 4 reason ++ (trigger ++ List.replicate 16 0).take 16 ++
    leBytes 8 secs.length ++ leBytes 8 s.clk ++ leBytes 16 0
  header ++ dumpDirectory (64 + 16 * secs.length) secs ++ secs.flatMap (fun x => x.2.2)

/-- A fatal error stops the package: the dump is written into its region, a FATAL record posted (R434). -/
def goFatal (s : State) (reason d : Nat) (trigger : List Byte) : State :=
  if s.fatal.isSome then s
  else
    let s1 := { s with fatal := some reason }
    let s2 := match s.dumpRegion with
      | some a => let bs := dumpBytes s reason d trigger; overwrite s1 ((List.range bs.length).map (fun k => (a + k, bs.getD k 0)))
      | none => s1
    postMgmt s2 d 4 0 [0, 0]

/-! ### Soft errors in SRAM (R431) -/

/-- A clean copy has been dropped: the error is only counted. -/
def countSoft (s : State) (d : Nat) : State := modDie s d (fun x => { x with softErrors := x.softErrors + 1 })

/-- The 64-bit word's granule in line `line`, by the address the event carries. -/
def errGranule (s : State) (line : Nat) : Nat := 4 * line + s.arg.addr % 4

/-- An entry of a file is marked, its value no longer known. -/
def spoil {α : Type} [DecidableEq α] (d v : α) (f : File α) (k : Nat) : File α := fileSet d f k v true

def noise (s : State) (k : Nat) : Nat := Config.undecided s.tick (2 ^ 65 + k)

/-- A 32-bit lane of a table with its marks. -/
def spoilLane (s : State) (k : Nat) (v : Sparse Cell × Sparse Bool) : Sparse Cell × Sparse Bool :=
  (place 0 v.1 k (BitVec.ofNat 32 (noise s k)), place false v.2 k true)

/-- A result on its way is poisoned: each value it brings is marked and no longer known. -/
def spoilLanding (s : State) (l : Landing) : Landing :=
  match l.act with
  | .write ws => { l with act := .write (ws.map (fun w => { w with val := BitVec.ofNat 64 (noise s l.seq), mark := true })) }
  | .loadSegment _ _ _ | .storeSegment _ _ _ => l

/-- Data of a core poisoned in place (R431). -/
def spoilCore (s : State) (x : Core) : CoreErr → Core
  | .greg r => if r == 0 then x else { x with g := spoil 0 (BitVec.ofNat 64 (noise s r.toNat)) x.g r.toNat }
  | .cell k => { x with cells := spoil 0 (BitVec.ofNat 32 (noise s k)) x.cells (k % 32768) }
  | .near k => { x with near := spoil 0 (BitVec.ofNat 8 (noise s k)) x.near (k % 2 ^ 21) }
  | .attic k => { x with attic := place 0 x.attic (k % 2 ^ 21) (BitVec.ofNat 8 (noise s k)), atticPoison := place false x.atticPoison (k % 2 ^ 21) true }
  | .acc k => let v := spoilLane s (k % 2 ^ 17) (x.acc, x.accPoison); { x with acc := v.1, accPoison := v.2 }
  | .slot k => let v := spoilLane s (k % 2 ^ 14) (x.slots, x.slotPoison); { x with slots := v.1, slotPoison := v.2 }
  | .bank k => let v := spoilLane s (k % 2 ^ 16) (x.bank, x.bankPoison); { x with bank := v.1, bankPoison := v.2 }
  | .log n => { x with log := x.log.mapIdx (fun i r => if i == n then { r with poison := true, data := BitVec.ofNat 128 (noise s n) &&& r.mask } else r) }
  | .sys n => { x with sys := spoil 0 (BitVec.ofNat 64 (noise s n)) x.sys n }
  | .stripe => { x with stripe := { x.stripe with mark := true } }
  | .engine e => { x with engMarks := dedupNat (e.num :: x.engMarks) }
  | .command id => { x with badCmds := dedupNat (id :: x.badCmds) }
  | .kreg n => { x with kMarks := dedupNat (n % 32 :: x.kMarks), kregs := place 0 x.kregs (n % 32) (BitVec.ofNat 64 (noise s n)) }
  | .landing n => { x with landing := x.landing.mapIdx (fun i l => if i == n then spoilLanding s l else l) }
  | .frame => { x with trapFrame := x.trapFrame.map (fun f => { f with mark := true }) }
  | .probeTag n => { x with probeTags := x.probeTags.map (fun t => if t.entry == n then { t with mark := true } else t) }

/-- Mark element `n` of a list. -/
def markAt {α : Type} (f : α → α) (n : Nat) (l : List α) : List α := l.mapIdx (fun i x => if i == n then f x else x)

/-- The image whose registers are in core `c`'s shadow store: the incoming one once it is loaded, else one still to drain (R427). -/
def shadowImage (s : State) (c : Nat) : Option SavedImage :=
  match preemptOf s c, (coreAt s c).loaded with
  | some (inc, _, a, _), true => imageAt s inc a
  | _, _ => s.images.find? (fun i => i.core == c && !i.drained)

/-- SRAM_ERROR (R431): a clean copy is dropped and counted, other data is poisoned in place. One
in the promotion tags of a stack in fallback is fatal (R434). -/
def execEvSramError (s : State) : Host.Outcome State Fault Refusal :=
  match s.arg.sramErr with
  | none => .next s
  | some (.l1 c line) =>
    match (coreAt s c.toNat).l1.find? (fun l => l.line == line) with
    | none => .next s
    | some l =>
      if l.dirty.isEmpty then .next (countSoft (modCoreAt s c.toNat (fun c => { c with l1 := c.l1.filter (fun m => m != l) })) (dieOfCore c.toNat))
      else
        let g := errGranule s line
        let bad := (List.range 32).foldl (fun m i => setKey m (32 * g + i) (Config.badByte s.tick (32 * g + i))) l.dirty
        .next (modCoreAt s c.toNat (fun c => { c with l1 := c.l1.map (fun m => if m == l then { l with dirty := bad, marks := dedupNat (g :: l.marks) } else m) }))
  | some (.l2 die slice line) =>
    let x : Slice := look {} (dieAt s die.toNat).slices slice
    match x.lines.find? (fun l => l.line == line) with
    | none => .next s
    | some l =>
      if l.dirty then .next (spoilGranule s (32 * errGranule s line))
      else if 0 < l.pins then .next (countSoft s die.toNat)
      else .next (countSoft (leaveSlice (modDie s die.toNat (fun d =>
        { d with slices := place {} d.slices slice { x with lines := x.lines.filter (fun m => m.line != line) } })) l) die.toNat)
  | some (.code die page) =>
    let lost := ((dieAt s die.toNat).codeCache.filter (fun p => p.page == page)).flatMap (fun p => p.sectors.map Prod.snd)
    .next (countSoft (lost.foldl countLost (modDie s die.toNat (fun d => { d with codeCache := d.codeCache.filter (fun p => p.page != page) }))) die.toNat)
  | some (.codeBuf c page) =>
    .next (countSoft (modCoreAt s c.toNat (fun x => { x with codeBuffer := x.codeBuffer.filter (fun f => f.page != page) })) (dieOfCore c.toNat))
  | some (.engineTlb die k n) =>
    .next (countSoft (modDie s die.toNat (fun d => { d with tlbs := place [] d.tlbs k ((look [] d.tlbs k).eraseIdx n) })) die.toNat)
  | some (.collective die n) =>
    .next (modDie s die.toNat (fun d => { d with collectives := markAt (fun x => { x with cmd := { x.cmd with mark := true } }) n d.collectives }))
  | some (.sampleRun die) =>
    .next (modDie s die.toNat (fun d => { d with run := d.run.map (fun r => { r with cmd := { r.cmd with mark := true } }) }))
  | some (.tlb c n) => .next (countSoft (modCoreAt s c.toNat (fun x => { x with tlb := x.tlb.eraseIdx n })) (dieOfCore c.toNat))
  | some (.walk die n) => .next (countSoft (modDie s die.toNat (fun d => { d with walkCache := d.walkCache.eraseIdx n })) die.toNat)
  | some (.mask die n) => .next (countSoft (modDie s die.toNat (fun d => { d with maskCache := d.maskCache.eraseIdx n })) die.toNat)
  | some (.core c e) => .next (modCoreAt s c.toNat (fun x => spoilCore s x e))
  | some (.shadow c e) =>
    match shadowImage s c.toNat with
    | none => .next s
    | some i => .next { s with images := s.images.map (fun y => if y == i then { i with image := spoilCore s i.image e } else y) }
  | some (.fifoCmd die k n) =>
    .next (setFifo s die.toNat k { fifoAt s die.toNat k with cmds := markAt (fun q => { q with mark := true }) n (fifoAt s die.toNat k).cmds })
  | some (.fifoRes die k n) =>
    .next (setFifo s die.toNat k { fifoAt s die.toNat k with results := markAt (fun q => { q with mark := true }) n (fifoAt s die.toNat k).results })
  | some (.seqSlot die h) =>
    .next (modDie s die.toNat (fun d => { d with seqSlots := d.seqSlots.map (fun p => if p.1 == h then (h, { p.2 with mark := true }) else p) }))
  | some (.ring die dec n) =>
    .next (modDie s die.toNat (fun d => { d with rings := d.rings.map (fun p => if p.1 == dec then (dec, markAt (fun r => { r with mark := true }) n p.2) else p) }))
  | some (.migration die n) => .next (modDie s die.toNat (fun d => { d with migrations := markAt (fun m => { m with mark := true }) n d.migrations }))
  | some (.walkReq die n) => .next (modDie s die.toNat (fun d => { d with walkQueue := markAt (fun q => { q with mark := true }) n d.walkQueue }))
  | some (.promo k sub n) =>
    if (stackAt s k.toNat).failed then .next (goFatal s 3 (k.toNat / 2) [])
    else .next (modStack s k.toNat (fun x => { x with promo := x.promo.map (fun p =>
      if p.1 == sub then (sub, markAt (fun t => { t with mark := true }) n p.2) else p) }))

/-- FATAL_ERROR (R434): the error of reason `addr`, on a die, with the error record that triggered it in `bytes`: one in a store log's
addresses, masks or published tail, in the sequencer's state, or the firmware's check. An error in promotion tags and a late refresh
come with the events that make them (SRAM_ERROR, a clk). -/
def execEvFatalError (s : State) : Host.Outcome State Fault Refusal :=
  if s.arg.addr == 1 || s.arg.addr == 2 || s.arg.addr == 5 then .next (goFatal s s.arg.addr s.arg.die.toNat s.arg.bytes) else .next s

end Sys2Proof.Machine
end

