-- ==== Sys2Proof/Machine/Clock.lean ====
section
/-!
DEFINITION. One clk of the package: what must be settled before it passes, what it counts (R6, R272, R289, R384, R387,
R456), which turns a stopped package still takes (R434), and the placing of one instruction where the machine fetches its next.
-/
namespace Sys2Proof.Machine

/-! ### A clk -/

/-- Cores whose state differs from that of a core that nothing has touched, and the current one. -/
def listedCores (s : State) : List Nat := s.cur :: s.others.map Prod.fst

/-- What the present clk still owes on a core: results due in it, and whether it is a starved or lagging one. -/
def clkOwed (c : Core) : Bool := !(dueEntries c).isEmpty || c.starved || c.lagging

/-- A ready task's full millisecond is still to be counted (R405). -/
def agingOwed (s : State) : Bool := s.dies.any (fun p => p.2.tasks.any (fun t => agingDue s t.2))

/-- The present clk is over. -/
def clkMayPass (s : State) : Bool :=
  !(listedCores s).any (fun c => clkOwed (coreAt s c)) && !agingOwed s && !(List.range 8).any (stackOwed s)

/-- The core's lease queue holds a command while another core of its cluster holds the array (R289). -/
def leaseWaits (s : State) (n : Nat) (c : Core) : Bool :=
  !c.leaseQueue.isEmpty &&
    match (look {} (dieAt s (dieOfCore n)).arrays (n % 64 / 8)).holder with
    | some k => k != n % 8
    | none => false

/-! ### Poison in queues and in the state of engines (R431) -/

/-- Numbers of the commands that the current core's engines have before them: at the head of a queue, or under way. -/
def commandsMet (c : Core) : List Nat :=
  (c.copyQueue.head?.map CopyCmd.id).toList ++ (c.copyRun.map (fun r => r.cmd.id)).toList ++ (c.wQueue.head?.map WCmd.id).toList ++
    (c.call.map (fun k => k.cmd.id)).toList ++ (c.leaseQueue.head?.map LeaseCmd.id).toList

/-- The core's engines read the commands before them, and a call its stripe registers: poison there is consumed for the core's task.
DESIGN CHOICE, log entry 65. -/
def meetMarks (s : State) : State :=
  let met := s.core.badCmds.filter (fun i => (commandsMet s.core).contains i)
  let stripe := s.core.stripe.mark && s.core.call.isSome
  if met.isEmpty && !stripe then s
  else
    poisonTask (modCore s (fun c => { c with
      badCmds := c.badCmds.filter (fun i => !met.contains i)
      stripe := { c.stripe with mark := c.stripe.mark && !stripe } })) (taskMark s) 0

/-- The shared engines of die `d` read their next commands, and the sampler its run's slot. -/
def meetDieMarks (s : State) (d : Nat) : State :=
  let s := (dieAt s d).fifos.foldl (fun s p =>
    if fifoMail ≤ p.1 then s
    else
      match firstCmd { fifoAt s d p.1 with cmds := (fifoAt s d p.1).cmds.filter (fun c => !(dieAt s d).sampling.contains c) } with
      | none => s
      | some c =>
        if c.mark || (p.1 == fifoSampler && samplerSpoilt s d c) || (p.1 == fifoGrammar && grammarSpoilt s d c) then
          poisonCmd s d p.1 c (BitVec.ofNat 64 (Config.undecided s.tick (900100 + p.1)))
        else s) s
  match (dieAt s d).run with
  | none => s
  | some r => if ((runSlot s d r).any SeqSlot.mark || r.cmd.mark) && r.ending.isNone then endRunWith s d r .poison else s

/-! ### A clk passes -/

/-- The clk ends on the current core: stores that reach their lenders, event records, poison met, what each engine passes without a
clk, the decode slot (R446, R96, R361, R366). `waits` says which engines wait. -/
def clkEnd (waits : State → Eng → Bool) (s : State) : State :=
  let due := flyingDue s
  let s := meetMarks (postCrossed (landFlying s due.contains))
  let s := skipAll s
  decodeSlot s (waits s)

/-- A new clk begins on core `n`: the count of its own clk, which a frozen one does not raise (R384); the halt of a pre-emption
(R430); whether the new clk is withheld; and what the clk before it counted. -/
def coreClk (s : State) (held : Bool) (n : Nat) : State :=
  let stall := (coreAt s n).spillStall && Config.undecided s.tick (700000 + n) % 2 == 1
  let waits := leaseWaits s n (coreAt s n)
  let next := fun (c : Core) =>
    let c := { c with ck := if c.frozen then c.ck else c.ck + 1, frozen := held || stall, spillStall := stall }
    let c := if c.haltAsked then { c with haltAsked := false, running := false, parked := c.parked || c.running, parkedAt := c.ck } else c
    if waits then bumpSys c sysLWAIT else c
  let f := modCore (focus s n) next
  let lag := portWaits f.core || streamPending f
  modCoreAt s n (fun c =>
    let c := next c
    { c with starved := streamStarved f, lagging := lag, probeLag := if lag then c.probeLag else 0 })

/-- The governor withholds the next clk (R456): at most one in four while the package draws too much. -/
def withholds (s : State) : Bool := s.throttled && decide (s.heldClk + 4 ≤ s.clk + 1) && Config.undecided s.tick 700999 % 2 == 1

/-- Bytes and whole granules in other devices that are overwritten there by others than this package: which, is not known. DESIGN
CHOICE, log entry 5. -/
def othersStore (s : State) : State :=
  let stays := fun (k : Nat) => Config.undecided s.tick k % 2 == 0
  { s with
    remote := s.remote.filter (fun p => stays (2 ^ 68 + p.1) && stays (2 ^ 69 + p.1 / 32))
    remotePoison := s.remotePoison.filter (fun p => stays (2 ^ 69 + p.1)) }

/-- One clk passes. After a fatal error only the count goes on; a fallback refresh that has not come in its time is one (R434). -/
def passClk (waits : State → Eng → Bool) (s : State) : State :=
  if s.fatal.isSome then { s with clk := s.clk + 1 }
  else if !clkMayPass s then s
  else match (List.range 8).find? (refreshLate s) with
  | some k => goFatal s 4 (k / 2) []
  | none =>
    let back := s.cur
    let s := (listedCores s).foldl (fun s n => clkEnd waits (focus s n)) s
    let s := focus ((s.dies.map Prod.fst).foldl meetDieMarks (othersStore (postCrossedOut s))) back
    let held := withholds s
    let s := { s with clk := s.clk + 1, heldClk := if held then s.clk + 1 else s.heldClk }
    let s := (listedCores s).foldl (fun s n => coreClk s held n) s
    focus ((s.dies.map Prod.fst).foldl finishPreempt s) back

/-! ### A stopped package -/

/-- Events that still happen after a fatal error (R434): refreshing with the heartbeats it rests on, the posting of
management records, the host's reads and writes, and reset. -/
def runsWhenFatal (i : Instr) (a : EvArg) (s : State) : Bool :=
  [Instr.evRefresh, .evFallbackRefresh, .evHeartbeat, .evHeartbeatMissed, .evRefreshHandback, .evHostRead, .evHostWrite,
    .evReset].contains i || (i == .evEventPost && decide ((dieAt s a.die.toNat).postings.length ≤ a.n))

/-! ### Placing one instruction -/

/-- Bytes of `n` little-endian bytes. -/
def wordBytes (n w : Nat) : List Byte := (List.range n).map (fun i => BitVec.ofNat 8 (w / 256 ^ i))

/-- Store the twelve bytes of the longest instruction at physical address `pa`, free of poison. -/
def putCode (s : State) (pa w : Nat) : State :=
  { s with
    mem := placeAll memDefault s.mem pa (wordBytes 12 w)
    memPoison := place false (place false s.memPoison (pa / 32) false) ((pa + 11) / 32) false }

/-- An address from which twelve bytes stay in one code page. -/
def codeStart (pc : Nat) : Nat := if pc % 4 == 0 && decide (pc % 16384 + 12 ≤ 16384) && decide (pc < 2 ^ 36) then pc else 0

/-- A readable, writable, executable page of 64 KiB whose frame is at the address itself. -/
def codePage (s : State) (pc : Nat) : TlbEntry :=
  let base := pc / 65536 * 65536
  { asn := bits (readSys s s.eng sysPTB) 63 52, base := base, size := 65536, leaf := BitVec.ofNat 64 (base + 7 * 2 ^ 53 + 1) }

/-- The current core translates `pc`'s page, and its clk is an open one. -/
def openCore (s : State) (pc : Nat) : State :=
  let page := codePage s pc
  modCore s (fun c => { c with
    tlb := page :: c.tlb, frozen := false, starved := false, lagging := false })

/-- The die's code cache holds the sector of `pa` as it stands. -/
def placeSector (s : State) (pa : Nat) : State := modDie s (dieOfCore s.cur) (fun d => putSector d pa (newSector s pa s.cur))

/-- Engine `e` of the current core is to execute the instruction `w`, which its decoded queue holds. -/
def placeMain (s : State) (w : Nat) : State :=
  let tag := w / 4 % 8
  let e := allEngs.getD tag .c
  let s := { s with eng := e }
  let pc := codeStart (s.core.eng e).pc
  let s := openCore (putCode s pc w) pc
  let s := placeSector (placeSector s pc) (pc + 11)
  let s := modCore s (fun c => { c with running := true, haltAt := none, leaving := none, engMarks := [], sys := { c.sys with poison := [] } })
  let p := (List.range 3).map (fun i => BitVec.ofNat 32 (w / 2 ^ (32 * i)))
  let d : Decoded := { addr := pc, parcels := p.take (parcelsOf (p.headD 0)) }
  let s := modEng s e (fun x => { x with pc := pc, decoded := [d], halted := false, atCross := false, exposed := none, begun := true,
                                          seen := [], stretch := none, nextIssue := 0, owed := [] })
  { s with turn := .engine (BitVec.ofNat 8 s.cur) e }

/-- The stream side of the current core is to execute the directive `w`. -/
def placeDirective (s : State) (w : Nat) : State :=
  let s := openCore (putCode s 0 w) 0
  let pos : StreamPos := { gen := 0, arow := 0, segTable := 0, segCount := 1, seg := 0, start := 0, parcels := 3, pc := 0, inSegment := true }
  let cmd : WCmd := { op := .call 0 0 0, id := s.core.nextId, tag := 0, push := 0, seq := 0 }
  let s := modCore s (fun c => { c with
    call := some { cmd := cmd, abase := 0, floatKind := true, pos := pos }, wQueue := []
    codeBuffer := { page := 0, sectors := [(0, newSector s 0 s.cur)] } :: c.codeBuffer })
  { s with turn := .stream (BitVec.ofNat 8 s.cur) }

/-- Die 0's sampler is to execute the logit word `w`. -/
def placeLogit (s : State) (w : Nat) : State :=
  let slot : SeqSlot := { ctx := 0, vocab := 1, clusters := 0, bf16 := false, program := some [BitVec.ofNat 32 w], counts := 0, bias := 0,
                          ban := 0, clusterTable := 0, seed := 0, draw := 0 }
  let cmd : Cmd := { ctx := 0, core := 0, stamp := 0, task := none, words := [] }
  let run : SampleRun := { cmd := cmd, handle := 0, base := 0, len := 1, permitted := none, x := [], c := [], b := [], v := [], live := [0],
                           filters := [], greedy := false, pos := 0, stage := 0, node := 0, nodes := [], clusterLog := none, posted := [],
                           grammar := none, ending := none }
  let s := modDie s 0 (fun d => { d with seqSlots := setKey d.seqSlots 0 slot, run := some run })
  { s with turn := .sampler 0 }

end Sys2Proof.Machine
end

