-- ==== Sys2Proof/Machine/HostIo.lean ====
section
/-!
DEFINITION. The host and the fabric (R437 to R447, R455 to R458): management commands, host accesses, lent memory, flits and
ports, the power governor, firmware and reset.
-/
namespace Sys2Proof.Machine

/-! ### Commands (R441) -/

/-- Perform the command of code `code` on the event's die, if it is the one under way. -/
def command (s : State) (code : Nat) (body : Nat → List Word → State) : Host.Outcome State Fault Refusal :=
  let d := s.arg.die.toNat
  if (dieAt s d).busy && (dieAt s d).mcbCode == code then .next (body d (dieAt s d).mcbCopy) else .next s

/-- A context record (R392). -/
def contextOf (ws : List Word) : Context :=
  { num := bits (wordAt ws 0) 15 0, mask := BitVec.ofNat 8 (bits (wordAt ws 1) 7 0), ptb := wordAt ws 3
    mailFirst := bits (wordAt ws 1) 63 48, mailCount := bits (wordAt ws 2) 15 0, ring := (wordAt ws 4).toNat }

def contextBad (ws : List Word) : Bool :=
  let x := contextOf ws
  decide (4095 < x.num) || bits (wordAt ws 0) 63 16 != 0 || bits (wordAt ws 1) 47 8 != 0 || bits (wordAt ws 2) 63 16 != 0 ||
    decide (256 < x.mailCount) || decide (255 < x.mailFirst) || decide (256 < x.mailFirst + x.mailCount) || bits x.ptb 11 0 != 0 || x.ring % 64 != 0 ||
    wordAt ws 5 != 0 || wordAt ws 6 != 0 || wordAt ws 7 != 0

/-- Another context of the die holds a cluster or a mailbox the record names. -/
def contextHeld (d : Die) (x : Context) : Bool :=
  d.contexts.any (fun c => c.mask &&& x.mask != 0 ||
    (decide (0 < c.mailCount) && decide (0 < x.mailCount) && decide (c.mailFirst < x.mailFirst + x.mailCount) &&
      decide (x.mailFirst < c.mailFirst + c.mailCount)))

/-- A new owner finds every core of the partition zeroed and its L1 empty (R436). -/
def ownCores (s : State) (d : Nat) (x : Context) : State :=
  (maskedCores d x.mask).foldl (fun s c =>
    let s := focus s c
    modCore (cleanL1 s) (fun k => newCore k x c d x.mask File.zero)) s

/-- CREATE (R392). -/
def execEvCreate (s : State) : Host.Outcome State Fault Refusal :=
  command s 1 (fun d ws =>
    let x := contextOf ws
    let same := (s.dies.flatMap (fun p => p.2.contexts)).filter (fun c => c.num == x.num)
    if contextBad ws || same.any (fun c => c.ptb != x.ptb) then commandDone s d 1
    else if (contextOn (dieAt s d) x.num).isSome || contextHeld (dieAt s d) x then commandDone s d 2
    else commandDone (ownCores (modDie s d (fun y => { y with contexts := y.contexts ++ [x] })) d x) d 0)

/-- SETVEC (R441, R410): TVEC of every core of the context. -/
def execEvSetvec (s : State) : Host.Outcome State Fault Refusal :=
  command s 2 (fun d ws =>
    let n := (wordAt ws 0).toNat
    let v := wordAt ws 1
    let put := fun (c : Core) => if c.ctx == some n then { setSysNow c sysTVEC v with sys := { (setSysNow c sysTVEC v).sys with old := c.sys.old.filter (fun o => o.key != sysTVEC) } } else c
    if (contextOn (dieAt s d) n).isNone || !sysValueOk sysTVEC v then commandDone s d 1
    else
      let s := { s with dies := s.dies.map (fun p => (p.1, { p.2 with contexts := p.2.contexts.map (fun c => if c.num == n then { c with tvec := v } else c) })) }
      commandDone (modAll s put) d 0)

/-- Settle a context's records in the log of core `c` and free their slots (R436); false while one is held. -/
def flushLog (s : State) (ctx c : Nat) : State :=
  let s := focus s c
  let s := if s.core.ctx == some ctx then publish s 4 else s
  let mine := s.core.log.filter (fun r => r.ctx == ctx)
  let s := (mine.filter (fun r => !r.settled)).foldl (fun s r => settleRecord s c { r with prov := none }) s
  modCore s (fun x => { x with log := x.log.filter (fun r => r.ctx != ctx) })

/-- A record of the context cannot settle yet: its line is pinned or its page is being moved (R126, R165). -/
def flushHeld (s : State) (d ctx : Nat) : Bool :=
  (List.range 64).any (fun i => (coreAt s (64 * d + i)).log.any (fun r => r.ctx == ctx && !r.settled && settleHeld s { r with prov := none }))

/-- A migration that a command of the context has begun is not over (R165). -/
def moving (x : Die) (ctx : Nat) : Bool := (look {} x.fifos fifoMigration).cmds.any (fun q => q.ctx == ctx && goesOn x fifoMigration q)

/-- Address space of a context on a die. -/
def asnOf (d : Die) (ctx : Nat) : Nat := match contextOn d ctx with | some c => bits c.ptb 63 52 | none => 0

/-- Chunks received for a collective that is no longer under way go with it. -/
def heldInbox (x : Die) : Die := { x with inbox := x.inbox.filter (fun m => x.collectives.any (fun k => recNat (bytesOf (k.cmd.words.take 8)) 24 4 == m.tag.toNat &&
  k.members == m.group)) }

/-- What a context leaves behind in a die is removed (R436, R394). -/
def clearContext (s : State) (d ctx : Nat) : State :=
  let x := dieAt s d
  let asn := asnOf x ctx
  let mails := match contextOn x ctx with | some c => (List.range c.mailCount).map (fun i => fifoMail + c.mailFirst + i) | none => []
  let cores := (List.range 64).map (fun i => 64 * d + i)
  let s := cores.foldl (fun s c => flushLog s ctx c) s
  let s := (cores.filter (fun c => (coreAt s c).ctx == some ctx)).foldl (fun s c =>
    let s := focus s c
    modCore (cleanL1 (dropLeaves s c)) (fun k => onCore k {} File.zero)) s
  let s := dropWalks (dropCode s d (fun _ => true)) d (fun a _ _ => a == asn)
  let s := { s with images := s.images.filter (fun i => !(i.ctx == ctx && i.core / 64 == d)) }
  modDie s d (fun x => heldInbox { x with
    maskCache := x.maskCache.filter (fun m => m.asn != asn)
    seqSlots := x.seqSlots.filter (fun p => p.2.ctx != ctx)
    run := x.run.filter (fun r => r.cmd.ctx != ctx)
    commits := x.commits.filter (fun r => r.cmd.ctx != ctx)
    collectives := x.collectives.filter (fun k => k.cmd.ctx != ctx)
    rings := x.rings.map (fun p => (p.1, p.2.filter (fun r => r.ctx != ctx)))
    fifos := (x.fifos.filter (fun p => !mails.contains p.1)).map (fun p =>
      (p.1, { p.2 with cmds := p.2.cmds.filter (fun c => c.ctx != ctx), results := p.2.results.filter (fun r => r.ctx != ctx) }))
    tasks := x.tasks.filter (fun p => p.2.ctx != ctx)
    launches := x.launches.filter (fun l => l.ctx != ctx)
    queues := x.queues.filter (fun q => q.2.ctx != ctx)
    postings := x.postings.filter (fun p => p.ctx != ctx)
    turns := x.turns.filter (fun t => t.1 != ctx)
    contexts := x.contexts.filter (fun c => c.num != ctx) })

/-- DESTROY (R441, R436): refused while a task of the context occupies a core. -/
def execEvDestroy (s : State) : Host.Outcome State Fault Refusal :=
  command s 3 (fun d ws =>
    let n := (wordAt ws 0).toNat
    if (contextOn (dieAt s d) n).isNone then commandDone s d 1
    else if (List.range 64).any (fun i => (coreAt s (64 * d + i)).ctx == some n && (coreAt s (64 * d + i)).task.isSome) then commandDone s d 2
    else if flushHeld s d n || moving (dieAt s d) n then s
    else commandDone (clearContext s d n) d 0)

/-- QUEUE (R394, R441). -/
def execEvQueue (s : State) : Host.Outcome State Fault Refusal :=
  command s 4 (fun d ws =>
    let k := bits (wordAt ws 0) 11 0
    let a := wordAt ws 2
    let b := wordAt ws 3
    let q : HwQueue := { ring := (wordAt ws 1).toNat, ctx := bits a 15 0, entries := bits a 63 32, enable := b.getLsbD 0, weight := bits b 15 8
                         head := bits b 63 32, lastTail := bits b 63 32 }
    let bad := bits (wordAt ws 0) 63 12 != 0 || q.ring % 64 != 0 || bits a 31 16 != 0 || bits b 7 1 != 0 || bits b 31 16 != 0 || wordAt ws 4 != 0 ||
      q.weight == 0 || decide (16 < q.weight) || !(List.range 17).any (fun n => q.entries == 2 ^ n) || (contextOn (dieAt s d) q.ctx).isNone
    if bad then commandDone s d 1 else commandDone (setQueueEntry s d k q) d 0)

/-- DUMP (R441, R434). -/
def execEvDump (s : State) : Host.Outcome State Fault Refusal :=
  command s 6 (fun d ws =>
    let a := (wordAt ws 0).toNat
    if a % 2 ^ 30 != 0 || decide (2 ^ 52 ≤ a) || classOf a != 0 || !physBacked a (2 ^ 30) then commandDone s d 1
    else commandDone { s with dumpRegion := some a } d 0)

/-- First byte of the cellar row that a tag of stack `k` and subarray `sub` names (R101). -/
def rowStart (k sub : Nat) (t : PromoTag) : Nat := k * 2 ^ 36 + t.row * 2 ^ 26 + sub % 32 * 2 ^ 21 + sub / 32 % 64 * 2 ^ 15 + sub / 2048 * 2 ^ 10

/-- The lines of a promoted row that no slice holds are written in its slot (R104, R121). -/
def rowWritten (s : State) (a : Nat) (t : PromoTag) : PromoTag :=
  (List.range 8).foldl (fun t i =>
    if (sliceOf s (a + 128 * i)).lines.any (fun l => l.line == a / 128 + i) then t else t.write (a / 128 + i) (s.now - 1)) t

/-- Zero a range of whole frames (R436, R117): the bytes, the poison, the promoted rows written, the code copies dropped. The bytes
have no key afterwards, so that a new owner's stores are not held against an earlier one's clocks: DESIGN CHOICE, log entry 67. -/
def zeroRange (s : State) (a n : Nat) : State :=
  let inR := fun (x : Nat) => decide (a ≤ x) && decide (x < a + n)
  let s := newMoment s
  let held := dedupNat ((s.mem.map Prod.fst ++ s.keys.map (fun (p : Nat × Key) => p.1 / 8)).filter inR)
  let s := held.foldl (fun s x => pokeByte s x 0 (List.replicate 8 {})) s
  let stack := fun (p : Nat × Stack) => (p.1, { p.2 with promo := p.2.promo.map (fun q =>
    (q.1, q.2.map (fun t => let a := rowStart p.1 q.1 t; if inR a then rowWritten s a t else t))) })
  let die := fun (p : Nat × Die) => (p.1, { p.2 with
    slices := p.2.slices.map (fun q => (q.1, { q.2 with lines := q.2.lines.map (fun l =>
      if inR (128 * l.line) then { l with dirty := true, since := if l.dirty then l.since else s.now - 1 } else l) })) })
  let s := setMarks s ((s.memPoison.map Prod.fst).filter (fun g => inR (32 * g))) false
  let s := { s with dramStacks := s.dramStacks.map stack, dies := s.dies.map die }
  [0, 1, 2, 3].foldl (fun s d => dropCode s d (fun page => decide (a < 16384 * (page + 1)) && decide (16384 * page < a + n))) s

/-- FRAMES (R436, R441): waits until no store log holds an unsettled record of the frames. -/
def execEvFrames (s : State) : Host.Outcome State Fault Refusal :=
  command s 7 (fun d ws =>
    let a := (wordAt ws 0).toNat
    let n := (wordAt ws 1).toNat
    if a % 65536 != 0 || n == 0 || decide (2 ^ 20 < n) || !physBacked a (65536 * n) then commandDone s d 1
    else if logsName s a (65536 * n) then s
    else commandDone (zeroRange s a (65536 * n)) d 0)

/-- LEND (R445). -/
def execEvLend (s : State) : Host.Outcome State Fault Refusal :=
  command s 8 (fun d ws =>
    let a := (wordAt ws 0).toNat
    let n := (wordAt ws 1).toNat
    if n == 0 then commandDone { s with lent := none } d 0
    else if a % 65536 != 0 || n % 65536 != 0 || decide (2 ^ 31 < n) || decide (2 ^ 52 ≤ a) || decide (2 ≤ classOf a) then commandDone s d 1
    else commandDone { s with lent := some { base := a, size := n } } d 0)

/-- POWER (R455). -/
def execEvPower (s : State) : Host.Outcome State Fault Refusal :=
  command s 9 (fun d ws =>
    let n := (wordAt ws 0).toNat
    if decide (n < 600) || decide (2600 < n) then commandDone s d 1 else commandDone { s with budget := n } d 0)

/-- Exactly `n` bytes. -/
def sized (n : Nat) (bs : List Byte) : List Byte := (bs ++ List.replicate n 0).take n

/-- Bytes 127:0 of an attestation report (R458). The digest of the firmware that a package comes with is not known. -/
def reportBody (s : State) (nonce : List Word) : List Byte :=
  leBytes 4 0x54535441 ++ leBytes 4 1 ++ leBytes 4 s.device ++ leBytes 4 s.fused ++ leBytes 4 s.firmware ++ leBytes 4 0 ++ leBytes 8 s.clk ++
    sized 64 (s.digest.getD (Config.firmwareDigest s.firmware)) ++ bytesOf nonce

/-- ATTEST (R458). -/
def execEvAttest (s : State) : Host.Outcome State Fault Refusal :=
  command s 10 (fun d ws =>
    let a := (wordAt ws 4).toNat
    let body := reportBody s (ws.take 4)
    if !physBacked a 192 then commandDone s d 1
    else commandDone (physWrite s a (body ++ sized 64 (Config.identitySign (Config.sha512 body)))) d 0)

/-- An image is accepted: its signature verifies over the digest of its body, its counter is not below the fused one (R457). -/
def imageAccepted (s : State) (img : List Byte) : Bool :=
  Config.imageMagicGood img && Config.imageDigest img == Config.sha512 (Config.imageBody img) &&
    Config.keyVerifies (Config.imageDigest img) (Config.imageSignature img) && decide (s.fused ≤ Config.imageCounter img)

/-- FIRMWARE (R457). -/
def execEvFirmware (s : State) : Host.Outcome State Fault Refusal :=
  command s 11 (fun d ws =>
    let a := (wordAt ws 0).toNat
    let n := (wordAt ws 1).toNat
    if n == 0 || !physBacked a n then commandDone s d 1
    else
      let img := memBytes s a n
      if imageAccepted s img then commandDone { s with staged := some (Config.imageVersion img, Config.imageCounter img), stagedDigest := Config.imageDigest img } d 0 else commandDone s d 1)

/-! ### Host accesses (R438) -/

/-- An aligned access to a management register. -/
def hostRegister (a n : Nat) : Bool := classOf a == 3 && decide (a < 2 ^ 52) && nbitsOf a 49 32 == 0 && isManagement (windowOffset a) && a % 8 == 0 && n == 8

/-- HOST_READ (R438): settled memory, or a management register; of an address that does not exist, nothing (R102). -/
def execEvHostRead (s : State) : Host.Outcome State Fault Refusal :=
  let a := s.arg.addr
  let n := s.arg.len
  if hostRegister a n then .next { s with out := bytesOf [mgmtRead s (windowDie a) (windowOffset a)] }
  else .next { s with out := if physBacked a n then memBytes s a n else [] }

/-- The part of a host write in one line: T above the blocks' settled keys and the line's lease (R438). -/
def hostLine (s : State) (line : Nat) (ws : List (Nat × Byte × Byte)) : State :=
  let t := Nat.max (greatestTime s (ws.map Prod.fst) + 1) ((look (0, 0) s.oLines line).2 + 1)
  let s := settle s 0 { time := t, num := 256 } ws
  { s with oLines := place (0, 0) s.oLines line (t, t) }

/-- HOST_WRITE (R438): settled on arrival, line by line; an address that does not exist takes nothing (R102). -/
def execEvHostWrite (s : State) : Host.Outcome State Fault Refusal :=
  let a := s.arg.addr
  let bs := s.arg.bytes
  if bs.isEmpty then .next s
  else if hostRegister a bs.length then .next (mgmtWrite s (windowDie a) (windowOffset a) (BitVec.ofNat 64 (leNat bs)))
  else if physBacked a bs.length then .next ((groupBy 128 (wholeBytes a bs)).foldl (fun s g => hostLine s g.1 g.2) s)
  else .next s

/-! ### Lent memory and the fabric (R443 to R447) -/

/-- A neighbour's access to the lent window, served by the home slice (R445, R446); any other finds nothing here, and is unbacked
where it was made. -/
def lentAccess (s : State) (r : LentReq) : State :=
  match s.lent with
  | none => { s with out := [] }
  | some w =>
    let a := w.base + r.offset
    let n := match r.store with | some bs => bs.length | none => r.len
    if (directionTo s r.device).isNone || w.size < r.offset + n || n == 0 || !physBacked a n then { s with out := [] }
    else
      match r.store with
      | none => sendFlits { s with out := memBytes s a n } r.device ((n + 255) / 256)
      | some bs => physWrite s a bs

/-- LENT_ACCESS (R446). -/
def execEvLentAccess (s : State) : Host.Outcome State Fault Refusal := .next (lentAccess s s.arg.lent)

/-- FLIT_RECEIVE (R443, R444): a flit at port `n` of a die; a failed CRC is retried, a flit for another device is passed on. -/
def execEvFlitReceive (s : State) : Host.Outcome State Fault Refusal :=
  let f := s.arg.flit
  if !f.crcGood then .next (countPort s s.arg.die.toNat (s.arg.n % 4) 0 1 0)
  else if f.dst % 2 ^ 19 == s.device then .next (match f.body with | some r => lentAccess s r | none => s)
  else
    .next (countFlits s (f.dst % 2 ^ 19) 1)

/-- PORT_DOWN (R447): the port is down and a record is posted; where its twin is down too, the class N stores on their way in that
direction are lost. -/
def execEvPortDown (s : State) : Host.Outcome State Fault Refusal :=
  let d := s.arg.die.toNat
  let k := s.arg.n % 4
  if (dieAt s d).portsDown.contains k then .next s
  else
    let s1 := postMgmt (countPort (modDie s d (fun x => { x with portsDown := k :: x.portsDown })) d k 0 0 1) d 5 k [0, 0]
    let dir := (3 * d + k) / 2
    if k < 3 ∧ !portUp s1 (2 * dir) ∧ !portUp s1 (2 * dir + 1) then .next (modCores s1 (fun _ => true) (loseFlying s1 dir)) else .next s1

/-- PORT_UP (R443). -/
def execEvPortUp (s : State) : Host.Outcome State Fault Refusal :=
  let d := s.arg.die.toNat
  let k := s.arg.n % 4
  if (dieAt s d).portsDown.contains k then
    .next (postMgmt (modDie s d (fun x => { x with portsDown := x.portsDown.filter (fun p => p != k) })) d 6 k [0, 0])
  else .next s

/-! ### Power (R456) -/

/-- POWER_THROTTLE (R456): a 1 ms window at `len` milliwatts exceeds the budget. -/
def execEvPowerThrottle (s : State) : Host.Outcome State Fault Refusal :=
  if s.arg.len ≤ 1000 * s.budget then .next s
  else
    let s1 := { s with power := s.arg.len, throttled := true }
    .next (if s.throttled then s1 else postMgmt s1 0 7 0 [0, 0])

/-- POWER_WITHIN_BUDGET (R456). -/
def execEvPowerWithinBudget (s : State) : Host.Outcome State Fault Refusal :=
  if s.arg.len ≤ 1000 * s.budget then .next { s with power := s.arg.len, throttled := false } else .next s

/-! ### Reset (R103, R457, R458) -/

/-- Lines whose bytes in the cellar rows and in DRAM are older than settled memory, each with the last moment of those bytes: lines
written in a slot of a promoted row (R104), and the dirty lines of the slices (R121). -/
def staleLines (s : State) : List (Nat × Nat) :=
  let rows := s.dramStacks.flatMap (fun k => k.2.promo.flatMap (fun q => q.2.flatMap PromoTag.old))
  let lines := s.dies.flatMap (fun d => d.2.slices.flatMap (fun x => (x.2.lines.filter L2Line.dirty).map (fun l => (l.line, l.since))))
  rows ++ lines.filter (fun p => !rows.any (fun q => q.1 == p.1))


/-- Granules that have gone bad in DRAM beneath a line that its slice holds clean, with nothing older in a cellar row below (R116). -/
def rotten (s : State) : List Nat :=
  let rows := s.dramStacks.flatMap (fun k => k.2.promo.flatMap (fun q => q.2.flatMap PromoTag.old))
  (s.dies.flatMap (fun d => d.2.slices.flatMap (fun x => x.2.lines.flatMap L2Line.under))).filter (fun g => !rows.any (fun q => q.1 == g / 4))

/-- What DRAM's cellar rows hold: the tags and the slices' lines do not outlive a reset (R103). -/
def cellarBytes (s : State) : Sparse Byte :=
  let old := (staleLines s).foldl (fun m p => placeAll memDefault m (128 * p.1) ((List.range 128).map (fun i => byteAt s p.2 (128 * p.1 + i)))) s.mem
  (rotten s).foldl (fun m g => placeAll memDefault m (32 * g) ((List.range 32).map (fun i => Config.badByte s.tick (32 * g + i)))) old

/-- The marks of DRAM's cellar rows (R104, R108, R116). -/
def cellarMarks (s : State) : Sparse Bool :=
  let old := (staleLines s).foldl (fun m p => (List.range 4).foldl (fun m i => place false m (4 * p.1 + i) (granuleMark s p.2 (4 * p.1 + i))) m) s.memPoison
  (rotten s).foldl (fun m g => place false m g true) old

/-- RESET (R103, R457): everything but DRAM starts anew; staged firmware runs, and its counter is fused. -/
def execEvReset (s : State) : Host.Outcome State Fault Refusal :=
  .next { State.reset with
    tick := s.tick, turn := s.turn, arg := s.arg, mem := cellarBytes s, memPoison := cellarMarks s, remote := s.remote
    remotePoison := s.remotePoison, device := s.device, msi := s.msi
    digest := match s.staged with | some _ => some s.stagedDigest | none => s.digest
    firmware := match s.staged with | some p => p.1 | none => s.firmware
    fused := match s.staged with | some p => Nat.max s.fused p.2 | none => s.fused }

end Sys2Proof.Machine
end

