-- ==== Sys2Proof/Machine/Collective.lean ====
section
/-!
DEFINITION. The collective engine (R448 to R450) and the media decoders (R167 to R171).
-/
namespace Sys2Proof.Machine

/-! ### Events in a pusher's context -/

/-- OVT of the context as it stands on that core (R81). For a decoder it is the core that pushed the kick whose OVT and counters are
taken: DESIGN CHOICE, log entry 56. -/
def ovtIn (s : State) (c ctx : Nat) : Word :=
  if (coreAt s c).ctx == some ctx then sysNow (coreAt s c) sysOVT
  else match s.images.find? (fun i => i.core == c && i.ctx == ctx) with | some i => sysNow i.image sysOVT | none => 0

/-! ### Collective commands (R448) -/

structure CollCmd where
  kind : Nat
  ty : Nat
  rm : BitVec 2
  rank : Nat
  n : Nat
  tag : Nat
  chunk : Nat
  table : Nat
  src : Nat
  dst : Nat
deriving DecidableEq, Repr

def collOf (c : Cmd) : CollCmd :=
  let bs := bytesOf (c.words.take 8)
  { kind := recNat bs 0 1, ty := recNat bs 16 1 % 32, rm := BitVec.ofNat 2 (recNat bs 16 1 / 32), rank := recNat bs 20 2, n := recNat bs 22 2
    tag := recNat bs 24 4, chunk := recNat bs 28 4, table := recNat bs 32 8, src := recNat bs 40 8, dst := recNat bs 48 8 }

/-- The element type of a sum. -/
def sumTy (k : CollCmd) : Option Ty := if k.ty == 0 || k.ty == 1 || k.ty == 2 || k.ty == 12 then Ty.ofCode k.ty else none

/-- Bytes of the source and of the destination. -/
def srcBytes (k : CollCmd) : Nat := if k.kind == 0 then k.chunk else k.n * k.chunk
def dstBytes (k : CollCmd) : Nat := k.n * k.chunk

/-- The command breaks its layout (R448, R450). -/
def collBad (c : Cmd) : Bool :=
  let bs := bytesOf (c.words.take 8)
  let k := collOf c
  decide (2 < k.kind) || recNat bs 1 15 != 0 || recNat bs 17 3 != 0 || recNat bs 56 8 != 0 || decide (k.n < 2) || decide (4096 < k.n) ||
    decide (k.n ≤ k.rank) || k.chunk % 128 != 0 || k.chunk == 0 || decide (2 ^ 28 < k.chunk) || k.table % 4 != 0 || k.src % 128 != 0 || k.dst % 128 != 0 ||
    (if k.kind == 1 then (sumTy k).isNone || decide (127 < recNat bs 16 1) else recNat bs 16 1 != 0) ||
    (decide (k.src < k.dst + dstBytes k) && decide (k.dst < k.src + srcBytes k))

/-- Members of a group table: device and die of each rank. -/
def membersOf (bs : List Byte) (n : Nat) : List (Nat × Nat) :=
  (List.range n).map (fun i => (recNat bs (4 * i) 4 % 2 ^ 19, recNat bs (4 * i) 4 / 2 ^ 20 % 4))

def membersBad (s : State) (d : Nat) (bs : List Byte) (k : CollCmd) : Bool :=
  let ms := membersOf bs k.n
  (List.range k.n).any (fun i => recNat bs (4 * i) 4 / 2 ^ 19 % 2 != 0 || recNat bs (4 * i) 4 / 2 ^ 22 != 0) ||
    ms[k.rank]? != some (s.device, d) || decide ((dedupNat (ms.map (fun m => 4 * m.1 + m.2))).length < k.n)

/-- A result element (R450). -/
def collElem (tag step : Nat) (last : Bool) (status : Nat) : Word :=
  BitVec.ofNat 64 (tag * 2 ^ 32 + step * 2 ^ 16 + (if last then 2 ^ 15 else 0) + status)

/-- The status a fault is reported with (R450). -/
def collStatus (f : FaultRec) : Nat :=
  match f.code with
  | .translation => 2
  | .unbackedAddress => 3
  | .illegalInstruction | .alignment | .nearAddress | .engineCommand | .layout | .formatConfig | .probeConfig | .atomic | .order | .memoryCommand
  | .weightCode | .lease | .samplerCommand | .emptyGrammar | .grammarStack | .grammarTable | .sequenceFaulted | .privilege | .trap | .syscall
  | .poison | .placement | .nestedFault => 1

/-- A command that has not started ends with a fault at step 1. -/
def refuseColl (s : State) (d : Nat) (c : Cmd) (f : FaultRec) : State :=
  answer s d fifoCollective c (collElem (collOf c).tag 1 true (collStatus f)) 0 (some f)

/-- A collective is over before its last step. -/
def dropColl (s : State) (d : Nat) (x : Collective) : State := modDie s d (fun y => heldInbox { y with collectives := y.collectives.erase x })

/-- A running command ends with a fault at its step. -/
def failColl (s : State) (d : Nat) (x : Collective) (f : FaultRec) : State :=
  postResult (dropColl s d x) d fifoCollective x.cmd.ctx
    (collElem (collOf x.cmd).tag x.step true (collStatus f)) 0 (some f)

/-- A running command has met poison (R432). -/
def poisonColl (s : State) (d : Nat) (x : Collective) : State :=
  if canRollBack s x.cmd.task then poisonTask (dropColl s d x) x.cmd.task 0
  else failColl s d x { code := .poison, cause := 2 }

/-- Copy what the initial writes of R449 copy: the own chunk, or every chunk of a sum. -/
def collInit (s : State) (g : Agent) (k : CollCmd) : State × Except FaultRec (Nat × Bool) :=
  let put := fun (s : State) (v n w : Nat) =>
    match agentRead s g v n with
    | (s, .error f) => (s, Except.error f)
    | (s, .ok (bs, m)) => match agentWrite s g w bs with | (s, .error f) => (s, .error f) | (s, .ok t) => (s, .ok (t, m))
  match k.kind with
  | 0 => put s k.src k.chunk (k.dst + k.rank * k.chunk)
  | 1 => put s k.src (k.n * k.chunk) k.dst
  | _ => put s (k.src + k.rank * k.chunk) k.chunk (k.dst + k.rank * k.chunk)

/-- Start command `c` (R448): checks, group table, initial writes. -/
def startColl (s : State) (d : Nat) (c : Cmd) : State :=
  let k := collOf c
  let g := c.agent d fifoCollective
  let bad : FaultRec := { code := .engineCommand }
  if collBad c then refuseColl s d c bad
  else
    match agentRead s g k.table (4 * k.n) with
    | (s, .error f) => refuseColl s d c f
    | (s, .ok (_, true)) => poisonCmd s d fifoCollective c (collElem k.tag 1 true 1)
    | (s, .ok (bs, false)) =>
      if membersBad s d bs k then refuseColl s d c bad
      else
        match collInit s g k with
        | (s, .error f) => refuseColl s d c f
        | (s, .ok (_, true)) => poisonCmd s d fifoCollective c (collElem k.tag 1 true 1)
        | (s, .ok (t, false)) =>
          let f := fifoAt s d fifoCollective
          modDie (setFifo s d fifoCollective (dropCmd f c)) d (fun x => { x with
            collectives := x.collectives ++ [{ cmd := c, members := membersOf bs k.n, step := 1, sent := false, cert := t }] })

/-! ### Steps (R449) -/

/-- Rank a step sends to, and the rank it receives from. -/
def peerTo (k : CollCmd) (step : Nat) : Nat := if k.kind == 2 then (k.rank + step) % k.n else (k.rank + 1) % k.n
def peerFrom (k : CollCmd) (step : Nat) : Nat := if k.kind == 2 then (k.rank + k.n - step) % k.n else (k.rank + k.n - 1) % k.n

/-- Address of the chunk a step sends, and number of the chunk it receives. -/
def sendAddr (k : CollCmd) (step : Nat) : Nat :=
  if k.kind == 2 then k.src + (k.rank + step) % k.n * k.chunk else k.dst + (k.rank + k.n + 1 - step) % k.n * k.chunk
def recvChunk (k : CollCmd) (step : Nat) : Nat := (k.rank + k.n - step) % k.n

/-- A member can be reached by the fabric (R444, R450). -/
def memberReached (s : State) (dev : Nat) : Bool := dev == s.device || (portsFor s dev).any (portIsUp s)

/-- Two commands of one tag have one group table, hence one n (R449). -/
def sameGroup (x y : Collective) : Bool := (collOf y.cmd).tag == (collOf x.cmd).tag && y.members == x.members

/-- They are members of one collective (R449). -/
def agree (x y : Collective) : Bool :=
  sameGroup x y && (collOf y.cmd).kind == (collOf x.cmd).kind && (collOf y.cmd).chunk == (collOf x.cmd).chunk

/-- A started command of another member's die agrees with `x`; or, where none does, one of the same tag and group disagrees. -/
def peerCmd (s : State) (x : Collective) (die : Nat) : Option Bool :=
  let others := (dieAt s die).collectives.filter (fun y => (collOf y.cmd).rank != (collOf x.cmd).rank)
  if others.any (agree x) then some true else if others.any (sameGroup x) then some false else none

/-- Send the chunk of the present step: into the inbox of a die of this package, or out by the fabric. -/
def sendStep (s : State) (d : Nat) (x : Collective) : State :=
  let k := collOf x.cmd
  let (dev, die) := x.members.getD (peerTo k x.step) (s.device, d)
  let done := fun (s : State) => modDie s d (fun y => { y with collectives := y.collectives.map (fun z => if z == x then { x with sent := true } else z) })
  if !memberReached s dev then failColl s d x (unbackedFault 0)
  else if dev == s.device && (peerCmd s x die).isNone then s
  else if dev == s.device && peerCmd s x die == some false then failColl s d x { code := .engineCommand }
  else
    match agentRead s (x.cmd.agent d fifoCollective) (sendAddr k x.step) k.chunk with
    | (s, .error f) => failColl s d x f
    | (s, .ok (_, true)) => poisonColl s d x
    | (s, .ok (bs, false)) =>
      if dev == s.device then
        done (modDie s die (fun y => { y with inbox := y.inbox ++ [{ tag := BitVec.ofNat 32 k.tag, group := x.members, kind := k.kind, rank := k.rank, step := x.step, data := bs }] }))
      else done (sendFlits s dev ((k.chunk + 255) / 256))

/-- The `n`-th running collective of a die has a step to send, or the engine starts the next command, at most 16 at once. -/
def collEvent (kinds : Nat → Bool) (s : State) : Host.Outcome State Fault Refusal :=
  let d := s.arg.die.toNat
  match (dieAt s d).collectives[s.arg.n]? with
  | some x =>
    if x.cmd.mark then .next (poisonColl s d x)
    else if kinds (collOf x.cmd).kind && !x.sent then .next (sendStep s d x) else .next s
  | none =>
    match nextCmd (fifoAt s d fifoCollective) with
    | none => .next s
    | some c => if kinds (collOf c).kind && decide ((dieAt s d).collectives.length < 16) then .next (startColl s d c) else .next s

/-- RING (R449), and every command with a reserved kind. -/
def execEvRing (s : State) : Host.Outcome State Fault Refusal := collEvent (fun k => k != 1 && k != 2) s

def execEvRsum (s : State) : Host.Outcome State Fault Refusal := collEvent (fun k => k == 1) s

def execEvA2a (s : State) : Host.Outcome State Fault Refusal := collEvent (fun k => k == 2) s

/-- Add what was received to the own chunk, element by element (R449). -/
def sumChunk (t : Ty) (rm : BitVec 2) (ovt : Word) (y x : List Byte) : List Byte × List Nat :=
  let b := widthOf t
  let n := 8 * y.length / b
  let es := ((unpackElems b n y).zip (unpackElems b n x)).map (fun p => laneOp .add true t rm ovt p.1 p.2 0)
  (packElems b (es.map Elem.bits), es.flatMap (fun e => fecOf (groupOf t) e.kind))

/-- Step `x.step` is received: its element is posted, and the next step begins (R449, R450). -/
def stepDone (s : State) (d : Nat) (x : Collective) (t : Nat) : State :=
  let k := collOf x.cmd
  let last := x.step + 1 == k.n
  let nextStep := fun (l : List Collective) =>
    if last then l.erase x else l.map (fun z => if z == x then { x with step := x.step + 1, sent := false, cert := 0 } else z)
  let s := modDie s d (fun y => { y with collectives := nextStep y.collectives })
  postResult s d fifoCollective x.cmd.ctx (collElem k.tag x.step last 0) (Nat.max t x.cert) none

/-- Write the chunk a step has received, for a sum added to the own one. -/
def receiveChunk (s : State) (d : Nat) (x : Collective) (data : List Byte) : State :=
  let k := collOf x.cmd
  let g := x.cmd.agent d fifoCollective
  let q := recvChunk k x.step
  let write := fun (s : State) (bs : List Byte) (ns : List Nat) =>
    match agentWrite s g (k.dst + q * k.chunk) bs with
    | (s, .error f) => failColl s d x f
    | (s, .ok t) => stepDone (countIn s x.cmd.core x.cmd.ctx ns) d x t
  if k.kind == 1 then
    match agentRead s g (k.src + q * k.chunk) k.chunk, sumTy k with
    | (s, .error f), _ => failColl s d x f
    | (s, .ok (_, true)), _ => poisonColl s d x
    | (s, .ok (bs, false)), some ty =>
      let (out, ns) := sumChunk ty k.rm (ovtIn s x.cmd.core x.cmd.ctx) data bs
      write s out ns
    | (s, .ok (_, false)), none => s
  else write s data []

/-- COLLECTIVE_RECEIVE (R449): the chunk of the present step of the `n`-th collective arrives, from the inbox where the peer is a
die of this package, otherwise as the event brings it. -/
def execEvCollectiveReceive (s : State) : Host.Outcome State Fault Refusal :=
  let d := s.arg.die.toNat
  match (dieAt s d).collectives[s.arg.n]? with
  | none => .next s
  | some x =>
    let k := collOf x.cmd
    let from' := peerFrom k x.step
    let mine := fun (m : PeerMsg) => m.tag.toNat == k.tag && m.group == x.members && m.rank == from' && m.step == x.step
    let agrees := fun (m : PeerMsg) => m.kind == k.kind && m.data.length == k.chunk
    if x.cmd.mark then .next (poisonColl s d x)
    else if !x.sent then .next s
    else if (x.members.getD from' (0, 0)).1 == s.device then
      match (dieAt s d).inbox.find? (fun m => mine m && agrees m) with
      | none => .next s
      | some m => .next (receiveChunk (modDie s d (fun y => { y with inbox := y.inbox.erase m })) d x m.data)
    else if !mine s.arg.peer then .next s
    else if !agrees s.arg.peer then .next (failColl s d x { code := .engineCommand })
    else .next (receiveChunk s d x s.arg.peer.data)

/-! ### Media decoders (R167 to R171) -/

def decoderFifo (k : Nat) : Nat := fifoDecoder + k % 4

/-- A ring header (R168). -/
structure MediaRing where
  descs : Nat
  entries : Nat
  head : Nat
  codec : Nat
  work : Nat
  workSize : Nat
deriving DecidableEq, Repr

def mediaRingOf (bs : List Byte) : MediaRing :=
  { descs := recNat bs 0 8, entries := recNat bs 8 4, head := recNat bs 12 4, codec := recNat bs 16 1, work := recNat bs 24 8, workSize := recNat bs 32 8 }

def mediaRingBad (bs : List Byte) : Bool :=
  let r := mediaRingOf bs
  r.descs % 128 != 0 || !(List.range 13).any (fun k => r.entries == 2 ^ k) || decide (1 < r.codec) || recNat bs 17 7 != 0 || r.work % 128 != 0 || recNat bs 40 24 != 0

/-- A result word (R170). -/
def mediaResult (tag index concealed : Nat) (shown : Bool) (status : Nat) : Word :=
  BitVec.ofNat 64 (tag * 2 ^ 32 + index % 2 ^ 16 * 2 ^ 16 + Nat.min concealed 255 * 256 + (if shown then 8 else 0) + status)

/-- A kick that is ignored posts status 5 (R169). R169 gives no consequence to bytes 3:0 of a kick that are not zero: the model ignores
such a kick in the same way. DESIGN CHOICE, log entry 78. -/
def badKick : Word := mediaResult 0xFFFFFFFF 0 0 false 5

/-- KICK (R169): decoder `n` takes a ring's new tail. -/
def execEvKick (s : State) : Host.Outcome State Fault Refusal :=
  let d := s.arg.die.toNat
  let q := decoderFifo s.arg.n
  match nextCmd (fifoAt s d q) with
  | none => .next s
  | some c =>
    let header := (wordAt c.words 1).toNat
    let tail := bits (wordAt c.words 0) 63 32
    let rs := look [] (dieAt s d).rings (s.arg.n % 4)
    match agentRead s (c.agent d q) header 64 with
    | (s, .error _) => .next (answer s d q c badKick 0 none)
    | (s, .ok (_, true)) => .next (poisonCmd s d q c badKick)
    | (s, .ok (bs, false)) =>
      let r := mediaRingOf bs
      let old := match rs.find? (fun x => x.ctx == c.ctx && x.header == header) with | some x => x.tail.getD r.head | none => r.head
      let ahead := fun (t : Nat) => (t + 2 ^ 32 - r.head) % 2 ^ 32
      if bits (wordAt c.words 0) 31 0 != 0 || mediaRingBad bs || ahead tail < ahead old || r.entries < ahead tail then
        .next (answer s d q c badKick 0 none)
      else
        let mine := fun (y : DecodeRing) => y.ctx == c.ctx && y.header == header
        let kick := fun (y : DecodeRing) => { y with core := c.core, task := c.task, tail := some tail, kicks := y.kicks ++ [(tail, c.release)] }
        let rs' := if rs.any mine then rs.map (fun y => if mine y then kick y else y)
          else rs ++ [kick { ctx := c.ctx, core := c.core, header := header, tail := none }]
        .next (setFifo (modDie s d (fun y => { y with rings := place [] y.rings (s.arg.n % 4) rs' })) d q (dropCmd (fifoAt s d q) c))

/-- A descriptor (R168). -/
structure MediaDesc where
  input : Nat
  len : Nat
  tag : Nat
  out : Nat
  row : Nat
  plane : Nat
  ty : Ty
  mode : Nat
  fresh : Bool
  m : List Nat
  off : List Nat
deriving DecidableEq, Repr

def mediaDescOf (bs : List Byte) : Option MediaDesc :=
  match Ty.ofCode (recNat bs 40 1) with
  | none => none
  | some t =>
    if !(t == .f32 || t == .bf16 || t == .f16 || t == .e4m3) || decide (2 < recNat bs 41 1) || decide (1 < recNat bs 42 1) || recNat bs 43 5 != 0 ||
      recNat bs 108 12 != 0 then none
    else
      some { input := recNat bs 0 8, len := recNat bs 8 4, tag := recNat bs 12 4, out := recNat bs 16 8, row := recNat bs 24 8, plane := recNat bs 32 8
             ty := t, mode := recNat bs 41 1, fresh := recNat bs 42 1 == 1, m := (List.range 12).map (fun i => recNat bs (48 + 4 * i) 4), off := (List.range 3).map (fun i => recNat bs (96 + 4 * i) 4) }

/-- What the decoder makes of its input (R170): the fields of the frame. -/
structure Frame where
  status : Nat
  concealed : Nat
  shown : Bool
  index : Nat
  w : Nat
  h : Nat
  cw : Nat
  ch : Nat
  depth : Nat
  chans : Nat
  profile : Bool
  ext : Bool
deriving DecidableEq, Repr

/-- Profiles and levels, sizes, chroma and depth that a decoder supports, without the extensions it leaves out (R167). -/
def frameSupported (codec : Nat) (f : Frame) : Bool :=
  let halfW := f.cw == ceilDiv f.w 2
  f.profile && !f.ext && decide (16 ≤ f.w) && decide (f.w ≤ 7680) && decide (16 ≤ f.h) && decide (f.h ≤ 4320) && (f.depth == 8 || f.depth == 10) &&
    ((f.chans == 3 && halfW && (f.ch == ceilDiv f.h 2 || f.ch == f.h)) || (codec == 0 && f.chans == 1))

/-- Damaged areas of a frame of `w` x `h` samples. -/
def damagedAreas (tick : Nat) (inp : List Byte) (w h : Nat) : Nat :=
  ((List.range (ceilDiv w 64)).flatMap (fun x => (List.range (ceilDiv h 64)).filter (fun y => (Config.damaged tick inp x y).isSome))).length

/-- A decoded frame's fields: one whose stream a decoder does not support, or that cannot be decoded, lands nothing, in that order
(log entry 78); one that repeats another lands as that; one with damaged areas lands with concealment (R167, R170). -/
def frameOfInput (s : State) (codec : Nat) (inp : List Byte) : Frame :=
  let f := Config.frame s.tick inp
  let x : Frame := { status := f 0 % 3 * 2, concealed := 0, shown := f 2 % 2 == 1, index := f 3, w := f 4, h := f 5, cw := f 6, ch := f 7, depth := f 8, chans := f 9
                     profile := f 10 % 2 == 1, ext := f 11 % 2 == 1 }
  if !frameSupported codec x then { x with status := 3 }
  else if x.status != 0 then x
  else
    let n := damagedAreas s.tick inp x.w x.h
    { x with concealed := n, status := if n == 0 then 0 else 1 }

/-- The frame as later ones of its stream refer to it. -/
def frameKept (s : State) (inp : List Byte) (f : Frame) : MediaFrame :=
  { tick := s.tick, input := inp, w := f.w, h := f.h, cw := f.cw, ch := f.ch, depth := f.depth
    same := if f.status == 2 then some (Config.frame s.tick inp 1) else none }

/-- Bytes a work area holds at least (R168). -/
def workNeeded (f : Frame) : Nat :=
  let up := fun n => ceilDiv n 64 * 64
  let luma := 2 * up f.w * up f.h
  let area := if f.chans < 3 then luma else if f.ch < f.h then luma * 3 / 2 else luma * 2
  9 * area + ceilDiv f.w 64 * ceilDiv f.h 64 * 1024

/-- Sample `(c, x, y)` of the first of a stream's frames, newest first (R170): that of the frame it repeats; in a damaged area that
of the nearest reference, or mid-grey where it has none; else what the decoder has made of its input. -/
def sampleOf : Nat → List MediaFrame → Nat → Nat → Nat → Nat
  | 0, _, _, _, _ => 0
  | _ + 1, [], _, _, _ => 0
  | fuel + 1, f :: older, c, x, y =>
    let back := fun (k : Nat) (no : Nat) => if k < older.length then sampleOf fuel (older.drop k) c x y % 2 ^ f.depth else no
    let ax := (if c == 0 then x else x * f.w / f.cw) / 64
    let ay := (if c == 0 then y else y * f.h / f.ch) / 64
    let own := Config.sample f.tick f.input c x y % 2 ^ f.depth
    match f.same, Config.damaged f.tick f.input ax ay with
    | some k, _ => back k own
    | none, none => own
    | none, some none => 2 ^ (f.depth - 1)
    | none, some (some k) => back k (2 ^ (f.depth - 1))

/-- A decoded sample of channel `c`, chroma replicated to luma resolution where asked. -/
def sampleAt (fs : List MediaFrame) (f : Frame) (replicate : Bool) (c x y : Nat) : Nat :=
  let x' := if replicate && c != 0 then x * f.cw / f.w else x
  let y' := if replicate && c != 0 then y * f.ch / f.h else y
  sampleOf (fs.length + 1) fs c x' y'

/-- A sample as f32 and its events' kinds: an integer, exact (R171). -/
def sampleF32 (n : Nat) : Nat := f32Of (.fin false n 0)

/-- One landed value in f32 (R171): each product and each sum is one rounding in RNE. These count no events: R171 has the conversion
count its own, and says nothing of them. DESIGN CHOICE, log entry 79. -/
def landed (fs : List MediaFrame) (f : Frame) (q : MediaDesc) (c x y : Nat) : Nat :=
  let v := fun (k : Nat) => (f32Sub 0 (sampleF32 (sampleAt fs f (q.mode != 0) k x y)) (q.off.getD k 0)).bits
  let m := fun (r k : Nat) => q.m.getD (4 * r + k) 0
  if q.mode != 2 then (f32Mul 0 (v c) (m c c)).bits
  else
    let p := fun k => (f32Mul 0 (m c k) (v k)).bits
    (f32Add 0 (f32Add 0 (f32Add 0 (p 0) (p 1)).bits (p 2)).bits (m c 3)).bits

/-- Width and height of channel `c` as it lands. -/
def landSize (f : Frame) (mode c : Nat) : Nat × Nat := if mode == 0 && c != 0 then (f.cw, f.ch) else (f.w, f.h)

/-- Land the rows of a frame; the greatest time of the writes. A monochrome frame lands its one plane in modes 0 and 1, and in mode 2
the chroma that the decoder has for it: R171 speaks of Y, Cb and Cr alone. DESIGN CHOICE, log entry 79. -/
def landFrame (s : State) (g : Agent) (core : Nat) (fs : List MediaFrame) (f : Frame) (q : MediaDesc) : State × Except FaultRec Nat :=
  let chans := if q.mode == 2 then 3 else Nat.min 3 (Nat.max 1 f.chans)
  let ovt := ovtIn s core g.ctx
  let rows := (List.range chans).flatMap (fun c => (List.range (landSize f q.mode c).2).map (fun y => (c, y)))
  rows.foldl (fun x r =>
    match x with
    | (s, .error e) => (s, .error e)
    | (s, .ok t) =>
      let es := (List.range (landSize f q.mode r.1).1).map (fun i => convert q.ty .f32 0 ovt (landed fs f q r.1 i r.2))
      match agentWrite s g (q.out + r.1 * q.plane + r.2 * q.row) (packElems (widthOf q.ty) (es.map Elem.bits)) with
      | (s, .error e) => (s, .error e)
      | (s, .ok t2) =>
        let k := if q.ty == .f32 then [] else es.flatMap (fun e => fecOf (groupOf q.ty) e.kind)
        (countIn s core g.ctx k, .ok (Nat.max t t2))) (s, .ok 0)

/-- Descriptor number `n` of a ring has been made ready by the kick whose tail is `t`. -/
def kickedBy (n : Nat) (k : Nat × Release) : Bool := decide (0 < (k.1 + 2 ^ 32 - n) % 2 ^ 32) && decide ((k.1 + 2 ^ 32 - n) % 2 ^ 32 ≤ 4096)

/-- A decoder at descriptor `n` of a ring: it has acquired what the kick that made the descriptor ready releases (R147, R169). -/
def ringAgent (d k : Nat) (x : DecodeRing) (n : Nat) : Agent :=
  { die := d, unit := decoderFifo k, ctx := x.ctx, core := x.core
    release := match x.kicks.find? (kickedBy n) with | some q => q.2 | none => {} }

/-- End a descriptor: its result, the ring's head, the element (R170), with a fault for the POPE where it has met one; `fs` are the
frames later descriptors may refer to. -/
def descDone (s : State) (d k : Nat) (x : DecodeRing) (r : MediaRing) (fs : List MediaFrame) (res : Word) (t : Nat)
    (why : Option FaultRec := none) : State :=
  let g := ringAgent d k x r.head
  let (s, t1) := match agentWrite s g (r.descs + 128 * (r.head % r.entries) + 120) (leBytes 8 res.toNat) with
    | (s, .ok t1) => (s, t1)
    | (s, .error _) => (s, 0)
  let (s, t2) := match agentWrite s g (x.header + 12) (leBytes 4 ((r.head + 1) % 2 ^ 32)) with
    | (s, .ok t2) => (s, t2)
    | (s, .error _) => (s, 0)
  let s := modDie s d (fun y =>
    let rs := look [] y.rings (k % 4)
    let x' := { x with kicks := x.kicks.filter (kickedBy (r.head + 1)), frames := fs.take 16 }
    { y with rings := place [] y.rings (k % 4) (rs.filter (fun z => z != x) ++ [x']) })
  postResult s d (decoderFifo k) x.ctx res (Nat.max t (Nat.max t1 t2)) why

/-- A ring is given up. -/
def dropRing (s : State) (d k : Nat) (x : DecodeRing) : State :=
  modDie s d (fun y => { y with rings := place [] y.rings k ((look [] y.rings k).filter (fun z => z != x)) })

/-- The state of a ring or its header is poisoned: the task whose kick it serves is taken back, or POPE raises POISON cause 2 (R431 to
R433). -/
def poisonRing (s : State) (d k : Nat) (x : DecodeRing) : State :=
  if canRollBack s x.task then poisonTask (dropRing s d k x) x.task 0
  else postResult (dropRing s d k x) d (decoderFifo k) x.ctx badKick 0 (some { code := .poison, cause := 2 })

/-- A descriptor or its input is poisoned: the same, with the ring left as it is and, where the task goes on, the descriptor undecodable. -/
def poisonDesc (s : State) (d k : Nat) (x : DecodeRing) (r : MediaRing) (tag : Nat) : State :=
  if canRollBack s x.task then poisonTask s x.task 0
  else descDone s d k x r x.frames (mediaResult tag 0 0 false 4) 0 (some { code := .poison, cause := 2 })

/-- Decode one descriptor (R170). Where several statuses apply: malformed or unreachable (5), then unsupported (3), undecodable (4), then
a work area too small for the frame (5). R170 gives no order: DESIGN CHOICE, log entry 78. -/
def decodeOne (s : State) (d k : Nat) (x : DecodeRing) (r : MediaRing) (desc : List Byte) : State :=
  let g := ringAgent d k x r.head
  let tag := recNat desc 12 4
  let bad := fun (s : State) => descDone s d k x r x.frames (mediaResult tag 0 0 false 5) 0
  match mediaDescOf desc with
  | none => bad s
  | some q =>
    match agentRead s g q.input q.len with
    | (s, .error _) => bad s
    | (s, .ok (_, true)) => poisonDesc s d k x r tag
    | (s, .ok (bs, false)) =>
      let inp := BitVec.ofNat 8 r.codec :: bs
      let f := frameOfInput s r.codec inp
      let older := if q.fresh then [] else x.frames
      let fs := frameKept s inp f :: older
      let result := mediaResult tag f.index f.concealed f.shown f.status
      match agentCheck s g r.work (Nat.max 1 r.workSize) { r := true, w := true } with
      | (s, some _) => bad s
      | (s, none) =>
        if 3 ≤ f.status then descDone s d k x r older result 0
        else if r.workSize < workNeeded f then bad s
        else
          match landFrame s g x.core fs f q with
          | (s, .error _) => bad s
          | (s, .ok t) => descDone s d k x r fs result t

/-- The header of a ring, as the last of its kicks shows it. -/
def ringHeader (s : State) (d k : Nat) (x : DecodeRing) : Except FaultRec (List Byte × Bool) :=
  (agentRead s { ringAgent d k x 0 with release := (x.kicks.getLastD (0, {})).2 } x.header 64).2

/-- A ring has something for its decoder: kicks that are not used up, and a descriptor they made ready, or a header that shows none. -/
def ringReady (s : State) (d k : Nat) (x : DecodeRing) : Bool :=
  !x.kicks.isEmpty && decide ((resultsOf (fifoAt s d (decoderFifo k)) x.ctx).length < 256) &&
    (x.mark ||
      match ringHeader s d k x with
      | .ok (bs, false) => mediaRingBad bs || some (mediaRingOf bs).head != x.tail
      | .ok (_, true) => true
      | .error _ => true)

/-- DECODE_FRAME (R169, R170): decoder `n` decodes the next descriptor, across its rings in round robin. One that cannot be read has no
known frame tag; its result carries tag 0: DESIGN CHOICE, log entry 56. -/
def execEvDecodeFrame (s : State) : Host.Outcome State Fault Refusal :=
  let d := s.arg.die.toNat
  let k := s.arg.n % 4
  let giveUp := fun (x : DecodeRing) => postResult (dropRing s d k x) d (decoderFifo k) x.ctx badKick 0 none
  match (look [] (dieAt s d).rings k).find? (ringReady s d k) with
  | none => .next s
  | some x =>
    if x.mark then .next (poisonRing s d k x)
    else
      match ringHeader s d k x with
      | .error _ => .next (giveUp x)
      | .ok (_, true) => .next (poisonRing s d k x)
      | .ok (bs, false) =>
        let r := mediaRingOf bs
        if mediaRingBad bs then .next (giveUp x)
        else
          match agentRead s (ringAgent d k x r.head) (r.descs + 128 * (r.head % r.entries)) 128 with
          | (s, .error _) => .next (descDone s d k x r x.frames (mediaResult 0 0 0 false 5) 0)
          | (s, .ok (_, true)) => .next (poisonDesc s d k x r 0)
          | (s, .ok (desc, false)) => .next (decodeOne s d k x r desc)

end Sys2Proof.Machine
end

