-- ==== Sys2Proof/Machine/Dispatch.lean ====
section
/-!
DEFINITION. What each instruction and event does: one arm per constructor, each a call of its meaning.
-/
namespace Sys2Proof.Machine

def exec (i : Instr) (s : State) : Host.Outcome State Fault Refusal :=
  match i with
  | .nop h => Sys2Proof.Machine.execNop h s
  | .add h d a b => Sys2Proof.Machine.execAdd h d a b s
  | .addLong h d a x => Sys2Proof.Machine.execAddLong h d a x s
  | .sub h d a b => Sys2Proof.Machine.execSub h d a b s
  | .subLong h d a x => Sys2Proof.Machine.execSubLong h d a x s
  | .mul h d a b => Sys2Proof.Machine.execMul h d a b s
  | .mulLong h d a x => Sys2Proof.Machine.execMulLong h d a x s
  | .mulhS h d a b => Sys2Proof.Machine.execMulhS h d a b s
  | .mulhSLong h d a x => Sys2Proof.Machine.execMulhSLong h d a x s
  | .mulhZ h d a b => Sys2Proof.Machine.execMulhZ h d a b s
  | .mulhZLong h d a x => Sys2Proof.Machine.execMulhZLong h d a x s
  | .divS h d a b => Sys2Proof.Machine.execDivS h d a b s
  | .divSLong h d a x => Sys2Proof.Machine.execDivSLong h d a x s
  | .divZ h d a b => Sys2Proof.Machine.execDivZ h d a b s
  | .divZLong h d a x => Sys2Proof.Machine.execDivZLong h d a x s
  | .remS h d a b => Sys2Proof.Machine.execRemS h d a b s
  | .remSLong h d a x => Sys2Proof.Machine.execRemSLong h d a x s
  | .remZ h d a b => Sys2Proof.Machine.execRemZ h d a b s
  | .remZLong h d a x => Sys2Proof.Machine.execRemZLong h d a x s
  | .and64 h d a b => Sys2Proof.Machine.execAnd64 h d a b s
  | .and64Long h d a x => Sys2Proof.Machine.execAnd64Long h d a x s
  | .or64 h d a b => Sys2Proof.Machine.execOr64 h d a b s
  | .or64Long h d a x => Sys2Proof.Machine.execOr64Long h d a x s
  | .xor64 h d a b => Sys2Proof.Machine.execXor64 h d a b s
  | .xor64Long h d a x => Sys2Proof.Machine.execXor64Long h d a x s
  | .shl h d a b => Sys2Proof.Machine.execShl h d a b s
  | .shlLong h d a x => Sys2Proof.Machine.execShlLong h d a x s
  | .shrS h d a b => Sys2Proof.Machine.execShrS h d a b s
  | .shrSLong h d a x => Sys2Proof.Machine.execShrSLong h d a x s
  | .shrZ h d a b => Sys2Proof.Machine.execShrZ h d a b s
  | .shrZLong h d a x => Sys2Proof.Machine.execShrZLong h d a x s
  | .rot h d a b => Sys2Proof.Machine.execRot h d a b s
  | .rotLong h d a x => Sys2Proof.Machine.execRotLong h d a x s
  | .minS h d a b => Sys2Proof.Machine.execMinS h d a b s
  | .minSLong h d a x => Sys2Proof.Machine.execMinSLong h d a x s
  | .minZ h d a b => Sys2Proof.Machine.execMinZ h d a b s
  | .minZLong h d a x => Sys2Proof.Machine.execMinZLong h d a x s
  | .maxS h d a b => Sys2Proof.Machine.execMaxS h d a b s
  | .maxSLong h d a x => Sys2Proof.Machine.execMaxSLong h d a x s
  | .maxZ h d a b => Sys2Proof.Machine.execMaxZ h d a b s
  | .maxZLong h d a x => Sys2Proof.Machine.execMaxZLong h d a x s
  | .clz h d a => Sys2Proof.Machine.execClz h d a s
  | .clzLong h d a => Sys2Proof.Machine.execClzLong h d a s
  | .popc h d a => Sys2Proof.Machine.execPopc h d a s
  | .popcLong h d a => Sys2Proof.Machine.execPopcLong h d a s
  | .extS h d a x => Sys2Proof.Machine.execExtS h d a x s
  | .extZ h d a x => Sys2Proof.Machine.execExtZ h d a x s
  | .ins h d a x => Sys2Proof.Machine.execIns h d a x s
  | .seq h d a b => Sys2Proof.Machine.execSeq h d a b s
  | .seqLong h d a x => Sys2Proof.Machine.execSeqLong h d a x s
  | .sltS h d a b => Sys2Proof.Machine.execSltS h d a b s
  | .sltSLong h d a x => Sys2Proof.Machine.execSltSLong h d a x s
  | .sltZ h d a b => Sys2Proof.Machine.execSltZ h d a b s
  | .sltZLong h d a x => Sys2Proof.Machine.execSltZLong h d a x s
  | .sel h d a b => Sys2Proof.Machine.execSel h d a b s
  | .selLong h d a x => Sys2Proof.Machine.execSelLong h d a x s
  | .li h d imm => Sys2Proof.Machine.execLi h d imm s
  | .liLong h d shift imm => Sys2Proof.Machine.execLiLong h d shift imm s
  | .mov h d a m => Sys2Proof.Machine.execMov h d a m s
  | .movLong h d a m wide => Sys2Proof.Machine.execMovLong h d a m wide s
  | .bEq h b a dec lv t => Sys2Proof.Machine.execBEq h b a dec lv t s
  | .bNe h b a dec lv t => Sys2Proof.Machine.execBNe h b a dec lv t s
  | .bLtS h b a dec lv t => Sys2Proof.Machine.execBLtS h b a dec lv t s
  | .bLtZ h b a dec lv t => Sys2Proof.Machine.execBLtZ h b a dec lv t s
  | .bGeS h b a dec lv t => Sys2Proof.Machine.execBGeS h b a dec lv t s
  | .bGeZ h b a dec lv t => Sys2Proof.Machine.execBGeZ h b a dec lv t s
  | .jmp h t => Sys2Proof.Machine.execJmp h t s
  | .jl h d t => Sys2Proof.Machine.execJl h d t s
  | .jr h a dec => Sys2Proof.Machine.execJr h a dec s
  | .loop h dist n cnt => Sys2Proof.Machine.execLoop h dist n cnt s
  | .syncpc h => Sys2Proof.Machine.execSyncpc h s
  | .syncpcLong h => Sys2Proof.Machine.execSyncpcLong h s
  | .syncpcD h mask => Sys2Proof.Machine.execSyncpcD h mask s
  | .syncpcDLong h mask => Sys2Proof.Machine.execSyncpcDLong h mask s
  | .tpop h q => Sys2Proof.Machine.execTpop h q s
  | .tpsh h q => Sys2Proof.Machine.execTpsh h q s
  | .qcancel h q => Sys2Proof.Machine.execQcancel h q s
  | .slack h x => Sys2Proof.Machine.execSlack h x s
  | .slackW h x => Sys2Proof.Machine.execSlackW h x s
  | .trap h imm => Sys2Proof.Machine.execTrap h imm s
  | .syscall h imm => Sys2Proof.Machine.execSyscall h imm s
  | .eret h => Sys2Proof.Machine.execEret h s
  | .sysr h d n => Sys2Proof.Machine.execSysr h d n s
  | .sysw h a n => Sys2Proof.Machine.execSysw h a n s
  | .ldovt h a => Sys2Proof.Machine.execLdovt h a s
  | .halt h => Sys2Proof.Machine.execHalt h s
  | .ld h d a t x => Sys2Proof.Machine.execLd h d a t x s
  | .ldLn h d a t x => Sys2Proof.Machine.execLdLn h d a t x s
  | .st h d a t x => Sys2Proof.Machine.execSt h d a t x s
  | .stLn h d a t x => Sys2Proof.Machine.execStLn h d a t x s
  | .mld h d a t x => Sys2Proof.Machine.execMld h d a t x s
  | .mldLn h d a t x => Sys2Proof.Machine.execMldLn h d a t x s
  | .mst h d a t x => Sys2Proof.Machine.execMst h d a t x s
  | .mstLn h d a t x => Sys2Proof.Machine.execMstLn h d a t x s
  | .probe h d a x => Sys2Proof.Machine.execProbe h d a x s
  | .probeLn h d a x => Sys2Proof.Machine.execProbeLn h d a x s
  | .copy h d a x => Sys2Proof.Machine.execCopy h d a x s
  | .copyLn h d a x => Sys2Proof.Machine.execCopyLn h d a x s
  | .pushe h a x => Sys2Proof.Machine.execPushe h a x s
  | .pusheT h d a x => Sys2Proof.Machine.execPusheT h d a x s
  | .pope h d x => Sys2Proof.Machine.execPope h d x s
  | .popeT h d a x => Sys2Proof.Machine.execPopeT h d a x s
  | .settle h code => Sys2Proof.Machine.execSettle h code s
  | .settleLong h code => Sys2Proof.Machine.execSettleLong h code s
  | .promote h a x => Sys2Proof.Machine.execPromote h a x s
  | .promoteH h a x => Sys2Proof.Machine.execPromoteH h a x s
  | .demote h a x => Sys2Proof.Machine.execDemote h a x s
  | .relCore h => Sys2Proof.Machine.execRelCore h s
  | .relCoreLong h => Sys2Proof.Machine.execRelCoreLong h s
  | .relClu h => Sys2Proof.Machine.execRelClu h s
  | .relCluLong h => Sys2Proof.Machine.execRelCluLong h s
  | .relDie h => Sys2Proof.Machine.execRelDie h s
  | .relDieLong h => Sys2Proof.Machine.execRelDieLong h s
  | .relPkg h => Sys2Proof.Machine.execRelPkg h s
  | .relPkgLong h => Sys2Proof.Machine.execRelPkgLong h s
  | .relSys h => Sys2Proof.Machine.execRelSys h s
  | .relSysLong h => Sys2Proof.Machine.execRelSysLong h s
  | .acqCore h a => Sys2Proof.Machine.execAcqCore h a s
  | .acqCoreLong h a => Sys2Proof.Machine.execAcqCoreLong h a s
  | .acqClu h a => Sys2Proof.Machine.execAcqClu h a s
  | .acqCluLong h a => Sys2Proof.Machine.execAcqCluLong h a s
  | .acqDie h a => Sys2Proof.Machine.execAcqDie h a s
  | .acqDieLong h a => Sys2Proof.Machine.execAcqDieLong h a s
  | .acqPkg h a => Sys2Proof.Machine.execAcqPkg h a s
  | .acqPkgLong h a => Sys2Proof.Machine.execAcqPkgLong h a s
  | .acqSys h a => Sys2Proof.Machine.execAcqSys h a s
  | .acqSysLong h a => Sys2Proof.Machine.execAcqSysLong h a s
  | .fenceCore h => Sys2Proof.Machine.execFenceCore h s
  | .fenceCoreLong h => Sys2Proof.Machine.execFenceCoreLong h s
  | .fenceClu h => Sys2Proof.Machine.execFenceClu h s
  | .fenceCluLong h => Sys2Proof.Machine.execFenceCluLong h s
  | .fenceDie h => Sys2Proof.Machine.execFenceDie h s
  | .fenceDieLong h => Sys2Proof.Machine.execFenceDieLong h s
  | .fencePkg h => Sys2Proof.Machine.execFencePkg h s
  | .fencePkgLong h => Sys2Proof.Machine.execFencePkgLong h s
  | .fenceSys h => Sys2Proof.Machine.execFenceSys h s
  | .fenceSysLong h => Sys2Proof.Machine.execFenceSysLong h s
  | .aadd h sc d a t x => Sys2Proof.Machine.execAadd h sc d a t x s
  | .amin h sc d a t x => Sys2Proof.Machine.execAmin h sc d a t x s
  | .amax h sc d a t x => Sys2Proof.Machine.execAmax h sc d a t x s
  | .aor h sc d a t x => Sys2Proof.Machine.execAor h sc d a t x s
  | .aand h sc d a t x => Sys2Proof.Machine.execAand h sc d a t x s
  | .axchg h sc d a t x => Sys2Proof.Machine.execAxchg h sc d a t x s
  | .acas h sc d a t x => Sys2Proof.Machine.execAcas h sc d a t x s
  | .aaddN h sc a t x => Sys2Proof.Machine.execAaddN h sc a t x s
  | .aminN h sc a t x => Sys2Proof.Machine.execAminN h sc a t x s
  | .amaxN h sc a t x => Sys2Proof.Machine.execAmaxN h sc a t x s
  | .aorN h sc a t x => Sys2Proof.Machine.execAorN h sc a t x s
  | .aandN h sc a t x => Sys2Proof.Machine.execAandN h sc a t x s
  | .vadd h d a t x => Sys2Proof.Machine.execVadd h d a t x s
  | .vsub h d a t x => Sys2Proof.Machine.execVsub h d a t x s
  | .vmul h d a t x => Sys2Proof.Machine.execVmul h d a t x s
  | .vfma h d a t x => Sys2Proof.Machine.execVfma h d a t x s
  | .vmin h d a t x => Sys2Proof.Machine.execVmin h d a t x s
  | .vmax h d a t x => Sys2Proof.Machine.execVmax h d a t x s
  | .vabs h d a t => Sys2Proof.Machine.execVabs h d a t s
  | .vneg h d a t => Sys2Proof.Machine.execVneg h d a t s
  | .vand h d a t x => Sys2Proof.Machine.execVand h d a t x s
  | .vor h d a t x => Sys2Proof.Machine.execVor h d a t x s
  | .vxor h d a t x => Sys2Proof.Machine.execVxor h d a t x s
  | .vshl h d a t x => Sys2Proof.Machine.execVshl h d a t x s
  | .vshr h d a t x => Sys2Proof.Machine.execVshr h d a t x s
  | .vcvt h d a t t2 g => Sys2Proof.Machine.execVcvt h d a t t2 g s
  | .vpack h d a t t2 => Sys2Proof.Machine.execVpack h d a t t2 s
  | .vunpack h d a t t2 => Sys2Proof.Machine.execVunpack h d a t t2 s
  | .vcmpEq h d a t x => Sys2Proof.Machine.execVcmpEq h d a t x s
  | .vcmpNe h d a t x => Sys2Proof.Machine.execVcmpNe h d a t x s
  | .vcmpLt h d a t x => Sys2Proof.Machine.execVcmpLt h d a t x s
  | .vcmpLe h d a t x => Sys2Proof.Machine.execVcmpLe h d a t x s
  | .vsel h d a x => Sys2Proof.Machine.execVsel h d a x s
  | .vrotr h d a x => Sys2Proof.Machine.execVrotr h d a x s
  | .vrotc h d a x => Sys2Proof.Machine.execVrotc h d a x s
  | .vbcr h d a x => Sys2Proof.Machine.execVbcr h d a x s
  | .vbcc h d a x => Sys2Proof.Machine.execVbcc h d a x s
  | .vredrAdd h d a t => Sys2Proof.Machine.execVredrAdd h d a t s
  | .vredrMax h d a t => Sys2Proof.Machine.execVredrMax h d a t s
  | .vredrMin h d a t => Sys2Proof.Machine.execVredrMin h d a t s
  | .vredrAmax h d a t => Sys2Proof.Machine.execVredrAmax h d a t s
  | .vredcAdd h d a t => Sys2Proof.Machine.execVredcAdd h d a t s
  | .vredcMax h d a t => Sys2Proof.Machine.execVredcMax h d a t s
  | .vredcMin h d a t => Sys2Proof.Machine.execVredcMin h d a t s
  | .vredcAmax h d a t => Sys2Proof.Machine.execVredcAmax h d a t s
  | .vexp h d a t => Sys2Proof.Machine.execVexp h d a t s
  | .vlog h d a t => Sys2Proof.Machine.execVlog h d a t s
  | .vrcp h d a t => Sys2Proof.Machine.execVrcp h d a t s
  | .vrsq h d a t => Sys2Proof.Machine.execVrsq h d a t s
  | .vsin h d a t => Sys2Proof.Machine.execVsin h d a t s
  | .vcos h d a t => Sys2Proof.Machine.execVcos h d a t s
  | .vtanh h d a t => Sys2Proof.Machine.execVtanh h d a t s
  | .vaddSat h d a t x => Sys2Proof.Machine.execVaddSat h d a t x s
  | .vsubSat h d a t x => Sys2Proof.Machine.execVsubSat h d a t x s
  | .vmulSat h d a t x => Sys2Proof.Machine.execVmulSat h d a t x s
  | .vfmaSat h d a t x => Sys2Proof.Machine.execVfmaSat h d a t x s
  | .vabsSat h d a t => Sys2Proof.Machine.execVabsSat h d a t s
  | .vnegSat h d a t => Sys2Proof.Machine.execVnegSat h d a t s
  | .vshlSat h d a t x => Sys2Proof.Machine.execVshlSat h d a t x s
  | .wcall h a x => Sys2Proof.Machine.execWcall h a x s
  | .wstripe h a t x => Sys2Proof.Machine.execWstripe h a t x s
  | .wzero h x => Sys2Proof.Machine.execWzero h x s
  | .wdrain h d st t x => Sys2Proof.Machine.execWdrain h d st t x s
  | .lacq h x => Sys2Proof.Machine.execLacq h x s
  | .lacqT h d x => Sys2Proof.Machine.execLacqT h d x s
  | .lrel h => Sys2Proof.Machine.execLrel h s
  | .lcfg h a x => Sys2Proof.Machine.execLcfg h a x s
  | .lmm h a x => Sys2Proof.Machine.execLmm h a x s
  | .lmmA h a x => Sys2Proof.Machine.execLmmA h a x s
  | .lmmg h a x => Sys2Proof.Machine.execLmmg h a x s
  | .lmmgA h a x => Sys2Proof.Machine.execLmmgA h a x s
  | .lscore h a x => Sys2Proof.Machine.execLscore h a x s
  | .lscoreCm h a x => Sys2Proof.Machine.execLscoreCm h a x s
  | .lscoreTm h a x => Sys2Proof.Machine.execLscoreTm h a x s
  | .lpv h a x => Sys2Proof.Machine.execLpv h a x s
  | .lpvA h a x => Sys2Proof.Machine.execLpvA h a x s
  | .ldrain h d t x => Sys2Proof.Machine.execLdrain h d t x s
  | .wprep w col p => Sys2Proof.Machine.execWprep w col p s
  | .wprepa w row p => Sys2Proof.Machine.execWprepa w row p s
  | .wsum ny nx y x z => Sys2Proof.Machine.execWsum ny nx y x z s
  | .wacc x f => Sys2Proof.Machine.execWacc x f s
  | .wnacc x f => Sys2Proof.Machine.execWnacc x f s
  | .wmap x m f lit => Sys2Proof.Machine.execWmap x m f lit s
  | .wjmp j => Sys2Proof.Machine.execWjmp j s
  | .whook imm => Sys2Proof.Machine.execWhook imm s
  | .lwBias a => Sys2Proof.Machine.execLwBias a s
  | .lwPenrep a => Sys2Proof.Machine.execLwPenrep a s
  | .lwPenfrq a => Sys2Proof.Machine.execLwPenfrq a s
  | .lwPenprs a => Sys2Proof.Machine.execLwPenprs a s
  | .lwTemp a => Sys2Proof.Machine.execLwTemp a s
  | .lwClamp b a => Sys2Proof.Machine.execLwClamp b a s
  | .lwScale b a => Sys2Proof.Machine.execLwScale b a s
  | .lwTopk k => Sys2Proof.Machine.execLwTopk k s
  | .lwTopp a => Sys2Proof.Machine.execLwTopp a s
  | .lwMinp a => Sys2Proof.Machine.execLwMinp a s
  | .lwSetv x a => Sys2Proof.Machine.execLwSetv x a s
  | .lwSetvLo x a => Sys2Proof.Machine.execLwSetvLo x a s
  | .lwSkip n => Sys2Proof.Machine.execLwSkip n s
  | .lwSkipZ n a => Sys2Proof.Machine.execLwSkipZ n a s
  | .lwSkipP n a => Sys2Proof.Machine.execLwSkipP n a s
  | .lwSkipNg n => Sys2Proof.Machine.execLwSkipNg n s
  | .wend => Sys2Proof.Machine.execWend s
  | .lwEnd => Sys2Proof.Machine.execLwEnd s
  | .lwLdc => Sys2Proof.Machine.execLwLdc s
  | .lwLdb => Sys2Proof.Machine.execLwLdb s
  | .lwMaskg => Sys2Proof.Machine.execLwMaskg s
  | .lwMaskb => Sys2Proof.Machine.execLwMaskb s
  | .lwSoftmax => Sys2Proof.Machine.execLwSoftmax s
  | .lwDraw => Sys2Proof.Machine.execLwDraw s
  | .lwArgmax => Sys2Proof.Machine.execLwArgmax s
  | .evLdReturn => Sys2Proof.Machine.execEvLdReturn s
  | .evResultWrite => Sys2Proof.Machine.execEvResultWrite s
  | .evModeCrossing => Sys2Proof.Machine.execEvModeCrossing s
  | .evPrcfgWrite => Sys2Proof.Machine.execEvPrcfgWrite s
  | .evRecordSettle => Sys2Proof.Machine.execEvRecordSettle s
  | .evL2Request => Sys2Proof.Machine.execEvL2Request s
  | .evLineFill => Sys2Proof.Machine.execEvLineFill s
  | .evFilterClear => Sys2Proof.Machine.execEvFilterClear s
  | .evPageWalk => Sys2Proof.Machine.execEvPageWalk s
  | .evCodeFetchArrival => Sys2Proof.Machine.execEvCodeFetchArrival s
  | .evPromotion => Sys2Proof.Machine.execEvPromotion s
  | .evDemotion => Sys2Proof.Machine.execEvDemotion s
  | .evRowOperationsDone => Sys2Proof.Machine.execEvRowOperationsDone s
  | .evRefresh => Sys2Proof.Machine.execEvRefresh s
  | .evScrub => Sys2Proof.Machine.execEvScrub s
  | .evHeartbeat => Sys2Proof.Machine.execEvHeartbeat s
  | .evHeartbeatMissed => Sys2Proof.Machine.execEvHeartbeatMissed s
  | .evFallbackRefresh => Sys2Proof.Machine.execEvFallbackRefresh s
  | .evRefreshHandback => Sys2Proof.Machine.execEvRefreshHandback s
  | .evCopyCommand => Sys2Proof.Machine.execEvCopyCommand s
  | .evCopyTransfer => Sys2Proof.Machine.execEvCopyTransfer s
  | .evCopyComplete => Sys2Proof.Machine.execEvCopyComplete s
  | .evProbeFill => Sys2Proof.Machine.execEvProbeFill s
  | .evFillDone => Sys2Proof.Machine.execEvFillDone s
  | .evInvalidatePages => Sys2Proof.Machine.execEvInvalidatePages s
  | .evInvalidateAll => Sys2Proof.Machine.execEvInvalidateAll s
  | .evInvalidateRange => Sys2Proof.Machine.execEvInvalidateRange s
  | .evInvalidateAsn => Sys2Proof.Machine.execEvInvalidateAsn s
  | .evTlbInvalidateAll => Sys2Proof.Machine.execEvTlbInvalidateAll s
  | .evMigrate => Sys2Proof.Machine.execEvMigrate s
  | .evReleaseOldFrame => Sys2Proof.Machine.execEvReleaseOldFrame s
  | .evCompile => Sys2Proof.Machine.execEvCompile s
  | .evPatch => Sys2Proof.Machine.execEvPatch s
  | .evStripeApply => Sys2Proof.Machine.execEvStripeApply s
  | .evZeroApply => Sys2Proof.Machine.execEvZeroApply s
  | .evSlackApply => Sys2Proof.Machine.execEvSlackApply s
  | .evCallRun => Sys2Proof.Machine.execEvCallRun s
  | .evSegmentStart => Sys2Proof.Machine.execEvSegmentStart s
  | .evRunGrant => Sys2Proof.Machine.execEvRunGrant s
  | .evGroupStart => Sys2Proof.Machine.execEvGroupStart s
  | .evTileLineArrival => Sys2Proof.Machine.execEvTileLineArrival s
  | .evRunLimit => Sys2Proof.Machine.execEvRunLimit s
  | .evLeaseCommandComplete => Sys2Proof.Machine.execEvLeaseCommandComplete s
  | .evLeaveGrant => Sys2Proof.Machine.execEvLeaveGrant s
  | .evPowerThrottle => Sys2Proof.Machine.execEvPowerThrottle s
  | .evOpen => Sys2Proof.Machine.execEvOpen s
  | .evBind => Sys2Proof.Machine.execEvBind s
  | .evClose => Sys2Proof.Machine.execEvClose s
  | .evSample => Sys2Proof.Machine.execEvSample s
  | .evSampleStage2 => Sys2Proof.Machine.execEvSampleStage2 s
  | .evCluster => Sys2Proof.Machine.execEvCluster s
  | .evVerify => Sys2Proof.Machine.execEvVerify s
  | .evNote => Sys2Proof.Machine.execEvNote s
  | .evGrammarBind => Sys2Proof.Machine.execEvGrammarBind s
  | .evUnbind => Sys2Proof.Machine.execEvUnbind s
  | .evQuery => Sys2Proof.Machine.execEvQuery s
  | .evInvalidate => Sys2Proof.Machine.execEvInvalidate s
  | .evRing => Sys2Proof.Machine.execEvRing s
  | .evRsum => Sys2Proof.Machine.execEvRsum s
  | .evA2a => Sys2Proof.Machine.execEvA2a s
  | .evCollectiveReceive => Sys2Proof.Machine.execEvCollectiveReceive s
  | .evKick => Sys2Proof.Machine.execEvKick s
  | .evDecodeFrame => Sys2Proof.Machine.execEvDecodeFrame s
  | .evSpawn => Sys2Proof.Machine.execEvSpawn s
  | .evDoorbell => Sys2Proof.Machine.execEvDoorbell s
  | .evLaunchAdmit => Sys2Proof.Machine.execEvLaunchAdmit s
  | .evMarkerComplete => Sys2Proof.Machine.execEvMarkerComplete s
  | .evTaskPlace => Sys2Proof.Machine.execEvTaskPlace s
  | .evTaskStart => Sys2Proof.Machine.execEvTaskStart s
  | .evTaskComplete => Sys2Proof.Machine.execEvTaskComplete s
  | .evTaskFault => Sys2Proof.Machine.execEvTaskFault s
  | .evEventPost => Sys2Proof.Machine.execEvEventPost s
  | .evAging => Sys2Proof.Machine.execEvAging s
  | .evTrapEntry => Sys2Proof.Machine.execEvTrapEntry s
  | .evPoisonRollback => Sys2Proof.Machine.execEvPoisonRollback s
  | .evSramError => Sys2Proof.Machine.execEvSramError s
  | .evFatalError => Sys2Proof.Machine.execEvFatalError s
  | .evImageLoad => Sys2Proof.Machine.execEvImageLoad s
  | .evContextExchange => Sys2Proof.Machine.execEvContextExchange s
  | .evImageDrain => Sys2Proof.Machine.execEvImageDrain s
  | .evCreate => Sys2Proof.Machine.execEvCreate s
  | .evSetvec => Sys2Proof.Machine.execEvSetvec s
  | .evDestroy => Sys2Proof.Machine.execEvDestroy s
  | .evQueue => Sys2Proof.Machine.execEvQueue s
  | .evPreempt => Sys2Proof.Machine.execEvPreempt s
  | .evDump => Sys2Proof.Machine.execEvDump s
  | .evFrames => Sys2Proof.Machine.execEvFrames s
  | .evLend => Sys2Proof.Machine.execEvLend s
  | .evPower => Sys2Proof.Machine.execEvPower s
  | .evAttest => Sys2Proof.Machine.execEvAttest s
  | .evFirmware => Sys2Proof.Machine.execEvFirmware s
  | .evManagementRegisterWrite => Sys2Proof.Machine.execEvManagementRegisterWrite s
  | .evHostRead => Sys2Proof.Machine.execEvHostRead s
  | .evHostWrite => Sys2Proof.Machine.execEvHostWrite s
  | .evLentAccess => Sys2Proof.Machine.execEvLentAccess s
  | .evFlitReceive => Sys2Proof.Machine.execEvFlitReceive s
  | .evPortDown => Sys2Proof.Machine.execEvPortDown s
  | .evPortUp => Sys2Proof.Machine.execEvPortUp s
  | .evReset => Sys2Proof.Machine.execEvReset s
  | .evStarvedClk => Sys2Proof.Machine.execEvStarvedClk s
  | .evProbeLag => Sys2Proof.Machine.execEvProbeLag s
  | .evPowerWithinBudget => Sys2Proof.Machine.execEvPowerWithinBudget s
  | .evOrderingComplete => Sys2Proof.Machine.execEvOrderingComplete s

end Sys2Proof.Machine
end

