-- ==== Sys2Proof/Machine/Step.lean ====
section
/-!
DEFINITION. One step of the package: the part whose turn it is moves once, and the schedule says who is next; and the
placing of one instruction where the next step fetches.
-/
namespace Sys2Proof.Machine

/-- The next turn, drawn from the schedule, and what the check bits of a DRAM read in it would find. -/
def nextTurn (s : State) : State :=
  { s with tick := s.tick + 1, turn := Config.schedule s.tick, found := Config.dramCheck s.tick, walkWait := none }

/-- The step from `s` has been taken; one of which a page walk finds no walker is taken again later (R138). -/
def andNextTurn (s : State) : Host.Outcome State Fault Refusal → Host.Outcome State Fault Refusal
  | .next t => .next (nextTurn (keepWaiting s t))
  | .fault r => .fault r
  | .refused r => .refused r

/-- Run what a part of the machine has arrived at. -/
def runArrival : Arrival → Host.Outcome State Fault Refusal
  | .stay s => .next s
  | .run s i => exec i s

/-- Engine `e` of core `c` moves. -/
def engineTurn (s : State) (c : Nat) (e : Eng) : Host.Outcome State Fault Refusal := runArrival (arrive { focus s c with eng := e } e)

/-- A test of the state that a turn of engine `e` of core `c` would leave. -/
def turnWould (p : State → Bool) (s : State) (c : Nat) (e : Eng) : Bool :=
  match engineTurn s c e with
  | .next t => p t
  | .fault _ | .refused _ => false

/-- Engine `e` of core `c` would raise a fault now. -/
def faultsNow (s : State) (c : Nat) (e : Eng) : Bool := turnWould (fun t => (coreAt t c).raised != (coreAt s c).raised) s c e

/-- Engine `e` of core `c` would consume poison now, and its task be taken back. -/
def poisonsNow (s : State) (c : Nat) (e : Eng) : Bool := turnWould (fun t => (coreAt t c).rollback && !(coreAt s c).rollback) s c e

/-- The engine that moves in a turn of engine `e`. Of engines that raise faults in one clk the trap reports the first in
the order C, A, V, W, and the others' instructions are not performed (R414); where one consumes poison in that clk, the rollback
comes instead (R430). -/
def whoMoves (s : State) (c : Nat) (e : Eng) : Eng :=
  if faultsNow s c e then ((allEngs.find? (poisonsNow s c)).orElse (fun _ => allEngs.find? (faultsNow s c))).getD e else e

/-- The core as that engine finds it: where it raises a fault, the others have passed what they pass in the clk of the fault, and
their counters are saved there (R361, R416). -/
def whenMoves (s : State) (c : Nat) (e : Eng) : State := if faultsNow s c e then skipAll (focus s c) else s

/-- Engine `e` of the current core waits, as the decode slot sees it at the end of a clk (R366): it has stopped, or it misses its
next instruction, or it could issue and its turn would neither issue nor pass anything. -/
def waitsNow (s : State) (e : Eng) : Bool :=
  let x := s.core.eng e
  x.halted || x.atSync || x.atCross ||
    (engineReady s.core e && match queueAtPc x with
      | [] => (match fetchInstr s e x.pc with | .wait _ => true | .bad _ | .got _ => false)
      | _ :: _ => turnWould (fun t =>
          let y := (coreAt t s.cur).eng e
          y.pc == x.pc && y.seq == x.seq && y.walk == x.walk && y.begun == x.begun) s s.cur e)

/-- The part whose turn it is moves. A package stopped by a fatal error runs nothing but what R434 leaves it. -/
def runTurn (s : State) : Host.Outcome State Fault Refusal :=
  match s.turn with
  | .idle => .next s
  | .clk => .next (passClk waitsNow s)
  | .engine c e => if s.fatal.isSome then .next s else engineTurn (whenMoves s c.toNat e) c.toNat (whoMoves s c.toNat e)
  | .stream c => if s.fatal.isSome then .next s else runArrival (arriveStream (focus s c.toNat))
  | .sampler d =>
    if s.fatal.isSome then .next s else runArrival (arriveSampler { s with arg := { s.arg with die := d } } d.toNat)
  | .event i a => if s.fatal.isSome && !runsWhenFatal i a s then .next s else exec i { s with arg := a }

def step (s : State) : Host.Outcome State Fault Refusal := andNextTurn s (runTurn s)

/-- The instruction whose bits are `w` stands where the next step fetches: in the page at an engine's program counter, in
the code buffer at the stream program counter, or in the program of the sampler's run (log entry 14). -/
def State.withFetchWord (s : State) (nbits w : Nat) : State :=
  let w := w % 2 ^ nbits
  match wordKind w with
  | some .directive => placeDirective s w
  | some .logit => placeLogit s w
  | some .main | none => placeMain s w

end Sys2Proof.Machine
end

