-- ==== Sys2Proof/Safety.lean ====
section
/-!
DEFINITION. The terms in which statements about the machine are made: an outcome that is a next state, an instruction that
issues, what issuing leaves of the walk, the tokens and everything else, and the invariants of the package.
-/
namespace Sys2Proof.Machine

/-- The outcome is a next state, and `P` holds of it. -/
def Completes (o : Host.Outcome State Fault Refusal) (P : State → Prop) : Prop := ∃ t, o = .next t ∧ P t

/-- An instruction with header `h` that reads `srcs` issues at `s`, and `p` is the state with its pops taken: the engine may
issue, nothing is owed, tokens stand in its pop set and places are free in its push set (R368), nothing it reads is still
awaited once its tokens are popped (R382, R205) or poisoned (R432), and its guard lets it execute (R55). -/
structure Issues (s : State) (h : Hdr) (srcs : List Loc) (p : State) : Prop where
  ready : engineReady s.core h.eng = true
  noneOwed : (s.core.eng h.eng).owed = []
  tokens : ((s.core.eng h.eng).noPop || popsReady s.core s.clk h.eng h.pop) = true
  room : placesFree s.core h.eng h.push = true
  guardIn : mustWait p.core h.eng [.g h.guard.toNat] = false
  pops : popped s h = (p, none)
  guardClean : anyPoison p.core [.g h.guard.toNat] = false
  executes : squashed p h = false
  srcsIn : mustWait p.core h.eng srcs = false
  srcsClean : anyPoison p.core srcs = false

/-- Byte address of the instruction after one of `len` parcels at the engine's program counter. -/
def nextPc (s : State) (h : Hdr) (len : Nat) : Nat := (s.core.eng h.eng).pc + 4 * len

/-- The walk of the executing engine has gone on to `pc`: its program counter, its next issue after the gap the header asks
for, its place in the walk; the three other engines stand where they stood. -/
structure WalkedTo (p t : State) (h : Hdr) (ck pc : Nat) : Prop where
  here : (t.core.eng h.eng).pc = pc
  gap : (t.core.eng h.eng).nextIssue = ck + 1 + h.gap.toNat
  place : (t.core.eng h.eng).seq = (p.core.eng h.eng).seq + 1
  counters : (t.core.eng h.eng).lc = (p.core.eng h.eng).lc
  others : ∀ e, e ≠ h.eng → t.core.eng e = p.core.eng e

/-- The queues from engine `e` to the engines of a push set. -/
def pushQueues (e : Eng) (m : BitVec 4) : List Nat := (maskEngs m).map (queueCode e)

/-- A push set does not name its own engine (R53). -/
def namesOthers (h : Hdr) : Prop := h.eng ∉ maskEngs h.push

/-- One token has been pushed into each queue of the push set, and no other queue has changed (R368). -/
def Pushed (p t : State) (h : Hdr) : Prop :=
  namesOthers h → ∀ k, queueAt t.core k =
    if k ∈ pushQueues h.eng h.push then { queueAt p.core k with toks := (queueAt p.core k).toks ++ [ownToken p h.eng] }
    else queueAt p.core k

/-- One place has been reserved in each queue of the push set: the tokens come with the result (R368). -/
def Reserved (p t : State) (h : Hdr) : Prop :=
  namesOthers h → ∀ k, queueAt t.core k =
    if k ∈ pushQueues h.eng h.push then { queueAt p.core k with reserved := (queueAt p.core k).reserved + 1 }
    else queueAt p.core k

/-- The entry by which the tokens of an instruction that writes its result 1 clk after the issue come in that clk (R222). -/
def tokensLater (p : State) (h : Hdr) : List Landing := if h.push == 0 then [] else [tokensNext p.core h]

/-- The tokens come 1 clk later: their places are reserved, and nothing else joins the results in flight. -/
def PushedSoon (p t : State) (h : Hdr) : Prop := Reserved p t h ∧ t.core.landing = p.core.landing ++ tokensLater p h

/-- Settled memory is byte for byte the same. -/
def SameMemory (p t : State) : Prop := ∀ a, memByte t a = memByte p a

/-- Every general register but `d` keeps its value and its poison mark. -/
def OtherRegsSame (p t : State) (d : Nat) : Prop :=
  ∀ r, r ≠ d → look 0 t.core.g.cur r = look 0 p.core.g.cur r ∧ look false t.core.g.poison r = look false p.core.g.poison r

/-- Between `p` and `t` nothing has changed but what every issued instruction changes: the engines' walks, the token queues,
whether the decode slot is to pass on. In particular memory, every register and every other core are the same. -/
def OnlyWalked (p t : State) : Prop :=
  t = { p with core := { p.core with engC := t.core.engC, engA := t.core.engA, engV := t.core.engV, engW := t.core.engW,
                                     tokens := t.core.tokens, switched := t.core.switched } }

/-- As `OnlyWalked`, with the results in flight. -/
def OnlyLanding (p t : State) : Prop := OnlyWalked { p with core := { p.core with landing := t.core.landing } } t

/-- As `OnlyWalked`, with the general registers and the results in flight to them. -/
def OnlyRegs (p t : State) : Prop :=
  OnlyWalked { p with core := { p.core with g := t.core.g, gTurn := t.core.gTurn, nextId := t.core.nextId, landing := t.core.landing } } t

/-- General register `d` has received `v`, which its engine reads at once; a write to g0 is discarded (R203, R204). `ls` has joined
the results in flight. -/
structure RegWritten (p t : State) (h : Hdr) (d : Nat) (v : Word) (ls : List Landing) : Prop where
  value : look 0 t.core.g.cur d = if d = 0 then look 0 p.core.g.cur 0 else v
  read : d ≠ 0 → readG t h.eng d = v
  zero : readG t h.eng 0 = 0
  others : OtherRegsSame p t d
  landing : t.core.landing = p.core.landing.map (dropTargets h.eng (p.core.eng h.eng).seq [.g d]) ++ ls

/-- A directive of the weight stream. -/
def isDirective : Instr → Bool
  | .wprep _ _ _ | .wprepa _ _ _ | .wsum _ _ _ _ _ | .wacc _ _ | .wnacc _ _ | .wmap _ _ _ _ | .wjmp _ | .wend | .whook _ => true
  | _ => false

/-- A word of a logit program. -/
def isLogitWord : Instr → Bool
  | .lwEnd | .lwLdc | .lwLdb | .lwBias _ | .lwPenrep _ | .lwPenfrq _ | .lwPenprs _ | .lwTemp _ | .lwClamp _ _ | .lwScale _ _ | .lwMaskg
  | .lwMaskb | .lwTopk _ | .lwTopp _ | .lwMinp _ | .lwSoftmax | .lwDraw | .lwArgmax | .lwSetv _ _ | .lwSetvLo _ _ | .lwSkip _
  | .lwSkipZ _ _ | .lwSkipP _ _ | .lwSkipNg _ => true
  | _ => false

end Sys2Proof.Machine
end

