-- ==== Sys2Proof/Certificates/Slice0/Obligations.lean ====
section
/-!
DEFINITION. The statements about the package, from the numbered rules of the manual. A statement made of several parts
is their conjunction; the parts stand before it under names of their own.
-/
open Sys2Proof Sys2Proof.Machine

/-! ### Scalar instructions (R203 to R222) -/

/-- The state right after an instruction that writes general register `d`: the walk has gone on past its `len` parcels, its tokens
come in the clk of the write, the next one, `d` holds `v`, and nothing else has changed. -/
structure Sys2Proof.Machine.WroteReg (s p t : State) (h : Hdr) (len d : Nat) (v : Word) : Prop where
  walk : WalkedTo p t h p.core.ck (nextPc s h len)
  tokens : Reserved p t h
  reg : RegWritten p t h d v (tokensLater p h)
  memory : SameMemory p t
  rest : OnlyRegs p t

/-- R216 for the 32-bit forms, whose operand is the sign-extended immediate `b`: each instruction completes in one clk with
the value the rule's table gives, a shift reading bits 5:0 of its amount; g0 discards it. -/
def Sys2Proof.Machine.ScalarShortForms : Prop :=
  ∀ (h : Hdr) (d a : Reg) (b : BitVec 4) (s p : State), Issues s h [.g a.toNat] p →
    outranked p.core h.eng (p.core.ck + 1) d.toNat = false →
    let x : Word := readG p h.eng a.toNat
    let y : Word := b.signExtend 64
    let n : Nat := y.toNat % 64
    ∀ r ∈ ([(.add h d a b, x + y), (.sub h d a b, x - y), (.and64 h d a b, x &&& y), (.or64 h d a b, x ||| y),
        (.xor64 h d a b, x ^^^ y), (.shl h d a b, x <<< n), (.shrS h d a b, x.sshiftRight n), (.shrZ h d a b, x >>> n),
        (.rot h d a b, (x <<< n) ||| (x >>> (64 - n))), (.minS h d a b, if x.slt y then x else y), (.minZ h d a b, if x.ult y then x else y),
        (.maxS h d a b, if x.slt y then y else x), (.maxZ h d a b, if x.ult y then y else x), (.seq h d a b, if x = y then 1 else 0),
        (.sltS h d a b, if x.slt y then 1 else 0), (.sltZ h d a b, if x.ult y then 1 else 0)] : List (Instr × Word)),
      Completes (exec r.1 s) (fun t => WroteReg s p t h 1 d.toNat r.2)

/-- R216 for the 64-bit and 96-bit forms: the operand is g[src2] or the sign-extended immediate or literal. -/
def Sys2Proof.Machine.ScalarLongForms : Prop :=
  ∀ (h : Hdr) (d a : Reg) (o : Src2) (s p : State), Issues s h (.g a.toNat :: src2Locs o) p →
    outranked p.core h.eng (p.core.ck + 1) d.toNat = false →
    let x : Word := readG p h.eng a.toNat
    let y : Word := match o with | .reg r => readG p h.eng r.toNat | .imm i => i.signExtend 64 | .lit l => l.signExtend 64
    let len : Nat := match o with | .reg _ | .imm _ => 2 | .lit _ => 3
    let n : Nat := y.toNat % 64
    ∀ r ∈ ([(.addLong h d a o, x + y), (.subLong h d a o, x - y), (.and64Long h d a o, x &&& y), (.or64Long h d a o, x ||| y),
        (.xor64Long h d a o, x ^^^ y), (.shlLong h d a o, x <<< n), (.shrSLong h d a o, x.sshiftRight n), (.shrZLong h d a o, x >>> n),
        (.rotLong h d a o, (x <<< n) ||| (x >>> (64 - n))), (.minSLong h d a o, if x.slt y then x else y),
        (.minZLong h d a o, if x.ult y then x else y), (.maxSLong h d a o, if x.slt y then y else x),
        (.maxZLong h d a o, if x.ult y then y else x), (.seqLong h d a o, if x = y then 1 else 0),
        (.sltSLong h d a o, if x.slt y then 1 else 0), (.sltZLong h d a o, if x.ult y then 1 else 0)] : List (Instr × Word)),
      Completes (exec r.1 s) (fun t => WroteReg s p t h len d.toNat r.2)

/-- The number of zero bits above the highest set bit (R218), by its two bounds. -/
def Sys2Proof.Machine.LeadingZeros (x : Word) (n : Nat) : Prop := (x = 0 → n = 64) ∧ (x ≠ 0 → 2 ^ (63 - n) ≤ x.toNat ∧ x.toNat < 2 ^ (64 - n) ∧ n < 64)

/-- R218 and R220 and SEL of R216: CLZ and POPC in both forms, LI in all three, SEL with its condition read before it writes. -/
def Sys2Proof.Machine.CountsConstantsSelections : Prop :=
  ∀ (h : Hdr) (d a : Reg) (s p : State), outranked p.core h.eng (p.core.ck + 1) d.toNat = false →
    (Issues s h [.g a.toNat] p →
      let x : Word := readG p h.eng a.toNat
      (∀ r ∈ ([(.clz h d a, 1), (.clzLong h d a, 2)] : List (Instr × Nat)),
        Completes (exec r.1 s) (fun t => ∃ n, LeadingZeros x n ∧ WroteReg s p t h r.2 d.toNat (BitVec.ofNat 64 n))) ∧
      (∀ r ∈ ([(.popc h d a, 1), (.popcLong h d a, 2)] : List (Instr × Nat)),
        Completes (exec r.1 s) (fun t => WroteReg s p t h r.2 d.toNat (BitVec.ofNat 64 ((List.finRange 64).countP (fun i => x.getLsbD i)))))) ∧
    (Issues s h [] p →
      (∀ i : BitVec 10, Completes (exec (.li h d i) s) (fun t => WroteReg s p t h 1 d.toNat (i.signExtend 64))) ∧
      (∀ (sh : BitVec 6) (i : BitVec 14), Completes (exec (.liLong h d sh (.imm i)) s)
        (fun t => WroteReg s p t h 2 d.toNat (i.signExtend 64 <<< sh.toNat))) ∧
      (∀ (sh : BitVec 6) (l : BitVec 32), Completes (exec (.liLong h d sh (.lit l)) s)
        (fun t => WroteReg s p t h 3 d.toNat (l.signExtend 64 <<< sh.toNat)))) ∧
    (∀ b : BitVec 4, Issues s h [.g d.toNat, .g a.toNat] p →
      Completes (exec (.sel h d a b) s) (fun t => WroteReg s p t h 1 d.toNat
        (if readG p h.eng d.toNat ≠ 0 then readG p h.eng a.toNat else b.signExtend 64))) ∧
    (∀ o : Src2, Issues s h (.g d.toNat :: .g a.toNat :: src2Locs o) p →
      Completes (exec (.selLong h d a o) s) (fun t => WroteReg s p t h (src2Len o) d.toNat
        (if readG p h.eng d.toNat ≠ 0 then readG p h.eng a.toNat else src2S p h.eng o)))

/-- R219: the field of EXT.s, EXT.z and INS starts at bit 5:0 of the field word, is bits 11:6 plus one long and is cut at bit 63.
EXT.z writes it, EXT.s copies its highest bit upwards, INS puts the low bits of ga in its place in the old gd. -/
def Sys2Proof.Machine.BitFieldForms : Prop :=
  ∀ (h : Hdr) (d a : Reg) (o : Src2) (s p : State), outranked p.core h.eng (p.core.ck + 1) d.toNat = false →
    let x : Word := readG p h.eng a.toNat
    let w : Word := match o with | .reg r => readG p h.eng r.toNat | .imm i => i.setWidth 64 | .lit l => l.setWidth 64
    let pos : Nat := w.toNat % 64
    let n : Nat := min (w.toNat / 64 % 64 + 1) (64 - pos)
    (Issues s h (.g a.toNat :: src2Locs o) p →
      Completes (exec (.extZ h d a o) s) (fun t => ∃ v, WroteReg s p t h (src2Len o) d.toNat v ∧
        ∀ k, k < 64 → v.getLsbD k = (decide (k < n) && x.getLsbD (pos + k))) ∧
      Completes (exec (.extS h d a o) s) (fun t => ∃ v, WroteReg s p t h (src2Len o) d.toNat v ∧
        ∀ k, k < 64 → v.getLsbD k = x.getLsbD (pos + min k (n - 1)))) ∧
    (Issues s h (.g d.toNat :: .g a.toNat :: src2Locs o) p →
      Completes (exec (.ins h d a o) s) (fun t => ∃ v, WroteReg s p t h (src2Len o) d.toNat v ∧
        ∀ k, k < 64 → v.getLsbD k = if pos ≤ k ∧ k < pos + n then x.getLsbD (k - pos) else (readG p h.eng d.toNat).getLsbD k))

/-- A result is on its way: it lands in core clk `due` in register `d`, discarded for g0 (R203), and pushes the tokens the
instruction has reserved; until then every register reads as it did, and nothing else has changed. -/
structure Sys2Proof.Machine.SentReg (s p t : State) (h : Hdr) (len d due : Nat) (board : Bool) (v : Word) : Prop where
  walk : WalkedTo p t h p.core.ck (nextPc s h len)
  tokens : Reserved p t h
  landing : t.core.landing = p.core.landing ++
    [{ due := some due, eng := h.eng, seq := (p.core.eng h.eng).seq, scoreboard := board,
       act := .write (if d = 0 then [] else [{ loc := .g d, val := v }]), push := h.push }]
  memory : SameMemory p t
  rest : OnlyLanding p t

/-- R216 and R222 for MUL, MULH.s and MULH.z: the result lands three clk after the issue, when its tokens are pushed. -/
def Sys2Proof.Machine.ProductsLandAfterThree : Prop :=
  ∀ (h : Hdr) (d a : Reg) (s p : State),
    let x : Word := readG p h.eng a.toNat
    let low : Word → Word := fun y => x * y
    let highS : Word → Word := fun y => BitVec.ofInt 64 (x.toInt * y.toInt / 2 ^ 64)
    let highZ : Word → Word := fun y => BitVec.ofNat 64 (x.toNat * y.toNat / 2 ^ 64)
    (∀ b : BitVec 4, Issues s h [.g a.toNat] p →
      ∀ r ∈ ([(.mul h d a b, low), (.mulhS h d a b, highS), (.mulhZ h d a b, highZ)] : List (Instr × (Word → Word))),
        Completes (exec r.1 s) (fun t => SentReg s p t h 1 d.toNat (p.core.ck + 3) false (r.2 (b.signExtend 64)))) ∧
    (∀ o : Src2, Issues s h (.g a.toNat :: src2Locs o) p →
      ∀ r ∈ ([(.mulLong h d a o, low), (.mulhSLong h d a o, highS), (.mulhZLong h d a o, highZ)] : List (Instr × (Word → Word))),
        Completes (exec r.1 s) (fun t => SentReg s p t h (src2Len o) d.toNat (p.core.ck + 3) false (r.2 (src2S p h.eng o))))

/-- `b` is the number of significant bits of `m`. -/
def Sys2Proof.Machine.SignificantBits (m b : Nat) : Prop := m < 2 ^ b ∧ (b ≠ 0 → 2 ^ (b - 1) ≤ m)

/-- R217 for a divisor `y`: quotient and remainder in every case, unsigned and signed. -/
def Sys2Proof.Machine.quotientZ (x y : Word) : Word := if y = 0 then BitVec.ofNat 64 (2 ^ 64 - 1) else BitVec.ofNat 64 (x.toNat / y.toNat)
def Sys2Proof.Machine.remainderZ (x y : Word) : Word := if y = 0 then x else x - y * quotientZ x y
def Sys2Proof.Machine.quotientS (x y : Word) : Word :=
  if y = 0 then -1 else if x.toInt = -2 ^ 63 ∧ y.toInt = -1 then BitVec.ofInt 64 (-2 ^ 63) else BitVec.ofInt 64 (x.toInt.tdiv y.toInt)
def Sys2Proof.Machine.remainderS (x y : Word) : Word :=
  if y = 0 then x else if x.toInt = -2 ^ 63 ∧ y.toInt = -1 then 0 else x - y * quotientS x y

/-- R217 and R222 for DIV and REM: with the engine's divider free, the result lands after 6 + b / 2 clk (rounded up), b the
significant bits of the dividend's magnitude, scoreboarded in every region; the divider is busy until then. -/
def Obligations.DivisionsLandByDividend : Prop :=
  ∀ (h : Hdr) (d a : Reg) (s p : State), (p.core.eng h.eng).dividerFree ≤ p.core.ck →
    let x : Word := readG p h.eng a.toNat
    let Sent := fun (len m : Nat) (v : Word) (t : State) => ∃ b, SignificantBits m b ∧
      SentReg s p t h len d.toNat (p.core.ck + (6 + (b + 1) / 2)) true v ∧ (t.core.eng h.eng).dividerFree = p.core.ck + (6 + (b + 1) / 2)
    (∀ b : BitVec 4, Issues s h [.g a.toNat] p →
      let y : Word := b.signExtend 64
      ∀ r ∈ ([(.divZ h d a b, x.toNat, quotientZ x y), (.remZ h d a b, x.toNat, remainderZ x y),
          (.divS h d a b, x.toInt.natAbs, quotientS x y), (.remS h d a b, x.toInt.natAbs, remainderS x y)] : List (Instr × Nat × Word)),
        Completes (exec r.1 s) (Sent 1 r.2.1 r.2.2)) ∧
    (∀ o : Src2, Issues s h (.g a.toNat :: src2Locs o) p →
      let y : Word := src2S p h.eng o
      ∀ r ∈ ([(.divZLong h d a o, x.toNat, quotientZ x y), (.remZLong h d a o, x.toNat, remainderZ x y),
          (.divSLong h d a o, x.toInt.natAbs, quotientS x y), (.remSLong h d a o, x.toInt.natAbs, remainderS x y)] :
          List (Instr × Nat × Word)),
        Completes (exec r.1 s) (Sent (src2Len o) r.2.1 r.2.2)) ∧
    ∀ u y : Word, y ≠ 0 → quotientZ u y * y + remainderZ u y = u ∧ quotientS u y * y + remainderS u y = u

/-- A DIV or REM of either form that finds its engine's divider busy waits at issue (R222). -/
def Sys2Proof.Machine.BusyDividerWaits : Prop :=
  ∀ (h : Hdr) (d a : Reg) (s p : State), p.core.ck < (p.core.eng h.eng).dividerFree →
    (∀ b : BitVec 4, Issues s h [.g a.toNat] p →
      ∀ i ∈ ([.divZ h d a b, .remZ h d a b, .divS h d a b, .remS h d a b] : List Instr), exec i s = .next s) ∧
    (∀ o : Src2, Issues s h (.g a.toNat :: src2Locs o) p →
      ∀ i ∈ ([.divZLong h d a o, .remZLong h d a o, .divSLong h d a o, .remSLong h d a o] : List Instr), exec i s = .next s)

/-- R221: what each move code moves. Code 2 changes the executing engine's copy of the counter alone; codes 3 and 4 belong to
the access engine's k registers, of which a write takes the mark of a soft error away and a read of a marked one consumes it (R431). -/
def Obligations.MovesByCode : Prop :=
  ∀ (h : Hdr) (d a : Reg) (s p : State) (i : BitVec 4 → Instr) (len : Nat),
    (i, len) ∈ ([(fun m => .mov h d a m, 1), (fun m => .movLong h d a m false, 2), (fun m => .movLong h d a m true, 3)] :
      List ((BitVec 4 → Instr) × Nat)) →
    (outranked p.core h.eng (p.core.ck + 1) d.toNat = false →
      (Issues s h [.g a.toNat] p →
        Completes (exec (i 0) s) (fun t => WroteReg s p t h len d.toNat (readG p h.eng a.toNat))) ∧
      (Issues s h [] p → a.toNat < 8 →
        Completes (exec (i 1) s) (fun t => WroteReg s p t h len d.toNat ((readLc p h.eng a.toNat).setWidth 64))) ∧
      (Issues s h [] p → a.toNat < 32 → a.toNat ∉ p.core.kMarks →
        Completes (exec (i 3) s) (fun t => WroteReg s p t h len d.toNat (look 0 p.core.kregs a.toNat)))) ∧
    (Issues s h [] p → a.toNat < 32 → a.toNat ∈ p.core.kMarks →
      exec (i 3) s = .next (consumePoison s h.eng (s.core.eng h.eng).pc 0)) ∧
    (Issues s h [.g a.toNat] p → d.toNat < 8 →
      Completes (exec (i 2) s) (fun t => (t.core.eng h.eng).pc = nextPc s h len ∧ PushedSoon p t h ∧ OnlyLanding p t ∧ SameMemory p t ∧
        (∀ n, readLc t h.eng n = if n = d.toNat then (readG p h.eng a.toNat).setWidth 32 else readLc p h.eng n) ∧
        ∀ e, e ≠ h.eng → t.core.eng e = p.core.eng e)) ∧
    (Issues s h [.g a.toNat] p → d.toNat < 32 →
      Completes (exec (i 4) s) (fun t => WalkedTo p t h p.core.ck (nextPc s h len) ∧ PushedSoon p t h ∧ SameMemory p t ∧
        (∀ n, look 0 t.core.kregs n = if n = d.toNat then readG p h.eng a.toNat else look 0 p.core.kregs n) ∧
        (∀ n, n ∈ t.core.kMarks ↔ n ∈ p.core.kMarks ∧ n ≠ d.toNat) ∧
        OnlyLanding { p with core := { p.core with kregs := t.core.kregs, kMarks := t.core.kMarks } } t))

/-! ### Branches, jumps, loops, meeting points (R371 to R381) -/

/-- The executing engine has gone on from an S instruction to `pc`, and issues nothing for `gap` clk; the other engines stand. -/
structure Sys2Proof.Machine.WentOn (s t : State) (gap pc : Nat) : Prop where
  here : (t.core.eng s.eng).pc = pc
  gap : (t.core.eng s.eng).nextIssue = s.core.ck + 1 + gap
  others : ∀ e, e ≠ s.eng → t.core.eng e = s.core.eng e

/-- An S instruction in the shared walk issues: the engine may, owes nothing, and is in no stretch (R378). -/
structure Sys2Proof.Machine.IssuesS (s : State) : Prop where
  ready : engineReady s.core s.eng = true
  noneOwed : (s.core.eng s.eng).owed = []
  inWalk : (s.core.eng s.eng).stretch = none

/-- Its registers are there and sound. -/
def Sys2Proof.Machine.SourcesReady (s : State) (xs : List Loc) : Prop := mustWait s.core s.eng xs = false ∧ anyPoison s.core xs = false

/-- A displacement counts parcels from the instruction's first parcel (R372). -/
def Sys2Proof.Machine.branchTarget (pc : Nat) (disp : Int) : Nat := (((pc : Int) + 4 * disp) % 2 ^ 64).toNat

/-- The decider has told each of the three other engines, and no other outcome queue has changed (R371). -/
def Sys2Proof.Machine.ToldAll (s t : State) (o : Outcome) : Prop :=
  ∀ d f, outcomesOf t.core d f = if d = s.eng ∧ f ≠ s.eng then outcomesOf s.core d f ++ [o] else outcomesOf s.core d f

/-- Nothing has changed but the walks, whether the decode slot is to pass on, and the outcome queues. -/
def Sys2Proof.Machine.OnlyOutcomes (s t : State) : Prop := OnlyWalked { s with core := { s.core with outcomes := t.core.outcomes } } t

/-- The six decided branches with the tests of R373. -/
def Sys2Proof.Machine.branchRows (h : SHdr) (b a : Reg) (dec : Eng) (lv : Bool) (i : Imm) (x y : Word) : List (Instr × Bool) :=
  [(.bEq h b a dec lv i, decide (x = y)), (.bNe h b a dec lv i, decide (x ≠ y)), (.bLtS h b a dec lv i, x.slt y),
   (.bLtZ h b a dec lv i, x.ult y), (.bGeS h b a dec lv i, !x.slt y), (.bGeZ h b a dec lv i, !x.ult y)]

/-- R371, R373 for the decider of a shared branch: with room in its three outcome queues it compares ga with gb, tells the three
others, and continues at its own address plus 4 x displacement when the test holds (nothing for 2 clk more, R367), otherwise at
the next instruction. -/
def Sys2Proof.Machine.BranchDeciderTellsAll : Prop :=
  ∀ (h : SHdr) (b a : Reg) (i : Imm) (s : State), IssuesS s → outcomeRoom s.core s.eng = true →
    SourcesReady s [.g a.toNat, .g b.toNat] → s.eng = .c ∨ s.eng = .a →
    let x := s.core.eng s.eng
    ∀ r ∈ branchRows h b a s.eng false i (readG s s.eng a.toNat) (readG s s.eng b.toNat),
      Completes (exec r.1 s) (fun t =>
        WentOn s t (h.gap.toNat + if r.2 then 2 else 0) (if r.2 then branchTarget x.pc (immInt i) else x.pc + 4 * immLen i) ∧
        ToldAll s t { taken := r.2, target := branchTarget x.pc (immInt i), group := x.walk } ∧ SameMemory s t ∧ OnlyOutcomes s t)

/-- R371 for an engine that follows: it pops the oldest outcome of the queue from the decider and follows it; while the queue is
empty it waits. -/
def Sys2Proof.Machine.BranchFollowersPopOutcomes : Prop :=
  ∀ (h : SHdr) (b a : Reg) (dec : Eng) (i : Imm) (s : State), IssuesS s → s.eng ≠ dec →
    let x := s.core.eng s.eng
    ∀ r ∈ branchRows h b a dec false i 0 0,
      (outcomesOf s.core dec s.eng = [] → exec r.1 s = .next s) ∧
      ∀ o os, outcomesOf s.core dec s.eng = o :: os →
        Completes (exec r.1 s) (fun t =>
          WentOn s t (h.gap.toNat + if o.taken then 2 else 0) (if o.taken then branchTarget x.pc (immInt i) else x.pc + 4 * immLen i) ∧
          (∀ d f, outcomesOf t.core d f = if d = dec ∧ f = s.eng then os else outcomesOf s.core d f) ∧ SameMemory s t ∧ OnlyOutcomes s t)

/-- R377: a branch with the leave mark is its decider's alone. When it holds, the decider enters a private stretch at the target,
its walk count staying at the branch's group; when not, it goes on. The other engines pass it; but while a leave of its group is in
progress (R380), the branch itself leads an engine that stands at it to the SYNCPC.d. -/
def Sys2Proof.Machine.PrivateBranches : Prop :=
  ∀ (h : SHdr) (b a : Reg) (dec : Eng) (i : Imm) (s : State), IssuesS s → dec = .c ∨ dec = .a →
    let x := s.core.eng s.eng
    ∀ r ∈ branchRows h b a dec true i (readG s dec a.toNat) (readG s dec b.toNat),
      (s.eng = dec → SourcesReady s [.g a.toNat, .g b.toNat] →
        Completes (exec r.1 s) (fun t => SameMemory s t ∧ OnlyWalked s t ∧
          (r.2 = false → WentOn s t h.gap.toNat (x.pc + 4 * immLen i)) ∧
          (r.2 = true → WentOn s t (h.gap.toNat + 2) (branchTarget x.pc (immInt i)) ∧
            (t.core.eng s.eng).stretch = some .leave ∧ (t.core.eng s.eng).walk = x.walk))) ∧
      (s.eng ≠ dec → (∀ pc, s.core.leaving ≠ some (x.walk, pc)) →
        Completes (exec r.1 s) (fun t => (t.core.eng s.eng).pc = x.pc + 4 * immLen i ∧
          (∀ e, e ≠ s.eng → t.core.eng e = s.core.eng e) ∧ SameMemory s t ∧ OnlyWalked s t)) ∧
      (s.eng ≠ dec → ∀ pc, s.core.leaving = some (x.walk, pc) →
        Completes (exec r.1 s) (fun t => (t.core.eng s.eng).pc = pc ∧ (t.core.eng s.eng).joined = true ∧
          (∀ e, e ≠ s.eng → t.core.eng e = s.core.eng e) ∧ SameMemory s t ∧ OnlyWalked s t))

/-- R380 for an engine that a leave of group `b` finds beyond that group, in its walk or in a miss stretch: at its next instruction
boundary it continues at the SYNCPC.d, with everything it has written left as it is. -/
def Sys2Proof.Machine.EnginesBeyondLeave : Prop :=
  ∀ (s : State) (e : Eng) (b pc : Nat), s.core.leaving = some (b, pc) → b < (s.core.eng e).walk → (s.core.eng e).joined = false →
    s.core.running = true → clkOpen s.core = true → (s.core.eng e).halted = false → stateMarked s.core e = false → s.core.haltAt = none →
    ∃ t, arrive s e = .stay t ∧ (t.core.eng e).pc = pc ∧ (t.core.eng e).joined = true ∧ (t.core.eng e).stretch = none ∧
      (∀ f, f ≠ e → t.core.eng f = s.core.eng f) ∧ t.core.g = s.core.g ∧ t.core.cells = s.core.cells ∧ SameMemory s t

/-- R373 for J and JL: every engine continues at the target after two more clk; the control engine alone writes the address of
the instruction after a JL into gd, the other engines write nothing. -/
def Sys2Proof.Machine.JumpsAndLinks : Prop :=
  ∀ (h : SHdr) (d : Reg) (i : Imm) (s : State), IssuesS s →
    let x := s.core.eng s.eng
    Completes (exec (.jmp h i) s) (fun t => WentOn s t (h.gap.toNat + 2) (branchTarget x.pc (immInt i)) ∧ SameMemory s t ∧ OnlyWalked s t) ∧
    (s.eng ≠ .c → Completes (exec (.jl h d i) s) (fun t =>
      WentOn s t (h.gap.toNat + 2) (branchTarget x.pc (immInt i)) ∧ SameMemory s t ∧ OnlyWalked s t)) ∧
    (s.eng = .c → outranked s.core .c (s.core.ck + 1) d.toNat = false → Completes (exec (.jl h d i) s) (fun t =>
      WentOn s t (h.gap.toNat + 2) (branchTarget x.pc (immInt i)) ∧ SameMemory s t ∧ OnlyRegs s t ∧
      look 0 t.core.g.cur d.toNat = (if d = 0 then look 0 s.core.g.cur 0 else BitVec.ofNat 64 (x.pc + 4 * immLen i)) ∧ OtherRegsSame s t d.toNat))

/-- R374 for JR: the decider reads ga; a target with bits 1:0 not zero raises ALIGNMENT there, a non-canonical one TRANSLATION
cause 0; otherwise it tells the others and every engine continues at the target the decider read. -/
def Sys2Proof.Machine.IndirectJumps : Prop :=
  ∀ (h : SHdr) (a : Reg) (dec : Eng) (s : State), IssuesS s →
    let x := s.core.eng s.eng
    let v := (readG s dec a.toNat).toNat
    (s.eng = dec → outcomeRoom s.core dec = true → SourcesReady s [.g a.toNat] →
      (v % 4 ≠ 0 → exec (.jr h a dec) s = .next (takeTrap s dec { code := .alignment, tval := readG s dec a.toNat } x.pc)) ∧
      (v % 4 = 0 → 2 ^ 48 ≤ v →
        exec (.jr h a dec) s = .next (takeTrap s dec { code := .translation, cause := 0, tval := readG s dec a.toNat } x.pc)) ∧
      (v % 4 = 0 → v < 2 ^ 48 →
        Completes (exec (.jr h a dec) s) (fun t => WentOn s t (h.gap.toNat + 2) v ∧
          ToldAll s t { taken := true, target := v, group := x.walk } ∧ SameMemory s t ∧ OnlyOutcomes s t))) ∧
    (s.eng ≠ dec → ∀ o os, outcomesOf s.core dec s.eng = o :: os →
      Completes (exec (.jr h a dec) s) (fun t => WentOn s t (h.gap.toNat + 2) o.target ∧
        (∀ d f, outcomesOf t.core d f = if d = dec ∧ f = s.eng then os else outcomesOf s.core d f) ∧ SameMemory s t ∧ OnlyOutcomes s t))

/-- R375: LOOP adds one to the engine's own lcN and goes back while that is below max(count, 1); otherwise it sets lcN to 0 and
continues. In the immediate form every engine decides for itself; in the register form the control engine reads gb and tells the
others, and each applies the outcome to its own copy. -/
def Obligations.LoopsCount : Prop :=
  ∀ (h : SHdr) (dist : BitVec 12) (n : BitVec 3) (s : State), IssuesS s →
    let x := s.core.eng s.eng
    let lc : BitVec 32 := readLc s s.eng n.toNat
    let After := fun (back : Bool) (t : State) =>
      WentOn s t h.gap.toNat (if back then branchTarget x.pc (-(dist.toNat : Int)) else x.pc + 8) ∧
      (∀ k, readLc t s.eng k = if k = n.toNat then (if back then lc + 1 else 0) else readLc s s.eng k) ∧ SameMemory s t ∧ OnlyOutcomes s t
    (∀ c : BitVec 14, Completes (exec (.loop h dist n (.imm c)) s) (After (decide ((lc + 1).toNat < max c.toNat 1)))) ∧
    (∀ r : Reg, s.eng = .c → outcomeRoom s.core .c = true → SourcesReady s [.g r.toNat] →
      let back := decide ((lc + 1).toNat < max (readG s .c r.toNat).toNat 1)
      Completes (exec (.loop h dist n (.reg r)) s) (fun t => After back t ∧ ∃ a, ToldAll s t { taken := back, target := a, group := x.walk })) ∧
    (∀ r : Reg, s.eng ≠ .c → ∀ o os, outcomesOf s.core .c s.eng = o :: os →
      Completes (exec (.loop h dist n (.reg r)) s) (After o.taken))

/-- R379: an engine that reaches a SYNCPC before the last waits there; when the last of the four arrives, all four continue at the
next instruction, SYNCPC.d having set the masked loop counters to 0 in all four copies. -/
def Obligations.MeetingPoints : Prop :=
  ∀ (h : SHdr) (mask : BitVec 8) (s : State), IssuesS s → s.core.leaving = none → privileged s.core = false →
    (∀ e, (s.core.eng e).pc = (s.core.eng s.eng).pc) →
    ∀ r ∈ ([(.syncpc h, 1, 0), (.syncpcLong h, 2, 0), (.syncpcD h mask, 1, mask), (.syncpcDLong h mask, 2, mask)] : List (Instr × Nat × BitVec 8)),
      ((∃ e, e ≠ s.eng ∧ (s.core.eng e).atSync = false) →
        exec r.1 s = .next (modEng s s.eng (fun x => { x with atSync := true }))) ∧
      ((∀ e, e ≠ s.eng → (s.core.eng e).atSync = true) →
        Completes (exec r.1 s) (fun t => SameMemory s t ∧ OnlyWalked s t ∧
          ∀ e, (t.core.eng e).pc = (s.core.eng e).pc + 4 * r.2.1 ∧ (t.core.eng e).atSync = false ∧
            ∀ k, k < 8 → readLc t e k = if r.2.2.getLsbD k then 0 else readLc s e k))

/-- R380: when the decider of a private branch of group b reaches SYNCPC.d, a leave from b begins: unstarted commands tagged later
than b and outcomes of later branches are gone from the core's queues, those of b and earlier and a lease command that has started
stay in order, the entry of a fill that is gone is invalid, and the decider waits there. -/
def Sys2Proof.Machine.LeaveBegins : Prop :=
  ∀ (h : SHdr) (mask : BitVec 8) (s : State), engineReady s.core s.eng = true → (s.core.eng s.eng).owed = [] →
    (s.core.eng s.eng).stretch = some .leave → s.core.leaving = none → privileged s.core = false →
    let b := (s.core.eng s.eng).walk
    ∀ i ∈ ([.syncpcD h mask, .syncpcDLong h mask] : List Instr),
      Completes (exec i s) (fun t =>
        t.core.leaving = some (b, (s.core.eng s.eng).pc) ∧ (t.core.eng s.eng).atSync = true ∧ (t.core.eng s.eng).joined = true ∧
        t.core.wQueue = s.core.wQueue.filter (fun q => decide (q.tag ≤ b)) ∧
        t.core.fillQueue = s.core.fillQueue.filter (fun f => decide (f.tag ≤ b)) ∧
        t.core.copyQueue = s.core.copyQueue.filter (fun q => decide (q.tag ≤ b) || q.fifo) ∧
        (∀ q qs, s.core.leaseQueue = q :: qs → t.core.leaseQueue =
          if leaseStarted s 0 q then q :: qs.filter (fun q => decide (q.tag ≤ b)) else s.core.leaseQueue.filter (fun q => decide (q.tag ≤ b))) ∧
        (s.core.leaseQueue = [] → t.core.leaseQueue = []) ∧
        t.core.probeTags = s.core.probeTags.filter (fun x => !s.core.fillQueue.any (fun f => decide (b < f.tag) && f.entry == x.entry)) ∧
        (∀ d f, outcomesOf t.core d f = (outcomesOf s.core d f).filter (fun o => decide (o.group ≤ b))) ∧
        t.core.g = s.core.g ∧ t.core.cells = s.core.cells ∧ SameMemory s t)

/-! ### System instructions, traps (R409 to R426) -/

/-- Bits of TCAUSE (R411): code, cause, raising engine, previous level user. -/
def Sys2Proof.Machine.CauseOf (w : Word) (f : FaultRec) (e : Eng) : Prop :=
  bits w 15 0 = f.code.num ∧ bits w 31 16 = f.cause % 65536 ∧ bits w 33 32 = 0 ∧ bits w 35 34 = e.num ∧ w.getLsbD 36 = false ∧
  w.getLsbD 37 = f.stream.isSome ∧ w.getLsbD 38 = f.popped ∧ w.getLsbD 39 = f.element ∧ bits w 63 40 = 0

/-- R413, R416 for a fault `f` of engine `e` at user level where there is a handler: the trap registers hold the fault and the four
program counters, that of `e` as `pc`; the frame takes queues, SLIPW, probe lag and the leave; privileged level begins with all four
engines at TVEC, walk counts, loop counters, SLIPW and probe lag 0, queues empty, first issue 16 clk on; memory is as it was. -/
def Sys2Proof.Machine.TrapEntersHandler : Prop :=
  ∀ (s : State) (e : Eng) (f : FaultRec) (pc : Nat), privileged s.core = false → sysNow s.core sysTVEC ≠ 0 → pc < 2 ^ 64 →
    (∀ e, (s.core.eng e).pc < 2 ^ 64) → (∀ l ∈ s.core.landing, ∀ n ∈ l.counts, n < 32) →
    let t := takeTrap s e f pc
    privileged t.core = true ∧ CauseOf (sysNow t.core sysTCAUSE) f e ∧ sysNow t.core sysTVAL = f.tval ∧
    (∀ e', (sysNow t.core (sysTPC + e'.num)).toNat = if e' = e then pc else (s.core.eng e').pc) ∧
    (∀ e', (t.core.eng e').pc = (sysNow s.core sysTVEC).toNat ∧ (t.core.eng e').walk = 0 ∧ (∀ n, readLc t e' n = 0) ∧
      (t.core.eng e').nextIssue = s.core.ck + 16 ∧ (t.core.eng e').stretch = none) ∧
    sysNow t.core sysSLIPW = 0 ∧ t.core.probeLag = 0 ∧ (∀ k, queueAt t.core k = {}) ∧ (∀ d g, outcomesOf t.core d g = []) ∧
    (∃ fr, t.core.trapFrame = some fr ∧ fr.slipw = sysNow s.core sysSLIPW ∧ fr.outcomes = s.core.outcomes ∧ fr.lag = s.core.probeLag ∧
      fr.leaving = s.core.leaving ∧ fr.since = s.core.ck + 1) ∧ SameMemory s t

/-- The task on the core has faulted as `f` with program counter `pc`, its engines stop, and nothing enters a handler (R402). -/
def Sys2Proof.Machine.TaskFaulted (s t : State) (f : FaultRec) (pc : Nat) : Prop :=
  t.core.running = false ∧ (∀ e, (t.core.eng e).walk = (s.core.eng e).walk) ∧ privileged t.core = privileged s.core ∧
  ∀ n, s.core.task = some n → ∀ x, (n, x) ∈ (dieAt s (dieOfCore s.cur)).tasks →
    (n, { x with fault := some (f, pc), faultClk := s.clk }) ∈ (dieAt t (dieOfCore s.cur)).tasks

/-- R416 without a handler: the task faults with this code, cause and program counter. R418: a fault at privileged level faults the
task with NESTED_FAULT, the inner code as cause. -/
def Sys2Proof.Machine.FaultsWithoutHandlerEndTheTask : Prop :=
  ∀ (s : State) (e : Eng) (f : FaultRec) (pc : Nat), (∀ l ∈ s.core.landing, ∀ n ∈ l.counts, n < 32) →
    (privileged s.core = false → sysNow s.core sysTVEC = 0 → TaskFaulted s (takeTrap s e f pc) f pc) ∧
    (privileged s.core = true → TaskFaulted s (takeTrap s e f pc) { code := .nestedFault, cause := f.code.num } pc)

/-- R420 and R418: TRAP and SYSCALL are performed in full and then raise their code with their number as cause, the program counter
after them; at privileged level SYSCALL raises a nested fault so, and TRAP ends the task with what TCAUSE and the TPC it names hold, or
consumes the poison of what it reads (R431). -/
def Sys2Proof.Machine.TrapsAndServices : Prop :=
  ∀ (h : Hdr) (i : BitVec 10) (s p : State), Issues s h [] p → h.eng = .c →
    exec (.syscall h i) s = .next (takeTrap (finishNow p h (nextPc s h 1)) .c { code := .syscall, cause := i.toNat } (nextPc s h 1)) ∧
    (privileged p.core = false →
      exec (.trap h i) s = .next (takeTrap (finishNow p h (nextPc s h 1)) .c { code := .trap, cause := i.toNat } (nextPc s h 1))) ∧
    (privileged p.core = true →
      let w := sysNow p.core sysTCAUSE
      let read := [sysTCAUSE, sysTVAL, sysTPC + bits w 35 34]
      (trapMarked p.core read = false → Completes (exec (.trap h i) s) (fun t => ∃ f : FaultRec, f.cause = bits w 31 16 ∧
        (∀ c : FaultCode, c.num = bits w 15 0 → f.code = c) ∧
        TaskFaulted p t f (sysNow p.core (sysTPC + bits w 35 34)).toNat)) ∧
      (trapMarked p.core read = true → exec (.trap h i) s = .next (consumePoison s .c (s.core.eng .c).pc 0)))

/-- R421: ERET at user level raises PRIVILEGE cause 1. At privileged level the four program counters come from TPCC to TPCW, PRIV
from TCAUSE bit 36, SLIPW, the queues, probe lag and the leave from the frame; the engine that TCAUSE names issues once without
popping when bit 38 is 1; the first issue is 16 clk after, later by what an engine still had of its gap (R384). Without a frame the
counters, the level and the first issue are set as well. A frame or register that a soft error has poisoned is consumed (R431).
Where the manual leaves a point open it states the model's choice: log entry 43. -/
def Obligations.EretReturns : Prop :=
  ∀ (h : Hdr) (s p : State) (fr : TrapFrame), Issues s h [] p → h.eng = .c →
    (privileged p.core = false → exec (.eret h) s =
      .next (takeTrap s .c { code := .privilege, cause := 1, popped := (s.core.eng .c).noPop } (s.core.eng .c).pc)) ∧
    let poisoned := trapMarked p.core [sysTPC, sysTPC + 1, sysTPC + 2, sysTPC + 3, sysTCAUSE]
    (privileged p.core = true → poisoned = true → exec (.eret h) s = .next (consumePoison s .c (s.core.eng .c).pc 0)) ∧
    (privileged p.core = true → poisoned = false → p.core.trapFrame = some fr →
      let w := sysNow p.core sysTCAUSE
      Completes (exec (.eret h) s) (fun t =>
        (∀ e, (t.core.eng e).pc = (sysNow p.core (sysTPC + e.num)).toNat ∧
          (t.core.eng e).nextIssue = p.core.ck + 16 + ((fr.engines.getD e.num {}).nextIssue - fr.since) ∧
          (bits w 35 34 = e.num → (t.core.eng e).noPop = w.getLsbD 38)) ∧
        privileged t.core = w.getLsbD 36 ∧ sysNow t.core sysSLIPW = fr.slipw ∧ t.core.tokens = fr.tokens ∧
        t.core.outcomes = fr.outcomes ∧ t.core.probeLag = fr.lag ∧ t.core.leaving = fr.leaving ∧ t.core.trapFrame = none ∧
        t.core.g = p.core.g ∧ SameMemory p t)) ∧
    (privileged p.core = true → poisoned = false → p.core.trapFrame = none →
      Completes (exec (.eret h) s) (fun t =>
        (∀ e, (t.core.eng e).pc = (sysNow p.core (sysTPC + e.num)).toNat ∧
          (t.core.eng e).nextIssue = p.core.ck + 16 + ((p.core.eng e).nextIssue - (p.core.ck + 1))) ∧
        privileged t.core = (sysNow p.core sysTCAUSE).getLsbD 36 ∧ t.core.tokens = p.core.tokens ∧ t.core.g = p.core.g ∧ SameMemory p t))

/-- R422: SYSR of an assigned register that its level may read writes the register's value to gd; a number R209 assigns to no
register is illegal, and a trap register but PRIV and CPFE raises PRIVILEGE cause 2 at user level. The counters and LSES, which
have readings of their own, are left to R95 and R289. -/
def Obligations.SysrReadsRegisters : Prop :=
  ∀ (h : Hdr) (d : Reg) (n : SysNum) (s p : State), Issues s h (sysNumLocs n) p → h.eng = .c →
    let k := match n with | .reg r => (readG p .c r.toNat).toNat % 2 ^ 14 | .num i => i.toNat
    let hidden := 0x301 ≤ k ∧ k ≤ 0x30C
    let Raises := fun (f : FaultRec) => exec (.sysr h d n) s = .next (takeTrap s .c { f with popped := (s.core.eng .c).noPop } (s.core.eng .c).pc)
    (sysAssigned k = false → Raises (illegalFault (.sysr h d n))) ∧
    (hidden → privileged p.core = false → Raises { code := .privilege, cause := 2 }) ∧
    (sysAssigned k = true → (hidden → privileged p.core = true) → k ≠ sysLSES → ¬ (sysFEC ≤ k ∧ k < sysFEC + 32) →
      look false p.core.sys.poison k = false → outranked p.core .c (p.core.ck + 1) d.toNat = false →
      Completes (exec (.sysr h d n) s) (fun t => WroteReg s p t h 2 d.toNat (readSys p .c k)))

/-- R423 in its order: an unassigned number is illegal; a register refused at every level raises PRIVILEGE cause 3; one marked "no"
for user level cause 2 at user level; a value its register forbids FORMAT_CONFIG, the register unchanged; otherwise the write is
made, FMT, FTSEL, BGM, LNA and HKTB keeping all 64 bits and no other register changing. PRCFG's wait is R191's. -/
def Obligations.SyswChecksInOrder : Prop :=
  ∀ (h : Hdr) (a : Reg) (n : SysNum) (s p : State), Issues s h (.g a.toNat :: sysNumLocs n) p → h.eng = .c →
    let k := match n with | .reg r => (readG p .c r.toNat).toNat % 2 ^ 14 | .num i => i.toNat
    let v := readG p .c a.toNat
    let Raises := fun (f : FaultRec) => exec (.sysw h a n) s =
      .next (takeTrap s .c { f with popped := (s.core.eng .c).noPop } (s.core.eng .c).pc)
    let fixed := k = sysOVT ∨ k = sysLSES ∨ (0x210 ≤ k ∧ k ≤ 0x233) ∨ k = sysPRIV ∨ (0x400 ≤ k ∧ k ≤ 0x403)
    let guarded := k = sysPTB ∨ (0x80 ≤ k ∧ k ≤ 0xBF) ∨ (0x301 ≤ k ∧ k ≤ 0x30D)
    let free := sysAssigned k = true ∧ ¬ fixed ∧ (guarded → privileged p.core = true)
    (sysAssigned k = false → Raises (illegalFault (.sysw h a n))) ∧
    (fixed → Raises { code := .privilege, cause := 3 }) ∧
    (guarded → privileged p.core = false → Raises { code := .privilege, cause := 2 }) ∧
    (k = sysSLIPW → 2 ^ 32 ≤ v.toNat → sysValueOk k v = false) ∧
    (k = sysTVEC → (v.toNat % 4 ≠ 0 ∨ 2 ^ 48 ≤ v.toNat) → sysValueOk k v = false) ∧
    (free → sysValueOk k v = false → Raises { code := .formatConfig }) ∧
    (free → sysValueOk k v = true →
      (k = sysPRCFG → p.core.prcfgWait = none ∧ p.core.probeTags.any ProbeTag.pending = false) →
      Completes (exec (.sysw h a n) s) (fun t => WalkedTo p t h p.core.ck (nextPc s h 2) ∧ PushedSoon p t h ∧
        sysNow t.core k = v &&& sysKept k ∧ (∀ j, j ≠ k → sysNow t.core j = sysNow p.core j) ∧
        (k = sysFTSEL ∨ (sysFMT ≤ k ∧ k < sysBGM + 4) ∨ (sysLNA ≤ k ∧ k < sysLNA + 32) ∨ k = sysHKTB → sysNow t.core k = v) ∧
        t.core.g = p.core.g ∧ SameMemory p t))

/-- R424: LDOVT at user level raises PRIVILEGE cause 1; a value with a bit above 15 set or an entry 0b11 raises FORMAT_CONFIG and
leaves OVT; any other is written. -/
def Obligations.LdovtWritesTable : Prop :=
  ∀ (h : Hdr) (a : Reg) (s p : State), Issues s h [.g a.toNat] p → h.eng = .c →
    let v := readG p .c a.toNat
    let bad := 2 ^ 16 ≤ v.toNat ∨ ∃ i, i < 8 ∧ v.getLsbD (2 * i) = true ∧ v.getLsbD (2 * i + 1) = true
    let Raises := fun (f : FaultRec) => exec (.ldovt h a) s =
      .next (takeTrap s .c { f with popped := (s.core.eng .c).noPop } (s.core.eng .c).pc)
    (privileged p.core = false → Raises { code := .privilege, cause := 1 }) ∧
    (privileged p.core = true → bad → Raises { code := .formatConfig }) ∧
    (privileged p.core = true → ¬ bad →
      Completes (exec (.ldovt h a) s) (fun t => WalkedTo p t h p.core.ck (nextPc s h 2) ∧ PushedSoon p t h ∧
        sysNow t.core sysOVT = v ∧ (∀ j, j ≠ sysOVT → sysNow t.core j = sysNow p.core j) ∧ t.core.g = p.core.g ∧ SameMemory p t))

/-- R425: after HALT the control engine issues nothing further, the other engines are to stop at the end of its group, the trap
frame is gone, and the task is in ending. -/
def Sys2Proof.Machine.HaltEndsTheTask : Prop :=
  ∀ (h : Hdr) (s p : State), Issues s h [] p → h.eng = .c →
    Completes (exec (.halt h) s) (fun t => (t.core.eng .c).halted = true ∧ t.core.haltAt = some (p.core.eng .c).walk ∧
      t.core.trapFrame = none ∧ (∀ e, e ≠ .c → t.core.eng e = p.core.eng e) ∧ SameMemory p t ∧ t.core.g = p.core.g ∧
      ∀ n, p.core.task = some n → ∀ x, (n, x) ∈ (dieAt p (dieOfCore p.cur)).tasks →
        (n, { x with state := .ending }) ∈ (dieAt t (dieOfCore p.cur)).tasks)

/-! ### Loads, stores, matrix moves, probes, atomics (R183 to R202, R213) -/

/-- The address a load or store forms: its base is there and sound, and `v` is base plus displacement (R184). -/
structure Sys2Proof.Machine.Addressed (p : State) (b : Base) (o : Src2) (v : Word) : Prop where
  baseIn : mustWait p.core .a (baseLocs p b) = false
  baseClean : anyPoison p.core (baseLocs p b) = false
  address : ∃ w, baseAddr p b = some w ∧ v = w + src2S p .a o

/-- Byte `a` of settled memory has changed only by the write-back of a dirty byte that a line of some L1 held (R180). -/
def Sys2Proof.Machine.WrittenBack (p t : State) (a : Nat) : Prop := memByte t a ≠ memByte p a → ∃ c l, l ∈ (coreAt p c).l1 ∧ (a, memByte t a) ∈ l.dirty

/-- So has all of settled memory. -/
def Sys2Proof.Machine.OnlyWriteBacks (p t : State) : Prop := ∀ a, WrittenBack p t a

/-- R213, R214: loop-nest access j forms base + the sum over its enabled terms of the engine's lc_t, zero-extended, times k[kx_t],
modulo 2^64; with a reserved bit of its descriptor set, the instruction that names it raises FORMAT_CONFIG and does nothing else. -/
def Sys2Proof.Machine.LoopNestAddresses : Prop :=
  ∀ (h : Hdr) (d j : Reg) (t : Ty) (o : Src2) (s p : State), Issues s h (src2Locs o) p → h.eng = .a →
    mustWait p.core .a (lnLocs p j.toNat) = false → anyPoison p.core (lnLocs p j.toNat) = false →
    let w := readSys p .a (sysLNA + j.toNat)
    let term : Nat → Word := fun i =>
      if w.getLsbD (6 * i + 5) then (readLc p .a i).setWidth 64 * look 0 p.core.kregs (w.toNat / 2 ^ (6 * i) % 32) else 0
    ((w.toNat / 2 ^ 48) % 2 ^ 10 = 0 → lnAddress p j.toNat =
      some (readG p .a (w.toNat / 2 ^ 58) + (term 0 + term 1 + term 2 + term 3 + term 4 + term 5 + term 6 + term 7))) ∧
    ((w.toNat / 2 ^ 48) % 2 ^ 10 ≠ 0 → ∀ i ∈ ([.ldLn h d j t o, .stLn h d j t o] : List Instr),
      exec i s = .next (takeTrap s .a { code := .formatConfig, popped := (s.core.eng .a).noPop } (s.core.eng .a).pc))

/-- R184's checks for LD and ST in their order: canonical, aligned to the element, translated, reached. -/
def Sys2Proof.Machine.LoadStoreFaults : Prop :=
  ∀ (h : Hdr) (d a : Reg) (t : Ty) (o : Src2) (v : Word) (s p : State), Issues s h (src2Locs o) p → h.eng = .a →
    mustWait p.core .a [.g d.toNat] = false →
    ∀ r ∈ ([(.ld h d a t o, .reg a, { r := true }), (.ldLn h d a t o, .nest a, { r := true }), (.st h d a t o, .reg a, { w := true }),
        (.stLn h d a t o, .nest a, { w := true })] : List (Instr × Base × Want)), Addressed p r.2.1 o v →
      let w := widthOf t / 8
      let Raises := fun (f : FaultRec) => exec r.1 s = .next (takeTrap s .a { f with popped := (s.core.eng .a).noPop } (s.core.eng .a).pc)
      (2 ^ 48 ≤ v.toNat → Raises { code := .translation, cause := 0, tval := v }) ∧
      (v.toNat < 2 ^ 48 → v.toNat % w ≠ 0 → Raises { code := .alignment, tval := v }) ∧
      (v.toNat < 2 ^ 48 → v.toNat % w = 0 → ∀ f, translate p .a v.toNat r.2.2 = .bad f → Raises f) ∧
      (v.toNat < 2 ^ 48 → v.toNat % w = 0 → ∀ e pa, translate p .a v.toNat r.2.2 = .ok e pa → classOf pa = 3 →
        (isManagement (windowOffset pa) = false ∨ w ≠ 8) → Raises { code := .engineCommand, tval := v })

/-- R184, R185, R186, R440 for LD: with the page translated and reached, no ordering instruction holding it and fewer than 32 loads
outstanding, it completes; the value, sign-extended for s types and zero-extended otherwise, is on its way to gd, scoreboarded, fixed
at the issue (the model's choice: log entry 68); for a logged page it is the core's own view at some moment not before the core's and
not after the issue (log entries 3 and 68); a management register's lands 40 clk after the issue on the own die and 62 on another
(R440, in core clk: log entry 66); registers are as they were, and memory but for lines the L1 writes back, where the check bits of
DRAM find no error. -/
def Sys2Proof.Machine.LoadsComplete : Prop :=
  ∀ (h : Hdr) (d a : Reg) (t : Ty) (o : Src2) (v : Word) (e : TlbEntry) (pa : Nat) (s p : State),
    Issues s h (src2Locs o) p → h.eng = .a →
    ∀ r ∈ ([(.ld h d a t o, .reg a), (.ldLn h d a t o, .nest a)] : List (Instr × Base)), Addressed p r.2 o v →
      let w := widthOf t / 8
      accessPage p v.toNat w { r := true } = .ok e pa → reachFault p v.toNat pa w = none →
      orderHeld p.core (isOrdered e pa) = false → outstandingLoads p.core < 32 → p.found = none →
      Completes (exec r.1 s) (fun q => ∃ n : Nat, ∃ mark,
        let x : Word := if isSigned t then BitVec.ofInt 64 (signedOf (widthOf t) n) else BitVec.ofNat 64 (n % 2 ^ widthOf t)
        q.core.landing = p.core.landing ++ [{ due := if classOf pa = 3 then some (p.core.ck + if windowDie pa = dieOfCore p.cur then 40 else 62) else none, eng := .a, seq := p.core.engA.seq, tag := p.core.engA.walk, scoreboard := true,
                                              act := .write (if d = 0 then [] else [{ loc := .g d.toNat, val := x, mark := mark }]), push := h.push, isLoad := true }] ∧
        (classOf pa < 2 → leafCoh e.leaf = .l → w ≤ 16 - pa % 16 → ∃ m, p.core.moment ≤ m ∧ (p.core.moment ≤ p.now → m ≤ q.now) ∧
          n = leNat ((List.range w).map (fun i => viewByte q (leafComp e.leaf) m (pa + i)))) ∧
        WalkedTo p q h p.core.ck (nextPc s h (src2Len o)) ∧ Reserved p q h ∧ q.core.g = p.core.g ∧ OnlyWriteBacks p q)

/-- A 33rd LD waits at issue (R186). -/
def Sys2Proof.Machine.LoadsAreBounded : Prop :=
  ∀ (h : Hdr) (d a : Reg) (t : Ty) (o : Src2) (v : Word) (e : TlbEntry) (pa : Nat) (s p : State),
    Issues s h (src2Locs o) p → h.eng = .a →
    ∀ r ∈ ([(.ld h d a t o, .reg a), (.ldLn h d a t o, .nest a)] : List (Instr × Base)), Addressed p r.2 o v →
      accessPage p v.toNat (widthOf t / 8) { r := true } = .ok e pa → reachFault p v.toNat pa (widthOf t / 8) = none →
      32 ≤ outstandingLoads p.core → exec r.1 s = .next s

/-- Release times of the records and settled bits that byte `a` of the core's view is made of lie below 2^64 (R332). -/
def Sys2Proof.Machine.TimesBelow (p : State) (m a : Nat) : Prop :=
  (∀ k ∈ keysAtMoment p m a, k.time < 2 ^ 64) ∧ (∀ r ∈ p.core.log, r.time.getD 0 < 2 ^ 64) ∧ ∀ r ∈ p.core.replay, r.2.time.getD 0 < 2 ^ 64

/-- No page is being moved or has been, and the L1 holds line `line` under no other class than `cls` (R165, R331). -/
def Sys2Proof.Machine.PlainLine (p : State) (line : Nat) (cls : Coh) : Prop :=
  (∀ a, movedFrom p a = none) ∧ ∀ l ∈ (coreAt p (l1Holder p line)).l1, l.line = line → l.cls = cls

/-- Of the unpublished records of byte `a`'s block none stands before one that writes the byte under another frame of its page. -/
def Sys2Proof.Machine.LatestOf (p : State) (a : Nat) : Prop :=
  ∀ l r m, p.core.log = l ++ r :: m → r.time = none → r.block = a / 16 * 16 → ∀ x ∈ m, x.time = none → x.covers p a = true → x.block = a / 16 * 16

/-- R184, R185 for ST to a logged page with room in the log: settled memory changes only by the write-back of the line's copy of
another class (R331), the low w bytes of gd are what the core's view shows at the address from now on, and where there is no such copy
and no page has been moved, memory and every other byte of the view are as they were. -/
def Sys2Proof.Machine.StoresToLoggedPages : Prop :=
  ∀ (h : Hdr) (d a : Reg) (t : Ty) (o : Src2) (v : Word) (e : TlbEntry) (pa ctx : Nat) (s p : State),
    Issues s h (src2Locs o) p → h.eng = .a → mustWait p.core .a [.g d.toNat] = false → anyPoison p.core [.g d.toNat] = false →
    p.core.ctx = some ctx → p.core.log.length < 8192 →
    ∀ r ∈ ([(.st h d a t o, .reg a), (.stLn h d a t o, .nest a)] : List (Instr × Base)), Addressed p r.2 o v →
      let w := widthOf t / 8
      accessPage p v.toNat w { w := true } = .ok e pa → classOf pa < 2 → leafCoh e.leaf = .l → pa % 16 + w ≤ 16 → 0 < w →
      orderHeld p.core false = false →
      Completes (exec r.1 s) (fun q => WalkedTo p q h p.core.ck (nextPc s h (src2Len o)) ∧ Pushed p q h ∧ q.core.g = p.core.g ∧ OnlyWriteBacks p q ∧
        (∀ m i, i < w → TimesBelow p m (pa + i) → LatestOf p (pa + i) →
          viewByte q (leafComp e.leaf) m (pa + i) = BitVec.ofNat 8 ((readG p .a d.toNat).toNat / 256 ^ i)) ∧
        (PlainLine p (pa / 128) .l → SameMemory p q ∧
          ∀ m b, (b < pa ∨ pa + w ≤ b) → viewByte q (leafComp e.leaf) m b = viewByte p (leafComp e.leaf) m b))

/-- R184, R331, R342 for ST to private and to ordered pages. Private: the bytes stand in the core's own line, and settled memory
changes only by write-backs. Ordered: the bytes settle at once (where no later write of them is settled), and no other byte changes but
by the write-back of the line's private copy (R331). -/
def Sys2Proof.Machine.StoresToOtherPages : Prop :=
  ∀ (h : Hdr) (d a : Reg) (t : Ty) (o : Src2) (v : Word) (e : TlbEntry) (pa : Nat) (s p : State),
    Issues s h (src2Locs o) p → h.eng = .a → mustWait p.core .a [.g d.toNat] = false → anyPoison p.core [.g d.toNat] = false →
    ∀ r ∈ ([(.st h d a t o, .reg a), (.stLn h d a t o, .nest a)] : List (Instr × Base)), Addressed p r.2 o v →
      let w := widthOf t / 8
      let byte : Nat → Byte := fun i => BitVec.ofNat 8 ((readG p .a d.toNat).toNat / 256 ^ i)
      accessPage p v.toNat w { w := true } = .ok e pa → classOf pa < 2 → pa % 128 + w ≤ 128 → 0 < w → p.found = none →
      (leafCoh e.leaf = .p → orderHeld p.core false = false →
        Completes (exec r.1 s) (fun q => (q.core.eng .a).pc = nextPc s h (src2Len o) ∧ Pushed p q h ∧ q.core.g = p.core.g ∧
          OnlyWriteBacks p q ∧ ∃ l, l1Find q (pa / 128) .p = some l ∧ ∀ i, i < w → findKey l.dirty (pa + i) = some (byte i))) ∧
      (leafCoh e.leaf = .o → orderHeld p.core true = false →
        Completes (exec r.1 s) (fun q => (q.core.eng .a).pc = nextPc s h (src2Len o) ∧ Pushed p q h ∧ q.core.g = p.core.g ∧
          (∀ b, (b < pa ∨ pa + w ≤ b) → WrittenBack p q b) ∧
          ∀ i, i < w → (∀ k ∈ keysAt p (pa + i), k.time ≤ (look (0, 0) p.oLines (pa / 128)).2) → memByte q (pa + i) = byte i))

/-- R184, R446 for what an ST does to a page that another device lends: the store sets out, this package's memory and registers are as
they were, and a read of that lender by the core finds the bytes, which are applied there before it. -/
def Sys2Proof.Machine.StoresToLentPages : Prop :=
  ∀ (p : State) (e : TlbEntry) (pa w n : Nat) (mark : Bool), classOf pa = 2 → 0 < w → w ≤ 8 →
    ∃ q, storeBytes p e pa (leBytes w n) mark = some q ∧ SameMemory p q ∧ q.core.g = p.core.g ∧ q.core.log = p.core.log ∧ q.remote = p.remote ∧
      (∃ f, q.core.flying = p.core.flying ++ [f] ∧ f.ws = wholeBytes pa (leBytes w n) ∧ f.mark = mark) ∧
      ∀ i, i < w → lentValue (landFlying q (fun f => f.lender == lenderOf pa)) (pa + i) = (leBytes w n).getD i 0

/-- The segments of an MLD or MST: count, near address of each, bytes of each (R187, R188). -/
def Sys2Proof.Machine.segmentPlaces (v : Word) (n : Nat) (step : Int) : List Int := (List.range n).map (fun k => (v.toNat : Int) + (k : Int) * step)

/-- R187, R189, R190 for MLD and MST: the first segment that fails its checks raises NEAR_ADDRESS with its cause and nothing moves;
a count of 0 moves nothing; with the port free, the segments enter it one a clk from this one, the port is held for count clk, and
registers and memory are as they were. An MST also waits for the cells and the calls of R190 and R385.
Where the manual leaves a point open it states the model's choice: log entries 48 and 61. -/
def Obligations.MatrixMovesEnterThePort : Prop :=
  ∀ (h : Hdr) (d : MOp) (a : Reg) (t : Ty) (x : SegSrc) (v : Word) (s p : State), Issues s h (segLocs x) p → h.eng = .a →
    ∀ r ∈ ([(.mld h d a t x, .reg a, false), (.mldLn h d a t x, .nest a, false), (.mst h d a t x, .reg a, true),
        (.mstLn h d a t x, .nest a, true)] : List (Instr × Base × Bool)),
      mustWait p.core .a (baseLocs p r.2.1) = false → anyPoison p.core (baseLocs p r.2.1) = false → baseAddr p r.2.1 = some v →
      let n := (segList p x).1
      let places := segmentPlaces v n (segList p x).2
      let bytes := segBytes d t
      (∀ f, places.findSome? (fun b => segFault p b bytes) = some f →
        exec r.1 s = .next (takeTrap s .a { f with popped := (s.core.eng .a).noPop } (s.core.eng .a).pc)) ∧
      (places.findSome? (fun b => segFault p b bytes) = none → n = 0 →
        Completes (exec r.1 s) (fun q => WalkedTo p q h p.core.ck (nextPc s h (segLen x)) ∧ Pushed p q h ∧ OnlyWalked p q ∧ SameMemory p q)) ∧
      (places.findSome? (fun b => segFault p b bytes) = none → 0 < n → orderHeld p.core false = false → p.core.portFree ≤ p.core.ck →
        portWaits p.core = false →
        (r.2.2 = true → mustWait p.core .a (((List.range n).flatMap (segmentCells d)).map Loc.cell) = false ∧
          mstHeld p (places.map (fun b => (b.toNat, bytes))) = false) →
        Completes (exec r.1 s) (fun q => WalkedTo p q h p.core.ck (nextPc s h (segLen x)) ∧ Reserved p q h ∧ SameMemory p q ∧
          q.core.portFree = p.core.ck + n ∧ q.core.cells = p.core.cells ∧ q.core.near = p.core.near ∧ q.core.g = p.core.g ∧
          ∃ ls, q.core.landing = p.core.landing ++ ls ∧ ls.length = n ∧ ∀ k l, ls[k]? = some l →
            l.due = some (p.core.ck + k) ∧ l.push = (if k + 1 = n then h.push else 0) ∧
            l.act = (if r.2.2 then LandAct.storeSegment ((v.toNat : Int) + (k : Int) * (segList p x).2).toNat (segmentCells d k) t
              else LandAct.loadSegment ((v.toNat : Int) + (k : Int) * (segList p x).2).toNat (segmentCells d k) t)))

/-- R193 for PROBE and PROBE.ln: a hit, pending or not, writes the slot's near address with v's low 12 bits and makes the entry most
recent; the walk goes on, memory is as it was. -/
def Sys2Proof.Machine.ProbeHits : Prop :=
  ∀ (h : Hdr) (d a : Reg) (o : Src2) (v : Word) (e : TlbEntry) (pa : Nat) (g : ProbeTag) (s p : State), Issues s h (src2Locs o) p → h.eng = .a →
    outranked p.core .a (p.core.ck + 1) d.toNat = false →
    ∀ r ∈ ([(.probe h d a o, .reg a), (.probeLn h d a o, .nest a)] : List (Instr × Base)),
      mustWait p.core .a (baseLocs p r.2) = false → anyPoison p.core (baseLocs p r.2) = false → baseAddr p r.2 = some v →
      accessPage p v.toNat 1 { r := true } = .ok e pa → classOf pa < 2 →
      let base := bits (readSys p .a sysPRCFG) 9 0
      let count := bits (readSys p .a sysPRCFG) 19 10
      (count = 0 ∨ 512 < base + count →
        exec r.1 s = .next (takeTrap s .a { code := .probeConfig, popped := (s.core.eng .a).noPop } (s.core.eng .a).pc)) ∧
      (0 < count → base + count ≤ 512 → orderHeld p.core false = false → p.core.probeTags.any ProbeTag.mark = false →
        p.core.probeTags.find? (fun y => y.block == v.toNat / 4096) = some g →
        Completes (exec r.1 s) (fun q => (q.core.eng .a).pc = nextPc s h (src2Len o) ∧ Pushed p q h ∧ SameMemory p q ∧
          RegWritten p q h d.toNat (BitVec.ofNat 64 (4096 * (base + g.entry) + v.toNat % 4096)) [] ∧
          q.core.fillQueue = p.core.fillQueue ∧ ∃ g', q.core.probeTags.head? = some g' ∧ g'.entry = g.entry))

/-- R193, R376 for a PROBE that misses with an entry to take: the entry is claimed, pending, for v's block, and most recent; the fill
is queued; gd holds the slot's address; outside a stretch the access engine alone continues at the miss target, in a miss stretch
that leads back to the instruction after the PROBE. -/
def Sys2Proof.Machine.ProbeMisses : Prop :=
  ∀ (h : Hdr) (d a : Reg) (o : Src2) (v : Word) (e : TlbEntry) (pa n : Nat) (s p : State), Issues s h (src2Locs o) p → h.eng = .a →
    outranked p.core .a (p.core.ck + 1) d.toNat = false →
    ∀ r ∈ ([(.probe h d a o, .reg a), (.probeLn h d a o, .nest a)] : List (Instr × Base)),
      mustWait p.core .a (baseLocs p r.2) = false → anyPoison p.core (baseLocs p r.2) = false → baseAddr p r.2 = some v →
      accessPage p v.toNat 1 { r := true } = .ok e pa → classOf pa < 2 →
      let base := bits (readSys p .a sysPRCFG) 9 0
      let count := bits (readSys p .a sysPRCFG) 19 10
      0 < count → base + count ≤ 512 → orderHeld p.core false = false → p.core.fillQueue.length < 16 →
      p.core.probeTags.any ProbeTag.mark = false →
      p.core.probeTags.find? (fun y => y.block == v.toNat / 4096) = none → probeVictim p.core count = some n →
      Completes (exec r.1 s) (fun q => Pushed p q h ∧ SameMemory p q ∧
        RegWritten p q h d.toNat (BitVec.ofNat 64 (4096 * (base + n) + v.toNat % 4096)) [] ∧
        q.core.probeTags = { entry := n, pending := true, block := v.toNat / 4096 } :: p.core.probeTags.filter (fun y => y.entry != n) ∧
        q.core.fillQueue = p.core.fillQueue ++
          [{ entry := n, slot := 4096 * (base + n), page := e, pa := pa / 4096 * 4096, tag := p.core.engA.walk, order := p.core.engA.seq }] ∧
        (p.core.engA.stretch = none → q.core.engA.pc = probeTarget p p.core.engA.pc o ∧
          q.core.engA.stretch = some (.miss (nextPc s h (src2Len o)))) ∧
        (p.core.engA.stretch ≠ none → q.core.engA.pc = nextPc s h (src2Len o) ∧ q.core.engA.stretch = p.core.engA.stretch))

/-- The twelve atomics: operation, and whether it returns a result (R197). -/
def Sys2Proof.Machine.atomicRows (h : Hdr) (sc : Scope) (d a : Reg) (t : Ty) (o : Src2) : List (Instr × AOp × Bool) :=
  [(.aadd h sc d a t o, .add, true), (.amin h sc d a t o, .min, true), (.amax h sc d a t o, .max, true), (.aor h sc d a t o, .or, true),
   (.aand h sc d a t o, .and, true), (.axchg h sc d a t o, .xchg, true), (.acas h sc d a t o, .cas, true), (.aaddN h sc a t o, .add, false),
   (.aminN h sc a t o, .min, false), (.amaxN h sc a t o, .max, false), (.aorN h sc a t o, .or, false), (.aandN h sc a t o, .and, false)]

/-- R198's new value on integers of `w` bits: addition modulo 2^w, the smaller and larger by the type's order, the bitwise
operations, exchange, and exchange where the old bits equal the compare value. -/
def Sys2Proof.Machine.atomicResult (op : AOp) (t : Ty) (old x cmp : Nat) : Nat :=
  let w := widthOf t
  let less := if isSigned t then decide (signedOf w x < signedOf w old) else decide (x < old)
  match op with
  | .add => (old + x) % 2 ^ w
  | .min => if less then x else old
  | .max => if less then old else x
  | .or => old ||| x
  | .and => old &&& x
  | .xchg => x
  | .cas => if old = cmp then x else old

/-- R198's new value, with its event: on f32 the sum rounded once in rm (R77, R78), the smaller or larger as VMIN and VMAX take it. -/
def Sys2Proof.Machine.atomicElem (op : AOp) (t : Ty) (rm : BitVec 2) (ovt : Word) (old x cmp : Nat) : Elem :=
  match fmtOf t, op with
  | some f, .add => arith f rm (arithOver ovt t f) [numOfFmt f old, numOfFmt f x] (addNum rm (numOfFmt f old) (numOfFmt f x))
  | some f, .min => floatMin f false old x
  | some f, .max => floatMin f true old x
  | _, _ => ⟨atomicResult op t old x cmp, none⟩

/-- The bytes `byte` at `a` stand in an unpublished record of the core's log (R334). -/
def Sys2Proof.Machine.LoggedAt (q : State) (a w : Nat) (byte : Nat → Byte) : Prop :=
  ∃ r ∈ q.core.log, r.time = none ∧ r.block = a / 16 * 16 ∧ ∀ i, i < w →
    (r.data >>> (8 * ((a + i) % 16))).setWidth 8 = byte i ∧ (r.mask >>> (8 * ((a + i) % 16))).setWidth 8 = 255#8

/-- No page stands between its copying and its mapping switch (R165). -/
def Sys2Proof.Machine.NoneMoves (p : State) : Prop := ∀ d ∈ p.dies, ∀ m ∈ d.2.migrations, m.pushed = true → m.switched = true

/-- R198, R199, R201 and R344 for the atomics: the faults of their own in order; otherwise, with fewer than 16 outstanding, room in the
log, no poison and no error in DRAM, each completes: the old value, extended by the type, is on its way to gd of a returning form, the
tokens come with it, and memory changes by write-backs alone but for the bytes of an atomic at its home slice. Old and new value by
R344's rows: private page, in the core's line; logged page, the core's view and a record; scope .clu, the cluster's exclusive copy, and
that copy and a record; the home scopes, settled memory under the issuer's own records, and settled at once at T, which the clock takes;
ordered page, the settled value, and settled. -/
def Obligations.AtomicsComplete : Prop :=
  ∀ (h : Hdr) (sc : Scope) (d a : Reg) (t : Ty) (o : Src2) (e : TlbEntry) (pa : Nat) (s p : State),
    Issues s h (.g a.toNat :: (src2Locs o ++ [.g d.toNat])) p → Issues s h (.g a.toNat :: src2Locs o) p → h.eng = .a →
    t = .f32 ∨ t = .s32 ∨ t = .s64 ∨ t = .z32 ∨ t = .z64 →
    let v := (readG p .a a.toNat).toNat
    let w := widthOf t / 8
    let x := (if isSigned t then src2S p .a o else src2Z p .a o).toNat % 2 ^ widthOf t
    let cmp := (readG p .a d.toNat).toNat % 2 ^ widthOf t
    accessPage p v w { r := true, w := true } = .ok e pa → classOf pa ≠ 3 →
    ∀ r ∈ atomicRows h sc d a t o, (t = .f32 → r.2.1 = .add ∨ r.2.1 = .min ∨ r.2.1 = .max) →
      let E : Nat → Elem := fun old => atomicElem r.2.1 t h.rm (readSys p .a sysOVT) old x cmp
      let Raises := fun (n : Nat) => exec r.1 s =
        .next (takeTrap s .a { code := .atomic, cause := n, tval := BitVec.ofNat 64 v, popped := (s.core.eng .a).noPop } (s.core.eng .a).pc)
      (classOf pa = 2 → Raises 2) ∧
      (classOf pa < 2 → leafComp e.leaf ≠ 0 → Raises 3) ∧
      (classOf pa < 2 → leafComp e.leaf = 0 → scopeAdmitted sc (leafCoh e.leaf) = false → Raises 1) ∧
      (classOf pa < 2 → leafComp e.leaf = 0 → scopeAdmitted sc (leafCoh e.leaf) = true → orderHeld p.core (decide (2 ≤ scopeNum sc)) = false →
        outstandingAtomics p.core < 16 → p.core.log.length < 8192 → atomicPoison p e sc pa w = false → p.found = none → pa % 16 + w ≤ 16 →
        Completes (exec r.1 s) (fun q => ∃ old,
          (let y : Word := if isSigned t then BitVec.ofInt 64 (signedOf (widthOf t) old) else BitVec.ofNat 64 (old % 2 ^ widthOf t)
           let ws : List Late := if r.2.2 = true ∧ d ≠ 0 then [{ loc := .g d.toNat, val := y }] else []
           q.core.landing = p.core.landing ++
             [{ due := none, eng := .a, seq := p.core.engA.seq, tag := p.core.engA.walk, scoreboard := true, act := .write ws,
                push := h.push, isAtomic := true, counts := if t = .f32 then fecOf 0 (E old).kind else [] }]) ∧
          Reserved p q h ∧ q.core.g = p.core.g ∧ (q.core.eng .a).pc = nextPc s h (src2Len o) ∧
          let word := fun (f : Nat → Byte) => leNat ((List.range w).map (fun i => f (pa + i)))
          let byte : Nat → Byte := fun i => BitVec.ofNat 8 ((E old).bits / 256 ^ i)
          (leafCoh e.leaf ≠ .o → scopeNum sc < 2 → OnlyWriteBacks p q) ∧
          (leafCoh e.leaf = .p →
            (∀ l, l1Find p (pa / 128) .p = some l → l.moment ≤ p.now →
              old = word (fun a => (findKey l.dirty a).getD (byteAt p l.moment a))) ∧
            (l1Find p (pa / 128) .p = none → old = word (byteAt p p.now)) ∧
            ∃ l, l1Find q (pa / 128) .p = some l ∧ ∀ i, i < w → findKey l.dirty (pa + i) = some (byte i)) ∧
          (leafCoh e.leaf = .l → sc = .core → LoggedAt q pa w byte ∧
            ∃ s1 m, OnlyWriteBacks p s1 ∧ s1.core.log = p.core.log ∧ s1.core.replay = p.core.replay ∧ s1.core.ctx = p.core.ctx ∧
              p.core.moment ≤ m ∧ (p.core.moment ≤ p.now → m ≤ s1.now) ∧ old = word (viewByte s1 0 m)) ∧
          (leafCoh e.leaf = .l → sc = .clu → LoggedAt q pa w byte ∧
            (∀ l, exclusiveCopy p (pa / 128) = some l → old = word (exclusiveByte p l)) ∧
            (exclusiveCopy p (pa / 128) = none →
              old = word (fun a => (findKey (broughtBack p (pa / 128)) a).getD (byteAt p p.now a))) ∧
            ∃ l, exclusiveCopy q (pa / 128) = some l ∧ ∀ i, i < w → exclusiveByte q l (pa + i) = byte i) ∧
          (leafCoh e.leaf = .l → 2 ≤ scopeNum sc → old = word (overlaid p) ∧ (∀ i, i < w → memByte q (pa + i) = byte i) ∧
            (NoneMoves p → (∀ b, (b < pa ∨ pa + w ≤ b) → memByte q b = memByte p b) ∧
              q.core.clock = max p.core.clock (greatestTime p [16 * (pa / 16)]) + 1)) ∧
          (leafCoh e.leaf = .o → old = word (memByte p) ∧
            (∀ b, (b < pa ∨ pa + w ≤ b) → WrittenBack p q b) ∧
            ∀ i, i < w → (∀ k ∈ keysAt p (pa + i), k.time ≤ (look (0, 0) p.oLines (pa / 128)).2) → memByte q (pa + i) = byte i)))

/-! ### Ordering (R348 to R355) -/

/-- The log after a publication at the next release time (R336): every unpublished record carries it, written and provisional for the
task. -/
def Sys2Proof.Machine.publishedLog (p : State) : List LogRec :=
  p.core.log.map (fun r => if r.time = none then { r with time := some (p.core.clock + 1), prov := if p.core.noRollback then none else taskMark p, owner := taskMark p } else r)

/-- Records of the task on the core are no longer provisional (R357), nor those that a faulted task of its context has left in the
core's log (log entry 12). -/
def Sys2Proof.Machine.irrevocable (p : State) (l : List LogRec) : List LogRec :=
  l.map (fun x => match x.prov with
    | some m => if m ∈ (taskMark p).toList ++ keptMarks { p.core with log := l } then { x with prov := none } else x
    | none => x)

/-- R350 for REL, R352 for FENCE once earlier copies, fills, loads and atomics are done: with no earlier REL, FENCE or SETTLE
uncompleted it publishes the log at the next release time, and stands uncompleted with its tokens reserved; at .sys the records of
its task cease to be provisional (R357). Registers and memory are as they were. -/
def Sys2Proof.Machine.ReleasesAndFencesPublish : Prop :=
  ∀ (h : Hdr) (s p : State), Issues s h [] p → h.eng = .a → orderHeld p.core true = false →
    ∀ r ∈ ([(.relCore h, 1, 0, false), (.relCoreLong h, 2, 0, false), (.relClu h, 1, 1, false), (.relCluLong h, 2, 1, false),
        (.relDie h, 1, 2, false), (.relDieLong h, 2, 2, false), (.relPkg h, 1, 3, false), (.relPkgLong h, 2, 3, false),
        (.relSys h, 1, 4, false), (.relSysLong h, 2, 4, false), (.fenceCore h, 1, 0, true), (.fenceCoreLong h, 2, 0, true),
        (.fenceClu h, 1, 1, true), (.fenceCluLong h, 2, 1, true), (.fenceDie h, 1, 2, true), (.fenceDieLong h, 2, 2, true),
        (.fencePkg h, 1, 3, true), (.fencePkgLong h, 2, 3, true), (.fenceSys h, 1, 4, true), (.fenceSysLong h, 2, 4, true)] :
        List (Instr × Nat × Nat × Bool)),
      (r.2.2.2 = true → accessesDone p = true) → (r.2.2.1 = 4 → p.core.lostStores = 0) →
      Completes (exec r.1 s) (fun t => WalkedTo p t h p.core.ck (nextPc s h r.2.1) ∧ Reserved p t h ∧ t.core.g = p.core.g ∧ SameMemory p t ∧
        t.core.clock = p.core.clock + 1 ∧
        (r.2.2.1 < 4 → t.core.log = publishedLog p) ∧
        (r.2.2.1 = 4 → t.core.log = irrevocable p (publishedLog p)) ∧
        ∃ w, t.core.orderWaits = p.core.orderWaits ++ [w] ∧ w.push = h.push ∧
          w.op = if r.2.2.2 then Ordering.fence r.2.2.1 (p.core.clock + 1) else Ordering.rel r.2.2.1 (p.core.clock + 1))

/-- R349, R351 for ACQ: a selector malformed by its kind, its reserved bits, its mask or its number raises ORDER cause 2, a named
log the scope does not reach cause 1, and nothing is replayed; otherwise, behind no uncompleted REL, FENCE or SETTLE, it completes:
what joins the replay set are published, unsettled records of the named logs in its context, all of them that a chain of R340 has
made certain among them, nothing leaves it, and the moment of its reads is now. -/
def Sys2Proof.Machine.AcquiresReplay : Prop :=
  ∀ (h : Hdr) (a : Reg) (s p : State), Issues s h [.g a.toNat] p → h.eng = .a →
    ∀ r ∈ ([(.acqCore h a, 1, 0), (.acqCoreLong h a, 2, 0), (.acqClu h a, 1, 1), (.acqCluLong h a, 2, 1), (.acqDie h a, 1, 2),
        (.acqDieLong h a, 2, 2), (.acqPkg h a, 1, 3), (.acqPkgLong h a, 2, 3), (.acqSys h a, 1, 4), (.acqSysLong h a, 2, 4)] :
        List (Instr × Nat × Nat)),
      let w := (readG p .a a.toNat).toNat
      let Raises := fun (n : Nat) => exec r.1 s =
        .next (takeTrap s .a { code := .order, cause := n, popped := (s.core.eng .a).noPop } (s.core.eng .a).pc)
      (w / 2 ^ 62 = 3 ∨ w / 2 ^ 16 % 2 ^ 46 ≠ 0 → Raises 2) ∧
      (w / 2 ^ 62 = 0 → w % 2 ^ 16 ≠ 0 → Raises 2) ∧ (w / 2 ^ 62 = 1 → w / 2 ^ 8 % 2 ^ 8 ≠ 0 → Raises 2) ∧
      (w / 2 ^ 62 = 2 → 32 ≤ w % 2 ^ 8 → Raises 2) ∧
      (w / 2 ^ 8 = 2 ^ 54 → reaches r.2.2 p.cur (w % 2 ^ 8) = false → Raises 1) ∧
      (w / 2 ^ 16 = 2 ^ 47 → w % 2 ^ 8 < 32 →
        (∃ i < 8, w.testBit (8 + i) = true ∧ reaches r.2.2 p.cur (8 * (w % 2 ^ 8) + i) = false) → Raises 1) ∧
      (∀ ws, selected r.2.2 p.cur (readG p .a a.toNat) = .ok ws → orderHeld p.core true = false →
        Completes (exec r.1 s) (fun t => (t.core.eng .a).pc = nextPc s h r.2.1 ∧ Pushed p t h ∧ t.core.g = p.core.g ∧
          t.core.moment = p.now ∧ (∀ x ∈ p.core.replay, x ∈ t.core.replay) ∧
          (∀ x ∈ t.core.replay, x ∈ p.core.replay ∨ (x.1 ∈ ws ∧ x.1 ≠ p.cur ∧ x.2 ∈ (coreAt p x.1).log ∧ x.2.time ≠ none ∧
            x.2.settled = false ∧ some x.2.ctx = p.core.ctx)) ∧
          (∀ w ∈ ws, w ≠ p.cur → ∀ k < 5, reaches k w p.cur = true → ∀ x ∈ (coreAt p w).log, ∀ n, x.time = some n →
            n ≤ look 0 p.core.known (8 * w + k) → x.settled = false → some x.ctx = p.core.ctx → (w, x) ∈ t.core.replay) ∧
          (r.2.2 < 4 → SameMemory p t) ∧ OnlyWriteBacks p t))

/-- R353 for SETTLE: it publishes nothing; the records its task has published before it cease to be provisional, and it stands
uncompleted up to the core's last release time. -/
def Sys2Proof.Machine.SettlesWait : Prop :=
  ∀ (h : Hdr) (code : Bool) (s p : State), Issues s h [] p → h.eng = .a → orderHeld p.core false = false →
    ∀ r ∈ ([(.settle h code, 1), (.settleLong h code, 2)] : List (Instr × Nat)),
      Completes (exec r.1 s) (fun t => WalkedTo p t h p.core.ck (nextPc s h r.2) ∧ Reserved p t h ∧ t.core.g = p.core.g ∧ SameMemory p t ∧
        t.core.clock = p.core.clock ∧
        t.core.log = irrevocable p p.core.log ∧
        ∃ w, t.core.orderWaits = p.core.orderWaits ++ [w] ∧ w.push = h.push ∧ w.op = Ordering.settle code p.core.clock)

/-! ### FIFOs, copies, row commands (R110, R111, R142 to R149) -/

/-- R145 for PUSHE and PUSHE.t at an address that translates for writing: outside the FIFOs it raises ENGINE_COMMAND, and so does a
command that runs past g63 or asks a FIFO other than a copy engine's for a rounding mode; a full FIFO lets PUSHE wait and PUSHE.t end with 0 in gd, no tokens and no release; otherwise the log is
published, the command g[a] and up is appended with the release, PUSHE.t writes 1, and the tokens are pushed. -/
def Sys2Proof.Machine.PushesAppendCommands : Prop :=
  ∀ (h : Hdr) (d a : Reg) (o : Src2) (e : TlbEntry) (pa : Nat) (s p : State), Issues s h (src2Locs o) p → h.eng = .a →
    let v := src2Z p .a o
    translate p .a v.toNat { w := true } = .ok e pa →
    let Faults := fun (i : Instr) => exec i s =
      .next (takeTrap s .a { code := .engineCommand, tval := v, popped := (s.core.eng .a).noPop } (s.core.eng .a).pc)
    (fifoReached p pa = none → Faults (.pushe h a o) ∧ Faults (.pusheT h d a o)) ∧
    (∀ die k, fifoReached p pa = some (die, k) →
      let n := (fifoShape k).1
      let locs := (List.range n).map (fun i => Loc.g (a.toNat + i))
      (64 < a.toNat + n ∨ (h.rm ≠ 0 ∧ ¬(fifoCopy ≤ k ∧ k < fifoMail)) → Faults (.pushe h a o) ∧ Faults (.pusheT h d a o)) ∧
      (a.toNat + n ≤ 64 → (h.rm = 0 ∨ (fifoCopy ≤ k ∧ k < fifoMail)) → orderHeld p.core true = false →
        mustWait p.core .a locs = false → outOfTurn p die (fifoAt p die k).pushed = false → anyPoison p.core locs = false →
        (fifoFull p die k = true → exec (.pushe h a o) s = .next s ∧
          (outranked p.core .a (p.core.ck + 1) d.toNat = false →
            Completes (exec (.pusheT h d a o) s) (fun t => (t.core.eng .a).pc = nextPc s h (src2Len o) ∧ RegWritten p t h d.toNat 0 [] ∧
              t.core.tokens = p.core.tokens ∧ t.core.log = p.core.log ∧ SameMemory p t))) ∧
        (fifoFull p die k = false →
          ∀ r ∈ ([(.pushe h a o, none), (.pusheT h d a o, some d)] : List (Instr × Option Reg)),
            (∀ g, r.2 = some g → outranked p.core .a (p.core.ck + 1) g.toNat = false) →
            Completes (exec r.1 s) (fun t => (t.core.eng .a).pc = nextPc s h (src2Len o) ∧ Pushed p t h ∧ SameMemory p t ∧
              t.core.log = publishedLog p ∧ t.core.clock = p.core.clock + 1 ∧
              (r.2 = none → t.core.g = p.core.g) ∧ (∀ g, r.2 = some g → RegWritten p t h g.toNat 1 []) ∧
              ∃ c ws, (fifoAt t die k).cmds = (fifoAt p die k).cmds ++ [c] ∧ c.core = p.cur ∧ c.rm = h.rm ∧
                c.words = (List.range n).map (fun i => readG p .a (a.toNat + i)) ++ ws ∧
                c.release.core = some p.cur ∧ c.release.time = p.core.clock + 1))))

/-- R146 for POPE and POPE.t at an address that translates for reading: with nothing to take POPE waits and POPE.t ends with 0 in
ga, gd unchanged and no tokens; otherwise gd holds the element taken, POPE.t writes 1 to ga (last, where both name one register),
the pops' release is acquired (clock and moment of R346), and a fault the element reports is raised after it. -/
def Sys2Proof.Machine.PopsTakeElements : Prop :=
  ∀ (h : Hdr) (d a : Reg) (o : Src2) (e : TlbEntry) (pa die k : Nat) (s p : State), Issues s h (src2Locs o) p → h.eng = .a →
    let v := src2Z p .a o
    translate p .a v.toNat { r := true } = .ok e pa → fifoReached p pa = some (die, k) → orderHeld p.core false = false →
    outOfTurn p die (fifoAt p die k).popped = false →
    outranked p.core .a (p.core.ck + 1) d.toNat = false → outranked p.core .a (p.core.ck + 1) a.toNat = false →
    (takeElement (touchTlb p e) die k = none → exec (.pope h d o) s = .next s ∧
      Completes (exec (.popeT h d a o) s) (fun t => (t.core.eng .a).pc = nextPc s h (src2Len o) ∧ RegWritten p t h a.toNat 0 [] ∧
        t.core.tokens = p.core.tokens ∧ SameMemory p t)) ∧
    (∀ x q, takeElement (touchTlb p e) die k = some (x, q) → x.fault = none → x.mark = false →
      Completes (exec (.pope h d o) s) (fun t => (t.core.eng .a).pc = nextPc s h (src2Len o) ∧ Pushed p t h ∧ SameMemory p t ∧
        t.core.moment = p.now ∧ x.release.time ≤ t.core.clock ∧ p.core.clock ≤ t.core.clock ∧
        look 0 t.core.g.cur d.toNat = (if d = 0 then look 0 p.core.g.cur 0 else x.val) ∧ OtherRegsSame p t d.toNat) ∧
      Completes (exec (.popeT h d a o) s) (fun t => (t.core.eng .a).pc = nextPc s h (src2Len o) ∧ Pushed p t h ∧ SameMemory p t ∧
        t.core.moment = p.now ∧ x.release.time ≤ t.core.clock ∧
        ∀ r, look 0 t.core.g.cur r = if r = 0 then look 0 p.core.g.cur 0 else if r = a.toNat then 1 else if r = d.toNat then x.val
          else look 0 p.core.g.cur r)) ∧
    (∀ x f q, takeElement (touchTlb p e) die k = some (x, q) → x.fault = some f → x.mark = false → privileged p.core = false →
      sysNow p.core sysTVEC ≠ 0 →
      Completes (exec (.pope h d o) s) (fun t => privileged t.core = true ∧ sysNow t.core sysTVAL = x.val ∧
        (sysNow t.core sysTCAUSE).getLsbD 39 = true ∧ (sysNow t.core (sysTPC + 1)).toNat = nextPc s h (src2Len o) % 2 ^ 64))

/-- R148, R149 for COPY and COPY.ln: with room in the copy queue the command joins it with the twelve registers of its layout, the
transform, the near address, its group's number as tag (R363) and the tokens it is to push; nothing else changes. -/
def Sys2Proof.Machine.CopiesJoinTheQueue : Prop :=
  ∀ (h : Hdr) (d a : Reg) (o : Src2) (s p : State), h.eng = .a → orderHeld p.core false = false → p.core.copyQueue.length < 32 →
    (pushedCopies p).isEmpty = true →
    let Queued := fun (v : Word) (t : State) => WalkedTo p t h p.core.ck (nextPc s h (src2Len o)) ∧ Reserved p t h ∧ SameMemory p t ∧
      t.core.g = p.core.g ∧ t.core.near = p.core.near ∧
      ∃ q, t.core.copyQueue = p.core.copyQueue ++ [q] ∧ q.layout = (List.range 12).map (fun i => readG p .a (a.toNat + i)) ∧
        q.xform = (src2Z p .a o).setWidth 32 ∧ q.near = v.toNat ∧ q.tag = p.core.engA.walk ∧ q.push = h.push ∧ q.rm = h.rm
    (Issues s h (.g d.toNat :: copyLocs a o) p → Completes (exec (.copy h d a o) s) (Queued (readG p .a d.toNat))) ∧
    (∀ w, Issues s h (copyLocs a o) p → mustWait p.core .a (lnLocs p d.toNat) = false → anyPoison p.core (lnLocs p d.toNat) = false →
      lnAddress p d.toNat = some w → Completes (exec (.copyLn h d a o) s) (Queued w))

/-- R110, R111 for PROMOTE, PROMOTE.H and DEMOTE: a count of 0 does nothing; above 4,096 it raises MEMORY_COMMAND; with the page
translated and every granule in it, none in class E, all backed and fewer than 16 commands unfinished, the command joins the core's
unfinished ones with one row operation for each class C granule; promotion moves no byte a program can see. -/
def Sys2Proof.Machine.RowCommandsIssue : Prop :=
  ∀ (h : Hdr) (a : Reg) (o : Src2) (s p : State), Issues s h (.g a.toNat :: src2Locs o) p → h.eng = .a →
    let v := (readG p .a a.toNat).toNat
    let n := (src2Z p .a o).toNat
    ∀ r ∈ ([(.promote h a o, 0), (.promoteH h a o, 1), (.demote h a o, 2)] : List (Instr × Nat)),
      (n = 0 → Completes (exec r.1 s) (fun t => WalkedTo p t h p.core.ck (nextPc s h (src2Len o)) ∧ Pushed p t h ∧ OnlyWalked p t)) ∧
      (4096 < n → exec r.1 s =
        .next (takeTrap s .a { code := .memoryCommand, popped := (s.core.eng .a).noPop } (s.core.eng .a).pc)) ∧
      (∀ e pa, 0 < n → n ≤ 4096 → translateRights p .a v { r := true } = .ok e pa → v / 1024 * 1024 + 1024 * n ≤ e.base + e.size →
        classOf pa ≠ 3 → (∀ k, k < n → backed (pa / 1024 * 1024 + 1024 * k) = true) → orderHeld p.core false = false →
        p.core.rowOps.length < 16 →
        Completes (exec r.1 s) (fun t => WalkedTo p t h p.core.ck (nextPc s h (src2Len o)) ∧ Reserved p t h ∧ SameMemory p t ∧
          t.core.g = p.core.g ∧
          ∃ id, t.core.rowOps = p.core.rowOps ++
            [(((List.range n).filter (fun k => classOf (pa / 1024 * 1024 + 1024 * k) = 0)).length, id, h.push, p.core.engA.seq)] ∧
          ∀ k, (stackAt t k).rowOps = (stackAt p k).rowOps ++
            (((List.range n).map (fun i => pa / 1024 * 1024 + 1024 * i)).filter (fun g => classOf g = 0 ∧ stackOf g = k)).map
              (fun g => { kind := r.2, addr := g, core := p.cur, seq := id })))

/-! ### The vector engine (R223 to R247) -/

/-- A vector instruction of `len` parcels has issued and its result is on its way: after `lat` clk the cells of `ws` are written, its
tokens pushed and `counts` counted (R226); cells, registers and memory are as they were. -/
structure Sys2Proof.Machine.SentCells (s p t : State) (h : Hdr) (len lat : Nat) (ws : List Late) (counts : List Nat) : Prop where
  walk : WalkedTo p t h p.core.ck (nextPc s h len)
  tokens : Reserved p t h
  landing : t.core.landing = p.core.landing ++ [{ due := some (p.core.ck + lat), eng := h.eng, seq := (p.core.eng h.eng).seq,
                                                  scoreboard := false, act := .write ws, push := h.push, counts := counts }]
  memory : SameMemory p t
  rest : OnlyLanding p t

/-- Cell `k` of a view, as the vector engine reads it. -/
def Sys2Proof.Machine.cellOf (p : State) (m : MOp) (k : Nat) : Nat := (readCell p .v ((viewCells m).getD k 0)).toNat

/-- Element `k` of src2: of its view, or the literal for every `k` (R230). -/
def Sys2Proof.Machine.srcOf (p : State) (x : VSrc) (k : Nat) : Nat := match x with | .mat m => cellOf p m k | .lit l => l.toNat

/-- The views of an instruction have `n` elements each (R230). -/
def Sys2Proof.Machine.SameCount (n : Nat) (d a : MOp) (x : VSrc) : Prop :=
  (viewCells d).length = n ∧ (viewCells a).length = n ∧ ∀ m, x = .mat m → (viewCells m).length = n

/-- The writes of element-wise values to the cells of a view. -/
def Sys2Proof.Machine.cellWrites (d : MOp) (n : Nat) (f : Nat → Nat) (mark : Nat → Bool) : List Late :=
  (List.range n).map (fun k => { loc := .cell ((viewCells d).getD k 0), val := BitVec.ofNat 64 (f k % 2 ^ 32), mark := mark k })

/-- An element of an integer type as an integer: two's complement for s types. -/
def Sys2Proof.Machine.intElem (t : Ty) (c : Nat) : Int :=
  let b := widthOf t
  if isSigned t ∧ 2 ^ (b - 1) ≤ c % 2 ^ b then ((c % 2 ^ b : Nat) : Int) - 2 ^ b else ((c % 2 ^ b : Nat) : Int)

/-- The nearest integer within an integer type's range. -/
def Sys2Proof.Machine.clampTo (t : Ty) (i : Int) : Int :=
  let b := widthOf t
  let lo : Int := if isSigned t then -2 ^ (b - 1) else 0
  let hi : Int := if isSigned t then 2 ^ (b - 1) - 1 else 2 ^ b - 1
  max lo (min hi i)

/-- The low bits of an integer, as many as the type has. -/
def Sys2Proof.Machine.lowBits (t : Ty) (i : Int) : Nat := (i % 2 ^ widthOf t).toNat

/-- R233 with R226 and R230: with an integer type VADD, VSUB, VMUL, VFMA, VMIN, VMAX, VABS and VNEG write after four clk the low bits
of the exact result of each element and count nothing; the .sat forms clamp it to the type's range, each clamped element counting
kind 2 in group 7. -/
def Sys2Proof.Machine.IntegerLanes : Prop :=
  ∀ (h : Hdr) (d a : MOp) (t : Ty) (x : VSrc) (n : Nat) (s p : State), fmtOf t = none → h.eng = .v → SameCount n d a x →
    let A : Nat → Int := fun k => intElem t (cellOf p a k)
    let S : Nat → Int := fun k => intElem t (srcOf p x k)
    let D : Nat → Int := fun k => intElem t (cellOf p d k)
    let Wraps := fun (i : Instr) (len : Nat) (e : Nat → Int) =>
      Completes (exec i s) (fun q => SentCells s p q h len 4 (cellWrites d n (fun k => lowBits t (e k)) (fun _ => false)) [])
    let Clamps := fun (i : Instr) (len : Nat) (e : Nat → Int) =>
      Completes (exec i s) (fun q => SentCells s p q h len 4 (cellWrites d n (fun k => lowBits t (clampTo t (e k))) (fun _ => false))
        ((List.range n).flatMap (fun k => if clampTo t (e k) = e k then [] else fecOf 7 (some 2))))
    (Issues s h (cellLocs (viewCells a ++ vsrcCells x)) p →
      Wraps (.vadd h d a t x) 3 (fun k => A k + S k) ∧ Wraps (.vsub h d a t x) 3 (fun k => A k - S k) ∧
      Wraps (.vmul h d a t x) 3 (fun k => A k * S k) ∧ Wraps (.vmin h d a t x) 3 (fun k => min (A k) (S k)) ∧
      Wraps (.vmax h d a t x) 3 (fun k => max (A k) (S k)) ∧ Clamps (.vaddSat h d a t x) 3 (fun k => A k + S k) ∧
      Clamps (.vsubSat h d a t x) 3 (fun k => A k - S k) ∧ Clamps (.vmulSat h d a t x) 3 (fun k => A k * S k)) ∧
    (Issues s h (cellLocs (viewCells a ++ vsrcCells x ++ viewCells d)) p →
      Wraps (.vfma h d a t x) 3 (fun k => A k * S k + D k) ∧ Clamps (.vfmaSat h d a t x) 3 (fun k => A k * S k + D k)) ∧
    (Issues s h (cellLocs (viewCells a)) p →
      Wraps (.vabs h d a t) 2 (fun k => |A k|) ∧ Wraps (.vneg h d a t) 2 (fun k => -A k) ∧
      Clamps (.vabsSat h d a t) 2 (fun k => |A k|) ∧ Clamps (.vnegSat h d a t) 2 (fun k => -A k))

/-- R234, R235, R236: shifts by the unsigned low bits of src2, bitwise operations on the type's bits whatever the type, and
comparisons that write whole cells of ones or zeros, all after four clk. A comparison with a NaN holds for .ne alone. -/
def Sys2Proof.Machine.ShiftsBitsAndComparisons : Prop :=
  ∀ (h : Hdr) (d a : MOp) (t : Ty) (x : VSrc) (n : Nat) (s p : State), h.eng = .v → SameCount n d a x →
    Issues s h (cellLocs (viewCells a ++ vsrcCells x)) p →
    let b := widthOf t
    let A : Nat → Nat := fun k => cellOf p a k % 2 ^ b
    let S : Nat → Nat := fun k => srcOf p x k % 2 ^ b
    let N : Nat → Nat := fun k => S k % 2 ^ min b 6
    let Writes := fun (i : Instr) (e : Nat → Nat) =>
      Completes (exec i s) (fun q => SentCells s p q h 3 4 (cellWrites d n e (fun _ => false)) [])
    (fmtOf t = none →
      Writes (.vshl h d a t x) (fun k => A k * 2 ^ N k % 2 ^ b) ∧
      Writes (.vshr h d a t x) (fun k => lowBits t (intElem t (A k) / 2 ^ N k)) ∧
      Completes (exec (.vshlSat h d a t x) s) (fun q => SentCells s p q h 3 4
        (cellWrites d n (fun k => lowBits t (clampTo t (intElem t (A k) * 2 ^ N k))) (fun _ => false))
        ((List.range n).flatMap (fun k => if clampTo t (intElem t (A k) * 2 ^ N k) = intElem t (A k) * 2 ^ N k then [] else fecOf 7 (some 2))))) ∧
    Writes (.vand h d a t x) (fun k => A k &&& S k) ∧ Writes (.vor h d a t x) (fun k => A k ||| S k) ∧
    Writes (.vxor h d a t x) (fun k => A k ^^^ S k) ∧
    (let nan := fun (k : Nat) => (numOf t (A k)).isNan || (numOf t (S k)).isNan
     let less := fun (k : Nat) => ltNum (numOf t (A k)) (numOf t (S k))
     let more := fun (k : Nat) => ltNum (numOf t (S k)) (numOf t (A k))
     let mask := fun (c : Bool) => if c then 2 ^ 32 - 1 else 0
     Writes (.vcmpEq h d a t x) (fun k => mask (!nan k && !less k && !more k)) ∧
     Writes (.vcmpNe h d a t x) (fun k => mask (nan k || less k || more k)) ∧
     Writes (.vcmpLt h d a t x) (fun k => mask (!nan k && less k)) ∧
     Writes (.vcmpLe h d a t x) (fun k => mask (!nan k && !more k)))

/-- R232 and R245 for floating-point types, with R226's latencies: each element is rounded once, an operation with a NaN operand
gives the canonical NaN, VABS and VNEG change the sign bit alone, and the special functions are those of R245, after twelve clk.
Where the manual leaves a point open it states the model's choice: log entry 4. -/
def Obligations.FloatLanesAndSpecials : Prop :=
  ∀ (h : Hdr) (d a : MOp) (t : Ty) (f : Fmt) (x : VSrc) (n : Nat) (s p : State), fmtOf t = some f → h.eng = .v → SameCount n d a x →
    let b := widthOf t
    let ovt := readSys p .v sysOVT
    let A : Nat → Nat := fun k => cellOf p a k % 2 ^ b
    let S : Nat → Nat := fun k => srcOf p x k % 2 ^ b
    let D : Nat → Nat := fun k => cellOf p d k % 2 ^ b
    let V := fun (w : Nat) => numOfFmt f w
    let Gives := fun (i : Instr) (len lat : Nat) (e : Nat → Elem) =>
      Completes (exec i s) (fun q => SentCells s p q h len lat (cellWrites d n (fun k => (e k).bits) (fun _ => false))
        ((List.range n).flatMap (fun k => fecOf (groupOf t) (e k).kind)))
    let Rounds := fun (ops : Nat → List Machine.Num) (r : Nat → Machine.Num) (k : Nat) => arith f h.rm (arithOver ovt t f) (ops k) (r k)
    let Pick := fun (big : Bool) (k : Nat) => floatMin f big (A k) (S k)
    (Issues s h (cellLocs (viewCells a ++ vsrcCells x)) p →
      Gives (.vadd h d a t x) 3 4 (Rounds (fun k => [V (A k), V (S k)]) (fun k => addNum h.rm (V (A k)) (V (S k)))) ∧
      Gives (.vsub h d a t x) 3 4 (Rounds (fun k => [V (A k), V (S k)]) (fun k => addNum h.rm (V (A k)) (negNum (V (S k))))) ∧
      Gives (.vmul h d a t x) 3 4 (Rounds (fun k => [V (A k), V (S k)]) (fun k => mulNum (V (A k)) (V (S k)))) ∧
      Gives (.vmin h d a t x) 3 4 (Pick false) ∧ Gives (.vmax h d a t x) 3 4 (Pick true)) ∧
    (Issues s h (cellLocs (viewCells a ++ vsrcCells x ++ viewCells d)) p →
      Gives (.vfma h d a t x) 3 4 (Rounds (fun k => [V (A k), V (S k), V (D k)])
        (fun k => addNum h.rm (mulNum (V (A k)) (V (S k))) (V (D k))))) ∧
    (Issues s h (cellLocs (viewCells a)) p →
      let sign := 2 ^ (f.ebits + f.mbits)
      let Signed := fun (g : Nat → Nat) (k : Nat) => (⟨if (V (A k)).isNan then nanBits f else g (A k), none⟩ : Elem)
      Gives (.vabs h d a t) 2 4 (Signed (fun w => w % sign)) ∧ Gives (.vneg h d a t) 2 4 (Signed (fun w => (w + sign) % (2 * sign))) ∧
      ∀ r ∈ ([(.vexp h d a t, .exp), (.vlog h d a t, .log), (.vrcp h d a t, .rcp), (.vrsq h d a t, .rsq), (.vsin h d a t, .sin),
          (.vcos h d a t, .cos), (.vtanh h d a t, .tanh)] : List (Instr × Fn)), Gives r.1 2 12 (fun k => special r.2 t (cellOf p a k)))

/-- R237, R242, R243: VSEL takes the cell of a where the old cell of d is not zero and src2's elsewhere; VROTR turns each row right by
n columns, VROTC each column down by n rows, VBCR gives every cell of a row its column n, VBCC every cell of a column its row n. The
cells move whole, with their poison marks (R116), and nothing is consumed, a marked amount register included (R248). -/
def Obligations.SelectionsAndTileMoves : Prop :=
  ∀ (h : Hdr) (d a : MOp) (s p : State), h.eng = .v →
    (∀ (x : VSrc) (n : Nat), SameCount n d a x → Issues s h [] p →
      mustWait p.core .v (cellLocs (viewCells d ++ viewCells a ++ vsrcCells x)) = false →
      Completes (exec (.vsel h d a x) s) (fun q => ∃ marks, SentCells s p q h 3 4
        (cellWrites d n (fun k => if cellOf p d k ≠ 0 then cellOf p a k else srcOf p x k) marks) [])) ∧
    (∀ (x : AmtSrc), Issues s h [] p → mustWait p.core .v (amountLocs x ++ cellLocs (viewCells a)) = false →
      let n := match x with | .reg r => (readG p .v r.toNat).toNat | .lit l => l.toNat
      let src := fun (i j : Nat) => cellNo a.reg.toNat i j
      ∀ r ∈ ([(.vrotr h d a x, 6, fun i j => src i ((j + 64 - n % 64) % 64)), (.vrotc h d a x, 3, fun i j => src ((i + 16 - n % 16) % 16) j),
          (.vbcr h d a x, 4, fun i _ => src i (n % 64)), (.vbcc h d a x, 2, fun _ j => src (n % 16) j)] : List (Instr × Nat × (Nat → Nat → Nat))),
        Completes (exec r.1 s) (fun q => SentCells s p q h 3 r.2.1
          ((List.range 1024).map (fun k =>
            let from' := r.2.2 (k / 64) (k % 64)
            { loc := .cell (cellNo d.reg.toNat (k / 64) (k % 64)), val := BitVec.ofNat 64 ((readCell p .v from').toNat % 2 ^ 32),
              mark := look false p.core.cells.poison from' })) []))

/-- R238 to R241, R244 with R226's latencies: conversions element by element from t2 to t, packing f cells into one and unpacking them,
and reductions of each row (nine clk) or column (five) of a tile by the tree of R92. -/
def Obligations.ConversionsAndReductions : Prop :=
  ∀ (h : Hdr) (d a : MOp) (t t2 : Ty) (s p : State), h.eng = .v →
    let ovt := readSys p .v sysOVT
    let conv := fun (w : Nat) => convert t t2 h.rm ovt (w % 2 ^ widthOf t2)
    (∀ (g : Reg) (n : Nat), t2 ≠ .mq4 → SameCount n d a (.lit 0) → Issues s h (cellLocs (viewCells a)) p →
      Completes (exec (.vcvt h d a t t2 g) s) (fun q => SentCells s p q h 3 4
        (cellWrites d n (fun k => (conv (cellOf p a k)).bits) (fun _ => false))
        ((List.range n).flatMap (fun k => fecOf (groupOf t) (conv (cellOf p a k)).kind)))) ∧
    (∀ (g : Reg) (n : Nat), t2 = .mq4 → SameCount n d a (.lit 0) → Issues s h (.g g.toNat :: cellLocs (viewCells a)) p →
      Completes (exec (.vcvt h d a t t2 g) s) (fun q => ∃ counts, SentCells s p q h 3 4
        (cellWrites d n (fun k => (mq4Convert t h.rm ovt ((readG p .v g.toNat).toNat % 2 ^ 32) (cellOf p a k)).1) (fun _ => false)) counts)) ∧
    (let src := fun (k c : Nat) => 1024 * ((a.reg.toNat + k) % 32) + c
     let el := fun (k c : Nat) => conv (readCell p .v (src k c)).toNat
     Issues s h (cellLocs ((List.range (packCount t)).flatMap (fun k => (List.range 1024).map (src k)))) p →
      Completes (exec (.vpack h d a t t2) s) (fun q => ∃ ws counts, SentCells s p q h 3 4 ws counts ∧ ws.length = 1024 ∧
        ∀ c, c < 1024 → ∃ l, ws[c]? = some l ∧ l.loc = .cell (1024 * d.reg.toNat + c) ∧
          l.val = BitVec.ofNat 64 (((List.range (packCount t)).map (fun k => (el k c).bits * 2 ^ (k * widthOf t))).sum % 2 ^ 32))) ∧
    (Issues s h (cellLocs (viewCells a)) p →
      Completes (exec (.vunpack h d a t t2) s) (fun q => ∃ ws counts, SentCells s p q h 3 4 ws counts ∧
        ws = (List.range (packCount t2)).flatMap (fun k => (List.range 1024).map (fun c =>
          ({ loc := .cell (1024 * ((d.reg.toNat + k) % 32) + c),
             val := BitVec.ofNat 64 ((conv ((readCell p .v (1024 * a.reg.toNat + c)).toNat / 2 ^ (k * widthOf t2))).bits % 2 ^ 32) } : Late)))) ∧
      (∀ r ∈ ([(.vredrAdd h d a t, .add), (.vredrMax h d a t, .max), (.vredrMin h d a t, .min), (.vredrAmax h d a t, .amax)] : List (Instr × RedOp)),
        Completes (exec r.1 s) (fun q => ∃ counts, SentCells s p q h 2 9 (cellWrites d (viewCells d).length (fun i =>
          (reduce r.2 t h.rm ovt ((List.range 64).map (fun j => (readCell p .v (cellNo a.reg.toNat i j)).toNat))).bits) (fun _ => false)) counts)) ∧
      (∀ r ∈ ([(.vredcAdd h d a t, .add), (.vredcMax h d a t, .max), (.vredcMin h d a t, .min), (.vredcAmax h d a t, .amax)] : List (Instr × RedOp)),
        Completes (exec r.1 s) (fun q => ∃ counts, SentCells s p q h 2 5 (cellWrites d (viewCells d).length (fun j =>
          (reduce r.2 t h.rm ovt ((List.range 16).map (fun i => (readCell p .v (cellNo a.reg.toNat i j)).toNat))).bits) (fun _ => false)) counts)))

/-! ### The weight-code engine (R250 to R269, R388) -/

/-- A command has joined the weight-code queue with its group's number as tag and the tokens it is to push (R251, R363). -/
def Sys2Proof.Machine.QueuedW (s p t : State) (h : Hdr) (len : Nat) (op : WOp) : Prop :=
  WalkedTo p t h p.core.ck (nextPc s h len) ∧ Reserved p t h ∧ t.core.g = p.core.g ∧ SameMemory p t ∧
  ∃ q, t.core.wQueue = p.core.wQueue ++ [q] ∧ q.op = op ∧ q.tag = p.core.engW.walk ∧ q.push = h.push

/-- R251, R253 to R256, R388 for WSTRIPE, WZERO and SLACK on W, and the access engine's SLACK: with room in the queue a command joins
it; a stripe whose base or pitch is no multiple of 4 raises NEAR_ADDRESS cause 3; a full queue waits. The access engine's SLACK
writes n into the probe slack and clears the probe lag at once. -/
def Sys2Proof.Machine.WeightCommandsQueue : Prop :=
  ∀ (h : Hdr) (a : Reg) (t : Ty) (o : Src2) (s p : State),
    let w := (src2Z p h.eng o).toNat
    (h.eng = .w → Issues s h (.g a.toNat :: src2Locs o) p →
      let st : Stripe := { base := (readG p .w a.toNat).toNat, pitch := w % 2 ^ 16, k := w / 2 ^ 16 % 2 ^ 12 + 1, ty := t, rm := h.rm }
      (st.base % 4 ≠ 0 ∨ st.pitch % 4 ≠ 0 → exec (.wstripe h a t o) s = .next (takeTrap s .w
        { code := .nearAddress, cause := 3, tval := readG p .w a.toNat, popped := (s.core.eng .w).noPop } (s.core.eng .w).pc)) ∧
      (stripeFault st = none → p.core.wQueue.length < 16 →
        Completes (exec (.wstripe h a t o) s) (fun q => QueuedW s p q h (src2Len o) (.stripe st)))) ∧
    (h.eng = .w → Issues s h (src2Locs o) p →
      (p.core.wQueue.length < 16 →
        Completes (exec (.wzero h o) s) (fun q => QueuedW s p q h (src2Len o) (.zero (w % 256) (w / 256 % 256 + 1))) ∧
        Completes (exec (.slackW h o) s) (fun q => QueuedW s p q h (src2Len o) (.slack (w % 2 ^ 16)))) ∧
      (16 ≤ p.core.wQueue.length → exec (.wzero h o) s = .next s ∧ exec (.slackW h o) s = .next s)) ∧
    (h.eng = .a → Issues s h (src2Locs o) p →
      Completes (exec (.slack h o) s) (fun q => WalkedTo p q h p.core.ck (nextPc s h (src2Len o)) ∧ Pushed p q h ∧ SameMemory p q ∧
        q.core.probeLag = 0 ∧ q.core.g = p.core.g ∧ (∀ n, n ≠ sysSLIPW → sysNow q.core n = sysNow p.core n) ∧
        bits (sysNow q.core sysSLIPW) 31 16 = w % 2 ^ 16 ∧ bits (sysNow q.core sysSLIPW) 15 0 = bits (sysNow p.core sysSLIPW) 15 0))

/-- R256 for WCALL: with the header readable and well formed, room in the queue and no matrix store to wait for (R385), the call joins
the queue with the header's generation and its base accumulator row; R257 for WDRAIN: with every earlier command complete, the rows'
lane blocks are on their way to consecutive registers from four clk on, the last one with the tokens. -/
def Sys2Proof.Machine.CallsAndDrains : Prop :=
  ∀ (h : Hdr) (a d : Reg) (st dt : Ty) (o : Src2) (e : TlbEntry) (pa : Nat) (s p : State), h.eng = .w →
    let w := (src2Z p .w o).toNat
    (∀ m p1, Issues s h (.g a.toNat :: src2Locs o) p →
      let base := (readG p .w a.toNat).toNat
      translate p .w base { r := true } = .ok e pa → p.core.wQueue.length < 16 → callHeld p.core = false →
      readMatrix p base = (p1, .ok (m, false)) → p1.core.wQueue = p.core.wQueue →
      Completes (exec (.wcall h a o) s) (fun q => ∃ c, q.core.wQueue = p.core.wQueue ++ [c] ∧ c.op = .call base m.gen (w % 256) ∧
        c.push = h.push ∧ (q.core.eng .w).pc = nextPc s h (src2Len o) ∧ SameMemory p1 q)) ∧
    (Issues s h (src2Locs o) p → weightIdle p.core = true → p.core.accPoison = [] →
      let n := w / 2 ^ 11 % 8 + 1
      Completes (exec (.wdrain h d st dt o) s) (fun q => WalkedTo p q h p.core.ck (nextPc s h (src2Len o)) ∧ Reserved p q h ∧
        q.core.cells = p.core.cells ∧ SameMemory p q ∧
        ∃ ls, q.core.landing = p.core.landing ++ ls ∧ ls.length = n ∧ ∀ k l, ls[k]? = some l →
          l.due = some (p.core.ck + 4 + k) ∧ l.push = (if k + 1 = n then h.push else 0) ∧
          l.act = .write ((List.range 16).flatMap (fun i =>
            (rangeOf p.core.acc (accBase (w % 256 + i) + 64 * ((w / 256 + k) % 8)) 64).zipIdx.map (fun x =>
              ({ loc := .cell (cellNo ((d.toNat + k) % 32) i x.2),
                 val := BitVec.ofNat 64 (convert dt st h.rm (readSys p .w sysOVT) x.1.toNat).bits } : Late))))))

/-- The stream side has gone on to `pc` in its call, and nothing of memory or of the general registers has changed. -/
def Sys2Proof.Machine.StreamedTo (s t : State) (k : StreamCall) (pc : Nat) : Prop :=
  t.core.call = some { k with pos := { k.pos with pc := pc } } ∧ t.core.g = s.core.g ∧ SameMemory s t

/-- Only lanes `b` to `b + 511` of a store have changed: lane `i` of them holds `f i`. -/
def Sys2Proof.Machine.RowSet (m m' : Sparse Cell) (b : Nat) (f : Nat → Nat) : Prop :=
  ∀ j, look 0 m' j = if b ≤ j ∧ j < b + 512 then BitVec.ofNat 32 (f (j - b)) else look 0 m j

/-- R264, R265 for WPREP, WPREPA and WSUM in a running segment: each lane of the product or sum slot they name holds the product of
the weight with the stripe element or accumulator lane, or the signed sum of two slots' lanes; no other lane, no accumulator row
and no byte of memory changes, and the stream goes on past one parcel. -/
def Sys2Proof.Machine.ProductsAndSums : Prop :=
  ∀ (w : BitVec 16) (r : BitVec 6) (q : BitVec 4) (nx ny : Bool) (x y : BitVec 5) (s : State) (k : StreamCall),
    s.core.call = some k → k.pos.inSegment = true → tableWf 0 s.core.slots = true → tableWf 0 s.core.acc = true →
    s.core.slotPoison = [] → s.core.accPoison = [] →
    let st := s.core.stripe
    let acc : Nat → Nat → Nat := fun row i => (look 0 s.core.acc (accBase row + i)).toNat
    let slot : Nat → Nat → Nat := fun n i => (look 0 s.core.slots (slotBase n + i)).toNat
    let Sets := fun (i : Instr) (n : Nat) (f : Nat → Nat) => Completes (exec i s) (fun t => StreamedTo s t k (k.pos.pc + 4) ∧
      t.core.acc = s.core.acc ∧ RowSet s.core.slots t.core.slots (slotBase n) f)
    (k.pos.colbase + r.toNat < st.k →
      let as := rowAddrs st (k.pos.colbase + r.toNat)
      as.findSome? (nearCheck s 4) = none → as.any (nearPending s.core none) = false → as.any (nearPoison s 4) = false →
      Sets (.wprep w r q) q.toNat (fun i => (product k.floatKind true st.rm w st.ty
        ((unpackElems (widthOf st.ty) 512 (as.map (nearByte s 4))).getD i 0)).bits)) ∧
    Sets (.wprepa w r q) q.toNat (fun i => (product k.floatKind false st.rm w (if k.floatKind then .f32 else .s32)
      (acc (k.abase + k.pos.arow + r.toNat) i)).bits) ∧
    Sets (.wsum ny nx y x q) (16 + q.toNat) (fun i => (signedSum k.floatKind st.rm nx ny (slot x.toNat i) (slot y.toNat i)).bits)

/-- R266 for WACC and WNACC: every lane of the accumulator row becomes its sum with the slot's lane, or the difference, in one
rounding or clamped; and for WMAP: the same for each target row of its literal, a nibble of 15 naming none, where the rows are all
different. No slot and no other row changes. -/
def Sys2Proof.Machine.RowAdds : Prop :=
  ∀ (x : BitVec 5) (f m : BitVec 8) (lit : BitVec 32) (s : State) (k : StreamCall),
    s.core.call = some k → k.pos.inSegment = true → tableWf 0 s.core.slots = true → tableWf 0 s.core.acc = true →
    s.core.slotPoison = [] → s.core.accPoison = [] →
    let sum : Bool → Nat → Nat → Nat := fun sub row i => (laneSum k.floatKind s.core.stripe.rm sub
      (look 0 s.core.acc (accBase row + i)).toNat (look 0 s.core.slots (slotBase x.toNat + i)).toNat).bits
    (∀ r ∈ ([(.wacc x f, false), (.wnacc x f, true)] : List (Instr × Bool)),
      Completes (exec r.1 s) (fun t => StreamedTo s t k (k.pos.pc + 4) ∧ t.core.slots = s.core.slots ∧
        RowSet s.core.acc t.core.acc (accBase (k.abase + f.toNat)) (sum r.2 (k.abase + f.toNat)))) ∧
    Completes (exec (.wmap x m f lit) s) (fun t => StreamedTo s t k (k.pos.pc + 8) ∧ t.core.slots = s.core.slots ∧
      let rows := mapTargets m lit
      (rows.map (fun y => y.1)).Nodup → ∀ j, look 0 t.core.acc j =
        match rows.find? (fun y => decide (accBase (k.abase + f.toNat + y.1) ≤ j) && decide (j < accBase (k.abase + f.toNat + y.1) + 512)) with
        | some y => BitVec.ofNat 32 (sum y.2 (k.abase + f.toNat + y.1) (j - accBase (k.abase + f.toNat + y.1)))
        | none => look 0 s.core.acc j)

/-- R267, R268 for WJMP, WEND and WHOOK: a jump moves the stream by 4 x its displacement; WEND goes on to the next segment, after the
last to the caller's descriptor, and from there ends the call; a hook within a hooked descriptor raises WEIGHT_CODE cause 5, one whose
table register or entry has a reserved bit cause 6. Otherwise the hook keeps the caller, to go on after it, and has begun to read its
table entry: what it finds there it learns when that read returns (SegmentStart). -/
def Obligations.StreamControl : Prop :=
  ∀ (j : BitVec 26) (i : BitVec 8) (s : State) (k : StreamCall), s.core.call = some k → k.pos.inSegment = true →
    Completes (exec (.wjmp j) s) (fun t => StreamedTo s t k (((k.pos.pc : Int) + 4 * j.toInt) % 2 ^ 64).toNat) ∧
    (k.pos.seg + 1 < k.pos.segCount → Completes (exec .wend s) (fun t =>
      t.core.call = some { k with pos := { k.pos with seg := k.pos.seg + 1, inSegment := false, lag := 0 } } ∧ t.core.acc = s.core.acc ∧ SameMemory s t)) ∧
    (k.pos.segCount ≤ k.pos.seg + 1 → ∀ c, k.caller = some c → Completes (exec .wend s) (fun t =>
      t.core.call = some { k with pos := c, caller := none } ∧ t.core.acc = s.core.acc ∧ SameMemory s t)) ∧
    (k.pos.segCount ≤ k.pos.seg + 1 → k.caller = none → Completes (exec .wend s) (fun t => t.core.call = none ∧ t.core.acc = s.core.acc ∧ SameMemory s t)) ∧
    (k.caller.isSome = true → exec (.whook i) s = .next (streamFault s { code := .weightCode, cause := 5 })) ∧
    (let tb := fileRead 0 s.core.sys s.tick saltSys 4 sysHKTB
      let v := tb.toNat + 8 * i.toNat
      let Reads := fun (s1 : State) (r : StreamRead) => Completes (exec (.whook i) s) (fun t => SameMemory s1 t ∧ t.core.acc = s1.core.acc ∧
        t.core.call = some { k with
          caller := some { k.pos with pc := k.pos.pc + 4 }
          pos := { gen := 0, arow := 0, segTable := 0, segCount := 0, seg := 0, pc := k.pos.pc }
          read := some r })
      k.caller = none →
      (bits tb 2 0 ≠ 0 ∨ bits tb 63 48 ≠ 0 → exec (.whook i) s = .next (streamFault s { code := .weightCode, cause := 6 })) ∧
      (bits tb 2 0 = 0 → bits tb 63 48 = 0 →
        (∀ s1 bs, coreRead s (privileged s.core) 0 v 8 = (s1, .ok (bs, false)) →
          let e : Word := BitVec.ofNat 64 (leNat bs)
          Reads s1 (if bits e 62 48 ≠ 0 then .fault { code := .weightCode, cause := 6 }
            else if e.getLsbD 63 = true then .hook (bits e 47 0) else .noHook)) ∧
        (∀ s1 bs, coreRead s (privileged s.core) 0 v 8 = (s1, .ok (bs, true)) → Reads s1 (.poison v)) ∧
        (∀ s1 x, coreRead s (privileged s.core) 0 v 8 = (s1, .error x) → Reads s1 (.fault x))))

/-! ### The lease array's instructions (R284, R290 to R302) -/

/-- R284, R291, R292 for LACQ, LACQ.t and LREL, no fault owed to a lease instruction: LACQ and LACQ.t in an open session, LREL in a
closed one, raise LEASE cause 2; where leave for the class it names is granted the session opens with that class and LACQ.t writes 1;
where LACQ.t cannot have it at once it writes 0; LACQ waits for it, its request made; LREL with no command queued closes the session. -/
def Sys2Proof.Machine.SessionsOpenAndClose : Prop :=
  ∀ (h : Hdr) (d : Reg) (o : Src2) (s p : State), h.eng = .c → s.core.leaseOwed = [] → outranked p.core .c (p.core.ck + 1) d.toNat = false →
    let Raises := fun (i : Instr) => exec i s = .next (takeTrap s .c { code := .lease, cause := 2, popped := (s.core.eng .c).noPop } (s.core.eng .c).pc)
    let Done := fun (t : State) (len : Nat) => WalkedTo p t h p.core.ck (nextPc s h len) ∧ Pushed p t h ∧ SameMemory p t
    (Issues s h (src2Locs o) p →
      let cls := (src2Z p .c o).toNat % 4
      (p.core.leaseOpen = true → Raises (.lacq h o) ∧ Raises (.lacqT h d o)) ∧
      (p.core.leaseOpen = false → leaveHeld p cls ≠ none →
        Completes (exec (.lacq h o) s) (fun t => Done t (src2Len o) ∧ t.core.leaseOpen = true ∧ t.core.leaseClass = cls ∧ t.core.g = p.core.g) ∧
        Completes (exec (.lacqT h d o) s) (fun t => Done t (src2Len o) ∧ t.core.leaseOpen = true ∧ t.core.leaseClass = cls ∧ RegWritten p t h d.toNat 1 [])) ∧
      (p.core.leaseOpen = false → leaveHeld p cls = none → p.leaveQueue ≠ [] →
        Completes (exec (.lacqT h d o) s) (fun t => Done t (src2Len o) ∧ t.core.leaseOpen = false ∧ RegWritten p t h d.toNat 0 [])) ∧
      (p.core.leaseOpen = false → leaveHeld p cls = none → exec (.lacq h o) s = .next (askLeave cls s))) ∧
    (Issues s h [] p →
      (p.core.leaseOpen = false → Raises (.lrel h)) ∧
      (p.core.leaseOpen = true → p.core.leaseQueue = [] →
        Completes (exec (.lrel h) s) (fun t => Done t 2 ∧ t.core.leaseOpen = false ∧ t.core.g = p.core.g)))

/-- R293 for LCFG, R294 for the array commands, R302 for LDRAIN: a slot's four words go to its registers; in an open session a command
with a well-formed word, k and format joins the lease queue with what it reads at issue; LDRAIN, the queue empty, sends tiles of the
bank, each element converted from f32 and its event counted, to consecutive matrix registers from four clk on, the last with the tokens. -/
def Sys2Proof.Machine.LeaseCommandsQueue : Prop :=
  ∀ (h : Hdr) (a d : Reg) (t : Ty) (o : Src2) (s p : State), h.eng = .c → s.core.leaseOwed = [] →
    let w := (src2Z p .c o).toNat
    (Issues s h (src2Locs o ++ (List.range 4).map (fun i => Loc.g (a.toNat + i))) p →
      let ws := (List.range 4).map (fun i => readG p .c (a.toNat + i))
      w % 16 ≤ 8 → slotClean (w % 16) ws = true →
      Completes (exec (.lcfg h a o) s) (fun q => WalkedTo p q h p.core.ck (nextPc s h (src2Len o)) ∧ Pushed p q h ∧ SameMemory p q ∧
        ∀ n, sysNow q.core n = if sysLCS + 4 * (w % 16) ≤ n ∧ n < sysLCS + 4 * (w % 16) + 4
          then readG p .c (a.toNat + (n - (sysLCS + 4 * (w % 16)))) else sysNow p.core n)) ∧
    (Issues s h (.g a.toNat :: src2Locs o) p →
      ∀ r ∈ ([(.lmm h a o, .lmm), (.lmmA h a o, .lmmA), (.lmmg h a o, .lmmg), (.lmmgA h a o, .lmmgA), (.lscore h a o, .lscore),
          (.lscoreCm h a o, .lscoreCm), (.lscoreTm h a o, .lscoreTm), (.lpv h a o, .lpv), (.lpvA h a o, .lpvA)] : List (Instr × LeaseOp)),
        (p.core.leaseOpen = false → exec r.1 s =
          .next (takeTrap s .c { code := .lease, cause := 1, popped := (s.core.eng .c).noPop } (s.core.eng .c).pc)) ∧
        (p.core.leaseOpen = true → wordOk (readG p .c a.toNat) w = true → fmtOk p .c (currentFmt p .c) = true → p.core.leaseQueue.length < 16 →
          Completes (exec r.1 s) (fun q => WalkedTo p q h p.core.ck (nextPc s h (src2Len o)) ∧ Reserved p q h ∧ SameMemory p q ∧
            q.core.g = p.core.g ∧ q.core.bank = p.core.bank ∧
            ∃ c, q.core.leaseQueue = p.core.leaseQueue ++ [c] ∧ c.op = r.2 ∧ c.word = readG p .c a.toNat ∧ c.k = w ∧
              c.fmt = currentFmt p .c ∧ c.tag = p.core.engC.walk ∧ c.push = h.push ∧ c.groups = 0))) ∧
    (Issues s h (src2Locs o) p → p.core.leaseQueue = [] → p.core.bankPoison = [] →
      let n := w / 64 % 8 + 1
      Completes (exec (.ldrain h d t o) s) (fun q => WalkedTo p q h p.core.ck (nextPc s h (src2Len o)) ∧ Reserved p q h ∧
        q.core.cells = p.core.cells ∧ SameMemory p q ∧
        ∃ ls, q.core.landing = p.core.landing ++ ls ∧ ls.length = n ∧ ∀ k l, ls[k]? = some l →
          let tile := (w % 64 + k) % 64
          let el := fun (x : Cell) => convert t .f32 h.rm (readSys p .c sysOVT) x.toNat
          let row := fun (i : Nat) => rangeOf p.core.bank (256 * (16 * (tile / 4) + i) + 64 * (tile % 4)) 64
          l.due = some (p.core.ck + 4 + k) ∧ l.push = (if k + 1 = n then h.push else 0) ∧
          l.act = .write ((List.range 16).flatMap (fun i => (row i).zipIdx.map (fun x =>
            ({ loc := .cell (cellNo ((d.toNat + k) % 32) i x.2), val := BitVec.ofNat 64 (el x.1).bits } : Late)))) ∧
          l.counts = (List.range 16).flatMap (fun i => (row i).flatMap (fun x => fecOf (groupOf t) (el x).kind))))

/-- R288, R291 to R294 and R302 for the fourteen instructions of the lease array, each under conditions on the state and its operands
alone: LACQ and LACQ.t open a session where leave for their class is held, LACQ.t also where it can be granted at once, and answers 0 where neither
is so; LREL closes a session; LCFG sets a slot's registers; the nine array commands join the lease queue; LDRAIN sends bank tiles to
matrix registers. In every case the control engine is past the instruction.
Where the manual leaves a point open it states the model's choice: log entry 30. -/
def Obligations.LeaseFormsComplete : Prop :=
  ∀ (h : Hdr) (a d : Reg) (ty : Ty) (o : Src2) (s p : State), h.eng = .c → s.core.leaseOwed = [] →
    let w := (src2Z p .c o).toNat
    let past := nextPc s h (src2Len o)
    (Issues s h (src2Locs o) p → p.core.leaseOpen = false →
      (leaveHeld p (w % 4) ≠ none →
        (∃ t, exec (.lacq h o) s = .next t ∧ t.core.leaseOpen = true ∧ t.core.leaseClass = w % 4 ∧ t.core.engC.pc = past) ∧
        (∃ t, exec (.lacqT h d o) s = .next t ∧ t.core.leaseOpen = true ∧ t.core.leaseClass = w % 4 ∧ t.core.engC.pc = past)) ∧
      (leaveHeld p (w % 4) = none → p.leaveQueue = [] → leaveFits p (w % 4) = true →
        ∃ t, exec (.lacqT h d o) s = .next t ∧ t.core.leaseOpen = true ∧ t.core.leaseClass = w % 4 ∧ t.core.engC.pc = past) ∧
      (leaveHeld p (w % 4) = none → (p.leaveQueue ≠ [] ∨ leaveFits p (w % 4) = false) →
        ∃ t, exec (.lacqT h d o) s = .next t ∧ t.core.leaseOpen = false ∧ t.core.engC.pc = past)) ∧
    (Issues s h [] p → p.core.leaseOpen = true →
      ∃ t, exec (.lrel h) s = .next t ∧ t.core.leaseOpen = false ∧ t.core.leaseQueue = p.core.leaseQueue ∧ t.core.engC.pc = nextPc s h 2) ∧
    (Issues s h (src2Locs o ++ (List.range 4).map (fun i => Loc.g (a.toNat + i))) p → w % 16 ≤ 8 →
      slotClean (w % 16) ((List.range 4).map (fun i => readG p .c (a.toNat + i))) = true →
      ∃ t, exec (.lcfg h a o) s = .next t ∧ t.core.engC.pc = past ∧
        ∀ i, i < 4 → sysNow t.core (sysLCS + 4 * (w % 16) + i) = readG p .c (a.toNat + i)) ∧
    (Issues s h (.g a.toNat :: src2Locs o) p → p.core.leaseOpen = true → wordOk (readG p .c a.toNat) w = true →
      fmtOk p .c (currentFmt p .c) = true → p.core.leaseQueue.length < 16 →
      let Queued := fun (op : LeaseOp) (t : State) => t.core.engC.pc = past ∧
        ∃ c, t.core.leaseQueue = p.core.leaseQueue ++ [c] ∧ c.op = op ∧ c.word = readG p .c a.toNat ∧ c.k = w
      (∃ t, exec (.lmm h a o) s = .next t ∧ Queued .lmm t) ∧
      (∃ t, exec (.lmmA h a o) s = .next t ∧ Queued .lmmA t) ∧
      (∃ t, exec (.lmmg h a o) s = .next t ∧ Queued .lmmg t) ∧
      (∃ t, exec (.lmmgA h a o) s = .next t ∧ Queued .lmmgA t) ∧
      (∃ t, exec (.lscore h a o) s = .next t ∧ Queued .lscore t) ∧
      (∃ t, exec (.lscoreCm h a o) s = .next t ∧ Queued .lscoreCm t) ∧
      (∃ t, exec (.lscoreTm h a o) s = .next t ∧ Queued .lscoreTm t) ∧
      (∃ t, exec (.lpv h a o) s = .next t ∧ Queued .lpv t) ∧
      (∃ t, exec (.lpvA h a o) s = .next t ∧ Queued .lpvA t)) ∧
    (Issues s h (src2Locs o) p → p.core.leaseQueue = [] → p.core.bankPoison = [] →
      ∃ t, exec (.ldrain h d ty o) s = .next t ∧ t.core.engC.pc = past ∧ t.core.landing.length = p.core.landing.length + w / 64 % 8 + 1)

/-! ### What the device does between the instructions of a core -/

/-- Command `c` has left FIFO `k` of die `d`, and its result `v` stands last in the FIFO's results (R146). -/
def Sys2Proof.Machine.Answered (p t : State) (d k : Nat) (c : Cmd) (v : Word) : Prop :=
  (fifoAt t d k).cmds = (fifoAt p d k).cmds.erase c ∧
  ∃ r, (fifoAt t d k).results = (fifoAt p d k).results ++ [r] ∧ r.ctx = c.ctx ∧ r.val = v

/-- Only the queue of die `d` and its FIFOs have changed in what a program can read: memory and every core are the same. -/
def Sys2Proof.Machine.CoresSame (p t : State) : Prop := SameMemory p t ∧ t.cur = p.cur ∧ t.core = p.core ∧ t.others = p.others

/-- R185, R222, R226 for LD_RETURN and RESULT_WRITE: a load or another late result for register r is written when its access returns,
or when its clk has come: the register holds the value and its poison mark, every other register keeps its own, and the entry is gone. -/
def Sys2Proof.Machine.ResultsAreWritten : Prop :=
  ∀ (s : State) (l : Landing) (r : Nat) (v : Word) (m : Bool), let p := focus s s.arg.core.toNat
    l.act = .write [{ loc := .g r, val := v, mark := m }] → l.push = 0 → l.counts = [] → r ≠ 0 →
    let Lands := fun (t : State) => look 0 t.core.g.cur r = v ∧ look false t.core.g.poison r = m ∧ OtherRegsSame p t r ∧ SameMemory p t ∧
      t.core.landing.length + 1 = p.core.landing.length ∧ t.core.cells = p.core.cells ∧ t.core.tokens = p.core.tokens
    (l.due = none → (p.core.landing.filter (fun x => x.due.isNone))[s.arg.n]? = some l →
      outranked p.core l.eng (p.core.ck + 1) r = false → Completes (exec .evLdReturn s) Lands) ∧
    (∀ d, l.due = some d → dueEntries p.core = [l] → outranked p.core l.eng d r = false → Completes (exec .evResultWrite s) Lands)

/-- R337 for RECORD_SETTLE: a published record of an uncompressed page that is not held settles; each of its bytes holds the bits of the
greater key, every other byte is the same, and Head passes the settled records at the front. A provisional record is held. -/
def Sys2Proof.Machine.RecordsSettle : Prop :=
  ∀ (s : State) (r : LogRec), let p := focus s s.arg.core.toNat
    p.core.log[s.arg.n]? = some r → ∀ time, r.time = some time → r.settled = false →
    (r.prov.isSome = true → exec .evRecordSettle s = .next p) ∧
    (r.prov = none → linePinned p r.block = false → movedFrom p r.block = none → r.comp = 0 →
      Completes (exec .evRecordSettle s) (fun t =>
        t.core.log = (p.core.log.set s.arg.n { r with settled := true }).dropWhile LogRec.settled ∧ t.core.g = p.core.g ∧
        ∀ a, memByte t a = if r.block ≤ a ∧ a < r.block + 16 then
            let sh := 8 * (a - r.block)
            (mergeBits (memByte p a) (keysAt p a) ((r.data >>> sh).setWidth 8) ((r.mask >>> sh).setWidth 8) { time := time, num := p.cur }).1
          else memByte p a))

/-- R350 to R353 for ORDERING_COMPLETE: a REL below .sys completes, one of .sys, a FENCE.sys or a SETTLE only when every record it speaks
of has settled, and at .sys every class N store issued before it has been applied (R446); it leaves the core's waiting ones, a FENCE
moves the core's moment to the present, and memory is not touched but by a FENCE.sys, which writes back the lines of the lent window,
and by a SETTLE of code 1, after which every dirty byte of the core's lines of P pages is in memory and none of those lines is left. -/
def Sys2Proof.Machine.OrderingsComplete : Prop :=
  ∀ (s : State) (w : OrderWait), let p := focus s s.arg.core.toNat
    p.core.orderWaits[s.arg.n]? = some w →
    let Over := fun (t : State) => t.core.orderWaits = p.core.orderWaits.eraseIdx s.arg.n ∧ SameMemory p t ∧ t.core.g = p.core.g
    (∀ sc n, w.op = .rel sc n →
      (sc ≠ 4 ∨ (settledUpTo p.core n = true ∧ ∀ f ∈ p.core.flying, w.id ≤ f.id) → Completes (exec .evOrderingComplete s) Over) ∧
      (sc = 4 → (settledUpTo p.core n = false ∨ ∃ f ∈ p.core.flying, f.id < w.id) → exec .evOrderingComplete s = .next p)) ∧
    (∀ sc n, w.op = .fence sc n →
      (sc < 4 → Completes (exec .evOrderingComplete s) (fun t => Over t ∧ t.core.moment = p.now)) ∧
      (sc = 4 → settledUpTo p.core n = true → (∀ f ∈ p.core.flying, w.id ≤ f.id) → Completes (exec .evOrderingComplete s) (fun t =>
        t.core.orderWaits = p.core.orderWaits.eraseIdx s.arg.n ∧ t.core.g = p.core.g ∧ t.core.moment = p.now ∧ OnlyWriteBacks p t ∧
        ∀ x ∈ p.core.replay, x ∈ t.core.replay)) ∧
      (sc = 4 → (settledUpTo p.core n = false ∨ ∃ f ∈ p.core.flying, f.id < w.id) → exec .evOrderingComplete s = .next p)) ∧
    (∀ n, w.op = .settle false n →
      (settledUpTo p.core n = true → Completes (exec .evOrderingComplete s) Over) ∧
      (settledUpTo p.core n = false → exec .evOrderingComplete s = .next p)) ∧
    (∀ n, w.op = .settle true n →
      (settledUpTo p.core n = true → Completes (exec .evOrderingComplete s) (fun t =>
        t.core.orderWaits = p.core.orderWaits.eraseIdx s.arg.n ∧ t.core.g = p.core.g ∧ OnlyWriteBacks p t ∧
        ∀ k ∈ l1Cores p, (∀ l ∈ (coreAt t k).l1, l.cls = .p → l.owner ≠ p.cur) ∧
          ∀ l ∈ (coreAt p k).l1, l.cls = .p → l.owner = p.cur → ∀ x ∈ l.dirty,
            ∃ j ∈ l1Cores p, ∃ m ∈ (coreAt p j).l1, m.cls = .p ∧ m.owner = p.cur ∧ (x.1, memByte t x.1) ∈ m.dirty)) ∧
      (settledUpTo p.core n = false → exec .evOrderingComplete s = .next p))

/-- R383 for MODE_CROSSING, R191 for PRCFG_WRITE, R159 and R416 for TRAP_ENTRY, R127 for CODE_FETCH_ARRIVAL: four engines at a crossing
with nothing in flight go on in the other mode; PRCFG is written and the tag table cleared once no fill is pending; a fault owed by
the control engine, alone at an instruction of its own, is raised; a sector of code asked for waits for what its slices have before it
(R120), then becomes valid with the bytes of the present, one that is valid already keeps its own (R128). -/
def Sys2Proof.Machine.CrossingsFetchesAndOwedFaults : Prop :=
  ∀ (s : State), let p := focus s s.arg.core.toNat
    ((∀ e, (p.core.eng e).atCross = true) → p.core.landing = [] → (∀ q ∈ p.core.outcomes, q.2 = []) →
      Completes (exec .evModeCrossing s) (fun t => SameMemory p t ∧ t.core.g = p.core.g ∧
        ∀ e, (t.core.eng e).atCross = false ∧ (t.core.eng e).exposed = (p.core.eng e).exposed.map not ∧ (t.core.eng e).pc = (p.core.eng e).pc)) ∧
    (∀ v, p.core.prcfgWait = some (v, false) →
      (p.core.probeTags.any ProbeTag.pending = true → exec .evPrcfgWrite s = .next p) ∧
      (p.core.probeTags.any ProbeTag.pending = false → Completes (exec .evPrcfgWrite s) (fun t =>
        sysNow t.core sysPRCFG = v &&& sysKept sysPRCFG ∧ t.core.probeTags = [] ∧ t.core.g = p.core.g ∧ SameMemory p t))) ∧
    (∀ f fs, p.core.engC.owed = f :: fs → allEngs.filter (standsAt p.core) = [.c] → privileged p.core = false → sysNow p.core sysTVEC ≠ 0 →
      (∀ l ∈ p.core.landing, ∀ n ∈ l.counts, n < 32) → Completes (exec .evTrapEntry s) (fun t => privileged t.core = true ∧ t.core.raised = p.core.raised + 1 ∧
        (∀ e, (t.core.eng e).pc = (sysNow p.core sysTVEC).toNat) ∧ sysNow t.core sysTVAL = f.tval ∧
        bits (sysNow t.core sysTCAUSE) 15 0 = f.code.num)) ∧
    (∀ k, p.core.codeRequests[s.arg.n]? = some k →
      (sectorWaits p (256 * k) = true → exec .evCodeFetchArrival s = .next p) ∧
      (sectorWaits p (256 * k) = false → p.found = none → Completes (exec .evCodeFetchArrival s) (fun t =>
        sectorMoment (dieAt t (dieOfCore p.cur)) (256 * k) = some ((sectorMoment (dieAt p (dieOfCore p.cur)) (256 * k)).getD p.now) ∧
        t.core.g = p.core.g ∧ SameMemory p t)))

/-! ### Shelf, cellar and cache (R98 to R141) -/

/-- R105 to R110, R113: PROMOTION and DEMOTION serve the oldest row operation of a bank. A promotion of a row not yet tagged takes the
lowest free slot of its subarray, a demotion frees the slot; a stack that refuses counts it and changes no tag. Either way the
instruction has one row less to go, memory is the same, and an instruction with no row left pushes its tokens (ROW_OPERATIONS_DONE). -/
def Sys2Proof.Machine.RowsMoveBetweenShelfAndCellar : Prop :=
  ∀ (s : State) (r : RowOp),
    let k := s.arg.stack.toNat
    let x := stackAt s k
    let a := subarrayOf r.addr
    x.rowOps[s.arg.n]? = some r → (∀ q ∈ x.rowOps.take s.arg.n, bankOf q.addr ≠ bankOf r.addr) →
    let Served := fun (t : State) => (stackAt t k).rowOps = x.rowOps.eraseIdx s.arg.n ∧ SameMemory s t ∧ (coreAt t r.core).g = (coreAt s r.core).g ∧
      (coreAt t r.core).rowOps = (coreAt s r.core).rowOps.map (fun q => if q.2.1 = r.seq then (q.1 - 1, q.2) else q)
    (r.kind < 2 → refusing x = false → (∀ g ∈ look [] x.promo a, g.row ≠ cellarRow r.addr) →
      ∀ n, n < 32 → (∀ g ∈ look [] x.promo a, g.slot ≠ n) → (∀ j, j < n → ∃ g ∈ look [] x.promo a, g.slot = j) →
      (r.kind = 1 → heldCount (look [] x.promo a) < 24) →
      Completes (exec .evPromotion s) (fun t => Served t ∧ look [] (stackAt t k).promo a = look [] x.promo a ++
        [{ slot := n, row := cellarRow r.addr, dirty := false, hold := decide (r.kind = 1) }])) ∧
    (r.kind < 2 → refusing x = true → Completes (exec .evPromotion s) (fun t => Served t ∧
      (stackAt t k).promo = x.promo ∧ (stackAt t k).refusedPromotions = x.refusedPromotions + 1)) ∧
    (r.kind = 2 → refusing x = false → Completes (exec .evDemotion s) (fun t => Served t ∧
      look [] (stackAt t k).promo a = (look [] x.promo a).filter (fun g => g.row ≠ cellarRow r.addr))) ∧
    (r.kind = 2 → refusing x = true → Completes (exec .evDemotion s) (fun t => Served t ∧
      (stackAt t k).promo = x.promo ∧ (stackAt t k).refusedDemotions = x.refusedDemotions + 1)) ∧
    (let p := focus s s.arg.core.toNat
     ∀ id m n, p.core.rowOps[s.arg.n]? = some (0, id, m, n) → p.core.trapFrame = none → .a ∉ maskEngs m → Completes (exec .evRowOperationsDone s) (fun t =>
      t.core.rowOps = p.core.rowOps.eraseIdx s.arg.n ∧ SameMemory p t ∧ t.core.g = p.core.g ∧
      ∀ e ∈ maskEngs m, ∃ tk, (queueAt t.core (queueCode .a e)).toks = (queueAt p.core (queueCode .a e)).toks ++ [tk]))

/-- R112 to R114 for REFRESH, SCRUB, HEARTBEAT, HEARTBEAT_MISSED, FALLBACK_REFRESH and REFRESH_HANDBACK: a good manager refreshes and
scrubs row after row; a heartbeat cancels the missing ones; the fourth missing one fails the manager and counts a fallback entry; the
sequencer then refreshes and posts once; after eight ready heartbeats a round's end hands refresh back. -/
def Sys2Proof.Machine.StacksKeepRefreshing : Prop :=
  ∀ (s : State),
    let k := s.arg.stack.toNat
    let x := stackAt s k
    (x.failed = false → Completes (exec .evRefresh s) (fun t => CoresSame s t ∧ stackAt t k = { x with refreshRow := (x.refreshRow + 1) % 32768 })) ∧
    (x.failed = false → s.arg.dramErr = none → Completes (exec .evScrub s) (fun t => CoresSame s t ∧
      stackAt t k = { x with scrubRow := (x.scrubRow + 1) % 32768 })) ∧
    Completes (exec .evHeartbeat s) (fun t => CoresSame s t ∧ stackAt t k =
      { x with lastBeat := s.clk, missed := 0, handedBack := false, readyBeats := if x.failed ∧ s.arg.ready then x.readyBeats + 1 else 0 }) ∧
    (x.lastBeat + 700 * (x.missed + 1) ≤ s.clk → x.failed = false → Completes (exec .evHeartbeatMissed s) (fun t => CoresSame s t ∧
      (stackAt t k).missed = x.missed + 1 ∧ ((stackAt t k).failed = true ↔ 4 ≤ x.missed + 1) ∧
      (stackAt t k).fallbackEntries = if 4 ≤ x.missed + 1 then x.fallbackEntries + 1 else x.fallbackEntries)) ∧
    (x.failed = true → Completes (exec .evFallbackRefresh s) (fun t => CoresSame s t ∧ (stackAt t k).refreshRow = (x.refreshRow + 1) % 32768 ∧
      (x.fallbackStart = none → (stackAt t k).fallbackStart = some s.clk ∧
        (dieAt t (k / 2)).mgmtPostings.length = (dieAt s (k / 2)).mgmtPostings.length + 1))) ∧
    (∀ c, x.failed = true → x.fallbackStart = some c → 8 ≤ x.readyBeats → c < s.clk → (s.clk - c) % 11200000 = 0 →
      Completes (exec .evRefreshHandback s) (fun t => CoresSame s t ∧ (stackAt t k).failed = false ∧ refusing (stackAt t k) = true ∧
        (dieAt t (k / 2)).mgmtPostings.length = (dieAt s (k / 2)).mgmtPostings.length + 1))

/-- R120, R123 for L2_REQUEST, LINE_FILL and FILTER_CLEAR: the oldest request for a line that no fill is bringing is served: a present
line becomes the most recent, an absent one of a read starts a fill, of a write none; a fill of first-touch policy brings its line in
a set with a free way; after 65,536 counted misses the filter starts anew. No byte of memory changes. -/
def Sys2Proof.Machine.SlicesServeRequests : Prop :=
  ∀ (s : State),
    let x := look {} (dieAt s s.arg.die.toNat).slices s.arg.n
    let y := fun (t : State) => look {} (dieAt t s.arg.die.toNat).slices s.arg.n
    (∀ r, x.requests[s.arg.len]? = some r → (∀ q ∈ x.requests.take s.arg.len, q.line ≠ r.line) → (∀ f ∈ x.fills, f.line ≠ r.line) →
      Completes (exec .evL2Request s) (fun t => CoresSame s t ∧ (y t).requests = x.requests.eraseIdx s.arg.len ∧
        ((∃ l ∈ x.lines, l.line = r.line) → (y t).fills = x.fills ∧ ∃ l, (y t).lines.head? = some l ∧ l.line = r.line) ∧
        ((∀ l ∈ x.lines, l.line ≠ r.line) → (y t).lines = x.lines ∧ (y t).fills = if r.write then x.fills else x.fills ++ [r]))) ∧
    (∀ r, x.fills[s.arg.len]? = some r → r.policy = 0 → (∀ l ∈ x.lines, l.line ≠ r.line) →
      (x.lines.filter (fun l => l2Set l.line = l2Set r.line)).length < 16 →
      Completes (exec .evLineFill s) (fun t => CoresSame s t ∧ (y t).fills = x.fills.eraseIdx s.arg.len ∧
        (y t).lines = { line := r.line, dirty := false, pins := 0, noAlloc := false } :: x.lines)) ∧
    (x.misses = 65536 → Completes (exec .evFilterClear s) (fun t => CoresSame s t ∧ (y t).misses = 0 ∧ (y t).filter = [] ∧ (y t).lines = x.lines))

/-- R138, R139 for PAGE_WALK: the walk of a request ends, and the core that waits for it has the page in its TLB, or the cause of R136
against the granule, where the walk fails or the page refuses its access (R136), and then nothing is installed; a walk that meets
poison installs nothing either, and a core whose task cannot be rolled back has cause 6, by which its access raises POISON cause 2
(R433); every request for the granule leaves the queue. -/
def Sys2Proof.Machine.WalksEnd : Prop :=
  ∀ (s : State) (q : WalkReq) (a : WalkAsk),
    let d := s.arg.die.toNat
    let same := fun (r : WalkReq) => r.same (bits q.root 63 52) q.granule
    let p := readWords s d q.root (q.granule * 65536) q.asks
    (dieAt s d).walkQueue[s.arg.n]? = some q → s.arg.n < 128 → s.cur < 256 → ((dieAt s d).walkQueue.filter same).flatMap WalkReq.asks = [a] → a.who = s.cur →
    (q.mark = false → walkPoison p d q.root (q.granule * 65536) = false →
    (∀ e ps, walk p (dieAt p d) q.root (q.granule * 65536) = (.ok e, ps) →
      (refusedFor (.ok e) (q.granule * 65536) a = none → Completes (exec .evPageWalk s) (fun t =>
      (dieAt t d).walkQueue = (dieAt s d).walkQueue.filter (fun r => !same r) ∧ SameMemory p t ∧ t.core.g = s.core.g ∧ t.core.tlb.head? = some e)) ∧
      (∀ c, refusedFor (.ok e) (q.granule * 65536) a = some c → Completes (exec .evPageWalk s) (fun t => SameMemory p t ∧ t.core.tlb = s.core.tlb ∧
        (dieAt t d).walkCache = (dieAt s d).walkCache ∧
        t.core.walkFail.head? = some { granule := q.granule, cause := c, ask := a }))) ∧
    (∀ c ps, walk p (dieAt p d) q.root (q.granule * 65536) = (.error c, ps) → Completes (exec .evPageWalk s) (fun t =>
      (dieAt t d).walkQueue = (dieAt s d).walkQueue.filter (fun r => !same r) ∧ SameMemory p t ∧ t.core.tlb = s.core.tlb ∧
      (dieAt t d).walkCache = (dieAt s d).walkCache ∧
      t.core.walkFail.head? = some { granule := q.granule, cause := c, ask := a }))) ∧
    (q.mark = true ∨ walkPoison p d q.root (q.granule * 65536) = true → q.asks = [a] → canRollBack s (askTask s a) = false →
      Completes (exec .evPageWalk s) (fun t => SameMemory p t ∧ t.core.tlb = s.core.tlb ∧ (dieAt t d).walkCache = (dieAt s d).walkCache ∧
        (dieAt t d).walkQueue = (dieAt s d).walkQueue.filter (fun r => !r.same q.asn q.granule) ∧
        t.core.walkFail.head? = some { granule := q.granule, cause := 6, ask := a }))

/-- R130, R140 for the commands of the code cache's and the walk pool's FIFOs: an admitted record removes the code pages, or the
translations, it names from its die and from the cores of that die; a malformed one removes nothing and answers 1; each is answered. -/
def Sys2Proof.Machine.InvalidationsRemove : Prop :=
  ∀ (s : State) (c : Cmd),
    let d := s.arg.die.toNat
    let w := wordAt c.words 0
    let a := (wordAt c.words 1).toNat
    let n := bits w 63 32
    (nextCmd (fifoAt s d fifoCode) = some c →
      let Left := fun (p : Nat → Prop) (t : State) => SameMemory s t ∧ Answered s t d fifoCode c 0 ∧
        ∀ g ∈ (dieAt t d).codeCache, ¬p g.page
      (bits w 7 0 = 0 → bits w 31 0 = 0 → 0 < n → n ≤ 65536 → a % 16384 = 0 →
        Completes (exec .evInvalidatePages s) (Left (fun g => a / 16384 ≤ g ∧ g < a / 16384 + n))) ∧
      (bits w 7 0 = 0 → n = 0 ∨ 65536 < n ∨ a % 16384 ≠ 0 → Completes (exec .evInvalidatePages s) (fun t => CoresSame s t ∧
        Answered s t d fifoCode c 1 ∧ (dieAt t d).codeCache = (dieAt s d).codeCache)) ∧
      (bits w 7 0 = 0 → bits w 31 0 ≠ 0 → Completes (exec .evInvalidatePages s) (fun t => CoresSame s t ∧
        Answered s t d fifoCode c 1 ∧ (dieAt t d).codeCache = (dieAt s d).codeCache)) ∧
      (1 < bits w 7 0 → Completes (exec .evInvalidatePages s) (fun t => CoresSame s t ∧
        Answered s t d fifoCode c 1 ∧ (dieAt t d).codeCache = (dieAt s d).codeCache)) ∧
      (bits w 7 0 = 1 → bits w 31 8 = 0 → Completes (exec .evInvalidateAll s) (Left (fun _ => True))) ∧
      (bits w 7 0 = 1 → bits w 31 8 ≠ 0 → Completes (exec .evInvalidateAll s) (fun t => CoresSame s t ∧
        Answered s t d fifoCode c 1 ∧ (dieAt t d).codeCache = (dieAt s d).codeCache))) ∧
    (nextCmd (fifoAt s d fifoWalk) = some c →
      let Left := fun (p : TlbEntry → Prop) (t : State) => SameMemory s t ∧ Answered s t d fifoWalk c 0 ∧
        ∀ k, dieOfCore k = d → (k = s.cur ∨ k ∈ s.others.map Prod.fst) → ∀ e ∈ (coreAt t k).tlb, ¬p e
      (bits w 7 0 = 0 → bits w 15 8 = 0 → bits w 31 28 = 0 → 0 < n → n ≤ 2 ^ 28 → a % 65536 = 0 →
        Completes (exec .evInvalidateRange s) (Left (fun e => e.asn = bits w 27 16 ∧ e.base < a + 65536 * n ∧ a < e.base + e.size))) ∧
      (bits w 7 0 = 1 → bits w 15 8 = 0 → bits w 31 28 = 0 → Completes (exec .evInvalidateAsn s) (Left (fun e => e.asn = bits w 27 16))) ∧
      (bits w 7 0 = 2 → bits w 15 8 = 0 → Completes (exec .evTlbInvalidateAll s) (Left (fun _ => True))) ∧
      (let Malformed := fun (i : Instr) => Completes (exec i s) (fun t => CoresSame s t ∧ Answered s t d fifoWalk c 1 ∧
         (dieAt t d).walkCache = (dieAt s d).walkCache ∧ (dieAt t d).tlbs = (dieAt s d).tlbs)
       (bits w 7 0 = 0 → bits w 15 8 ≠ 0 ∨ bits w 31 28 ≠ 0 ∨ n = 0 ∨ 2 ^ 28 < n ∨ a % 65536 ≠ 0 → Malformed .evInvalidateRange) ∧
       (bits w 7 0 = 1 → bits w 15 8 ≠ 0 ∨ bits w 31 28 ≠ 0 → Malformed .evInvalidateAsn) ∧
       (bits w 7 0 = 2 → bits w 15 8 ≠ 0 → Malformed .evTlbInvalidateAll) ∧
       (2 < bits w 7 0 → Malformed .evInvalidateRange)))

/-- R165, R166 for MIGRATE and RELEASE_OLD_FRAME: a command with a reserved code or field ends with 1 and a move to a frame that does
not fit with 2, and both start nothing; a move that fits is under way from the leaf's frame; an old frame that no store log still names
is released and answered, one that a log names waits. -/
def Sys2Proof.Machine.PagesMigrate : Prop :=
  ∀ (s : State) (c : Cmd), let d := s.arg.die.toNat
    nextCmd (fifoAt s d fifoMigration) = some c →
    (let v := wordAt c.words 1
     let Malformed := fun (i : Instr) => Completes (exec i s) (fun t => CoresSame s t ∧ Answered s t d fifoMigration c 1 ∧
       (dieAt t d).migrations = (dieAt s d).migrations)
     ((∀ m ∈ (dieAt s d).migrations, m.answered = true) → bits v 7 0 ≠ 1 → 1 < bits v 7 0 ∨ bits v 31 8 ≠ 0 ∨ bits v 63 44 ≠ 0 → Malformed .evMigrate) ∧
     (bits v 7 0 = 1 → bits v 31 8 ≠ 0 ∨ bits v 63 44 ≠ 0 → Malformed .evReleaseOldFrame)) ∧
    (bits (wordAt c.words 1) 31 8 = 0 → bits (wordAt c.words 1) 63 44 = 0 →
    (bits (wordAt c.words 1) 7 0 = 0 → (∀ m ∈ (dieAt s d).migrations, m.answered = true) →
      ∀ s1 e, migrateLeaf s d c = (s1, some e) →
        (frameFits (wordAt c.words 2).toNat e.size = false → Completes (exec .evMigrate s) (fun t => SameMemory s1 t ∧
          Answered s1 t d fifoMigration c 2 ∧ (dieAt t d).migrations = (dieAt s1 d).migrations)) ∧
        (frameFits (wordAt c.words 2).toNat e.size = true → Completes (exec .evMigrate s) (fun t => SameMemory s1 t ∧
          (dieAt t d).migrations = (dieAt s1 d).migrations ++
            [{ old := leafFrame e.leaf, new := (wordAt c.words 2).toNat, size := e.size, pushed := false, switched := false, stamp := c.stamp, core := c.core }]))) ∧
    (bits (wordAt c.words 1) 7 0 = 1 → ∀ m e, s.dies.flatMap (fun x => x.2.migrations) = [m] → (dieAt s e).migrations = [m] →
      m.old = (wordAt c.words 2).toNat → m.switched = true →
      (logsName s m.old m.size = false → Completes (exec .evReleaseOldFrame s) (fun t => SameMemory s t ∧
        Answered s t d fifoMigration c 0 ∧ (dieAt t e).migrations = [])) ∧
      (logsName s m.old m.size = true → exec .evReleaseOldFrame s = .next s)))

/-- R149, R151, R158, R159 for COPY_COMMAND, COPY_TRANSFER and COPY_COMPLETE: a pushed command joins the core's copy queue; the engine
takes its next command with the checks made before the first element, then moves elements in order, and stores what it has for a line of an
O page at once (R343); a finished or faulted command leaves the engine, a pushed one with a result, a COPY with its tokens, marked with the fault where it met one. -/
def Sys2Proof.Machine.CopiesRun : Prop :=
  ∀ (s : State), let p := focus s s.arg.core.toNat
    let d := dieOfCore p.cur
    let k := fifoCopy + p.cur % 64
    (∀ q qs, (fifoAt p d k).cmds = q :: qs → p.core.copyQueue.length < 32 → p.core.ctx = some q.ctx → Completes (exec .evCopyCommand s) (fun t =>
      (fifoAt t d k).cmds = qs ∧ SameMemory p t ∧ t.core.g = p.core.g ∧
      ∃ c, t.core.copyQueue = p.core.copyQueue ++ [c] ∧ c.layout = q.words.take 12 ∧ c.near = bits (wordAt q.words 12) 31 0 ∧
        c.xform.toNat = bits (wordAt q.words 12) 63 32 ∧ c.fifo = true ∧ c.push = 0)) ∧
    (∀ q qs, p.core.copyRun = none → p.core.fillRun = none → p.core.fillQueue = [] → p.core.copyQueue = q :: qs → waitsForMoves p.core q = false →
      resultsFull p q = false → q.id ∉ p.core.badCmds →
      Completes (exec .evCopyTransfer s) (fun t => t.core.copyQueue = qs ∧ (∃ r, t.core.copyRun = some r ∧ r.cmd = q ∧ r.pos = 0 ∧ r.stores = [] ∧
          r.fault = q.broken.orElse (fun _ => checkCopy q) ∧ (r.fault ≠ none → r.ahead = [])) ∧
        t.core.near = p.core.near ∧ SameMemory p t)) ∧
    (∀ r p1 r1, p.core.copyRun = some r → r.ahead = [] → r.fault = none → r.pos < r.cmd.total → s.arg.n = 1 → p1.core.copyRun = some r1 →
      (moveElem p r.cmd r.pos = .ok p1 → Completes (exec .evCopyTransfer s) (fun t =>
        t.core.copyRun = some { r1 with pos := r1.pos + 1 } ∧ t.core.near = p1.core.near ∧ SameMemory p1 t)) ∧
      (∀ f, moveElem p r.cmd r.pos = .fault p1 f → Completes (exec .evCopyTransfer s) (fun t =>
        t.core.copyRun = some { r1 with fault := some (metAt r.pos f) } ∧ t.core.near = p1.core.near ∧ SameMemory p1 t))) ∧
    (∀ r w ws, p.core.copyRun = some r → r.ahead = [] → r.moved = true → r.stores = w :: ws → accessHeld p.core r.cmd.order = false →
      Completes (exec .evCopyTransfer s) (fun t => t.core.g = p.core.g ∧ t.core.near = p.core.near ∧
        t.core.copyRun = some { r with stores := r.stores.filter (fun x => x.1 / 128 != w.1 / 128) })) ∧
    (∀ r, p.core.copyRun = some r → r.fault ≠ none ∨ r.cmd.total ≤ r.pos → r.stores = [] → r.cmd.staging = false →
      (r.cmd.fifo = true → Completes (exec .evCopyComplete s) (fun t => t.core.copyRun = none ∧ SameMemory p t ∧ t.core.g = p.core.g ∧
        ∃ x, (fifoAt t d k).results = (fifoAt p d k).results ++ [x] ∧ x.ctx = r.cmd.ctx ∧ x.fault = r.fault ∧ (r.fault = none → x.val = 0))) ∧
      (r.cmd.fifo = false → r.cmd.push ≠ 0 → .a ∉ maskEngs r.cmd.push → p.core.trapFrame = none → Completes (exec .evCopyComplete s) (fun t =>
        t.core.copyRun = none ∧ SameMemory p t ∧ t.core.g = p.core.g ∧
        ∀ e ∈ maskEngs r.cmd.push, ∃ tk, (queueAt t.core (queueCode .a e)).toks = (queueAt p.core (queueCode .a e)).toks ++ [tk] ∧ tk.mark = r.fault)))

/-- R194 for PROBE_FILL and FILL_DONE: with no copy and no earlier matrix move in its way the oldest waiting fill starts; the fill under
way moves on by the bytes asked for (of an O page by whole lines), no further than its block, and once 4,096 bytes are written its entry is no longer pending. -/
def Sys2Proof.Machine.FillsRun : Prop :=
  ∀ (s : State), let p := focus s s.arg.core.toNat
    (∀ f fs, p.core.fillRun = none → p.core.fillQueue = f :: fs → p.core.copyRun = none → movesBefore p.core.landing f.order = false →
      Completes (exec .evProbeFill s) (fun t => t.core.fillQueue = fs ∧ t.core.fillRun = some f ∧ t.core.near = p.core.near ∧ SameMemory p t)) ∧
    (∀ f, p.core.fillRun = some f → f.pos < 4096 → isOrdered f.page f.pa = false ∨ accessHeld p.core (some f.order) = false →
      Completes (exec .evProbeFill s) (fun t =>
      (∃ n, t.core.fillRun = some { f with pos := f.pos + n } ∧ n ≤ 4096 - f.pos ∧ (leafCoh f.page.leaf ≠ .o → n = min s.arg.n (4096 - f.pos))) ∧ t.core.g = p.core.g ∧ t.core.cells = p.core.cells)) ∧
    (∀ f, p.core.fillRun = some f → f.pos = 4096 → Completes (exec .evFillDone s) (fun t => t.core.fillRun = none ∧ t.core.near = p.core.near ∧
      t.core.probeTags = p.core.probeTags.map (fun g => if g.entry = f.entry then { g with pending := false } else g) ∧ SameMemory p t))

/-! ### Stream side, Goleus, lease arrays (R251 to R301) -/

/-- R254, R255, R388, R262, R261 for the commands at the head of the weight-code queue: a stripe is loaded into the stripe registers, rows
are zeroed and no other, the slack is set, each with its tokens pushed; a call whose header agrees with the stripe is taken at
segment 0, and what the reading of any other header has found is learnt when the read returns; and a segment starts at the entry its
generation chooses, with the greater of its own and the core's slack. R268 with R474 for the reads that come before: one that has found
a fault raises it, poison is consumed, an invalid hook entry lets the caller go on, a valid one is followed by its descriptor. -/
def Sys2Proof.Machine.WeightQueueRuns : Prop :=
  ∀ (s : State) (w : WCmd) (ws : List WCmd), let p := focus s s.arg.core.toNat
    (p.core.call = none → p.core.wQueue = w :: ws → w.id ∉ p.core.badCmds →
      let Taken := fun (t : State) => t.core.wQueue = ws ∧ t.core.call = none ∧ SameMemory p t ∧ t.core.g.cur = p.core.g.cur ∧
        (p.core.trapFrame = none → .w ∉ maskEngs w.push → ∀ e ∈ maskEngs w.push,
          ∃ tk, (queueAt t.core (queueCode .w e)).toks = (queueAt p.core (queueCode .w e)).toks ++ [tk])
      (∀ st, w.op = .stripe st → Completes (exec .evStripeApply s) (fun t => Taken t ∧ t.core.stripe = st ∧ t.core.acc = p.core.acc)) ∧
      (∀ b n, w.op = .zero b n → n ≤ 256 → tableWf 0 p.core.acc = true → Completes (exec .evZeroApply s) (fun t => Taken t ∧ t.core.stripe = p.core.stripe ∧
        ∀ row i, row < 256 → i < 512 → look 0 t.core.acc (accBase row + i) =
          if (row + 256 - b % 256) % 256 < n then 0 else look 0 p.core.acc (accBase row + i))) ∧
      (∀ n, w.op = .slack n → Completes (exec .evSlackApply s) (fun t => Taken t ∧ t.core.wSlack = n ∧ t.core.acc = p.core.acc)) ∧
      (∀ d gen ab m p1, w.op = .call d gen ab → w.sees = [] → p.core.g.old = [] → p.core.near.old = [] → p.core.sys.old = [] →
        readMatrix { p with core := { p.core with wQueue := ws } } d = (p1, .ok (m, false)) →
        let Reads := fun (r : StreamRead) => Completes (exec .evCallRun s) (fun t => SameMemory p1 t ∧ ∃ k, t.core.call = some k ∧
          k.cmd = w ∧ k.caller = none ∧ k.pos.inSegment = false ∧ k.read = some r)
        (m.floatKind ≠ kindOf p.core.stripe.ty ∨ p.core.stripe.k < m.k → Reads (.fault { code := .weightCode, cause := 3 })) ∧
        (m.floatKind = kindOf p.core.stripe.ty → m.k ≤ p.core.stripe.k →
        Completes (exec .evCallRun s) (fun t => SameMemory p1 t ∧ ∃ k, t.core.call = some k ∧ k.cmd = w ∧ k.abase = ab ∧ k.floatKind = m.floatKind ∧
          k.caller = none ∧ k.pos.gen = gen ∧ k.pos.arow = m.arow ∧ k.pos.segTable = m.table ∧ k.pos.segCount = m.count ∧ k.pos.seg = 0 ∧
          k.pos.inSegment = false ∧ k.read = none))) ∧
      (∀ d gen ab p1, w.op = .call d gen ab → w.sees = [] → p.core.g.old = [] → p.core.near.old = [] → p.core.sys.old = [] →
        let Reads := fun (r : StreamRead) => Completes (exec .evCallRun s) (fun t => SameMemory p1 t ∧ ∃ k, t.core.call = some k ∧
          k.cmd = w ∧ k.caller = none ∧ k.pos.inSegment = false ∧ k.read = some r)
        (∀ x, readMatrix { p with core := { p.core with wQueue := ws } } d = (p1, .error x) → Reads (.fault x)) ∧
        (∀ m, readMatrix { p with core := { p.core with wQueue := ws } } d = (p1, .ok (m, true)) → Reads (.poison d)))) ∧
    (∀ k, p.core.call = some k →
      (∀ x, k.read = some (.fault x) → exec .evSegmentStart s = .next (streamFault p x)) ∧
      (∀ v, k.read = some (.poison v) → exec .evSegmentStart s = .next (streamPoison p v)) ∧
      (k.read = some .noHook → Completes (exec .evSegmentStart s) (fun t => SameMemory p t ∧ t.core.acc = p.core.acc ∧
        t.core.call = some { k with pos := k.caller.getD k.pos, caller := none, read := none })) ∧
      (∀ d p1, k.read = some (.hook d) →
        (∀ m, readMatrix p d = (p1, .ok (m, false)) → Completes (exec .evSegmentStart s) (fun t => SameMemory p1 t ∧ t.core.call = some { k with
          read := none, pos := { k.pos with gen := m.gen, arow := m.arow, segTable := m.table, segCount := m.count, seg := 0 } })) ∧
        (∀ x, readMatrix p d = (p1, .error x) → Completes (exec .evSegmentStart s) (fun t => SameMemory p1 t ∧
          t.core.call = some { k with read := some (.fault x) })))) ∧
    (∀ k e p1, p.core.call = some k → k.read = none → k.pos.inSegment = false → segmentNow p k.pos = (p1, .ok (e, false)) → p1.core.call = some k →
      Completes (exec .evSegmentStart s) (fun t => SameMemory p1 t ∧ t.core.call = some { k with
        pos := { k.pos with
                 colbase := 64 * k.pos.seg, start := e.start, parcels := e.parcels, pc := e.start,
                 slack := max e.slack p.core.wSlack, inSegment := true } }))

/-- R272, R273, R387 for STARVED_CLK and PROBE_LAG: a starved clk within the slack is absorbed and counted in WABS, one past it freezes
the core and is counted in WFRZ; a clk that waits on a pending slot is absorbed by the probe slack, or freezes the core. -/
def Sys2Proof.Machine.StarvedAndLaggingClk : Prop :=
  ∀ (s : State), let p := focus s s.arg.core.toNat
    (∀ k, p.core.call = some k → p.core.starved = true → k.read = none → k.pos.inSegment = true →
      (k.pos.lag < k.pos.slack → Completes (exec .evStarvedClk s) (fun t => t.core.starved = false ∧ t.core.frozen = p.core.frozen ∧
        t.core.call = some { k with pos := { k.pos with lag := k.pos.lag + 1 } } ∧ t.core.g = p.core.g ∧ SameMemory p t ∧
        ((sysNow p.core sysWABS).toNat < 2 ^ 32 - 1 → sysNow t.core sysWABS = sysNow p.core sysWABS + 1))) ∧
      (k.pos.slack ≤ k.pos.lag → Completes (exec .evStarvedClk s) (fun t => t.core.starved = false ∧ t.core.frozen = true ∧
        t.core.call = some k ∧ t.core.g = p.core.g ∧ SameMemory p t ∧
        ((sysNow p.core sysWFRZ).toNat < 2 ^ 32 - 1 → sysNow t.core sysWFRZ = sysNow p.core sysWFRZ + 1)))) ∧
    (p.core.lagging = true →
      (p.core.probeLag < bits (sysNow p.core sysSLIPW) 31 16 → Completes (exec .evProbeLag s) (fun t =>
        t = { p with core := { p.core with lagging := false, probeLag := p.core.probeLag + 1 } })) ∧
      (bits (sysNow p.core sysSLIPW) 31 16 ≤ p.core.probeLag → Completes (exec .evProbeLag s) (fun t =>
        t = { p with core := { p.core with lagging := false, frozen := true } })))

/-- R275 to R282 for COMPILE and PATCH: an admitted COMPILE whose code fits writes the code area, the header and the segment entries and
answers its parcels in bits 63:32; an admitted PATCH writes the code and the entry it may replace, at the header's generation plus 1;
a malformed command answers 1 and one whose code does not fit answers 2, with no byte written.
Where the manual leaves a point open it states the model's choice: log entry 28. -/
def Obligations.GoleusCompilesAndPatches : Prop :=
  ∀ (s : State) (c : Cmd), let d := s.arg.die.toNat
    let bs := bytesOf c.words
    let g := goleusOf bs
    let a := c.agent d fifoGoleus
    nextCmd (fifoAt s d fifoGoleus) = some c →
    (g.code ≠ 1 → goleusTy g = none ∨ goleusBad bs g = true → Completes (exec .evCompile s) (fun t => CoresSame s t ∧ Answered s t d fifoGoleus c 1)) ∧
    (∀ ty fl, goleusTy g = some (ty, fl) → goleusBad bs g = false →
      (g.code = 0 → ∀ s1 segs, allCode s a g ty fl = (s1, .ok (segs, false)) →
        let n := (segs.map List.length).sum
        (g.size < 4 * n → Completes (exec .evCompile s) (fun t => SameMemory s1 t ∧ Answered s1 t d fifoGoleus c 2)) ∧
        (4 * n ≤ g.size → ∀ s2 k, writeAll s1 a [(g.area, parcelBytes segs.flatten), (g.desc, headerBytes g fl ++
            (segStarts g.area segs).flatMap (fun p => entryBytes 0 p.1 g.slack p.2 ++ List.replicate 32 0#8))] = (s2, .ok k) →
          Completes (exec .evCompile s) (fun t => SameMemory s2 t ∧ Answered s2 t d fifoGoleus c (BitVec.ofNat 64 (n * 2 ^ 32))))) ∧
      (g.code = 1 → ∀ s1 s2 s3 hb eb m ps, agentRead s a g.desc 64 = (s1, .ok (hb, false)) → matrixOf hb = some m → m.k = g.k → m.rows = g.rows →
        m.floatKind = fl → g.seg < m.count → agentRead s1 a (m.table + 64 * g.seg) 64 = (s2, .ok (eb, false)) → (patchEntry eb m.floor).2 = false →
        segCode s2 a g ty fl g.seg 0 = (s3, .ok (ps, false)) → 4 * ps.length ≤ g.size →
        ∀ s4 k, writeAll s3 a [(g.area, parcelBytes ps), (m.table + 64 * g.seg + 32 * (patchEntry eb m.floor).1,
            entryBytes (m.gen + 1) g.area g.slack ps.length)] = (s4, .ok k) →
          Completes (exec .evPatch s) (fun t => SameMemory s4 t ∧ Answered s4 t d fifoGoleus c (BitVec.ofNat 64 (ps.length * 2 ^ 32)))))

/-- R284, R285, R287, R300, R301 for the lease array: a run is granted to the next core, in turn, with a command waiting and a leave; its
next line arrives and is pinned; a group whose lines are pinned runs and keeps the array busy for its clk at least, with those after the
last group, for those alone where the class leaves room for them (R288); a command whose groups are
done leaves the queue; the run ends at its limit, the arbiter granting again from two clk later. -/
def Sys2Proof.Machine.ArraysRunCommands : Prop :=
  ∀ (s : State), let x := arrayOf s
    (x.holder = none → x.grantFrom ≤ s.clk → ∀ k, k < 8 → mayServe s (clusterCore s k) = true →
      (∀ j, j < (k + 7 - x.last) % 8 → mayServe s (clusterCore s ((x.last + 1 + j) % 8)) = false) → x.last < 8 →
      Completes (exec .evRunGrant s) (fun t => CoresSame s t ∧ (arrayOf t).holder = some k ∧ (arrayOf t).started = 0 ∧ (arrayOf t).since = s.clk)) ∧
    (∀ k q qs, x.holder = some k → let p := focus s (clusterCore s k)
      p.core.leaseQueue = q :: qs →
      (∀ p1 y l, releasePins p x q qs = (p1, y) → p1.found = none →
        (∀ v ∈ (sliceOf p1 (128 * l.line)).lines, v.under = []) → sliceBusy p1 (128 * l.line) = false →
        ((headLines p1 q).flatten ++ (laterLines p1 y qs).flatten).find? (fun l => !hasKey y.pinned l.line) = some l → pinRoom p1 y l.line = true →
        Completes (exec .evTileLineArrival s) (fun t => (∃ m, p.now ≤ m ∧ (arrayOf t).pinned = setKey y.pinned l.line m) ∧ t.core.g = p.core.g ∧
          t.core.bank = p.core.bank ∧ t.core.leaseQueue = p.core.leaseQueue ∧ SameMemory p t)) ∧
      (∀ p1, x.busyUntil ≤ s.clk → s.clk < x.since + 65536 → q.groups < q.k / 32 →
        allPinned x (groupLines p q q.groups) = true → q.id ∉ p.core.badCmds →
        let n := groupClk q + (if q.groups + 1 = q.k / 32 then closingClk q else 0)
        runGroup p q = .done p1 → Completes (exec .evGroupStart s) (fun t => SameMemory p1 t ∧ t.core.bank = p1.core.bank ∧
          t.core.leaseQueue = { q with groups := q.groups + 1 } :: qs ∧ s.clk + n ≤ (arrayOf t).busyUntil ∧
          ((look (0, 0) x.spent k).1 ≠ s.clk / 1024 → s.clk % 1024 + groupClk q ≤ 1024 → groupClk q ≤ busyShare q.cls → (arrayOf t).busyUntil = s.clk + n))) ∧
      (x.since + 65536 ≤ s.clk → x.busyUntil ≤ s.clk → q.groups < q.k / 32 → Completes (exec .evRunLimit s) (fun t =>
        (arrayOf t).holder = none ∧ (arrayOf t).last = k ∧ (arrayOf t).grantFrom = s.clk + 2 ∧ SameMemory s t ∧ t.core = s.core)) ∧
      (q.k / 32 ≤ q.groups → x.busyUntil ≤ s.clk → p.core.lrels = [] → Completes (exec .evLeaseCommandComplete s) (fun t =>
        t.core.leaseQueue = qs ∧ t.core.bank = p.core.bank ∧ SameMemory p t ∧
        (qs = [] → (arrayOf t).holder = none) ∧ (qs ≠ [] → x.started < 16 → s.clk < x.since + 65536 → (arrayOf t).holder = some k))))

/-- R455, R456 for LEAVE_GRANT, POWER_THROTTLE and POWER_WITHIN_BUDGET: the oldest request is granted when it fits the budget, and waits
otherwise; the governor throttles while the package draws more than its budget. -/
def Sys2Proof.Machine.PowerIsGoverned : Prop :=
  ∀ (s : State),
    (∀ q qs, s.leaveQueue = q :: qs →
      exec .evLeaveGrant s = .next (if leaveFits s q.2 then { s with leaves := s.leaves ++ [q], leaveQueue := qs } else s)) ∧
    Completes (exec .evPowerThrottle s) (fun t => CoresSame s t ∧ (1000 * s.budget < s.arg.len → t.throttled = true)) ∧
    Completes (exec .evPowerWithinBudget s) (fun t => CoresSame s t ∧ (s.arg.len ≤ 1000 * s.budget → t.throttled = false))

/-! ### Logit words, sampler and grammar commands (R305 to R326) -/

/-- The sampler of the die an event names runs `r`, which has not ended and has read no poisoned value. -/
structure Sys2Proof.Machine.Sampling (s : State) (r : SampleRun) : Prop where
  run : (dieAt s s.arg.die.toNat).run = some r
  going : r.ending = none
  values : r.xMarks = []
  counts : r.cMarks = []
  biases : r.bMarks = []

/-- No command of the sampler of die `d` is under way. -/
def Sys2Proof.Machine.SamplerIdle (s : State) (d : Nat) : Prop := (dieAt s d).run = none ∧ (dieAt s d).commits = []

/-- The run has become `q`, and nothing else of the package has changed. -/
def Sys2Proof.Machine.RunIs (s t : State) (q : SampleRun) : Prop :=
  t = setDie s s.arg.die.toNat { dieAt s s.arg.die.toNat with run := some q }

/-- Every token of the slice has the value `f` of its old value, the run stands at the next word and is otherwise the same. -/
def Sys2Proof.Machine.Transformed (s t : State) (r : SampleRun) (f : Nat → Nat → Nat) : Prop :=
  ∃ q, RunIs s t q ∧ q = { r with x := q.x, pos := r.pos + 1 } ∧ ∀ k, k ∈ r.slice → q.xAt k = f k (r.xAt k) % 2 ^ 32

/-- R312 for the words that change every value of the slice: BIAS, PENREP, PENFRQ, PENPRS, TEMP, CLAMP and SCALE, each in one rounding
of f32; a TEMP of NaN, infinity or at most 0 makes the choice greedy and changes no value. -/
def Sys2Proof.Machine.LogitWordsTransform : Prop :=
  ∀ (a b : BitVec 4) (s : State) (r : SampleRun), Sampling s r →
    let v := f32Num (r.vAt a)
    let F : Nat → Machine.Num := f32Num
    let Gives := fun (i : Instr) (f : Nat → Nat → Nat) => Completes (exec i s) (fun t => Transformed s t r f)
    let positive := fun (w : Nat) => finite32 w && ltNum (.fin false 0 0) (F w)
    Gives (.lwBias a) (fun k x => f32Of (addNum 0 (F x) (mulNum v (F (r.bAt k))))) ∧
    Gives (.lwPenrep a) (fun k x => if r.cAt k = 0 then x else if ltNum (.fin false 0 0) (F x) then f32Div 0 x (r.vAt a) else (f32Mul 0 x (r.vAt a)).bits) ∧
    Gives (.lwPenfrq a) (fun k x => f32Of (addNum 0 (F x) (negNum (mulNum v (.fin false (r.cAt k) 0))))) ∧
    Gives (.lwPenprs a) (fun k x => if r.cAt k = 0 then x else (f32Sub 0 x (r.vAt a)).bits) ∧
    (positive (r.vAt a) = true → Gives (.lwTemp a) (fun _ x => f32Div 0 x (r.vAt a))) ∧
    (positive (r.vAt a) = false → exec (.lwTemp a) s = .next (setDie s s.arg.die.toNat
      { dieAt s s.arg.die.toNat with run := some { r with greedy := true, pos := r.pos + 1 } })) ∧
    Gives (.lwClamp b a) (fun _ x => (floatMin f32Fmt false (floatMin f32Fmt true x (r.vAt a)).bits (r.vAt b)).bits) ∧
    Gives (.lwScale b a) (fun _ x => f32Of (addNum 0 (mulNum (F x) v) (F (r.vAt b))))

/-- R312 for the filter words: the run's live set becomes the tokens the word keeps, in rising order, a filter is recorded with it,
and no value changes: MASKG the permitted ones, MASKB those whose bit of the ban mask is 0, TOPK the first k in ranking order, MINP
those of weight v[a] and up, TOPP the shortest stretch of the ranked support whose running sum reaches v[a] times the support's sum. -/
def Sys2Proof.Machine.LogitWordsFilter : Prop :=
  ∀ (a : BitVec 4) (k : BitVec 16) (s : State) (r : SampleRun), Sampling s r →
    let Keeps := fun (i : Instr) (g : Bool) (keep : Nat → Bool) => exec i s = .next (setDie s s.arg.die.toNat
      { dieAt s s.arg.die.toNat with run := some { r with live := r.live.filter keep, filters := r.filters ++ [(g, r.live.filter keep)], pos := r.pos + 1 } })
    let vals := r.live.map (fun t => (t, r.xAt t))
    let ws := weights vals
    let low := nanOrLow (r.vAt a)
    (∀ m, r.permitted = some m → Keeps .lwMaskg true (fun t => m.contains t)) ∧
    (r.permitted = none → Keeps .lwMaskg true (fun _ => true)) ∧
    (∀ x, runSlot s s.arg.die.toNat r = some x → x.ban = 0 → Keeps .lwMaskb false (fun _ => true)) ∧
    Keeps (.lwTopk k) false (fun t => (((ranked vals).take k.toNat).map Prod.fst).contains t) ∧
    Keeps (.lwMinp a) false (fun t => ((if low then supportOf ws else ws.filter (fun w => !ltNum (f32Num w.2) (f32Num (r.vAt a)))).map Prod.fst).contains t) ∧
    Keeps (.lwTopp a) false (fun t => (if low then ((rankedSupport r).map Prod.fst).take 1
      else upToGoal (f32Mul 0 (r.vAt a) (sumWeights (supportOf ws))).bits 0 (rankedSupport r)).contains t)

/-- R312 for the other words: SETV writes v[a] from a bf16 literal, SETV.lo its low half; SKIP and its conditional forms pass over the
words they count; LDC and LDB of a slot without a bias table load; SOFTMAX leaves log probabilities; DRAW, ARGMAX and END choose, in a
run of no grammar and no tree posting the chosen token and ending with status 0. -/
def Sys2Proof.Machine.LogitWordsSetSkipAndChoose : Prop :=
  ∀ (a : BitVec 4) (n x : BitVec 16) (s : State) (r : SampleRun), Sampling s r →
    let d := s.arg.die.toNat
    let v := r.vAt a
    let Sets := fun (i : Instr) (w : Nat) => exec i s = .next (setDie s d { dieAt s d with
      run := some { r with v := place 0 r.v a.toNat (BitVec.ofNat 32 w), pos := r.pos + 1 } })
    let Skips := fun (i : Instr) (c : Bool) => exec i s = .next (setDie s d { dieAt s d with
      run := some { r with pos := r.pos + 1 + if c then n.toNat else 0 } })
    Sets (.lwSetv x a) (x.toNat * 65536) ∧ Sets (.lwSetvLo x a) (v / 65536 * 65536 + x.toNat) ∧
    Skips (.lwSkip n) true ∧ Skips (.lwSkipZ n a) (decide (v % 2 ^ 31 = 0) || (f32Num v).isNan) ∧
    Skips (.lwSkipP n a) (ltNum (.fin false 0 0) (f32Num v)) ∧ Skips (.lwSkipNg n) r.permitted.isNone ∧
    Completes (exec .lwSoftmax s) (fun t => Transformed s t r (fun k y =>
      let sup := supportOf (weights (r.live.map (fun t => (t, r.xAt t))))
      if k ∈ r.live then match sup.find? (fun w => w.1 == k) with | some w => logProb w.2 (sumWeights sup) | none => 0xFF800000 else y)) ∧
    (∀ slot, runSlot s d r = some slot →
      (slot.bias = 0 → exec .lwLdb s = .next (setDie s d { dieAt s d with run := some { r with b := [], pos := r.pos + 1 } })) ∧
      (∀ s1 bs, samRead s d r.cmd (slot.counts + 2 * r.base) (2 * r.len) = (s1, .ok bs) → Completes (exec .lwLdc s) (fun t => SameMemory s1 t ∧
        ∃ q, (dieAt t d).run = some q ∧ q.pos = r.pos + 1 ∧ q.x = r.x ∧
          ∀ i, i < r.len → q.cAt (r.base + i) = (recNat bs (2 * i) 2 + deltas r (r.base + i)) % 2 ^ 32)) ∧
      (r.grammar = none → r.nodes = [] → r.permitted = none → (dieAt s d).commits = [] →
        let Chooses := fun (i : Instr) (p : Pick) => ∀ c, chooseRule p r.xAt r.slice r.live r.filters r.slice = some c →
          Completes (exec i s) (fun t => CoresSame s t ∧
            (∃ q, (dieAt t d).run = some q ∧ q.posted = r.posted ++ [c.tok] ∧ q.ending = some (0, none)) ∧
            ∃ e, (fifoAt t d fifoSampler).results = (fifoAt s d fifoSampler).results ++ [e] ∧ e.ctx = r.cmd.ctx ∧ bits e.val 63 32 = c.tok % 2 ^ 32)
        Chooses .lwArgmax .argmax ∧ Chooses .lwEnd .argmax ∧
        Chooses .lwDraw (if r.greedy then .argmax else .draw (uniform slot.seed slot.draw r.node r.stage))))

/-- R305, R306, R313, R322, R326 for OPEN, BIND, CLOSE, CLUSTER and NOTE at the head of the sampler's FIFO: OPEN takes the lowest free
slot of 1,024 and answers its handle; BIND replaces the slot's program by an accepted one; CLOSE frees the slot; CLUSTER refuses an
unfactored slot with 0x83 and, of a factored one, draws a cluster from the pushing core's bank row and holds it pending; NOTE in a
slot without a grammar accepts its tokens. Of all seven kinds a command with a reserved field or a value outside its range answers 0x80,
as a reserved kind does, and of the six that name a slot one that names none of its context 0x81; neither changes a slot. -/
def Sys2Proof.Machine.SamplerSlotCommands : Prop :=
  ∀ (s : State) (c : Cmd), let d := s.arg.die.toNat
    samplerHead s d = some c → SamplerIdle s d →
    (let Refuses := fun (i : Instr) (v : Word) => Completes (exec i s) (fun t => CoresSame s t ∧ Answered s t d fifoSampler c v ∧
       (dieAt t d).seqSlots = (dieAt s d).seqSlots ∧ (dieAt t d).run = none)
     let sample := if cmdNat c 24 1 % 2 = 1 then Instr.evSampleStage2 else Instr.evSample
     (kindByte c = 0 → cmdNat c 1 7 ≠ 0 ∨ cmdNat c 16 48 ≠ 0 ∨ cmdNat c 8 8 % 64 ≠ 0 → Refuses .evOpen (statusElem 0 0x80)) ∧
     (6 < kindByte c → Refuses .evOpen (statusElem 0 0x80)) ∧
     ∀ r ∈ ([(.evBind, 1, decide (cmdNat c 8 8 % 4 ≠ 0 ∨ cmdNat c 18 46 ≠ 0), statusElem 0),
         (.evClose, 2, decide (cmdNat c 8 56 ≠ 0), statusElem 0),
         (sample, 3, decide (cmdNat c 25 39 ≠ 0 ∨ 2 ≤ cmdNat c 24 1 ∨ cmdNat c 20 4 = 0 ∨ cmdNat c 8 8 % 64 ≠ 0), commitElem 0 none),
         (.evCluster, 4, decide (cmdNat c 9 3 ≠ 0 ∨ cmdNat c 16 48 ≠ 0), statusElem 0),
         (.evVerify, 5, decide (cmdNat c 17 47 ≠ 0 ∨ cmdNat c 16 1 < 2 ∨ 64 < cmdNat c 16 1 ∨ cmdNat c 8 8 % 32 ≠ 0), commitElem 0 none),
         (.evNote, 6, decide (cmdNat c 20 44 ≠ 0 ∨ cmdNat c 16 4 = 0 ∨ 4096 < cmdNat c 16 4 ∨ cmdNat c 8 8 % 4 ≠ 0), commitElem 0 none)] :
         List (Instr × Nat × Bool × (Nat → Word))),
       kindByte c = r.2.1 →
         (cmdNat c 1 3 ≠ 0 ∨ 1023 < handleOf c ∨ r.2.2.1 = true → Refuses r.1 (r.2.2.2 0x80)) ∧
         (cmdNat c 1 3 = 0 → handleOf c ≤ 1023 → r.2.2.1 = false → slotFor s d (handleOf c) c.ctx = none → Refuses r.1 (r.2.2.2 0x81))) ∧
    (kindByte c = 0 → cmdNat c 1 7 = 0 → cmdNat c 16 48 = 0 → cmdNat c 8 8 % 64 = 0 →
      ∀ s1 bs k, samRead (makeWay s d) d c (cmdNat c 8 8) 128 = (s1, .ok bs) → descOk bs = true → recNat bs 20 2 = 0 → recNat bs 22 2 = 0 →
        freeKey (dieAt s1 d).seqSlots 1024 = some k →
        Completes (exec .evOpen s) (fun t => SameMemory s1 t ∧ Answered s1 t d fifoSampler c (statusElem k 0) ∧
          ∃ x, findKey (dieAt t d).seqSlots k = some x ∧ x.ctx = c.ctx ∧ x.vocab = recNat bs 16 4 ∧ x.clusters = 0 ∧ x.program = none ∧
            x.grammar = none ∧ x.faulted = false ∧ x.draw = BitVec.ofNat 64 (recNat bs 64 8))) ∧
    (cmdNat c 1 3 = 0 → handleOf c ≤ 1023 →
      ∀ x, slotFor s d (handleOf c) c.ctx = some x →
        (kindByte c = 1 → cmdNat c 8 8 % 4 = 0 → cmdNat c 18 46 = 0 → ∀ s1 prog, readProgram (makeWay s d) d c (cmdNat c 8 8) (cmdNat c 16 2) = (s1, .ok (prog, 0)) →
          Completes (exec .evBind s) (fun t => SameMemory s1 t ∧ Answered s1 t d fifoSampler c (statusElem 0 0) ∧
            findKey (dieAt t d).seqSlots (handleOf c) = some { x with program := prog })) ∧
        (kindByte c = 2 → cmdNat c 8 56 = 0 → Completes (exec .evClose s) (fun t => CoresSame s t ∧ Answered s t d fifoSampler c (statusElem 0 0) ∧
          findKey (dieAt t d).seqSlots (handleOf c) = none)) ∧
        (kindByte c = 4 → cmdNat c 9 3 = 0 → cmdNat c 16 48 = 0 → x.faulted = false → x.clusters = 0 →
          Completes (exec .evCluster s) (fun t => CoresSame s t ∧ Answered s t d fifoSampler c (statusElem 0 0x83))) ∧
        (kindByte c = 4 → cmdNat c 9 3 = 0 → cmdNat c 16 48 = 0 → x.faulted = false → x.clusters ≠ 0 → x.grammar = none →
          (∀ q ∈ (pusher s c).leaseQueue, c.stamp < q.stamp) → ∀ s1 cb, samRead (makeWay s d) d c x.clusterTable (8 * x.clusters) = (s1, .ok cb) →
          (pusher s1 c).bankPoison = [] →
          let temp := cmdNat c 12 4
          let warm := finite32 temp && ltNum (.fin false 0 0) (f32Num temp)
          let score := fun (i : Nat) =>
            let w := (look 0 (pusher s1 c).bank (256 * cmdNat c 8 1 + i)).toNat
            if warm then f32Div 0 w temp else w
          let all := List.range x.clusters
          ∀ ch, chooseRule (if warm then .draw (uniform x.seed x.draw 0 1) else .argmax) score all all [] all = some ch →
          Completes (exec .evCluster s) (fun t => SameMemory s1 t ∧ Answered s1 t d fifoSampler c (statusElem ch.tok 0) ∧
            ∃ p, p = (clustersOf cb x.clusters).getD ch.tok (0, 0) ∧
              findKey (dieAt t d).seqSlots (handleOf c) = some { x with pending := some (ch.tok, ch.logp.getD 0xFF800000, p.1, p.2) })) ∧
        (kindByte c = 6 → cmdNat c 20 44 = 0 → 1 ≤ cmdNat c 16 4 → cmdNat c 16 4 ≤ 4096 → cmdNat c 8 8 % 4 = 0 → x.faulted = false →
          x.pending = none → x.grammar = none → ∀ s1 bs, samRead (makeWay s d) d c (cmdNat c 8 8) (4 * cmdNat c 16 4) = (s1, .ok bs) →
          let toks := (List.range (cmdNat c 16 4)).map (fun i => recNat bs (4 * i) 4)
          (∀ t ∈ toks, t < x.vocab) → ∀ s2, countsReach (flushCommits s1 d) d c x toks = (s2, none) →
            Completes (exec .evNote s) (fun t => SameMemory (bumpCounts s2 d c x toks).1 t ∧
              Answered (bumpCounts s2 d c x toks).1 t d fifoSampler c (commitElem toks.length none 0))))

/-- R309, R319, R323 to R325 for SAMPLE, its stage 2 and VERIFY at the head of the sampler's FIFO in a slot that admits them and holds no
grammar: a run begins on the row of logits, live the whole slice, X the row's values, at the program's first word; a faulted slot
answers 0x93, a slice beyond the slot's vocabulary 0x80, and no run begins.
Where the manual leaves a point open it states the model's choice: log entry 32. -/
def Obligations.SampleRunsBegin : Prop :=
  ∀ (s : State) (c : Cmd) (x : SeqSlot), let d := s.arg.die.toNat
    samplerHead s d = some c → SamplerIdle s d → cmdNat c 1 3 = 0 → handleOf c ≤ 1023 → slotFor s d (handleOf c) c.ctx = some x →
    let first := cmdNat c 16 4
    let n := cmdNat c 20 4
    let Begun := fun (t : State) (base len stage w : Nat) (bs : List Byte) => ∃ r, (dieAt t d).run = some r ∧ r.cmd = c ∧ r.base = base ∧ r.len = len ∧
      r.stage = stage ∧ r.ending = none ∧ r.pos = 0 ∧ r.greedy = false ∧ r.filters = [] ∧ r.posted = [] ∧
      r.live = (List.range len).map (fun i => base + i) ∧
      ∀ i, i < len → r.xAt (base + i) = (if x.bf16 then f32OfBf16 (recNat bs (w * i) w) else recNat bs (w * i) w) % 2 ^ 32
    let w := if x.bf16 then 2 else 4
    (kindByte c = 3 → cmdNat c 25 39 = 0 → cmdNat c 24 1 ≤ 1 → n ≠ 0 → cmdNat c 8 8 % 64 = 0 → x.vocab < first + n →
      Completes (exec (if cmdNat c 24 1 = 1 then .evSampleStage2 else .evSample) s) (fun t => CoresSame s t ∧
        Answered s t d fifoSampler c (commitElem 0 x.grammar 0x80) ∧ (dieAt t d).run = none)) ∧
    (kindByte c = 3 → cmdNat c 25 39 = 0 → n ≠ 0 → cmdNat c 8 8 % 64 = 0 → first + n ≤ x.vocab →
      (cmdNat c 24 1 = 0 → x.faulted = true → Completes (exec .evSample s) (fun t => CoresSame s t ∧
        Answered s t d fifoSampler c (commitElem 0 x.grammar 0x93) ∧ (dieAt t d).run = none)) ∧
      (cmdNat c 24 1 = 0 → x.faulted = false → x.pending = none → x.grammar = none → n ≠ 1 →
        ∀ s1 bs, samRead (makeWay s d) d c (cmdNat c 8 8) (w * n) = (s1, .ok bs) → Completes (exec .evSample s) (fun t => SameMemory s1 t ∧ Begun t first n 0 w bs)) ∧
      (cmdNat c 24 1 = 1 → x.faulted = false → x.grammar = none → n ≠ 1 → ∀ k lp, x.pending = some (k, lp, first, n) →
        ∀ s1 bs, samRead (setSeq (makeWay s d) d (handleOf c) { x with pending := none }) d c (cmdNat c 8 8) (w * n) = (s1, .ok bs) →
        Completes (exec .evSampleStage2 s) (fun t => SameMemory s1 t ∧ Begun t first n 2 w bs))) ∧
    (kindByte c = 5 → cmdNat c 17 47 = 0 → 2 ≤ cmdNat c 16 1 → cmdNat c 16 1 ≤ 64 → cmdNat c 8 8 % 32 = 0 → x.faulted = false → x.pending = none →
      x.clusters = 0 → x.grammar = none → x.vocab ≠ 1 → ∀ s1 bs, samRead (makeWay s d) d c (cmdNat c 8 8) (32 * cmdNat c 16 1) = (s1, .ok bs) →
      nodesOk bs (cmdNat c 16 1) x.vocab = true → recNat bs 0 8 ≠ 0 → ∀ s2 ls, samRead s1 d c (recNat bs 0 8) (w * x.vocab) = (s2, .ok ls) →
        Completes (exec .evVerify s) (fun t => SameMemory s2 t ∧ Begun t 0 x.vocab 0 w ls))

/-- R308, R321 for the grammar engine: BIND reads the header and puts the slot into the grammar's start state, UNBIND removes it, both
ending the faulted state; QUERY of a slot without a grammar answers; INVALIDATE removes the chunks of the header from the mask cache.
Of all four kinds a command with a reserved field or a handle out of range answers 0x80, as a reserved kind does, and of the three that
name a slot one that names none of its context 0x81; neither changes a slot. -/
def Sys2Proof.Machine.GrammarCommands : Prop :=
  ∀ (s : State) (c : Cmd), let d := s.arg.die.toNat
    grammarHead s d = some c →
    let hd := (wordAt c.words 2).toNat
    let reserved := bits (wordAt c.words 0) 31 8 ≠ 0 ∨ wordAt c.words 1 ≠ 0 ∨ wordAt c.words 3 ≠ 0
    let Refuses := fun (i : Instr) (n : Nat) => Completes (exec i s) (fun t => CoresSame s t ∧
      Answered s t d fifoGrammar c (gramResult noLone none n) ∧ (dieAt t d).seqSlots = (dieAt s d).seqSlots ∧ (dieAt t d).maskCache = (dieAt s d).maskCache)
    (∀ r ∈ ([(.evGrammarBind, 0), (.evUnbind, 1), (.evQuery, 2)] : List (Instr × Nat)), kindByte c = r.2 →
      (reserved ∨ 1023 < handleOf c → Refuses r.1 0x80) ∧
      (¬reserved → handleOf c ≤ 1023 → slotFor s d (handleOf c) c.ctx = none → Refuses r.1 0x81)) ∧
    (3 < kindByte c → Refuses .evGrammarBind 0x80) ∧ (kindByte c = 3 → reserved → Refuses .evInvalidate 0x80) ∧
    (¬reserved →
    (handleOf c ≤ 1023 →
      ∀ x, slotFor s d (handleOf c) c.ctx = some x →
        (kindByte c = 0 → ∀ s1 h, readGram s (c.agent d fifoGrammar) hd x.vocab = (s1, .ok h) → Completes (exec .evGrammarBind s) (fun t => SameMemory s1 t ∧
          Answered s1 t d fifoGrammar c (gramResult noLone (some { header := hd, st := h.start, stack := [] }) 0) ∧
          findKey (dieAt t d).seqSlots (handleOf c) = some { x with grammar := some { header := hd, st := h.start, stack := [] }, faulted := false })) ∧
        (kindByte c = 1 → Completes (exec .evUnbind s) (fun t => CoresSame s t ∧ Answered s t d fifoGrammar c (gramResult noLone none 0) ∧
          findKey (dieAt t d).seqSlots (handleOf c) = some { x with grammar := none, faulted := false })) ∧
        (kindByte c = 2 → x.grammar = none → Completes (exec .evQuery s) (fun t => CoresSame s t ∧ Answered s t d fifoGrammar c (gramResult noLone none 0)))) ∧
    (kindByte c = 3 → Completes (exec .evInvalidate s) (fun t => CoresSame s t ∧ Answered s t d fifoGrammar c (gramResult noLone none 0) ∧
      (dieAt t d).maskCache = (dieAt s d).maskCache.filter (fun m => !(m.header == hd && m.asn == bits (rootOf s d c.ctx) 63 52)))))

/-! ### Tasks, errors, pre-emption (R391 to R436) -/

/-- R394, R395, R403, R408 for DOORBELL, LAUNCH_ADMIT, SPAWN and MARKER_COMPLETE: a tail within the ring is accepted as Tail, one that
runs past the ring is refused with reason 2 and no change; the record at Head is passed, a marker entering as a launch without tasks,
a malformed record with an event of reason 1; a spawned record is answered with its tag; a marker with no earlier launch of its source
completes with an event. -/
def Obligations.LaunchesEnter : Prop :=
  ∀ (s : State), let d := s.arg.die.toNat
    let x := dieAt s d
    let k := s.arg.n
    (∀ q, findKey x.queues (k % 4096) = some q → (∃ c ∈ x.contexts, c.num = q.ctx) →
      let ahead := fun (t : Nat) => (t + 2 ^ 32 - q.head) % 2 ^ 32
      let tail := s.arg.len % 2 ^ 32
      (ahead q.lastTail ≤ ahead tail → ahead tail ≤ q.entries → Completes (exec .evDoorbell s) (fun t => CoresSame s t ∧
        findKey (dieAt t d).queues (k % 4096) = some { q with lastTail := tail, doorbells := q.doorbells ++ [(tail, s.clk)] })) ∧
      (q.entries < ahead tail → Completes (exec .evDoorbell s) (fun t => CoresSame s t ∧ (dieAt t d).queues = x.queues ∧
        (dieAt t d).postings.length = x.postings.length + 1))) ∧
    (∀ q s1 bs m, findKey x.queues k = some q → q.enable = true → q.head ≠ q.lastTail → queueBefore s d k = false →
      agentRead s (sequencer d q.ctx) (q.ring + 64 * (q.head % q.entries)) 64 = (s1, .ok (bs, m)) →
      let Passed := fun (t : State) => SameMemory s1 t ∧ findKey (dieAt t d).queues k =
          some { q with head := (q.head + 1) % 2 ^ 32, doorbells := q.doorbells.filter (fun b => b.1 != (q.head + 1) % 2 ^ 32) } ∧
        (dieAt t d).tasks = (dieAt s1 d).tasks
      (launchBad bs = false → (launchOf bs).kind = 2 → Completes (exec .evLaunchAdmit s) (fun t => Passed t ∧
        ∃ l, (dieAt t d).launches = (dieAt s1 d).launches ++ [l] ∧ l.ctx = q.ctx ∧ l.source = k ∧ l.marker = true ∧ l.left = 0 ∧ l.tag = (launchOf bs).tag)) ∧
      (launchBad bs = true → Completes (exec .evLaunchAdmit s) (fun t => Passed t ∧ (dieAt t d).launches = (dieAt s1 d).launches ∧
        ∃ p, (dieAt t d).postings = (dieAt s1 d).postings ++ [p] ∧ p.ctx = q.ctx ∧ wordAt p.words 3 = 1))) ∧
    (∀ c, nextCmd (fifoAt s d fifoSpawn) = some c → let bs := bytesOf (c.words.take 8)
      (launchBad bs = false → (launchOf bs).kind = 2 → Completes (exec .evSpawn s) (fun t => CoresSame s t ∧
        Answered s t d fifoSpawn c (spawnElem (launchOf bs).tag.toNat 0) ∧ (dieAt t d).launches.length = x.launches.length + 1)) ∧
      (launchBad bs = true → Completes (exec .evSpawn s) (fun t => CoresSame s t ∧
        Answered s t d fifoSpawn c (spawnElem (launchOf bs).tag.toNat 1) ∧ (dieAt t d).launches = x.launches))) ∧
    (∀ l, x.launches.find? (fun l => l.id == k && l.marker) = some l → (∀ m ∈ x.launches, m.source = l.source → l.id ≤ m.id) →
      Completes (exec .evMarkerComplete s) (fun t => CoresSame s t ∧ (dieAt t d).launches = x.launches.filter (fun m => m.id ≠ l.id) ∧
        ∃ p, (dieAt t d).postings = x.postings ++ [p] ∧ p.ctx = l.ctx ∧ bits (wordAt p.words 0) 7 0 = 0))

/-- R399 to R402, R404, R405 for a task's life: the next task is placed on the lowest admitted core; with its streams resident it starts
at its entry with the launch's values in g1 to g9, every other register zero; ending and drained it publishes, then ends its
provisional state, then posts once no record it stored on any core is left unsettled; a fault stops its core and posts, memory changing only by what L1s write back; a full millisecond ready raises its level; an event is written to its
ring, waits while the ring is full, and is dropped where its context is gone.
Where the manual leaves a point open it states the model's choice: log entries 12 and 34. -/
def Obligations.TasksLive : Prop :=
  ∀ (s : State),
    (let d := s.arg.die.toNat
     (∀ k tk src left c, (∀ p ∈ (dieAt s d).tasks, p.2.ctx = s.arg.n → p.2.state = .ready → misplaced s d p.2 = false) →
       nextTask s d s.arg.n = some (k, tk, src, left) → coreFor s d tk = some c → tk.streams = [] →
       Completes (exec .evTaskPlace s) (fun t => t.cur = c ∧ t.core.task = some k ∧ t.core.running = false ∧
         taskAt t d k = some { tk with state := .staging, core := some c, step := 0 })) ∧
     (∀ tk f pc, taskAt s d s.arg.n = some tk → tk.fault = some (f, pc) → tk.step < 6 → Completes (exec .evTaskFault s) (fun t =>
       OnlyWriteBacks s t ∧ (∀ c, tk.core = some c → (coreAt t c).running = false) ∧
       ∃ p ∈ (dieAt t d).postings, p.task = some s.arg.n ∧ p.ctx = tk.ctx ∧ bits (wordAt p.words 0) 7 0 = 1)) ∧
     (∀ tk, taskAt s d s.arg.n = some tk → agingDue s tk = true → Completes (exec .evAging s) (fun t => CoresSame s t ∧
       taskAt t d s.arg.n = some { tk with aged := tk.aged + 1 })) ∧
     (∀ p, (dieAt s d).postings[s.arg.n]? = some p → (∀ q ∈ (dieAt s d).postings.take s.arg.n, q.ctx ≠ p.ctx) → p.task = none →
       (contextOn (dieAt s d) p.ctx = none → Completes (exec .evEventPost s) (fun t => CoresSame s t ∧
         (dieAt t d).postings = (dieAt s d).postings.erase p)) ∧
       (∀ c s1 bs m, contextOn (dieAt s d) p.ctx = some c → agentRead s (sequencer d p.ctx) c.ring 64 = (s1, .ok (bs, m)) → (ringOf bs).usable = true →
         ((ringOf bs).full = true → exec .evEventPost s = .next s1) ∧
         (∀ s2, (ringOf bs).full = false → writeRecord s1 d p.ctx c.ring (ringOf bs) p.words = (s2, true) → Completes (exec .evEventPost s) (fun t =>
           SameMemory s2 t ∧ t.msi = s2.msi ∧ (dieAt t d).postings = (dieAt s2 d).postings.erase p))))) ∧
    (let p := focus s s.arg.core.toNat
     let d := dieOfCore p.cur
     ∀ n tk, p.core.task = some n → taskAt p d n = some tk → tk.fault = none → p.core.rollback = false →
     (tk.state = .staging → coreIdle p.core = true → pushedCopies p = [] → Completes (exec .evTaskStart s) (fun t => SameMemory p t ∧
       t.core.running = true ∧ (∀ e, (t.core.eng e).pc = tk.entry ∧ (t.core.eng e).walk = 0 ∧ (t.core.eng e).lc = []) ∧ privileged t.core = false ∧
       sysNow t.core sysTASKID = BitVec.ofNat 64 (tk.index + tk.tag.toNat * 2 ^ 32) ∧ sysNow t.core sysCTXN = BitVec.ofNat 64 tk.ctx ∧
       sysNow t.core sysPCORE = BitVec.ofNat 64 p.cur ∧ t.core.tokens = [] ∧ t.core.cells.cur = p.core.cells.cur ∧
       (∀ e r, readG t e r = if r = 1 then BitVec.ofNat 64 tk.desc else if 2 ≤ r ∧ r ≤ 7 then wordAt tk.args (r - 2) else
         if r = 8 then tk.tag.setWidth 64 else if r = 9 then BitVec.ofNat 64 tk.index else 0) ∧
       taskAt t d n = some { tk with state := .running })) ∧
     (tk.state = .ending → tk.step < 3 → drained p (markOf d n) = true → Completes (exec .evTaskComplete s) (fun t => SameMemory p t ∧
       taskAt t d n = some { tk with step := 3 } ∧ t.core.leaseOpen = false ∧ (∀ r ∈ t.core.log, r.time.isSome = true) ∧ t.core.g = p.core.g)) ∧
     (tk.state = .ending → tk.step = 3 → n < 4096 → dependsOn p (markOf d n) = [markOf d n] → Completes (exec .evTaskComplete s) (fun t => SameMemory p t ∧
       taskAt t d n = some { tk with step := 4 } ∧ ∀ r ∈ t.core.log, r.prov ≠ some (markOf d n))) ∧
     (tk.state = .ending → tk.step = 4 → taskUnsettled p (markOf d n) = true → exec .evTaskComplete s = .next p) ∧
     (tk.state = .ending → tk.step = 4 → taskUnsettled p (markOf d n) = false →
       Completes (exec .evTaskComplete s) (fun t => SameMemory p t ∧ taskAt t d n = some { tk with step := 6 } ∧
         ∃ x, (dieAt t d).postings = (dieAt p d).postings ++ [x] ∧ x.task = some n ∧ x.ctx = tk.ctx ∧ bits (wordAt x.words 0) 7 0 = 0)))

/-- R358, R431, R432, R434 for POISON_ROLLBACK, SRAM_ERROR and FATAL_ERROR: a task that has consumed poison is ready again and its core
free, its rollback counted; an error in a general register poisons that register alone, one in a clean line of a slice drops the
line, unless it is pinned, and is only counted; one in a promotion tag of a failed stack is fatal error 3; the first fatal error that the
package raises of itself (reasons 1, 2 and 5) stops it and is recorded, another reason and a later one change nothing.
Where the manual leaves a point open it states the model's choice: log entry 35. -/
def Obligations.ErrorsAreContained : Prop :=
  ∀ (s : State),
    (let c := s.arg.core.toNat
     let d := c / 64
     ∀ n tk, (coreAt s c).rollback = true → (coreAt s c).task = some n → n < 4096 → taskAt s d n = some tk → tk.fault = none → tk.step < 4 →
       tk.rollbacks < 3 → Completes (exec .evPoisonRollback s) (fun t => SameMemory s t ∧ (coreAt t c).task = none ∧ (coreAt t c).running = false ∧
         taskAt t d n = some { tk with state := .ready, core := none, step := 0, readySince := s.clk, aged := 0, rollbacks := tk.rollbacks + 1 })) ∧
    (s.arg.sramErr = none → exec .evSramError s = .next s) ∧
    (∀ c r, s.arg.sramErr = some (.core c (.greg r)) → r ≠ 0 → Completes (exec .evSramError s) (fun t => SameMemory s t ∧
      look false (coreAt t c.toNat).g.poison r.toNat = true ∧ (coreAt t c.toNat).cells = (coreAt s c.toNat).cells ∧
      ∀ k, k ≠ r.toNat → look 0 (coreAt t c.toNat).g.cur k = look 0 (coreAt s c.toNat).g.cur k ∧
        look false (coreAt t c.toNat).g.poison k = look false (coreAt s c.toNat).g.poison k)) ∧
    (∀ die slice line l, s.arg.sramErr = some (.l2 die slice line) →
      let x : Slice := look {} (dieAt s die.toNat).slices slice
      x.lines.find? (fun l => l.line == line) = some l → l.dirty = false →
      (0 < l.pins → Completes (exec .evSramError s) (fun t => CoresSame s t ∧ (look {} (dieAt t die.toNat).slices slice).lines = x.lines ∧
        (dieAt t die.toNat).softErrors = (dieAt s die.toNat).softErrors + 1)) ∧
      (l.pins = 0 → l.under = [] → Completes (exec .evSramError s) (fun t => CoresSame s t ∧
        (look {} (dieAt t die.toNat).slices slice).lines = x.lines.filter (fun m => m.line ≠ line) ∧
        (dieAt t die.toNat).softErrors = (dieAt s die.toNat).softErrors + 1))) ∧
    (∀ k sub n, s.arg.sramErr = some (.promo k sub n) → (stackAt s k.toNat).failed = true → s.fatal = none → s.dumpRegion = none →
      Completes (exec .evSramError s) (fun t => CoresSame s t ∧ t.fatal = some 3)) ∧
    (s.fatal.isSome = true → exec .evFatalError s = .next s) ∧
    (s.arg.addr ≠ 1 → s.arg.addr ≠ 2 → s.arg.addr ≠ 5 → exec .evFatalError s = .next s) ∧
    (s.fatal = none → s.arg.addr = 1 ∨ s.arg.addr = 2 ∨ s.arg.addr = 5 → s.dumpRegion = none → Completes (exec .evFatalError s) (fun t => CoresSame s t ∧
      t.fatal = some s.arg.addr ∧ ∃ p, (dieAt t s.arg.die.toNat).mgmtPostings = (dieAt s s.arg.die.toNat).mgmtPostings ++ [p] ∧ bits (wordAt p.words 0) 7 0 = 4))

/-- R427 to R430, R441 for PREEMPT, IMAGE_LOAD, CONTEXT_EXCHANGE and IMAGE_DRAIN: an admitted PREEMPT names its cores; the incoming plane
is read into the attic; a loaded core is to be halted when the clk ends; at rest, and its whole cluster with it where the incoming
tasks are fused otherwise than the cluster stands, it is exchanged, the outgoing context put aside
and a context that never ran finding everything zero; the outgoing plane reaches its save area.
Where the manual leaves a point open it states the model's choice: log entries 8 and 36. -/
def Obligations.PartitionsArePreempted : Prop :=
  ∀ (s : State),
    (let d := s.arg.die.toNat
     let x := dieAt s d
     let w := wordAt x.mcbCopy 0
     let mask := BitVec.ofNat 8 (bits w 7 0)
     let table := (wordAt x.mcbCopy 1).toNat
     let areas := (maskedCores d mask).map (saveAreas s table d mask)
     ∀ o i, x.busy = true → x.mcbCode = 5 → x.preempt = none → bits w 15 8 = 0 → bits w 63 28 = 0 → mask ≠ 0 → physBacked table (16 * areas.length) = true →
       (∀ a ∈ areas, areaOk a.1 = true ∧ (a.2 = 0 ∨ areaOk a.2 = true)) → x.contexts.filter (fun c => c.mask &&& mask != 0) = [o] →
       o.mask &&& mask = mask → o.num ≠ bits w 27 16 → contextOn x (bits w 27 16) = some i → i.mask = 0 →
       Completes (exec .evPreempt s) (fun t => CoresSame s t ∧ (dieAt t d).preempt = some (bits w 27 16, table, mask) ∧ (dieAt t d).busy = true)) ∧
    (let p := focus s s.arg.core.toNat
     ∀ inc o a mask, preemptOf p p.cur = some (inc, o, a, mask) →
     ((∀ i ∈ p.images, i.drained = false → i.core ≠ p.cur ∧ i.area ≠ a) → p.core.loaded = false → Memory.wf p.mem →
       Completes (exec .evImageLoad s) (fun t => SameMemory p t ∧ t.core.loaded = true ∧ t.core.near = p.core.near ∧
         ∀ k, k < 2 ^ 21 → look 0 t.core.attic k = if a = 0 then 0 else memByte p (a + k))) ∧
     (p.core.loaded = true → holdsCore p = false →
       (p.core.running = true → exec .evContextExchange s = .next { p with core := { p.core with haltAsked := true } }) ∧
       (∀ y c, p.core.running = false → atRest p = true →
         (let x := dieAt p (dieOfCore p.cur)
          formIn p inc (match x.preempt with | some (_, t, _) => t | none => 0) mask = fusedNumber x (p.cur % 64 / 8) ∨ clusterResting p = true) → p.core.ctx = some y → contextOn (dieAt p (dieOfCore p.cur)) inc = some c → a = 0 →
         Completes (exec .evContextExchange s) (fun t => t.core.ctx = some inc ∧ t.core.task = none ∧ t.core.g = File.zero ∧ t.core.cells = File.zero ∧
           t.core.near.cur = [] ∧ t.core.attic = p.core.near.cur ∧ sysNow t.core sysPTB = c.ptb ∧
           ∃ i ∈ t.images, i.ctx = y ∧ i.core = p.cur ∧ i.area = o ∧ i.drained = false ∧ i.image.g = p.core.g ∧ i.image.near = p.core.near)))) ∧
    (∀ i, s.images.find? (fun i => i.core == s.arg.core.toNat && !i.drained) = some i → (coreAt s i.core).atticPoison = [] → Completes (exec .evImageDrain s) (fun t =>
      t.core = s.core ∧ { i with drained := true } ∈ t.images ∧ (∀ k, k < 2 ^ 21 → memByte t (i.area + k) = look 0 (coreAt s i.core).attic k) ∧
      ∀ b, (b < i.area ∨ i.area + 3 * 2 ^ 20 ≤ b) → memByte t b = memByte s b))

/-! ### Management, host, fabric (R436 to R458) -/

/-- The command under way on the event's die is over, with status `n` unless it was overrun (R441). -/
def Sys2Proof.Machine.CommandEnded (s t : State) (n : Nat) : Prop :=
  let x := dieAt s s.arg.die.toNat
  (dieAt t s.arg.die.toNat).busy = false ∧ (dieAt t s.arg.die.toNat).status = (if x.overrun then 3 else n)

/-- R392, R394, R410, R436, R441 for CREATE, SETVEC, DESTROY and QUEUE: a well-formed context that holds nothing another holds is made,
its cores zeroed; TVEC of a context's every core is set; a context without a task on a core is removed; a queue is set up. A malformed
command, or one that names no context, ends with 1, one for what is held or in use with 2; neither changes anything. -/
def Sys2Proof.Machine.ContextCommands : Prop :=
  ∀ (s : State), let d := s.arg.die.toNat
    let x := dieAt s d
    let ws := x.mcbCopy
    x.busy = true →
    (x.mcbCode = 1 → let c := contextOf ws
      let elsewhere := ∃ p ∈ s.dies, ∃ y ∈ p.2.contexts, y.num = c.num ∧ y.ptb ≠ c.ptb
      (contextBad ws = true ∨ elsewhere → Completes (exec .evCreate s) (fun t => CoresSame s t ∧ CommandEnded s t 1 ∧ (dieAt t d).contexts = x.contexts)) ∧
      (contextBad ws = false → ¬elsewhere → (contextOn x c.num).isSome = true ∨ contextHeld x c = true →
        Completes (exec .evCreate s) (fun t => CoresSame s t ∧ CommandEnded s t 2 ∧ (dieAt t d).contexts = x.contexts)) ∧
      (contextBad ws = false → ¬elsewhere → contextOn x c.num = none → contextHeld x c = false →
      Completes (exec .evCreate s) (fun t => CommandEnded s t 0 ∧ (dieAt t d).contexts = x.contexts ++ [c] ∧
        ∀ k ∈ maskedCores d c.mask, (coreAt t k).ctx = some c.num ∧ (coreAt t k).g = File.zero ∧ (coreAt t k).task = none ∧
          sysNow (coreAt t k) sysPTB = c.ptb ∧ sysNow (coreAt t k) sysPRIV = 0))) ∧
    (x.mcbCode = 2 → let n := (wordAt ws 0).toNat
      (contextOn x n = none ∨ sysValueOk sysTVEC (wordAt ws 1) = false → Completes (exec .evSetvec s) (fun t => CoresSame s t ∧ CommandEnded s t 1)) ∧
      ((contextOn x n).isSome = true → sysValueOk sysTVEC (wordAt ws 1) = true → Completes (exec .evSetvec s) (fun t => SameMemory s t ∧ CommandEnded s t 0 ∧
        ∀ k, ((coreAt s k).ctx = some n → sysNow (coreAt t k) sysTVEC = wordAt ws 1) ∧ (coreAt t k).g = (coreAt s k).g))) ∧
    (x.mcbCode = 3 → let n := (wordAt ws 0).toNat
      (contextOn x n = none → Completes (exec .evDestroy s) (fun t => CoresSame s t ∧ CommandEnded s t 1)) ∧
      ((contextOn x n).isSome = true → (∃ i, i < 64 ∧ (coreAt s (64 * d + i)).ctx = some n ∧ (coreAt s (64 * d + i)).task.isSome = true) →
        Completes (exec .evDestroy s) (fun t => CoresSame s t ∧ CommandEnded s t 2)) ∧
      ((contextOn x n).isSome = true → (∀ i, i < 64 → (coreAt s (64 * d + i)).ctx ≠ some n ∨ (coreAt s (64 * d + i)).task = none) → flushHeld s d n = false → moving x n = false →
        Completes (exec .evDestroy s) (fun t => CommandEnded s t 0 ∧ (dieAt t d).contexts = x.contexts.filter (fun c => c.num ≠ n)))) ∧
    (x.mcbCode = 4 → let a := wordAt ws 2
      let b := wordAt ws 3
      let ring := (wordAt ws 1).toNat
      let formed := bits (wordAt ws 0) 63 12 = 0 ∧ ring % 64 = 0 ∧ bits a 31 16 = 0 ∧ bits b 7 1 = 0 ∧ bits b 31 16 = 0 ∧ wordAt ws 4 = 0 ∧
        1 ≤ bits b 15 8 ∧ bits b 15 8 ≤ 16 ∧ ∃ k, k ≤ 16 ∧ bits a 63 32 = 2 ^ k
      (¬formed ∨ contextOn x (bits a 15 0) = none → Completes (exec .evQueue s) (fun t => CoresSame s t ∧ CommandEnded s t 1 ∧ (dieAt t d).queues = x.queues)) ∧
      (formed → (contextOn x (bits a 15 0)).isSome = true → Completes (exec .evQueue s) (fun t => CoresSame s t ∧ CommandEnded s t 0 ∧ findKey (dieAt t d).queues (bits (wordAt ws 0) 11 0) =
        some { ring := ring, ctx := bits a 15 0, entries := bits a 63 32, enable := b.getLsbD 0, weight := bits b 15 8, head := bits b 63 32,
               lastTail := bits b 63 32 })))

/-- R434, R436, R445, R455, R457, R458 for DUMP, FRAMES, LEND, POWER, ATTEST and FIRMWARE: the dump region, a lent window and a budget
within their bounds are set, frames no log still names are zeroed and no other byte (a command whose frames a log names waits), a
report is written where it was asked for, an accepted image is staged with its digest; anything else ends with 1 and sets nothing. POWER,
ATTEST and FIRMWARE are commands of die 0: on any other die the MCGO that names one starts nothing and its status is 1. -/
def Sys2Proof.Machine.PackageCommands : Prop :=
  ∀ (s : State), let d := s.arg.die.toNat
    let x := dieAt s d
    let a := (wordAt x.mcbCopy 0).toNat
    let n := (wordAt x.mcbCopy 1).toNat
    (∀ v : Word, 9 ≤ v.toNat → v.toNat ≤ 11 → x.busy = false → d ≠ 0 → let t := writeGo s d v
      SameMemory s t ∧ (dieAt t d).busy = false ∧ (dieAt t d).status = 1) ∧
    (x.busy = true → commandAdmitted d x.mcbCode = true →
    (x.mcbCode = 6 → let ok := a % 2 ^ 30 = 0 ∧ a < 2 ^ 52 ∧ classOf a = 0 ∧ physBacked a (2 ^ 30) = true
      (ok → Completes (exec .evDump s) (fun t => CoresSame s t ∧ CommandEnded s t 0 ∧ t.dumpRegion = some a)) ∧
      (¬ok → Completes (exec .evDump s) (fun t => CoresSame s t ∧ CommandEnded s t 1 ∧ t.dumpRegion = s.dumpRegion))) ∧
    (x.mcbCode = 7 → let ok := a % 65536 = 0 ∧ 1 ≤ n ∧ n ≤ 2 ^ 20 ∧ physBacked a (65536 * n) = true
      (ok → logsName s a (65536 * n) = true → exec .evFrames s = .next s) ∧
      (ok → logsName s a (65536 * n) = false → Completes (exec .evFrames s) (fun t => CommandEnded s t 0 ∧ t.core.g = s.core.g ∧
        ∀ b, memByte t b = if a ≤ b ∧ b < a + 65536 * n then 0 else memByte s b)) ∧
      (¬ok → Completes (exec .evFrames s) (fun t => CoresSame s t ∧ CommandEnded s t 1))) ∧
    (x.mcbCode = 8 → (n = 0 → Completes (exec .evLend s) (fun t => CoresSame s t ∧ CommandEnded s t 0 ∧ t.lent = none)) ∧
      (n ≠ 0 → let ok := a % 65536 = 0 ∧ n % 65536 = 0 ∧ n ≤ 2 ^ 31 ∧ a < 2 ^ 52 ∧ classOf a < 2
        (ok → Completes (exec .evLend s) (fun t => CoresSame s t ∧ CommandEnded s t 0 ∧ t.lent = some { base := a, size := n })) ∧
        (¬ok → Completes (exec .evLend s) (fun t => CoresSame s t ∧ CommandEnded s t 1 ∧ t.lent = s.lent)))) ∧
    (x.mcbCode = 9 → (600 ≤ a → a ≤ 2600 → Completes (exec .evPower s) (fun t => CoresSame s t ∧ CommandEnded s t 0 ∧ t.budget = a)) ∧
      (a < 600 ∨ 2600 < a → Completes (exec .evPower s) (fun t => CoresSame s t ∧ CommandEnded s t 1 ∧ t.budget = s.budget))) ∧
    (x.mcbCode = 10 → let at' := (wordAt x.mcbCopy 4).toNat
      let body := reportBody s (x.mcbCopy.take 4)
      (physBacked at' 192 = false → Completes (exec .evAttest s) (fun t => CoresSame s t ∧ CommandEnded s t 1)) ∧
      (physBacked at' 192 = true → x.mcbCopy.length = 8 → Completes (exec .evAttest s) (fun t => CommandEnded s t 0 ∧
        ∀ b, memByte t b = if at' ≤ b ∧ b < at' + 192 then (body ++ sized 64 (Config.identitySign (Config.sha512 body))).getD (b - at') 0 else memByte s b))) ∧
    (x.mcbCode = 11 → (n = 0 ∨ physBacked a n = false → Completes (exec .evFirmware s) (fun t => CoresSame s t ∧ CommandEnded s t 1 ∧ t.staged = s.staged)) ∧
      (n ≠ 0 → physBacked a n = true → let img := memBytes s a n
        Completes (exec .evFirmware s) (fun t => CoresSame s t ∧ CommandEnded s t (if imageAccepted s img then 0 else 1) ∧
          t.staged = (if imageAccepted s img then some (Config.imageVersion img, Config.imageCounter img) else s.staged) ∧
          t.stagedDigest = if imageAccepted s img then Config.imageDigest img else s.stagedDigest))))

/-- R438, R440, R445, R446 for the host and a neighbour: a host read gives the bytes that settled memory holds, a host write settles at
once and touches no other byte, of an address that does not exist nothing is read or written; a neighbour reads its lent window; a write of MEVR
reaches it. -/
def Sys2Proof.Machine.HostAccessesMemory : Prop :=
  ∀ (s : State), let a := s.arg.addr
    (s.arg.len ≠ 0 → hostRegister a s.arg.len = false → physBacked a s.arg.len = true →
      exec .evHostRead s = .next { s with out := memBytes s a s.arg.len }) ∧
    (s.arg.len ≠ 0 → hostRegister a s.arg.len = false → physBacked a s.arg.len = false → exec .evHostRead s = .next { s with out := [] }) ∧
    (s.arg.bytes ≠ [] → hostRegister a s.arg.bytes.length = false →
      (physBacked a s.arg.bytes.length = true → Completes (exec .evHostWrite s) (fun t => t.core.g = s.core.g ∧
        ∀ b, memByte t b = if a ≤ b ∧ b < a + s.arg.bytes.length then s.arg.bytes.getD (b - a) 0 else memByte s b)) ∧
      (physBacked a s.arg.bytes.length = false → exec .evHostWrite s = .next s)) ∧
    (∀ w, s.lent = some w → let r := s.arg.lent
      r.store = none → r.len ≠ 0 → (directionTo s r.device).isSome = true → r.offset + r.len ≤ w.size → physBacked (w.base + r.offset) r.len = true →
      Completes (exec .evLentAccess s) (fun t => CoresSame s t ∧ t.out = memBytes s (w.base + r.offset) r.len)) ∧
    (s.arg.addr % 2 ^ 21 = 0x20 → Completes (exec .evManagementRegisterWrite s) (fun t => CoresSame s t ∧ (dieAt t s.arg.die.toNat).mevr = s.arg.value))

/-- R443, R444, R447, R103, R457 for FLIT_RECEIVE, PORT_DOWN, PORT_UP and RESET: a flit whose check fails is counted as retried, one for
another device is passed on through a port that is up on its way; a port goes down or up with its record, and a core's stores on their
way in a direction both of whose ports are down are lost; reset keeps DRAM, where the
lines that were only in a slot or a slice are as they were before, bytes and marks (log entry 11), and a granule that had gone bad beneath a
line its slice held clean is bad; the staged firmware runs with its digest, and everything else is as State.reset has it. -/
def Sys2Proof.Machine.PortsAndReset : Prop :=
  ∀ (s : State), let d := s.arg.die.toNat
    let k := s.arg.n % 4
    (s.arg.flit.crcGood = false → Completes (exec .evFlitReceive s) (fun t => CoresSame s t ∧
      (look (0, 0, 0) (dieAt t d).ports k).2.1 = (look (0, 0, 0) (dieAt s d).ports k).2.1 + 1)) ∧
    (∀ p, s.arg.flit.crcGood = true → s.arg.flit.dst % 2 ^ 19 ≠ s.device → (portsFor s (s.arg.flit.dst % 2 ^ 19)).filter (portIsUp s) = [p] →
      Completes (exec .evFlitReceive s) (fun t => CoresSame s t ∧
        (look (0, 0, 0) (dieAt t (portPlace p).1).ports (portPlace p).2).1 = (look (0, 0, 0) (dieAt s (portPlace p).1).ports (portPlace p).2).1 + 1)) ∧
    (k ∉ (dieAt s d).portsDown → (k = 3 ∨ ∃ q, q ≠ 3 * d + k ∧ q / 2 = (3 * d + k) / 2 ∧ portUp s q = true) → Completes (exec .evPortDown s) (fun t => CoresSame s t ∧ k ∈ (dieAt t d).portsDown ∧
      (look (0, 0, 0) (dieAt t d).ports k).2.2 = (look (0, 0, 0) (dieAt s d).ports k).2.2 + 1 ∧
      (dieAt t d).mgmtPostings.length = (dieAt s d).mgmtPostings.length + 1)) ∧
    (k ∉ (dieAt s d).portsDown → k ≠ 3 → (∀ q, q ≠ 3 * d + k → q / 2 = (3 * d + k) / 2 → portUp s q = false) → Completes (exec .evPortDown s) (fun t =>
      let gone := fun (f : FlyingStore) => directionTo s f.lender == some ((3 * d + k) / 2)
      SameMemory s t ∧ t.core.flying = s.core.flying.filter (fun f => !gone f) ∧
      t.core.lostStores = s.core.lostStores + (s.core.flying.filter gone).length)) ∧
    (k ∈ (dieAt s d).portsDown → Completes (exec .evPortUp s) (fun t => CoresSame s t ∧ k ∉ (dieAt t d).portsDown ∧
      (dieAt t d).mgmtPostings.length = (dieAt s d).mgmtPostings.length + 1)) ∧
    Completes (exec .evReset s) (fun t =>
      (∀ b, b / 32 ∉ rotten s → (∀ p ∈ staleLines s, p.1 ≠ b / 128) → memByte t b = memByte s b) ∧
      (∀ g, g ∉ rotten s → (∀ p ∈ staleLines s, p.1 ≠ g / 4) → look false t.memPoison g = look false s.memPoison g) ∧
      (∀ p ∈ staleLines s, (∀ q ∈ staleLines s, q.1 = p.1 → q = p) →
        (∀ b, b / 128 = p.1 → b / 32 ∉ rotten s → memByte t b = byteAt s p.2 b) ∧
        ∀ g, g / 4 = p.1 → g ∉ rotten s → look false t.memPoison g = granuleMark s p.2 g) ∧
      (∀ g ∈ rotten s, look false t.memPoison g = true ∧ ∀ b, b / 32 = g → memByte t b = Config.badByte s.tick b) ∧ t.core = State.reset.core ∧ t.others = [] ∧ t.dies = [] ∧
      t.dramStacks = [] ∧ t.images = [] ∧ t.fatal = none ∧ t.clk = 0 ∧ t.device = s.device ∧ t.staged = none ∧
      (s.staged = none → t.fused = s.fused ∧ t.firmware = s.firmware ∧ t.digest = s.digest) ∧
      (∀ v n, s.staged = some (v, n) → t.fused = max s.fused n ∧ t.firmware = v ∧ t.digest = some s.stagedDigest))

/-- R169, R170, R448 to R450 for collectives and decoders: a command of a reserved form is answered at step 1 and starts nothing; a step
whose peer another device is, reached and readable, is sent; the chunk a step of a RING receives is written, its element posted and
the next step begun; a KICK whose record is malformed is answered, another one's ring joins its decoder; a ring whose header cannot be read is given up, and
a descriptor that can be decoded is answered with its tag and what the decoder makes of its input (log entry 6).
Where the manual leaves a point open it states the model's choice: log entries 6, 40 and 56. -/
def Obligations.CollectivesAndDecoders : Prop :=
  ∀ (s : State), let d := s.arg.die.toNat
    let y := dieAt s d
    (∀ c, y.collectives[s.arg.n]? = none → nextCmd (fifoAt s d fifoCollective) = some c → y.collectives.length < 16 → collBad c = true →
      ∀ r ∈ ([(.evRing, (collOf c).kind ≠ 1 ∧ (collOf c).kind ≠ 2), (.evRsum, (collOf c).kind = 1), (.evA2a, (collOf c).kind = 2)] : List (Instr × Prop)), r.2 →
        Completes (exec r.1 s) (fun t => CoresSame s t ∧ Answered s t d fifoCollective c (collElem (collOf c).tag 1 true 1) ∧ (dieAt t d).collectives = y.collectives)) ∧
    (∀ x, y.collectives[s.arg.n]? = some x → x.cmd.mark = false → let k := collOf x.cmd
      (x.sent = false → ∀ dev die s1 bs, x.members.getD (peerTo k x.step) (s.device, d) = (dev, die) → dev ≠ s.device → memberReached s dev = true →
        agentRead s (x.cmd.agent d fifoCollective) (sendAddr k x.step) k.chunk = (s1, .ok (bs, false)) →
        ∀ r ∈ ([(.evRing, k.kind = 0), (.evRsum, k.kind = 1), (.evA2a, k.kind = 2)] : List (Instr × Prop)), r.2 →
          Completes (exec r.1 s) (fun t => SameMemory s1 t ∧
            (dieAt t d).collectives = (dieAt s1 d).collectives.map (fun z => if z = x then { x with sent := true } else z))) ∧
      (x.sent = true → k.kind = 0 → x.step + 1 < k.n → (x.members.getD (peerFrom k x.step) (0, 0)).1 ≠ s.device →
        let m := s.arg.peer
        m.tag.toNat = k.tag → m.group = x.members → m.rank = peerFrom k x.step → m.step = x.step →
        ((m.kind ≠ 0 ∨ m.data.length ≠ k.chunk) → Completes (exec .evCollectiveReceive s) (fun t => SameMemory s t ∧ x ∉ (dieAt t d).collectives ∧
          ∃ e, (fifoAt t d fifoCollective).results = (fifoAt s d fifoCollective).results ++ [e] ∧ e.ctx = x.cmd.ctx ∧
            e.val = collElem k.tag x.step true (collStatus { code := .engineCommand }))) ∧
        (m.kind = 0 → m.data.length = k.chunk → ∀ s1 w, agentWrite s (x.cmd.agent d fifoCollective) (k.dst + recvChunk k x.step * k.chunk) m.data = (s1, .ok w) →
          Completes (exec .evCollectiveReceive s) (fun t => SameMemory s1 t ∧
            (dieAt t d).collectives = (dieAt s1 d).collectives.map (fun z => if z = x then { x with step := x.step + 1, sent := false, cert := 0 } else z) ∧
            ∃ e, (fifoAt t d fifoCollective).results = (fifoAt s1 d fifoCollective).results ++ [e] ∧ e.ctx = x.cmd.ctx ∧
              e.val = collElem k.tag x.step false 0 ∧ e.release.time = max w x.cert)))) ∧
    (∀ c s1 bs, let q := decoderFifo s.arg.n
      let head := (wordAt c.words 1).toNat
      let tail := bits (wordAt c.words 0) 63 32
      let r := mediaRingOf bs
      nextCmd (fifoAt s d q) = some c → agentRead s (c.agent d q) head 64 = (s1, .ok (bs, false)) →
      (mediaRingBad bs = true → Completes (exec .evKick s) (fun t => SameMemory s1 t ∧ Answered s1 t d q c badKick)) ∧
      (mediaRingBad bs = false → bits (wordAt c.words 0) 31 0 = 0 →
        (∀ x ∈ look [] y.rings (s.arg.n % 4), ¬(x.ctx = c.ctx ∧ x.header = head)) → (tail + 2 ^ 32 - r.head) % 2 ^ 32 ≤ r.entries →
        Completes (exec .evKick s) (fun t => SameMemory s1 t ∧ (fifoAt t d q).cmds = (fifoAt s1 d q).cmds.erase c ∧
          look [] (dieAt t d).rings (s.arg.n % 4) = look [] y.rings (s.arg.n % 4) ++ [{ ctx := c.ctx, core := c.core, task := c.task, header := head, tail := some tail, kicks := [(tail, c.release)] }]))) ∧
    (∀ x s1 f, let k := s.arg.n % 4
      look [] y.rings k = [x] → x.mark = false → x.kicks ≠ [] → resultsOf (fifoAt s d (decoderFifo k)) x.ctx = [] →
      agentRead s { ringAgent d k x 0 with release := (x.kicks.getLastD (0, {})).2 } x.header 64 = (s1, .error f) →
      Completes (exec .evDecodeFrame s) (fun t => SameMemory s t ∧ look [] (dieAt t d).rings k = [] ∧
        ∃ e, (fifoAt t d (decoderFifo k)).results = (fifoAt s d (decoderFifo k)).results ++ [e] ∧ e.ctx = x.ctx ∧ e.val = badKick)) ∧
    (∀ x sh hb s1 db q s2 inp s3, let k := s.arg.n % 4
      let r := mediaRingOf hb
      let g := ringAgent d k x r.head
      look [] y.rings k = [x] → x.mark = false → x.kicks ≠ [] → resultsOf (fifoAt s d (decoderFifo k)) x.ctx = [] →
      agentRead s { ringAgent d k x 0 with release := (x.kicks.getLastD (0, {})).2 } x.header 64 = (sh, .ok (hb, false)) → mediaRingBad hb = false → some r.head ≠ x.tail →
      agentRead s g (r.descs + 128 * (r.head % r.entries)) 128 = (s1, .ok (db, false)) → mediaDescOf db = some q →
      agentRead s1 g q.input q.len = (s2, .ok (inp, false)) → agentCheck s2 g r.work (max 1 r.workSize) { r := true, w := true } = (s3, none) →
      let all := BitVec.ofNat 8 r.codec :: inp
      let f := frameOfInput s2 r.codec all
      let fs := frameKept s2 all f :: (if q.fresh then [] else x.frames)
      let answer := mediaResult q.tag f.index f.concealed f.shown f.status
      Completes (exec .evDecodeFrame s) (fun t => ∃ e, (fifoAt t d (decoderFifo k)).results.getLast? = some e ∧ e.ctx = x.ctx ∧
        bits e.val 63 32 = q.tag % 2 ^ 32 ∧ (3 ≤ f.status → e.val = answer) ∧
        (f.status < 3 → workNeeded f ≤ r.workSize → ∀ s4 m, landFrame s3 g x.core fs f q = (s4, .ok m) → e.val = answer)))

/-! ### Tokens, squashed slots, encodings, the step, invariants -/

/-- R368, R64, R369, R370: a pop set takes the oldest token of each of its queues and nothing else; NOP only goes on; TPOP takes a
token of the queue it names and waits while there is none, TPSH pushes one into it; QCANCEL empties its queue of what was pushed in
earlier clk, raising the fault of the first marked token it finds. A token of the present clk is not there yet. -/
def Obligations.TokensAreTakenAndPushed : Prop :=
  ∀ (h : Hdr) (s p : State),
    (popped s h = (p, none) → (s.core.eng h.eng).noPop = false → h.eng ∉ maskEngs h.pop →
      (∀ k, queueAt p.core k = if k ∈ (maskEngs h.pop).map (fun q => queueCode q h.eng)
        then { queueAt s.core k with toks := (queueAt s.core k).toks.tail } else queueAt s.core k) ∧
      SameMemory s p ∧ p.core.g.cur = s.core.g.cur ∧ p.core.cells.cur = s.core.cells.cur ∧ p.core.sys.cur = s.core.sys.cur ∧
      (∀ e, p.core.eng e = s.core.eng e)) ∧
    (Issues s h [] p → Completes (exec (.nop h) s) (fun t => WalkedTo p t h p.core.ck (nextPc s h 1) ∧ Pushed p t h ∧ OnlyWalked p t)) ∧
    ∀ (q : BitVec 4) (src dst : Eng), queueEnds q.toNat = some (src, dst) →
      (h.eng = dst →
        (engineReady s.core dst = true → (s.core.eng dst).owed = [] → (s.core.eng dst).noPop = false → (queueAt s.core q.toNat).oldest s.clk = none →
          exec (.tpop h q) s = .next s) ∧
        (Issues s { h with pop := src.bit } [] p →
          Completes (exec (.tpop h q) s) (fun t => WalkedTo p t h p.core.ck (nextPc s h 1) ∧ Pushed p t h ∧ OnlyWalked p t)) ∧
        (Issues s h [] p → ∀ f,
          let here := (queueAt p.core q.toNat).toks.filter (fun t => decide (t.clk < p.clk))
          (here.findSome? Token.mark = none → h.push = 0 → Completes (exec (.qcancel h q) s) (fun t =>
            WalkedTo p t h p.core.ck (nextPc s h 1) ∧ t.core.g = p.core.g ∧ SameMemory p t ∧
            ∀ k, queueAt t.core k = if k = q.toNat then { queueAt p.core k with toks := (queueAt p.core k).toks.filter (fun t => decide (p.clk ≤ t.clk)) }
              else queueAt p.core k)) ∧
          (here.findSome? Token.mark = some f → privileged s.core = false → sysNow s.core sysTVEC ≠ 0 →
            Completes (exec (.qcancel h q) s) (fun t => privileged t.core = true ∧ sysNow t.core sysTVAL = f.tval ∧
              bits (sysNow t.core sysTCAUSE) 15 0 = f.code.num ∧ (sysNow t.core sysTCAUSE).getLsbD 38 = true)))) ∧
      (h.eng = src → Issues s { h with push := dst.bit } [] p →
        Completes (exec (.tpsh h q) s) (fun t => WalkedTo p t h p.core.ck (nextPc s h 1) ∧ OnlyWalked p t ∧
          ∀ k, queueAt t.core k = if k = q.toNat then { queueAt p.core k with toks := (queueAt p.core k).toks ++ [ownToken p src] }
            else queueAt p.core k))

/-- The instructions tagged for one engine in the forms that have a guard, each with its parcels. -/
def Sys2Proof.Machine.guardedRows (h : Hdr) (d a : Reg) (m n : MOp) (t u : Ty) (o : Src2) (x : VSrc) (g : SegSrc) (y : AmtSrc) (sc : Scope)
    (k : SysNum) (i : Imm) (sh : BitVec 6) (mv : BitVec 4) (b : Bool) : List (Instr × Nat) :=
  [(.addLong h d a o, src2Len o), (.subLong h d a o, src2Len o), (.mulLong h d a o, src2Len o), (.mulhSLong h d a o, src2Len o),
   (.mulhZLong h d a o, src2Len o), (.divSLong h d a o, src2Len o), (.divZLong h d a o, src2Len o), (.remSLong h d a o, src2Len o),
   (.remZLong h d a o, src2Len o), (.and64Long h d a o, src2Len o), (.or64Long h d a o, src2Len o), (.xor64Long h d a o, src2Len o),
   (.shlLong h d a o, src2Len o), (.shrSLong h d a o, src2Len o), (.shrZLong h d a o, src2Len o), (.rotLong h d a o, src2Len o),
   (.minSLong h d a o, src2Len o), (.minZLong h d a o, src2Len o), (.maxSLong h d a o, src2Len o), (.maxZLong h d a o, src2Len o),
   (.clzLong h d a, 2), (.popcLong h d a, 2), (.extS h d a o, src2Len o), (.extZ h d a o, src2Len o), (.ins h d a o, src2Len o),
   (.seqLong h d a o, src2Len o), (.sltSLong h d a o, src2Len o), (.sltZLong h d a o, src2Len o), (.selLong h d a o, src2Len o),
   (.liLong h d sh i, immLen i), (.movLong h d a mv false, 2), (.movLong h d a mv true, 3), (.slack h o, src2Len o),
   (.slackW h o, src2Len o), (.sysr h d k, 2), (.sysw h d k, 2), (.ldovt h d, 2), (.ld h d a t o, src2Len o), (.ldLn h d a t o, src2Len o),
   (.st h d a t o, src2Len o), (.stLn h d a t o, src2Len o), (.mld h m d t g, segLen g), (.mldLn h m d t g, segLen g),
   (.mst h m d t g, segLen g), (.mstLn h m d t g, segLen g), (.probe h d a o, src2Len o), (.probeLn h d a o, src2Len o),
   (.copy h d a o, src2Len o), (.copyLn h d a o, src2Len o), (.pushe h d o, src2Len o), (.pusheT h d a o, src2Len o),
   (.pope h d o, src2Len o), (.popeT h d a o, src2Len o), (.settleLong h b, 2), (.promote h d o, src2Len o), (.promoteH h d o, src2Len o),
   (.demote h d o, src2Len o), (.relCoreLong h, 2), (.relCluLong h, 2), (.relDieLong h, 2), (.relPkgLong h, 2), (.relSysLong h, 2),
   (.acqCoreLong h d, 2), (.acqCluLong h d, 2), (.acqDieLong h d, 2), (.acqPkgLong h d, 2), (.acqSysLong h d, 2), (.fenceCoreLong h, 2),
   (.fenceCluLong h, 2), (.fenceDieLong h, 2), (.fencePkgLong h, 2), (.fenceSysLong h, 2), (.aadd h sc d a t o, src2Len o),
   (.amin h sc d a t o, src2Len o), (.amax h sc d a t o, src2Len o), (.aor h sc d a t o, src2Len o), (.aand h sc d a t o, src2Len o),
   (.axchg h sc d a t o, src2Len o), (.acas h sc d a t o, src2Len o), (.aaddN h sc d t o, src2Len o), (.aminN h sc d t o, src2Len o),
   (.amaxN h sc d t o, src2Len o), (.aorN h sc d t o, src2Len o), (.aandN h sc d t o, src2Len o), (.vadd h m n t x, 3),
   (.vsub h m n t x, 3), (.vmul h m n t x, 3), (.vfma h m n t x, 3), (.vmin h m n t x, 3), (.vmax h m n t x, 3), (.vabs h m n t, 2),
   (.vneg h m n t, 2), (.vand h m n t x, 3), (.vor h m n t x, 3), (.vxor h m n t x, 3), (.vshl h m n t x, 3), (.vshr h m n t x, 3),
   (.vcvt h m n t u d, 3), (.vpack h m n t u, 3), (.vunpack h m n t u, 3), (.vcmpEq h m n t x, 3), (.vcmpNe h m n t x, 3),
   (.vcmpLt h m n t x, 3), (.vcmpLe h m n t x, 3), (.vsel h m n x, 3), (.vrotr h m n y, 3), (.vrotc h m n y, 3), (.vbcr h m n y, 3),
   (.vbcc h m n y, 3), (.vredrAdd h m n t, 2), (.vredrMax h m n t, 2), (.vredrMin h m n t, 2), (.vredrAmax h m n t, 2),
   (.vredcAdd h m n t, 2), (.vredcMax h m n t, 2), (.vredcMin h m n t, 2), (.vredcAmax h m n t, 2), (.vexp h m n t, 2), (.vlog h m n t, 2),
   (.vrcp h m n t, 2), (.vrsq h m n t, 2), (.vsin h m n t, 2), (.vcos h m n t, 2), (.vtanh h m n t, 2), (.vaddSat h m n t x, 3),
   (.vsubSat h m n t x, 3), (.vmulSat h m n t x, 3), (.vfmaSat h m n t x, 3), (.vabsSat h m n t, 2), (.vnegSat h m n t, 2),
   (.vshlSat h m n t x, 3), (.wcall h d o, src2Len o), (.wstripe h d t o, src2Len o), (.wzero h o, src2Len o),
   (.wdrain h d t u o, src2Len o), (.lacq h o, src2Len o), (.lacqT h d o, src2Len o), (.lrel h, 2), (.lcfg h d o, src2Len o),
   (.lmm h d o, src2Len o), (.lmmA h d o, src2Len o), (.lmmg h d o, src2Len o), (.lmmgA h d o, src2Len o), (.lscore h d o, src2Len o),
   (.lscoreCm h d o, src2Len o), (.lscoreTm h d o, src2Len o), (.lpv h d o, src2Len o), (.lpvA h d o, src2Len o),
   (.ldrain h d t o, src2Len o)]

/-- R55: with a guard other than g0 whose register reads zero at issue, every instruction of the four engines is a squashed slot: it
pops and pushes its tokens, spends its gap and goes on past its parcels, and does nothing else, whatever its operands are and whatever is
poisoned (R248; of a poisoned guard the value it holds counts, log entry 69).
Where the manual leaves a point open it states the model's choice: log entry 69. -/
def Obligations.SquashedSlotsOnlyMoveTokens : Prop :=
  ∀ (h : Hdr) (d a : Reg) (m n : MOp) (t u : Ty) (o : Src2) (x : VSrc) (g : SegSrc) (y : AmtSrc) (sc : Scope) (k : SysNum) (i : Imm)
    (sh : BitVec 6) (mv : BitVec 4) (b : Bool) (s p : State),
    engineReady s.core h.eng = true → (s.core.eng h.eng).owed = [] → s.core.leaseOwed = [] →
    ((s.core.eng h.eng).noPop || popsReady s.core s.clk h.eng h.pop) = true → placesFree s.core h.eng h.push = true →
    popped s h = (p, none) → mustWait p.core h.eng [.g h.guard.toNat] = false →
    h.guard ≠ 0 → readG p h.eng h.guard.toNat = 0 →
    ∀ r ∈ guardedRows h d a m n t u o x g y sc k i sh mv b,
      Completes (exec r.1 s) (fun q => WalkedTo p q h p.core.ck (nextPc s h r.2) ∧ Pushed p q h ∧ OnlyWalked p q ∧
        q.core.switched = (p.core.switched || (h.sw && p.core.holder == h.eng.num)))

/-- Words of the manual's own examples, with their lengths in bits, and what they stand for. -/
def Obligations.ExampleWordsDecode : Prop :=
  (∀ r ∈ ([(64, 0x1C30406400000361, .sltSLong { eng := .c, gap := 0, sw := false, pop := 0, push := 0, guard := 0, rm := 0 } 7 3 (.imm 100)),
      (32, 0xAD403C0, .li { eng := .c, gap := 0, sw := false, pop := 0, push := 0, guard := 0, rm := 0 } 2 0x2D4),
      (32, 0x145F0024, .add { eng := .a, gap := 0, sw := false, pop := 0, push := 0, guard := 0, rm := 0 } 5 5 0xF),
      (64, 0x28B042C800000305, .extZ { eng := .a, gap := 0, sw := false, pop := 0, push := 0, guard := 0, rm := 0 } 10 11 (.imm 0x2C8)),
      (96, 0x200810F4004000000003C6, .liLong { eng := .a, gap := 0, sw := false, pop := 0, push := 0, guard := 0, rm := 0 } 61 0 (.lit 0x200810)),
      (64, 0x10967FF800000805, .ld { eng := .a, gap := 0, sw := false, pop := 0, push := 0, guard := 0, rm := 0 } 4 9 .s32 (.imm 0x3FF8)),
      (64, 0x2425400900000845, .st { eng := .a, gap := 0, sw := false, pop := 0, push := 0, guard := 0, rm := 0 } 9 2 .s8 (.imm 9)),
      (96, 0x8000801A00018302000886, .mld { eng := .a, gap := 0, sw := false, pop := 0, push := 2, guard := 0, rm := 0 } { reg := 3, view := .row, idx := 0 } 6 .bf16 (.lit 0x800080)),
      (64, 0x70404002000A45, .promoteH { eng := .a, gap := 0, sw := false, pop := 0, push := 2, guard := 0, rm := 0 } 7 (.imm 64)),
      (64, 0xD40410801000945, .copy { eng := .a, gap := 0, sw := false, pop := 0, push := 1, guard := 0, rm := 0 } 3 20 (.imm 0x108)),
      (64, 0x280000400000985, .pushe { eng := .a, gap := 0, sw := false, pop := 0, push := 0, guard := 0, rm := 0 } 40 (.reg 4)),
      (64, 0x24000004010009C5, .pope { eng := .a, gap := 0, sw := false, pop := 0, push := 1, guard := 0, rm := 0 } 9 (.reg 4)),
      (32, 0xC64, .relPkg { eng := .a, gap := 0, sw := false, pop := 0, push := 0, guard := 0, rm := 0 }),
      (64, 0x70000020000CE5, .acqDieLong { eng := .a, gap := 0, sw := false, pop := 2, push := 0, guard := 0, rm := 0 } 7),
      (32, 0x10A04, .settle { eng := .a, gap := 0, sw := false, pop := 0, push := 0, guard := 0, rm := 0 } true),
      (96, 0x700200080024124B60A, .vadd { eng := .v, gap := 1, sw := true, pop := 4, push := 1, guard := 9, rm := 0 } { reg := 4, view := .tile, idx := 0 } { reg := 2, view := .tile, idx := 0 } .bf16 (.mat { reg := 7, view := .tile, idx := 0 })),
      (64, 0x4C00800000001949, .vredrMax { eng := .v, gap := 0, sw := false, pop := 0, push := 0, guard := 0, rm := 0 } { reg := 9, view := .col, idx := 0 } { reg := 2, view := .tile, idx := 0 } .f32),
      (96, 0x400030004006000117AA, .vcvt { eng := .v, gap := 0, sw := false, pop := 0, push := 0, guard := 0, rm := 1 } { reg := 6, view := .tile, idx := 0 } { reg := 1, view := .tile, idx := 0 } .e4m3 .f16 0),
      (64, 0x2C0400040001C0D, .wcall { eng := .w, gap := 0, sw := false, pop := 4, push := 0, guard := 0, rm := 0 } 44 (.imm 0)),
      (96, 0x302000005400000001C2E, .wstripe { eng := .w, gap := 0, sw := false, pop := 0, push := 0, guard := 0, rm := 0 } 0 .s8 (.lit 0x30200)),
      (64, 0x4C6400008001C6D, .wdrain { eng := .w, gap := 0, sw := false, pop := 0, push := 8, guard := 0, rm := 0 } 1 .s32 .s32 (.imm 0)),
      (64, 0x40408002001D01, .lmm { eng := .c, gap := 0, sw := false, pop := 0, push := 2, guard := 0, rm := 0 } 4 (.imm 128)),
      (64, 0x3000C04500001E21, .ldrain { eng := .c, gap := 0, sw := false, pop := 0, push := 0, guard := 0, rm := 0 } 12 .bf16 (.imm 0x45)),
      (32, 0x40588, .tpop { eng := .v, gap := 0, sw := false, pop := 0, push := 0, guard := 0, rm := 0 } 4),
      (32, 0xA05AC, .tpsh { eng := .w, gap := 0, sw := false, pop := 0, push := 0, guard := 0, rm := 0 } 10),
      (64, 0xC0406400000531, .loop { gap := 0, sw := false } 12 0 (.imm 100)),
      (64, 0x1092400600000411, .bEq { gap := 0, sw := false } 4 9 .c true (.imm 6)),
      (64, 0xA4400900000431, .bNe { gap := 0, sw := false } 0 10 .a false (.imm 9)),
      (64, 0xFC004005000004F1, .jl { gap := 0, sw := false } 63 (.imm 5)),
      (64, 0x3F0000000000511, .jr { gap := 0, sw := false } 63 .c),
      (32, 0x100570, .syncpcD { gap := 0, sw := false } 1),
      (64, 0x40C8000005E5, .slack { eng := .a, gap := 0, sw := false, pop := 0, push := 0, guard := 0, rm := 0 } (.imm 200)),
      (32, 0x50600, .trap { eng := .c, gap := 0, sw := false, pop := 0, push := 0, guard := 0, rm := 0 } 5),
      (32, 0x30620, .syscall { eng := .c, gap := 0, sw := false, pop := 0, push := 0, guard := 0, rm := 0 } 3),
      (32, 0x640, .eret { eng := .c, gap := 0, sw := false, pop := 0, push := 0, guard := 0, rm := 0 }),
      (32, 0x6C0, .halt { eng := .c, gap := 0, sw := false, pop := 0, push := 0, guard := 0, rm := 0 }),
      (64, 0x1000430700000661, .sysr { eng := .c, gap := 0, sw := false, pop := 0, push := 0, guard := 0, rm := 0 } 4 (.num 0x307)),
      (64, 0x40430900000681, .sysw { eng := .c, gap := 0, sw := false, pop := 0, push := 0, guard := 0, rm := 0 } 4 (.num 0x309)),
      (64, 0x600000000006A1, .ldovt { eng := .c, gap := 0, sw := false, pop := 0, push := 0, guard := 0, rm := 0 } 6)] : List (Nat × Nat × Instr)), decodeTableWord r.1 r.2.1 = some r.2.2) ∧
  (∀ r ∈ ([(0x20003, 0x0, .wprep 2 0 0),
      (0x30443, 0x0, .wprep 3 1 1),
      (0x40CF, 0x0, .wacc 1 3),
      (0x800B, 0x0, .wsum false false 1 0 0),
      (0x4000017, 0xFFFFF420, .wmap 16 0 0 0xFFFFF420),
      (0x1F, 0x0, .wend)] : List (BitVec 32 × BitVec 32 × Instr)),
    decodeDirective r.1 r.2.1 = .ok r.2.2) ∧
  (∀ r ∈ ([(0x3F000112, .lwSetv 0x3F00 1), (0x1, .lwLdc), (0x106, .lwPenprs 1), (0xB, .lwMaskb), (0x2000C, .lwTopk 2), (0xA, .lwMaskg), (0x10, .lwDraw)] : List (BitVec 32 × Instr)),
    decodeLogit r.1 = .ok r.2)

/-- For every well-formed instruction that has an encoding, decoding what the encoder writes gives it back, operand by operand,
whatever follows it in memory; and what is decoded is well formed and encodes to the parcels it was read from. -/
def Obligations.DecodeAndEncodeAgree : Prop :=
  (∀ (i : Instr) (ps : List (BitVec 32)) (x y : BitVec 32), i.wf → encode i = some ps →
    (isDirective i = false → isLogitWord i = false → decodeMain (ps.getD 0 0) (ps.getD 1 x) (ps.getD 2 y) = .ok i) ∧
    (isDirective i = true → decodeDirective (ps.getD 0 0) (ps.getD 1 x) = .ok i) ∧
    (isLogitWord i = true → decodeLogit (ps.getD 0 0) = .ok i)) ∧
  (∀ (i : Instr) (a b c : BitVec 32),
    (decodeMain a b c = .ok i → i.wf ∧ ∃ n, parcelCount a = some n ∧ encode i = some ([a, b, c].take n)) ∧
    (decodeDirective a b = .ok i → i.wf ∧ (encode i = some [a] ∨ encode i = some [a, b])) ∧
    (decodeLogit a = .ok i → i.wf ∧ encode i = some [a]))

/-- One step of each part of the machine runs what stands where that part looks. An engine in its group runs the instruction that the
head of its decoded queue decodes to, on a state in which only its mode has been noted. What the decode slot puts there are the
parcels at the engine's program counter, read through the TLB from the die's code cache (R366, R127). The stream side and the sampler
run the directive and the word at their positions; an event runs with what it carries. Of engines that would raise faults the first
in the order C, A, V, W moves (R414), and where one would consume poison in that clk, that one does (R430); it moves once every engine
has passed what it passes in that clk (R361). The step adds the drawing of the next turn.
Where the manual leaves a point open it states the model's choice: log entries 1 and 60. -/
def Obligations.StepRunsTheDecodedInstruction : Prop :=
  ∀ (s : State), s.fatal = none →
    (∀ (c : CoreId) (e : Eng) (i : Instr) (d : Decoded) (rest : List Decoded), s.turn = .engine c e →
      let p : State := { focus s c.toNat with eng := e }
      let x := p.core.eng e
      let p0 := d.parcels.headD 0
      let tag := (p0.extractLsb' 2 3).toNat
      faultsNow s c.toNat e = false → p.core.running = true → clkOpen p.core = true → x.halted = false → stateMarked p.core e = false →
      pastHalt p.core x = false → leaves p.core x = none → x.atCross = false → (x.returned = true → x.home = none ∨ x.home = some d.exposed) → queueAtPc x = d :: rest → d.mark = false →
      (x.exposed = none ∨ x.exposed = some d.exposed) → x.pc % 16384 + 4 * parcelsOf p0 ≤ 16384 →
      (x.stretch ≠ none ∨ (x.begun = true ∧ endsGroup x tag = false)) → (tag = e.num ∨ tag = tagS) →
      decodeMain p0 (d.parcels.getD 1 0) (d.parcels.getD 2 0) = .ok i →
      step s = andNextTurn s (exec i (modEng p e (fun x => { x with exposed := some d.exposed, returned := false, decoded := d :: rest })))) ∧
    (∀ (e : Eng) (ps : List (BitVec 32)) (t : TlbEntry) (pa : Nat),
      let x := s.core.eng e
      let d : Decoded := { addr := x.pc, parcels := ps, mark := false, exposed := t.leaf.getLsbD 56 }
      let tag := ((ps.getD 0 0).extractLsb' 2 3).toNat
      parcelCount (ps.getD 0 0) = some ps.length → x.pc % 16384 + 4 * ps.length ≤ 16384 → (tag = e.num ∨ tag = tagS) →
      (∀ k, k < ps.length → translate s e (x.pc + 4 * k) { x := true } = .ok t (pa + 4 * k) ∧ parcelBad (dieAt s (dieOfCore s.cur)) (pa + 4 * k) = false) →
      (∀ k, k < 4 * ps.length → codeByte s (dieAt s (dieOfCore s.cur)) (pa + k) = some ((parcelBytes ps).getD k 0)) →
      fetchInstr s e x.pc = .got d ∧
      (s.core.running = true → s.core.frozen = false → x.halted = false → queueAtPc x = [] →
        (s.core.eng (holderOf s.core)).pc / 64 = x.pc / 64 → ∀ waits, ∃ rest, queueAtPc ((decodeSlot s waits).core.eng e) = d :: rest)) ∧
    (∀ (c : CoreId) (e : Eng), s.turn = .engine c e → faultsNow s c.toNat e = true →
      ((∀ g, poisonsNow s c.toNat g = false) → ∃ f, faultsNow s c.toNat f = true ∧ (∀ g : Eng, g.num < f.num → faultsNow s c.toNat g = false) ∧
        step s = andNextTurn s (engineTurn (skipAll (focus s c.toNat)) c.toNat f)) ∧
      (∀ f, poisonsNow s c.toNat f = true → (∀ g : Eng, g.num < f.num → poisonsNow s c.toNat g = false) →
        step s = andNextTurn s (engineTurn (skipAll (focus s c.toNat)) c.toNat f))) ∧
    (∀ (c : CoreId) (k : StreamCall) (p1 : State) (w : BitVec 32) (page : Nat), s.turn = .stream c →
      let p := prefetch (focus s c.toNat)
      let front := modCore p1 (fun c => { c with codeBuffer := toFront (fun f => f.page == page) c.codeBuffer })
      p.core.call = some k → clkOpen p.core = true → k.pos.inSegment = true → streamParcel p k.pos.pc = (p1, .parcel w page) →
      (w.toNat % 64 ≠ 23 → ∀ i, decodeDirective w 0 = .ok i → step s = andNextTurn s (exec i front)) ∧
      (w.toNat % 64 = 23 → k.pos.pc % 16384 ≠ 16380 → ∀ p2 l page' i, streamParcel front (k.pos.pc + 4) = (p2, .parcel l page') →
        decodeDirective w l = .ok i → step s = andNextTurn s (exec i p2))) ∧
    (∀ (d : DieId) (r : SampleRun) (x : SeqSlot) (w : BitVec 32) (i : Instr), s.turn = .sampler d → (dieAt s d.toNat).commits = [] →
      (dieAt s d.toNat).run = some r → r.ending = none → runSlot s d.toNat r = some x → (x.program.getD [])[r.pos]? = some w →
      decodeLogit w = .ok i → step s = andNextTurn s (exec i { s with arg := { s.arg with die := d } })) ∧
    (∀ (i : Instr) (a : EvArg), s.turn = .event i a → step s = andNextTurn s (exec i { s with arg := a }))

/-- Whatever moves, a step leaves memory in its canonical form: addresses rising, no byte listed that reads as zero.
Where the manual leaves a point open it states the model's choice: log entry 11. -/
def Obligations.StepsKeepMemoryCanonical : Prop := ∀ (s t : State), Memory.wf s.mem → step s = .next t → Memory.wf t.mem

/-- The state after reset: memory is in canonical form and reads as zero (log entry 11), no core has a context, a task or a trap frame,
every engine stands at address 0 in walk group 0 (log entry 17), every general and system register reads as zero (log entry 17), so
that every core is at user level (R409), queues, logs and caches are empty, the device has number 0 and a budget of 2,600 W (R455).
Where the manual leaves a point open it states the model's choice: log entries 11 and 17. -/
def Obligations.ResetLeaves : Prop :=
  let s := State.reset
  Memory.wf s.mem ∧ (∀ a, memByte s a = 0) ∧ s.clk = 0 ∧ s.budget = 2600 ∧ s.fatal = none ∧ s.dies = [] ∧ s.lent = none ∧
  ∀ c, let k := coreAt s c
    k.ctx = none ∧ k.task = none ∧ k.running = false ∧ privileged k = false ∧ k.trapFrame = none ∧ k.log = [] ∧ k.l1 = [] ∧ k.tlb = [] ∧
    (∀ e, (k.eng e).pc = 0 ∧ (k.eng e).walk = 0 ∧ (k.eng e).lc = []) ∧ (∀ r, look 0 k.g.cur r = 0) ∧ (∀ n, sysNow k n = 0) ∧
    (∀ j, queueAt k j = {}) ∧ k.copyQueue = [] ∧ k.wQueue = [] ∧ k.leaseQueue = []

/-! ### Statements in several parts -/

/-- R216 for every binary instruction but the products and the divisions, in its three forms. -/
def Obligations.ScalarArithmetic : Prop := Machine.ScalarShortForms ∧ Machine.ScalarLongForms

/-- R218, R219, R220 and SEL of R216: counts, constants, selections, bit fields. -/
def Obligations.CountsConstantsFields : Prop := Machine.CountsConstantsSelections ∧ Machine.BitFieldForms

/-- MUL and MULH of R216 with the latency of R222, and a division that finds the divider busy (R222). -/
def Obligations.ProductsAndBusyDividers : Prop := Machine.ProductsLandAfterThree ∧ Machine.BusyDividerWaits

/-- R371 and R373 for the decided branches, in the engine that decides and in those that follow.
Where the manual leaves a point open it states the model's choice: log entry 44. -/
def Obligations.SharedBranches : Prop := Machine.BranchDeciderTellsAll ∧ Machine.BranchFollowersPopOutcomes

/-- R377 and R380: a branch with the leave mark, and the leave that its stretch ends with.
Where the manual leaves a point open it states the model's choice: log entry 44. -/
def Obligations.PrivateBranchesAndLeaves : Prop := Machine.PrivateBranches ∧ Machine.EnginesBeyondLeave ∧ Machine.LeaveBegins

/-- J and JL of R373 and JR of R374.
Where the manual leaves a point open it states the model's choice: log entry 44. -/
def Obligations.Jumps : Prop := Machine.JumpsAndLinks ∧ Machine.IndirectJumps

/-- R416 with and without a handler, and R418 at privileged level.
Where the manual leaves a point open it states the model's choice: log entry 43. -/
def Obligations.FaultsAreTaken : Prop := Machine.TrapEntersHandler ∧ Machine.FaultsWithoutHandlerEndTheTask

/-- R418 and R420 for TRAP and SYSCALL, R425 for HALT.
Where the manual leaves a point open it states the model's choice: log entry 45. -/
def Obligations.ServicesAndHalt : Prop := Machine.TrapsAndServices ∧ Machine.HaltEndsTheTask

/-- R213 and R214 for addresses a loop nest forms, R184 for the checks of a load or store. -/
def Obligations.AddressesAndTheirFaults : Prop := Machine.LoopNestAddresses ∧ Machine.LoadStoreFaults

/-- R184 to R186 for LD: what completes, and the 33rd that waits.
Where the manual leaves a point open it states the model's choice: log entries 3, 66 and 68. -/
def Obligations.Loads : Prop := Machine.LoadsComplete ∧ Machine.LoadsAreBounded

/-- R184, R185 and R446 for ST, by the coherence class of the page and for one that another device lends. -/
def Obligations.Stores : Prop := Machine.StoresToLoggedPages ∧ Machine.StoresToOtherPages ∧ Machine.StoresToLentPages

/-- R193 for PROBE: hits and misses. -/
def Obligations.Probes : Prop := Machine.ProbeHits ∧ Machine.ProbeMisses

/-- R349 to R353: REL, FENCE, ACQ and SETTLE in every scope.
Where the manual leaves a point open it states the model's choice: log entry 22. -/
def Obligations.OrderingInstructions : Prop := Machine.ReleasesAndFencesPublish ∧ Machine.AcquiresReplay ∧ Machine.SettlesWait

/-- R145 and R146: PUSHE and POPE with their forms that do not wait. -/
def Obligations.WindowFifos : Prop := Machine.PushesAppendCommands ∧ Machine.PopsTakeElements

/-- R148 and R149 for COPY, R110 and R111 for the row commands. -/
def Obligations.CopiesAndRowCommandsIssue : Prop := Machine.CopiesJoinTheQueue ∧ Machine.RowCommandsIssue

/-- R233 to R236: integer lanes, shifts, bitwise operations, comparisons. -/
def Obligations.IntegerAndBitLanes : Prop := Machine.IntegerLanes ∧ Machine.ShiftsBitsAndComparisons

/-- R251 to R257 and R388: the instructions of the weight-code engine.
Where the manual leaves a point open it states the model's choice: log entries 29 and 61. -/
def Obligations.WeightInstructions : Prop := Machine.WeightCommandsQueue ∧ Machine.CallsAndDrains

/-- R264 to R266: the directives that compute. -/
def Obligations.Directives : Prop := Machine.ProductsAndSums ∧ Machine.RowAdds

/-- R291 to R294 and R302: the instructions of the lease array.
Where the manual leaves a point open it states the model's choice: log entry 30. -/
def Obligations.LeaseInstructions : Prop := Machine.SessionsOpenAndClose ∧ Machine.LeaseCommandsQueue

/-- What reaches a core from its own units: late results, mode crossings, PRCFG, faults owed, code. -/
def Obligations.ResultsCrossingsAndFetches : Prop := Machine.ResultsAreWritten ∧ Machine.CrossingsFetchesAndOwedFaults

/-- R337 for a record that settles, R350 to R353 for an ordering that completes.
Where the manual leaves a point open it states the model's choice: log entry 22. -/
def Obligations.RecordsAndOrderings : Prop := Machine.RecordsSettle ∧ Machine.OrderingsComplete

/-- R105 to R114: row operations, refresh and scrubbing.
Where the manual leaves a point open it states the model's choice: log entries 20 and 52. -/
def Obligations.RowsAndRefresh : Prop := Machine.RowsMoveBetweenShelfAndCellar ∧ Machine.StacksKeepRefreshing

/-- R120 and R123 for the slices of the L2, R136, R138 and R139 for page walks.
Where the manual leaves a point open it states the model's choice: log entry 50. -/
def Obligations.SlicesAndWalks : Prop := Machine.SlicesServeRequests ∧ Machine.WalksEnd

/-- R130, R140, R165 and R166: the commands of the code cache, the walk pool and migration.
Where the manual leaves a point open it states the model's choice: log entry 26. -/
def Obligations.InvalidationsAndMigrations : Prop := Machine.InvalidationsRemove ∧ Machine.PagesMigrate

/-- R151 to R159 for the copy engine, R194 for probe fills.
Where the manual leaves a point open it states the model's choice: log entries 24 and 46. -/
def Obligations.CopiesAndFillsRun : Prop := Machine.CopiesRun ∧ Machine.FillsRun

/-- R254 to R273 and R387: the head of the weight-code queue, and the clk it starves.
Where the manual leaves a point open it states the model's choice: log entry 29. -/
def Obligations.StreamSideRuns : Prop := Machine.WeightQueueRuns ∧ Machine.StarvedAndLaggingClk

/-- R284 to R301 for the lease arrays, R455 and R456 for power.
Where the manual leaves a point open it states the model's choice: log entries 9, 30, 53 and 62. -/
def Obligations.ArraysAndPower : Prop := Machine.ArraysRunCommands ∧ Machine.PowerIsGoverned

/-- R311 and R312: every word of a logit program.
Where the manual leaves a point open it states the model's choice: log entries 4 and 33. -/
def Obligations.LogitWords : Prop := Machine.LogitWordsTransform ∧ Machine.LogitWordsFilter ∧ Machine.LogitWordsSetSkipAndChoose

/-- R305 to R326: the sampler commands that are not runs, and the commands of the grammar engine.
Where the manual leaves a point open it states the model's choice: log entries 31, 32 and 33. -/
def Obligations.SlotsAndGrammars : Prop := Machine.SamplerSlotCommands ∧ Machine.GrammarCommands

/-- R436 and R441: the commands of a die and of the package.
Where the manual leaves a point open it states the model's choice: log entries 7 and 47. -/
def Obligations.ManagementCommands : Prop := Machine.ContextCommands ∧ Machine.PackageCommands

/-- R438 to R447, R103 and R457: the host, the neighbours, the ports, reset.
Where the manual leaves a point open it states the model's choice: log entries 37, 39, 47 and 49. -/
def Obligations.HostPortsAndReset : Prop := Machine.HostAccessesMemory ∧ Machine.PortsAndReset
end

