-- ==== Sys2Proof/Laws/State.lean ====
section
/-!
SUPPORT. What each plain update of the state leaves in each field of it: one lemma for a field and an update, so that no proof
unfolds the update of a record.
-/
namespace Sys2Proof.Machine

/-! ### A core -/

@[simp] theorem modCore_tick (s : State) (f : Core → Core) : (modCore s f).tick = s.tick := rfl
@[simp] theorem modCore_turn (s : State) (f : Core → Core) : (modCore s f).turn = s.turn := rfl
@[simp] theorem modCore_arg (s : State) (f : Core → Core) : (modCore s f).arg = s.arg := rfl
@[simp] theorem modCore_clk (s : State) (f : Core → Core) : (modCore s f).clk = s.clk := rfl
@[simp] theorem modCore_cur (s : State) (f : Core → Core) : (modCore s f).cur = s.cur := rfl
@[simp] theorem modCore_eng (s : State) (f : Core → Core) : (modCore s f).eng = s.eng := rfl
@[simp] theorem modCore_core (s : State) (f : Core → Core) : (modCore s f).core = f s.core := rfl
@[simp] theorem modCore_others (s : State) (f : Core → Core) : (modCore s f).others = s.others := rfl
@[simp] theorem modCore_dies (s : State) (f : Core → Core) : (modCore s f).dies = s.dies := rfl
@[simp] theorem modCore_mem (s : State) (f : Core → Core) : (modCore s f).mem = s.mem := rfl
@[simp] theorem modCore_memPoison (s : State) (f : Core → Core) : (modCore s f).memPoison = s.memPoison := rfl
@[simp] theorem modCore_pastMarks (s : State) (f : Core → Core) : (modCore s f).pastMarks = s.pastMarks := rfl
@[simp] theorem modCore_keys (s : State) (f : Core → Core) : (modCore s f).keys = s.keys := rfl
@[simp] theorem modCore_now (s : State) (f : Core → Core) : (modCore s f).now = s.now := rfl
@[simp] theorem modCore_past (s : State) (f : Core → Core) : (modCore s f).past = s.past := rfl
@[simp] theorem modCore_oLines (s : State) (f : Core → Core) : (modCore s f).oLines = s.oLines := rfl
@[simp] theorem modCore_oKnown (s : State) (f : Core → Core) : (modCore s f).oKnown = s.oKnown := rfl
@[simp] theorem modCore_dramStacks (s : State) (f : Core → Core) : (modCore s f).dramStacks = s.dramStacks := rfl
@[simp] theorem modCore_images (s : State) (f : Core → Core) : (modCore s f).images = s.images := rfl
@[simp] theorem modCore_lent (s : State) (f : Core → Core) : (modCore s f).lent = s.lent := rfl
@[simp] theorem modCore_remote (s : State) (f : Core → Core) : (modCore s f).remote = s.remote := rfl
@[simp] theorem modCore_remotePoison (s : State) (f : Core → Core) : (modCore s f).remotePoison = s.remotePoison := rfl
@[simp] theorem modCore_walkWait (s : State) (f : Core → Core) : (modCore s f).walkWait = s.walkWait := rfl
@[simp] theorem modCore_found (s : State) (f : Core → Core) : (modCore s f).found = s.found := rfl
@[simp] theorem modCore_device (s : State) (f : Core → Core) : (modCore s f).device = s.device := rfl
@[simp] theorem modCore_budget (s : State) (f : Core → Core) : (modCore s f).budget = s.budget := rfl
@[simp] theorem modCore_power (s : State) (f : Core → Core) : (modCore s f).power = s.power := rfl
@[simp] theorem modCore_throttled (s : State) (f : Core → Core) : (modCore s f).throttled = s.throttled := rfl
@[simp] theorem modCore_heldClk (s : State) (f : Core → Core) : (modCore s f).heldClk = s.heldClk := rfl
@[simp] theorem modCore_leaves (s : State) (f : Core → Core) : (modCore s f).leaves = s.leaves := rfl
@[simp] theorem modCore_leaveQueue (s : State) (f : Core → Core) : (modCore s f).leaveQueue = s.leaveQueue := rfl
@[simp] theorem modCore_dumpRegion (s : State) (f : Core → Core) : (modCore s f).dumpRegion = s.dumpRegion := rfl
@[simp] theorem modCore_fatal (s : State) (f : Core → Core) : (modCore s f).fatal = s.fatal := rfl
@[simp] theorem modCore_staged (s : State) (f : Core → Core) : (modCore s f).staged = s.staged := rfl
@[simp] theorem modCore_stagedDigest (s : State) (f : Core → Core) : (modCore s f).stagedDigest = s.stagedDigest := rfl
@[simp] theorem modCore_digest (s : State) (f : Core → Core) : (modCore s f).digest = s.digest := rfl
@[simp] theorem modCore_fused (s : State) (f : Core → Core) : (modCore s f).fused = s.fused := rfl
@[simp] theorem modCore_firmware (s : State) (f : Core → Core) : (modCore s f).firmware = s.firmware := rfl
@[simp] theorem modCore_msi (s : State) (f : Core → Core) : (modCore s f).msi = s.msi := rfl
@[simp] theorem modCore_out (s : State) (f : Core → Core) : (modCore s f).out = s.out := rfl

/-! ### An engine -/

@[simp] theorem modEng_tick (s : State) (e : Eng) (f : Engine → Engine) : (modEng s e f).tick = s.tick := rfl
@[simp] theorem modEng_turn (s : State) (e : Eng) (f : Engine → Engine) : (modEng s e f).turn = s.turn := rfl
@[simp] theorem modEng_arg (s : State) (e : Eng) (f : Engine → Engine) : (modEng s e f).arg = s.arg := rfl
@[simp] theorem modEng_clk (s : State) (e : Eng) (f : Engine → Engine) : (modEng s e f).clk = s.clk := rfl
@[simp] theorem modEng_cur (s : State) (e : Eng) (f : Engine → Engine) : (modEng s e f).cur = s.cur := rfl
@[simp] theorem modEng_eng (s : State) (e : Eng) (f : Engine → Engine) : (modEng s e f).eng = s.eng := rfl
@[simp] theorem modEng_core (s : State) (e : Eng) (f : Engine → Engine) : (modEng s e f).core = s.core.setEng e (f (s.core.eng e)) := rfl
@[simp] theorem modEng_others (s : State) (e : Eng) (f : Engine → Engine) : (modEng s e f).others = s.others := rfl
@[simp] theorem modEng_dies (s : State) (e : Eng) (f : Engine → Engine) : (modEng s e f).dies = s.dies := rfl
@[simp] theorem modEng_mem (s : State) (e : Eng) (f : Engine → Engine) : (modEng s e f).mem = s.mem := rfl
@[simp] theorem modEng_memPoison (s : State) (e : Eng) (f : Engine → Engine) : (modEng s e f).memPoison = s.memPoison := rfl
@[simp] theorem modEng_pastMarks (s : State) (e : Eng) (f : Engine → Engine) : (modEng s e f).pastMarks = s.pastMarks := rfl
@[simp] theorem modEng_keys (s : State) (e : Eng) (f : Engine → Engine) : (modEng s e f).keys = s.keys := rfl
@[simp] theorem modEng_now (s : State) (e : Eng) (f : Engine → Engine) : (modEng s e f).now = s.now := rfl
@[simp] theorem modEng_past (s : State) (e : Eng) (f : Engine → Engine) : (modEng s e f).past = s.past := rfl
@[simp] theorem modEng_oLines (s : State) (e : Eng) (f : Engine → Engine) : (modEng s e f).oLines = s.oLines := rfl
@[simp] theorem modEng_oKnown (s : State) (e : Eng) (f : Engine → Engine) : (modEng s e f).oKnown = s.oKnown := rfl
@[simp] theorem modEng_dramStacks (s : State) (e : Eng) (f : Engine → Engine) : (modEng s e f).dramStacks = s.dramStacks := rfl
@[simp] theorem modEng_images (s : State) (e : Eng) (f : Engine → Engine) : (modEng s e f).images = s.images := rfl
@[simp] theorem modEng_lent (s : State) (e : Eng) (f : Engine → Engine) : (modEng s e f).lent = s.lent := rfl
@[simp] theorem modEng_remote (s : State) (e : Eng) (f : Engine → Engine) : (modEng s e f).remote = s.remote := rfl
@[simp] theorem modEng_remotePoison (s : State) (e : Eng) (f : Engine → Engine) : (modEng s e f).remotePoison = s.remotePoison := rfl
@[simp] theorem modEng_walkWait (s : State) (e : Eng) (f : Engine → Engine) : (modEng s e f).walkWait = s.walkWait := rfl
@[simp] theorem modEng_found (s : State) (e : Eng) (f : Engine → Engine) : (modEng s e f).found = s.found := rfl
@[simp] theorem modEng_device (s : State) (e : Eng) (f : Engine → Engine) : (modEng s e f).device = s.device := rfl
@[simp] theorem modEng_budget (s : State) (e : Eng) (f : Engine → Engine) : (modEng s e f).budget = s.budget := rfl
@[simp] theorem modEng_power (s : State) (e : Eng) (f : Engine → Engine) : (modEng s e f).power = s.power := rfl
@[simp] theorem modEng_throttled (s : State) (e : Eng) (f : Engine → Engine) : (modEng s e f).throttled = s.throttled := rfl
@[simp] theorem modEng_heldClk (s : State) (e : Eng) (f : Engine → Engine) : (modEng s e f).heldClk = s.heldClk := rfl
@[simp] theorem modEng_leaves (s : State) (e : Eng) (f : Engine → Engine) : (modEng s e f).leaves = s.leaves := rfl
@[simp] theorem modEng_leaveQueue (s : State) (e : Eng) (f : Engine → Engine) : (modEng s e f).leaveQueue = s.leaveQueue := rfl
@[simp] theorem modEng_dumpRegion (s : State) (e : Eng) (f : Engine → Engine) : (modEng s e f).dumpRegion = s.dumpRegion := rfl
@[simp] theorem modEng_fatal (s : State) (e : Eng) (f : Engine → Engine) : (modEng s e f).fatal = s.fatal := rfl
@[simp] theorem modEng_staged (s : State) (e : Eng) (f : Engine → Engine) : (modEng s e f).staged = s.staged := rfl
@[simp] theorem modEng_stagedDigest (s : State) (e : Eng) (f : Engine → Engine) : (modEng s e f).stagedDigest = s.stagedDigest := rfl
@[simp] theorem modEng_digest (s : State) (e : Eng) (f : Engine → Engine) : (modEng s e f).digest = s.digest := rfl
@[simp] theorem modEng_fused (s : State) (e : Eng) (f : Engine → Engine) : (modEng s e f).fused = s.fused := rfl
@[simp] theorem modEng_firmware (s : State) (e : Eng) (f : Engine → Engine) : (modEng s e f).firmware = s.firmware := rfl
@[simp] theorem modEng_msi (s : State) (e : Eng) (f : Engine → Engine) : (modEng s e f).msi = s.msi := rfl
@[simp] theorem modEng_out (s : State) (e : Eng) (f : Engine → Engine) : (modEng s e f).out = s.out := rfl

/-! ### A die -/

@[simp] theorem setDie_tick (s : State) (d : Nat) (x : Die) : (setDie s d x).tick = s.tick := rfl
@[simp] theorem setDie_turn (s : State) (d : Nat) (x : Die) : (setDie s d x).turn = s.turn := rfl
@[simp] theorem setDie_arg (s : State) (d : Nat) (x : Die) : (setDie s d x).arg = s.arg := rfl
@[simp] theorem setDie_clk (s : State) (d : Nat) (x : Die) : (setDie s d x).clk = s.clk := rfl
@[simp] theorem setDie_cur (s : State) (d : Nat) (x : Die) : (setDie s d x).cur = s.cur := rfl
@[simp] theorem setDie_eng (s : State) (d : Nat) (x : Die) : (setDie s d x).eng = s.eng := rfl
@[simp] theorem setDie_core (s : State) (d : Nat) (x : Die) : (setDie s d x).core = s.core := rfl
@[simp] theorem setDie_others (s : State) (d : Nat) (x : Die) : (setDie s d x).others = s.others := rfl
@[simp] theorem setDie_dies (s : State) (d : Nat) (x : Die) : (setDie s d x).dies = place {} s.dies d x := rfl
@[simp] theorem setDie_mem (s : State) (d : Nat) (x : Die) : (setDie s d x).mem = s.mem := rfl
@[simp] theorem setDie_memPoison (s : State) (d : Nat) (x : Die) : (setDie s d x).memPoison = s.memPoison := rfl
@[simp] theorem setDie_pastMarks (s : State) (d : Nat) (x : Die) : (setDie s d x).pastMarks = s.pastMarks := rfl
@[simp] theorem setDie_keys (s : State) (d : Nat) (x : Die) : (setDie s d x).keys = s.keys := rfl
@[simp] theorem setDie_now (s : State) (d : Nat) (x : Die) : (setDie s d x).now = s.now := rfl
@[simp] theorem setDie_past (s : State) (d : Nat) (x : Die) : (setDie s d x).past = s.past := rfl
@[simp] theorem setDie_oLines (s : State) (d : Nat) (x : Die) : (setDie s d x).oLines = s.oLines := rfl
@[simp] theorem setDie_oKnown (s : State) (d : Nat) (x : Die) : (setDie s d x).oKnown = s.oKnown := rfl
@[simp] theorem setDie_dramStacks (s : State) (d : Nat) (x : Die) : (setDie s d x).dramStacks = s.dramStacks := rfl
@[simp] theorem setDie_images (s : State) (d : Nat) (x : Die) : (setDie s d x).images = s.images := rfl
@[simp] theorem setDie_lent (s : State) (d : Nat) (x : Die) : (setDie s d x).lent = s.lent := rfl
@[simp] theorem setDie_remote (s : State) (d : Nat) (x : Die) : (setDie s d x).remote = s.remote := rfl
@[simp] theorem setDie_remotePoison (s : State) (d : Nat) (x : Die) : (setDie s d x).remotePoison = s.remotePoison := rfl
@[simp] theorem setDie_walkWait (s : State) (d : Nat) (x : Die) : (setDie s d x).walkWait = s.walkWait := rfl
@[simp] theorem setDie_found (s : State) (d : Nat) (x : Die) : (setDie s d x).found = s.found := rfl
@[simp] theorem setDie_device (s : State) (d : Nat) (x : Die) : (setDie s d x).device = s.device := rfl
@[simp] theorem setDie_budget (s : State) (d : Nat) (x : Die) : (setDie s d x).budget = s.budget := rfl
@[simp] theorem setDie_power (s : State) (d : Nat) (x : Die) : (setDie s d x).power = s.power := rfl
@[simp] theorem setDie_throttled (s : State) (d : Nat) (x : Die) : (setDie s d x).throttled = s.throttled := rfl
@[simp] theorem setDie_heldClk (s : State) (d : Nat) (x : Die) : (setDie s d x).heldClk = s.heldClk := rfl
@[simp] theorem setDie_leaves (s : State) (d : Nat) (x : Die) : (setDie s d x).leaves = s.leaves := rfl
@[simp] theorem setDie_leaveQueue (s : State) (d : Nat) (x : Die) : (setDie s d x).leaveQueue = s.leaveQueue := rfl
@[simp] theorem setDie_dumpRegion (s : State) (d : Nat) (x : Die) : (setDie s d x).dumpRegion = s.dumpRegion := rfl
@[simp] theorem setDie_fatal (s : State) (d : Nat) (x : Die) : (setDie s d x).fatal = s.fatal := rfl
@[simp] theorem setDie_staged (s : State) (d : Nat) (x : Die) : (setDie s d x).staged = s.staged := rfl
@[simp] theorem setDie_stagedDigest (s : State) (d : Nat) (x : Die) : (setDie s d x).stagedDigest = s.stagedDigest := rfl
@[simp] theorem setDie_digest (s : State) (d : Nat) (x : Die) : (setDie s d x).digest = s.digest := rfl
@[simp] theorem setDie_fused (s : State) (d : Nat) (x : Die) : (setDie s d x).fused = s.fused := rfl
@[simp] theorem setDie_firmware (s : State) (d : Nat) (x : Die) : (setDie s d x).firmware = s.firmware := rfl
@[simp] theorem setDie_msi (s : State) (d : Nat) (x : Die) : (setDie s d x).msi = s.msi := rfl
@[simp] theorem setDie_out (s : State) (d : Nat) (x : Die) : (setDie s d x).out = s.out := rfl

/-! ### A die, from what it was -/

@[simp] theorem modDie_tick (s : State) (d : Nat) (f : Die → Die) : (modDie s d f).tick = s.tick := rfl
@[simp] theorem modDie_turn (s : State) (d : Nat) (f : Die → Die) : (modDie s d f).turn = s.turn := rfl
@[simp] theorem modDie_arg (s : State) (d : Nat) (f : Die → Die) : (modDie s d f).arg = s.arg := rfl
@[simp] theorem modDie_clk (s : State) (d : Nat) (f : Die → Die) : (modDie s d f).clk = s.clk := rfl
@[simp] theorem modDie_cur (s : State) (d : Nat) (f : Die → Die) : (modDie s d f).cur = s.cur := rfl
@[simp] theorem modDie_eng (s : State) (d : Nat) (f : Die → Die) : (modDie s d f).eng = s.eng := rfl
@[simp] theorem modDie_core (s : State) (d : Nat) (f : Die → Die) : (modDie s d f).core = s.core := rfl
@[simp] theorem modDie_others (s : State) (d : Nat) (f : Die → Die) : (modDie s d f).others = s.others := rfl
@[simp] theorem modDie_dies (s : State) (d : Nat) (f : Die → Die) : (modDie s d f).dies = place {} s.dies d (f (dieAt s d)) := rfl
@[simp] theorem modDie_mem (s : State) (d : Nat) (f : Die → Die) : (modDie s d f).mem = s.mem := rfl
@[simp] theorem modDie_memPoison (s : State) (d : Nat) (f : Die → Die) : (modDie s d f).memPoison = s.memPoison := rfl
@[simp] theorem modDie_pastMarks (s : State) (d : Nat) (f : Die → Die) : (modDie s d f).pastMarks = s.pastMarks := rfl
@[simp] theorem modDie_keys (s : State) (d : Nat) (f : Die → Die) : (modDie s d f).keys = s.keys := rfl
@[simp] theorem modDie_now (s : State) (d : Nat) (f : Die → Die) : (modDie s d f).now = s.now := rfl
@[simp] theorem modDie_past (s : State) (d : Nat) (f : Die → Die) : (modDie s d f).past = s.past := rfl
@[simp] theorem modDie_oLines (s : State) (d : Nat) (f : Die → Die) : (modDie s d f).oLines = s.oLines := rfl
@[simp] theorem modDie_oKnown (s : State) (d : Nat) (f : Die → Die) : (modDie s d f).oKnown = s.oKnown := rfl
@[simp] theorem modDie_dramStacks (s : State) (d : Nat) (f : Die → Die) : (modDie s d f).dramStacks = s.dramStacks := rfl
@[simp] theorem modDie_images (s : State) (d : Nat) (f : Die → Die) : (modDie s d f).images = s.images := rfl
@[simp] theorem modDie_lent (s : State) (d : Nat) (f : Die → Die) : (modDie s d f).lent = s.lent := rfl
@[simp] theorem modDie_remote (s : State) (d : Nat) (f : Die → Die) : (modDie s d f).remote = s.remote := rfl
@[simp] theorem modDie_remotePoison (s : State) (d : Nat) (f : Die → Die) : (modDie s d f).remotePoison = s.remotePoison := rfl
@[simp] theorem modDie_walkWait (s : State) (d : Nat) (f : Die → Die) : (modDie s d f).walkWait = s.walkWait := rfl
@[simp] theorem modDie_found (s : State) (d : Nat) (f : Die → Die) : (modDie s d f).found = s.found := rfl
@[simp] theorem modDie_device (s : State) (d : Nat) (f : Die → Die) : (modDie s d f).device = s.device := rfl
@[simp] theorem modDie_budget (s : State) (d : Nat) (f : Die → Die) : (modDie s d f).budget = s.budget := rfl
@[simp] theorem modDie_power (s : State) (d : Nat) (f : Die → Die) : (modDie s d f).power = s.power := rfl
@[simp] theorem modDie_throttled (s : State) (d : Nat) (f : Die → Die) : (modDie s d f).throttled = s.throttled := rfl
@[simp] theorem modDie_heldClk (s : State) (d : Nat) (f : Die → Die) : (modDie s d f).heldClk = s.heldClk := rfl
@[simp] theorem modDie_leaves (s : State) (d : Nat) (f : Die → Die) : (modDie s d f).leaves = s.leaves := rfl
@[simp] theorem modDie_leaveQueue (s : State) (d : Nat) (f : Die → Die) : (modDie s d f).leaveQueue = s.leaveQueue := rfl
@[simp] theorem modDie_dumpRegion (s : State) (d : Nat) (f : Die → Die) : (modDie s d f).dumpRegion = s.dumpRegion := rfl
@[simp] theorem modDie_fatal (s : State) (d : Nat) (f : Die → Die) : (modDie s d f).fatal = s.fatal := rfl
@[simp] theorem modDie_staged (s : State) (d : Nat) (f : Die → Die) : (modDie s d f).staged = s.staged := rfl
@[simp] theorem modDie_stagedDigest (s : State) (d : Nat) (f : Die → Die) : (modDie s d f).stagedDigest = s.stagedDigest := rfl
@[simp] theorem modDie_digest (s : State) (d : Nat) (f : Die → Die) : (modDie s d f).digest = s.digest := rfl
@[simp] theorem modDie_fused (s : State) (d : Nat) (f : Die → Die) : (modDie s d f).fused = s.fused := rfl
@[simp] theorem modDie_firmware (s : State) (d : Nat) (f : Die → Die) : (modDie s d f).firmware = s.firmware := rfl
@[simp] theorem modDie_msi (s : State) (d : Nat) (f : Die → Die) : (modDie s d f).msi = s.msi := rfl
@[simp] theorem modDie_out (s : State) (d : Nat) (f : Die → Die) : (modDie s d f).out = s.out := rfl

/-! ### A stack -/

@[simp] theorem setStack_tick (s : State) (k : Nat) (x : Stack) : (setStack s k x).tick = s.tick := rfl
@[simp] theorem setStack_turn (s : State) (k : Nat) (x : Stack) : (setStack s k x).turn = s.turn := rfl
@[simp] theorem setStack_arg (s : State) (k : Nat) (x : Stack) : (setStack s k x).arg = s.arg := rfl
@[simp] theorem setStack_clk (s : State) (k : Nat) (x : Stack) : (setStack s k x).clk = s.clk := rfl
@[simp] theorem setStack_cur (s : State) (k : Nat) (x : Stack) : (setStack s k x).cur = s.cur := rfl
@[simp] theorem setStack_eng (s : State) (k : Nat) (x : Stack) : (setStack s k x).eng = s.eng := rfl
@[simp] theorem setStack_core (s : State) (k : Nat) (x : Stack) : (setStack s k x).core = s.core := rfl
@[simp] theorem setStack_others (s : State) (k : Nat) (x : Stack) : (setStack s k x).others = s.others := rfl
@[simp] theorem setStack_dies (s : State) (k : Nat) (x : Stack) : (setStack s k x).dies = s.dies := rfl
@[simp] theorem setStack_mem (s : State) (k : Nat) (x : Stack) : (setStack s k x).mem = s.mem := rfl
@[simp] theorem setStack_memPoison (s : State) (k : Nat) (x : Stack) : (setStack s k x).memPoison = s.memPoison := rfl
@[simp] theorem setStack_pastMarks (s : State) (k : Nat) (x : Stack) : (setStack s k x).pastMarks = s.pastMarks := rfl
@[simp] theorem setStack_keys (s : State) (k : Nat) (x : Stack) : (setStack s k x).keys = s.keys := rfl
@[simp] theorem setStack_now (s : State) (k : Nat) (x : Stack) : (setStack s k x).now = s.now := rfl
@[simp] theorem setStack_past (s : State) (k : Nat) (x : Stack) : (setStack s k x).past = s.past := rfl
@[simp] theorem setStack_oLines (s : State) (k : Nat) (x : Stack) : (setStack s k x).oLines = s.oLines := rfl
@[simp] theorem setStack_oKnown (s : State) (k : Nat) (x : Stack) : (setStack s k x).oKnown = s.oKnown := rfl
@[simp] theorem setStack_dramStacks (s : State) (k : Nat) (x : Stack) : (setStack s k x).dramStacks = place {} s.dramStacks k x := rfl
@[simp] theorem setStack_images (s : State) (k : Nat) (x : Stack) : (setStack s k x).images = s.images := rfl
@[simp] theorem setStack_lent (s : State) (k : Nat) (x : Stack) : (setStack s k x).lent = s.lent := rfl
@[simp] theorem setStack_remote (s : State) (k : Nat) (x : Stack) : (setStack s k x).remote = s.remote := rfl
@[simp] theorem setStack_remotePoison (s : State) (k : Nat) (x : Stack) : (setStack s k x).remotePoison = s.remotePoison := rfl
@[simp] theorem setStack_walkWait (s : State) (k : Nat) (x : Stack) : (setStack s k x).walkWait = s.walkWait := rfl
@[simp] theorem setStack_found (s : State) (k : Nat) (x : Stack) : (setStack s k x).found = s.found := rfl
@[simp] theorem setStack_device (s : State) (k : Nat) (x : Stack) : (setStack s k x).device = s.device := rfl
@[simp] theorem setStack_budget (s : State) (k : Nat) (x : Stack) : (setStack s k x).budget = s.budget := rfl
@[simp] theorem setStack_power (s : State) (k : Nat) (x : Stack) : (setStack s k x).power = s.power := rfl
@[simp] theorem setStack_throttled (s : State) (k : Nat) (x : Stack) : (setStack s k x).throttled = s.throttled := rfl
@[simp] theorem setStack_heldClk (s : State) (k : Nat) (x : Stack) : (setStack s k x).heldClk = s.heldClk := rfl
@[simp] theorem setStack_leaves (s : State) (k : Nat) (x : Stack) : (setStack s k x).leaves = s.leaves := rfl
@[simp] theorem setStack_leaveQueue (s : State) (k : Nat) (x : Stack) : (setStack s k x).leaveQueue = s.leaveQueue := rfl
@[simp] theorem setStack_dumpRegion (s : State) (k : Nat) (x : Stack) : (setStack s k x).dumpRegion = s.dumpRegion := rfl
@[simp] theorem setStack_fatal (s : State) (k : Nat) (x : Stack) : (setStack s k x).fatal = s.fatal := rfl
@[simp] theorem setStack_staged (s : State) (k : Nat) (x : Stack) : (setStack s k x).staged = s.staged := rfl
@[simp] theorem setStack_stagedDigest (s : State) (k : Nat) (x : Stack) : (setStack s k x).stagedDigest = s.stagedDigest := rfl
@[simp] theorem setStack_digest (s : State) (k : Nat) (x : Stack) : (setStack s k x).digest = s.digest := rfl
@[simp] theorem setStack_fused (s : State) (k : Nat) (x : Stack) : (setStack s k x).fused = s.fused := rfl
@[simp] theorem setStack_firmware (s : State) (k : Nat) (x : Stack) : (setStack s k x).firmware = s.firmware := rfl
@[simp] theorem setStack_msi (s : State) (k : Nat) (x : Stack) : (setStack s k x).msi = s.msi := rfl
@[simp] theorem setStack_out (s : State) (k : Nat) (x : Stack) : (setStack s k x).out = s.out := rfl

/-! ### A stack, from what it was -/

@[simp] theorem modStack_tick (s : State) (k : Nat) (f : Stack → Stack) : (modStack s k f).tick = s.tick := rfl
@[simp] theorem modStack_turn (s : State) (k : Nat) (f : Stack → Stack) : (modStack s k f).turn = s.turn := rfl
@[simp] theorem modStack_arg (s : State) (k : Nat) (f : Stack → Stack) : (modStack s k f).arg = s.arg := rfl
@[simp] theorem modStack_clk (s : State) (k : Nat) (f : Stack → Stack) : (modStack s k f).clk = s.clk := rfl
@[simp] theorem modStack_cur (s : State) (k : Nat) (f : Stack → Stack) : (modStack s k f).cur = s.cur := rfl
@[simp] theorem modStack_eng (s : State) (k : Nat) (f : Stack → Stack) : (modStack s k f).eng = s.eng := rfl
@[simp] theorem modStack_core (s : State) (k : Nat) (f : Stack → Stack) : (modStack s k f).core = s.core := rfl
@[simp] theorem modStack_others (s : State) (k : Nat) (f : Stack → Stack) : (modStack s k f).others = s.others := rfl
@[simp] theorem modStack_dies (s : State) (k : Nat) (f : Stack → Stack) : (modStack s k f).dies = s.dies := rfl
@[simp] theorem modStack_mem (s : State) (k : Nat) (f : Stack → Stack) : (modStack s k f).mem = s.mem := rfl
@[simp] theorem modStack_memPoison (s : State) (k : Nat) (f : Stack → Stack) : (modStack s k f).memPoison = s.memPoison := rfl
@[simp] theorem modStack_pastMarks (s : State) (k : Nat) (f : Stack → Stack) : (modStack s k f).pastMarks = s.pastMarks := rfl
@[simp] theorem modStack_keys (s : State) (k : Nat) (f : Stack → Stack) : (modStack s k f).keys = s.keys := rfl
@[simp] theorem modStack_now (s : State) (k : Nat) (f : Stack → Stack) : (modStack s k f).now = s.now := rfl
@[simp] theorem modStack_past (s : State) (k : Nat) (f : Stack → Stack) : (modStack s k f).past = s.past := rfl
@[simp] theorem modStack_oLines (s : State) (k : Nat) (f : Stack → Stack) : (modStack s k f).oLines = s.oLines := rfl
@[simp] theorem modStack_oKnown (s : State) (k : Nat) (f : Stack → Stack) : (modStack s k f).oKnown = s.oKnown := rfl
@[simp] theorem modStack_dramStacks (s : State) (k : Nat) (f : Stack → Stack) : (modStack s k f).dramStacks = place {} s.dramStacks k (f (stackAt s k)) := rfl
@[simp] theorem modStack_images (s : State) (k : Nat) (f : Stack → Stack) : (modStack s k f).images = s.images := rfl
@[simp] theorem modStack_lent (s : State) (k : Nat) (f : Stack → Stack) : (modStack s k f).lent = s.lent := rfl
@[simp] theorem modStack_remote (s : State) (k : Nat) (f : Stack → Stack) : (modStack s k f).remote = s.remote := rfl
@[simp] theorem modStack_remotePoison (s : State) (k : Nat) (f : Stack → Stack) : (modStack s k f).remotePoison = s.remotePoison := rfl
@[simp] theorem modStack_walkWait (s : State) (k : Nat) (f : Stack → Stack) : (modStack s k f).walkWait = s.walkWait := rfl
@[simp] theorem modStack_found (s : State) (k : Nat) (f : Stack → Stack) : (modStack s k f).found = s.found := rfl
@[simp] theorem modStack_device (s : State) (k : Nat) (f : Stack → Stack) : (modStack s k f).device = s.device := rfl
@[simp] theorem modStack_budget (s : State) (k : Nat) (f : Stack → Stack) : (modStack s k f).budget = s.budget := rfl
@[simp] theorem modStack_power (s : State) (k : Nat) (f : Stack → Stack) : (modStack s k f).power = s.power := rfl
@[simp] theorem modStack_throttled (s : State) (k : Nat) (f : Stack → Stack) : (modStack s k f).throttled = s.throttled := rfl
@[simp] theorem modStack_heldClk (s : State) (k : Nat) (f : Stack → Stack) : (modStack s k f).heldClk = s.heldClk := rfl
@[simp] theorem modStack_leaves (s : State) (k : Nat) (f : Stack → Stack) : (modStack s k f).leaves = s.leaves := rfl
@[simp] theorem modStack_leaveQueue (s : State) (k : Nat) (f : Stack → Stack) : (modStack s k f).leaveQueue = s.leaveQueue := rfl
@[simp] theorem modStack_dumpRegion (s : State) (k : Nat) (f : Stack → Stack) : (modStack s k f).dumpRegion = s.dumpRegion := rfl
@[simp] theorem modStack_fatal (s : State) (k : Nat) (f : Stack → Stack) : (modStack s k f).fatal = s.fatal := rfl
@[simp] theorem modStack_staged (s : State) (k : Nat) (f : Stack → Stack) : (modStack s k f).staged = s.staged := rfl
@[simp] theorem modStack_stagedDigest (s : State) (k : Nat) (f : Stack → Stack) : (modStack s k f).stagedDigest = s.stagedDigest := rfl
@[simp] theorem modStack_digest (s : State) (k : Nat) (f : Stack → Stack) : (modStack s k f).digest = s.digest := rfl
@[simp] theorem modStack_fused (s : State) (k : Nat) (f : Stack → Stack) : (modStack s k f).fused = s.fused := rfl
@[simp] theorem modStack_firmware (s : State) (k : Nat) (f : Stack → Stack) : (modStack s k f).firmware = s.firmware := rfl
@[simp] theorem modStack_msi (s : State) (k : Nat) (f : Stack → Stack) : (modStack s k f).msi = s.msi := rfl
@[simp] theorem modStack_out (s : State) (k : Nat) (f : Stack → Stack) : (modStack s k f).out = s.out := rfl

/-! ### The moment of memory -/

@[simp] theorem newMoment_tick (s : State) : (newMoment s).tick = s.tick := rfl
@[simp] theorem newMoment_turn (s : State) : (newMoment s).turn = s.turn := rfl
@[simp] theorem newMoment_arg (s : State) : (newMoment s).arg = s.arg := rfl
@[simp] theorem newMoment_clk (s : State) : (newMoment s).clk = s.clk := rfl
@[simp] theorem newMoment_cur (s : State) : (newMoment s).cur = s.cur := rfl
@[simp] theorem newMoment_eng (s : State) : (newMoment s).eng = s.eng := rfl
@[simp] theorem newMoment_core (s : State) : (newMoment s).core = s.core := rfl
@[simp] theorem newMoment_others (s : State) : (newMoment s).others = s.others := rfl
@[simp] theorem newMoment_dies (s : State) : (newMoment s).dies = s.dies := rfl
@[simp] theorem newMoment_mem (s : State) : (newMoment s).mem = s.mem := rfl
@[simp] theorem newMoment_memPoison (s : State) : (newMoment s).memPoison = s.memPoison := rfl
@[simp] theorem newMoment_pastMarks (s : State) : (newMoment s).pastMarks = s.pastMarks := rfl
@[simp] theorem newMoment_keys (s : State) : (newMoment s).keys = s.keys := rfl
@[simp] theorem newMoment_now (s : State) : (newMoment s).now = s.now + 1 := rfl
@[simp] theorem newMoment_past (s : State) : (newMoment s).past = s.past := rfl
@[simp] theorem newMoment_oLines (s : State) : (newMoment s).oLines = s.oLines := rfl
@[simp] theorem newMoment_oKnown (s : State) : (newMoment s).oKnown = s.oKnown := rfl
@[simp] theorem newMoment_dramStacks (s : State) : (newMoment s).dramStacks = s.dramStacks := rfl
@[simp] theorem newMoment_images (s : State) : (newMoment s).images = s.images := rfl
@[simp] theorem newMoment_lent (s : State) : (newMoment s).lent = s.lent := rfl
@[simp] theorem newMoment_remote (s : State) : (newMoment s).remote = s.remote := rfl
@[simp] theorem newMoment_remotePoison (s : State) : (newMoment s).remotePoison = s.remotePoison := rfl
@[simp] theorem newMoment_walkWait (s : State) : (newMoment s).walkWait = s.walkWait := rfl
@[simp] theorem newMoment_found (s : State) : (newMoment s).found = s.found := rfl
@[simp] theorem newMoment_device (s : State) : (newMoment s).device = s.device := rfl
@[simp] theorem newMoment_budget (s : State) : (newMoment s).budget = s.budget := rfl
@[simp] theorem newMoment_power (s : State) : (newMoment s).power = s.power := rfl
@[simp] theorem newMoment_throttled (s : State) : (newMoment s).throttled = s.throttled := rfl
@[simp] theorem newMoment_heldClk (s : State) : (newMoment s).heldClk = s.heldClk := rfl
@[simp] theorem newMoment_leaves (s : State) : (newMoment s).leaves = s.leaves := rfl
@[simp] theorem newMoment_leaveQueue (s : State) : (newMoment s).leaveQueue = s.leaveQueue := rfl
@[simp] theorem newMoment_dumpRegion (s : State) : (newMoment s).dumpRegion = s.dumpRegion := rfl
@[simp] theorem newMoment_fatal (s : State) : (newMoment s).fatal = s.fatal := rfl
@[simp] theorem newMoment_staged (s : State) : (newMoment s).staged = s.staged := rfl
@[simp] theorem newMoment_stagedDigest (s : State) : (newMoment s).stagedDigest = s.stagedDigest := rfl
@[simp] theorem newMoment_digest (s : State) : (newMoment s).digest = s.digest := rfl
@[simp] theorem newMoment_fused (s : State) : (newMoment s).fused = s.fused := rfl
@[simp] theorem newMoment_firmware (s : State) : (newMoment s).firmware = s.firmware := rfl
@[simp] theorem newMoment_msi (s : State) : (newMoment s).msi = s.msi := rfl
@[simp] theorem newMoment_out (s : State) : (newMoment s).out = s.out := rfl

/-! ### The next turn -/

@[simp] theorem nextTurn_tick (s : State) : (nextTurn s).tick = s.tick + 1 := rfl
@[simp] theorem nextTurn_turn (s : State) : (nextTurn s).turn = Config.schedule s.tick := rfl
@[simp] theorem nextTurn_arg (s : State) : (nextTurn s).arg = s.arg := rfl
@[simp] theorem nextTurn_clk (s : State) : (nextTurn s).clk = s.clk := rfl
@[simp] theorem nextTurn_cur (s : State) : (nextTurn s).cur = s.cur := rfl
@[simp] theorem nextTurn_eng (s : State) : (nextTurn s).eng = s.eng := rfl
@[simp] theorem nextTurn_core (s : State) : (nextTurn s).core = s.core := rfl
@[simp] theorem nextTurn_others (s : State) : (nextTurn s).others = s.others := rfl
@[simp] theorem nextTurn_dies (s : State) : (nextTurn s).dies = s.dies := rfl
@[simp] theorem nextTurn_mem (s : State) : (nextTurn s).mem = s.mem := rfl
@[simp] theorem nextTurn_memPoison (s : State) : (nextTurn s).memPoison = s.memPoison := rfl
@[simp] theorem nextTurn_pastMarks (s : State) : (nextTurn s).pastMarks = s.pastMarks := rfl
@[simp] theorem nextTurn_keys (s : State) : (nextTurn s).keys = s.keys := rfl
@[simp] theorem nextTurn_now (s : State) : (nextTurn s).now = s.now := rfl
@[simp] theorem nextTurn_past (s : State) : (nextTurn s).past = s.past := rfl
@[simp] theorem nextTurn_oLines (s : State) : (nextTurn s).oLines = s.oLines := rfl
@[simp] theorem nextTurn_oKnown (s : State) : (nextTurn s).oKnown = s.oKnown := rfl
@[simp] theorem nextTurn_dramStacks (s : State) : (nextTurn s).dramStacks = s.dramStacks := rfl
@[simp] theorem nextTurn_images (s : State) : (nextTurn s).images = s.images := rfl
@[simp] theorem nextTurn_lent (s : State) : (nextTurn s).lent = s.lent := rfl
@[simp] theorem nextTurn_remote (s : State) : (nextTurn s).remote = s.remote := rfl
@[simp] theorem nextTurn_remotePoison (s : State) : (nextTurn s).remotePoison = s.remotePoison := rfl
@[simp] theorem nextTurn_walkWait (s : State) : (nextTurn s).walkWait = none := rfl
@[simp] theorem nextTurn_found (s : State) : (nextTurn s).found = Config.dramCheck s.tick := rfl
@[simp] theorem nextTurn_device (s : State) : (nextTurn s).device = s.device := rfl
@[simp] theorem nextTurn_budget (s : State) : (nextTurn s).budget = s.budget := rfl
@[simp] theorem nextTurn_power (s : State) : (nextTurn s).power = s.power := rfl
@[simp] theorem nextTurn_throttled (s : State) : (nextTurn s).throttled = s.throttled := rfl
@[simp] theorem nextTurn_heldClk (s : State) : (nextTurn s).heldClk = s.heldClk := rfl
@[simp] theorem nextTurn_leaves (s : State) : (nextTurn s).leaves = s.leaves := rfl
@[simp] theorem nextTurn_leaveQueue (s : State) : (nextTurn s).leaveQueue = s.leaveQueue := rfl
@[simp] theorem nextTurn_dumpRegion (s : State) : (nextTurn s).dumpRegion = s.dumpRegion := rfl
@[simp] theorem nextTurn_fatal (s : State) : (nextTurn s).fatal = s.fatal := rfl
@[simp] theorem nextTurn_staged (s : State) : (nextTurn s).staged = s.staged := rfl
@[simp] theorem nextTurn_stagedDigest (s : State) : (nextTurn s).stagedDigest = s.stagedDigest := rfl
@[simp] theorem nextTurn_digest (s : State) : (nextTurn s).digest = s.digest := rfl
@[simp] theorem nextTurn_fused (s : State) : (nextTurn s).fused = s.fused := rfl
@[simp] theorem nextTurn_firmware (s : State) : (nextTurn s).firmware = s.firmware := rfl
@[simp] theorem nextTurn_msi (s : State) : (nextTurn s).msi = s.msi := rfl
@[simp] theorem nextTurn_out (s : State) : (nextTurn s).out = s.out := rfl

/-! ### A system register -/

@[simp] theorem setSysNow_ctx (c : Core) (n : Nat) (v : Word) : (setSysNow c n v).ctx = c.ctx := rfl
@[simp] theorem setSysNow_task (c : Core) (n : Nat) (v : Word) : (setSysNow c n v).task = c.task := rfl
@[simp] theorem setSysNow_running (c : Core) (n : Nat) (v : Word) : (setSysNow c n v).running = c.running := rfl
@[simp] theorem setSysNow_ck (c : Core) (n : Nat) (v : Word) : (setSysNow c n v).ck = c.ck := rfl
@[simp] theorem setSysNow_frozen (c : Core) (n : Nat) (v : Word) : (setSysNow c n v).frozen = c.frozen := rfl
@[simp] theorem setSysNow_starved (c : Core) (n : Nat) (v : Word) : (setSysNow c n v).starved = c.starved := rfl
@[simp] theorem setSysNow_lagging (c : Core) (n : Nat) (v : Word) : (setSysNow c n v).lagging = c.lagging := rfl
@[simp] theorem setSysNow_g (c : Core) (n : Nat) (v : Word) : (setSysNow c n v).g = c.g := rfl
@[simp] theorem setSysNow_gTurn (c : Core) (n : Nat) (v : Word) : (setSysNow c n v).gTurn = c.gTurn := rfl
@[simp] theorem setSysNow_cells (c : Core) (n : Nat) (v : Word) : (setSysNow c n v).cells = c.cells := rfl
@[simp] theorem setSysNow_near (c : Core) (n : Nat) (v : Word) : (setSysNow c n v).near = c.near := rfl
@[simp] theorem setSysNow_attic (c : Core) (n : Nat) (v : Word) : (setSysNow c n v).attic = c.attic := rfl
@[simp] theorem setSysNow_atticPoison (c : Core) (n : Nat) (v : Word) : (setSysNow c n v).atticPoison = c.atticPoison := rfl
@[simp] theorem setSysNow_acc (c : Core) (n : Nat) (v : Word) : (setSysNow c n v).acc = c.acc := rfl
@[simp] theorem setSysNow_accPoison (c : Core) (n : Nat) (v : Word) : (setSysNow c n v).accPoison = c.accPoison := rfl
@[simp] theorem setSysNow_slots (c : Core) (n : Nat) (v : Word) : (setSysNow c n v).slots = c.slots := rfl
@[simp] theorem setSysNow_slotPoison (c : Core) (n : Nat) (v : Word) : (setSysNow c n v).slotPoison = c.slotPoison := rfl
@[simp] theorem setSysNow_bank (c : Core) (n : Nat) (v : Word) : (setSysNow c n v).bank = c.bank := rfl
@[simp] theorem setSysNow_bankPoison (c : Core) (n : Nat) (v : Word) : (setSysNow c n v).bankPoison = c.bankPoison := rfl
@[simp] theorem setSysNow_sys (c : Core) (n : Nat) (v : Word) : (setSysNow c n v).sys = { c.sys with cur := place 0 c.sys.cur n v, poison := place false c.sys.poison n false } := rfl
@[simp] theorem setSysNow_kregs (c : Core) (n : Nat) (v : Word) : (setSysNow c n v).kregs = c.kregs := rfl
@[simp] theorem setSysNow_kMarks (c : Core) (n : Nat) (v : Word) : (setSysNow c n v).kMarks = c.kMarks := rfl
@[simp] theorem setSysNow_engC (c : Core) (n : Nat) (v : Word) : (setSysNow c n v).engC = c.engC := rfl
@[simp] theorem setSysNow_engA (c : Core) (n : Nat) (v : Word) : (setSysNow c n v).engA = c.engA := rfl
@[simp] theorem setSysNow_engV (c : Core) (n : Nat) (v : Word) : (setSysNow c n v).engV = c.engV := rfl
@[simp] theorem setSysNow_engW (c : Core) (n : Nat) (v : Word) : (setSysNow c n v).engW = c.engW := rfl
@[simp] theorem setSysNow_tokens (c : Core) (n : Nat) (v : Word) : (setSysNow c n v).tokens = c.tokens := rfl
@[simp] theorem setSysNow_outcomes (c : Core) (n : Nat) (v : Word) : (setSysNow c n v).outcomes = c.outcomes := rfl
@[simp] theorem setSysNow_landing (c : Core) (n : Nat) (v : Word) : (setSysNow c n v).landing = c.landing := rfl
@[simp] theorem setSysNow_leaving (c : Core) (n : Nat) (v : Word) : (setSysNow c n v).leaving = c.leaving := rfl
@[simp] theorem setSysNow_haltAt (c : Core) (n : Nat) (v : Word) : (setSysNow c n v).haltAt = c.haltAt := rfl
@[simp] theorem setSysNow_holder (c : Core) (n : Nat) (v : Word) : (setSysNow c n v).holder = c.holder := rfl
@[simp] theorem setSysNow_switched (c : Core) (n : Nat) (v : Word) : (setSysNow c n v).switched = c.switched := rfl
@[simp] theorem setSysNow_heard (c : Core) (n : Nat) (v : Word) : (setSysNow c n v).heard = c.heard := rfl
@[simp] theorem setSysNow_slipOld (c : Core) (n : Nat) (v : Word) : (setSysNow c n v).slipOld = c.slipOld := rfl
@[simp] theorem setSysNow_spillStall (c : Core) (n : Nat) (v : Word) : (setSysNow c n v).spillStall = c.spillStall := rfl
@[simp] theorem setSysNow_mstPlaces (c : Core) (n : Nat) (v : Word) : (setSysNow c n v).mstPlaces = c.mstPlaces := rfl
@[simp] theorem setSysNow_probeLag (c : Core) (n : Nat) (v : Word) : (setSysNow c n v).probeLag = c.probeLag := rfl
@[simp] theorem setSysNow_trapFrame (c : Core) (n : Nat) (v : Word) : (setSysNow c n v).trapFrame = c.trapFrame := rfl
@[simp] theorem setSysNow_raised (c : Core) (n : Nat) (v : Word) : (setSysNow c n v).raised = c.raised := rfl
@[simp] theorem setSysNow_portFree (c : Core) (n : Nat) (v : Word) : (setSysNow c n v).portFree = c.portFree := rfl
@[simp] theorem setSysNow_nextId (c : Core) (n : Nat) (v : Word) : (setSysNow c n v).nextId = c.nextId := rfl
@[simp] theorem setSysNow_prcfgWait (c : Core) (n : Nat) (v : Word) : (setSysNow c n v).prcfgWait = c.prcfgWait := rfl
@[simp] theorem setSysNow_probeTags (c : Core) (n : Nat) (v : Word) : (setSysNow c n v).probeTags = c.probeTags := rfl
@[simp] theorem setSysNow_pushedOut (c : Core) (n : Nat) (v : Word) : (setSysNow c n v).pushedOut = c.pushedOut := rfl
@[simp] theorem setSysNow_fillQueue (c : Core) (n : Nat) (v : Word) : (setSysNow c n v).fillQueue = c.fillQueue := rfl
@[simp] theorem setSysNow_fillRun (c : Core) (n : Nat) (v : Word) : (setSysNow c n v).fillRun = c.fillRun := rfl
@[simp] theorem setSysNow_copyQueue (c : Core) (n : Nat) (v : Word) : (setSysNow c n v).copyQueue = c.copyQueue := rfl
@[simp] theorem setSysNow_copyRun (c : Core) (n : Nat) (v : Word) : (setSysNow c n v).copyRun = c.copyRun := rfl
@[simp] theorem setSysNow_nearOld (c : Core) (n : Nat) (v : Word) : (setSysNow c n v).nearOld = c.nearOld := rfl
@[simp] theorem setSysNow_rowOps (c : Core) (n : Nat) (v : Word) : (setSysNow c n v).rowOps = c.rowOps := rfl
@[simp] theorem setSysNow_l1 (c : Core) (n : Nat) (v : Word) : (setSysNow c n v).l1 = c.l1 := rfl
@[simp] theorem setSysNow_tlb (c : Core) (n : Nat) (v : Word) : (setSysNow c n v).tlb = c.tlb := rfl
@[simp] theorem setSysNow_walkFail (c : Core) (n : Nat) (v : Word) : (setSysNow c n v).walkFail = c.walkFail := rfl
@[simp] theorem setSysNow_log (c : Core) (n : Nat) (v : Word) : (setSysNow c n v).log = c.log := rfl
@[simp] theorem setSysNow_clock (c : Core) (n : Nat) (v : Word) : (setSysNow c n v).clock = c.clock := rfl
@[simp] theorem setSysNow_moment (c : Core) (n : Nat) (v : Word) : (setSysNow c n v).moment = c.moment := rfl
@[simp] theorem setSysNow_known (c : Core) (n : Nat) (v : Word) : (setSysNow c n v).known = c.known := rfl
@[simp] theorem setSysNow_pubs (c : Core) (n : Nat) (v : Word) : (setSysNow c n v).pubs = c.pubs := rfl
@[simp] theorem setSysNow_replay (c : Core) (n : Nat) (v : Word) : (setSysNow c n v).replay = c.replay := rfl
@[simp] theorem setSysNow_orderWaits (c : Core) (n : Nat) (v : Word) : (setSysNow c n v).orderWaits = c.orderWaits := rfl
@[simp] theorem setSysNow_flying (c : Core) (n : Nat) (v : Word) : (setSysNow c n v).flying = c.flying := rfl
@[simp] theorem setSysNow_lostStores (c : Core) (n : Nat) (v : Word) : (setSysNow c n v).lostStores = c.lostStores := rfl
@[simp] theorem setSysNow_stripe (c : Core) (n : Nat) (v : Word) : (setSysNow c n v).stripe = c.stripe := rfl
@[simp] theorem setSysNow_wQueue (c : Core) (n : Nat) (v : Word) : (setSysNow c n v).wQueue = c.wQueue := rfl
@[simp] theorem setSysNow_wSlack (c : Core) (n : Nat) (v : Word) : (setSysNow c n v).wSlack = c.wSlack := rfl
@[simp] theorem setSysNow_call (c : Core) (n : Nat) (v : Word) : (setSysNow c n v).call = c.call := rfl
@[simp] theorem setSysNow_codeBuffer (c : Core) (n : Nat) (v : Word) : (setSysNow c n v).codeBuffer = c.codeBuffer := rfl
@[simp] theorem setSysNow_codeRequests (c : Core) (n : Nat) (v : Word) : (setSysNow c n v).codeRequests = c.codeRequests := rfl
@[simp] theorem setSysNow_bufferRequests (c : Core) (n : Nat) (v : Word) : (setSysNow c n v).bufferRequests = c.bufferRequests := rfl
@[simp] theorem setSysNow_leaseOpen (c : Core) (n : Nat) (v : Word) : (setSysNow c n v).leaseOpen = c.leaseOpen := rfl
@[simp] theorem setSysNow_leaseClass (c : Core) (n : Nat) (v : Word) : (setSysNow c n v).leaseClass = c.leaseClass := rfl
@[simp] theorem setSysNow_leaseQueue (c : Core) (n : Nat) (v : Word) : (setSysNow c n v).leaseQueue = c.leaseQueue := rfl
@[simp] theorem setSysNow_lrels (c : Core) (n : Nat) (v : Word) : (setSysNow c n v).lrels = c.lrels := rfl
@[simp] theorem setSysNow_leaseOwed (c : Core) (n : Nat) (v : Word) : (setSysNow c n v).leaseOwed = c.leaseOwed := rfl
@[simp] theorem setSysNow_deps (c : Core) (n : Nat) (v : Word) : (setSysNow c n v).deps = c.deps := rfl
@[simp] theorem setSysNow_noRollback (c : Core) (n : Nat) (v : Word) : (setSysNow c n v).noRollback = c.noRollback := rfl
@[simp] theorem setSysNow_rollback (c : Core) (n : Nat) (v : Word) : (setSysNow c n v).rollback = c.rollback := rfl
@[simp] theorem setSysNow_rollbackPc (c : Core) (n : Nat) (v : Word) : (setSysNow c n v).rollbackPc = c.rollbackPc := rfl
@[simp] theorem setSysNow_haltAsked (c : Core) (n : Nat) (v : Word) : (setSysNow c n v).haltAsked = c.haltAsked := rfl
@[simp] theorem setSysNow_parked (c : Core) (n : Nat) (v : Word) : (setSysNow c n v).parked = c.parked := rfl
@[simp] theorem setSysNow_parkedAt (c : Core) (n : Nat) (v : Word) : (setSysNow c n v).parkedAt = c.parkedAt := rfl
@[simp] theorem setSysNow_arrived (c : Core) (n : Nat) (v : Word) : (setSysNow c n v).arrived = c.arrived := rfl
@[simp] theorem setSysNow_loaded (c : Core) (n : Nat) (v : Word) : (setSysNow c n v).loaded = c.loaded := rfl
@[simp] theorem setSysNow_engMarks (c : Core) (n : Nat) (v : Word) : (setSysNow c n v).engMarks = c.engMarks := rfl
@[simp] theorem setSysNow_badCmds (c : Core) (n : Nat) (v : Word) : (setSysNow c n v).badCmds = c.badCmds := rfl
@[simp] theorem setSysNow_fecQuiet (c : Core) (n : Nat) (v : Word) : (setSysNow c n v).fecQuiet = c.fecQuiet := rfl
@[simp] theorem setSysNow_fecCrossed (c : Core) (n : Nat) (v : Word) : (setSysNow c n v).fecCrossed = c.fecCrossed := rfl

/-! ### A token queue -/

@[simp] theorem setQueue_ctx (c : Core) (k : Nat) (q : TokenQueue) : (setQueue c k q).ctx = c.ctx := rfl
@[simp] theorem setQueue_task (c : Core) (k : Nat) (q : TokenQueue) : (setQueue c k q).task = c.task := rfl
@[simp] theorem setQueue_running (c : Core) (k : Nat) (q : TokenQueue) : (setQueue c k q).running = c.running := rfl
@[simp] theorem setQueue_ck (c : Core) (k : Nat) (q : TokenQueue) : (setQueue c k q).ck = c.ck := rfl
@[simp] theorem setQueue_frozen (c : Core) (k : Nat) (q : TokenQueue) : (setQueue c k q).frozen = c.frozen := rfl
@[simp] theorem setQueue_starved (c : Core) (k : Nat) (q : TokenQueue) : (setQueue c k q).starved = c.starved := rfl
@[simp] theorem setQueue_lagging (c : Core) (k : Nat) (q : TokenQueue) : (setQueue c k q).lagging = c.lagging := rfl
@[simp] theorem setQueue_g (c : Core) (k : Nat) (q : TokenQueue) : (setQueue c k q).g = c.g := rfl
@[simp] theorem setQueue_gTurn (c : Core) (k : Nat) (q : TokenQueue) : (setQueue c k q).gTurn = c.gTurn := rfl
@[simp] theorem setQueue_cells (c : Core) (k : Nat) (q : TokenQueue) : (setQueue c k q).cells = c.cells := rfl
@[simp] theorem setQueue_near (c : Core) (k : Nat) (q : TokenQueue) : (setQueue c k q).near = c.near := rfl
@[simp] theorem setQueue_attic (c : Core) (k : Nat) (q : TokenQueue) : (setQueue c k q).attic = c.attic := rfl
@[simp] theorem setQueue_atticPoison (c : Core) (k : Nat) (q : TokenQueue) : (setQueue c k q).atticPoison = c.atticPoison := rfl
@[simp] theorem setQueue_acc (c : Core) (k : Nat) (q : TokenQueue) : (setQueue c k q).acc = c.acc := rfl
@[simp] theorem setQueue_accPoison (c : Core) (k : Nat) (q : TokenQueue) : (setQueue c k q).accPoison = c.accPoison := rfl
@[simp] theorem setQueue_slots (c : Core) (k : Nat) (q : TokenQueue) : (setQueue c k q).slots = c.slots := rfl
@[simp] theorem setQueue_slotPoison (c : Core) (k : Nat) (q : TokenQueue) : (setQueue c k q).slotPoison = c.slotPoison := rfl
@[simp] theorem setQueue_bank (c : Core) (k : Nat) (q : TokenQueue) : (setQueue c k q).bank = c.bank := rfl
@[simp] theorem setQueue_bankPoison (c : Core) (k : Nat) (q : TokenQueue) : (setQueue c k q).bankPoison = c.bankPoison := rfl
@[simp] theorem setQueue_sys (c : Core) (k : Nat) (q : TokenQueue) : (setQueue c k q).sys = c.sys := rfl
@[simp] theorem setQueue_kregs (c : Core) (k : Nat) (q : TokenQueue) : (setQueue c k q).kregs = c.kregs := rfl
@[simp] theorem setQueue_kMarks (c : Core) (k : Nat) (q : TokenQueue) : (setQueue c k q).kMarks = c.kMarks := rfl
@[simp] theorem setQueue_engC (c : Core) (k : Nat) (q : TokenQueue) : (setQueue c k q).engC = c.engC := rfl
@[simp] theorem setQueue_engA (c : Core) (k : Nat) (q : TokenQueue) : (setQueue c k q).engA = c.engA := rfl
@[simp] theorem setQueue_engV (c : Core) (k : Nat) (q : TokenQueue) : (setQueue c k q).engV = c.engV := rfl
@[simp] theorem setQueue_engW (c : Core) (k : Nat) (q : TokenQueue) : (setQueue c k q).engW = c.engW := rfl
@[simp] theorem setQueue_tokens (c : Core) (k : Nat) (q : TokenQueue) : (setQueue c k q).tokens = place {} c.tokens k q := rfl
@[simp] theorem setQueue_outcomes (c : Core) (k : Nat) (q : TokenQueue) : (setQueue c k q).outcomes = c.outcomes := rfl
@[simp] theorem setQueue_landing (c : Core) (k : Nat) (q : TokenQueue) : (setQueue c k q).landing = c.landing := rfl
@[simp] theorem setQueue_leaving (c : Core) (k : Nat) (q : TokenQueue) : (setQueue c k q).leaving = c.leaving := rfl
@[simp] theorem setQueue_haltAt (c : Core) (k : Nat) (q : TokenQueue) : (setQueue c k q).haltAt = c.haltAt := rfl
@[simp] theorem setQueue_holder (c : Core) (k : Nat) (q : TokenQueue) : (setQueue c k q).holder = c.holder := rfl
@[simp] theorem setQueue_switched (c : Core) (k : Nat) (q : TokenQueue) : (setQueue c k q).switched = c.switched := rfl
@[simp] theorem setQueue_heard (c : Core) (k : Nat) (q : TokenQueue) : (setQueue c k q).heard = c.heard := rfl
@[simp] theorem setQueue_slipOld (c : Core) (k : Nat) (q : TokenQueue) : (setQueue c k q).slipOld = c.slipOld := rfl
@[simp] theorem setQueue_spillStall (c : Core) (k : Nat) (q : TokenQueue) : (setQueue c k q).spillStall = c.spillStall := rfl
@[simp] theorem setQueue_mstPlaces (c : Core) (k : Nat) (q : TokenQueue) : (setQueue c k q).mstPlaces = c.mstPlaces := rfl
@[simp] theorem setQueue_probeLag (c : Core) (k : Nat) (q : TokenQueue) : (setQueue c k q).probeLag = c.probeLag := rfl
@[simp] theorem setQueue_trapFrame (c : Core) (k : Nat) (q : TokenQueue) : (setQueue c k q).trapFrame = c.trapFrame := rfl
@[simp] theorem setQueue_raised (c : Core) (k : Nat) (q : TokenQueue) : (setQueue c k q).raised = c.raised := rfl
@[simp] theorem setQueue_portFree (c : Core) (k : Nat) (q : TokenQueue) : (setQueue c k q).portFree = c.portFree := rfl
@[simp] theorem setQueue_nextId (c : Core) (k : Nat) (q : TokenQueue) : (setQueue c k q).nextId = c.nextId := rfl
@[simp] theorem setQueue_prcfgWait (c : Core) (k : Nat) (q : TokenQueue) : (setQueue c k q).prcfgWait = c.prcfgWait := rfl
@[simp] theorem setQueue_probeTags (c : Core) (k : Nat) (q : TokenQueue) : (setQueue c k q).probeTags = c.probeTags := rfl
@[simp] theorem setQueue_pushedOut (c : Core) (k : Nat) (q : TokenQueue) : (setQueue c k q).pushedOut = c.pushedOut := rfl
@[simp] theorem setQueue_fillQueue (c : Core) (k : Nat) (q : TokenQueue) : (setQueue c k q).fillQueue = c.fillQueue := rfl
@[simp] theorem setQueue_fillRun (c : Core) (k : Nat) (q : TokenQueue) : (setQueue c k q).fillRun = c.fillRun := rfl
@[simp] theorem setQueue_copyQueue (c : Core) (k : Nat) (q : TokenQueue) : (setQueue c k q).copyQueue = c.copyQueue := rfl
@[simp] theorem setQueue_copyRun (c : Core) (k : Nat) (q : TokenQueue) : (setQueue c k q).copyRun = c.copyRun := rfl
@[simp] theorem setQueue_nearOld (c : Core) (k : Nat) (q : TokenQueue) : (setQueue c k q).nearOld = c.nearOld := rfl
@[simp] theorem setQueue_rowOps (c : Core) (k : Nat) (q : TokenQueue) : (setQueue c k q).rowOps = c.rowOps := rfl
@[simp] theorem setQueue_l1 (c : Core) (k : Nat) (q : TokenQueue) : (setQueue c k q).l1 = c.l1 := rfl
@[simp] theorem setQueue_tlb (c : Core) (k : Nat) (q : TokenQueue) : (setQueue c k q).tlb = c.tlb := rfl
@[simp] theorem setQueue_walkFail (c : Core) (k : Nat) (q : TokenQueue) : (setQueue c k q).walkFail = c.walkFail := rfl
@[simp] theorem setQueue_log (c : Core) (k : Nat) (q : TokenQueue) : (setQueue c k q).log = c.log := rfl
@[simp] theorem setQueue_clock (c : Core) (k : Nat) (q : TokenQueue) : (setQueue c k q).clock = c.clock := rfl
@[simp] theorem setQueue_moment (c : Core) (k : Nat) (q : TokenQueue) : (setQueue c k q).moment = c.moment := rfl
@[simp] theorem setQueue_known (c : Core) (k : Nat) (q : TokenQueue) : (setQueue c k q).known = c.known := rfl
@[simp] theorem setQueue_pubs (c : Core) (k : Nat) (q : TokenQueue) : (setQueue c k q).pubs = c.pubs := rfl
@[simp] theorem setQueue_replay (c : Core) (k : Nat) (q : TokenQueue) : (setQueue c k q).replay = c.replay := rfl
@[simp] theorem setQueue_orderWaits (c : Core) (k : Nat) (q : TokenQueue) : (setQueue c k q).orderWaits = c.orderWaits := rfl
@[simp] theorem setQueue_flying (c : Core) (k : Nat) (q : TokenQueue) : (setQueue c k q).flying = c.flying := rfl
@[simp] theorem setQueue_lostStores (c : Core) (k : Nat) (q : TokenQueue) : (setQueue c k q).lostStores = c.lostStores := rfl
@[simp] theorem setQueue_stripe (c : Core) (k : Nat) (q : TokenQueue) : (setQueue c k q).stripe = c.stripe := rfl
@[simp] theorem setQueue_wQueue (c : Core) (k : Nat) (q : TokenQueue) : (setQueue c k q).wQueue = c.wQueue := rfl
@[simp] theorem setQueue_wSlack (c : Core) (k : Nat) (q : TokenQueue) : (setQueue c k q).wSlack = c.wSlack := rfl
@[simp] theorem setQueue_call (c : Core) (k : Nat) (q : TokenQueue) : (setQueue c k q).call = c.call := rfl
@[simp] theorem setQueue_codeBuffer (c : Core) (k : Nat) (q : TokenQueue) : (setQueue c k q).codeBuffer = c.codeBuffer := rfl
@[simp] theorem setQueue_codeRequests (c : Core) (k : Nat) (q : TokenQueue) : (setQueue c k q).codeRequests = c.codeRequests := rfl
@[simp] theorem setQueue_bufferRequests (c : Core) (k : Nat) (q : TokenQueue) : (setQueue c k q).bufferRequests = c.bufferRequests := rfl
@[simp] theorem setQueue_leaseOpen (c : Core) (k : Nat) (q : TokenQueue) : (setQueue c k q).leaseOpen = c.leaseOpen := rfl
@[simp] theorem setQueue_leaseClass (c : Core) (k : Nat) (q : TokenQueue) : (setQueue c k q).leaseClass = c.leaseClass := rfl
@[simp] theorem setQueue_leaseQueue (c : Core) (k : Nat) (q : TokenQueue) : (setQueue c k q).leaseQueue = c.leaseQueue := rfl
@[simp] theorem setQueue_lrels (c : Core) (k : Nat) (q : TokenQueue) : (setQueue c k q).lrels = c.lrels := rfl
@[simp] theorem setQueue_leaseOwed (c : Core) (k : Nat) (q : TokenQueue) : (setQueue c k q).leaseOwed = c.leaseOwed := rfl
@[simp] theorem setQueue_deps (c : Core) (k : Nat) (q : TokenQueue) : (setQueue c k q).deps = c.deps := rfl
@[simp] theorem setQueue_noRollback (c : Core) (k : Nat) (q : TokenQueue) : (setQueue c k q).noRollback = c.noRollback := rfl
@[simp] theorem setQueue_rollback (c : Core) (k : Nat) (q : TokenQueue) : (setQueue c k q).rollback = c.rollback := rfl
@[simp] theorem setQueue_rollbackPc (c : Core) (k : Nat) (q : TokenQueue) : (setQueue c k q).rollbackPc = c.rollbackPc := rfl
@[simp] theorem setQueue_haltAsked (c : Core) (k : Nat) (q : TokenQueue) : (setQueue c k q).haltAsked = c.haltAsked := rfl
@[simp] theorem setQueue_parked (c : Core) (k : Nat) (q : TokenQueue) : (setQueue c k q).parked = c.parked := rfl
@[simp] theorem setQueue_parkedAt (c : Core) (k : Nat) (q : TokenQueue) : (setQueue c k q).parkedAt = c.parkedAt := rfl
@[simp] theorem setQueue_arrived (c : Core) (k : Nat) (q : TokenQueue) : (setQueue c k q).arrived = c.arrived := rfl
@[simp] theorem setQueue_loaded (c : Core) (k : Nat) (q : TokenQueue) : (setQueue c k q).loaded = c.loaded := rfl
@[simp] theorem setQueue_engMarks (c : Core) (k : Nat) (q : TokenQueue) : (setQueue c k q).engMarks = c.engMarks := rfl
@[simp] theorem setQueue_badCmds (c : Core) (k : Nat) (q : TokenQueue) : (setQueue c k q).badCmds = c.badCmds := rfl
@[simp] theorem setQueue_fecQuiet (c : Core) (k : Nat) (q : TokenQueue) : (setQueue c k q).fecQuiet = c.fecQuiet := rfl
@[simp] theorem setQueue_fecCrossed (c : Core) (k : Nat) (q : TokenQueue) : (setQueue c k q).fecCrossed = c.fecCrossed := rfl

/-! ### A result in flight -/

@[simp] theorem addLanding_ctx (c : Core) (l : Landing) : (addLanding c l).ctx = c.ctx := rfl
@[simp] theorem addLanding_task (c : Core) (l : Landing) : (addLanding c l).task = c.task := rfl
@[simp] theorem addLanding_running (c : Core) (l : Landing) : (addLanding c l).running = c.running := rfl
@[simp] theorem addLanding_ck (c : Core) (l : Landing) : (addLanding c l).ck = c.ck := rfl
@[simp] theorem addLanding_frozen (c : Core) (l : Landing) : (addLanding c l).frozen = c.frozen := rfl
@[simp] theorem addLanding_starved (c : Core) (l : Landing) : (addLanding c l).starved = c.starved := rfl
@[simp] theorem addLanding_lagging (c : Core) (l : Landing) : (addLanding c l).lagging = c.lagging := rfl
@[simp] theorem addLanding_g (c : Core) (l : Landing) : (addLanding c l).g = c.g := rfl
@[simp] theorem addLanding_gTurn (c : Core) (l : Landing) : (addLanding c l).gTurn = c.gTurn := rfl
@[simp] theorem addLanding_cells (c : Core) (l : Landing) : (addLanding c l).cells = c.cells := rfl
@[simp] theorem addLanding_near (c : Core) (l : Landing) : (addLanding c l).near = c.near := rfl
@[simp] theorem addLanding_attic (c : Core) (l : Landing) : (addLanding c l).attic = c.attic := rfl
@[simp] theorem addLanding_atticPoison (c : Core) (l : Landing) : (addLanding c l).atticPoison = c.atticPoison := rfl
@[simp] theorem addLanding_acc (c : Core) (l : Landing) : (addLanding c l).acc = c.acc := rfl
@[simp] theorem addLanding_accPoison (c : Core) (l : Landing) : (addLanding c l).accPoison = c.accPoison := rfl
@[simp] theorem addLanding_slots (c : Core) (l : Landing) : (addLanding c l).slots = c.slots := rfl
@[simp] theorem addLanding_slotPoison (c : Core) (l : Landing) : (addLanding c l).slotPoison = c.slotPoison := rfl
@[simp] theorem addLanding_bank (c : Core) (l : Landing) : (addLanding c l).bank = c.bank := rfl
@[simp] theorem addLanding_bankPoison (c : Core) (l : Landing) : (addLanding c l).bankPoison = c.bankPoison := rfl
@[simp] theorem addLanding_sys (c : Core) (l : Landing) : (addLanding c l).sys = c.sys := rfl
@[simp] theorem addLanding_kregs (c : Core) (l : Landing) : (addLanding c l).kregs = c.kregs := rfl
@[simp] theorem addLanding_kMarks (c : Core) (l : Landing) : (addLanding c l).kMarks = c.kMarks := rfl
@[simp] theorem addLanding_engC (c : Core) (l : Landing) : (addLanding c l).engC = c.engC := rfl
@[simp] theorem addLanding_engA (c : Core) (l : Landing) : (addLanding c l).engA = c.engA := rfl
@[simp] theorem addLanding_engV (c : Core) (l : Landing) : (addLanding c l).engV = c.engV := rfl
@[simp] theorem addLanding_engW (c : Core) (l : Landing) : (addLanding c l).engW = c.engW := rfl
@[simp] theorem addLanding_tokens (c : Core) (l : Landing) : (addLanding c l).tokens = c.tokens := rfl
@[simp] theorem addLanding_outcomes (c : Core) (l : Landing) : (addLanding c l).outcomes = c.outcomes := rfl
@[simp] theorem addLanding_landing (c : Core) (l : Landing) : (addLanding c l).landing = c.landing ++ [l] := rfl
@[simp] theorem addLanding_leaving (c : Core) (l : Landing) : (addLanding c l).leaving = c.leaving := rfl
@[simp] theorem addLanding_haltAt (c : Core) (l : Landing) : (addLanding c l).haltAt = c.haltAt := rfl
@[simp] theorem addLanding_holder (c : Core) (l : Landing) : (addLanding c l).holder = c.holder := rfl
@[simp] theorem addLanding_switched (c : Core) (l : Landing) : (addLanding c l).switched = c.switched := rfl
@[simp] theorem addLanding_heard (c : Core) (l : Landing) : (addLanding c l).heard = c.heard := rfl
@[simp] theorem addLanding_slipOld (c : Core) (l : Landing) : (addLanding c l).slipOld = c.slipOld := rfl
@[simp] theorem addLanding_spillStall (c : Core) (l : Landing) : (addLanding c l).spillStall = c.spillStall := rfl
@[simp] theorem addLanding_mstPlaces (c : Core) (l : Landing) : (addLanding c l).mstPlaces = c.mstPlaces := rfl
@[simp] theorem addLanding_probeLag (c : Core) (l : Landing) : (addLanding c l).probeLag = c.probeLag := rfl
@[simp] theorem addLanding_trapFrame (c : Core) (l : Landing) : (addLanding c l).trapFrame = c.trapFrame := rfl
@[simp] theorem addLanding_raised (c : Core) (l : Landing) : (addLanding c l).raised = c.raised := rfl
@[simp] theorem addLanding_portFree (c : Core) (l : Landing) : (addLanding c l).portFree = c.portFree := rfl
@[simp] theorem addLanding_nextId (c : Core) (l : Landing) : (addLanding c l).nextId = c.nextId := rfl
@[simp] theorem addLanding_prcfgWait (c : Core) (l : Landing) : (addLanding c l).prcfgWait = c.prcfgWait := rfl
@[simp] theorem addLanding_probeTags (c : Core) (l : Landing) : (addLanding c l).probeTags = c.probeTags := rfl
@[simp] theorem addLanding_pushedOut (c : Core) (l : Landing) : (addLanding c l).pushedOut = c.pushedOut := rfl
@[simp] theorem addLanding_fillQueue (c : Core) (l : Landing) : (addLanding c l).fillQueue = c.fillQueue := rfl
@[simp] theorem addLanding_fillRun (c : Core) (l : Landing) : (addLanding c l).fillRun = c.fillRun := rfl
@[simp] theorem addLanding_copyQueue (c : Core) (l : Landing) : (addLanding c l).copyQueue = c.copyQueue := rfl
@[simp] theorem addLanding_copyRun (c : Core) (l : Landing) : (addLanding c l).copyRun = c.copyRun := rfl
@[simp] theorem addLanding_nearOld (c : Core) (l : Landing) : (addLanding c l).nearOld = c.nearOld := rfl
@[simp] theorem addLanding_rowOps (c : Core) (l : Landing) : (addLanding c l).rowOps = c.rowOps := rfl
@[simp] theorem addLanding_l1 (c : Core) (l : Landing) : (addLanding c l).l1 = c.l1 := rfl
@[simp] theorem addLanding_tlb (c : Core) (l : Landing) : (addLanding c l).tlb = c.tlb := rfl
@[simp] theorem addLanding_walkFail (c : Core) (l : Landing) : (addLanding c l).walkFail = c.walkFail := rfl
@[simp] theorem addLanding_log (c : Core) (l : Landing) : (addLanding c l).log = c.log := rfl
@[simp] theorem addLanding_clock (c : Core) (l : Landing) : (addLanding c l).clock = c.clock := rfl
@[simp] theorem addLanding_moment (c : Core) (l : Landing) : (addLanding c l).moment = c.moment := rfl
@[simp] theorem addLanding_known (c : Core) (l : Landing) : (addLanding c l).known = c.known := rfl
@[simp] theorem addLanding_pubs (c : Core) (l : Landing) : (addLanding c l).pubs = c.pubs := rfl
@[simp] theorem addLanding_replay (c : Core) (l : Landing) : (addLanding c l).replay = c.replay := rfl
@[simp] theorem addLanding_orderWaits (c : Core) (l : Landing) : (addLanding c l).orderWaits = c.orderWaits := rfl
@[simp] theorem addLanding_flying (c : Core) (l : Landing) : (addLanding c l).flying = c.flying := rfl
@[simp] theorem addLanding_lostStores (c : Core) (l : Landing) : (addLanding c l).lostStores = c.lostStores := rfl
@[simp] theorem addLanding_stripe (c : Core) (l : Landing) : (addLanding c l).stripe = c.stripe := rfl
@[simp] theorem addLanding_wQueue (c : Core) (l : Landing) : (addLanding c l).wQueue = c.wQueue := rfl
@[simp] theorem addLanding_wSlack (c : Core) (l : Landing) : (addLanding c l).wSlack = c.wSlack := rfl
@[simp] theorem addLanding_call (c : Core) (l : Landing) : (addLanding c l).call = c.call := rfl
@[simp] theorem addLanding_codeBuffer (c : Core) (l : Landing) : (addLanding c l).codeBuffer = c.codeBuffer := rfl
@[simp] theorem addLanding_codeRequests (c : Core) (l : Landing) : (addLanding c l).codeRequests = c.codeRequests := rfl
@[simp] theorem addLanding_bufferRequests (c : Core) (l : Landing) : (addLanding c l).bufferRequests = c.bufferRequests := rfl
@[simp] theorem addLanding_leaseOpen (c : Core) (l : Landing) : (addLanding c l).leaseOpen = c.leaseOpen := rfl
@[simp] theorem addLanding_leaseClass (c : Core) (l : Landing) : (addLanding c l).leaseClass = c.leaseClass := rfl
@[simp] theorem addLanding_leaseQueue (c : Core) (l : Landing) : (addLanding c l).leaseQueue = c.leaseQueue := rfl
@[simp] theorem addLanding_lrels (c : Core) (l : Landing) : (addLanding c l).lrels = c.lrels := rfl
@[simp] theorem addLanding_leaseOwed (c : Core) (l : Landing) : (addLanding c l).leaseOwed = c.leaseOwed := rfl
@[simp] theorem addLanding_deps (c : Core) (l : Landing) : (addLanding c l).deps = c.deps := rfl
@[simp] theorem addLanding_noRollback (c : Core) (l : Landing) : (addLanding c l).noRollback = c.noRollback := rfl
@[simp] theorem addLanding_rollback (c : Core) (l : Landing) : (addLanding c l).rollback = c.rollback := rfl
@[simp] theorem addLanding_rollbackPc (c : Core) (l : Landing) : (addLanding c l).rollbackPc = c.rollbackPc := rfl
@[simp] theorem addLanding_haltAsked (c : Core) (l : Landing) : (addLanding c l).haltAsked = c.haltAsked := rfl
@[simp] theorem addLanding_parked (c : Core) (l : Landing) : (addLanding c l).parked = c.parked := rfl
@[simp] theorem addLanding_parkedAt (c : Core) (l : Landing) : (addLanding c l).parkedAt = c.parkedAt := rfl
@[simp] theorem addLanding_arrived (c : Core) (l : Landing) : (addLanding c l).arrived = c.arrived := rfl
@[simp] theorem addLanding_loaded (c : Core) (l : Landing) : (addLanding c l).loaded = c.loaded := rfl
@[simp] theorem addLanding_engMarks (c : Core) (l : Landing) : (addLanding c l).engMarks = c.engMarks := rfl
@[simp] theorem addLanding_badCmds (c : Core) (l : Landing) : (addLanding c l).badCmds = c.badCmds := rfl
@[simp] theorem addLanding_fecQuiet (c : Core) (l : Landing) : (addLanding c l).fecQuiet = c.fecQuiet := rfl
@[simp] theorem addLanding_fecCrossed (c : Core) (l : Landing) : (addLanding c l).fecCrossed = c.fecCrossed := rfl

/-! ### An engine of a core -/

@[simp] theorem setEng_ctx (c : Core) (e : Eng) (x : Engine) : (c.setEng e x).ctx = c.ctx := by cases e <;> rfl
@[simp] theorem setEng_task (c : Core) (e : Eng) (x : Engine) : (c.setEng e x).task = c.task := by cases e <;> rfl
@[simp] theorem setEng_running (c : Core) (e : Eng) (x : Engine) : (c.setEng e x).running = c.running := by cases e <;> rfl
@[simp] theorem setEng_ck (c : Core) (e : Eng) (x : Engine) : (c.setEng e x).ck = c.ck := by cases e <;> rfl
@[simp] theorem setEng_frozen (c : Core) (e : Eng) (x : Engine) : (c.setEng e x).frozen = c.frozen := by cases e <;> rfl
@[simp] theorem setEng_starved (c : Core) (e : Eng) (x : Engine) : (c.setEng e x).starved = c.starved := by cases e <;> rfl
@[simp] theorem setEng_lagging (c : Core) (e : Eng) (x : Engine) : (c.setEng e x).lagging = c.lagging := by cases e <;> rfl
@[simp] theorem setEng_g (c : Core) (e : Eng) (x : Engine) : (c.setEng e x).g = c.g := by cases e <;> rfl
@[simp] theorem setEng_gTurn (c : Core) (e : Eng) (x : Engine) : (c.setEng e x).gTurn = c.gTurn := by cases e <;> rfl
@[simp] theorem setEng_cells (c : Core) (e : Eng) (x : Engine) : (c.setEng e x).cells = c.cells := by cases e <;> rfl
@[simp] theorem setEng_near (c : Core) (e : Eng) (x : Engine) : (c.setEng e x).near = c.near := by cases e <;> rfl
@[simp] theorem setEng_attic (c : Core) (e : Eng) (x : Engine) : (c.setEng e x).attic = c.attic := by cases e <;> rfl
@[simp] theorem setEng_atticPoison (c : Core) (e : Eng) (x : Engine) : (c.setEng e x).atticPoison = c.atticPoison := by cases e <;> rfl
@[simp] theorem setEng_acc (c : Core) (e : Eng) (x : Engine) : (c.setEng e x).acc = c.acc := by cases e <;> rfl
@[simp] theorem setEng_accPoison (c : Core) (e : Eng) (x : Engine) : (c.setEng e x).accPoison = c.accPoison := by cases e <;> rfl
@[simp] theorem setEng_slots (c : Core) (e : Eng) (x : Engine) : (c.setEng e x).slots = c.slots := by cases e <;> rfl
@[simp] theorem setEng_slotPoison (c : Core) (e : Eng) (x : Engine) : (c.setEng e x).slotPoison = c.slotPoison := by cases e <;> rfl
@[simp] theorem setEng_bank (c : Core) (e : Eng) (x : Engine) : (c.setEng e x).bank = c.bank := by cases e <;> rfl
@[simp] theorem setEng_bankPoison (c : Core) (e : Eng) (x : Engine) : (c.setEng e x).bankPoison = c.bankPoison := by cases e <;> rfl
@[simp] theorem setEng_sys (c : Core) (e : Eng) (x : Engine) : (c.setEng e x).sys = c.sys := by cases e <;> rfl
@[simp] theorem setEng_kregs (c : Core) (e : Eng) (x : Engine) : (c.setEng e x).kregs = c.kregs := by cases e <;> rfl
@[simp] theorem setEng_kMarks (c : Core) (e : Eng) (x : Engine) : (c.setEng e x).kMarks = c.kMarks := by cases e <;> rfl
@[simp] theorem setEng_tokens (c : Core) (e : Eng) (x : Engine) : (c.setEng e x).tokens = c.tokens := by cases e <;> rfl
@[simp] theorem setEng_outcomes (c : Core) (e : Eng) (x : Engine) : (c.setEng e x).outcomes = c.outcomes := by cases e <;> rfl
@[simp] theorem setEng_landing (c : Core) (e : Eng) (x : Engine) : (c.setEng e x).landing = c.landing := by cases e <;> rfl
@[simp] theorem setEng_leaving (c : Core) (e : Eng) (x : Engine) : (c.setEng e x).leaving = c.leaving := by cases e <;> rfl
@[simp] theorem setEng_haltAt (c : Core) (e : Eng) (x : Engine) : (c.setEng e x).haltAt = c.haltAt := by cases e <;> rfl
@[simp] theorem setEng_holder (c : Core) (e : Eng) (x : Engine) : (c.setEng e x).holder = c.holder := by cases e <;> rfl
@[simp] theorem setEng_switched (c : Core) (e : Eng) (x : Engine) : (c.setEng e x).switched = c.switched := by cases e <;> rfl
@[simp] theorem setEng_heard (c : Core) (e : Eng) (x : Engine) : (c.setEng e x).heard = c.heard := by cases e <;> rfl
@[simp] theorem setEng_slipOld (c : Core) (e : Eng) (x : Engine) : (c.setEng e x).slipOld = c.slipOld := by cases e <;> rfl
@[simp] theorem setEng_spillStall (c : Core) (e : Eng) (x : Engine) : (c.setEng e x).spillStall = c.spillStall := by cases e <;> rfl
@[simp] theorem setEng_mstPlaces (c : Core) (e : Eng) (x : Engine) : (c.setEng e x).mstPlaces = c.mstPlaces := by cases e <;> rfl
@[simp] theorem setEng_probeLag (c : Core) (e : Eng) (x : Engine) : (c.setEng e x).probeLag = c.probeLag := by cases e <;> rfl
@[simp] theorem setEng_trapFrame (c : Core) (e : Eng) (x : Engine) : (c.setEng e x).trapFrame = c.trapFrame := by cases e <;> rfl
@[simp] theorem setEng_raised (c : Core) (e : Eng) (x : Engine) : (c.setEng e x).raised = c.raised := by cases e <;> rfl
@[simp] theorem setEng_portFree (c : Core) (e : Eng) (x : Engine) : (c.setEng e x).portFree = c.portFree := by cases e <;> rfl
@[simp] theorem setEng_nextId (c : Core) (e : Eng) (x : Engine) : (c.setEng e x).nextId = c.nextId := by cases e <;> rfl
@[simp] theorem setEng_prcfgWait (c : Core) (e : Eng) (x : Engine) : (c.setEng e x).prcfgWait = c.prcfgWait := by cases e <;> rfl
@[simp] theorem setEng_probeTags (c : Core) (e : Eng) (x : Engine) : (c.setEng e x).probeTags = c.probeTags := by cases e <;> rfl
@[simp] theorem setEng_pushedOut (c : Core) (e : Eng) (x : Engine) : (c.setEng e x).pushedOut = c.pushedOut := by cases e <;> rfl
@[simp] theorem setEng_fillQueue (c : Core) (e : Eng) (x : Engine) : (c.setEng e x).fillQueue = c.fillQueue := by cases e <;> rfl
@[simp] theorem setEng_fillRun (c : Core) (e : Eng) (x : Engine) : (c.setEng e x).fillRun = c.fillRun := by cases e <;> rfl
@[simp] theorem setEng_copyQueue (c : Core) (e : Eng) (x : Engine) : (c.setEng e x).copyQueue = c.copyQueue := by cases e <;> rfl
@[simp] theorem setEng_copyRun (c : Core) (e : Eng) (x : Engine) : (c.setEng e x).copyRun = c.copyRun := by cases e <;> rfl
@[simp] theorem setEng_nearOld (c : Core) (e : Eng) (x : Engine) : (c.setEng e x).nearOld = c.nearOld := by cases e <;> rfl
@[simp] theorem setEng_rowOps (c : Core) (e : Eng) (x : Engine) : (c.setEng e x).rowOps = c.rowOps := by cases e <;> rfl
@[simp] theorem setEng_l1 (c : Core) (e : Eng) (x : Engine) : (c.setEng e x).l1 = c.l1 := by cases e <;> rfl
@[simp] theorem setEng_tlb (c : Core) (e : Eng) (x : Engine) : (c.setEng e x).tlb = c.tlb := by cases e <;> rfl
@[simp] theorem setEng_walkFail (c : Core) (e : Eng) (x : Engine) : (c.setEng e x).walkFail = c.walkFail := by cases e <;> rfl
@[simp] theorem setEng_log (c : Core) (e : Eng) (x : Engine) : (c.setEng e x).log = c.log := by cases e <;> rfl
@[simp] theorem setEng_clock (c : Core) (e : Eng) (x : Engine) : (c.setEng e x).clock = c.clock := by cases e <;> rfl
@[simp] theorem setEng_moment (c : Core) (e : Eng) (x : Engine) : (c.setEng e x).moment = c.moment := by cases e <;> rfl
@[simp] theorem setEng_known (c : Core) (e : Eng) (x : Engine) : (c.setEng e x).known = c.known := by cases e <;> rfl
@[simp] theorem setEng_pubs (c : Core) (e : Eng) (x : Engine) : (c.setEng e x).pubs = c.pubs := by cases e <;> rfl
@[simp] theorem setEng_replay (c : Core) (e : Eng) (x : Engine) : (c.setEng e x).replay = c.replay := by cases e <;> rfl
@[simp] theorem setEng_orderWaits (c : Core) (e : Eng) (x : Engine) : (c.setEng e x).orderWaits = c.orderWaits := by cases e <;> rfl
@[simp] theorem setEng_flying (c : Core) (e : Eng) (x : Engine) : (c.setEng e x).flying = c.flying := by cases e <;> rfl
@[simp] theorem setEng_lostStores (c : Core) (e : Eng) (x : Engine) : (c.setEng e x).lostStores = c.lostStores := by cases e <;> rfl
@[simp] theorem setEng_stripe (c : Core) (e : Eng) (x : Engine) : (c.setEng e x).stripe = c.stripe := by cases e <;> rfl
@[simp] theorem setEng_wQueue (c : Core) (e : Eng) (x : Engine) : (c.setEng e x).wQueue = c.wQueue := by cases e <;> rfl
@[simp] theorem setEng_wSlack (c : Core) (e : Eng) (x : Engine) : (c.setEng e x).wSlack = c.wSlack := by cases e <;> rfl
@[simp] theorem setEng_call (c : Core) (e : Eng) (x : Engine) : (c.setEng e x).call = c.call := by cases e <;> rfl
@[simp] theorem setEng_codeBuffer (c : Core) (e : Eng) (x : Engine) : (c.setEng e x).codeBuffer = c.codeBuffer := by cases e <;> rfl
@[simp] theorem setEng_codeRequests (c : Core) (e : Eng) (x : Engine) : (c.setEng e x).codeRequests = c.codeRequests := by cases e <;> rfl
@[simp] theorem setEng_bufferRequests (c : Core) (e : Eng) (x : Engine) : (c.setEng e x).bufferRequests = c.bufferRequests := by cases e <;> rfl
@[simp] theorem setEng_leaseOpen (c : Core) (e : Eng) (x : Engine) : (c.setEng e x).leaseOpen = c.leaseOpen := by cases e <;> rfl
@[simp] theorem setEng_leaseClass (c : Core) (e : Eng) (x : Engine) : (c.setEng e x).leaseClass = c.leaseClass := by cases e <;> rfl
@[simp] theorem setEng_leaseQueue (c : Core) (e : Eng) (x : Engine) : (c.setEng e x).leaseQueue = c.leaseQueue := by cases e <;> rfl
@[simp] theorem setEng_lrels (c : Core) (e : Eng) (x : Engine) : (c.setEng e x).lrels = c.lrels := by cases e <;> rfl
@[simp] theorem setEng_leaseOwed (c : Core) (e : Eng) (x : Engine) : (c.setEng e x).leaseOwed = c.leaseOwed := by cases e <;> rfl
@[simp] theorem setEng_deps (c : Core) (e : Eng) (x : Engine) : (c.setEng e x).deps = c.deps := by cases e <;> rfl
@[simp] theorem setEng_noRollback (c : Core) (e : Eng) (x : Engine) : (c.setEng e x).noRollback = c.noRollback := by cases e <;> rfl
@[simp] theorem setEng_rollback (c : Core) (e : Eng) (x : Engine) : (c.setEng e x).rollback = c.rollback := by cases e <;> rfl
@[simp] theorem setEng_rollbackPc (c : Core) (e : Eng) (x : Engine) : (c.setEng e x).rollbackPc = c.rollbackPc := by cases e <;> rfl
@[simp] theorem setEng_haltAsked (c : Core) (e : Eng) (x : Engine) : (c.setEng e x).haltAsked = c.haltAsked := by cases e <;> rfl
@[simp] theorem setEng_parked (c : Core) (e : Eng) (x : Engine) : (c.setEng e x).parked = c.parked := by cases e <;> rfl
@[simp] theorem setEng_parkedAt (c : Core) (e : Eng) (x : Engine) : (c.setEng e x).parkedAt = c.parkedAt := by cases e <;> rfl
@[simp] theorem setEng_arrived (c : Core) (e : Eng) (x : Engine) : (c.setEng e x).arrived = c.arrived := by cases e <;> rfl
@[simp] theorem setEng_loaded (c : Core) (e : Eng) (x : Engine) : (c.setEng e x).loaded = c.loaded := by cases e <;> rfl
@[simp] theorem setEng_engMarks (c : Core) (e : Eng) (x : Engine) : (c.setEng e x).engMarks = c.engMarks := by cases e <;> rfl
@[simp] theorem setEng_badCmds (c : Core) (e : Eng) (x : Engine) : (c.setEng e x).badCmds = c.badCmds := by cases e <;> rfl
@[simp] theorem setEng_fecQuiet (c : Core) (e : Eng) (x : Engine) : (c.setEng e x).fecQuiet = c.fecQuiet := by cases e <;> rfl
@[simp] theorem setEng_fecCrossed (c : Core) (e : Eng) (x : Engine) : (c.setEng e x).fecCrossed = c.fecCrossed := by cases e <;> rfl

end Sys2Proof.Machine
end

