-- ==== Sys2Proof/Laws/Tables.lean ====
section
/-!
SUPPORT. Laws of the sparse tables: what an entry reads as after one is placed, and that the form of a table is kept.
-/
namespace Sys2Proof.Machine

@[simp] theorem look_nil {α : Type} (d : α) (k : Nat) : look d [] k = d := rfl

theorem look_of_lt_head {α : Type} (d : α) (m : Sparse α) (k : Nat) (h : ∀ e ∈ m.head?, k < e.1) : look d m k = d := by
  cases m with
  | nil => rfl
  | cons e m =>
    have : k < e.1 := h e (by simp)
    obtain ⟨j, w⟩ := e
    simp only [look]
    rw [if_neg (by simp at this; omega), if_pos this]

theorem look_dropWhile {α : Type} (d : α) (m : Sparse α) (k j : Nat) (h : k < j) :
    look d (m.dropWhile (fun e => decide (e.1 ≤ k))) j = look d m j := by
  induction m with
  | nil => rfl
  | cons e m ih =>
    obtain ⟨i, w⟩ := e
    by_cases hi : i ≤ k
    · simp only [List.dropWhile_cons, hi, decide_true, if_true]
      rw [ih]
      simp only [look]
      rw [if_neg (by omega), if_neg (by omega)]
    · simp [hi]

theorem look_dropWhile_le {α : Type} (d : α) (m : Sparse α) (k j : Nat) (h : j ≤ k) :
    look d (m.dropWhile (fun e => decide (e.1 ≤ k))) j = d := by
  induction m with
  | nil => rfl
  | cons e m ih =>
    obtain ⟨i, w⟩ := e
    by_cases hi : i ≤ k
    · simpa [List.dropWhile_cons, hi] using ih
    · simp only [List.dropWhile_cons, hi, decide_false, Bool.false_eq_true, if_false]
      simp only [look]
      rw [if_neg (by omega), if_pos (by omega)]

/-- What an entry reads as after one has been placed, in any table. -/
theorem look_place {α : Type} [DecidableEq α] (d : α) (m : Sparse α) (k j : Nat) (v : α) :
    look d (place d m k v) j = if j = k then v else look d m j := by
  induction m with
  | nil =>
    simp only [place]
    by_cases hv : v = d
    · simp [hv]
    · simp only [hv, if_false, look]
      by_cases hj : j = k <;> simp [hj]
  | cons e m ih =>
    obtain ⟨i, w⟩ := e
    simp only [place]
    by_cases h1 : k < i
    · simp only [h1, if_true]
      by_cases hv : v = d
      · subst hv
        simp only [if_true, look]
        by_cases hj : j = k
        · subst hj; simp [h1, Nat.ne_of_lt h1]
        · simp [hj]
      · simp only [hv, if_false, look]
        by_cases hj : j = k
        · simp [hj]
        · simp only [hj, if_false]
          by_cases hl : j < k
          · rw [if_pos hl, if_neg (by omega), if_pos (by omega)]
          · rw [if_neg hl]
    · simp only [h1, if_false]
      by_cases h2 : k = i
      · subst h2
        simp only [if_true]
        by_cases hv : v = d
        · subst hv
          simp only [if_true, look]
          by_cases hj : j = k
          · subst hj; simp [look_dropWhile_le]
          · simp only [hj, if_false]
            by_cases hl : j < k
            · rw [if_pos hl, look_dropWhile_le _ _ _ _ (by omega)]
            · rw [if_neg hl, look_dropWhile _ _ _ _ (by omega)]
        · simp only [hv, if_false, look]
          by_cases hj : j = k <;> simp [hj]
      · simp only [h2, if_false, look, ih]
        by_cases hj : j = i
        · subst hj; rw [if_pos rfl, if_neg (by omega), if_pos rfl]
        · by_cases hl : j < i
          · rw [if_neg hj, if_pos hl, if_neg (by omega), if_neg hj, if_pos hl]
          · rw [if_neg hj, if_neg hl, if_neg hj, if_neg hl]

@[simp] theorem look_place_self {α : Type} [DecidableEq α] (d : α) (m : Sparse α) (k : Nat) (v : α) : look d (place d m k v) k = v := by
  simp [look_place]

theorem look_place_ne {α : Type} [DecidableEq α] (d : α) (m : Sparse α) {k j : Nat} (v : α) (h : j ≠ k) :
    look d (place d m k v) j = look d m j := by
  simp [look_place, h]

/-! ### The form of a table -/

theorem tableWf_tail {α : Type} [DecidableEq α] (d : α) (e : Nat × α) (m : Sparse α) (h : tableWf d (e :: m) = true) : tableWf d m = true := by
  cases m with
  | nil => rfl
  | cons f m => simp only [tableWf, Bool.and_eq_true] at h; exact h.2

/-- A table is well formed when its first entry is no default, comes before the second, and the rest is. -/
theorem tableWf_cons {α : Type} [DecidableEq α] (d : α) (j : Nat) (w : α) (m : Sparse α) :
    tableWf d ((j, w) :: m) = true ↔ w ≠ d ∧ (∀ e ∈ m.head?, j < e.1) ∧ tableWf d m = true := by
  cases m with
  | nil => simp [tableWf]
  | cons e m => obtain ⟨k, v⟩ := e; simp [tableWf, and_assoc]

theorem tableWf_dropWhile {α : Type} [DecidableEq α] (d : α) (p : Nat × α → Bool) (m : Sparse α) (h : tableWf d m = true) :
    tableWf d (m.dropWhile p) = true := by
  induction m with
  | nil => rfl
  | cons e m ih =>
    simp only [List.dropWhile_cons]
    split
    · exact ih (tableWf_tail d e m h)
    · exact h

theorem dropWhile_head_gt {α : Type} (m : Sparse α) (k : Nat) : ∀ e ∈ (m.dropWhile (fun e => decide (e.1 ≤ k))).head?, k < e.1 := by
  induction m with
  | nil => simp
  | cons e m ih =>
    simp only [List.dropWhile_cons]
    split
    · exact ih
    · rename_i h; simpa using h

/-- Placing an entry keeps the form. -/
theorem tableWf_place {α : Type} [DecidableEq α] (d : α) (m : Sparse α) (k : Nat) (v : α) (h : tableWf d m = true) :
    tableWf d (place d m k v) = true ∧ ∀ j, j < k → (∀ e ∈ m.head?, j < e.1) → ∀ e ∈ (place d m k v).head?, j < e.1 := by
  induction m with
  | nil =>
    simp only [place]
    by_cases hv : v = d <;> simp [hv, tableWf]
  | cons e m ih =>
    obtain ⟨i, w⟩ := e
    have hc := (tableWf_cons d i w m).1 h
    simp only [place]
    by_cases h1 : k < i
    · simp only [h1, if_true]
      by_cases hv : v = d
      · simp only [hv, if_true]; exact ⟨h, fun j _ hj => hj⟩
      · simp only [hv, if_false]
        exact ⟨(tableWf_cons d k v _).2 ⟨hv, by simpa using h1, h⟩, fun j hj _ => by simpa using hj⟩
    · simp only [h1, if_false]
      by_cases h2 : k = i
      · subst h2
        simp only [if_true]
        by_cases hv : v = d
        · simp only [hv, if_true]
          refine ⟨tableWf_dropWhile d _ m hc.2.2, fun j hj _ e he => ?_⟩
          have := dropWhile_head_gt m k e he
          omega
        · simp only [hv, if_false]
          exact ⟨(tableWf_cons d k v m).2 ⟨hv, hc.2.1, hc.2.2⟩, fun j hj _ => by simpa using hj⟩
      · simp only [h2, if_false]
        obtain ⟨ih1, ih2⟩ := ih hc.2.2
        exact ⟨(tableWf_cons d i w _).2 ⟨hc.1, ih2 i (by omega) hc.2.1, ih1⟩, fun j _ hj => by simpa using hj⟩

theorem tableWf_placeAll {α : Type} [DecidableEq α] (d : α) (vs : List α) (m : Sparse α) (k : Nat) (h : tableWf d m = true) :
    tableWf d (placeAll d m k vs) = true := by
  induction vs generalizing m k with
  | nil => exact h
  | cons v vs ih => exact ih _ _ (tableWf_place d m k v h).1

end Sys2Proof.Machine
end

