-- ==== Sys2Proof/Laws/Memory.lean ====
section
/-!
SUPPORT. Laws of settled memory: every operation that writes it keeps the canonical form, and what it leaves in each byte; the
operations beside memory that leave it as it is.
-/
namespace Sys2Proof.Machine

/-! ### Folds -/

/-- What each step of a fold keeps, the fold keeps. -/
theorem foldl_keeps {σ α : Type} {P : σ → Prop} {f : σ → α → σ} (h : ∀ s x, P s → P (f s x)) (l : List α) {s : σ} (hs : P s) : P (l.foldl f s) := by
  induction l generalizing s with
  | nil => exact hs
  | cons x l ih => exact ih (h s x hs)

/-- What each step of a fold leaves as it was, the fold leaves as it was. -/
theorem foldl_same {σ α β : Type} {g : σ → β} {f : σ → α → σ} (h : ∀ s x, g (f s x) = g s) (l : List α) (s : σ) : g (l.foldl f s) = g s :=
  foldl_keeps (P := fun t => g t = g s) (fun t x ht => (h t x).trans ht) l rfl

/-! ### What stands beside memory -/

@[simp] theorem focus_mem (s : State) (c : Nat) : (focus s c).mem = s.mem := by unfold focus; split <;> rfl
@[simp] theorem modCoreAt_mem (s : State) (c : Nat) (f : Core → Core) : (modCoreAt s c f).mem = s.mem := by unfold modCoreAt; split <;> rfl
@[simp] theorem modSlice_mem (s : State) (pa : Nat) (f : Slice → Slice) : (modSlice s pa f).mem = s.mem := rfl
@[simp] theorem promoWrite_mem (s : State) (pa m : Nat) : (promoWrite s pa m).mem = s.mem := by unfold promoWrite; split <;> rfl
@[simp] theorem wroteLine_mem (s : State) (pa : Nat) : (wroteLine s pa).mem = s.mem := by
  unfold wroteLine; split <;> [rfl; (split <;> [rfl; exact promoWrite_mem _ _ _])]
@[simp] theorem wroteLines_mem (s : State) (as : List Nat) : (wroteLines s as).mem = s.mem := foldl_same (g := State.mem) (fun _ _ => wroteLine_mem _ _) _ _
@[simp] theorem modCores_mem (s : State) (p : Nat → Bool) (f : Core → Core) : (modCores s p f).mem = s.mem :=
  foldl_same (g := State.mem) (fun _ _ => by split <;> simp) _ _
@[simp] theorem countLost_mem (s : State) (x : CodeSector) : (countLost s x).mem = s.mem := by
  unfold countLost; dsimp only; split <;> [rfl; exact foldl_same (g := State.mem) (fun _ _ => modCoreAt_mem _ _ _) _ _]
@[simp] theorem dropSector_mem (s : State) (pa : Nat) : (dropSector s pa).mem = s.mem := by
  unfold dropSector; split <;> [rfl; exact (foldl_same (g := State.mem) (fun _ _ => countLost_mem _ _) _ _).trans (by simp)]
@[simp] theorem setMark_mem (s : State) (g : Nat) (b : Bool) : (setMark s g b).mem = s.mem := rfl
@[simp] theorem setMarks_mem (s : State) (gs : List Nat) (b : Bool) : (setMarks s gs b).mem = s.mem :=
  foldl_same (g := State.mem) (fun _ _ => setMark_mem _ _ _) _ _
@[simp] theorem clearPoison_mem (s : State) (as : List Nat) : (clearPoison s as).mem = s.mem := setMarks_mem _ _ _
@[simp] theorem poisonBytes_mem (s : State) (as : List Nat) : (poisonBytes s as).mem = s.mem := setMarks_mem _ _ _
@[simp] theorem poisonShown_mem (s : State) (comp : Nat) (as : List Nat) : (poisonShown s comp as).mem = s.mem := poisonBytes_mem _ _

/-! ### One byte -/

theorem pokeByte_mem (s : State) (a : Nat) (b : Byte) (ks : List Key) : (pokeByte s a b ks).mem = place memDefault s.mem a b := rfl

/-- A byte reads as it was written, every other as before. -/
theorem memByte_pokeByte (s : State) (a c : Nat) (b : Byte) (ks : List Key) : memByte (pokeByte s a b ks) c = if c = a then b else memByte s c := by
  simp [memByte, pokeByte_mem, look_place]

theorem pokeByte_wf {s : State} (a : Nat) (b : Byte) (ks : List Key) (h : Memory.wf s.mem) : Memory.wf (pokeByte s a b ks).mem := (tableWf_place _ _ _ _ h).1

theorem memByte_of_mem {s t : State} (h : t.mem = s.mem) (a : Nat) : memByte t a = memByte s a := by rw [memByte, memByte, h]

/-! ### Many bytes -/

/-- Bytes poked in turn: one that none of them names reads as before. -/
theorem memByte_pokes {α : Type} (k : α → Nat) (f : State → α → State) (h : ∀ s x, ∃ b ks, f s x = pokeByte s (k x) b ks) (l : List α) (s : State) (c : Nat)
    (hc : ∀ x ∈ l, k x ≠ c) : memByte (l.foldl f s) c = memByte s c := by
  induction l generalizing s with
  | nil => rfl
  | cons x l ih =>
    obtain ⟨b, ks, e⟩ := h s x
    rw [List.foldl_cons, ih _ (fun y hy => hc y (List.mem_cons_of_mem _ hy)), e, memByte_pokeByte, if_neg (Ne.symm (hc x List.mem_cons_self))]

theorem pokes_wf {α : Type} (f : State → α → State) (h : ∀ s x, ∃ a b ks, f s x = pokeByte s a b ks) (l : List α) {s : State} (hs : Memory.wf s.mem) :
    Memory.wf (l.foldl f s).mem :=
  foldl_keeps (P := fun (s : State) => Memory.wf s.mem) (fun s x hs => by obtain ⟨a, b, ks, e⟩ := h s x; rw [e]; exact pokeByte_wf _ _ _ hs) l hs

/-- What settling writes beside memory leaves it. -/
theorem settleBase_mem (s : State) (ws : List (Nat × Byte × Byte)) :
    ((dedupNat (ws.map (fun w => w.1 / 256))).foldl (fun s k => dropSector s (256 * k)) (wroteLines (newMoment s) (ws.map Prod.fst))).mem = s.mem :=
  (foldl_same (g := State.mem) (fun _ _ => dropSector_mem _ _) _ _).trans (by simp)

/-- Settling bits, each block with its own key, keeps the canonical form. -/
theorem settleBy_wf {s : State} (comp : Nat) (k : Nat → Key) (ws : List (Nat × Byte × Byte)) (h : Memory.wf s.mem) : Memory.wf (settleBy s comp k ws).mem := by
  have h0 := (settleBase_mem s ws).symm ▸ h
  unfold settleBy
  dsimp only
  split
  · exact pokes_wf _ (fun s w => ⟨_, _, _, rfl⟩) _ (by rw [clearPoison_mem]; exact h0)
  · refine pokes_wf _ (fun s w => ⟨_, _, _, rfl⟩) _ ?_
    refine foldl_keeps (P := fun (s : State) => Memory.wf s.mem) (fun s x hs => ?_) _ ?_
    · exact (congrArg Memory.wf (show (pokeKeys s x.1 x.2.2).mem = s.mem from rfl)).mpr hs
    rw [clearPoison_mem]
    exact h0

theorem settle_wf {s : State} (comp : Nat) (k : Key) (ws : List (Nat × Byte × Byte)) (h : Memory.wf s.mem) : Memory.wf (settle s comp k ws).mem :=
  settleBy_wf comp _ ws h

/-- Of a page that is not compressed, a byte that is not settled reads as before. -/
theorem memByte_settleBy_other (s : State) (k : Nat → Key) (ws : List (Nat × Byte × Byte)) (c : Nat) (hc : ∀ w ∈ ws, w.1 ≠ c) :
    memByte (settleBy s 0 k ws) c = memByte s c := by
  unfold settleBy
  dsimp only
  split
  · rw [memByte_pokes Prod.fst _ (fun s w => ⟨_, _, rfl⟩) ws _ c hc]
    refine memByte_of_mem ?_ c
    rw [clearPoison_mem]
    exact settleBase_mem s ws
  · exact absurd rfl ‹_›

theorem memByte_settle_other (s : State) (k : Key) (ws : List (Nat × Byte × Byte)) (c : Nat) (hc : ∀ w ∈ ws, w.1 ≠ c) :
    memByte (settle s 0 k ws) c = memByte s c := memByte_settleBy_other s _ ws c hc

theorem overwrite_wf {s : State} (ws : List (Nat × Byte)) (h : Memory.wf s.mem) : Memory.wf (overwrite s ws).mem :=
  pokes_wf _ (fun s w => ⟨_, _, _, rfl⟩) _ (by simpa using h)

/-- Overwriting leaves every byte it does not name. -/
theorem memByte_overwrite_other (s : State) (ws : List (Nat × Byte)) (c : Nat) (hc : ∀ w ∈ ws, w.1 ≠ c) : memByte (overwrite s ws) c = memByte s c := by
  rw [overwrite, memByte_pokes Prod.fst _ (fun s w => ⟨_, _, rfl⟩) ws _ c hc]
  exact memByte_of_mem (by simp) c

/-- Of bytes poked in turn at addresses that are all different, each reads as it was written. -/
theorem memByte_overwrites (ws : List (Nat × Byte)) (s : State) (h : (ws.map Prod.fst).Nodup) (w : Nat × Byte) (hw : w ∈ ws) :
    memByte (ws.foldl (fun s w => pokeByte s w.1 w.2 (keysAt s w.1)) s) w.1 = w.2 := by
  induction ws generalizing s with
  | nil => exact absurd hw List.not_mem_nil
  | cons x l ih =>
    rw [List.map_cons, List.nodup_cons] at h
    rw [List.foldl_cons]
    rcases List.mem_cons.1 hw with rfl | hl
    · rw [memByte_pokes Prod.fst _ (fun s w => ⟨_, _, rfl⟩) l _ w.1 (fun y hy e => h.1 (e ▸ List.mem_map_of_mem hy)), memByte_pokeByte, if_pos rfl]
    · exact ih _ h.2 hl

theorem memByte_overwrite_self (s : State) (ws : List (Nat × Byte)) (h : (ws.map Prod.fst).Nodup) (w : Nat × Byte) (hw : w ∈ ws) :
    memByte (overwrite s ws) w.1 = w.2 := memByte_overwrites ws _ h w hw

/-! ### The operations that write memory -/

theorem engineWrite_wf {s : State} (comp clock : Nat) (ws : List (Nat × Byte × Byte)) (h : Memory.wf s.mem) : Memory.wf (engineWrite s comp clock ws).1.mem := by
  have := settleBy_wf comp (fun b => ({ time := blockTime s clock b, num := 256 } : Key)) (ws ++ twinWrites s ws) h
  unfold engineWrite
  exact this

theorem physWrite_wf {s : State} (a : Nat) (bs : List Byte) (h : Memory.wf s.mem) : Memory.wf (physWrite s a bs).mem :=
  foldl_keeps (P := fun (s : State) => Memory.wf s.mem) (fun _ _ hs => engineWrite_wf _ _ _ hs) _ h

theorem writeBack_wf {s : State} (l : L1Line) (h : Memory.wf s.mem) : Memory.wf (writeBack s l).mem := by
  unfold writeBack
  split
  · exact h
  · split
    · rw [setMarks_mem]; exact overwrite_wf l.dirty h
    · split <;> [(rw [modDie_mem]; exact h); exact h]

theorem writeBacks_wf {s : State} (ls : List L1Line) (h : Memory.wf s.mem) : Memory.wf (ls.foldl writeBack s).mem :=
  foldl_keeps (P := fun (s : State) => Memory.wf s.mem) (fun _ _ hs => writeBack_wf _ hs) _ h

theorem settleRecord_wf {s : State} (core : Nat) (r : LogRec) (h : Memory.wf s.mem) : Memory.wf (settleRecord s core r).mem := by
  have := fun k => settle_wf r.comp k (recordWrites r (homeOf s r.block)) h
  unfold settleRecord
  dsimp only
  split <;> [(rw [poisonShown_mem]; exact this _); exact this _]

theorem hostLine_wf {s : State} (line : Nat) (ws : List (Nat × Byte × Byte)) (h : Memory.wf s.mem) : Memory.wf (hostLine s line ws).mem := settle_wf _ _ _ h

@[simp] theorem sendFlits_mem (s : State) (dst n : Nat) : (sendFlits s dst n).mem = s.mem := by
  unfold sendFlits countFlits; split <;> rfl

/-- A store in another device touches no memory of this package (R446). -/
@[simp] theorem lentStore_mem (s : State) (ws : List (Nat × Byte × Byte)) (mark : Bool) : (lentStore s ws mark).mem = s.mem := rfl

@[simp] theorem sendStore_mem (s : State) (ws : List (Nat × Byte × Byte)) (mark : Bool) : (sendStore s ws mark).mem = s.mem := by
  unfold sendStore; dsimp only; split <;> simp

@[simp] theorem landFlying_mem (s : State) (p : FlyingStore → Bool) : (landFlying s p).mem = s.mem := by
  unfold landFlying
  rw [modCore_mem]
  exact foldl_same (g := State.mem) (fun (s : State) (f : FlyingStore) => lentStore_mem s f.ws f.mark) _ _

theorem agentPut_wf {s : State} (t : TlbEntry) (clock : Nat) (ws : List (Nat × Byte × Byte)) (h : Memory.wf s.mem) : Memory.wf (agentPut s t clock ws).1.mem := by
  unfold agentPut
  split
  · exact h
  · split
    · simpa using h
    · split
      · exact engineWrite_wf _ _ _ h
      · exact engineWrite_wf _ _ _ h
      · refine foldl_keeps (P := fun (x : State × Nat) => Memory.wf x.1.mem) (fun x q hs => ?_) _ (s := (s, 0)) h
        exact settle_wf _ _ _ (s := { x.1 with oLines := _ }) hs

theorem putCode_wf {s : State} (pa w : Nat) (h : Memory.wf s.mem) : Memory.wf (putCode s pa w).mem := tableWf_placeAll _ _ _ _ h

theorem openCore_mem (s : State) (pc : Nat) : (openCore s pc).mem = s.mem := rfl

theorem placeMain_wf {s : State} (w : Nat) (h : Memory.wf s.mem) : Memory.wf (placeMain s w).mem := by
  simp only [placeMain, modEng_mem, modCore_mem]
  exact putCode_wf (s := { s with eng := _ }) _ _ h

theorem placeDirective_wf {s : State} (w : Nat) (h : Memory.wf s.mem) : Memory.wf (placeDirective s w).mem := by
  simp only [placeDirective, modCore_mem, openCore_mem]
  exact putCode_wf _ _ h

theorem placeLogit_wf {s : State} (w : Nat) (h : Memory.wf s.mem) : Memory.wf (placeLogit s w).mem := by
  simpa only [placeLogit, modDie_mem] using h

/-- Placing an instruction keeps the canonical form. -/
theorem withFetchWord_wf {s : State} (nbits w : Nat) (h : Memory.wf s.mem) : Memory.wf (s.withFetchWord nbits w).mem := by
  unfold State.withFetchWord
  generalize w % 2 ^ nbits = v
  dsimp only
  split
  · exact placeDirective_wf v h
  · exact placeLogit_wf v h
  · exact placeMain_wf v h
  · exact placeMain_wf v h

/-- A granule that an error strikes keeps the form (R116). -/
theorem spoilGranule_wf {s : State} (pa : Nat) (h : Memory.wf s.mem) : Memory.wf (spoilGranule s pa).mem := by
  unfold spoilGranule
  generalize List.range 32 = l
  dsimp only
  rw [setMark_mem]
  exact pokes_wf (s := newMoment s) (fun s i => pokeByte s (32 * (pa / 32) + i) (Config.badByte s.tick (32 * (pa / 32) + i)) (keysAt s (32 * (pa / 32) + i)))
    (fun s i => ⟨_, _, _, rfl⟩) l h

theorem poisonGranule_wf {s : State} (pa : Nat) (h : Memory.wf s.mem) : Memory.wf (poisonGranule s pa).mem := by
  unfold poisonGranule
  rw [promoWrite_mem]
  exact spoilGranule_wf pa h

/-- What leaves a slice, written back or uncovering what had gone bad beneath it, keeps the form (R116, R120). -/
theorem leaveSlice_wf {s : State} (v : L2Line) (h : Memory.wf s.mem) : Memory.wf (leaveSlice s v).mem := by
  unfold leaveSlice
  split
  · rw [promoWrite_mem]; exact h
  · exact foldl_keeps (P := fun (s : State) => Memory.wf s.mem) (fun _ _ hs => poisonGranule_wf _ hs) _ h

/-- What a reset leaves in DRAM keeps the form (R103). -/
theorem cellarBytes_wf (s : State) (h : Memory.wf s.mem) : Memory.wf (cellarBytes s) := by
  unfold cellarBytes
  generalize staleLines s = l
  generalize rotten s = g
  exact foldl_keeps (P := fun (m : Sparse Byte) => Memory.wf m) (fun _ _ hm => tableWf_placeAll _ _ _ _ hm) g
    (foldl_keeps (P := fun (m : Sparse Byte) => Memory.wf m) (fun _ _ hm => tableWf_placeAll _ _ _ _ hm) l h)

/-- Reset leaves no byte listed. -/
theorem reset_wf : Memory.wf State.reset.mem := rfl

end Sys2Proof.Machine
end

