-- ==== Sys2Proof/Laws/Ops.lean ====
section
/-!
SUPPORT. Laws of the shared operations of a core: reads after writes, token queues, what finishing an instruction changes, and
what an instruction that issues comes to.
-/
namespace Sys2Proof.Machine

/-! ### Files -/

theorem fileRead_clear {α : Type} (d : α) (f : File α) (tick salt r k : Nat)
    (h : ∀ o ∈ f.old, o.key = k → r ∉ o.blind) : fileRead d f tick salt r k = look d f.cur k := by
  have : f.old.filter (fun o => o.key == k && o.blind.contains r) = [] := by
    rw [List.filter_eq_nil_iff]; intro o ho; simp; intro hk; exact h o ho hk
  unfold fileRead
  rw [this]

/-- Where writer `src` has written, no older value is left for it. -/
theorem fileTouch_seen {α : Type} (os : List (Shadow α)) (src seq : Nat) (rs : List Nat) (k : Nat) : ∀ o ∈ fileTouch os src seq rs k, o.key = k → src ∉ o.blind := by
  intro o ho hk
  obtain ⟨x, -, rfl⟩ := List.mem_map.1 (List.mem_filter.1 ho).1
  by_cases hx : x.key = k
  · simp [hx]
  · simp [hx] at hk

/-- The writer of an entry reads what it wrote (R204). -/
theorem fileRead_fileWrite_self {α : Type} [DecidableEq α] (d : α) (f : File α) (id src seq : Nat) (rs : List Nat) (k : Nat) (v : α)
    (mark : Bool) (tick salt : Nat) (h : src ∉ rs) : fileRead d (fileWrite d f id src seq rs k v mark) tick salt src k = v := by
  rw [fileRead_clear]
  · simp [fileWrite]
  · intro o ho hk
    simp only [fileWrite] at ho
    split at ho
    · exact fileTouch_seen _ _ _ _ _ o ho hk
    · rcases List.mem_cons.1 ho with rfl | ho
      · exact h
      · exact fileTouch_seen _ _ _ _ _ o ho hk

theorem not_mem_otherReaders (c : Core) (e : Eng) (seq : Nat) : e.num ∉ otherReaders c e seq := by
  cases e <;> simp [otherReaders, Eng.num]

theorem not_mem_cellReaders (c : Core) (e : Eng) (seq : Nat) : e.num ∉ cellReaders c e seq :=
  fun h => not_mem_otherReaders c e seq (List.mem_filter.1 h).1

/-! ### Engines -/

@[simp] theorem eng_setEng_self (c : Core) (e : Eng) (x : Engine) : (c.setEng e x).eng e = x := by cases e <;> rfl

theorem eng_setEng_ne (c : Core) {e f : Eng} (x : Engine) (h : f ≠ e) : (c.setEng e x).eng f = c.eng f := by
  cases e <;> cases f <;> first | exact absurd rfl h | rfl


/-! ### Token queues -/

theorem queueAt_setQueue (c : Core) (k j : Nat) (q : TokenQueue) : queueAt (setQueue c k q) j = if j = k then q else queueAt c j := by
  simp [queueAt, setQueue, look_place]

/-- Engines of a token field are all different, so its queues are. -/
theorem maskEngs_nodup (m : BitVec 4) : (maskEngs m).Nodup := List.Nodup.filter _ (by decide)

theorem queueCode_inj (e q q' : Eng) (h : queueCode e q = queueCode e q') (hq : q ≠ e) (hq' : q' ≠ e) : q = q' := by
  cases e <;> cases q <;> cases q' <;> simp_all [queueCode, Eng.num]

/-- A push set changes the token queues and nothing else of the core. -/
theorem pushNow_eq (c : Core) (e : Eng) (m : BitVec 4) (t : Token) : pushNow c e m t = { c with tokens := (pushNow c e m t).tokens } := by
  simp only [pushNow]
  generalize maskEngs m = l
  induction l generalizing c with
  | nil => rfl
  | cons q l ih => simp only [List.foldl_cons]; exact (ih _).trans rfl

theorem reserve_eq (c : Core) (e : Eng) (m : BitVec 4) : reserve c e m = { c with tokens := (reserve c e m).tokens } := by
  simp only [reserve]
  generalize maskEngs m = l
  induction l generalizing c with
  | nil => rfl
  | cons q l ih => simp only [List.foldl_cons]; exact (ih _).trans rfl

/-! ### Finishing -/

/-- What the walk makes of the executing engine when it passes an instruction. -/
def walked (x : Engine) (h : Hdr) (ck pc : Nat) : Engine :=
  { passed x h.eng.num pc with seq := x.seq + 1, nextIssue := ck + 1 + h.gap.toNat, noPop := false }

/-- Noting that the decode slot is to pass on changes nothing else. -/
theorem switchAway_onlyWalked (s : State) (e : Eng) (sw : Bool) : OnlyWalked s (switchAway s e sw) := rfl

theorem issued_core (s : State) (h : Hdr) (pc : Nat) :
    (issued s h pc).core = { s.core.setEng h.eng (walked (s.core.eng h.eng) h s.core.ck pc) with
      switched := s.core.switched || (h.sw && s.core.holder == h.eng.num) } := by
  have hold : (s.core.setEng h.eng (walked (s.core.eng h.eng) h s.core.ck pc)).holder = s.core.holder := setEng_holder _ _ _
  have away : (s.core.setEng h.eng (walked (s.core.eng h.eng) h s.core.ck pc)).switched = s.core.switched := setEng_switched _ _ _
  rw [← hold, ← away]
  rfl

theorem issued_rest (s : State) (h : Hdr) (pc : Nat) : issued s h pc = { s with core := (issued s h pc).core } := rfl

theorem passed_pc (x : Engine) (tag next : Nat) : (passed x tag next).pc = next := by
  simp only [passed]; cases x.stretch <;> simp only <;> split <;> rfl

theorem passed_lc (x : Engine) (tag next : Nat) : (passed x tag next).lc = x.lc := by
  simp only [passed]; cases x.stretch <;> simp; split <;> rfl

theorem issued_onlyWalked (s : State) (h : Hdr) (pc : Nat) : OnlyWalked s (issued s h pc) := by
  unfold OnlyWalked
  rw [issued_rest, issued_core]
  cases h.eng <;> rfl

theorem issued_walked (s : State) (h : Hdr) (pc : Nat) : WalkedTo s (issued s h pc) h s.core.ck pc := by
  constructor
  · rw [issued_core]; cases hh : h.eng <;> simp [walked, passed_pc, Core.setEng, Core.eng]
  · rw [issued_core]; cases hh : h.eng <;> simp [walked, Core.setEng, Core.eng]
  · rw [issued_core]; cases hh : h.eng <;> simp [walked, Core.setEng, Core.eng]
  · rw [issued_core]; cases hh : h.eng <;> simp [walked, passed_lc, Core.setEng, Core.eng]
  · intro e he; rw [issued_core]; cases hh : h.eng <;> cases e <;> simp_all [Core.setEng, Core.eng]

theorem OnlyWalked.trans {p q t : State} (h : OnlyWalked p q) (h' : OnlyWalked q t) : OnlyWalked p t := by
  unfold OnlyWalked at *
  conv_lhs => rw [h']
  rw [h]

/-- A push set is a change of the walk's tokens alone. -/
theorem pushNow_onlyWalked (s : State) (e : Eng) (m : BitVec 4) (k : Token) : OnlyWalked s (modCore s (fun c => pushNow c e m k)) := by
  have h := pushNow_eq s.core e m k
  simp only [modCore]
  generalize pushNow s.core e m k = c at h
  rw [h]
  rfl

/-- Finishing changes the walk and the token queues, and nothing else. -/
theorem finishNow_onlyWalked (s : State) (h : Hdr) (pc : Nat) : OnlyWalked s (finishNow s h pc) :=
  (pushNow_onlyWalked s _ _ _).trans (issued_onlyWalked _ h pc)

/-- Finishing with the tokens of the next clk changes the walk, the token queues and the results in flight, and nothing else. -/
theorem finishSoon_onlyLanding (s : State) (h : Hdr) (pc : Nat) : OnlyLanding s (finishSoon s h pc) := by
  have hl : ∀ t : State, (issued t h pc).core.landing = t.core.landing := fun t => by rw [issued_core]; exact setEng_landing _ _ _
  unfold OnlyLanding finishSoon
  split
  · rw [hl]; exact issued_onlyWalked s h pc
  · rw [hl, modCore_core, addLanding_landing, reserve_eq]
    refine OnlyWalked.trans ?_ (issued_onlyWalked _ h pc)
    rw [OnlyWalked, modCore, reserve_eq]
    rfl

/-! ### Issue -/

/-- What an instruction that issues comes to: its body in the state with its pops taken, and the finish its body asks for. -/
theorem issue_of_issues {s p : State} {h : Hdr} {len : Nat} {srcs : List Loc} {body : State → Act} (hi : Issues s h srcs p) :
    issue h len srcs body s = finish s h (nextPc s h len) (body p) := by
  have h3 := hi.tokens
  have clean : anyPoison p.core (.g h.guard.toNat :: srcs) = false := by
    have h1 := hi.guardClean
    have h2 := hi.srcsClean
    simp only [anyPoison, List.any_cons, List.any_nil, Bool.or_false] at h1 h2 ⊢
    rw [h1, h2]; rfl
  unfold issue
  simp only [hi.ready, hi.noneOwed, hi.room, hi.guardIn, hi.pops, clean, hi.executes, hi.srcsIn, nextPc]
  simp [h3]

theorem issueOut_of_issues {s p : State} {h : Hdr} {len : Nat} {srcs : List Loc} {body : State → Act} (hi : Issues s h srcs p) :
    issueOut h len srcs body s = .next (finish s h (nextPc s h len) (body p)) := by
  rw [issueOut, issue_of_issues hi]

end Sys2Proof.Machine
end

