-- ==== Sys2Proof/Laws/PerInstr.lean ====
section
/-!
SUPPORT. Lemmas for every instruction as syntax, one a constructor. Family `Parcels`: the encoder writes as many parcels as the first of
them says (R47, R65, R66).
-/
namespace Sys2Proof.Laws.Parcels

open Sys2Proof.Machine

/-- What is written for an instruction has the length that its first parcel gives it: by the length class in the main text, two parcels for
a WMAP and one for another directive, one for a word of a logit program. -/
def Statement (i : Instr) : Prop :=
  ∀ ps, encode i = some ps → some ps.length =
    if isDirective i then (if (ps.getD 0 0).extractLsb' 2 4 = 5#4 then some 2 else some 1)
    else if isLogitWord i then some 1 else parcelCount (ps.getD 0 0)

/-! ### The shapes of the encodings -/

theorem lowTwo_append {n m : Nat} (x : BitVec n) (y : BitVec m) (h : 2 ≤ m) : (x ++ y).extractLsb' 0 2 = y.extractLsb' 0 2 := by
  ext i hi
  simp [BitVec.getLsbD_append]
  intro a; omega

theorem lowTwo_last {n : Nat} (x : BitVec n) (l : BitVec 2) : (x ++ l).extractLsb' 0 2 = l := by
  ext i hi
  simp [BitVec.getLsbD_append, hi]

theorem kind_last {n : Nat} (x : BitVec n) (k : BitVec 4) (l : BitVec 2) : (x ++ k ++ l).extractLsb' 2 4 = k := by
  ext i hi
  simp [BitVec.getLsbD_append, hi]
  intro _; omega

theorem count_one {p : BitVec 32} (h : p.extractLsb' 0 2 = 0#2) : parcelCount p = some 1 := by rw [parcelCount, h]; rfl
theorem count_two {p : BitVec 32} (h : p.extractLsb' 0 2 = 1#2) : parcelCount p = some 2 := by rw [parcelCount, h]; rfl
theorem count_three {p : BitVec 32} (h : p.extractLsb' 0 2 = 2#2) : parcelCount p = some 3 := by rw [parcelCount, h]; rfl

theorem low_len (h : Hdr) (op : BitVec 8) (l : BitVec 2) : (h.low op l).extractLsb' 0 2 = l := lowTwo_last _ _
theorem slow_len (h : SHdr) (op : BitVec 8) (l : BitVec 2) : (h.low op l).extractLsb' 0 2 = l := lowTwo_last _ _

theorem short_count {n : Nat} (x : BitVec n) (h : Hdr) (op : BitVec 8) : (x ++ h.low op 0#2).extractLsb' 0 2 = 0#2 :=
  (lowTwo_append _ _ (by decide)).trans (low_len _ _ _)

theorem sshort_count {n : Nat} (x : BitVec n) (h : SHdr) (op : BitVec 8) : (x ++ h.low op 0#2).extractLsb' 0 2 = 0#2 :=
  (lowTwo_append _ _ (by decide)).trans (slow_len _ _ _)

theorem first_len (h : Hdr) (op : BitVec 8) (l : BitVec 2) : (h.first op l).extractLsb' 0 2 = l :=
  (lowTwo_append _ _ (by decide)).trans (low_len _ _ _)

theorem sfirst_len (h : SHdr) (op : BitVec 8) (l : BitVec 2) : (h.first op l).extractLsb' 0 2 = l :=
  (lowTwo_append _ _ (by decide)).trans (slow_len _ _ _)

theorem encG32_count (h : Hdr) (op : BitVec 8) (d a : Reg) (b : BitVec 4) : parcelCount ((encG32 h op d a b).getD 0 0) = some (encG32 h op d a b).length :=
  count_one (short_count _ _ _)

theorem encG_count (h : Hdr) (op : BitVec 8) (d a : Reg) (t : BitVec 5) (s : Src2) : parcelCount ((encG h op d a t s).getD 0 0) = some (encG h op d a t s).length := by
  cases s with
  | reg r => exact count_two (first_len _ _ _)
  | imm i => exact count_two (first_len _ _ _)
  | lit l => exact count_three (first_len _ _ _)

theorem encS_count (h : SHdr) (op : BitVec 8) (d a : Reg) (t : BitVec 5) (s : Src2) : parcelCount ((encS h op d a t s).getD 0 0) = some (encS h op d a t s).length := by
  cases s with
  | reg r => exact count_two (sfirst_len _ _ _)
  | imm i => exact count_two (sfirst_len _ _ _)
  | lit l => exact count_three (sfirst_len _ _ _)

theorem encM64_count (h : Hdr) (op : BitVec 8) (d a : MOp) (t : BitVec 5) : parcelCount ((encM64 h op d a t).getD 0 0) = some (encM64 h op d a t).length :=
  count_two (first_len _ _ _)

theorem encM96_count (h : Hdr) (op : BitVec 8) (d a : BitVec 13) (t : BitVec 5) (l : BitVec 1) (p : BitVec 32) :
    parcelCount ((encM96 h op d a t l p).getD 0 0) = some (encM96 h op d a t l p).length := count_three (first_len _ _ _)

theorem encV_count (h : Hdr) (op : BitVec 8) (d a : MOp) (t : BitVec 5) (s : VSrc) : parcelCount ((encV h op d a t s).getD 0 0) = some (encV h op d a t s).length := by
  cases s <;> exact count_three (first_len _ _ _)

theorem encAmt_count (h : Hdr) (op : BitVec 8) (d a : MOp) (s : AmtSrc) : parcelCount ((encAmt h op d a s).getD 0 0) = some (encAmt h op d a s).length := by
  cases s <;> exact count_three (first_len _ _ _)

theorem encSeg_count (h : Hdr) (op : BitVec 8) (d : MOp) (a : Reg) (t : Ty) (s : SegSrc) : parcelCount ((encSeg h op d a t s).getD 0 0) = some (encSeg h op d a t s).length := by
  cases s with
  | one => exact count_two (first_len _ _ _)
  | lit l => exact count_three (first_len _ _ _)
  | reg r => exact count_three (first_len _ _ _)

theorem main {i : Instr} {qs : List (BitVec 32)} (e : encode i = some qs) (hd : isDirective i = false) (hl : isLogitWord i = false)
    (h : parcelCount (qs.getD 0 0) = some qs.length) : Statement i := by
  intro ps hp
  obtain rfl := Option.some.inj (e.symm.trans hp)
  rw [hd, hl]
  exact h.symm

theorem directive {i : Instr} {p : BitVec 32} {k : BitVec 4} (e : encode i = some [p]) (hd : isDirective i = true) (hk : p.extractLsb' 2 4 = k)
    (h5 : k ≠ 5#4) : Statement i := by
  intro ps hp
  obtain rfl := Option.some.inj (e.symm.trans hp)
  rw [hd, if_pos rfl, List.getD_cons_zero, hk, if_neg h5]
  rfl

theorem mapped {i : Instr} {p l : BitVec 32} (e : encode i = some [p, l]) (hd : isDirective i = true) (hk : p.extractLsb' 2 4 = 5#4) : Statement i := by
  intro ps hp
  obtain rfl := Option.some.inj (e.symm.trans hp)
  rw [hd, if_pos rfl, List.getD_cons_zero, hk, if_pos rfl]
  rfl

theorem logit {i : Instr} {p : BitVec 32} (e : encode i = some [p]) (hd : isDirective i = false) (hl : isLogitWord i = true) : Statement i := by
  intro ps hp
  obtain rfl := Option.some.inj (e.symm.trans hp)
  rw [hd, hl]
  rfl

theorem none_written {i : Instr} (e : encode i = none) : Statement i := by
  intro ps hp
  exact absurd (e.symm.trans hp) (by simp)

/-! ### Every constructor -/

theorem nop (h : Hdr) : Statement (.nop h) := main rfl rfl rfl (encG32_count ..)
theorem add (h : Hdr) (d a : Reg) (b : BitVec 4) : Statement (.add h d a b) := main rfl rfl rfl (encG32_count ..)
theorem addLong (h : Hdr) (d a : Reg) (s : Src2) : Statement (.addLong h d a s) := main rfl rfl rfl (encG_count ..)
theorem sub (h : Hdr) (d a : Reg) (b : BitVec 4) : Statement (.sub h d a b) := main rfl rfl rfl (encG32_count ..)
theorem subLong (h : Hdr) (d a : Reg) (s : Src2) : Statement (.subLong h d a s) := main rfl rfl rfl (encG_count ..)
theorem mul (h : Hdr) (d a : Reg) (b : BitVec 4) : Statement (.mul h d a b) := main rfl rfl rfl (encG32_count ..)
theorem mulLong (h : Hdr) (d a : Reg) (s : Src2) : Statement (.mulLong h d a s) := main rfl rfl rfl (encG_count ..)
theorem mulhS (h : Hdr) (d a : Reg) (b : BitVec 4) : Statement (.mulhS h d a b) := main rfl rfl rfl (encG32_count ..)
theorem mulhSLong (h : Hdr) (d a : Reg) (s : Src2) : Statement (.mulhSLong h d a s) := main rfl rfl rfl (encG_count ..)
theorem mulhZ (h : Hdr) (d a : Reg) (b : BitVec 4) : Statement (.mulhZ h d a b) := main rfl rfl rfl (encG32_count ..)
theorem mulhZLong (h : Hdr) (d a : Reg) (s : Src2) : Statement (.mulhZLong h d a s) := main rfl rfl rfl (encG_count ..)
theorem divS (h : Hdr) (d a : Reg) (b : BitVec 4) : Statement (.divS h d a b) := main rfl rfl rfl (encG32_count ..)
theorem divSLong (h : Hdr) (d a : Reg) (s : Src2) : Statement (.divSLong h d a s) := main rfl rfl rfl (encG_count ..)
theorem divZ (h : Hdr) (d a : Reg) (b : BitVec 4) : Statement (.divZ h d a b) := main rfl rfl rfl (encG32_count ..)
theorem divZLong (h : Hdr) (d a : Reg) (s : Src2) : Statement (.divZLong h d a s) := main rfl rfl rfl (encG_count ..)
theorem remS (h : Hdr) (d a : Reg) (b : BitVec 4) : Statement (.remS h d a b) := main rfl rfl rfl (encG32_count ..)
theorem remSLong (h : Hdr) (d a : Reg) (s : Src2) : Statement (.remSLong h d a s) := main rfl rfl rfl (encG_count ..)
theorem remZ (h : Hdr) (d a : Reg) (b : BitVec 4) : Statement (.remZ h d a b) := main rfl rfl rfl (encG32_count ..)
theorem remZLong (h : Hdr) (d a : Reg) (s : Src2) : Statement (.remZLong h d a s) := main rfl rfl rfl (encG_count ..)
theorem and64 (h : Hdr) (d a : Reg) (b : BitVec 4) : Statement (.and64 h d a b) := main rfl rfl rfl (encG32_count ..)
theorem and64Long (h : Hdr) (d a : Reg) (s : Src2) : Statement (.and64Long h d a s) := main rfl rfl rfl (encG_count ..)
theorem or64 (h : Hdr) (d a : Reg) (b : BitVec 4) : Statement (.or64 h d a b) := main rfl rfl rfl (encG32_count ..)
theorem or64Long (h : Hdr) (d a : Reg) (s : Src2) : Statement (.or64Long h d a s) := main rfl rfl rfl (encG_count ..)
theorem xor64 (h : Hdr) (d a : Reg) (b : BitVec 4) : Statement (.xor64 h d a b) := main rfl rfl rfl (encG32_count ..)
theorem xor64Long (h : Hdr) (d a : Reg) (s : Src2) : Statement (.xor64Long h d a s) := main rfl rfl rfl (encG_count ..)
theorem shl (h : Hdr) (d a : Reg) (b : BitVec 4) : Statement (.shl h d a b) := main rfl rfl rfl (encG32_count ..)
theorem shlLong (h : Hdr) (d a : Reg) (s : Src2) : Statement (.shlLong h d a s) := main rfl rfl rfl (encG_count ..)
theorem shrS (h : Hdr) (d a : Reg) (b : BitVec 4) : Statement (.shrS h d a b) := main rfl rfl rfl (encG32_count ..)
theorem shrSLong (h : Hdr) (d a : Reg) (s : Src2) : Statement (.shrSLong h d a s) := main rfl rfl rfl (encG_count ..)
theorem shrZ (h : Hdr) (d a : Reg) (b : BitVec 4) : Statement (.shrZ h d a b) := main rfl rfl rfl (encG32_count ..)
theorem shrZLong (h : Hdr) (d a : Reg) (s : Src2) : Statement (.shrZLong h d a s) := main rfl rfl rfl (encG_count ..)
theorem rot (h : Hdr) (d a : Reg) (b : BitVec 4) : Statement (.rot h d a b) := main rfl rfl rfl (encG32_count ..)
theorem rotLong (h : Hdr) (d a : Reg) (s : Src2) : Statement (.rotLong h d a s) := main rfl rfl rfl (encG_count ..)
theorem minS (h : Hdr) (d a : Reg) (b : BitVec 4) : Statement (.minS h d a b) := main rfl rfl rfl (encG32_count ..)
theorem minSLong (h : Hdr) (d a : Reg) (s : Src2) : Statement (.minSLong h d a s) := main rfl rfl rfl (encG_count ..)
theorem minZ (h : Hdr) (d a : Reg) (b : BitVec 4) : Statement (.minZ h d a b) := main rfl rfl rfl (encG32_count ..)
theorem minZLong (h : Hdr) (d a : Reg) (s : Src2) : Statement (.minZLong h d a s) := main rfl rfl rfl (encG_count ..)
theorem maxS (h : Hdr) (d a : Reg) (b : BitVec 4) : Statement (.maxS h d a b) := main rfl rfl rfl (encG32_count ..)
theorem maxSLong (h : Hdr) (d a : Reg) (s : Src2) : Statement (.maxSLong h d a s) := main rfl rfl rfl (encG_count ..)
theorem maxZ (h : Hdr) (d a : Reg) (b : BitVec 4) : Statement (.maxZ h d a b) := main rfl rfl rfl (encG32_count ..)
theorem maxZLong (h : Hdr) (d a : Reg) (s : Src2) : Statement (.maxZLong h d a s) := main rfl rfl rfl (encG_count ..)
theorem clz (h : Hdr) (d a : Reg) : Statement (.clz h d a) := main rfl rfl rfl (encG32_count ..)
theorem clzLong (h : Hdr) (d a : Reg) : Statement (.clzLong h d a) := main rfl rfl rfl (encG_count ..)
theorem popc (h : Hdr) (d a : Reg) : Statement (.popc h d a) := main rfl rfl rfl (encG32_count ..)
theorem popcLong (h : Hdr) (d a : Reg) : Statement (.popcLong h d a) := main rfl rfl rfl (encG_count ..)
theorem extS (h : Hdr) (d a : Reg) (s : Src2) : Statement (.extS h d a s) := main rfl rfl rfl (encG_count ..)
theorem extZ (h : Hdr) (d a : Reg) (s : Src2) : Statement (.extZ h d a s) := main rfl rfl rfl (encG_count ..)
theorem ins (h : Hdr) (d a : Reg) (s : Src2) : Statement (.ins h d a s) := main rfl rfl rfl (encG_count ..)
theorem seq (h : Hdr) (d a : Reg) (b : BitVec 4) : Statement (.seq h d a b) := main rfl rfl rfl (encG32_count ..)
theorem seqLong (h : Hdr) (d a : Reg) (s : Src2) : Statement (.seqLong h d a s) := main rfl rfl rfl (encG_count ..)
theorem sltS (h : Hdr) (d a : Reg) (b : BitVec 4) : Statement (.sltS h d a b) := main rfl rfl rfl (encG32_count ..)
theorem sltSLong (h : Hdr) (d a : Reg) (s : Src2) : Statement (.sltSLong h d a s) := main rfl rfl rfl (encG_count ..)
theorem sltZ (h : Hdr) (d a : Reg) (b : BitVec 4) : Statement (.sltZ h d a b) := main rfl rfl rfl (encG32_count ..)
theorem sltZLong (h : Hdr) (d a : Reg) (s : Src2) : Statement (.sltZLong h d a s) := main rfl rfl rfl (encG_count ..)
theorem sel (h : Hdr) (d a : Reg) (b : BitVec 4) : Statement (.sel h d a b) := main rfl rfl rfl (encG32_count ..)
theorem selLong (h : Hdr) (d a : Reg) (s : Src2) : Statement (.selLong h d a s) := main rfl rfl rfl (encG_count ..)
theorem li (h : Hdr) (d : Reg) (i : BitVec 10) : Statement (.li h d i) := main rfl rfl rfl (count_one (short_count _ _ _))
theorem liLong (h : Hdr) (d : Reg) (shift : BitVec 6) (i : Imm) : Statement (.liLong h d shift i) := main rfl rfl rfl (encG_count ..)
theorem mov (h : Hdr) (d a : Reg) (m : BitVec 4) : Statement (.mov h d a m) := main rfl rfl rfl (encG32_count ..)
theorem movLong (h : Hdr) (d a : Reg) (m : BitVec 4) (wide : Bool) : Statement (.movLong h d a m wide) := main rfl rfl rfl (encG_count ..)
theorem bEq (h : SHdr) (b a : Reg) (dec : Eng) (lv : Bool) (t : Imm) : Statement (.bEq h b a dec lv t) := main rfl rfl rfl (encS_count ..)
theorem bNe (h : SHdr) (b a : Reg) (dec : Eng) (lv : Bool) (t : Imm) : Statement (.bNe h b a dec lv t) := main rfl rfl rfl (encS_count ..)
theorem bLtS (h : SHdr) (b a : Reg) (dec : Eng) (lv : Bool) (t : Imm) : Statement (.bLtS h b a dec lv t) := main rfl rfl rfl (encS_count ..)
theorem bLtZ (h : SHdr) (b a : Reg) (dec : Eng) (lv : Bool) (t : Imm) : Statement (.bLtZ h b a dec lv t) := main rfl rfl rfl (encS_count ..)
theorem bGeS (h : SHdr) (b a : Reg) (dec : Eng) (lv : Bool) (t : Imm) : Statement (.bGeS h b a dec lv t) := main rfl rfl rfl (encS_count ..)
theorem bGeZ (h : SHdr) (b a : Reg) (dec : Eng) (lv : Bool) (t : Imm) : Statement (.bGeZ h b a dec lv t) := main rfl rfl rfl (encS_count ..)
theorem jmp (h : SHdr) (t : Imm) : Statement (.jmp h t) := main rfl rfl rfl (encS_count ..)
theorem jl (h : SHdr) (d : Reg) (t : Imm) : Statement (.jl h d t) := main rfl rfl rfl (encS_count ..)
theorem jr (h : SHdr) (a : Reg) (dec : Eng) : Statement (.jr h a dec) := main rfl rfl rfl (encS_count ..)
theorem loop (h : SHdr) (dist : BitVec 12) (n : BitVec 3) (cnt : LoopCount) : Statement (.loop h dist n cnt) := main rfl rfl rfl (encS_count ..)
theorem syncpc (h : SHdr) : Statement (.syncpc h) := main rfl rfl rfl (count_one (sshort_count _ _ _))
theorem syncpcLong (h : SHdr) : Statement (.syncpcLong h) := main rfl rfl rfl (encS_count ..)
theorem syncpcD (h : SHdr) (mask : BitVec 8) : Statement (.syncpcD h mask) := main rfl rfl rfl (count_one (sshort_count _ _ _))
theorem syncpcDLong (h : SHdr) (mask : BitVec 8) : Statement (.syncpcDLong h mask) := main rfl rfl rfl (encS_count ..)
theorem tpop (h : Hdr) (q : BitVec 4) : Statement (.tpop h q) := main rfl rfl rfl (encG32_count ..)
theorem tpsh (h : Hdr) (q : BitVec 4) : Statement (.tpsh h q) := main rfl rfl rfl (encG32_count ..)
theorem qcancel (h : Hdr) (q : BitVec 4) : Statement (.qcancel h q) := main rfl rfl rfl (encG32_count ..)
theorem slack (h : Hdr) (s : Src2) : Statement (.slack h s) := main rfl rfl rfl (encG_count ..)
theorem slackW (h : Hdr) (s : Src2) : Statement (.slackW h s) := main rfl rfl rfl (encG_count ..)
theorem trap (h : Hdr) (i : BitVec 10) : Statement (.trap h i) := main rfl rfl rfl (count_one (short_count _ _ _))
theorem syscall (h : Hdr) (i : BitVec 10) : Statement (.syscall h i) := main rfl rfl rfl (count_one (short_count _ _ _))
theorem eret (h : Hdr) : Statement (.eret h) := main rfl rfl rfl (encG32_count ..)
theorem sysr (h : Hdr) (d : Reg) (n : SysNum) : Statement (.sysr h d n) := main rfl rfl rfl (encG_count ..)
theorem sysw (h : Hdr) (a : Reg) (n : SysNum) : Statement (.sysw h a n) := main rfl rfl rfl (encG_count ..)
theorem ldovt (h : Hdr) (a : Reg) : Statement (.ldovt h a) := main rfl rfl rfl (encG_count ..)
theorem halt (h : Hdr) : Statement (.halt h) := main rfl rfl rfl (encG32_count ..)
theorem ld (h : Hdr) (d a : Reg) (t : Ty) (s : Src2) : Statement (.ld h d a t s) := main rfl rfl rfl (encG_count ..)
theorem ldLn (h : Hdr) (d a : Reg) (t : Ty) (s : Src2) : Statement (.ldLn h d a t s) := main rfl rfl rfl (encG_count ..)
theorem st (h : Hdr) (d a : Reg) (t : Ty) (s : Src2) : Statement (.st h d a t s) := main rfl rfl rfl (encG_count ..)
theorem stLn (h : Hdr) (d a : Reg) (t : Ty) (s : Src2) : Statement (.stLn h d a t s) := main rfl rfl rfl (encG_count ..)
theorem mld (h : Hdr) (d : MOp) (a : Reg) (t : Ty) (s : SegSrc) : Statement (.mld h d a t s) := main rfl rfl rfl (encSeg_count ..)
theorem mldLn (h : Hdr) (d : MOp) (a : Reg) (t : Ty) (s : SegSrc) : Statement (.mldLn h d a t s) := main rfl rfl rfl (encSeg_count ..)
theorem mst (h : Hdr) (d : MOp) (a : Reg) (t : Ty) (s : SegSrc) : Statement (.mst h d a t s) := main rfl rfl rfl (encSeg_count ..)
theorem mstLn (h : Hdr) (d : MOp) (a : Reg) (t : Ty) (s : SegSrc) : Statement (.mstLn h d a t s) := main rfl rfl rfl (encSeg_count ..)
theorem probe (h : Hdr) (d a : Reg) (s : Src2) : Statement (.probe h d a s) := main rfl rfl rfl (encG_count ..)
theorem probeLn (h : Hdr) (d a : Reg) (s : Src2) : Statement (.probeLn h d a s) := main rfl rfl rfl (encG_count ..)
theorem copy (h : Hdr) (d a : Reg) (s : Src2) : Statement (.copy h d a s) := main rfl rfl rfl (encG_count ..)
theorem copyLn (h : Hdr) (d a : Reg) (s : Src2) : Statement (.copyLn h d a s) := main rfl rfl rfl (encG_count ..)
theorem pushe (h : Hdr) (a : Reg) (s : Src2) : Statement (.pushe h a s) := main rfl rfl rfl (encG_count ..)
theorem pusheT (h : Hdr) (d a : Reg) (s : Src2) : Statement (.pusheT h d a s) := main rfl rfl rfl (encG_count ..)
theorem pope (h : Hdr) (d : Reg) (s : Src2) : Statement (.pope h d s) := main rfl rfl rfl (encG_count ..)
theorem popeT (h : Hdr) (d a : Reg) (s : Src2) : Statement (.popeT h d a s) := main rfl rfl rfl (encG_count ..)
theorem settle (h : Hdr) (code : Bool) : Statement (.settle h code) := main rfl rfl rfl (encG32_count ..)
theorem settleLong (h : Hdr) (code : Bool) : Statement (.settleLong h code) := main rfl rfl rfl (encG_count ..)
theorem promote (h : Hdr) (a : Reg) (s : Src2) : Statement (.promote h a s) := main rfl rfl rfl (encG_count ..)
theorem promoteH (h : Hdr) (a : Reg) (s : Src2) : Statement (.promoteH h a s) := main rfl rfl rfl (encG_count ..)
theorem demote (h : Hdr) (a : Reg) (s : Src2) : Statement (.demote h a s) := main rfl rfl rfl (encG_count ..)
theorem relCore (h : Hdr) : Statement (.relCore h) := main rfl rfl rfl (encG32_count ..)
theorem relCoreLong (h : Hdr) : Statement (.relCoreLong h) := main rfl rfl rfl (encG_count ..)
theorem relClu (h : Hdr) : Statement (.relClu h) := main rfl rfl rfl (encG32_count ..)
theorem relCluLong (h : Hdr) : Statement (.relCluLong h) := main rfl rfl rfl (encG_count ..)
theorem relDie (h : Hdr) : Statement (.relDie h) := main rfl rfl rfl (encG32_count ..)
theorem relDieLong (h : Hdr) : Statement (.relDieLong h) := main rfl rfl rfl (encG_count ..)
theorem relPkg (h : Hdr) : Statement (.relPkg h) := main rfl rfl rfl (encG32_count ..)
theorem relPkgLong (h : Hdr) : Statement (.relPkgLong h) := main rfl rfl rfl (encG_count ..)
theorem relSys (h : Hdr) : Statement (.relSys h) := main rfl rfl rfl (encG32_count ..)
theorem relSysLong (h : Hdr) : Statement (.relSysLong h) := main rfl rfl rfl (encG_count ..)
theorem acqCore (h : Hdr) (a : Reg) : Statement (.acqCore h a) := main rfl rfl rfl (encG32_count ..)
theorem acqCoreLong (h : Hdr) (a : Reg) : Statement (.acqCoreLong h a) := main rfl rfl rfl (encG_count ..)
theorem acqClu (h : Hdr) (a : Reg) : Statement (.acqClu h a) := main rfl rfl rfl (encG32_count ..)
theorem acqCluLong (h : Hdr) (a : Reg) : Statement (.acqCluLong h a) := main rfl rfl rfl (encG_count ..)
theorem acqDie (h : Hdr) (a : Reg) : Statement (.acqDie h a) := main rfl rfl rfl (encG32_count ..)
theorem acqDieLong (h : Hdr) (a : Reg) : Statement (.acqDieLong h a) := main rfl rfl rfl (encG_count ..)
theorem acqPkg (h : Hdr) (a : Reg) : Statement (.acqPkg h a) := main rfl rfl rfl (encG32_count ..)
theorem acqPkgLong (h : Hdr) (a : Reg) : Statement (.acqPkgLong h a) := main rfl rfl rfl (encG_count ..)
theorem acqSys (h : Hdr) (a : Reg) : Statement (.acqSys h a) := main rfl rfl rfl (encG32_count ..)
theorem acqSysLong (h : Hdr) (a : Reg) : Statement (.acqSysLong h a) := main rfl rfl rfl (encG_count ..)
theorem fenceCore (h : Hdr) : Statement (.fenceCore h) := main rfl rfl rfl (encG32_count ..)
theorem fenceCoreLong (h : Hdr) : Statement (.fenceCoreLong h) := main rfl rfl rfl (encG_count ..)
theorem fenceClu (h : Hdr) : Statement (.fenceClu h) := main rfl rfl rfl (encG32_count ..)
theorem fenceCluLong (h : Hdr) : Statement (.fenceCluLong h) := main rfl rfl rfl (encG_count ..)
theorem fenceDie (h : Hdr) : Statement (.fenceDie h) := main rfl rfl rfl (encG32_count ..)
theorem fenceDieLong (h : Hdr) : Statement (.fenceDieLong h) := main rfl rfl rfl (encG_count ..)
theorem fencePkg (h : Hdr) : Statement (.fencePkg h) := main rfl rfl rfl (encG32_count ..)
theorem fencePkgLong (h : Hdr) : Statement (.fencePkgLong h) := main rfl rfl rfl (encG_count ..)
theorem fenceSys (h : Hdr) : Statement (.fenceSys h) := main rfl rfl rfl (encG32_count ..)
theorem fenceSysLong (h : Hdr) : Statement (.fenceSysLong h) := main rfl rfl rfl (encG_count ..)
theorem aadd (h : Hdr) (sc : Scope) (d a : Reg) (t : Ty) (s : Src2) : Statement (.aadd h sc d a t s) := main rfl rfl rfl (encG_count ..)
theorem amin (h : Hdr) (sc : Scope) (d a : Reg) (t : Ty) (s : Src2) : Statement (.amin h sc d a t s) := main rfl rfl rfl (encG_count ..)
theorem amax (h : Hdr) (sc : Scope) (d a : Reg) (t : Ty) (s : Src2) : Statement (.amax h sc d a t s) := main rfl rfl rfl (encG_count ..)
theorem aor (h : Hdr) (sc : Scope) (d a : Reg) (t : Ty) (s : Src2) : Statement (.aor h sc d a t s) := main rfl rfl rfl (encG_count ..)
theorem aand (h : Hdr) (sc : Scope) (d a : Reg) (t : Ty) (s : Src2) : Statement (.aand h sc d a t s) := main rfl rfl rfl (encG_count ..)
theorem axchg (h : Hdr) (sc : Scope) (d a : Reg) (t : Ty) (s : Src2) : Statement (.axchg h sc d a t s) := main rfl rfl rfl (encG_count ..)
theorem acas (h : Hdr) (sc : Scope) (d a : Reg) (t : Ty) (s : Src2) : Statement (.acas h sc d a t s) := main rfl rfl rfl (encG_count ..)
theorem aaddN (h : Hdr) (sc : Scope) (a : Reg) (t : Ty) (s : Src2) : Statement (.aaddN h sc a t s) := main rfl rfl rfl (encG_count ..)
theorem aminN (h : Hdr) (sc : Scope) (a : Reg) (t : Ty) (s : Src2) : Statement (.aminN h sc a t s) := main rfl rfl rfl (encG_count ..)
theorem amaxN (h : Hdr) (sc : Scope) (a : Reg) (t : Ty) (s : Src2) : Statement (.amaxN h sc a t s) := main rfl rfl rfl (encG_count ..)
theorem aorN (h : Hdr) (sc : Scope) (a : Reg) (t : Ty) (s : Src2) : Statement (.aorN h sc a t s) := main rfl rfl rfl (encG_count ..)
theorem aandN (h : Hdr) (sc : Scope) (a : Reg) (t : Ty) (s : Src2) : Statement (.aandN h sc a t s) := main rfl rfl rfl (encG_count ..)
theorem vadd (h : Hdr) (d a : MOp) (t : Ty) (s : VSrc) : Statement (.vadd h d a t s) := main rfl rfl rfl (encV_count ..)
theorem vsub (h : Hdr) (d a : MOp) (t : Ty) (s : VSrc) : Statement (.vsub h d a t s) := main rfl rfl rfl (encV_count ..)
theorem vmul (h : Hdr) (d a : MOp) (t : Ty) (s : VSrc) : Statement (.vmul h d a t s) := main rfl rfl rfl (encV_count ..)
theorem vfma (h : Hdr) (d a : MOp) (t : Ty) (s : VSrc) : Statement (.vfma h d a t s) := main rfl rfl rfl (encV_count ..)
theorem vmin (h : Hdr) (d a : MOp) (t : Ty) (s : VSrc) : Statement (.vmin h d a t s) := main rfl rfl rfl (encV_count ..)
theorem vmax (h : Hdr) (d a : MOp) (t : Ty) (s : VSrc) : Statement (.vmax h d a t s) := main rfl rfl rfl (encV_count ..)
theorem vabs (h : Hdr) (d a : MOp) (t : Ty) : Statement (.vabs h d a t) := main rfl rfl rfl (encM64_count ..)
theorem vneg (h : Hdr) (d a : MOp) (t : Ty) : Statement (.vneg h d a t) := main rfl rfl rfl (encM64_count ..)
theorem vand (h : Hdr) (d a : MOp) (t : Ty) (s : VSrc) : Statement (.vand h d a t s) := main rfl rfl rfl (encV_count ..)
theorem vor (h : Hdr) (d a : MOp) (t : Ty) (s : VSrc) : Statement (.vor h d a t s) := main rfl rfl rfl (encV_count ..)
theorem vxor (h : Hdr) (d a : MOp) (t : Ty) (s : VSrc) : Statement (.vxor h d a t s) := main rfl rfl rfl (encV_count ..)
theorem vshl (h : Hdr) (d a : MOp) (t : Ty) (s : VSrc) : Statement (.vshl h d a t s) := main rfl rfl rfl (encV_count ..)
theorem vshr (h : Hdr) (d a : MOp) (t : Ty) (s : VSrc) : Statement (.vshr h d a t s) := main rfl rfl rfl (encV_count ..)
theorem vcvt (h : Hdr) (d a : MOp) (t t2 : Ty) (g : Reg) : Statement (.vcvt h d a t t2 g) := main rfl rfl rfl (encM96_count ..)
theorem vpack (h : Hdr) (d a : MOp) (t t2 : Ty) : Statement (.vpack h d a t t2) := main rfl rfl rfl (encM96_count ..)
theorem vunpack (h : Hdr) (d a : MOp) (t t2 : Ty) : Statement (.vunpack h d a t t2) := main rfl rfl rfl (encM96_count ..)
theorem vcmpEq (h : Hdr) (d a : MOp) (t : Ty) (s : VSrc) : Statement (.vcmpEq h d a t s) := main rfl rfl rfl (encV_count ..)
theorem vcmpNe (h : Hdr) (d a : MOp) (t : Ty) (s : VSrc) : Statement (.vcmpNe h d a t s) := main rfl rfl rfl (encV_count ..)
theorem vcmpLt (h : Hdr) (d a : MOp) (t : Ty) (s : VSrc) : Statement (.vcmpLt h d a t s) := main rfl rfl rfl (encV_count ..)
theorem vcmpLe (h : Hdr) (d a : MOp) (t : Ty) (s : VSrc) : Statement (.vcmpLe h d a t s) := main rfl rfl rfl (encV_count ..)
theorem vsel (h : Hdr) (d a : MOp) (s : VSrc) : Statement (.vsel h d a s) := main rfl rfl rfl (encV_count ..)
theorem vrotr (h : Hdr) (d a : MOp) (s : AmtSrc) : Statement (.vrotr h d a s) := main rfl rfl rfl (encAmt_count ..)
theorem vrotc (h : Hdr) (d a : MOp) (s : AmtSrc) : Statement (.vrotc h d a s) := main rfl rfl rfl (encAmt_count ..)
theorem vbcr (h : Hdr) (d a : MOp) (s : AmtSrc) : Statement (.vbcr h d a s) := main rfl rfl rfl (encAmt_count ..)
theorem vbcc (h : Hdr) (d a : MOp) (s : AmtSrc) : Statement (.vbcc h d a s) := main rfl rfl rfl (encAmt_count ..)
theorem vredrAdd (h : Hdr) (d a : MOp) (t : Ty) : Statement (.vredrAdd h d a t) := main rfl rfl rfl (encM64_count ..)
theorem vredrMax (h : Hdr) (d a : MOp) (t : Ty) : Statement (.vredrMax h d a t) := main rfl rfl rfl (encM64_count ..)
theorem vredrMin (h : Hdr) (d a : MOp) (t : Ty) : Statement (.vredrMin h d a t) := main rfl rfl rfl (encM64_count ..)
theorem vredrAmax (h : Hdr) (d a : MOp) (t : Ty) : Statement (.vredrAmax h d a t) := main rfl rfl rfl (encM64_count ..)
theorem vredcAdd (h : Hdr) (d a : MOp) (t : Ty) : Statement (.vredcAdd h d a t) := main rfl rfl rfl (encM64_count ..)
theorem vredcMax (h : Hdr) (d a : MOp) (t : Ty) : Statement (.vredcMax h d a t) := main rfl rfl rfl (encM64_count ..)
theorem vredcMin (h : Hdr) (d a : MOp) (t : Ty) : Statement (.vredcMin h d a t) := main rfl rfl rfl (encM64_count ..)
theorem vredcAmax (h : Hdr) (d a : MOp) (t : Ty) : Statement (.vredcAmax h d a t) := main rfl rfl rfl (encM64_count ..)
theorem vexp (h : Hdr) (d a : MOp) (t : Ty) : Statement (.vexp h d a t) := main rfl rfl rfl (encM64_count ..)
theorem vlog (h : Hdr) (d a : MOp) (t : Ty) : Statement (.vlog h d a t) := main rfl rfl rfl (encM64_count ..)
theorem vrcp (h : Hdr) (d a : MOp) (t : Ty) : Statement (.vrcp h d a t) := main rfl rfl rfl (encM64_count ..)
theorem vrsq (h : Hdr) (d a : MOp) (t : Ty) : Statement (.vrsq h d a t) := main rfl rfl rfl (encM64_count ..)
theorem vsin (h : Hdr) (d a : MOp) (t : Ty) : Statement (.vsin h d a t) := main rfl rfl rfl (encM64_count ..)
theorem vcos (h : Hdr) (d a : MOp) (t : Ty) : Statement (.vcos h d a t) := main rfl rfl rfl (encM64_count ..)
theorem vtanh (h : Hdr) (d a : MOp) (t : Ty) : Statement (.vtanh h d a t) := main rfl rfl rfl (encM64_count ..)
theorem vaddSat (h : Hdr) (d a : MOp) (t : Ty) (s : VSrc) : Statement (.vaddSat h d a t s) := main rfl rfl rfl (encV_count ..)
theorem vsubSat (h : Hdr) (d a : MOp) (t : Ty) (s : VSrc) : Statement (.vsubSat h d a t s) := main rfl rfl rfl (encV_count ..)
theorem vmulSat (h : Hdr) (d a : MOp) (t : Ty) (s : VSrc) : Statement (.vmulSat h d a t s) := main rfl rfl rfl (encV_count ..)
theorem vfmaSat (h : Hdr) (d a : MOp) (t : Ty) (s : VSrc) : Statement (.vfmaSat h d a t s) := main rfl rfl rfl (encV_count ..)
theorem vabsSat (h : Hdr) (d a : MOp) (t : Ty) : Statement (.vabsSat h d a t) := main rfl rfl rfl (encM64_count ..)
theorem vnegSat (h : Hdr) (d a : MOp) (t : Ty) : Statement (.vnegSat h d a t) := main rfl rfl rfl (encM64_count ..)
theorem vshlSat (h : Hdr) (d a : MOp) (t : Ty) (s : VSrc) : Statement (.vshlSat h d a t s) := main rfl rfl rfl (encV_count ..)
theorem wcall (h : Hdr) (a : Reg) (s : Src2) : Statement (.wcall h a s) := main rfl rfl rfl (encG_count ..)
theorem wstripe (h : Hdr) (a : Reg) (t : Ty) (s : Src2) : Statement (.wstripe h a t s) := main rfl rfl rfl (encG_count ..)
theorem wzero (h : Hdr) (s : Src2) : Statement (.wzero h s) := main rfl rfl rfl (encG_count ..)
theorem wdrain (h : Hdr) (d : Reg) (st : Ty) (t : Ty) (s : Src2) : Statement (.wdrain h d st t s) := main rfl rfl rfl (encG_count ..)
theorem lacq (h : Hdr) (s : Src2) : Statement (.lacq h s) := main rfl rfl rfl (encG_count ..)
theorem lacqT (h : Hdr) (d : Reg) (s : Src2) : Statement (.lacqT h d s) := main rfl rfl rfl (encG_count ..)
theorem lrel (h : Hdr) : Statement (.lrel h) := main rfl rfl rfl (encG_count ..)
theorem lcfg (h : Hdr) (a : Reg) (s : Src2) : Statement (.lcfg h a s) := main rfl rfl rfl (encG_count ..)
theorem lmm (h : Hdr) (a : Reg) (s : Src2) : Statement (.lmm h a s) := main rfl rfl rfl (encG_count ..)
theorem lmmA (h : Hdr) (a : Reg) (s : Src2) : Statement (.lmmA h a s) := main rfl rfl rfl (encG_count ..)
theorem lmmg (h : Hdr) (a : Reg) (s : Src2) : Statement (.lmmg h a s) := main rfl rfl rfl (encG_count ..)
theorem lmmgA (h : Hdr) (a : Reg) (s : Src2) : Statement (.lmmgA h a s) := main rfl rfl rfl (encG_count ..)
theorem lscore (h : Hdr) (a : Reg) (s : Src2) : Statement (.lscore h a s) := main rfl rfl rfl (encG_count ..)
theorem lscoreCm (h : Hdr) (a : Reg) (s : Src2) : Statement (.lscoreCm h a s) := main rfl rfl rfl (encG_count ..)
theorem lscoreTm (h : Hdr) (a : Reg) (s : Src2) : Statement (.lscoreTm h a s) := main rfl rfl rfl (encG_count ..)
theorem lpv (h : Hdr) (a : Reg) (s : Src2) : Statement (.lpv h a s) := main rfl rfl rfl (encG_count ..)
theorem lpvA (h : Hdr) (a : Reg) (s : Src2) : Statement (.lpvA h a s) := main rfl rfl rfl (encG_count ..)
theorem ldrain (h : Hdr) (d : Reg) (t : Ty) (s : Src2) : Statement (.ldrain h d t s) := main rfl rfl rfl (encG_count ..)
theorem wprep (w : BitVec 16) (col : BitVec 6) (p : BitVec 4) : Statement (.wprep w col p) := directive rfl rfl (kind_last _ _ _) (by decide)
theorem wprepa (w : BitVec 16) (row : BitVec 6) (p : BitVec 4) : Statement (.wprepa w row p) := directive rfl rfl (kind_last _ _ _) (by decide)
theorem wsum (ny nx : Bool) (y x : BitVec 5) (s : BitVec 4) : Statement (.wsum ny nx y x s) := directive rfl rfl (kind_last _ _ _) (by decide)
theorem wacc (x : BitVec 5) (f : BitVec 8) : Statement (.wacc x f) := directive rfl rfl (kind_last _ _ _) (by decide)
theorem wnacc (x : BitVec 5) (f : BitVec 8) : Statement (.wnacc x f) := directive rfl rfl (kind_last _ _ _) (by decide)
theorem wmap (x : BitVec 5) (m f : BitVec 8) (lit : BitVec 32) : Statement (.wmap x m f lit) := mapped rfl rfl (kind_last _ _ _)
theorem wjmp (j : BitVec 26) : Statement (.wjmp j) := directive rfl rfl (kind_last _ _ _) (by decide)
theorem whook (i : BitVec 8) : Statement (.whook i) := directive rfl rfl (kind_last _ _ _) (by decide)
theorem lwBias (a : BitVec 4) : Statement (.lwBias a) := logit rfl rfl rfl
theorem lwPenrep (a : BitVec 4) : Statement (.lwPenrep a) := logit rfl rfl rfl
theorem lwPenfrq (a : BitVec 4) : Statement (.lwPenfrq a) := logit rfl rfl rfl
theorem lwPenprs (a : BitVec 4) : Statement (.lwPenprs a) := logit rfl rfl rfl
theorem lwTemp (a : BitVec 4) : Statement (.lwTemp a) := logit rfl rfl rfl
theorem lwClamp (b a : BitVec 4) : Statement (.lwClamp b a) := logit rfl rfl rfl
theorem lwScale (b a : BitVec 4) : Statement (.lwScale b a) := logit rfl rfl rfl
theorem lwTopk (k : BitVec 16) : Statement (.lwTopk k) := logit rfl rfl rfl
theorem lwTopp (a : BitVec 4) : Statement (.lwTopp a) := logit rfl rfl rfl
theorem lwMinp (a : BitVec 4) : Statement (.lwMinp a) := logit rfl rfl rfl
theorem lwSetv (x : BitVec 16) (a : BitVec 4) : Statement (.lwSetv x a) := logit rfl rfl rfl
theorem lwSetvLo (x : BitVec 16) (a : BitVec 4) : Statement (.lwSetvLo x a) := logit rfl rfl rfl
theorem lwSkip (n : BitVec 16) : Statement (.lwSkip n) := logit rfl rfl rfl
theorem lwSkipZ (n : BitVec 16) (a : BitVec 4) : Statement (.lwSkipZ n a) := logit rfl rfl rfl
theorem lwSkipP (n : BitVec 16) (a : BitVec 4) : Statement (.lwSkipP n a) := logit rfl rfl rfl
theorem lwSkipNg (n : BitVec 16) : Statement (.lwSkipNg n) := logit rfl rfl rfl
theorem wend : Statement .wend := directive rfl rfl (kind_last _ _ _) (by decide)
theorem lwEnd : Statement .lwEnd := logit rfl rfl rfl
theorem lwLdc : Statement .lwLdc := logit rfl rfl rfl
theorem lwLdb : Statement .lwLdb := logit rfl rfl rfl
theorem lwMaskg : Statement .lwMaskg := logit rfl rfl rfl
theorem lwMaskb : Statement .lwMaskb := logit rfl rfl rfl
theorem lwSoftmax : Statement .lwSoftmax := logit rfl rfl rfl
theorem lwDraw : Statement .lwDraw := logit rfl rfl rfl
theorem lwArgmax : Statement .lwArgmax := logit rfl rfl rfl
theorem evLdReturn : Statement .evLdReturn := none_written rfl
theorem evResultWrite : Statement .evResultWrite := none_written rfl
theorem evModeCrossing : Statement .evModeCrossing := none_written rfl
theorem evPrcfgWrite : Statement .evPrcfgWrite := none_written rfl
theorem evRecordSettle : Statement .evRecordSettle := none_written rfl
theorem evL2Request : Statement .evL2Request := none_written rfl
theorem evLineFill : Statement .evLineFill := none_written rfl
theorem evFilterClear : Statement .evFilterClear := none_written rfl
theorem evPageWalk : Statement .evPageWalk := none_written rfl
theorem evCodeFetchArrival : Statement .evCodeFetchArrival := none_written rfl
theorem evPromotion : Statement .evPromotion := none_written rfl
theorem evDemotion : Statement .evDemotion := none_written rfl
theorem evRowOperationsDone : Statement .evRowOperationsDone := none_written rfl
theorem evRefresh : Statement .evRefresh := none_written rfl
theorem evScrub : Statement .evScrub := none_written rfl
theorem evHeartbeat : Statement .evHeartbeat := none_written rfl
theorem evHeartbeatMissed : Statement .evHeartbeatMissed := none_written rfl
theorem evFallbackRefresh : Statement .evFallbackRefresh := none_written rfl
theorem evRefreshHandback : Statement .evRefreshHandback := none_written rfl
theorem evCopyCommand : Statement .evCopyCommand := none_written rfl
theorem evCopyTransfer : Statement .evCopyTransfer := none_written rfl
theorem evCopyComplete : Statement .evCopyComplete := none_written rfl
theorem evProbeFill : Statement .evProbeFill := none_written rfl
theorem evFillDone : Statement .evFillDone := none_written rfl
theorem evInvalidatePages : Statement .evInvalidatePages := none_written rfl
theorem evInvalidateAll : Statement .evInvalidateAll := none_written rfl
theorem evInvalidateRange : Statement .evInvalidateRange := none_written rfl
theorem evInvalidateAsn : Statement .evInvalidateAsn := none_written rfl
theorem evTlbInvalidateAll : Statement .evTlbInvalidateAll := none_written rfl
theorem evMigrate : Statement .evMigrate := none_written rfl
theorem evReleaseOldFrame : Statement .evReleaseOldFrame := none_written rfl
theorem evCompile : Statement .evCompile := none_written rfl
theorem evPatch : Statement .evPatch := none_written rfl
theorem evStripeApply : Statement .evStripeApply := none_written rfl
theorem evZeroApply : Statement .evZeroApply := none_written rfl
theorem evSlackApply : Statement .evSlackApply := none_written rfl
theorem evCallRun : Statement .evCallRun := none_written rfl
theorem evSegmentStart : Statement .evSegmentStart := none_written rfl
theorem evRunGrant : Statement .evRunGrant := none_written rfl
theorem evGroupStart : Statement .evGroupStart := none_written rfl
theorem evTileLineArrival : Statement .evTileLineArrival := none_written rfl
theorem evRunLimit : Statement .evRunLimit := none_written rfl
theorem evLeaseCommandComplete : Statement .evLeaseCommandComplete := none_written rfl
theorem evLeaveGrant : Statement .evLeaveGrant := none_written rfl
theorem evPowerThrottle : Statement .evPowerThrottle := none_written rfl
theorem evOpen : Statement .evOpen := none_written rfl
theorem evBind : Statement .evBind := none_written rfl
theorem evClose : Statement .evClose := none_written rfl
theorem evSample : Statement .evSample := none_written rfl
theorem evSampleStage2 : Statement .evSampleStage2 := none_written rfl
theorem evCluster : Statement .evCluster := none_written rfl
theorem evVerify : Statement .evVerify := none_written rfl
theorem evNote : Statement .evNote := none_written rfl
theorem evGrammarBind : Statement .evGrammarBind := none_written rfl
theorem evUnbind : Statement .evUnbind := none_written rfl
theorem evQuery : Statement .evQuery := none_written rfl
theorem evInvalidate : Statement .evInvalidate := none_written rfl
theorem evRing : Statement .evRing := none_written rfl
theorem evRsum : Statement .evRsum := none_written rfl
theorem evA2a : Statement .evA2a := none_written rfl
theorem evCollectiveReceive : Statement .evCollectiveReceive := none_written rfl
theorem evKick : Statement .evKick := none_written rfl
theorem evDecodeFrame : Statement .evDecodeFrame := none_written rfl
theorem evSpawn : Statement .evSpawn := none_written rfl
theorem evDoorbell : Statement .evDoorbell := none_written rfl
theorem evLaunchAdmit : Statement .evLaunchAdmit := none_written rfl
theorem evMarkerComplete : Statement .evMarkerComplete := none_written rfl
theorem evTaskPlace : Statement .evTaskPlace := none_written rfl
theorem evTaskStart : Statement .evTaskStart := none_written rfl
theorem evTaskComplete : Statement .evTaskComplete := none_written rfl
theorem evTaskFault : Statement .evTaskFault := none_written rfl
theorem evEventPost : Statement .evEventPost := none_written rfl
theorem evAging : Statement .evAging := none_written rfl
theorem evTrapEntry : Statement .evTrapEntry := none_written rfl
theorem evPoisonRollback : Statement .evPoisonRollback := none_written rfl
theorem evSramError : Statement .evSramError := none_written rfl
theorem evFatalError : Statement .evFatalError := none_written rfl
theorem evImageLoad : Statement .evImageLoad := none_written rfl
theorem evContextExchange : Statement .evContextExchange := none_written rfl
theorem evImageDrain : Statement .evImageDrain := none_written rfl
theorem evCreate : Statement .evCreate := none_written rfl
theorem evSetvec : Statement .evSetvec := none_written rfl
theorem evDestroy : Statement .evDestroy := none_written rfl
theorem evQueue : Statement .evQueue := none_written rfl
theorem evPreempt : Statement .evPreempt := none_written rfl
theorem evDump : Statement .evDump := none_written rfl
theorem evFrames : Statement .evFrames := none_written rfl
theorem evLend : Statement .evLend := none_written rfl
theorem evPower : Statement .evPower := none_written rfl
theorem evAttest : Statement .evAttest := none_written rfl
theorem evFirmware : Statement .evFirmware := none_written rfl
theorem evManagementRegisterWrite : Statement .evManagementRegisterWrite := none_written rfl
theorem evHostRead : Statement .evHostRead := none_written rfl
theorem evHostWrite : Statement .evHostWrite := none_written rfl
theorem evLentAccess : Statement .evLentAccess := none_written rfl
theorem evFlitReceive : Statement .evFlitReceive := none_written rfl
theorem evPortDown : Statement .evPortDown := none_written rfl
theorem evPortUp : Statement .evPortUp := none_written rfl
theorem evReset : Statement .evReset := none_written rfl
theorem evStarvedClk : Statement .evStarvedClk := none_written rfl
theorem evProbeLag : Statement .evProbeLag := none_written rfl
theorem evPowerWithinBudget : Statement .evPowerWithinBudget := none_written rfl
theorem evOrderingComplete : Statement .evOrderingComplete := none_written rfl

end Sys2Proof.Laws.Parcels
end

