-- ==== Sys2Proof/Laws/Units.lean ====
section
/-!
SUPPORT. Laws of the units of the package: a core, a die, a stack or a FIFO reads as it was last left, and an update of one leaves
the others.
-/
namespace Sys2Proof.Machine

/-! ### Keyed lists -/

@[simp] theorem findKey_setKey_self {α : Type} (m : Sparse α) (k : Nat) (v : α) : findKey (setKey m k v) k = some v := by
  induction m with
  | nil => simp [setKey, findKey]
  | cons e m ih =>
    obtain ⟨j, w⟩ := e
    simp only [setKey]
    split
    · simp [findKey]
    · split
      · simp [findKey]
      · have : (j == k) = false := by simp; omega
        simpa [findKey, this] using ih

theorem findKey_setKey_ne {α : Type} (m : Sparse α) {k j : Nat} (v : α) (h : j ≠ k) : findKey (setKey m k v) j = findKey m j := by
  have hk : (k == j) = false := by simp; omega
  induction m with
  | nil => simp [setKey, findKey, hk]
  | cons e m ih =>
    obtain ⟨i, w⟩ := e
    simp only [setKey]
    split
    · simp [findKey, hk]
    · split
      · next e => subst e; simp [findKey, hk]
      · by_cases hi : (i == j) = true
        · simp [findKey, hi]
        · simpa [findKey, hi] using ih

@[simp] theorem findKey_eraseKey_self {α : Type} (m : Sparse α) (k : Nat) : findKey (eraseKey m k) k = none := by
  simp [findKey, eraseKey]

/-! ### Dies -/

theorem dieAt_setDie (s : State) (d k : Nat) (x : Die) : dieAt (setDie s d x) k = if k = d then x else dieAt s k := by
  rw [dieAt, setDie_dies, look_place]; rfl

@[simp] theorem dieAt_setDie_self (s : State) (d : Nat) (x : Die) : dieAt (setDie s d x) d = x := by simp [dieAt_setDie]

theorem dieAt_modDie (s : State) (d k : Nat) (f : Die → Die) : dieAt (modDie s d f) k = if k = d then f (dieAt s d) else dieAt s k := dieAt_setDie _ _ _ _

@[simp] theorem dieAt_modDie_self (s : State) (d : Nat) (f : Die → Die) : dieAt (modDie s d f) d = f (dieAt s d) := by simp [dieAt_modDie]

@[simp] theorem dieAt_modCore (s : State) (f : Core → Core) (k : Nat) : dieAt (modCore s f) k = dieAt s k := rfl
@[simp] theorem dieAt_modEng (s : State) (e : Eng) (f : Engine → Engine) (k : Nat) : dieAt (modEng s e f) k = dieAt s k := rfl
@[simp] theorem dieAt_setStack (s : State) (k : Nat) (x : Stack) (d : Nat) : dieAt (setStack s k x) d = dieAt s d := rfl

theorem dieAt_of_dies {s t : State} (h : t.dies = s.dies) (k : Nat) : dieAt t k = dieAt s k := by rw [dieAt, dieAt, h]

@[simp] theorem dieAt_focus (s : State) (c k : Nat) : dieAt (focus s c) k = dieAt s k := by unfold focus; split <;> rfl

/-! ### Cores -/

theorem coreAt_modCoreAt (s : State) (c k : Nat) (f : Core → Core) : coreAt (modCoreAt s c f) k = if k = c then f (coreAt s c) else coreAt s k := by
  unfold modCoreAt coreAt
  by_cases h : c = s.cur
  · by_cases hk : k = c
    · simp [h, hk]
    · have : ¬ k = s.cur := fun e => hk (e.trans h.symm)
      simp [h, this]
  · by_cases hk : k = c
    · subst hk; simp [h]
    · simp [h, hk, look_place]

theorem focus_cur (s : State) (c : Nat) : (focus s c).cur = c := by
  unfold focus; split <;> simp_all

theorem focus_core (s : State) (c : Nat) : (focus s c).core = coreAt s c := by
  unfold focus coreAt; split <;> rfl

/-- Bringing a core to the front changes none. -/
theorem coreAt_focus (s : State) (c k : Nat) : coreAt (focus s c) k = coreAt s k := by
  by_cases h : c = s.cur
  · rw [focus, if_pos h]
  · rw [focus, if_neg h]
    unfold coreAt
    dsimp only
    by_cases hk : k = c
    · have hc : ¬ k = s.cur := fun e => h (hk.symm.trans e)
      rw [if_pos hk, if_neg hc, hk]
    · rw [if_neg hk]
      by_cases hc : k = s.cur
      · rw [if_pos hc, hc, look_place_self]
      · rw [if_neg hc, look_place, if_neg hc, look_place, if_neg hk]

@[simp] theorem coreAt_modDie (s : State) (d : Nat) (f : Die → Die) (k : Nat) : coreAt (modDie s d f) k = coreAt s k := rfl
@[simp] theorem coreAt_setDie (s : State) (d : Nat) (x : Die) (k : Nat) : coreAt (setDie s d x) k = coreAt s k := rfl

/-! ### FIFOs -/

theorem fifoAt_setFifo (s : State) (d k : Nat) (f : Fifo) (e j : Nat) :
    fifoAt (setFifo s d k f) e j = if e = d ∧ j = k then f else fifoAt s e j := by
  unfold fifoAt setFifo
  rw [dieAt_modDie]
  by_cases he : e = d
  · subst he; by_cases hj : j = k <;> simp [hj, look_place]
  · simp [he]

@[simp] theorem coreAt_setFifo (s : State) (d k : Nat) (f : Fifo) (c : Nat) : coreAt (setFifo s d k f) c = coreAt s c := rfl

/-- A command that is answered leaves its FIFO, its result is the last one there, and no other FIFO changes. -/
theorem fifoAt_answer (s : State) (d k : Nat) (c : Cmd) (v : Word) (t : Nat) (f : Option FaultRec) (e j : Nat) :
    fifoAt (answer s d k c v t f) e j =
      if e = d ∧ j = k then
        { dropCmd (fifoAt s d k) c with results := (fifoAt s d k).results ++ [{ ctx := c.ctx, val := v, release := { time := t }, fault := f }] }
      else fifoAt s e j := by
  unfold answer postResult postRes
  rw [fifoAt_setFifo]
  by_cases h : e = d ∧ j = k
  · simp [h, fifoAt_setFifo, dropCmd]
  · simp [h, fifoAt_setFifo]

end Sys2Proof.Machine
end

