-- ==== Sys2Proof/Tests/Slice0.lean ====
section
/-!
SUPPORT. Tests: a state and operands that meet the hypotheses of each statement, ill-formed terms that the checks refuse, words
written out from the encodings of the manual, and single steps with the results the manual gives.
-/
set_option linter.unusedVariables false
set_option Elab.async false

open Sys2Proof Sys2Proof.Machine

namespace Sys2Proof.Tests

/-! ### Small states -/

/-- A header of engine `e` with no tokens, guard or rounding mode. -/
def hdr (e : Eng) : Hdr := { eng := e, gap := 0, sw := false, pop := 0, push := 0, guard := 0, rm := 0 }

/-- System registers, by number. -/
def regs (l : Sparse Word) : File Word := { cur := l, old := [], poison := [] }

/-- A core that runs task 0 of context 1 at user level, with a handler at 0x1000. -/
def core0 : Core := { ctx := some 1, task := some 0, running := true, sys := regs [(sysTVEC, 0x1000)] }

/-- The same at privileged level. -/
def coreP : Core := { core0 with sys := regs [(sysPRIV, 1), (sysTVEC, 0x1000)] }

/-- The package with core 0 as given. -/
def st (c : Core) : State := { State.reset with core := c }

/-- General registers of a core. -/
def withG (c : Core) (l : Sparse Word) : Core := { c with g := regs l }

/-- The state after an outcome that is a next state. -/
def after (o : Host.Outcome State Fault Refusal) : Option State := match o with | .next t => some t | .fault _ | .refused _ => none

/-- Nothing in a core stands in the way of an instruction without tokens or guard. -/
def clear (c : Core) (e : Eng) : Bool :=
  engineReady c e && (c.eng e).owed.isEmpty && c.landing.isEmpty && c.g.poison.isEmpty && c.cells.poison.isEmpty && c.near.poison.isEmpty && c.kMarks.isEmpty

theorem mustWait_clear {c : Core} {e : Eng} (h : clear c e = true) (f : Eng) (xs : List Loc) : mustWait c f xs = false := by
  simp only [clear, Bool.and_eq_true, List.isEmpty_iff] at h
  simp [mustWait, h.1.1.1.1.2]

theorem anyPoison_clear {c : Core} {e : Eng} (h : clear c e = true) (xs : List Loc) : anyPoison c xs = false := by
  simp only [clear, Bool.and_eq_true, List.isEmpty_iff] at h
  simp only [anyPoison, h.1.1.1.2, h.1.1.2, h.1.2, h.2, look, Bool.and_false, List.any_eq_false]
  intro x _
  cases x <;> simp

/-- There every instruction without tokens or guard issues, whatever it reads. -/
theorem issues_at (s : State) (e : Eng) (xs : List Loc) (hc : clear s.core e = true) : Issues s (hdr e) xs s := by
  have hm := hc
  simp only [clear, Bool.and_eq_true, List.isEmpty_iff] at hm
  have hpop : popped s (hdr e) = (s, none) := by
    simp [popped, hdr, maskEngs, allEngs, takePops]
  refine ⟨hm.1.1.1.1.1.1, hm.1.1.1.1.1.2, ?_, ?_, mustWait_clear hc _ _, hpop, anyPoison_clear hc _, ?_, mustWait_clear hc _ _, anyPoison_clear hc _⟩
  · simp [popsReady, hdr, maskEngs, allEngs]
  · simp [placesFree, hdr, maskEngs, allEngs]
  · simp [squashed, hdr]

theorem issues_hdr (c : Core) (e : Eng) (xs : List Loc) (hc : clear c e = true) : Issues (st c) (hdr e) xs (st c) :=
  issues_at (st c) e xs hc

/-! ### Every statement's hypotheses can be met -/

theorem wit_ScalarArithmetic (e : Eng) (d a : Reg) (o : Src2) :
    Issues (st core0) (hdr e) [.g a.toNat] (st core0) ∧ Issues (st core0) (hdr e) (.g a.toNat :: src2Locs o) (st core0) ∧
    outranked core0 e (core0.ck + 1) d.toNat = false :=
  ⟨issues_hdr _ _ _ (by cases e <;> decide), issues_hdr _ _ _ (by cases e <;> decide), rfl⟩

theorem wit_CountsConstantsFields (e : Eng) (d a : Reg) (o : Src2) :
    Issues (st core0) (hdr e) [.g a.toNat] (st core0) ∧ Issues (st core0) (hdr e) [] (st core0) ∧
    Issues (st core0) (hdr e) [.g d.toNat, .g a.toNat] (st core0) ∧
    Issues (st core0) (hdr e) (.g d.toNat :: .g a.toNat :: src2Locs o) (st core0) ∧ outranked core0 e (core0.ck + 1) d.toNat = false :=
  ⟨issues_hdr _ _ _ (by cases e <;> decide), issues_hdr _ _ _ (by cases e <;> decide), issues_hdr _ _ _ (by cases e <;> decide),
   issues_hdr _ _ _ (by cases e <;> decide), rfl⟩

/-- A divider that is busy for one clk more. -/
def coreDiv : Core := { core0 with engC := { dividerFree := 1 } }

theorem wit_ProductsAndBusyDividers (a : Reg) (o : Src2) :
    Issues (st core0) (hdr .a) (.g a.toNat :: src2Locs o) (st core0) ∧ Issues (st coreDiv) (hdr .c) [.g a.toNat] (st coreDiv) ∧
    Issues (st coreDiv) (hdr .c) (.g a.toNat :: src2Locs o) (st coreDiv) ∧ coreDiv.ck < (coreDiv.eng .c).dividerFree :=
  ⟨issues_hdr _ _ _ (by decide), issues_hdr _ _ _ (by decide), issues_hdr _ _ _ (by decide), by decide⟩

theorem wit_DivisionsLandByDividend (a : Reg) (o : Src2) :
    Issues (st core0) (hdr .c) [.g a.toNat] (st core0) ∧ Issues (st core0) (hdr .c) (.g a.toNat :: src2Locs o) (st core0) ∧
    (core0.eng .c).dividerFree ≤ core0.ck ∧ (1 : Word) ≠ 0 :=
  ⟨issues_hdr _ _ _ (by decide), issues_hdr _ _ _ (by decide), by decide, by decide⟩

theorem wit_MovesByCode (a d : Reg) :
    Issues (st core0) (hdr .a) [.g a.toNat] (st core0) ∧ Issues (st core0) (hdr .a) [] (st core0) ∧
    outranked core0 .a (core0.ck + 1) d.toNat = false ∧ (7 : Reg).toNat < 8 ∧ (31 : Reg).toNat < 32 :=
  ⟨issues_hdr _ _ _ (by decide), issues_hdr _ _ _ (by decide), rfl, by decide, by decide⟩

/-- Engine `e` of core 0 executes. -/
def stE (c : Core) (e : Eng) : State := { st c with eng := e }

/-- An outcome from the control engine waits for each of the others, one of the access engine for the control engine. -/
def coreOut : Core :=
  { core0 with outcomes := [(outcomeKey .c .a, [{ taken := true, target := 8, group := 0 }]), (outcomeKey .a .c, [{ taken := false, target := 0, group := 0 }])] }

theorem issuesS_core0 (e : Eng) : IssuesS (stE core0 e) := ⟨by cases e <;> decide, by cases e <;> rfl, by cases e <;> rfl⟩

theorem sources_core0 (e : Eng) (xs : List Loc) : SourcesReady (stE core0 e) xs :=
  ⟨mustWait_clear (c := core0) (e := .c) (by decide) _ _, anyPoison_clear (c := core0) (e := .c) (by decide) _⟩

theorem wit_SharedBranches (a b : Reg) :
    (IssuesS (stE core0 .c) ∧ outcomeRoom core0 .c = true ∧ SourcesReady (stE core0 .c) [.g a.toNat, .g b.toNat]) ∧
    (IssuesS (stE core0 .v) ∧ Eng.v ≠ .a ∧ outcomesOf core0 .a .v = []) ∧
    (IssuesS (stE coreOut .a) ∧ ∃ o os, outcomesOf coreOut .c .a = o :: os) :=
  ⟨⟨issuesS_core0 _, by decide, sources_core0 _ _⟩, ⟨issuesS_core0 _, by decide, by decide⟩, ⟨by decide, rfl, rfl⟩, _, _, rfl⟩

/-- The control engine is in the stretch of a private branch. -/
def coreLeave : Core := { core0 with engC := { pc := 64, walk := 3, stretch := some .leave } }

/-- A leave of group 3 is in progress; the vector engine stands at its branch, the access engine beyond that group. -/
def coreLeft : Core := { core0 with leaving := some (3, 256), engV := { walk := 3 }, engA := { walk := 4 } }

theorem wit_PrivateBranchesAndLeaves (a b : Reg) :
    (IssuesS (stE core0 .a) ∧ SourcesReady (stE core0 .a) [.g a.toNat, .g b.toNat]) ∧
    (IssuesS (stE core0 .w) ∧ ∀ pc, core0.leaving ≠ some (core0.engW.walk, pc)) ∧
    (IssuesS (stE coreLeft .v) ∧ coreLeft.leaving = some (coreLeft.engV.walk, 256)) ∧
    (3 < (coreLeft.eng .a).walk ∧ coreLeft.engA.joined = false ∧ coreLeft.running = true ∧ clkOpen coreLeft = true ∧
      coreLeft.engA.halted = false ∧ stateMarked coreLeft .a = false ∧ coreLeft.haltAt = none) ∧
    (engineReady coreLeave .c = true ∧ coreLeave.engC.owed = [] ∧ coreLeave.engC.stretch = some .leave ∧ coreLeave.leaving = none ∧
      privileged coreLeave = false) :=
  ⟨⟨issuesS_core0 _, sources_core0 _ _⟩, ⟨issuesS_core0 _, by simp [core0]⟩, ⟨⟨by decide, rfl, rfl⟩, rfl⟩, by decide, by decide⟩

/-- Targets of an indirect jump in g1 to g3: not aligned, not canonical, the last canonical one. -/
def coreJr : Core := withG core0 [(1, 2), (2, 2 ^ 48), (3, 2 ^ 48 - 4)]

theorem wit_Jumps :
    (IssuesS (stE core0 .c) ∧ outranked core0 .c (core0.ck + 1) 63 = false ∧ outranked core0 .c (core0.ck + 1) 0 = false) ∧
    (IssuesS (stE coreJr .c) ∧ outcomeRoom coreJr .c = true ∧ SourcesReady (stE coreJr .c) [.g 1]) ∧
    (readG (stE coreJr .c) .c 1).toNat % 4 ≠ 0 ∧ (readG (stE coreJr .c) .c 2).toNat = 2 ^ 48 ∧ (readG (stE coreJr .c) .c 3).toNat < 2 ^ 48 ∧
    (IssuesS (stE coreOut .a) ∧ ∃ o os, outcomesOf coreOut .c .a = o :: os) :=
  ⟨⟨issuesS_core0 _, rfl, rfl⟩, ⟨⟨by decide, rfl, rfl⟩, by decide, by decide, by decide⟩, by decide +kernel, by decide +kernel, by decide +kernel, ⟨by decide, rfl, rfl⟩, _, _, rfl⟩

theorem wit_LoopsCount (r : Reg) :
    (IssuesS (stE core0 .w)) ∧ (IssuesS (stE core0 .c) ∧ outcomeRoom core0 .c = true ∧ SourcesReady (stE core0 .c) [.g r.toNat]) ∧
    (IssuesS (stE coreOut .a) ∧ ∃ o os, outcomesOf coreOut .c .a = o :: os) :=
  ⟨issuesS_core0 _, ⟨issuesS_core0 _, by decide, sources_core0 _ _⟩, ⟨by decide, rfl, rfl⟩, _, _, rfl⟩

/-- The three other engines wait at the meeting point the vector engine reaches. -/
def coreSync : Core := { core0 with engC := { atSync := true }, engA := { atSync := true }, engW := { atSync := true } }

theorem wit_MeetingPoints :
    (IssuesS (stE core0 .v) ∧ core0.leaving = none ∧ privileged core0 = false ∧ (∀ e, (core0.eng e).pc = core0.engV.pc) ∧
      ∃ e, e ≠ Eng.v ∧ (core0.eng e).atSync = false) ∧
    (IssuesS (stE coreSync .v) ∧ (∀ e, (coreSync.eng e).pc = coreSync.engV.pc) ∧ ∀ e, e ≠ Eng.v → (coreSync.eng e).atSync = true) :=
  ⟨⟨issuesS_core0 _, rfl, by decide, fun e => by cases e <;> rfl, .c, by decide, rfl⟩, ⟨by decide, rfl, rfl⟩,
   fun e => by cases e <;> rfl, fun e he => by cases e <;> first | rfl | exact absurd rfl he⟩

theorem wit_FaultsAreTaken :
    (privileged core0 = false ∧ sysNow core0 sysTVEC ≠ 0 ∧ (2 ^ 64 - 4 : Nat) < 2 ^ 64 ∧ (∀ e, (core0.eng e).pc < 2 ^ 64) ∧
      ∀ l ∈ core0.landing, ∀ n ∈ l.counts, n < 32) ∧
    (privileged { core0 with sys := regs [] } = false ∧ sysNow { core0 with sys := regs [] } sysTVEC = 0) ∧ privileged coreP = true :=
  ⟨⟨by decide, by decide, by decide, fun e => by cases e <;> decide, by decide⟩, by decide, by decide⟩

theorem wit_ServicesAndHalt :
    (Issues (st core0) (hdr .c) [] (st core0) ∧ privileged core0 = false) ∧ (Issues (st coreP) (hdr .c) [] (st coreP) ∧ privileged coreP = true) :=
  ⟨⟨issues_hdr _ _ _ (by decide), by decide⟩, issues_hdr _ _ _ (by decide), by decide⟩

/-- A frame as a trap entry leaves it. -/
def frame0 : TrapFrame := frameOf core0

theorem wit_EretReturns :
    let c : Core := { coreP with trapFrame := some frame0 }
    (Issues (st core0) (hdr .c) [] (st core0) ∧ privileged core0 = false) ∧
    (Issues (st c) (hdr .c) [] (st c) ∧ privileged c = true ∧ c.trapFrame = some frame0) :=
  ⟨⟨issues_hdr _ _ _ (by decide), by decide⟩, issues_hdr _ _ _ (by decide), by decide, rfl⟩

theorem wit_SysrReadsRegisters (n : SysNum) :
    (Issues (st core0) (hdr .c) (sysNumLocs n) (st core0) ∧ Issues (st coreP) (hdr .c) (sysNumLocs n) (st coreP)) ∧
    sysAssigned 0x3FFF = false ∧ privileged core0 = false ∧
    (∀ k ∈ [0, sysPRIV, sysCPFE, 0x403], sysAssigned k = true ∧ ¬(0x301 ≤ k ∧ k ≤ 0x30C) ∧ k ≠ sysLSES ∧ ¬(sysFEC ≤ k ∧ k < sysFEC + 32)) ∧
    (∀ k ∈ [0x301, 0x30C], sysAssigned k = true ∧ privileged coreP = true) ∧ outranked core0 .c (core0.ck + 1) 0 = false :=
  ⟨⟨issues_hdr _ _ _ (by decide), issues_hdr _ _ _ (by decide)⟩, by decide, by decide, by decide, by decide, rfl⟩

theorem wit_SyswChecksInOrder (a : Reg) (n : SysNum) :
    (Issues (st core0) (hdr .c) (.g a.toNat :: sysNumLocs n) (st core0) ∧ Issues (st coreP) (hdr .c) (.g a.toNat :: sysNumLocs n) (st coreP)) ∧
    sysAssigned 0x6 = false ∧ (sysOVT = sysOVT ∧ 0x210 ≤ 0x233 ∧ sysPRIV = 0x300) ∧ (privileged core0 = false ∧ privileged coreP = true) ∧
    (sysValueOk sysSLIPW (2 ^ 32) = false ∧ sysValueOk sysTVEC 2 = false ∧ sysValueOk sysTVEC (2 ^ 48) = false) ∧
    (∀ k ∈ [sysSLIPW, sysPRCFG, sysFTSEL, sysLNA, sysLNA + 31, sysHKTB], sysAssigned k = true ∧ k ≠ sysOVT ∧ k ≠ sysLSES ∧
      ¬(0x210 ≤ k ∧ k ≤ 0x233) ∧ k ≠ sysPRIV ∧ ¬(0x400 ≤ k ∧ k ≤ 0x403) ∧ sysValueOk k 1 = true) ∧
    core0.prcfgWait = none ∧ core0.probeTags.any ProbeTag.pending = false :=
  ⟨⟨issues_hdr _ _ _ (by decide), issues_hdr _ _ _ (by decide)⟩, by decide, by decide, by decide, by decide, by decide, by decide⟩

/-- Words for LDOVT in g1 to g3: a bit above 15, a reserved entry, a good table. -/
def coreOvt : Core := withG coreP [(1, 0x10000), (2, 0xC000), (3, 0xAAAA)]

theorem wit_LdovtWritesTable :
    (Issues (st core0) (hdr .c) [.g 1] (st core0) ∧ privileged core0 = false) ∧
    (∀ a : Reg, Issues (st coreOvt) (hdr .c) [.g a.toNat] (st coreOvt)) ∧ privileged coreOvt = true ∧
    2 ^ 16 ≤ (readG (st coreOvt) .c 1).toNat ∧
    (∃ i, i < 8 ∧ (readG (st coreOvt) .c 2).getLsbD (2 * i) = true ∧ (readG (st coreOvt) .c 2).getLsbD (2 * i + 1) = true) ∧
    ((readG (st coreOvt) .c 3).toNat < 2 ^ 16 ∧ ∀ i, i < 8 → ¬((readG (st coreOvt) .c 3).getLsbD (2 * i) = true ∧ (readG (st coreOvt) .c 3).getLsbD (2 * i + 1) = true)) :=
  ⟨⟨issues_hdr _ _ _ (by decide), by decide⟩, fun a => issues_hdr _ _ _ (by decide), by decide, by decide +kernel, ⟨7, by decide +kernel⟩, by decide +kernel⟩

/-! ### Pages -/

/-- A leaf of a page at `frame` that may be read and written: coherence, compression. -/
def leafWord (frame coh comp : Nat) : Word := BitVec.ofNat 64 (frame + 2 ^ 53 + 2 ^ 54 + coh * 2 ^ 62 + comp * 2 ^ 57 + 2)

/-- A page of 64 KiB at `64 KiB x n`. -/
def page (n : Nat) (leaf : Word) : TlbEntry := { asn := 0, base := 65536 * n, size := 65536, leaf := leaf }

/-- Pages 1 L, 2 P, 3 O, 4 of class N, 5 the FIFOs of die 0, 6 L and compressed, 7 readable alone, 8 the management registers,
9 the copy FIFOs, 10 and 11 of a frame that does not exist. -/
def pages : List TlbEntry :=
  [page 1 (leafWord 0x10000 1 0), page 2 (leafWord 0x20000 0 0), page 3 (leafWord 0x30000 2 0), page 4 (leafWord (2 * 2 ^ 50) 0 0),
   page 5 (leafWord (3 * 2 ^ 50) 0 0), page 6 (leafWord 0x60000 1 1), page 7 (BitVec.ofNat 64 (0x70000 + 2 ^ 53 + 2)),
   page 8 (leafWord (3 * 2 ^ 50 + 0x1000000) 0 0), page 9 (leafWord (3 * 2 ^ 50 + 0x10000) 0 0), page 10 (leafWord (2 ^ 49) 1 0)]

/-- Register n names page n, g11 and g12 addresses that fault, g13 the last bytes of page 1; loop-nest access 0 starts at g1, access
1 has a reserved bit; a probe configuration of one slot at block 0; near block 0 in place. -/
def corePg : Core :=
  { core0 with
    tlb := pages
    g := regs [(1, 0x10000), (2, 0x20000), (3, 0x30000), (4, 0x40000), (5, 0x50000), (6, 0x60000), (7, 0x70000), (8, 0x80000), (9, 0x90000),
      (10, 0xA0000), (11, 2 ^ 48), (12, 0x10001), (13, 0x1FFF8)]
    sys := regs [(sysPRCFG, 1024), (sysSPT, 2 ^ 63), (sysLNA, 2 ^ 58), (sysLNA + 1, 2 ^ 48), (sysTVEC, 0x1000)] }

/-- A translation that succeeds, with what holds of its page. -/
theorem tr_ok {t : Tr} {P : TlbEntry → Nat → Prop} [∀ e pa, Decidable (P e pa)]
    (h : (match t with | .ok e pa => decide (P e pa) | .miss => false | .bad _ => false) = true) : ∃ e pa, t = .ok e pa ∧ P e pa := by
  cases t with
  | ok e pa => exact ⟨e, pa, rfl, of_decide_eq_true h⟩
  | miss => exact absurd h Bool.false_ne_true
  | bad f => exact absurd h Bool.false_ne_true

theorem tr_bad {t : Tr} (h : (match t with | .ok _ _ => false | .miss => false | .bad _ => true) = true) : ∃ f, t = .bad f := by
  cases t with
  | ok e pa => exact absurd h Bool.false_ne_true
  | miss => exact absurd h Bool.false_ne_true
  | bad f => exact ⟨f, rfl⟩

theorem some_of {α : Type} {o : Option α} (h : o.isSome = true) : ∃ x, o = some x := Option.isSome_iff_exists.1 h

theorem corePg_clear (e : Eng) : clear corePg e = true := by cases e <;> decide

theorem addressed (b : Base) (o : Src2) (w : Word) (hw : baseAddr (st corePg) b = some w) :
    Addressed (st corePg) b o (w + src2S (st corePg) .a o) :=
  ⟨mustWait_clear (corePg_clear .a) _ _, anyPoison_clear (corePg_clear .a) _, w, hw, rfl⟩

theorem issuesPg (e : Eng) (xs : List Loc) : Issues (st corePg) (hdr e) xs (st corePg) := issues_hdr _ _ _ (corePg_clear e)

/-- Register `n` as base, `i` as displacement. -/
theorem addressedReg (n : Reg) (o : Src2) : Addressed (st corePg) (.reg n) o (readG (st corePg) .a n.toNat + src2S (st corePg) .a o) :=
  addressed _ _ _ rfl

theorem wit_AddressesAndTheirFaults (d : Reg) (o : Src2) :
    (Issues (st corePg) (hdr .a) (src2Locs o) (st corePg) ∧ mustWait corePg .a (lnLocs (st corePg) 0) = false ∧
      anyPoison corePg (lnLocs (st corePg) 0) = false ∧ ((readSys (st corePg) .a sysLNA).toNat / 2 ^ 48) % 2 ^ 10 = 0 ∧
      ((readSys (st corePg) .a (sysLNA + 1)).toNat / 2 ^ 48) % 2 ^ 10 ≠ 0) ∧
    (mustWait corePg .a [.g d.toNat] = false ∧ ∀ n : Reg, Addressed (st corePg) (.reg n) o (readG (st corePg) .a n.toNat + src2S (st corePg) .a o)) ∧
    (2 ^ 48 ≤ (readG (st corePg) .a 11).toNat ∧ (readG (st corePg) .a 12).toNat % (widthOf .s16 / 8) ≠ 0 ∧
      (∃ f, translate (st corePg) .a 0x70000 { w := true } = .bad f) ∧ (∃ f, translate (st corePg) .a 0xA0000 { r := true } = .bad f) ∧
      (∃ e pa, translate (st corePg) .a 0x50000 { r := true } = .ok e pa ∧ classOf pa = 3 ∧ isManagement (windowOffset pa) = false) ∧
      (∃ e pa, translate (st corePg) .a 0x80000 { w := true } = .ok e pa ∧ classOf pa = 3 ∧ widthOf .s32 / 8 ≠ 8)) :=
  ⟨⟨issuesPg _ _, mustWait_clear (corePg_clear .a) _ _, anyPoison_clear (corePg_clear .a) _, by decide +kernel, by decide +kernel⟩,
   ⟨mustWait_clear (corePg_clear .a) _ _, fun n => addressedReg n o⟩,
   by decide +kernel, by decide +kernel, tr_bad (by decide +kernel), tr_bad (by decide +kernel), tr_ok (by decide +kernel), tr_ok (by decide +kernel)⟩

/-- 32 loads under way. -/
def coreLds : Core :=
  { corePg with landing := List.replicate 32 { due := none, eng := .a, seq := 0, scoreboard := true, act := .write [], isLoad := true } }

theorem wit_Loads (o : Src2) :
    (Issues (st corePg) (hdr .a) (src2Locs o) (st corePg) ∧ Addressed (st corePg) (.nest 0) o (0x10000 + src2S (st corePg) .a o) ∧
      (∀ v ∈ [0x10000, 0x20000, 0x30000, 0x80000, 0x1FFF8], ∃ e pa, accessPage (st corePg) v 8 { r := true } = .ok e pa ∧
        reachFault (st corePg) v pa 8 = none ∧ orderHeld corePg (isOrdered e pa) = false) ∧ outstandingLoads corePg < 32 ∧ (st corePg).found = none) ∧
    (Issues (st coreLds) (hdr .a) [] (st coreLds) ∧ Addressed (st coreLds) (.reg 1) (.imm 0) 0x10000 ∧ 32 ≤ outstandingLoads coreLds ∧
      ∃ e pa, accessPage (st coreLds) 0x10000 8 { r := true } = .ok e pa ∧ reachFault (st coreLds) 0x10000 pa 8 = none) := by
  refine ⟨⟨issuesPg _ _, addressed _ _ _ (by decide +kernel), ?_, by decide, rfl⟩, ⟨?_, ?_, ?_, ?_, ?_, ?_, ?_, ?_, ?_, ?_⟩, ⟨?_, ?_, 0x10000, ?_, ?_⟩, by decide, ?_⟩
  · intro v hv
    simp only [List.mem_cons, List.not_mem_nil, or_false] at hv
    rcases hv with rfl | rfl | rfl | rfl | rfl <;> exact tr_ok (by decide +kernel)
  all_goals first | decide +kernel | exact tr_ok (by decide +kernel)

theorem wit_Stores (d : Reg) (o : Src2) :
    (Issues (st corePg) (hdr .a) (src2Locs o) (st corePg) ∧ mustWait corePg .a [.g d.toNat] = false ∧ anyPoison corePg [.g d.toNat] = false ∧
      corePg.ctx = some 1 ∧ corePg.log.length < 8192 ∧ ∀ n : Reg, Addressed (st corePg) (.reg n) o (readG (st corePg) .a n.toNat + src2S (st corePg) .a o)) ∧
    (∀ v ∈ [0x10000, 0x1FFF8], ∃ e pa, accessPage (st corePg) v 8 { w := true } = .ok e pa ∧ classOf pa < 2 ∧ leafCoh e.leaf = .l ∧
      pa % 16 + 8 ≤ 16 ∧ orderHeld corePg false = false) ∧
    (∃ e pa, accessPage (st corePg) 0x20000 8 { w := true } = .ok e pa ∧ classOf pa < 2 ∧ leafCoh e.leaf = .p ∧ pa % 128 + 8 ≤ 128) ∧
    (∃ e pa, accessPage (st corePg) 0x30000 8 { w := true } = .ok e pa ∧ classOf pa < 2 ∧ leafCoh e.leaf = .o ∧ pa % 128 + 8 ≤ 128 ∧
      orderHeld corePg true = false) ∧
    TimesBelow (st corePg) 0 0x10000 ∧ LatestOf (st corePg) 0x10000 ∧ PlainLine (st corePg) 0x200 .l ∧ (st corePg).found = none ∧
    (∀ k ∈ keysAt (st corePg) 0x30000, k.time ≤ (look (0, 0) (st corePg).oLines 0x600).2) ∧ classOf (2 ^ 51) = 2 := by
  refine ⟨⟨issuesPg _ _, mustWait_clear (corePg_clear .a) _ _, anyPoison_clear (corePg_clear .a) _, rfl, by decide, fun n => addressedReg n o⟩, ?_, ?_, ?_, ?_, fun l r m hl => by simp [st, corePg, core0] at hl, ⟨fun a => rfl, fun l hl => ?_⟩, rfl, ?_, by decide⟩
  · intro v hv
    simp only [List.mem_cons, List.not_mem_nil, or_false] at hv
    rcases hv with rfl | rfl <;> exact tr_ok (by decide +kernel)
  · exact tr_ok (by decide +kernel)
  · exact tr_ok (by decide +kernel)
  · exact ⟨by decide +kernel, by decide +kernel, by decide +kernel⟩
  · exact absurd hl (List.not_mem_nil)
  · decide +kernel

/-- A tile as matrix operand. -/
def tileOp (r : BitVec 5) : MOp := { reg := r, view := .tile, idx := 0 }
/-- A row as matrix operand. -/
def rowOp (r : BitVec 5) (i : BitVec 6) : MOp := { reg := r, view := .row, idx := i }

/-- Segment addresses in g1 and g2: the start of near memory, a byte past its first block; the weight engine is groups ahead. -/
def coreSeg : Core := { corePg with g := regs [(2, 32768)], engW := { walk := 5 } }

theorem wit_MatrixMovesEnterThePort (x : SegSrc) :
    Issues (st coreSeg) (hdr .a) (segLocs x) (st coreSeg) ∧ mustWait coreSeg .a (baseLocs (st coreSeg) (.reg 1)) = false ∧
    baseAddr (st coreSeg) (.reg 1) = some 0 ∧ baseAddr (st coreSeg) (.reg 2) = some 32768 ∧ baseAddr (st coreSeg) (.nest 0) = some 0 ∧
    (∃ f, (segmentPlaces 32768 1 0).findSome? (fun b => segFault (st coreSeg) b (segBytes (rowOp 0 0) .f32)) = some f) ∧
    ((segList (st coreSeg) (.lit 0)).1 = 0 ∧ (segmentPlaces 0 0 0).findSome? (fun b => segFault (st coreSeg) b 4096) = none) ∧
    ((segList (st coreSeg) .one).1 = 1 ∧ (segmentPlaces 0 1 0).findSome? (fun b => segFault (st coreSeg) b (segBytes (rowOp 31 15) .f32)) = none ∧
      orderHeld coreSeg false = false ∧ coreSeg.portFree ≤ coreSeg.ck ∧ portWaits coreSeg = false ∧
      mustWait coreSeg .a (((List.range 1).flatMap (segmentCells (rowOp 31 15))).map Loc.cell) = false ∧
      mstHeld (st coreSeg) ((segmentPlaces 0 1 0).map (fun b => (b.toNat, segBytes (rowOp 31 15) .f32))) = false) :=
  ⟨issues_hdr _ _ _ (by decide), mustWait_clear (e := .a) (by decide) _ _, by decide +kernel, by decide +kernel, by decide +kernel,
   some_of (by decide +kernel), ⟨by decide +kernel, by decide +kernel⟩, by decide +kernel, by decide +kernel, by decide, by decide, by decide,
   mustWait_clear (e := .a) (by decide) _ _, by decide +kernel⟩

/-- The block of page 1 is in slot 0, pending. -/
def coreHit : Core := { corePg with probeTags := [{ entry := 0, pending := true, block := 16 }] }

theorem wit_Probes (o : Src2) (d : Reg) :
    (Issues (st coreHit) (hdr .a) (src2Locs o) (st coreHit) ∧ outranked coreHit .a (coreHit.ck + 1) d.toNat = false ∧
      mustWait coreHit .a (baseLocs (st coreHit) (.reg 1)) = false ∧ baseAddr (st coreHit) (.reg 1) = some 0x10000 ∧
      (∃ e pa, accessPage (st coreHit) 0x10000 1 { r := true } = .ok e pa ∧ classOf pa < 2) ∧ bits (sysNow coreHit sysPRCFG) 19 10 = 1 ∧
      bits (sysNow coreHit sysPRCFG) 9 0 + 1 ≤ 512 ∧ bits (sysNow core0 sysPRCFG) 19 10 = 0 ∧ orderHeld coreHit false = false ∧
      coreHit.probeTags.any ProbeTag.mark = false ∧
      ∃ g, coreHit.probeTags.find? (fun y => y.block == (0x10000 : Word).toNat / 4096) = some g) ∧
    (Issues (st corePg) (hdr .a) (src2Locs o) (st corePg) ∧ corePg.fillQueue.length < 16 ∧
      (∃ e pa, accessPage (st corePg) 0x10000 1 { r := true } = .ok e pa ∧ classOf pa < 2) ∧
      corePg.probeTags.find? (fun y => y.block == (0x10000 : Word).toNat / 4096) = none ∧ probeVictim corePg 1 = some 0) :=
  ⟨⟨issues_hdr _ _ _ (by decide), rfl, mustWait_clear (e := .a) (by decide) _ _, by decide +kernel, tr_ok (by decide +kernel), by decide +kernel,
    by decide +kernel, by decide +kernel, by decide, by decide, some_of (by decide +kernel)⟩, issuesPg _ _, by decide, tr_ok (by decide +kernel), by decide, by decide +kernel⟩

theorem wit_AtomicsComplete (d : Reg) (o : Src2) :
    (∀ a : Reg, Issues (st corePg) (hdr .a) (.g a.toNat :: (src2Locs o ++ [.g d.toNat])) (st corePg) ∧
      Issues (st corePg) (hdr .a) (.g a.toNat :: src2Locs o) (st corePg)) ∧
    (∃ e pa, accessPage (st corePg) (readG (st corePg) .a 4).toNat 4 { r := true, w := true } = .ok e pa ∧ classOf pa = 2) ∧
    (∃ e pa, accessPage (st corePg) (readG (st corePg) .a 6).toNat 4 { r := true, w := true } = .ok e pa ∧ classOf pa < 2 ∧ leafComp e.leaf ≠ 0) ∧
    (∃ e pa, accessPage (st corePg) (readG (st corePg) .a 2).toNat 4 { r := true, w := true } = .ok e pa ∧ classOf pa < 2 ∧
      leafComp e.leaf = 0 ∧ scopeAdmitted .clu (leafCoh e.leaf) = false ∧ scopeAdmitted .core (leafCoh e.leaf) = true) ∧
    (∃ e pa, accessPage (st corePg) (readG (st corePg) .a 13).toNat 8 { r := true, w := true } = .ok e pa ∧ classOf pa < 2 ∧
      leafComp e.leaf = 0 ∧ scopeAdmitted .sys (leafCoh e.leaf) = true ∧ (∀ b, orderHeld corePg b = false) ∧
      outstandingAtomics corePg < 16 ∧ corePg.log.length < 8192 ∧
      (∀ sc ∈ [Scope.core, .clu, .die, .pkg, .sys], scopeAdmitted sc (leafCoh e.leaf) = true ∧ atomicPoison (st corePg) e sc pa 8 = false) ∧
      exclusiveCopy (st corePg) (pa / 128) = none ∧ (st corePg).found = none ∧ pa % 16 + 8 ≤ 16) ∧
    NoneMoves (st corePg) ∧
    (∃ e pa, accessPage (st corePg) (readG (st corePg) .a 2).toNat 4 { r := true, w := true } = .ok e pa ∧ classOf pa < 2 ∧
      leafComp e.leaf = 0 ∧ leafCoh e.leaf = .p ∧ atomicPoison (st corePg) e .core pa 4 = false ∧ l1Find (st corePg) (pa / 128) .p = none ∧ pa % 16 + 4 ≤ 16) ∧
    (∃ e pa, accessPage (st corePg) (readG (st corePg) .a 3).toNat 8 { r := true, w := true } = .ok e pa ∧ classOf pa < 2 ∧
      leafComp e.leaf = 0 ∧ leafCoh e.leaf = .o ∧ scopeAdmitted .die (leafCoh e.leaf) = true ∧ atomicPoison (st corePg) e .die pa 8 = false ∧ pa % 16 + 8 ≤ 16 ∧
      ∀ i, i < 8 → ∀ k ∈ keysAt (st corePg) (pa + i), k.time ≤ (look (0, 0) (st corePg).oLines (pa / 128)).2) := by
  refine ⟨fun a => ⟨issuesPg _ _, issuesPg _ _⟩, ?_, ?_, ?_, ?_, ?_, ?_, ?_⟩
  case refine_5 => exact fun d hd => absurd hd List.not_mem_nil
  all_goals exact tr_ok (by decide +kernel)

/-! ### Ordering, FIFOs, copies -/

/-- A read that succeeds and meets no poison, with what holds of it. -/
theorem read_ok {σ ε α : Type} {x : σ × Except ε (α × Bool)} {P : α → Prop} [DecidablePred P]
    (h : (match x.2 with | .ok b => !b.2 && decide (P b.1) | .error _ => false) = true) : ∃ s b, x = (s, .ok (b, false)) ∧ P b := by
  obtain ⟨s, r⟩ := x
  cases r with
  | error e => exact absurd h Bool.false_ne_true
  | ok b =>
    simp only [Bool.and_eq_true, Bool.not_eq_true', decide_eq_true_eq] at h
    exact ⟨s, b.1, by rw [← h.1], h.2⟩

/-- A result that succeeds, with what holds of it. -/
theorem ok_of {σ ε α : Type} {x : σ × Except ε α} {P : α → Prop} [DecidablePred P]
    (h : (match x.2 with | .ok b => decide (P b) | .error _ => false) = true) : ∃ s b, x = (s, .ok b) ∧ P b := by
  obtain ⟨s, r⟩ := x
  cases r with
  | error e => exact absurd h Bool.false_ne_true
  | ok b => exact ⟨s, b, rfl, of_decide_eq_true h⟩

/-- Selector words in g1 to g8: a reserved kind, a reserved bit, the log of core 8, all logs in reach, four more whose mask or number
is reserved or out of reach; what core 1 has published at time 1 is known. -/
def coreAcq : Core :=
  { withG core0 [(1, 3 * 2 ^ 62), (2, 2 ^ 16), (3, 2 ^ 62 + 8), (5, 1), (6, 2 ^ 62 + 256), (7, 2 ^ 63 + 32), (8, 2 ^ 63 + 256 + 1)] with known := [(8 * 1 + 4, 1)] }

/-- A record that core 1 has published at time 1. -/
def pub1 : LogRec := { block := 0x10000, data := 0, mask := 255, ctx := 1, time := some 1 }

/-- Core 0 as above, and core 1 with that record. -/
def stAcq : State := { st coreAcq with others := [(1, { core0 with log := [pub1] })] }

theorem wit_OrderingInstructions (a : Reg) :
    (Issues (st core0) (hdr .a) [] (st core0) ∧ orderHeld core0 true = false ∧ accessesDone (st core0) = true ∧ core0.lostStores = 0) ∧
    (Issues (st coreAcq) (hdr .a) [.g a.toNat] (st coreAcq) ∧ (readG (st coreAcq) .a 1).toNat / 2 ^ 62 = 3 ∧
      (readG (st coreAcq) .a 2).toNat / 2 ^ 16 % 2 ^ 46 ≠ 0 ∧ (readG (st coreAcq) .a 3).toNat / 2 ^ 8 = 2 ^ 54 ∧
      reaches 0 0 ((readG (st coreAcq) .a 3).toNat % 2 ^ 8) = false ∧ reaches 1 0 ((readG (st coreAcq) .a 3).toNat % 2 ^ 8) = false ∧
      (∃ ws, selected 4 0 (readG (st coreAcq) .a 4) = .ok ws) ∧ orderHeld coreAcq true = false) ∧
    ((let w := (readG (st coreAcq) .a 5).toNat; w / 2 ^ 62 = 0 ∧ w % 2 ^ 16 ≠ 0) ∧
      (let w := (readG (st coreAcq) .a 6).toNat; w / 2 ^ 62 = 1 ∧ w / 2 ^ 8 % 2 ^ 8 ≠ 0) ∧
      (let w := (readG (st coreAcq) .a 7).toNat; w / 2 ^ 62 = 2 ∧ 32 ≤ w % 2 ^ 8) ∧
      (let w := (readG (st coreAcq) .a 8).toNat
       w / 2 ^ 16 = 2 ^ 47 ∧ w % 2 ^ 8 < 32 ∧ ∃ i < 8, w.testBit (8 + i) = true ∧ reaches 1 0 (8 * (w % 2 ^ 8) + i) = false)) ∧
    (Issues stAcq (hdr .a) [.g a.toNat] stAcq ∧ selected 4 0 (readG stAcq .a 4) = .ok (List.range 256) ∧ reaches 4 1 0 = true ∧
      pub1 ∈ (coreAt stAcq 1).log ∧ pub1.time = some 1 ∧ 1 ≤ look 0 stAcq.core.known (8 * 1 + 4) ∧ pub1.settled = false ∧ some pub1.ctx = stAcq.core.ctx) ∧
    orderHeld core0 false = false :=
  ⟨⟨issues_hdr _ _ _ (by decide), by decide, by decide +kernel, rfl⟩,
   ⟨issues_hdr _ _ _ (by decide), by decide +kernel, by decide +kernel, by decide +kernel, by decide +kernel, by decide +kernel, ⟨_, rfl⟩, by decide⟩,
   ⟨by decide +kernel, by decide +kernel, by decide +kernel, by decide +kernel, by decide +kernel, 0, by decide, by decide +kernel, by decide +kernel⟩,
   ⟨issues_at _ _ _ (by decide), by decide +kernel, by decide +kernel, by decide +kernel, rfl, by decide +kernel, rfl, rfl⟩, by decide⟩

/-- Core 0 pushes and pops at the FIFOs of die 0: FIFO 0 is full, FIFO 1 holds a result, FIFO 2 one with a fault. -/
def stFifo : State :=
  { st corePg with
    dies := [(0, { fifos :=
      [(0, { cmds := List.replicate 64 { ctx := 1, core := 0, stamp := 0, task := none, words := [0, 0] } }),
       (1, { results := [{ ctx := 1, val := 7 }] }),
       (2, { results := [{ ctx := 1, val := 9, fault := some { code := .lease } }] })] })] }

theorem wit_WindowFifos (o : Src2) :
    (∀ e, Issues stFifo (hdr e) (src2Locs o) stFifo) ∧
    (∀ n ∈ [1, 5, 8], ∃ e pa, translate stFifo .a (65536 * n) { w := true } = .ok e pa ∧ (fifoReached stFifo pa = none ↔ n ≠ 5)) ∧
    (∀ k ∈ [0, 1, 7], ∃ e pa, translate stFifo .a (src2Z stFifo .a (.lit (BitVec.ofNat 32 (0x50000 + 64 * k)))).toNat { w := true } = .ok e pa ∧
      fifoReached stFifo pa = some (0, k)) ∧
    (64 < (63 : Reg).toNat + (fifoShape 0).1 ∧ (62 : Reg).toNat + (fifoShape 0).1 ≤ 64 ∧ fifoFull stFifo 0 0 = true ∧ fifoFull stFifo 0 1 = false ∧
      (∀ xs, mustWait stFifo.core .a xs = false ∧ anyPoison stFifo.core xs = false) ∧ orderHeld stFifo.core true = false ∧
      ∀ d : Reg, outranked stFifo.core .a (stFifo.core.ck + 1) d.toNat = false) ∧
    (∃ e pa, translate stFifo .a 0x50040 { r := true } = .ok e pa ∧ fifoReached stFifo pa = some (0, 1) ∧
      (takeElement (touchTlb stFifo e) 0 0).isNone = true ∧
      (takeElement (touchTlb stFifo e) 0 1).map (fun x => (x.1.val, x.1.fault.isNone, x.1.mark)) = some (7, true, false) ∧
      (takeElement (touchTlb stFifo e) 0 2).map (fun x => (x.1.val, x.1.fault.isSome, x.1.mark)) = some (9, true, false)) ∧
    (∀ k ∈ [0, 1, 2], outOfTurn stFifo 0 (fifoAt stFifo 0 k).pushed = false ∧ outOfTurn stFifo 0 (fifoAt stFifo 0 k).popped = false) ∧
    privileged stFifo.core = false ∧ sysNow stFifo.core sysTVEC ≠ 0 := by
  refine ⟨fun e => issues_at _ _ _ (corePg_clear e), ?_, ?_, ⟨by decide, by decide, by decide +kernel, by decide +kernel, ?_, by decide, fun _ => rfl⟩,
    tr_ok (by decide +kernel), by decide +kernel, by decide +kernel, by decide +kernel⟩
  · intro n hn
    simp only [List.mem_cons, List.not_mem_nil, or_false] at hn
    rcases hn with rfl | rfl | rfl <;> exact tr_ok (by decide +kernel)
  · intro k hk
    simp only [List.mem_cons, List.not_mem_nil, or_false] at hk
    rcases hk with rfl | rfl | rfl <;> exact tr_ok (by decide +kernel)
  · exact fun xs => ⟨mustWait_clear (c := corePg) (corePg_clear .a) _ _, anyPoison_clear (c := corePg) (corePg_clear .a) _⟩

/-- Promotion counts in g1 and g2. -/
theorem wit_CopiesAndRowCommandsIssue (a d : Reg) (o : Src2) :
    (Issues (st corePg) (hdr .a) (.g d.toNat :: copyLocs a o) (st corePg) ∧ Issues (st corePg) (hdr .a) (copyLocs a o) (st corePg) ∧
      orderHeld corePg false = false ∧ corePg.copyQueue.length < 32 ∧ (pushedCopies (st corePg)).isEmpty = true ∧
      mustWait corePg .a (lnLocs (st corePg) 0) = false ∧ anyPoison corePg (lnLocs (st corePg) 0) = false ∧ lnAddress (st corePg) 0 = some 0x10000) ∧
    (Issues (st corePg) (hdr .a) (.g a.toNat :: src2Locs o) (st corePg) ∧ (src2Z (st corePg) .a (.imm 0)).toNat = 0 ∧
      4096 < (src2Z (st corePg) .a (.imm 4097)).toNat ∧ corePg.rowOps.length < 16 ∧
      ∃ e pa, translateRights (st corePg) .a 0x10000 { r := true } = .ok e pa ∧ 0x10000 / 1024 * 1024 + 1024 * 64 ≤ e.base + e.size ∧ classOf pa ≠ 3 ∧
        ∀ k, k < 64 → backed (pa / 1024 * 1024 + 1024 * k) = true) :=
  ⟨⟨issuesPg _ _, issuesPg _ _, by decide, by decide, by decide, mustWait_clear (corePg_clear .a) _ _, anyPoison_clear (corePg_clear .a) _,
    by decide +kernel⟩, issuesPg _ _, by decide +kernel, by decide +kernel, by decide, tr_ok (by decide +kernel)⟩

/-! ### The vector engine -/

theorem wit_IntegerAndBitLanes (xs : List Loc) :
    (∀ t ∈ [Ty.s4, .s32, .z8], fmtOf t = none) ∧ Issues (st core0) (hdr .v) xs (st core0) ∧
    SameCount 64 (rowOp 0 0) (rowOp 31 15) (.lit 0) ∧ SameCount 64 (rowOp 0 0) (rowOp 1 0) (.mat (rowOp 2 0)) ∧ SameCount 1024 (tileOp 0) (tileOp 1) (.mat (tileOp 1)) :=
  ⟨by decide, issues_hdr _ _ _ (by decide), by refine ⟨?_, ?_, fun m h => ?_⟩ <;> first | decide | exact absurd h (by simp),
   by refine ⟨?_, ?_, fun m h => ?_⟩ <;> first | decide | (injection h with h; subst h; decide),
   by refine ⟨?_, ?_, fun m h => ?_⟩ <;> first | decide +kernel | (injection h with h; subst h; decide +kernel)⟩

theorem wit_FloatLanesAndSpecials (xs : List Loc) :
    (∀ t ∈ [Ty.f32, .bf16, .e2m1], ∃ f, fmtOf t = some f) ∧ Issues (st core0) (hdr .v) xs (st core0) ∧ SameCount 64 (rowOp 0 0) (rowOp 31 15) (.lit 0) :=
  ⟨fun t ht => some_of (by simp only [List.mem_cons, List.not_mem_nil, or_false] at ht; rcases ht with rfl | rfl | rfl <;> rfl),
   (wit_IntegerAndBitLanes xs).2.1, (wit_IntegerAndBitLanes xs).2.2.1⟩

theorem wit_SelectionsAndTileMoves (x : AmtSrc) :
    Issues (st core0) (hdr .v) [] (st core0) ∧ Issues (st core0) (hdr .v) (amountLocs x) (st core0) ∧ (∀ ys, mustWait core0 .v ys = false) ∧
    SameCount 64 (rowOp 0 0) (rowOp 31 15) (.lit 0) :=
  ⟨issues_hdr _ _ _ (by decide), issues_hdr _ _ _ (by decide), fun _ => mustWait_clear (e := .v) (by decide) _ _, (wit_IntegerAndBitLanes []).2.2.1⟩

theorem wit_ConversionsAndReductions (xs : List Loc) :
    Issues (st core0) (hdr .v) xs (st core0) ∧ SameCount 64 (rowOp 0 0) (rowOp 31 15) (.lit 0) ∧ Ty.e4m3 ≠ .mq4 :=
  ⟨issues_hdr _ _ _ (by decide), (wit_IntegerAndBitLanes []).2.2.1, by decide⟩

/-! ### The weight-code engine -/

/-- Bytes of a matrix header at 0x20040 and a hook table at 0x20000 whose entry 1 names it. -/
def headerMem : Sparse Byte :=
  [(0x20008, 0x40), (0x2000A, 2), (0x2000F, 0x80), (0x20040, 0x44), (0x20041, 0x4F), (0x20042, 0x43), (0x20043, 0x57), (0x2005E, 1), (0x20060, 64),
   (0x20064, 1), (0x20068, 0x80), (0x2006A, 2)]

/-- g1 names the header, g2 a place that is no multiple of 4, g3 a stripe. -/
def coreW : Core := { corePg with g := regs [(1, 0x20040), (2, 2), (3, 512)], engW := { exposed := some true } }

def stW (c : Core) : State := { st c with mem := headerMem }

/-- A full weight-code queue. -/
def coreWFull : Core := { coreW with wQueue := List.replicate 16 { op := .slack 0, id := 0, tag := 0, push := 0, seq := 0 } }

theorem wit_WeightInstructions (a : Reg) (o : Src2) :
    ((∀ e, Issues (stW coreW) (hdr e) (.g a.toNat :: src2Locs o) (stW coreW)) ∧ (∀ e, Issues (stW coreW) (hdr e) (src2Locs o) (stW coreW)) ∧
      (readG (stW coreW) .w 2).toNat % 4 ≠ 0 ∧ coreW.wQueue.length < 16 ∧ stripeFault { base := 512, pitch := 512, k := 1, ty := .s8 } = none) ∧
    (Issues (stW coreWFull) (hdr .w) (src2Locs o) (stW coreWFull) ∧ 16 ≤ coreWFull.wQueue.length) ∧
    (callHeld coreW = false ∧ (∃ e pa, translate (stW coreW) .w (readG (stW coreW) .w 1).toNat { r := true } = .ok e pa ∧ classOf pa = 0) ∧
      (∃ p1 m, readMatrix (stW coreW) (readG (stW coreW) .w 1).toNat = (p1, .ok (m, false)) ∧ m.rows = 1) ∧
      (readMatrix (stW coreW) (readG (stW coreW) .w 1).toNat).1.core.wQueue = coreW.wQueue) ∧
    (weightIdle coreW = true ∧ coreW.accPoison = []) :=
  ⟨⟨fun e => issues_at _ _ _ (by cases e <;> decide), fun e => issues_at _ _ _ (by cases e <;> decide), by decide +kernel, by decide, by decide +kernel⟩,
   ⟨issues_at _ _ _ (by decide), by decide⟩, ⟨by decide +kernel, tr_ok (by decide +kernel), read_ok (by decide +kernel), by decide +kernel⟩, by decide, rfl⟩

/-- A call in its first segment of two; one that ends, and one in a hooked descriptor. -/
def pos0 : StreamPos := { gen := 0, arow := 0, segTable := 0, segCount := 2, seg := 0, pc := 0x10000, parcels := 4, inSegment := true }
def call0 : StreamCall :=
  { cmd := { op := .call 0x20040 0 0, id := 0, tag := 0, push := 0, seq := 0 }, abase := 0, floatKind := false, pos := pos0 }

/-- The stream side runs `k` on a stripe of one row of s8 at near address 0. -/
def coreS (k : StreamCall) : Core := { coreW with call := some k, stripe := { k := 1, ty := .s8 }, sys := regs [(sysSPT, 2 ^ 63), (sysHKTB, 0x20000), (sysTVEC, 0x1000)] }

theorem wit_Directives :
    let s := stW (coreS call0)
    s.core.call = some call0 ∧ call0.pos.inSegment = true ∧ tableWf 0 s.core.slots = true ∧ tableWf 0 s.core.acc = true ∧ s.core.slotPoison = [] ∧
    s.core.accPoison = [] ∧ call0.pos.colbase + (0 : BitVec 6).toNat < s.core.stripe.k ∧
    (rowAddrs s.core.stripe 0).findSome? (nearCheck s 4) = none ∧ (rowAddrs s.core.stripe 0).any (nearPending s.core none) = false ∧
    (rowAddrs s.core.stripe 0).any (nearPoison s 4) = false ∧ ((mapTargets 3 0xFFFFFF01).map (fun y => y.1)).Nodup :=
  ⟨rfl, rfl, rfl, rfl, rfl, rfl, by decide, by decide +kernel, by decide +kernel, by decide +kernel, by decide +kernel⟩

theorem wit_StreamControl :
    let s := stW (coreS call0)
    s.core.call = some call0 ∧ call0.pos.inSegment = true ∧ call0.pos.seg + 1 < call0.pos.segCount ∧
    ({ pos0 with seg := 1 }).segCount ≤ ({ pos0 with seg := 1 }).seg + 1 ∧ ({ call0 with caller := some pos0 }).caller.isSome = true ∧ call0.caller = none ∧
    bits (fileRead 0 s.core.sys s.tick saltSys 4 sysHKTB) 2 0 = 0 ∧ bits (fileRead 0 s.core.sys s.tick saltSys 4 sysHKTB) 63 48 = 0 ∧
    (∃ s1 bs, coreRead s (privileged s.core) 0 ((fileRead 0 s.core.sys s.tick saltSys 4 sysHKTB).toNat + 8 * 0) 8 = (s1, .ok (bs, false)) ∧ leNat bs < 2 ^ 48) ∧
    (∃ s1 bs, coreRead s (privileged s.core) 0 ((fileRead 0 s.core.sys s.tick saltSys 4 sysHKTB).toNat + 8 * 1) 8 = (s1, .ok (bs, false)) ∧
      bits (BitVec.ofNat 64 (leNat bs)) 62 48 = 0 ∧ (BitVec.ofNat 64 (leNat bs)).getLsbD 63 = true ∧ bits (BitVec.ofNat 64 (leNat bs)) 47 0 = 0x20040) ∧
    bits (fileRead 0 (regs [(sysHKTB, 0x20001)]) 0 saltSys 4 sysHKTB) 2 0 ≠ 0 ∧
    (coreRead { s with memPoison := [(0x1000, true)] } (privileged s.core) 0 0x20008 8).2.toOption.map Prod.snd = some true ∧
    (coreRead s (privileged s.core) 0 0xA0008 8).2.toOption = none :=
  ⟨rfl, rfl, by decide, by decide, rfl, rfl, by decide +kernel, by decide +kernel, read_ok (by decide +kernel), read_ok (by decide +kernel),
   by decide +kernel, by decide +kernel, by decide +kernel⟩

/-! ### The lease array -/

/-- The control engine with an open session, and words of LMM in g1: row and column 0, one by one. -/
def coreL : Core := { core0 with leaseOpen := true, leaseClass := 1, sys := regs [(sysFMT, 0x21), (sysTVEC, 0x1000)] }

theorem wit_LeaseInstructions (a d : Reg) (o : Src2) :
    ((∀ xs, Issues (st core0) (hdr .c) xs (st core0) ∧ Issues (st coreL) (hdr .c) xs (st coreL)) ∧ core0.leaseOwed = [] ∧ core0.leaseOpen = false ∧
      outranked core0 .c (core0.ck + 1) d.toNat = false ∧ coreL.leaseOpen = true ∧ coreL.leaseQueue = [] ∧
      (∀ n, leaveHeld { st core0 with leaves := [(0, n)] } n ≠ none ∧ Issues { st core0 with leaves := [(0, n)] } (hdr .c) (src2Locs o) { st core0 with leaves := [(0, n)] } ∧
        leaveHeld { st core0 with leaveQueue := [(8, 0)] } n = none) ∧ ({ st core0 with leaveQueue := [(8, 0)] }).leaveQueue ≠ []) ∧
    (slotClean 8 [0, 0, 0, 0] = true ∧ slotClean 0 [0, 0, 0, 0] = true ∧ wordOk (readG (st coreL) .c a.toNat) 32 = true ∧ fmtOk (st coreL) .c (currentFmt (st coreL) .c) = true ∧
      coreL.leaseQueue.length < 16 ∧ coreL.bankPoison = []) := by
  refine ⟨⟨fun xs => ⟨issues_hdr _ _ _ (by decide), issues_hdr _ _ _ (by decide)⟩, rfl, rfl, rfl, rfl, rfl, fun n => ⟨by simp [leaveHeld, leavesOf, st, State.reset, core0], issues_at _ _ _ (show clear core0 .c = true by decide),
    rfl⟩, by decide⟩, by decide +kernel, by decide +kernel, ?_, by decide +kernel, by decide, rfl⟩
  have : readG (st coreL) .c a.toNat = 0 := by unfold readG; split <;> rfl
  rw [this]; decide +kernel

theorem c0 (e : Eng) : clear core0 e = true := by cases e <;> decide

theorem wit_LeaseFormsComplete (a d : Reg) (o : Src2) :
    (core0.leaseOwed = [] ∧ core0.leaseOpen = false ∧ Issues (st core0) (hdr .c) (src2Locs o) (st core0)) ∧
    (∀ n, leaveHeld { st core0 with leaves := [(0, n)] } n ≠ none) ∧
    (∀ n, let s := { st core0 with budget := leaseCharge n }
     leaveHeld s n = none ∧ s.leaveQueue = [] ∧ leaveFits s n = true ∧ Issues s (hdr .c) (src2Locs o) s) ∧
    ((∀ n, leaveHeld { st core0 with leaveQueue := [(8, 0)] } n = none) ∧ ({ st core0 with leaveQueue := [(8, 0)] }).leaveQueue ≠ []) ∧
    (coreL.leaseOwed = [] ∧ coreL.leaseOpen = true ∧ coreL.leaseQueue.length < 16 ∧ coreL.bankPoison = [] ∧ ∀ xs, Issues (st coreL) (hdr .c) xs (st coreL)) ∧
    (slotClean 8 [0, 0, 0, 0] = true ∧ slotClean 0 [0, 0, 0, 0] = true ∧ wordOk (readG (st coreL) .c a.toNat) 32 = true ∧
      fmtOk (st coreL) .c (currentFmt (st coreL) .c) = true) :=
  ⟨⟨rfl, rfl, issues_hdr _ _ _ (by decide)⟩, fun n => by simp [leaveHeld, leavesOf, st, State.reset, core0],
   fun n => ⟨rfl, rfl, by simp [leaveFits, st, State.reset]; omega, issues_at _ _ _ (c0 .c)⟩, ⟨fun _ => rfl, by decide⟩,
   ⟨rfl, rfl, by decide, rfl, fun _ => issues_hdr _ _ _ (by decide)⟩,
   ⟨(wit_LeaseInstructions a d o).2.1, (wit_LeaseInstructions a d o).2.2.1, (wit_LeaseInstructions a d o).2.2.2.1, (wit_LeaseInstructions a d o).2.2.2.2.1⟩⟩

/-! ### What the device does -/

/-- The pages every shared engine of die 0 has in its TLB, and context 1 on core 0 of it. -/
def die0 : Die :=
  { tlbs := (List.range 13).map (fun k => (k, pages))
    contexts := [{ num := 1, mask := 1, ptb := 0x100000, mailFirst := 0, mailCount := 0, ring := 0x10000 }] }

/-- A package with core 0, die 0 and memory as given. -/
def stD (c : Core) (d : Die) (m : Sparse Byte) (a : EvArg) : State := { st c with dies := [(0, d)], mem := m, arg := a }

/-- A command of context 1 from core 0. -/
def cmd (ws : List Word) : Cmd := { ctx := 1, core := 0, stamp := 0, task := none, words := ws }

/-- Die 0 with one command in FIFO `k`. -/
def dieCmd (k : Nat) (ws : List Word) : Die := { die0 with fifos := [(k, { cmds := [cmd ws] })] }

theorem wit_ResultsCrossingsAndFetches :
    let l : Landing := { due := none, eng := .a, seq := 0, scoreboard := true, act := .write [{ loc := .g 63, val := 5 }] }
    let m : Landing := { l with due := some 0 }
    let c := { core0 with landing := [l] }
    let cs := { core0 with engC := { atCross := true }, engA := { atCross := true }, engV := { atCross := true }, engW := { atCross := true } }
    let co := { core0 with engC := { owed := [{ code := .lease }], decoded := [{ addr := 0, parcels := [0] }] } }
    ((c.landing.filter (fun x => x.due.isNone))[0]? = some l ∧ outranked c .a (c.ck + 1) 63 = false ∧ dueEntries { c with landing := [m] } = [m] ∧
      outranked c .a 0 63 = false) ∧
    ((∀ e, (cs.eng e).atCross = true) ∧ cs.landing = [] ∧ cs.outcomes = []) ∧
    (({ core0 with prcfgWait := some (1024, false) }).prcfgWait = some (1024, false) ∧ core0.probeTags.any ProbeTag.pending = false ∧
      coreHit.probeTags.any ProbeTag.pending = true) ∧
    (allEngs.filter (standsAt co) = [.c] ∧ privileged co = false ∧ sysNow co sysTVEC ≠ 0) ∧ ({ core0 with codeRequests := [4] }).codeRequests[0]? = some 4 ∧
    (st core0).found = none ∧ sectorWaits (st core0) (256 * 4) = false ∧
    sectorWaits (stD core0 { die0 with slices := [(homeSlice 1024, { requests := [{ line := 8, policy := 0, write := false, who := 5 }] })] } [] {}) (256 * 4) = true := by
  refine ⟨by decide, ⟨fun e => by cases e <;> rfl, rfl, rfl⟩, by decide, by decide, rfl, rfl, by decide +kernel, by decide +kernel⟩

/-- A published record of block 0x10000, held for task 0 or not. -/
def record (prov : Option Nat) : LogRec := { block := 0x10000, data := 255, mask := 255, ctx := 1, time := some 1, prov := prov }

theorem wit_RecordsAndOrderings :
    let p := st { core0 with log := [record none] }
    let waits : Machine.Ordering → OrderWait := fun o => { op := o, push := 0, id := 0, seq := 0 }
    (p.core.log[0]? = some (record none) ∧ linePinned p 0x10000 = false ∧ movedFrom p 0x10000 = none ∧ (record none).comp = 0 ∧
      (record (some 0)).prov.isSome = true) ∧
    (∀ o ∈ [Machine.Ordering.rel 4 1, .rel 0 1, .fence 4 1, .fence 3 1, .settle false 1, .settle true 1], ([waits o])[0]? = some (waits o)) ∧
    settledUpTo p.core 1 = false ∧ settledUpTo p.core 0 = true ∧ (∀ f ∈ p.core.flying, (waits (.rel 4 1)).id ≤ f.id) ∧
    ∃ f ∈ ({ core0 with flying := [{ ws := [(2 ^ 51, 1, 255)], mark := false, id := 0 }] } : Core).flying, f.id < 1 :=
  ⟨⟨rfl, by decide +kernel, by decide +kernel, rfl, rfl⟩, fun _ _ => rfl, by decide, by decide, fun _ h => absurd h List.not_mem_nil,
    ⟨_, List.mem_singleton.2 rfl, by decide⟩⟩

theorem wit_RowsAndRefresh :
    let r : Nat → RowOp := fun k => { kind := k, addr := 0, core := 0, seq := 0 }
    let x : Nat → Stack := fun k => { rowOps := [r k] }
    (∀ k ∈ [0, 1, 2], (x k).rowOps[0]? = some (r k) ∧ (x k).rowOps.take 0 = [] ∧ refusing (x k) = false ∧ look [] (x k).promo 0 = [] ∧
      refusing { x k with failed := true } = true) ∧
    (({ core0 with rowOps := [(0, 5, 8, 0)] }).rowOps[0]? = some (0, 5, 8, 0) ∧ core0.trapFrame = none ∧ Eng.a ∉ maskEngs 8) ∧
    (({} : Stack).failed = false ∧ ({} : Stack).lastBeat + 700 * (({} : Stack).missed + 1) ≤ 700 ∧
      (∃ y : Stack, y.failed = true ∧ y.fallbackStart = none) ∧
      (∃ y : Stack, y.failed = true ∧ y.fallbackStart = some 0 ∧ 8 ≤ y.readyBeats ∧ 0 < 11200000 ∧ (11200000 - 0) % 11200000 = 0)) :=
  ⟨by decide, by decide, by decide, by decide, ⟨{ failed := true }, rfl, rfl⟩, { failed := true, fallbackStart := some 0, readyBeats := 8 }, rfl, rfl, by decide⟩

/-- A page table at 0x100000 that maps granule 1 to page 1. -/
def tableMem : Sparse Byte :=
  [(0x100000, 1), (0x100001, 0x10), (0x100002, 0x10), (0x101000, 1), (0x101001, 0x20), (0x101002, 0x10), (0x102000, 1), (0x102001, 0x30),
   (0x102002, 0x10), (0x103008, 2), (0x10300A, 1), (0x10300E, 0x60), (0x10300F, 0x40)]

theorem wit_SlicesAndWalks :
    let r : L2Req := { line := 512, policy := 0, write := false, who := 0 }
    let hit : Slice := { lines := [{ line := 512, dirty := false, pins := 0, noAlloc := false }], requests := [r] }
    let miss : Slice := { requests := [r] }
    let d : Die := { die0 with walkQueue := [{ asn := 0, granule := 1, root := 0x100000, asks := [{ who := 0 }] }] }
    let s := stD core0 d tableMem {}
    let p := fun (g : Nat) => readWords s 0 0x100000 (g * 65536) [{ who := 0 }]
    (hit.requests[0]? = some r ∧ hit.requests.take 0 = [] ∧ hit.fills = [] ∧ (∃ l ∈ hit.lines, l.line = 512) ∧ miss.lines = []) ∧
    (({ miss with fills := [r] }).fills[0]? = some r ∧ r.policy = 0 ∧ (miss.lines.filter (fun l => l2Set l.line == l2Set 512)).length < 16 ∧
      ({ miss with misses := 65536 }).misses = 65536) ∧
    ((dieAt s 0).walkQueue[0]? = some { asn := 0, granule := 1, root := 0x100000, asks := [{ who := 0 }] } ∧
      walkPoison (p 1) 0 0x100000 (1 * 65536) = false ∧ walkPoison (p 0) 0 0x100000 (0 * 65536) = false ∧
      (walk (p 1) (dieAt (p 1) 0) 0x100000 0x10000).1 = .ok (page 1 (leafWord 0x10000 1 0)) ∧ (walk (p 0) (dieAt (p 0) 0) 0x100000 0).1 = .error 1 ∧ s.cur < 256 ∧
      refusedFor (.ok (page 1 (leafWord 0x10000 1 0))) (1 * 65536) { who := 0 } = none ∧
      refusedFor (.ok (page 1 (leafWord 0x10000 1 0))) (1 * 65536) { who := 0, want := { x := true } } = some 4 ∧
      ((dieAt s 0).walkQueue.filter (fun r => r.same (bits (0x100000 : Word) 63 52) 1)).flatMap WalkReq.asks = [{ who := s.cur }]) ∧
    (let t := stD { core0 with task := none } { d with walkQueue := [{ asn := 0, granule := 1, root := 0x100000, asks := [{ who := 0 }], mark := true }] } tableMem {}
     canRollBack t (askTask t { who := 0 }) = false) := by
  exact ⟨by decide, by decide, ⟨rfl, by decide +kernel, by decide +kernel, by decide +kernel, by decide +kernel, by decide, by decide +kernel, by decide +kernel,
    by decide +kernel⟩, by decide +kernel⟩

theorem wit_InvalidationsAndMigrations :
    (∀ w : Word, nextCmd (fifoAt (stD core0 (dieCmd fifoCode [w, 0]) [] {}) 0 fifoCode) = some (cmd [w, 0]) ∧
      nextCmd (fifoAt (stD core0 (dieCmd fifoWalk [w, 0]) [] {}) 0 fifoWalk) = some (cmd [w, 0])) ∧
    (bits (2 ^ 32 : Word) 7 0 = 0 ∧ bits (2 ^ 32 : Word) 31 0 = 0 ∧ bits (2 ^ 32 : Word) 63 32 = 1 ∧ bits (0 : Word) 63 32 = 0 ∧ bits (1 : Word) 7 0 = 1 ∧
      bits (1 : Word) 31 8 = 0 ∧ bits (2 : Word) 7 0 = 2 ∧ bits (2 ^ 32 : Word) 15 8 = 0 ∧ bits (2 ^ 32 : Word) 31 28 = 0) ∧
    ((bits (256 : Word) 7 0 = 0 ∧ bits (256 : Word) 31 0 ≠ 0 ∧ bits (256 : Word) 15 8 ≠ 0) ∧ 2 < bits (3 : Word) 7 0 ∧
      (bits (257 : Word) 7 0 = 1 ∧ bits (257 : Word) 31 8 ≠ 0 ∧ bits (257 : Word) 15 8 ≠ 0) ∧ (bits (258 : Word) 7 0 = 2 ∧ bits (258 : Word) 15 8 ≠ 0) ∧
      nextCmd (fifoAt (stD core0 (dieCmd fifoMigration [0, 257, 0, 0]) [] {}) 0 fifoMigration) = some (cmd [0, 257, 0, 0]) ∧
      nextCmd (fifoAt (stD core0 (dieCmd fifoMigration [0, 2, 0, 0]) [] {}) 0 fifoMigration) = some (cmd [0, 2, 0, 0])) ∧
    (let c := cmd [0x10000, 0, 0x20000, 0x10000]
     let s := stD core0 (dieCmd fifoMigration [0x10000, 0, 0x20000, 0x10000]) tableMem {}
     let s' := { s with mem := [(0x10000, 2), (0x10002, 1), (0x10006, 0x60), (0x10007, 0x40)] ++ tableMem }
     nextCmd (fifoAt s' 0 fifoMigration) = some c ∧ (∀ m ∈ (dieAt s' 0).migrations, m.answered = true) ∧
       (migrateLeaf s' 0 c).2 = some (page 1 (leafWord 0x10000 1 0)) ∧ frameFits 0x20000 65536 = true ∧ frameFits 0x8000 65536 = false) ∧
    (let c := cmd [0, 1, 0x10000, 0]
     let m : Migration := { old := 0x10000, new := 0x20000, size := 65536, pushed := true, switched := true }
     let s := stD core0 { dieCmd fifoMigration [0, 1, 0x10000, 0] with migrations := [m] } [] {}
     nextCmd (fifoAt s 0 fifoMigration) = some c ∧ bits (wordAt c.words 1) 7 0 = 1 ∧ bits (wordAt c.words 1) 31 8 = 0 ∧
       bits (wordAt c.words 1) 63 44 = 0 ∧ s.dies.flatMap (fun x => x.2.migrations) = [m] ∧ (dieAt s 0).migrations = [m] ∧ logsName s m.old m.size = false ∧
       logsName { s with core := { core0 with log := [record none] } } m.old m.size = true) := by
  refine ⟨fun w => ⟨rfl, rfl⟩, by decide +kernel, by decide +kernel, ?_, ?_⟩ <;> decide +kernel

/-- A copy of 4 elements of f32 from page 1 to near address 0. -/
def copyCmd : CopyCmd :=
  { layout := [0x10000, 4 + 2 ^ 32, 1 + 2 ^ 32, 16, 16, 16, 0, 0, 4 + 2 ^ 16 + 2 ^ 32 + 2 ^ 48, 0, 0, 0], xform := 0, near := 0, rm := 0, id := 0, tag := 0, push := 0,
    ctx := 1 }

theorem wit_CopiesAndFillsRun :
    let run : CopyRun := { cmd := copyCmd, pos := 0 }
    let p := stD { corePg with copyRun := some run } die0 [] { n := 1 }
    let f : Fill := { entry := 0, slot := 0, page := page 1 (leafWord 0x10000 1 0), pa := 0x10000, tag := 0, order := 0 }
    (nextCmd (fifoAt (stD core0 (dieCmd fifoCopy []) [] {}) 0 fifoCopy) = some (cmd []) ∧ core0.copyQueue.length < 32 ∧ core0.ctx = some (cmd []).ctx) ∧
    (core0.copyRun = none ∧ core0.fillRun = none ∧ core0.fillQueue = [] ∧ waitsForMoves core0 copyCmd = false ∧
      resultsFull (st core0) copyCmd = false ∧ copyCmd.id ∉ core0.badCmds) ∧
    (checkCopy copyCmd = none ∧ run.fault = none ∧ run.pos < run.cmd.total ∧ run.ahead = [] ∧ (∃ p1, moveElem p copyCmd 0 = .ok p1) ∧
      (∃ p1 g, moveElem (stD { core0 with copyRun := some run } {} [] { n := 1 }) copyCmd 0 = .fault p1 g)) ∧
    (run.cmd.total ≤ ({ run with pos := 4 }).pos ∧ ({ run with fault := some { code := .layout } }).fault ≠ none ∧ run.cmd.staging = false ∧
      run.cmd.fifo = false ∧ (8 : BitVec 4) ≠ 0 ∧ Eng.a ∉ maskEngs 8 ∧ core0.trapFrame = none) ∧
    (movesBefore core0.landing f.order = false ∧ f.pos < 4096 ∧ ({ f with pos := 4096 }).pos = 4096 ∧ isOrdered f.page f.pa = false ∧
      accessHeld core0 (some f.order) = false) ∧
    (let r : CopyRun := { run with pos := 4, stores := [(0x30000, 1, 255, false)] }
     r.ahead = [] ∧ r.moved = true ∧ r.stores ≠ [] ∧ accessHeld core0 r.cmd.order = false) := by
  refine ⟨by decide +kernel, by decide, ⟨by decide +kernel, rfl, by decide +kernel, rfl, ?_, ?_⟩, by decide +kernel, by decide +kernel, by decide +kernel⟩
  · have h : (match moveElem (stD { corePg with copyRun := some { cmd := copyCmd, pos := 0 } } die0 [] { n := 1 }) copyCmd 0 with
        | .ok _ => true | .fault _ _ => false | .wait _ => false | .poison _ => false) = true := by decide +kernel
    revert h; dsimp only; split <;> intro h <;> first | exact ⟨_, ‹_›⟩ | exact absurd h Bool.false_ne_true
  · have h : (match moveElem (stD { core0 with copyRun := some { cmd := copyCmd, pos := 0 } } {} [] { n := 1 }) copyCmd 0 with
        | .ok _ => false | .fault _ _ => true | .wait _ => false | .poison _ => false) = true := by decide +kernel
    revert h; dsimp only; split <;> intro h <;> first | exact ⟨_, _, ‹_›⟩ | exact absurd h Bool.false_ne_true

/-! ### Stream side, Goleus, lease arrays -/

/-- A matrix header at `a` of one row and K = 64, of the kind given, its segment table at `a + 64` with a valid first entry whose code
starts at 0x10000. -/
def header (a kind : Nat) : Sparse Byte :=
  [(a, 0x44), (a + 1, 0x4F), (a + 2, 0x43), (a + 3, 0x57)] ++ (if kind = 0 then [] else [(a + 28, 1)]) ++
  [(a + 30, 1), (a + 32, 64), (a + 36, 1), (a + 40, 0x40), (a + 42, BitVec.ofNat 8 (a / 65536)), (a + 64, 1), (a + 72, 4), (a + 82, 1)]

def wcmd (op : WOp) : WCmd := { op := op, id := 0, tag := 0, push := 2, seq := 0 }

/-- The weight-code queue holds `op` alone; the stripe is of bf16 and 64 rows. -/
def coreQ (op : WOp) : Core := { corePg with wQueue := [wcmd op], stripe := { k := 64, ty := .bf16 } }

theorem wit_StreamSideRuns :
    (∀ op : WOp, (coreQ op).call = none ∧ (coreQ op).wQueue = [wcmd op] ∧ (coreQ op).trapFrame = none ∧ tableWf 0 (coreQ op).acc = true ∧ (wcmd op).id ∉ (coreQ op).badCmds) ∧
    (Eng.w ∉ maskEngs 2 ∧ 256 ≤ 256) ∧
    (let p := stD (coreQ (.call 0x20000 0 0)) die0 (header 0x20000 0) {}
     (wcmd (.call 0x20000 0 0)).sees = [] ∧ p.core.g.old = [] ∧ p.core.near.old = [] ∧ p.core.sys.old = [] ∧
       ∃ p1 m, readMatrix { p with core := { p.core with wQueue := [] } } 0x20000 = (p1, .ok (m, false)) ∧ m.floatKind = kindOf p.core.stripe.ty ∧
         m.k ≤ p.core.stripe.k) ∧
    (let p := stD (coreQ (.call 0x20000 0 0)) die0 (header 0x20000 1) {}
     let q := { p with core := { p.core with wQueue := [] } }
     (∃ p1 m, readMatrix q 0x20000 = (p1, .ok (m, false)) ∧ m.floatKind ≠ kindOf p.core.stripe.ty) ∧ (readMatrix q 0xA0000).2.toOption = none ∧
       (readMatrix { q with memPoison := [(0x1000, true)] } 0x20000).2.toOption.map Prod.snd = some true) ∧
    (∀ r : StreamRead, let k : StreamCall := { call0 with read := some r }
      (stD { corePg with call := some k } die0 [] {}).core.call = some k ∧ k.read = some r) ∧
    (let k : StreamCall := { call0 with pos := { pos0 with segTable := 0x20040, inSegment := false } }
     let p := stD { corePg with call := some k } die0 (header 0x20000 0) {}
     p.core.call = some k ∧ k.read = none ∧ k.pos.inSegment = false ∧ ∃ p1 e, segmentNow p k.pos = (p1, .ok (e, false)) ∧ e.start = 0x10000) ∧
    (∀ n ∈ [0, 1], let c := { coreS { call0 with pos := { pos0 with slack := n } } with starved := true }
      c.starved = true ∧ call0.read = none ∧ (sysNow c sysWABS).toNat < 2 ^ 32 - 1 ∧ (sysNow c sysWFRZ).toNat < 2 ^ 32 - 1) ∧
    (∀ n ∈ [0, 1], let c := { core0 with lagging := true, probeLag := n, sys := regs [(sysSLIPW, 0x10000)] }
      c.lagging = true ∧ (c.probeLag < bits (sysNow c sysSLIPW) 31 16 ↔ n = 0)) :=
  ⟨fun op => ⟨rfl, rfl, rfl, rfl, by simp [coreQ, corePg, core0]⟩, by decide, ⟨rfl, rfl, rfl, rfl, read_ok (by decide +kernel)⟩,
   ⟨read_ok (by decide +kernel), by decide +kernel, by decide +kernel⟩, fun r => ⟨rfl, rfl⟩, ⟨rfl, rfl, rfl, read_ok (by decide +kernel)⟩,
   by decide, by decide⟩

/-- A COMPILE or PATCH of one row of 64 weights of s8 at page 1, its descriptor at page 2, its code area of `n` bytes at page 3. -/
def goleus (code n : Nat) : List Word :=
  [BitVec.ofNat 64 (code + 10 * 2 ^ 16 + 2 ^ 48), 64, 0x10000, 64, 0x20000, 0x30000, BitVec.ofNat 64 n, 0]

/-- A computation ends without an error. -/
def isOk {ε α : Type} : Except ε α → Bool
  | .ok _ => true
  | .error _ => false

theorem ok_any {σ ε α : Type} {x : σ × Except ε α} (h : isOk x.2 = true) : ∃ s b, x = (s, .ok b) := by
  obtain ⟨s, r⟩ := x
  cases r with
  | error e => exact absurd h Bool.false_ne_true
  | ok b => exact ⟨s, b, rfl⟩

theorem wit_GoleusCompilesAndPatches :
    let s := fun (code n : Nat) => stD core0 (dieCmd fifoGoleus (goleus code n)) (header 0x20000 1) {}
    let g := fun (code n : Nat) => goleusOf (bytesOf (goleus code n))
    let a := (cmd (goleus 0 4096)).agent 0 fifoGoleus
    (∀ p ∈ [(0, 4096), (1, 4096), (0, 0), (2, 0)], nextCmd (fifoAt (s p.1 p.2) 0 fifoGoleus) = some (cmd (goleus p.1 p.2))) ∧
    ((g 2 0).code ≠ 1 ∧ goleusBad (bytesOf (goleus 2 0)) (g 2 0) = true) ∧
    (∀ p ∈ [(0, 4096), (1, 4096), (0, 0)], goleusTy (g p.1 p.2) = some (.s8, false) ∧ goleusBad (bytesOf (goleus p.1 p.2)) (g p.1 p.2) = false) ∧
    (∃ s1 segs, allCode (s 0 0) a (g 0 0) .s8 false = (s1, .ok (segs, false)) ∧ (g 0 0).size < 4 * (segs.map List.length).sum ∧
      4 * (segs.map List.length).sum ≤ (g 0 4096).size) ∧
    (∃ s1 segs s2 k, allCode (s 0 4096) a (g 0 4096) .s8 false = (s1, .ok (segs, false)) ∧ 4 * (segs.map List.length).sum ≤ (g 0 4096).size ∧
      writeAll s1 a [((g 0 4096).area, parcelBytes segs.flatten), ((g 0 4096).desc, headerBytes (g 0 4096) false ++
        (segStarts (g 0 4096).area segs).flatMap (fun p => entryBytes 0 p.1 (g 0 4096).slack p.2 ++ List.replicate 32 0#8))] = (s2, .ok k)) ∧
    (∃ s1 hb, agentRead (s 1 4096) a 0x20000 64 = (s1, .ok (hb, false)) ∧ ∃ m, matrixOf hb = some m ∧ m.k = 64 ∧ m.rows = 1 ∧ m.floatKind = false ∧
      0 < m.count ∧ m.table = 0x20040 ∧ m.floor = 0) ∧
    (∃ s1 eb, agentRead (s 1 4096) a 0x20040 64 = (s1, .ok (eb, false)) ∧ (patchEntry eb 0).2 = false) ∧
    (∃ s1 ps, segCode (s 1 4096) a (g 1 4096) .s8 false 0 0 = (s1, .ok (ps, false)) ∧ 4 * ps.length ≤ 4096) := by
  refine ⟨?_, ?_, ?_, ?_, ?_, ?_, ?_, ?_⟩
  · decide +kernel
  · decide +kernel
  · decide +kernel
  · exact read_ok (by decide +kernel)
  · have h : (let s := stD core0 (dieCmd fifoGoleus (goleus 0 4096)) (header 0x20000 1) {}
        let g := goleusOf (bytesOf (goleus 0 4096))
        let a := (cmd (goleus 0 4096)).agent 0 fifoGoleus
        match allCode s a g .s8 false with
        | (s1, .ok (segs, m)) => !m && decide (4 * (segs.map List.length).sum ≤ g.size) &&
            isOk (writeAll s1 a [(g.area, parcelBytes segs.flatten), (g.desc, headerBytes g false ++
              (segStarts g.area segs).flatMap (fun p => entryBytes 0 p.1 g.slack p.2 ++ List.replicate 32 0#8))]).2
        | (_, .error _) => false) = true := by decide +kernel
    revert h
    dsimp only
    split
    · rename_i s1 segs m e
      intro h
      simp only [Bool.and_eq_true, Bool.not_eq_true', decide_eq_true_eq] at h
      obtain ⟨⟨rfl, hn⟩, hw⟩ := h
      obtain ⟨s2, k, hk⟩ := ok_any hw
      exact ⟨s1, segs, s2, k, e, hn, hk⟩
    · exact fun h => absurd h Bool.false_ne_true
  · obtain ⟨s1, hb, h, e⟩ := read_ok (x := agentRead (stD core0 (dieCmd fifoGoleus (goleus 1 4096)) (header 0x20000 1) {}) ((cmd (goleus 0 4096)).agent 0 fifoGoleus) 0x20000 64)
      (P := fun hb : List Byte => matrixOf hb = some { floor := 0, gen := 0, table := 0x20040, count := 1, k := 64, rows := 1, arow := 0, floatKind := false })
      (by decide +kernel)
    exact ⟨s1, hb, h, _, e, by decide, by decide, by decide, by decide, by decide, by decide⟩
  · exact read_ok (by decide +kernel)
  · exact read_ok (by decide +kernel)

/-- An LMM of one row by one column, K = 32, in bf16, whose operands are at page 3. -/
def lmm : LeaseCmd :=
  { op := .lmm, word := 0, k := 32, slotA := [0x30000, 64, 0, 0], slotB := [0x30040, 64, 0, 0], score := [0, 0, 0, 0], fmt := 0x21, bgmA := 0,
    bgmB := 0, id := 0, tag := 0, push := 0, seq := 0 }

/-- Core 0 holds the array of its cluster and has `q` at the head of its queue; the clk is `n`. -/
def stArray (q : LeaseCmd) (x : Machine.Array) (n : Nat) : State :=
  { stD { coreL with tlb := pages, leaseQueue := [q] } { die0 with arrays := [(0, x)] } [] {} with clk := n, leaves := [(0, 1)] }

theorem wit_ArraysAndPower :
    (let s := stArray lmm { last := 7 } 0
     (arrayOf s).holder = none ∧ (arrayOf s).grantFrom ≤ s.clk ∧ mayServe s (clusterCore s 0) = true ∧ (0 + 7 - (arrayOf s).last) % 8 = 0 ∧
       (arrayOf s).last < 8) ∧
    (let s := stArray lmm { holder := some 0 } 0
     (arrayOf s).holder = some 0 ∧ (focus s (clusterCore s 0)).core.leaseQueue = [lmm] ∧
       (let r := releasePins s (arrayOf s) lmm []
        r.1.found = none ∧ ∃ l, ((headLines r.1 lmm).flatten ++ (laterLines r.1 r.2 []).flatten).find? (fun l => !hasKey r.2.pinned l.line) = some l ∧
          pinRoom r.1 r.2 l.line = true ∧ (sliceOf r.1 (128 * l.line)).lines = [] ∧ sliceBusy r.1 (128 * l.line) = false)) ∧
    (let s := stArray lmm { holder := some 0, pinned := [(1536, 0)] } 64512
     let n := groupClk lmm + closingClk lmm
     (arrayOf s).busyUntil ≤ s.clk ∧ s.clk < (arrayOf s).since + 65536 ∧ lmm.groups < lmm.k / 32 ∧ allPinned (arrayOf s) (groupLines s lmm 0) = true ∧
       lmm.id ∉ s.core.badCmds ∧ lmm.groups + 1 = lmm.k / 32 ∧ (look (0, 0) (arrayOf s).spent 0).1 ≠ s.clk / 1024 ∧ s.clk % 1024 + n ≤ 1024 ∧
       n ≤ busyShare lmm.cls ∧ ∃ p1, runGroup s lmm = .done p1) ∧
    (let s := stArray lmm { holder := some 0 } 65536
     (arrayOf s).since + 65536 ≤ s.clk ∧ (arrayOf s).busyUntil ≤ s.clk) ∧
    (let q := { lmm with groups := 1 }
     let s := stArray q { holder := some 0 } 24
     q.k / 32 ≤ q.groups ∧ (arrayOf s).busyUntil ≤ s.clk ∧ s.core.lrels = []) ∧
    ({ st core0 with leaveQueue := [(0, 3)] }).leaveQueue = (0, 3) :: [] := by
  refine ⟨by decide +kernel, ⟨by decide +kernel, by decide +kernel, rfl, ?_⟩, ⟨by decide +kernel, by decide +kernel, by decide, by decide +kernel, by decide, by decide,
    by decide +kernel, by decide +kernel, by decide +kernel, ?_⟩, by decide +kernel, by decide +kernel, rfl⟩
  · have h : (let s := stArray lmm { holder := some 0 } 0
        let r := releasePins s (arrayOf s) lmm []
        (((headLines r.1 lmm).flatten ++ (laterLines r.1 r.2 []).flatten).find? (fun l => !hasKey r.2.pinned l.line)).any
          (fun l => decide (pinRoom r.1 r.2 l.line = true ∧ (sliceOf r.1 (128 * l.line)).lines = [] ∧ sliceBusy r.1 (128 * l.line) = false))) = true := by
      decide +kernel
    obtain ⟨l, hl, hp⟩ := (Option.any_eq_true _ _).1 h
    exact ⟨l, hl, of_decide_eq_true hp⟩
  · have h : (match runGroup (stArray lmm { holder := some 0, pinned := [(1536, 0)] } 64512) lmm with
        | .done _ => true | .poison _ _ => false | .fault _ _ => false) = true := by decide +kernel
    revert h; split <;> intro h <;> first | exact ⟨_, ‹_›⟩ | exact absurd h Bool.false_ne_true

/-! ### Sampler, grammar, launches -/

/-- A slot of 4 tokens in bf16, and a run on it whose token 0 is infinite and whose v1 is 1.0. -/
def slot0 : SeqSlot :=
  { ctx := 1, vocab := 4, clusters := 0, bf16 := true, program := none, counts := 0x10000, bias := 0, ban := 0, clusterTable := 0x10000, seed := 0,
    draw := 0 }

def run0 : SampleRun :=
  { cmd := cmd (List.replicate 8 0), handle := 0, base := 0, len := 4, permitted := none, x := [(0, 0x7F800000)], c := [], b := [],
    v := [(1, 0x3F800000)], live := [0, 1, 2, 3], filters := [], greedy := false, pos := 0, stage := 0, node := 0, nodes := [], clusterLog := none,
    posted := [], grammar := none, ending := none }

def stRun (r : SampleRun) : State := stD core0 { die0 with run := some r, seqSlots := [(0, slot0)] } [] {}

theorem wit_LogitWords :
    let s := stRun run0
    let low := { run0 with permitted := some [0, 1] }
    Machine.Sampling s run0 ∧ Machine.Sampling (stRun low) low ∧ low.permitted = some [0, 1] ∧
    (finite32 (run0.vAt 1) && ltNum (.fin false 0 0) (f32Num (run0.vAt 1))) = true ∧
    (finite32 (run0.vAt 0) && ltNum (.fin false 0 0) (f32Num (run0.vAt 0))) = false ∧
    runSlot s 0 run0 = some slot0 ∧ slot0.ban = 0 ∧ slot0.bias = 0 ∧
    (∃ s1 bs, samRead s 0 run0.cmd (slot0.counts + 2 * run0.base) (2 * run0.len) = (s1, .ok bs) ∧ bs.length = 8) ∧
    run0.grammar = none ∧ run0.nodes = [] ∧ run0.permitted = none ∧ (dieAt s 0).commits = [] ∧
    (∃ c, chooseRule .argmax run0.xAt run0.slice run0.live run0.filters run0.slice = some c) ∧
    (∃ c, chooseRule (.draw (uniform 0 0 0 0)) run0.xAt run0.slice run0.live run0.filters run0.slice = some c) := by
  refine ⟨⟨rfl, rfl, rfl, rfl, rfl⟩, ⟨rfl, rfl, rfl, rfl, rfl⟩, rfl, by decide +kernel, by decide +kernel, rfl, rfl, rfl, ok_of (by decide +kernel), rfl, rfl, rfl, rfl,
    Option.isSome_iff_exists.1 (by decide +kernel), Option.isSome_iff_exists.1 (by decide +kernel)⟩

/-- Die 0 with slot 0 as given, command `ws` at the head of FIFO `k`. -/
def stSlot (x : SeqSlot) (k : Nat) (ws : List Word) (m : Sparse Byte) : State :=
  { stD { core0 with bank := [(0, 0x7F800000)] } { dieCmd k ws with seqSlots := [(0, x)] } m {} with clk := 1 }

/-- A sampler command of 64 bytes. -/
def sam (a b c d : Word) : List Word := [a, b, c, d, 0, 0, 0, 0]

theorem none_of {σ ε : Type} {x : σ × Option ε} (h : x.2.isNone = true) : ∃ s, x = (s, none) := by
  obtain ⟨s, r⟩ := x
  cases r with
  | none => exact ⟨s, rfl⟩
  | some e => exact absurd h Bool.false_ne_true

theorem wit_SlotsAndGrammars_sampler :
    let s := fun (ws : List Word) (m : Sparse Byte) => stSlot slot0 fifoSampler ws m
    (let ws := sam 0 0x10000 0 0
     samplerHead (s ws []) 0 = some (cmd ws) ∧ kindByte (cmd ws) = 0 ∧ cmdNat (cmd ws) 1 7 = 0 ∧ cmdNat (cmd ws) 16 48 = 0 ∧ cmdNat (cmd ws) 8 8 % 64 = 0 ∧
       ∃ s1 bs, samRead (makeWay (s ws [(0x10010, 64)]) 0) 0 (cmd ws) 0x10000 128 = (s1, .ok bs) ∧ (descOk bs = true ∧ recNat bs 20 2 = 0 ∧ recNat bs 22 2 = 0)) ∧
    (dieAt (s [] []) 0).run = none ∧ (dieAt (s [] []) 0).commits = [] ∧ freeKey (dieAt (s [] []) 0).seqSlots 1024 = some 1 ∧
    (let ws := sam 1 0x10000 1 0
     samplerHead (s ws []) 0 = some (cmd ws) ∧ kindByte (cmd ws) = 1 ∧ cmdNat (cmd ws) 8 8 % 4 = 0 ∧ cmdNat (cmd ws) 18 46 = 0 ∧
       slotFor (s ws []) 0 (handleOf (cmd ws)) 1 = some slot0 ∧
       ∃ s1 prog, readProgram (makeWay (s ws []) 0) 0 (cmd ws) 0x10000 1 = (s1, .ok prog) ∧ prog = (some [0], 0)) ∧
    (∀ h ∈ [0, 5], let ws := sam (BitVec.ofNat 64 (2 + h * 2 ^ 32)) 0 0 0
     samplerHead (s ws []) 0 = some (cmd ws) ∧ cmdNat (cmd ws) 1 3 = 0 ∧ handleOf (cmd ws) = h ∧ kindByte (cmd ws) = 2 ∧ cmdNat (cmd ws) 8 56 = 0 ∧
       (slotFor (s ws []) 0 h 1 = none ↔ h = 5)) ∧
    (let ws := sam 4 0 0 0
     let y := { slot0 with clusters := 1 }
     let t := stSlot y fifoSampler ws []
     samplerHead t 0 = some (cmd ws) ∧ kindByte (cmd ws) = 4 ∧ cmdNat (cmd ws) 9 3 = 0 ∧ cmdNat (cmd ws) 16 48 = 0 ∧ slot0.clusters = 0 ∧
       slotFor t 0 0 1 = some y ∧ (pusher t (cmd ws)).leaseQueue = [] ∧
       (∃ s1 cb, samRead (makeWay t 0) 0 (cmd ws) y.clusterTable 8 = (s1, .ok cb) ∧ cb.length = 8) ∧
       (pusher (samRead (makeWay t 0) 0 (cmd ws) y.clusterTable 8).1 (cmd ws)).bankPoison = [] ∧
       (finite32 (cmdNat (cmd ws) 12 4) && ltNum (.fin false 0 0) (f32Num (cmdNat (cmd ws) 12 4))) = false ∧
       ∃ ch, chooseRule .argmax (fun i => (look 0 (pusher (samRead (makeWay t 0) 0 (cmd ws) y.clusterTable 8).1 (cmd ws)).bank (256 * cmdNat (cmd ws) 8 1 + i)).toNat) [0] [0] [] [0] = some ch) ∧
    (let ws := sam 6 0x10000 1 0
     samplerHead (s ws []) 0 = some (cmd ws) ∧ kindByte (cmd ws) = 6 ∧ cmdNat (cmd ws) 20 44 = 0 ∧ cmdNat (cmd ws) 16 4 = 1 ∧
       (∃ s1 bs, samRead (makeWay (s ws []) 0) 0 (cmd ws) 0x10000 4 = (s1, .ok bs) ∧ recNat bs 0 4 = 0) ∧
       ∃ s2, countsReach (flushCommits (s ws []) 0) 0 (cmd ws) slot0 [0] = (s2, none)) := by
  refine ⟨⟨by decide +kernel, by decide, by decide +kernel, by decide +kernel, by decide +kernel, ok_of (by decide +kernel)⟩, rfl, rfl, by decide +kernel,
    ⟨by decide +kernel, by decide, by decide +kernel, by decide +kernel, by decide +kernel, ok_of (by decide +kernel)⟩, by decide +kernel,
    ⟨by decide +kernel, by decide, by decide +kernel, by decide +kernel, rfl, by decide +kernel, by decide +kernel, ok_of (by decide +kernel), by decide +kernel, by decide +kernel,
      Option.isSome_iff_exists.1 (by decide +kernel)⟩,
    ⟨by decide +kernel, by decide, by decide +kernel, by decide +kernel, ok_of (by decide +kernel), none_of (by decide +kernel)⟩⟩

/-- For each kind of sampler command that names a slot: the other words of one that is well formed. -/
def samRest : List (Nat × Word × Word) := [(1, 0x10000, 1), (2, 0, 0), (3, 0x10000, BitVec.ofNat 64 (4 * 2 ^ 32)), (4, 0, 0), (5, 0x10000, 2), (6, 0x10000, 1)]

theorem wit_SlotsAndGrammars_refused :
    (∀ r ∈ samRest ++ [(0, 0, 0), (7, 0, 0)], let ws := sam (BitVec.ofNat 64 (r.1 + 256)) r.2.1 r.2.2 0
      samplerHead (stSlot slot0 fifoSampler ws []) 0 = some (cmd ws) ∧ kindByte (cmd ws) = r.1 ∧ cmdNat (cmd ws) 1 3 ≠ 0 ∧ cmdNat (cmd ws) 1 7 ≠ 0) ∧
    (∀ r ∈ samRest, let ws := sam (BitVec.ofNat 64 (r.1 + 5 * 2 ^ 32)) r.2.1 r.2.2 0
      let c := cmd ws
      samplerHead (stSlot slot0 fifoSampler ws []) 0 = some c ∧ kindByte c = r.1 ∧ cmdNat c 1 3 = 0 ∧ handleOf c ≤ 1023 ∧
        slotFor (stSlot slot0 fifoSampler ws []) 0 (handleOf c) c.ctx = none ∧
        (r.1 = 1 → cmdNat c 8 8 % 4 = 0 ∧ cmdNat c 18 46 = 0) ∧ (r.1 = 2 → cmdNat c 8 56 = 0) ∧
        (r.1 = 3 → cmdNat c 25 39 = 0 ∧ cmdNat c 24 1 < 2 ∧ cmdNat c 20 4 ≠ 0 ∧ cmdNat c 8 8 % 64 = 0) ∧ (r.1 = 4 → cmdNat c 9 3 = 0 ∧ cmdNat c 16 48 = 0) ∧
        (r.1 = 5 → cmdNat c 17 47 = 0 ∧ 2 ≤ cmdNat c 16 1 ∧ cmdNat c 16 1 ≤ 64 ∧ cmdNat c 8 8 % 32 = 0) ∧
        (r.1 = 6 → cmdNat c 20 44 = 0 ∧ cmdNat c 16 4 ≠ 0 ∧ cmdNat c 16 4 ≤ 4096 ∧ cmdNat c 8 8 % 4 = 0)) ∧
    (∀ k ∈ [0, 1, 2, 3, 4], let ws : List Word := [BitVec.ofNat 64 (k + 256), 0, 0x10000, 0]
      grammarHead (stSlot slot0 fifoGrammar ws []) 0 = some (cmd ws) ∧ kindByte (cmd ws) = k ∧ bits (wordAt (cmd ws).words 0) 31 8 ≠ 0) ∧
    (∀ k ∈ [0, 1, 2], let ws : List Word := [BitVec.ofNat 64 (k + 5 * 2 ^ 32), 0, 0x10000, 0]
      grammarHead (stSlot slot0 fifoGrammar ws []) 0 = some (cmd ws) ∧ kindByte (cmd ws) = k ∧ bits (wordAt (cmd ws).words 0) 31 8 = 0 ∧
        handleOf (cmd ws) ≤ 1023 ∧ slotFor (stSlot slot0 fifoGrammar ws []) 0 (handleOf (cmd ws)) 1 = none) := by
  refine ⟨by decide +kernel, by decide +kernel, by decide +kernel, by decide +kernel⟩

/-- A grammar's header at 0x10000: 4 tokens, one state, one symbol, one mask. -/
def gram : Sparse Byte :=
  [(0x10000, 0x52), (0x10001, 0x4D), (0x10002, 0x52), (0x10003, 0x47), (0x10014, 1), (0x10018, 1), (0x10019, 1), (0x1001A, 1), (0x1001C, 4)]

theorem wit_SlotsAndGrammars_grammar :
    let ws := fun (k h : Nat) => [BitVec.ofNat 64 (k + h * 2 ^ 32), 0, 0x10000, 0]
    let s := fun (k h : Nat) => stSlot slot0 fifoGrammar (ws k h) gram
    (∀ p ∈ [(0, 0), (1, 0), (2, 0), (3, 0), (1, 5)], let c := cmd (ws p.1 p.2)
      grammarHead (s p.1 p.2) 0 = some c ∧ bits (wordAt c.words 0) 31 8 = 0 ∧ wordAt c.words 1 = 0 ∧ wordAt c.words 3 = 0 ∧ handleOf c = p.2 ∧
        kindByte c = p.1 ∧ (slotFor (s p.1 p.2) 0 p.2 1 = none ↔ p.2 = 5)) ∧
    slotFor (s 0 0) 0 0 1 = some slot0 ∧ slot0.grammar = none ∧
    ∃ s1 h, readGram (s 0 0) ((cmd (ws 0 0)).agent 0 fifoGrammar) 0x10000 slot0.vocab = (s1, .ok h) ∧ h.start = 0 := by
  refine ⟨by decide +kernel, rfl, rfl, ok_of (by decide +kernel)⟩

/-- Two nodes at 0x10000, the row of the first at 0x10040. -/
def nodes2 : Sparse Byte :=
  [(0x10000, 0x40), (0x10002, 1), (0x10014, 0xFF), (0x10015, 0xFF), (0x10016, 0xFF), (0x10017, 0xFF), (0x10022, 1)]

theorem wit_SampleRunsBegin :
    let y := { slot0 with pending := some (0, 0, 0, 4) }
    let z := { slot0 with faulted := true }
    let ws := fun (stage : Nat) => sam 3 0x10000 (BitVec.ofNat 64 (4 * 2 ^ 32)) (BitVec.ofNat 64 stage)
    let vs := sam 5 0x10000 2 0
    (let c := cmd (sam 3 0x10000 (BitVec.ofNat 64 (5 * 2 ^ 32)) 0)
     samplerHead (stSlot slot0 fifoSampler c.words []) 0 = some c ∧ kindByte c = 3 ∧ cmdNat c 25 39 = 0 ∧ cmdNat c 24 1 ≤ 1 ∧ cmdNat c 20 4 = 5 ∧
       cmdNat c 8 8 % 64 = 0 ∧ slot0.vocab < cmdNat c 16 4 + 5) ∧
    (∀ p ∈ [(slot0, 0), (z, 0), (y, 1)], let c := cmd (ws p.2)
      let s := stSlot p.1 fifoSampler (ws p.2) []
      samplerHead s 0 = some c ∧ cmdNat c 1 3 = 0 ∧ handleOf c = 0 ∧ slotFor s 0 0 1 = some p.1 ∧ cmdNat c 16 4 = 0 ∧ cmdNat c 20 4 = 4 ∧ kindByte c = 3 ∧
        cmdNat c 25 39 = 0 ∧ cmdNat c 8 8 % 64 = 0 ∧ cmdNat c 24 1 = p.2) ∧
    (∃ s1 bs, samRead (makeWay (stSlot slot0 fifoSampler (ws 0) []) 0) 0 (cmd (ws 0)) 0x10000 8 = (s1, .ok bs) ∧ bs.length = 8) ∧
    (∃ s1 bs, samRead (setSeq (makeWay (stSlot y fifoSampler (ws 1) []) 0) 0 0 { y with pending := none }) 0 (cmd (ws 1)) 0x10000 8 = (s1, .ok bs) ∧ bs.length = 8) ∧
    (let c := cmd vs
     let s := stSlot slot0 fifoSampler vs nodes2
     samplerHead s 0 = some c ∧ kindByte c = 5 ∧ cmdNat c 17 47 = 0 ∧ cmdNat c 16 1 = 2 ∧ cmdNat c 8 8 % 32 = 0 ∧
       (∃ s1 bs, samRead (makeWay s 0) 0 c 0x10000 64 = (s1, .ok bs) ∧ (nodesOk bs 2 slot0.vocab = true ∧ recNat bs 0 8 ≠ 0)) ∧
       (∃ s2 ls, samRead (samRead (makeWay s 0) 0 c 0x10000 64).1 0 c 0x10040 8 = (s2, .ok ls) ∧ ls.length = 8)) := by
  refine ⟨by decide +kernel, by decide +kernel, ok_of (by decide +kernel), ok_of (by decide +kernel), by decide +kernel, by decide +kernel, by decide +kernel, by decide +kernel,
    by decide +kernel, ok_of (by decide +kernel), ok_of (by decide +kernel)⟩

/-- A queue of four records at 0x10000 with one not yet passed. -/
def queue0 : HwQueue := { ring := 0x10000, ctx := 1, entries := 4, enable := true, weight := 1, head := 0, lastTail := 1 }

/-- A launch of a marker from queue 0. -/
def marker : Launch := { id := 7, ctx := 1, source := 0, tag := 0, single := false, marker := true, left := 0, aborted := false }

theorem wit_LaunchesEnter :
    let d := { die0 with queues := [(0, queue0)], launches := [marker] }
    let s := fun (m : Sparse Byte) => stD core0 d m {}
    let spawn := fun (k : Nat) => [BitVec.ofNat 64 k, 0, 0, 0, 0, 0, 0, 0]
    (findKey d.queues 0 = some queue0 ∧ ∃ c ∈ d.contexts, c.num = queue0.ctx) ∧
    (let ahead := fun (t : Nat) => (t + 2 ^ 32 - queue0.head) % 2 ^ 32
     ahead queue0.lastTail ≤ ahead 4 ∧ ahead 4 ≤ queue0.entries ∧ queue0.entries < ahead 5) ∧
    (queue0.enable = true ∧ queue0.head ≠ queue0.lastTail ∧ ∀ k ∈ [2, 3], queueBefore (s [(0x10000, BitVec.ofNat 8 k)]) 0 0 = false ∧
      ∃ s1 bs, agentRead (s [(0x10000, BitVec.ofNat 8 k)]) (sequencer 0 1) 0x10000 64 = (s1, .ok (bs, false)) ∧
        ((launchBad bs = true ↔ k = 3) ∧ (launchOf bs).kind = k)) ∧
    (∀ k ∈ [2, 3], nextCmd (fifoAt (stD core0 (dieCmd fifoSpawn (spawn k)) [] {}) 0 fifoSpawn) = some (cmd (spawn k)) ∧
      (launchBad (bytesOf (spawn k)) = true ↔ k = 3)) ∧
    d.launches.find? (fun l => l.id == 7 && l.marker) = some marker ∧ (∀ m ∈ d.launches, m.source = marker.source → m.ctx = marker.ctx → marker.id ≤ m.id) := by
  refine ⟨⟨rfl, _, List.mem_singleton.2 rfl, rfl⟩, by decide, ⟨rfl, by decide, ?_⟩, by decide +kernel, by decide, by decide⟩
  simp only [List.mem_cons, List.not_mem_nil, or_false, forall_eq_or_imp, forall_eq]
  exact ⟨⟨by decide +kernel, read_ok (by decide +kernel)⟩, by decide +kernel, read_ok (by decide +kernel)⟩

/-! ### Tasks, errors, pre-emption -/

/-- A task of context 1 in state `st`, from the spawn port. -/
def task0 (x : TaskState) : Task :=
  { ctx := 1, launch := 0, index := 0, single := true, desc := 0x10000, args := [], tag := 0, fused := false, base := 0, source := 4096, deps := 0,
    succs := [], state := x, entry := 0x10000, named := none, persistent := false, streams := [] }

/-- Task 0 on core 0, all its engines halted, at the clk given. -/
def stTask (t : Task) (c : Core) (m : Sparse Byte) (n : Nat) : State := { stD c { die0 with tasks := [(0, t)] } m {} with clk := n }

def halted0 : Core := { core0 with engC := { halted := true }, engA := { halted := true }, engV := { halted := true }, engW := { halted := true } }

theorem true_of {σ : Type} {x : σ × Bool} (h : x.2 = true) : ∃ s, x = (s, true) := ⟨x.1, Prod.ext rfl h⟩

/-- The header of an event ring of `n` entries at 0x10000 with tail `t`. -/
def ring0 (n t : Nat) : Sparse Byte :=
  [(0x10000, 0x40), (0x10002, 1), (0x10008, BitVec.ofNat 8 n)] ++ if t = 0 then [] else [(0x1000C, BitVec.ofNat 8 t)]

/-- A posting that stands for no task. -/
def posting (ctx : Nat) : Posting := { ctx := ctx, words := [0, 0, 0, 0] }

theorem wit_TasksLive :
    (let s := { stTask (task0 .ready) { core0 with task := none, running := false } [] 0 with arg := { n := 1 } }
     nextTask s 0 1 = some (0, task0 .ready, 4096, 1) ∧ coreFor s 0 (task0 .ready) = some 0 ∧ (task0 .ready).streams = [] ∧
       misplaced s 0 (task0 .ready) = false) ∧
    (let t := { task0 .running with fault := some ({ code := .trap }, 0) }
     taskAt (stTask t core0 [] 0) 0 0 = some t ∧ t.step < 6) ∧
    (agingDue (stTask (task0 .ready) core0 [] 1400000) (task0 .ready) = true) ∧
    (let s := fun (c n t : Nat) => stD core0 { die0 with postings := [posting c] } (ring0 n t) {}
     (∀ c ∈ [1, 2], (dieAt (s c 1 0) 0).postings[0]? = some (posting c) ∧ (posting c).task = none ∧ (contextOn (dieAt (s c 1 0) 0) c = none ↔ c = 2)) ∧
     (∃ s1 bs, agentRead (s 1 1 0) (sequencer 0 1) 0x10000 64 = (s1, .ok (bs, false)) ∧ ((ringOf bs).usable = true ∧ (ringOf bs).full = false)) ∧
     (∃ s1 bs, agentRead (s 1 1 1) (sequencer 0 1) 0x10000 64 = (s1, .ok (bs, false)) ∧ ((ringOf bs).usable = true ∧ (ringOf bs).full = true)) ∧
     ∃ s2, writeRecord (s 1 1 0) 0 1 0x10000 { array := 0x10040, entries := 1, tail := 0, head := 0, vector := 0 } (posting 1).words = (s2, true)) ∧
    (core0.task = some 0 ∧ (task0 .staging).fault = none ∧ core0.rollback = false ∧ coreIdle core0 = true ∧
      pushedCopies (stTask (task0 .staging) core0 [] 0) = []) ∧
    drained (stTask (task0 .ending) halted0 [] 0) (markOf 0 0) = true ∧
    (let t := { task0 .ending with step := 3 }
     taskAt (stTask t halted0 [] 0) 0 0 = some t ∧ dependsOn (stTask t halted0 [] 0) (markOf 0 0) = [markOf 0 0]) ∧
    (let t := { task0 .ending with step := 4 }
     let s := stTask t halted0 [] 0
     taskAt s 0 0 = some t ∧ taskUnsettled s (markOf 0 0) = false ∧
       taskUnsettled { s with core := { halted0 with log := [{ record none with owner := some (markOf 0 0) }] } } (markOf 0 0) = true) := by
  refine ⟨⟨by decide +kernel, by decide +kernel, rfl, rfl⟩, by decide +kernel, by decide +kernel,
    ⟨by decide, read_ok (by decide +kernel), read_ok (by decide +kernel), true_of (by decide +kernel)⟩, by decide +kernel, by decide +kernel,
    by decide +kernel, by decide +kernel⟩

theorem wit_ErrorsAreContained :
    (let s := stTask (task0 .running) { core0 with rollback := true } [] 0
     (coreAt s 0).rollback = true ∧ (coreAt s 0).task = some 0 ∧ taskAt s 0 0 = some (task0 .running) ∧ (task0 .running).rollbacks < 3 ∧
       (task0 .running).step < 4 ∧ (task0 .running).fault = none) ∧
    (st core0).arg.sramErr = none ∧
    (let s := { st core0 with arg := { sramErr := some (.core 0 (.greg 1)) } }
     s.arg.sramErr = some (.core 0 (.greg 1)) ∧ (1 : Reg) ≠ 0) ∧
    (let l : L2Line := { line := 512, dirty := false, pins := 0, noAlloc := false }
     let s := stD core0 { die0 with slices := [(3, { lines := [l] })] } [] { sramErr := some (.l2 0 3 512) }
     (look {} (dieAt s 0).slices 3).lines.find? (fun l => l.line == 512) = some l ∧ l.dirty = false ∧ l.pins = 0 ∧ l.under = [] ∧ 0 < ({ l with pins := 1 } : L2Line).pins) ∧
    (let s := { st core0 with arg := { sramErr := some (.promo 0 0 0) }, dramStacks := [(0, { failed := true })] }
     s.arg.sramErr = some (.promo 0 0 0) ∧ (stackAt s 0).failed = true ∧ s.fatal = none ∧ s.dumpRegion = none) ∧
    ({ st core0 with fatal := some 1 }).fatal.isSome = true ∧ ((st core0).fatal = none ∧ (st core0).dumpRegion = none) := by decide +kernel

/-- Context 1 on cores 0 to 7, context 2 waiting, the save table at 0x10000 (every area at 0). -/
def diePre : Die :=
  { die0 with
    contexts := die0.contexts ++ [{ num := 2, mask := 0, ptb := 0x100000, mailFirst := 0, mailCount := 0, ring := 0x10000 }]
    busy := true, mcbCode := 5, mcbCopy := [BitVec.ofNat 64 (1 + 2 * 2 ^ 16), 0x10000] }

/-- The image of core 0, not yet drained. -/
def image0 : SavedImage := { ctx := 1, core := 0, area := 0, image := core0, drained := false }

theorem wit_PartitionsArePreempted :
    (let s := stD core0 diePre [] {}
     let x := dieAt s 0
     let w := wordAt x.mcbCopy 0
     let areas := (maskedCores 0 1).map (saveAreas s 0x10000 0 1)
     ∃ o i, bits w 7 0 = 1 ∧ bits w 15 8 = 0 ∧ bits w 63 28 = 0 ∧ physBacked 0x10000 (16 * areas.length) = true ∧
       (∀ a ∈ areas, areaOk a.1 = true ∧ (a.2 = 0 ∨ areaOk a.2 = true)) ∧ x.contexts.filter (fun c => c.mask &&& 1 != 0) = [o] ∧ o.mask &&& 1 = 1 ∧
       o.num ≠ bits w 27 16 ∧ contextOn x (bits w 27 16) = some i ∧ i.mask = 0) ∧
    (let p := fun (c : Core) => stD c { diePre with preempt := some (2, 0x10000, 1) } [] {}
     preemptOf (p core0) 0 = some (2, 0, 0, 1) ∧ (p core0).images = [] ∧ core0.loaded = false ∧ Memory.wf (p core0).mem ∧
     (let c := { core0 with loaded := true }
      holdsCore (p c) = false ∧ c.running = true) ∧
     (let c := { core0 with loaded := true, running := false, task := none }
      preemptOf (p c) 0 = some (2, 0, 0, 1) ∧ holdsCore (p c) = false ∧ atRest (p c) = true ∧
        formIn (p c) 2 0x10000 1 = fusedNumber (dieAt (p c) (dieOfCore (p c).cur)) ((p c).cur % 64 / 8) ∧ (contextOn (dieAt (p c) 0) 2).isSome = true)) ∧
    ({ st core0 with images := [image0] }).images.find? (fun i => i.core == 0 && !i.drained) = some image0 ∧
      (coreAt { st core0 with images := [image0] } image0.core).atticPoison = [] := by
  refine ⟨⟨_, _, by decide +kernel, by decide +kernel, by decide +kernel, by decide +kernel, by decide +kernel, rfl, by decide, by decide +kernel, rfl, rfl⟩,
    ⟨by decide +kernel, rfl, rfl, by decide, by decide +kernel, by decide +kernel⟩, rfl, rfl⟩

/-! ### Management, the host, the fabric -/

/-- Die 0 with command `code` under way. -/
def dieMcb (code : Nat) (ws : List Word) : Die := { die0 with busy := true, mcbCode := code, mcbCopy := ws }

def stMcb (code : Nat) (ws : List Word) : State := stD core0 (dieMcb code ws) [] {}

theorem wit_ManagementCommands_contexts :
    (let ws : List Word := [9, 2, 0, 0x100000, 0x10000, 0, 0, 0]
     let s := stMcb 1 ws
     (dieAt s 0).busy = true ∧ (dieAt s 0).mcbCode = 1 ∧ contextBad ws = false ∧
       (∀ p ∈ s.dies, ∀ y ∈ p.2.contexts, y.num = (contextOf ws).num → y.ptb = (contextOf ws).ptb) ∧ contextOn (dieAt s 0) (contextOf ws).num = none ∧
       contextHeld (dieAt s 0) (contextOf ws) = false) ∧
    (contextBad [9, 2, 0, 0x100001, 0x10000, 0, 0, 0] = true ∧ (let ws : List Word := [1, 2, 0, 0x100000, 0x10000, 0, 0, 0]
     contextBad ws = false ∧ (∀ p ∈ (stMcb 1 ws).dies, ∀ y ∈ p.2.contexts, y.num = (contextOf ws).num → y.ptb = (contextOf ws).ptb) ∧
       (contextOn (dieAt (stMcb 1 ws) 0) (contextOf ws).num).isSome = true) ∧
     contextOn (dieAt (stMcb 4 [0, 0x10000, BitVec.ofNat 64 (5 + 4 * 2 ^ 32), 0x101]) 0) 5 = none) ∧
    (contextOn (dieAt (stMcb 2 [5]) 0) 5 = none ∧ (contextOn (dieAt (stMcb 2 [1, 0x1000]) 0) 1).isSome = true ∧ sysValueOk sysTVEC 0x1000 = true) ∧
    (let s := stMcb 3 [1]
     let t := stD { core0 with task := none, running := false } (dieMcb 3 [1]) [] {}
     (∃ i, i < 64 ∧ (coreAt s (64 * 0 + i)).ctx = some 1 ∧ (coreAt s (64 * 0 + i)).task.isSome = true) ∧
       (∀ i, i < 64 → (coreAt t (64 * 0 + i)).ctx ≠ some 1 ∨ (coreAt t (64 * 0 + i)).task = none) ∧ flushHeld t 0 1 = false ∧
       moving (dieAt t 0) 1 = false) ∧
    (let ws : List Word := [0, 0x10000, BitVec.ofNat 64 (1 + 4 * 2 ^ 32), 0x101, 0, 0, 0, 0]
     let a := wordAt ws 2
     let b := wordAt ws 3
     bits (wordAt ws 0) 63 12 = 0 ∧ (wordAt ws 1).toNat % 64 = 0 ∧ bits a 31 16 = 0 ∧ bits b 7 1 = 0 ∧ bits b 31 16 = 0 ∧ wordAt ws 4 = 0 ∧
       bits b 15 8 = 1 ∧ bits a 63 32 = 2 ^ 2 ∧ (contextOn (dieAt (stMcb 4 ws) 0) (bits a 15 0)).isSome = true) :=
  ⟨by decide +kernel, by decide +kernel, by decide +kernel, ⟨⟨0, by decide, by decide, by decide⟩, by decide +kernel, by decide +kernel, by decide +kernel⟩, by decide +kernel⟩

theorem wit_ManagementCommands_package :
    (dieAt (stMcb 6 []) 0).busy = true ∧ (∀ k ∈ [6, 7, 8, 9, 10, 11], commandAdmitted 0 k = true) ∧ (dieAt (st core0) 1).busy = false ∧ classOf 0 = 0 ∧ physBacked 0 (2 ^ 30) = true ∧
    (physBacked 0x20000 65536 = true ∧ logsName (stMcb 7 []) 0x20000 65536 = false ∧
      logsName { stMcb 7 [] with core := { core0 with log := [record none] } } 0x10000 65536 = true) ∧ classOf 0x10000 < 2 ∧
    (physBacked 0x10000 192 = true ∧ physBacked (2 ^ 51) 192 = false ∧ ([0, 0, 0, 0, 0x10000, 0, 0, 0] : List Word).length = 8) ∧
    (physBacked 0x10000 1 = true ∧ physBacked (2 ^ 51) 1 = false) := by decide +kernel

theorem wit_HostPortsAndReset :
    (hostRegister 0x10000 4 = false ∧ physBacked 0x10000 4 = true ∧ hostRegister (2 ^ 51) 4 = false ∧ physBacked (2 ^ 51) 4 = false) ∧
    (let s := { st core0 with lent := some { base := 0x10000, size := 65536 } }
     (directionTo s 1).isSome = true ∧ 0 + 4 ≤ 65536 ∧ physBacked (0x10000 + 0) 4 = true) ∧ 0x4000020 % 2 ^ 21 = 0x20 ∧
    (let s := stD core0 { die0 with portsDown := [1] } [] {}
     0 ∉ (dieAt s 0).portsDown ∧ 1 ∈ (dieAt s 0).portsDown ∧ (1 : Nat) ≠ s.device ∧ ∃ p, (portsFor s 1).filter (portIsUp s) = [p]) ∧
    (let s := stD core0 die0 [] {}
     2 ∉ (dieAt s 0).portsDown ∧ (3 : Nat) ≠ 3 * 0 + 2 ∧ 3 / 2 = (3 * 0 + 2) / 2 ∧ portUp s 3 = true) ∧
    (let s := stD core0 { die0 with portsDown := [1] } [] {}
     0 ∉ (dieAt s 0).portsDown ∧ ∀ q, q ≠ 3 * 0 + 0 → q / 2 = (3 * 0 + 0) / 2 → portUp s q = false) ∧
    (let l : L2Line := { line := 512, dirty := true, pins := 0, noAlloc := false }
     let s := stD core0 { die0 with slices := [(0, { lines := [l, { l with line := 560, dirty := false, under := [2240] }] })] } [] {}
     staleLines s = [(512, l.since)] ∧ rotten s = [2240]) := by
  refine ⟨by decide +kernel, by decide +kernel, by decide, ⟨by decide +kernel, by decide +kernel, by decide, ⟨0, by decide +kernel⟩⟩, by decide +kernel,
    ⟨by decide +kernel, fun q h1 h2 => ?_⟩, by decide +kernel⟩
  obtain rfl : q = 1 := by omega
  decide +kernel

/-! ### Collectives and decoders -/

/-- A collective of kind `k` and `n` members, rank 0, chunks of 128 bytes from page 1 to page 2. -/
def collWords (k n : Nat) : List Word :=
  [BitVec.ofNat 64 k, 0, BitVec.ofNat 64 (n * 2 ^ 48), BitVec.ofNat 64 (128 * 2 ^ 32), 0x10000, 0x10000, 0x20000, 0]

def coll0 (k n : Nat) : Collective := { cmd := cmd (collWords k n), members := [(0, 0), (1, 0), (2, 0)], step := 1, sent := false, cert := 0 }

def stColl (k n : Nat) : State := stD core0 { die0 with collectives := [coll0 k n] } [] { peer := { tag := 0, group := (coll0 k n).members, rank := 2, step := 1, data := List.replicate 128 0 } }

theorem wit_CollectivesAndDecoders_collectives :
    (∀ k ∈ [0, 1, 2, 3], let c := cmd (collWords k 0)
      let s := stD core0 (dieCmd fifoCollective (collWords k 0)) [] {}
      (dieAt s 0).collectives[0]? = none ∧ nextCmd (fifoAt s 0 fifoCollective) = some c ∧ (dieAt s 0).collectives.length < 16 ∧ collBad c = true ∧
        (collOf c).kind = k) ∧
    (∀ k ∈ [0, 1, 2], (dieAt (stColl k 2) 0).collectives[0]? = some (coll0 k 2) ∧ (collOf (coll0 k 2).cmd).kind = k ∧ (coll0 k 2).cmd.mark = false ∧
      (coll0 k 2).members.getD (peerTo (collOf (coll0 k 2).cmd) 1) (0, 0) = (1, 0) ∧ memberReached (stColl k 2) 1 = true) ∧
    (∃ s1 bs, agentRead (stColl 0 2) ((coll0 0 2).cmd.agent 0 fifoCollective) (sendAddr (collOf (coll0 0 2).cmd) 1) 128 = (s1, .ok (bs, false)) ∧ bs.length = 128) ∧
    (∃ s1 bs, agentRead (stColl 2 2) ((coll0 2 2).cmd.agent 0 fifoCollective) (sendAddr (collOf (coll0 2 2).cmd) 1) 128 = (s1, .ok (bs, false)) ∧ bs.length = 128) ∧
    (let k := collOf (coll0 0 3).cmd
     let m := (stColl 0 3).arg.peer
     1 + 1 < k.n ∧ ((coll0 0 3).members.getD (peerFrom k 1) (0, 0)).1 ≠ (stColl 0 3).device ∧ m.tag.toNat = k.tag ∧ m.group = (coll0 0 3).members ∧ m.rank = peerFrom k 1 ∧ m.step = 1 ∧
       m.kind = 0 ∧ m.data.length = k.chunk ∧
       ∃ s1 w, agentWrite (stColl 0 3) ((coll0 0 3).cmd.agent 0 fifoCollective) (k.dst + recvChunk k 1 * k.chunk) m.data = (s1, .ok w)) := by
  refine ⟨by decide +kernel, by decide +kernel, read_ok (by decide +kernel), read_ok (by decide +kernel), by decide +kernel, by decide +kernel,
    by decide +kernel, rfl, by decide +kernel, by decide, by decide, by decide +kernel, ok_any (by decide +kernel)⟩

theorem err_of {σ ε α : Type} {x : σ × Except ε α} (h : (match x.2 with | .ok _ => false | .error _ => true) = true) : ∃ s e, x = (s, .error e) := by
  obtain ⟨s, r⟩ := x
  cases r with
  | error e => exact ⟨s, e, rfl⟩
  | ok b => exact absurd h Bool.false_ne_true

/-- A media ring of one descriptor at 0x10080, and a kick of decoder 0 for it. -/
def media : Sparse Byte := [(0x10000, 0x80), (0x10002, 1), (0x10008, 1), (0x1001A, 2)]

def kick : List Word := [BitVec.ofNat 64 (2 ^ 32), 0x10000, 0, 0, 0, 0, 0, 0]

def ringAt (h : Nat) : DecodeRing := { ctx := 1, core := 0, header := h, tail := some 1, kicks := [(1, {})] }

def stRing (h : Nat) : State := stD core0 { die0 with rings := [(0, [ringAt h])] } media {}

theorem wit_CollectivesAndDecoders_decoders :
    (∀ m ∈ [[], media], let s := stD core0 (dieCmd fifoDecoder kick) m {}
      nextCmd (fifoAt s 0 (decoderFifo 0)) = some (cmd kick) ∧ (wordAt kick 1).toNat % 64 = 0 ∧ bits (wordAt kick 0) 31 0 = 0 ∧
        look [] (dieAt s 0).rings 0 = []) ∧
    (∃ s1 bs, agentRead (stD core0 (dieCmd fifoDecoder kick) [] {}) ((cmd kick).agent 0 (decoderFifo 0)) 0x10000 64 = (s1, .ok (bs, false)) ∧
      mediaRingBad bs = true) ∧
    (∃ s1 bs, agentRead (stD core0 (dieCmd fifoDecoder kick) media {}) ((cmd kick).agent 0 (decoderFifo 0)) 0x10000 64 = (s1, .ok (bs, false)) ∧
      (mediaRingBad bs = false ∧ (bits (wordAt kick 0) 63 32 + 2 ^ 32 - (mediaRingOf bs).head) % 2 ^ 32 ≤ (mediaRingOf bs).entries)) ∧
    (let g : Agent := { die := 0, unit := decoderFifo 0, ctx := 1 }
     look [] (dieAt (stRing 0x10000) 0).rings 0 = [ringAt 0x10000] ∧ (ringAt 0x10000).mark = false ∧ (ringAt 0x10000).kicks ≠ [] ∧ resultsOf (fifoAt (stRing 0x10000) 0 (decoderFifo 0)) 1 = [] ∧
     (∃ s1 f, agentRead (stRing (2 ^ 48)) g (2 ^ 48) 64 = (s1, .error f)) ∧
     (∃ sh hb, agentRead (stRing 0x10000) g 0x10000 64 = (sh, .ok (hb, false)) ∧ (mediaRingBad hb = false ∧ (mediaRingOf hb).head ≠ 1 ∧
       (mediaRingOf hb).descs = 0x10080 ∧ (mediaRingOf hb).work = 0x20000 ∧ (mediaRingOf hb).workSize = 0)) ∧
     (∃ s1 db, agentRead (stRing 0x10000) g 0x10080 128 = (s1, .ok (db, false)) ∧ (mediaDescOf db).isSome = true) ∧
     (∃ s2 inp, agentRead (stRing 0x10000) g 0 0 = (s2, .ok (inp, false)) ∧ inp = []) ∧
     ∃ s3, agentCheck (stRing 0x10000) g 0x20000 1 { r := true, w := true } = (s3, none)) := by
  refine ⟨?_, read_ok (by decide +kernel), read_ok (by decide +kernel), rfl, rfl, by decide, by decide +kernel, err_of (by decide +kernel), read_ok (by decide +kernel),
    read_ok (by decide +kernel), read_ok (by decide +kernel), none_of (by decide +kernel)⟩
  simp only [List.mem_cons, List.not_mem_nil, or_false, forall_eq_or_imp, forall_eq]
  exact ⟨⟨by decide +kernel, by decide, by decide, by decide +kernel⟩, by decide +kernel, by decide, by decide, by decide +kernel⟩

/-! ### Tokens, guards, the step -/

/-- One token in every queue. -/
def coreTok : Core := { core0 with tokens := (List.range 12).map (fun k => (k, { toks := [{ src := k / 3, seq := 0, mark := none }] })) }

/-- A marked token from the control engine waits for the access engine. -/
def coreMark : Core := { core0 with tokens := [(0, { toks := [{ src := 8, seq := 0, mark := some { code := .trap } }] })] }

/-- A core one clk after its tokens came. -/
def stTok (c : Core) : State := { st c with clk := 1 }

theorem issues_pop (s : State) (h : Hdr) (xs : List Loc) (a : engineReady s.core h.eng = true) (b : (s.core.eng h.eng).owed = [])
    (c : popsReady s.core s.clk h.eng h.pop = true) (d : placesFree s.core h.eng h.push = true) (e : mustWait (popped s h).1.core h.eng [.g h.guard.toNat] = false)
    (f : (popped s h).2 = none) (g : anyPoison (popped s h).1.core [.g h.guard.toNat] = false) (i : squashed (popped s h).1 h = false)
    (j : mustWait (popped s h).1.core h.eng xs = false) (k : anyPoison (popped s h).1.core xs = false) : Issues s h xs (popped s h).1 :=
  ⟨a, b, by rw [c, Bool.or_true], d, e, Prod.ext rfl f, g, i, j, k⟩

theorem wit_TokensAreTakenAndPushed :
    let h := { hdr .a with pop := Eng.c.bit }
    (∃ p, popped (stTok coreTok) h = (p, none) ∧ (coreTok.eng .a).noPop = false ∧ Eng.a ∉ maskEngs h.pop) ∧
    (∃ p, Issues (stTok coreTok) h [] p) ∧ queueEnds 0 = some (.c, .a) ∧
    ((queueAt core0 0).oldest 0 = none ∧ engineReady core0 .a = true ∧ (core0.eng .a).owed = [] ∧ (core0.eng .a).noPop = false) ∧
    (Issues (stTok coreTok) (hdr .a) [] (stTok coreTok) ∧ ((queueAt coreTok 0).toks.filter (fun t => decide (t.clk < 1))).findSome? Token.mark = none) ∧
    (Issues (stTok coreMark) (hdr .a) [] (stTok coreMark) ∧
      ((queueAt coreMark 0).toks.filter (fun t => decide (t.clk < 1))).findSome? Token.mark = some { code := .trap } ∧ privileged coreMark = false ∧
      sysNow coreMark sysTVEC ≠ 0) ∧
    ∃ p, Issues (st core0) { hdr .c with push := Eng.a.bit } [] p := by
  refine ⟨⟨_, Prod.ext rfl (by decide), rfl, by decide⟩, ⟨_, issues_pop _ _ _ ?_ ?_ ?_ ?_ ?_ ?_ ?_ ?_ ?_ ?_⟩, rfl, by decide,
    ⟨issues_at _ _ _ (by decide), by decide⟩, ⟨issues_at _ _ _ (by decide), by decide, by decide, by decide⟩, ⟨_, issues_pop _ _ _ ?_ ?_ ?_ ?_ ?_ ?_ ?_ ?_ ?_ ?_⟩⟩ <;> decide

/-- Guard g1 reads zero. -/
theorem wit_SquashedSlotsOnlyMoveTokens (e : Eng) :
    let h := { hdr e with guard := 1 }
    engineReady core0 h.eng = true ∧ (core0.eng h.eng).owed = [] ∧ core0.leaseOwed = [] ∧ ((core0.eng h.eng).noPop || popsReady core0 0 h.eng h.pop) = true ∧
      placesFree core0 h.eng h.push = true ∧ mustWait core0 h.eng [.g h.guard.toNat] = false ∧ popped (st core0) h = (st core0, none) ∧
      h.guard ≠ 0 ∧ readG (st core0) h.eng h.guard.toNat = 0 := by
  cases e <;> exact ⟨by decide, rfl, rfl, by decide, by decide, by decide, rfl, by decide, by decide⟩

theorem wit_DecodeAndEncodeAgree :
    (let i := Instr.li (hdr .c) 2 0x2D4
     i.wf ∧ encode i = some [0xAD403C0] ∧ decodeMain 0xAD403C0 0 0 = .ok i) ∧
    (let i := Instr.wmap 16 0 0 0xFFFFF420
     i.wf ∧ encode i = some [0x4000017, 0xFFFFF420] ∧ decodeDirective 0x4000017 0xFFFFF420 = .ok i) ∧
    (let i := Instr.lwTopk 2
     i.wf ∧ encode i = some [0x2000C] ∧ decodeLogit 0x2000C = .ok i) := by decide +kernel

/-- The package with the instruction of bits `w` where core 0 fetches it next. -/
def stAt (nbits w : Nat) : State := (st core0).withFetchWord nbits w

theorem wit_StepRunsTheDecodedInstruction_engine :
    let s := stAt 32 0xAD403C0
    let p : State := { focus s 0 with eng := .c }
    let x := p.core.eng .c
    s.fatal = none ∧ s.turn = .engine 0 .c ∧ faultsNow s 0 .c = false ∧ p.core.running = true ∧ clkOpen p.core = true ∧ x.halted = false ∧
      stateMarked p.core .c = false ∧ pastHalt p.core x = false ∧ leaves p.core x = none ∧ x.atCross = false ∧ x.returned = false ∧
      (∃ d rest, queueAtPc x = d :: rest ∧ (d.mark = false ∧ (x.exposed = none ∨ x.exposed = some d.exposed) ∧ d.parcels = [0xAD403C0])) ∧
      x.pc % 16384 + 4 * parcelsOf 0xAD403C0 ≤ 16384 ∧ x.begun = true ∧ endsGroup x 0 = false ∧ decodeMain 0xAD403C0 0 0 = .ok (.li (hdr .c) 2 0x2D4) := by
  refine ⟨rfl, rfl, by decide +kernel, by decide +kernel, by decide +kernel, by decide +kernel, by decide +kernel, by decide +kernel, by decide +kernel,
    by decide +kernel, by decide +kernel, ?_, by decide +kernel, by decide +kernel, by decide +kernel, by decide +kernel⟩
  have h : (match queueAtPc (({ focus (stAt 32 0xAD403C0) 0 with eng := .c } : State).core.eng .c) with
      | d :: _ => !d.mark && decide (d.parcels = [0xAD403C0] ∧ (({ focus (stAt 32 0xAD403C0) 0 with eng := .c } : State).core.eng .c).exposed = none)
      | [] => false) = true := by decide +kernel
  revert h
  split
  · rename_i d rest e
    intro h
    simp only [Bool.and_eq_true, Bool.not_eq_true', decide_eq_true_eq] at h
    exact ⟨d, rest, e, h.1, Or.inl h.2.2, h.2.1⟩
  · exact fun h => absurd h Bool.false_ne_true

/-- The first code sector is in the cache of die 0, and nothing is decoded; the instruction is the manual's LI. -/
def stCode : State :=
  { stD { core0 with tlb := [page 0 (BitVec.ofNat 64 (2 ^ 53 + 2 ^ 55 + 2 ^ 62 + 2))] } {} [(0, 0xC0), (1, 3), (2, 0xD4), (3, 0xA)] {} with
    dies := [(0, { codeCache := [{ page := 0, sectors := [(0, { moment := 0 })] }] })] }

theorem wit_StepRunsTheDecodedInstruction_fetch :
    let x := stCode.core.eng .c
    parcelCount 0xAD403C0 = some 1 ∧ x.pc % 16384 + 4 * 1 ≤ 16384 ∧
      (∃ t pa, translate stCode .c x.pc { x := true } = .ok t pa ∧ (pa = 0 ∧ parcelBad (dieAt stCode 0) 0 = false)) ∧
      (∀ k, k < 4 → codeByte stCode (dieAt stCode (dieOfCore stCode.cur)) (0 + k) = some ((parcelBytes [0xAD403C0]).getD k 0)) ∧
      stCode.core.running = true ∧ stCode.core.frozen = false ∧ x.halted = false ∧ queueAtPc x = [] ∧
      (stCode.core.eng (holderOf stCode.core)).pc / 64 = x.pc / 64 := by
  refine ⟨by decide, by decide, tr_ok (by decide +kernel), by decide +kernel, rfl, rfl, rfl, rfl, rfl⟩

theorem sp_ok {σ : Type} {x : σ × StreamGot} {P : BitVec 32 → Nat → Prop} [∀ w k, Decidable (P w k)]
    (h : (match x.2 with | .parcel w k => decide (P w k) | .fault _ => false | .missing _ => false | .poison _ => false) = true) :
    ∃ s w k, x = (s, .parcel w k) ∧ P w k := by
  obtain ⟨s, r⟩ := x
  cases r with
  | parcel w k => exact ⟨s, w, k, rfl, of_decide_eq_true h⟩
  | fault f => exact absurd h Bool.false_ne_true
  | missing k => exact absurd h Bool.false_ne_true
  | poison k => exact absurd h Bool.false_ne_true

theorem wit_StepRunsTheDecodedInstruction_others :
    (faultsNow (stAt 32 0x50600) 0 .c = true ∧ ∀ g ∈ allEngs, poisonsNow (stAt 32 0x50600) 0 g = false) ∧
    (let s := modCore (stAt 32 0x50600) (fun c => { c with engMarks := [Eng.a.num] })
     faultsNow s 0 .c = true ∧ poisonsNow s 0 .a = true ∧ poisonsNow s 0 .c = false) ∧
    (let s := stAt 64 0xFFFFF42004000017
     let p := prefetch (focus s 0)
     s.turn = .stream 0 ∧ clkOpen p.core = true ∧ (∃ k, p.core.call = some k ∧ k.pos.inSegment = true ∧ k.pos.pc = 0) ∧
       (∃ p1 w page, streamParcel p 0 = (p1, .parcel w page) ∧ (w = 0x4000017 ∧ w.toNat % 64 = 23 ∧ page = 0)) ∧
       (∃ p2 l page, streamParcel p 4 = (p2, .parcel l page) ∧ decodeDirective 0x4000017 l = .ok (.wmap 16 0 0 0xFFFFF420))) ∧
    (∃ p1 w page, streamParcel (prefetch (focus (stAt 32 0x1F) 0)) 0 = (p1, .parcel w page) ∧ (w.toNat % 64 ≠ 23 ∧ decodeDirective w 0 = .ok .wend)) ∧
    (let s := stAt 32 0x2000C
     s.turn = .sampler 0 ∧ (dieAt s 0).commits = [] ∧ ∃ r, (dieAt s 0).run = some r ∧ r.ending = none ∧ ∃ x, runSlot s 0 r = some x ∧
       (x.program.getD [])[r.pos]? = some 0x2000C ∧ decodeLogit 0x2000C = .ok (.lwTopk 2)) := by
  refine ⟨⟨by decide +kernel, by decide +kernel⟩, by decide +kernel, ⟨rfl, by decide +kernel, ⟨_, rfl, rfl, rfl⟩, sp_ok (by decide +kernel), sp_ok (by decide +kernel)⟩, sp_ok (by decide +kernel),
    rfl, rfl, _, rfl, rfl, _, rfl, rfl, by decide +kernel⟩

theorem wit_StepsKeepMemoryCanonical : Memory.wf State.reset.mem ∧ ∃ t, step State.reset = .next t := by
  refine ⟨by decide, ?_⟩
  exact ⟨_, rfl⟩

/-! ### Ill-formed terms, one for each check -/

theorem test_refused_engine : (Instr.add (hdr .v) 1 2 3).check = some .engine := by decide

theorem test_refused_shortForm : (Instr.add { hdr .a with guard := 1 } 1 2 3).check = some .shortForm := by decide

theorem test_refused_selfToken : (Instr.addLong { hdr .a with push := 4 } 1 2 (.reg 3)).check = some .selfToken := by decide

theorem test_refused_rounding : (Instr.addLong { hdr .a with rm := 1 } 1 2 (.reg 3)).check = some .rounding := by decide

theorem test_refused_type : (Instr.ld (hdr .a) 1 2 .mq4 (.imm 0)).check = some .type := by decide

theorem test_refused_view :
    (Instr.vadd (hdr .v) { reg := 0, view := .tile, idx := 0 } { reg := 1, view := .row, idx := 0 } .f32 (.mat { reg := 2, view := .tile, idx := 0 })).check =
      some .view := by decide

theorem test_refused_queue : (Instr.tpop (hdr .c) 0).check = some .queue ∧ (Instr.tpsh (hdr .c) 12).check = some .queue := by decide

theorem test_refused_register : (Instr.movLong (hdr .a) 1 9 1 false).check = some .register := by decide

theorem test_refused_value : (Instr.extZ (hdr .a) 1 2 (.imm 0x1000)).check = some .value := by decide

theorem test_refused_decider : (Instr.bEq { gap := 0, sw := false } 1 2 .v false (.imm 4)).check = some .decider := by decide

/-! ### Words written out from the encodings (R49 to R68)

A parcel of a tagged instruction: length code in bits 1:0, tag in 4:2, opcode in 11:5 and above as the entry lays them out. -/

/-- The manual's examples: SLT.s, LI, ADD, LD, VADD, WSTRIPE, LMM. -/
theorem test_decodes_examples :
    decodeTableWord 64 0x1C30406400000361 = some (.sltSLong (hdr .c) 7 3 (.imm 100)) ∧
    decodeTableWord 32 0xAD403C0 = some (.li (hdr .c) 2 0x2D4) ∧
    decodeTableWord 32 0x145F0024 = some (.add (hdr .a) 5 5 0xF) ∧
    decodeTableWord 64 0x10967FF800000805 = some (.ld (hdr .a) 4 9 .s32 (.imm 0x3FF8)) ∧
    decodeTableWord 96 0x700200080024124B60A = some (.vadd { eng := .v, gap := 1, sw := true, pop := 4, push := 1, guard := 9, rm := 0 }
      { reg := 4, view := .tile, idx := 0 } { reg := 2, view := .tile, idx := 0 } .bf16 (.mat { reg := 7, view := .tile, idx := 0 })) ∧
    decodeTableWord 96 0x302000005400000001C2E = some (.wstripe (hdr .w) 0 .s8 (.lit 0x30200)) ∧
    decodeTableWord 64 0x40408002001D01 = some (.lmm { hdr .c with push := 2 } 4 (.imm 128)) := by decide +kernel

/-- Control, system and token instructions of the manual's examples. -/
theorem test_decodes_control :
    decodeTableWord 64 0x1092400600000411 = some (.bEq { gap := 0, sw := false } 4 9 .c true (.imm 6)) ∧
    decodeTableWord 64 0x3F0000000000511 = some (.jr { gap := 0, sw := false } 63 .c) ∧
    decodeTableWord 32 0x40588 = some (.tpop (hdr .v) 4) ∧
    decodeTableWord 64 0x1000430700000661 = some (.sysr (hdr .c) 4 (.num 0x307)) ∧
    decodeTableWord 32 0xC64 = some (.relPkg (hdr .a)) ∧
    decodeTableWord 64 0x600000000006A1 = some (.ldovt (hdr .c) 6) := by decide +kernel

/-- Directives and logit words. -/
theorem test_decodes_streams :
    decodeTableWord 32 0x20003 = some (.wprep 2 0 0) ∧ decodeTableWord 64 0xFFFFF42004000017 = some (.wmap 16 0 0 0xFFFFF420) ∧
    decodeTableWord 32 0x1F = some .wend ∧ decodeTableWord 32 0x3F000112 = some (.lwSetv 0x3F00 1) ∧ decodeTableWord 32 0x2000C = some (.lwTopk 2) := by
  decide +kernel

/-! ### Single steps -/

/-- The value that reader `e` finds in register `r` after an outcome. -/
def gAfter (o : Host.Outcome State Fault Refusal) (r : Nat) : Option Word := (after o).map (fun t => look 0 t.core.g.cur r)

/-- R216: ADD is modulo 2^64. -/
theorem test_add_wraps : gAfter (exec (.addLong (hdr .a) 3 1 (.imm 1)) (st (withG core0 [(1, 0xFFFFFFFFFFFFFFFF)]))) 3 = some 0 := by decide +kernel

/-- R216: SLT.s compares as signed numbers, SLT.z as unsigned ones. -/
theorem test_slt_signs :
    gAfter (exec (.sltSLong (hdr .a) 3 1 (.imm 1)) (st (withG core0 [(1, 0xFFFFFFFFFFFFFFFF)]))) 3 = some 1 ∧
    gAfter (exec (.sltZLong (hdr .a) 3 1 (.imm 1)) (st (withG core0 [(1, 0xFFFFFFFFFFFFFFFF)]))) 3 = some 0 := by decide +kernel

/-- R216: SHR.s copies the sign. -/
theorem test_shr_sign : gAfter (exec (.shrSLong (hdr .c) 3 1 (.imm 4)) (st (withG core0 [(1, 0x8000000000000000)]))) 3 = some 0xF800000000000000 := by
  decide +kernel

/-- R208: a write of g0 is discarded. -/
theorem test_g0_stays_zero : gAfter (exec (.addLong (hdr .a) 0 1 (.imm 1)) (st (withG core0 [(1, 5)]))) 0 = some 0 := by decide +kernel

/-- R416: a TRAP enters the handler at privileged level. -/
theorem test_trap_enters :
    (after (exec (.trap (hdr .c) 5) (stE core0 .c))).map (fun t => (privileged t.core, t.core.engC.pc, t.core.trapFrame.isSome)) =
      some (true, 0x1000, true) := by decide +kernel

/-- R438: what the host writes, little end first, it reads back. -/
theorem test_host_write : (after (exec .evHostWrite { st core0 with arg := { addr := 0x10000, bytes := [1, 2] } })).map
    (fun t => (memByte t 0x10000, memByte t 0x10001, memByte t 0x10002)) = some (1, 2, 0) := by decide +kernel

/-- R362, R367: a step of the access engine goes on past the one parcel of its ADD; the control engine stays. -/
theorem test_step_walks : (after (step (stAt 32 0x145F0024))).map (fun t => (t.core.engA.pc, t.core.engC.pc)) = some (4, 0) := by decide +kernel

end Sys2Proof.Tests
end

section
/-!
PROOFS. Decoding what the encoder writes gives the instruction back, and what is decoded encodes to what it was read from (R47 to R69).
-/
namespace Sys2Proof.Laws.RoundTrip

open Sys2Proof.Machine

/-! ### Acceptance -/

/-- `accept` answers the instruction it was given, and only where its encoding is what was read and no check refuses it. -/
theorem accept_eq_ok {i j : Instr} {ps : List (BitVec 32)} : accept i ps = .ok j ↔ i = j ∧ encode i = some ps ∧ i.wf := by
  unfold accept Instr.wf
  split
  · next he => cases i.check <;> simp [he]
  · next he => simp [he]

theorem accept_self {i : Instr} {ps : List (BitVec 32)} (he : encode i = some ps) (hw : i.wf) : accept i ps = .ok i :=
  accept_eq_ok.2 ⟨rfl, he, hw⟩

/-! ### Codes -/

theorem boolBit_beq_one (b : Bool) : (boolBit b == 1#1) = b := by cases b <;> rfl
theorem engOfTag_tag (e : Eng) : engOfTag e.tag = some e := by cases e <;> rfl
theorem tag_le_four (e : Eng) : e.tag.toNat ≤ 4 := by cases e <;> decide
theorem ofCode_code (t : Ty) : Ty.ofCode t.code.toNat = some t := by cases t <;> rfl
theorem ofCode_code_wide (t : Ty) : Ty.ofCode (0#1 ++ t.code).toNat = some t := by cases t <;> rfl
theorem viewOf_code (v : View) : viewOf v.code = v := by cases v <;> rfl

theorem deciderOf_decider {e : Eng} (h : e.decides = true) : deciderOf e.decider = some e := by
  cases e with
  | c | a => rfl
  | v | w => cases h

theorem mopOf_bits (m : MOp) : mopOf m.bits = m := by
  unfold mopOf MOp.bits
  simp (disch := decide) only [BitVec.extractLsb'_append_eq_of_le, BitVec.extractLsb'_append_eq_of_add_le]
  simp only [Nat.reduceSub, BitVec.extractLsb'_eq_self, viewOf_code]

/-! ### Checks -/

theorem firstFail_cons {b : Bool} {e : IllFormed} {r : List (Bool × IllFormed)} :
    firstFail ((b, e) :: r) = none ↔ b = true ∧ firstFail r = none := by
  cases b <;> simp [firstFail]

/-- The fields that a 32-bit form has no place for are zero (R52). -/
def IsShort (h : Hdr) : Prop := h.pop = 0#4 ∧ h.push = 0#4 ∧ h.guard = 0#6 ∧ h.rm = 0#2

theorem isShort_of_check {h : Hdr} {b : Bool} {e : IllFormed} {r : List (Bool × IllFormed)}
    (hc : firstFail ((b, e) :: (h.pop == 0#4 && h.push == 0#4 && h.guard == 0#6 && h.rm == 0#2, .shortForm) :: r) = none) : IsShort h := by
  have hs := (firstFail_cons.1 (firstFail_cons.1 hc).2).1
  simpa [IsShort, and_assoc] using hs

/-! ### Fields of the first parcel -/

theorem extractLsb'_upper (x y : BitVec 16) (k n : Nat) : (x ++ y).extractLsb' (16 + k) n = x.extractLsb' k n := by
  rw [BitVec.extractLsb'_append_eq_of_le (Nat.le_add_right 16 k), Nat.add_sub_cancel_left]

/-- The low half of a first parcel holds the opcode in bits 12:5, under any upper half (R48). -/
theorem opOf_append (x : BitVec 16) (sw : BitVec 1) (gap : BitVec 2) (op : BitVec 8) (tag : BitVec 3) (l : BitVec 2) :
    opOf (x ++ (sw ++ gap ++ op ++ tag ++ l)) = op.toNat := by
  unfold opOf
  simp (disch := decide) only [BitVec.extractLsb'_append_eq_of_le, BitVec.extractLsb'_append_eq_of_add_le]
  simp only [Nat.reduceSub, BitVec.extractLsb'_eq_self]

/-- The low half of a first parcel holds the tag in bits 4:2, under any upper half (R48, R49). -/
theorem tag_append (x : BitVec 16) (sw : BitVec 1) (gap : BitVec 2) (op : BitVec 8) (tag : BitVec 3) (l : BitVec 2) :
    (x ++ (sw ++ gap ++ op ++ tag ++ l)).extractLsb' 2 3 = tag := by
  simp (disch := decide) only [BitVec.extractLsb'_append_eq_of_le, BitVec.extractLsb'_append_eq_of_add_le]
  simp only [Nat.sub_self, BitVec.extractLsb'_eq_self]

theorem opOf_low (x : BitVec 16) (h : Hdr) (op : BitVec 8) (l : BitVec 2) : opOf (x ++ h.low op l) = op.toNat := opOf_append ..
theorem opOf_slow (x : BitVec 16) (h : SHdr) (op : BitVec 8) (l : BitVec 2) : opOf (x ++ h.low op l) = op.toNat := opOf_append ..

theorem tag_low_le (x : BitVec 16) (h : Hdr) (op : BitVec 8) (l : BitVec 2) : ((x ++ h.low op l).extractLsb' 2 3).toNat ≤ 4 :=
  (congrArg BitVec.toNat (tag_append ..)).trans_le (tag_le_four h.eng)

theorem tag_slow_le (x : BitVec 16) (h : SHdr) (op : BitVec 8) (l : BitVec 2) : ((x ++ h.low op l).extractLsb' 2 3).toNat ≤ 4 :=
  (congrArg BitVec.toNat (tag_append ..)).trans_le (by decide)

theorem hdrOf_first (h : Hdr) (op : BitVec 8) (l : BitVec 2) : hdrOf (h.first op l) true = h := by
  unfold hdrOf Hdr.first Hdr.low
  simp (disch := decide) only [BitVec.extractLsb'_append_eq_of_le, BitVec.extractLsb'_append_eq_of_add_le]
  simp only [Nat.reduceSub, Nat.reduceAdd, BitVec.extractLsb'_eq_self, engOfTag_tag, boolBit_beq_one, Option.getD_some, if_true]

theorem hdrOf_slow (x : BitVec 16) (h : SHdr) (op : BitVec 8) (l : BitVec 2) (long : Bool) : (hdrOf (x ++ h.low op l) long).s = h := by
  unfold hdrOf SHdr.low Hdr.s
  simp (disch := decide) only [BitVec.extractLsb'_append_eq_of_le, BitVec.extractLsb'_append_eq_of_add_le]
  simp only [Nat.reduceSub, BitVec.extractLsb'_eq_self, boolBit_beq_one]

theorem hdrOf_low {h : Hdr} (hs : IsShort h) (x : BitVec 16) (op : BitVec 8) (l : BitVec 2) : hdrOf (x ++ h.low op l) false = h := by
  obtain ⟨eng, gap, sw, pop, push, guard, rm⟩ := h
  obtain ⟨rfl, rfl, rfl, rfl⟩ := hs
  unfold hdrOf Hdr.low
  simp (disch := decide) only [BitVec.extractLsb'_append_eq_of_le, BitVec.extractLsb'_append_eq_of_add_le]
  simp only [Nat.reduceSub, BitVec.extractLsb'_eq_self, engOfTag_tag, boolBit_beq_one, Option.getD_some, Bool.false_eq_true, if_false]

/-! ### Fields of the second and third parcel -/

theorem gFields_reg (d a : Reg) (t : BitVec 5) (r : Reg) : gFields (gParcel d a t (.reg r)) = ⟨d, a, t, 0#1, 0#8 ++ r⟩ := by
  unfold gFields gParcel
  simp (disch := decide) only [BitVec.extractLsb'_append_eq_of_le, BitVec.extractLsb'_append_eq_of_add_le]
  simp only [Nat.reduceSub, Nat.reduceAdd, BitVec.extractLsb'_eq_self]

theorem gFields_imm (d a : Reg) (t : BitVec 5) (i : BitVec 14) : gFields (gParcel d a t (.imm i)) = ⟨d, a, t, 1#1, i⟩ := by
  unfold gFields gParcel
  simp (disch := decide) only [BitVec.extractLsb'_append_eq_of_le, BitVec.extractLsb'_append_eq_of_add_le]
  simp only [Nat.reduceSub, BitVec.extractLsb'_eq_self]

theorem gFields_lit (d a : Reg) (t : BitVec 5) (l : BitVec 32) : gFields (gParcel d a t (.lit l)) = ⟨d, a, t, 1#1, 0#14⟩ :=
  gFields_imm d a t 0#14

theorem mFields_mParcel (d a : BitVec 13) (t : BitVec 5) (l : BitVec 1) : mFields (mParcel d a t l) = ⟨d, a, t, l⟩ := by
  unfold mFields mParcel
  simp (disch := decide) only [BitVec.extractLsb'_append_eq_of_le, BitVec.extractLsb'_append_eq_of_add_le]
  simp only [Nat.reduceSub, BitVec.extractLsb'_eq_self]

theorem gTy_of_code {g : FG} {t : Ty} (h : g.t = t.code) : g.ty = some t := by rw [FG.ty, h, ofCode_code]
theorem mTy_of_code {m : FM} {t : Ty} (h : m.t = t.code) : m.ty = some t := by rw [FM.ty, h, ofCode_code]

theorem s_eq_imm {g : FG} {i : BitVec 14} (h : g.s = .imm i) : g.l = 1#1 ∧ g.i = i := by
  unfold FG.s at h
  split at h
  · next hl => exact ⟨beq_iff_eq.1 hl, Src2.imm.inj h⟩
  · cases h

theorem s_eq_reg {g : FG} {r : Reg} (h : g.s = .reg r) : g.l ≠ 1#1 ∧ g.r = r := by
  unfold FG.s at h
  split at h
  · cases h
  · next hl => exact ⟨fun e => hl (beq_iff_eq.2 e), Src2.reg.inj h⟩

theorem s_ne_lit (g : FG) (l : BitVec 32) : g.s ≠ .lit l := by
  unfold FG.s
  split <;> exact nofun

theorem loopCount_eq {g : FG} {c : LoopCount} (h : g.s = c.src2) : (if g.l == 1#1 then LoopCount.imm g.i else .reg g.r) = c := by
  cases c with
  | reg r => obtain ⟨hl, hr⟩ := s_eq_reg h; simp [hl, hr]
  | imm i => obtain ⟨hl, hi⟩ := s_eq_imm h; simp [hl, hi]

theorem sysNum_eq {g : FG} {n : SysNum} (h : g.s = n.src2) : (if g.l == 1#1 then SysNum.num g.i else .reg g.r) = n := by
  cases n with
  | reg r => obtain ⟨hl, hr⟩ := s_eq_reg h; simp [hl, hr]
  | num i => obtain ⟨hl, hi⟩ := s_eq_imm h; simp [hl, hi]

theorem imm_of_src2 {g : FG} {j : Imm} (h : g.s = j.src2) : j = .imm g.i := by
  cases j with
  | imm j => rw [(s_eq_imm h).2]
  | lit l => exact absurd h (s_ne_lit g l)

/-- The decider of a branch (R372). -/
theorem dec_of_t {g : FG} {e : Eng} {x : BitVec 3} (h : g.t = e.decider ++ x) (he : e.decides = true) : deciderOf g.dec = some e := by
  rw [FG.dec, h]
  exact (congrArg deciderOf BitVec.extractLsb'_append_eq_left).trans (deciderOf_decider he)

/-- The fields of a branch (R372). -/
theorem branch_of_t {g : FG} {e : Eng} {lv : Bool} (h : g.t = e.decider ++ boolBit lv ++ 0#2) (he : e.decides = true) :
    deciderOf g.dec = some e ∧ g.lv = lv := by
  refine ⟨dec_of_t (x := boolBit lv ++ 0#2) (h.trans ?_) he, ?_⟩
  · cases e <;> cases lv <;> rfl
  · rw [FG.lv, h]; cases e <;> cases lv <;> rfl

theorem t2Of_append (x : BitVec 14) (t : Ty) (y : BitVec 13) : t2Of (x ++ t.code ++ y) = some t := by
  unfold t2Of
  simp (disch := decide) only [BitVec.extractLsb'_append_eq_of_le, BitVec.extractLsb'_append_eq_of_add_le]
  simp only [Nat.sub_self, BitVec.extractLsb'_eq_self, ofCode_code]

/-! ### Layouts -/

/-- Decoding what the encoder writes for `i` gives `i` back, whatever follows it in memory. -/
def DecodesBack (i : Instr) : Prop :=
  ∀ (ps : List (BitVec 32)) (x y : BitVec 32), encode i = some ps → decodeMain (ps.getD 0 0) (ps.getD 1 x) (ps.getD 2 y) = .ok i

section
variable {i : Instr} (hw : i.wf)
include hw

theorem decodesBack_one {p0 : BitVec 32} (he : encode i = some [p0]) (ht : (p0.extractLsb' 2 3).toNat ≤ 4)
    (hc : parcelCount p0 = some 1) (hf : fields32 p0 = some i) : DecodesBack i := by
  intro ps x y hp
  obtain rfl := Option.some.inj (he.symm.trans hp)
  simp only [decodeMain, List.getD_cons_zero, if_neg (Nat.not_lt.2 ht), hc, hf]
  exact accept_self he hw

theorem decodesBack_two {p0 p1 : BitVec 32} (he : encode i = some [p0, p1]) (ht : (p0.extractLsb' 2 3).toNat ≤ 4)
    (hc : parcelCount p0 = some 2) (hf : fields64 p0 p1 = some i) : DecodesBack i := by
  intro ps x y hp
  obtain rfl := Option.some.inj (he.symm.trans hp)
  simp only [decodeMain, List.getD_cons_zero, List.getD_cons_succ, if_neg (Nat.not_lt.2 ht), hc, hf]
  exact accept_self he hw

theorem decodesBack_three {p0 p1 p2 : BitVec 32} (he : encode i = some [p0, p1, p2]) (ht : (p0.extractLsb' 2 3).toNat ≤ 4)
    (hc : parcelCount p0 = some 3) (hf : fields96 p0 p1 p2 = some i) : DecodesBack i := by
  intro ps x y hp
  obtain rfl := Option.some.inj (he.symm.trans hp)
  simp only [decodeMain, List.getD_cons_zero, List.getD_cons_succ, if_neg (Nat.not_lt.2 ht), hc, hf]
  exact accept_self he hw

/-- A 32-bit form of one engine, with `x` in bits 31:16. -/
theorem decodesBack_enc32 {h : Hdr} {op : BitVec 8} (x : BitVec 16) (hs : IsShort h) (he : encode i = some [x ++ h.low op 0#2])
    (hf : ∀ p0, opOf p0 = op.toNat → hdrOf p0 false = h → (∀ k n, p0.extractLsb' (16 + k) n = x.extractLsb' k n) →
      fields32 p0 = some i) : DecodesBack i :=
  decodesBack_one hw he (tag_low_le ..) (Parcels.count_one (Parcels.short_count ..))
    (hf _ (opOf_low ..) (hdrOf_low hs ..) (extractLsb'_upper x _))

/-- A 32-bit form under tag S, with `x` in bits 31:16. -/
theorem decodesBack_encS32 {h : SHdr} {op : BitVec 8} (x : BitVec 16) (he : encode i = some [x ++ h.low op 0#2])
    (hf : ∀ p0, opOf p0 = op.toNat → (hdrOf p0 false).s = h → (∀ k n, p0.extractLsb' (16 + k) n = x.extractLsb' k n) →
      fields32 p0 = some i) : DecodesBack i :=
  decodesBack_one hw he (tag_slow_le ..) (Parcels.count_one (Parcels.sshort_count ..))
    (hf _ (opOf_slow ..) (hdrOf_slow ..) (extractLsb'_upper x _))

end

/-- What the decoder reads in a parcel of layout G32. -/
structure ReadsG32 (p0 : BitVec 32) (h : Hdr) (op : BitVec 8) (d a : Reg) (b : BitVec 4) : Prop where
  op : opOf p0 = op.toNat
  hdr : hdrOf p0 false = h
  d : (f32Fields p0).d = d
  a : (f32Fields p0).a = a
  b : (f32Fields p0).b = b

/-- What the decoder reads in the first two parcels of layout G. -/
structure ReadsG (p0 p1 : BitVec 32) (h : Hdr) (op : BitVec 8) (d a : Reg) (t : BitVec 5) : Prop where
  op : opOf p0 = op.toNat
  hdr : hdrOf p0 true = h
  d : (gFields p1).d = d
  a : (gFields p1).a = a
  t : (gFields p1).t = t

/-- What the decoder reads in the first two parcels of layout G under tag S. -/
structure ReadsS (p0 p1 : BitVec 32) (h : SHdr) (op : BitVec 8) (d a : Reg) (t : BitVec 5) : Prop where
  op : opOf p0 = op.toNat
  hdr : (hdrOf p0 true).s = h
  d : (gFields p1).d = d
  a : (gFields p1).a = a
  t : (gFields p1).t = t

/-- What the decoder reads in the first two parcels of layout M with two matrix operands. -/
structure ReadsM (p0 p1 : BitVec 32) (h : Hdr) (op : BitVec 8) (d a : MOp) (t : BitVec 5) : Prop where
  op : opOf p0 = op.toNat
  hdr : hdrOf p0 true = h
  dm : (mFields p1).dm = d
  am : (mFields p1).am = a
  t : (mFields p1).t = t

/-- What the decoder reads in the first two parcels of MLD and MST, whose field a holds a general register (R187). -/
structure ReadsSeg (p0 p1 : BitVec 32) (h : Hdr) (op : BitVec 8) (d : MOp) (a : Reg) (t : BitVec 5) : Prop where
  op : opOf p0 = op.toNat
  hdr : hdrOf p0 true = h
  dm : (mFields p1).dm = d
  ar : (mFields p1).ar = a
  t : (mFields p1).t = t

theorem gFields_gParcel (d a : Reg) (t : BitVec 5) (s : Src2) :
    (gFields (gParcel d a t s)).d = d ∧ (gFields (gParcel d a t s)).a = a ∧ (gFields (gParcel d a t s)).t = t := by
  cases s with
  | reg r => rw [gFields_reg]; exact ⟨rfl, rfl, rfl⟩
  | imm i => rw [gFields_imm]; exact ⟨rfl, rfl, rfl⟩
  | lit l => rw [gFields_lit]; exact ⟨rfl, rfl, rfl⟩

theorem readsG_parcels (h : Hdr) (op : BitVec 8) (l : BitVec 2) (d a : Reg) (t : BitVec 5) (s : Src2) :
    ReadsG (h.first op l) (gParcel d a t s) h op d a t :=
  have ⟨hd, ha, ht⟩ := gFields_gParcel d a t s
  ⟨opOf_low .., hdrOf_first .., hd, ha, ht⟩

theorem readsS_parcels (h : SHdr) (op : BitVec 8) (l : BitVec 2) (d a : Reg) (t : BitVec 5) (s : Src2) :
    ReadsS (h.first op l) (gParcel d a t s) h op d a t :=
  have ⟨hd, ha, ht⟩ := gFields_gParcel d a t s
  ⟨opOf_slow .., hdrOf_slow .., hd, ha, ht⟩

theorem readsM_parcels (h : Hdr) (op : BitVec 8) (l : BitVec 2) (d a : MOp) (t : BitVec 5) (b : BitVec 1) :
    ReadsM (h.first op l) (mParcel d.bits a.bits t b) h op d a t := by
  refine ⟨opOf_low .., hdrOf_first .., ?_, ?_, ?_⟩ <;> rw [mFields_mParcel]
  · exact mopOf_bits d
  · exact mopOf_bits a

theorem readsSeg_parcels (h : Hdr) (op : BitVec 8) (l : BitVec 2) (d : MOp) (a : Reg) (t : BitVec 5) (b : BitVec 1) :
    ReadsSeg (h.first op l) (mParcel d.bits (0#7 ++ a) t b) h op d a t := by
  refine ⟨opOf_low .., hdrOf_first .., ?_, ?_, ?_⟩ <;> rw [mFields_mParcel]
  · exact mopOf_bits d
  · exact BitVec.extractLsb'_append_eq_right

theorem s_gParcel_reg (d a : Reg) (t : BitVec 5) (r : Reg) : (gFields (gParcel d a t (.reg r))).s = .reg r := by
  rw [gFields_reg]
  exact congrArg Src2.reg BitVec.extractLsb'_append_eq_right

theorem s_gParcel_imm (d a : Reg) (t : BitVec 5) (i : BitVec 14) : (gFields (gParcel d a t (.imm i))).s = .imm i := by
  rw [gFields_imm]; rfl

section
variable {i : Instr} (hw : i.wf)
include hw

theorem decodesBack_encG32 {h : Hdr} {op : BitVec 8} {d a : Reg} {b : BitVec 4} (hs : IsShort h) (he : encode i = some (encG32 h op d a b))
    (hf : ∀ p0, ReadsG32 p0 h op d a b → fields32 p0 = some i) : DecodesBack i := by
  refine decodesBack_one hw he (tag_low_le (d ++ a ++ b) ..) (Parcels.encG32_count h op d a b)
    (hf _ ⟨opOf_low (d ++ a ++ b) .., hdrOf_low hs (d ++ a ++ b) .., ?_, ?_, ?_⟩)
  all_goals
    unfold f32Fields
    simp (disch := decide) only [BitVec.extractLsb'_append_eq_of_le, BitVec.extractLsb'_append_eq_of_add_le]
    simp only [Nat.reduceSub, BitVec.extractLsb'_eq_self]

theorem decodesBack_encG {h : Hdr} {op : BitVec 8} {d a : Reg} {t : BitVec 5} {s : Src2} (he : encode i = some (encG h op d a t s))
    (h64 : ∀ p0 p1, ReadsG p0 p1 h op d a t → (gFields p1).s = s → fields64 p0 p1 = some i)
    (h96 : ∀ p0 p1 l, ReadsG p0 p1 h op d a t → s = .lit l → fields96 p0 p1 l = some i) : DecodesBack i := by
  cases s with
  | reg r => exact decodesBack_two hw he (tag_low_le ..) (Parcels.encG_count h op d a t (.reg r)) (h64 _ _ (readsG_parcels ..) (s_gParcel_reg ..))
  | imm j => exact decodesBack_two hw he (tag_low_le ..) (Parcels.encG_count h op d a t (.imm j)) (h64 _ _ (readsG_parcels ..) (s_gParcel_imm ..))
  | lit l => exact decodesBack_three hw he (tag_low_le ..) (Parcels.encG_count h op d a t (.lit l)) (h96 _ _ _ (readsG_parcels ..) rfl)

theorem decodesBack_encS {h : SHdr} {op : BitVec 8} {d a : Reg} {t : BitVec 5} {s : Src2} (he : encode i = some (encS h op d a t s))
    (h64 : ∀ p0 p1, ReadsS p0 p1 h op d a t → (gFields p1).s = s → fields64 p0 p1 = some i)
    (h96 : ∀ p0 p1 l, ReadsS p0 p1 h op d a t → s = .lit l → fields96 p0 p1 l = some i) : DecodesBack i := by
  cases s with
  | reg r => exact decodesBack_two hw he (tag_slow_le ..) (Parcels.encS_count h op d a t (.reg r)) (h64 _ _ (readsS_parcels ..) (s_gParcel_reg ..))
  | imm j => exact decodesBack_two hw he (tag_slow_le ..) (Parcels.encS_count h op d a t (.imm j)) (h64 _ _ (readsS_parcels ..) (s_gParcel_imm ..))
  | lit l => exact decodesBack_three hw he (tag_slow_le ..) (Parcels.encS_count h op d a t (.lit l)) (h96 _ _ _ (readsS_parcels ..) rfl)

/-- Layout G under tag S where a register is not admitted for src2. -/
theorem decodesBack_encS_imm {h : SHdr} {op : BitVec 8} {d a : Reg} {t : BitVec 5} {j : Imm} (he : encode i = some (encS h op d a t j.src2))
    (h64 : ∀ p0 p1, ReadsS p0 p1 h op d a t → j = .imm (gFields p1).i → fields64 p0 p1 = some i)
    (h96 : ∀ p0 p1 l, ReadsS p0 p1 h op d a t → j = .lit l → fields96 p0 p1 l = some i) : DecodesBack i := by
  refine decodesBack_encS hw he (fun p0 p1 hp hs => h64 p0 p1 hp ?_) (fun p0 p1 l hp hs => h96 p0 p1 l hp ?_)
  · exact imm_of_src2 hs
  · cases j with
    | imm j => cases hs
    | lit l => cases hs; rfl

theorem decodesBack_encM64 {h : Hdr} {op : BitVec 8} {d a : MOp} {t : BitVec 5} (he : encode i = some (encM64 h op d a t))
    (h64 : ∀ p0 p1, ReadsM p0 p1 h op d a t → fields64 p0 p1 = some i) : DecodesBack i :=
  decodesBack_two hw he (tag_low_le ..) (Parcels.encM64_count h op d a t) (h64 _ _ (readsM_parcels ..))

theorem decodesBack_encM96 {h : Hdr} {op : BitVec 8} {d a : MOp} {t : BitVec 5} {l : BitVec 1} {p2 : BitVec 32}
    (he : encode i = some (encM96 h op d.bits a.bits t l p2))
    (h96 : ∀ p0 p1, ReadsM p0 p1 h op d a t → (mFields p1).l = l → fields96 p0 p1 p2 = some i) : DecodesBack i :=
  decodesBack_three hw he (tag_low_le ..) (Parcels.encM96_count h op d.bits a.bits t l p2)
    (h96 _ _ (readsM_parcels ..) (by rw [mFields_mParcel]))

theorem decodesBack_encV {h : Hdr} {op : BitVec 8} {d a : MOp} {t : BitVec 5} {s : VSrc} (he : encode i = some (encV h op d a t s))
    (h96 : ∀ p0 p1 p2, ReadsM p0 p1 h op d a t → (mFields p1).vsrc p2 = s → fields96 p0 p1 p2 = some i) : DecodesBack i := by
  cases s with
  | mat m =>
    refine decodesBack_encM96 hw he (fun p0 p1 hp hl => h96 p0 p1 _ hp ?_)
    rw [FM.vsrc, hl]
    exact congrArg VSrc.mat ((congrArg mopOf BitVec.extractLsb'_append_eq_right).trans (mopOf_bits m))
  | lit l => exact decodesBack_encM96 hw he (fun p0 p1 hp hl => h96 p0 p1 _ hp (by rw [FM.vsrc, hl]; rfl))

theorem decodesBack_encAmt {h : Hdr} {op : BitVec 8} {d a : MOp} {s : AmtSrc} (he : encode i = some (encAmt h op d a s))
    (h96 : ∀ p0 p1 p2, ReadsM p0 p1 h op d a 0#5 →
      (if (mFields p1).l == 1#1 then AmtSrc.lit p2 else .reg (p2.setWidth 6)) = s → fields96 p0 p1 p2 = some i) : DecodesBack i := by
  cases s with
  | reg r =>
    refine decodesBack_encM96 hw he (fun p0 p1 hp hl => h96 p0 p1 _ hp ?_)
    rw [hl]
    exact congrArg AmtSrc.reg BitVec.setWidth_append_eq_right
  | lit l => exact decodesBack_encM96 hw he (fun p0 p1 hp hl => h96 p0 p1 _ hp (by rw [hl]; rfl))

theorem decodesBack_encSeg {h : Hdr} {op : BitVec 8} {d : MOp} {a : Reg} {t : Ty} {s : SegSrc} (he : encode i = some (encSeg h op d a t s))
    (h64 : ∀ p0 p1, ReadsSeg p0 p1 h op d a t.code → s = .one → fields64 p0 p1 = some i)
    (h96 : ∀ p0 p1 p2, ReadsSeg p0 p1 h op d a t.code →
      (if (mFields p1).l == 1#1 then SegSrc.lit p2 else .reg (p2.setWidth 6)) = s → fields96 p0 p1 p2 = some i) : DecodesBack i := by
  cases s with
  | one => exact decodesBack_two hw he (tag_low_le ..) (Parcels.encSeg_count h op d a t .one) (h64 _ _ (readsSeg_parcels ..) rfl)
  | lit l =>
    refine decodesBack_three hw he (tag_low_le ..) (Parcels.encSeg_count h op d a t (.lit l)) (h96 _ _ _ (readsSeg_parcels ..) ?_)
    rw [mFields_mParcel]; rfl
  | reg r =>
    refine decodesBack_three hw he (tag_low_le ..) (Parcels.encSeg_count h op d a t (.reg r)) (h96 _ _ _ (readsSeg_parcels ..) ?_)
    rw [mFields_mParcel]
    exact congrArg SegSrc.reg BitVec.setWidth_append_eq_right

end

theorem lit_of_src2 {j : Imm} {l : BitVec 32} (h : j.src2 = .lit l) : j = .lit l := by
  cases j with
  | imm j => cases h
  | lit k => cases h; rfl

theorem engine_of_check {h : Hdr} {e : Eng} {x : IllFormed} {r : List (Bool × IllFormed)}
    (hc : firstFail (([e].contains h.eng, x) :: r) = none) : h.eng = e := by
  simpa using (firstFail_cons.1 hc).1

/-- A field between two others. -/
theorem extractLsb'_middle {n m k : Nat} (x : BitVec n) (y : BitVec m) (z : BitVec k) : (x ++ y ++ z).extractLsb' k m = y := by
  rw [BitVec.extractLsb'_append_eq_of_le (le_refl k), Nat.sub_self, BitVec.extractLsb'_append_eq_right]

theorem setWidth_append_append {n m k : Nat} (x : BitVec n) (y : BitVec m) (z : BitVec k) : (x ++ (y ++ z)).setWidth k = z := by
  rw [← BitVec.setWidth_setWidth_of_le (x ++ (y ++ z)) (Nat.le_add_left k m), BitVec.setWidth_append_eq_right, BitVec.setWidth_append_eq_right]

/-! ### The main text by layout

A table of the decoder (`fields32`, `fields64`, `fields96`) is one match on the opcode. Each case below has the fields that its layout reads, and
the arm: the opcode in the match is made a variable, that variable is the opcode the encoder wrote, and the match reduces.
-/

/-- How the operands of a main-text instruction are laid out (R52, R56). -/
inductive Layout where
  /-- A 32-bit form of one engine. -/
  | short
  /-- A form under tag S. -/
  | shared
  /-- Layout G with no type. -/
  | general
  /-- Layout G with a type. -/
  | typed
  /-- Layout M. -/
  | matrix
  /-- No word of the main text. -/
  | other

/-- The layout of an instruction. -/
def layout : Instr → Layout
  | .add .. | .sub .. | .mul .. | .mulhS .. | .mulhZ .. | .divS .. | .divZ .. | .remS .. | .remZ .. | .and64 .. | .or64 .. | .xor64 ..
  | .shl .. | .shrS .. | .shrZ .. | .rot .. | .minS .. | .minZ .. | .maxS .. | .maxZ .. | .seq .. | .sltS .. | .sltZ .. | .sel .. | .clz ..
  | .popc .. | .mov .. | .nop .. | .eret .. | .halt .. | .tpop .. | .tpsh .. | .qcancel .. | .relCore .. | .relClu .. | .relDie ..
  | .relPkg .. | .relSys .. | .fenceCore .. | .fenceClu .. | .fenceDie .. | .fencePkg .. | .fenceSys .. | .acqCore .. | .acqClu ..
  | .acqDie .. | .acqPkg .. | .acqSys .. | .settle .. | .li .. | .trap .. | .syscall .. => .short
  | .syncpc .. | .syncpcD .. | .bEq .. | .bNe .. | .bLtS .. | .bLtZ .. | .bGeS .. | .bGeZ .. | .jmp .. | .jl .. | .jr .. | .loop ..
  | .syncpcLong .. | .syncpcDLong .. => .shared
  | .addLong .. | .subLong .. | .mulLong .. | .mulhSLong .. | .mulhZLong .. | .divSLong .. | .divZLong .. | .remSLong .. | .remZLong ..
  | .and64Long .. | .or64Long .. | .xor64Long .. | .shlLong .. | .shrSLong .. | .shrZLong .. | .rotLong .. | .minSLong .. | .minZLong ..
  | .maxSLong .. | .maxZLong .. | .seqLong .. | .sltSLong .. | .sltZLong .. | .selLong .. | .extS .. | .extZ .. | .ins .. | .probe ..
  | .probeLn .. | .copy .. | .copyLn .. | .pushe .. | .pusheT .. | .pope .. | .popeT .. | .promote .. | .promoteH .. | .demote ..
  | .wcall .. | .wzero .. | .lacq .. | .lacqT .. | .lcfg .. | .lmm .. | .lmmA .. | .lmmg .. | .lmmgA .. | .lscore .. | .lscoreCm ..
  | .lscoreTm .. | .lpv .. | .lpvA .. | .clzLong .. | .popcLong .. | .ldovt .. | .lrel .. | .relCoreLong .. | .relCluLong ..
  | .relDieLong .. | .relPkgLong .. | .relSysLong .. | .fenceCoreLong .. | .fenceCluLong .. | .fenceDieLong .. | .fencePkgLong ..
  | .fenceSysLong .. | .acqCoreLong .. | .acqCluLong .. | .acqDieLong .. | .acqPkgLong .. | .acqSysLong .. | .slack .. | .slackW ..
  | .liLong .. | .movLong .. | .sysr .. | .sysw .. | .settleLong .. => .general
  | .ld .. | .ldLn .. | .st .. | .stLn .. | .wstripe .. | .ldrain .. | .aadd .. | .amin .. | .amax .. | .aor .. | .aand .. | .axchg ..
  | .acas .. | .aaddN .. | .aminN .. | .amaxN .. | .aorN .. | .aandN .. | .wdrain .. => .typed
  | .mld .. | .mldLn .. | .mst .. | .mstLn .. | .vabs .. | .vneg .. | .vabsSat .. | .vnegSat .. | .vexp .. | .vlog .. | .vrcp .. | .vrsq ..
  | .vsin .. | .vcos .. | .vtanh .. | .vredrAdd .. | .vredrMax .. | .vredrMin .. | .vredrAmax .. | .vredcAdd .. | .vredcMax ..
  | .vredcMin .. | .vredcAmax .. | .vadd .. | .vsub .. | .vmul .. | .vfma .. | .vmin .. | .vmax .. | .vand .. | .vor .. | .vxor ..
  | .vshl .. | .vshr .. | .vaddSat .. | .vsubSat .. | .vmulSat .. | .vfmaSat .. | .vshlSat .. | .vcmpEq .. | .vcmpNe .. | .vcmpLt ..
  | .vcmpLe .. | .vsel .. | .vrotr .. | .vrotc .. | .vbcr .. | .vbcc .. | .vcvt .. | .vpack .. | .vunpack .. => .matrix
  | _ => .other

theorem decodesBack_of_short (i : Instr) (hw : i.wf) (hk : layout i = .short) : DecodesBack i := by
  cases i with
  | add | sub | mul | mulhS | mulhZ | divS | divZ | remS | remZ | and64 | or64 | xor64 | shl | shrS | shrZ | rot | minS | minZ | maxS | maxZ
  | seq | sltS | sltZ | sel | clz | popc | mov | nop | eret | halt | tpop | tpsh | qcancel | relCore | relClu | relDie | relPkg | relSys
  | fenceCore | fenceClu | fenceDie | fencePkg | fenceSys | acqCore | acqClu | acqDie | acqPkg | acqSys =>
    refine decodesBack_encG32 hw (isShort_of_check hw) rfl (fun p0 ⟨hop, hhdr, hd, ha, hb⟩ => ?_)
    subst_vars; delta fields32; generalize opOf p0 = n at hop ⊢; subst hop; rfl
  | settle h c =>
    refine decodesBack_encG32 hw (isShort_of_check hw) rfl (fun p0 ⟨hop, hhdr, hd, ha, hb⟩ => ?_)
    obtain rfl : ((f32Fields p0).b == 1#4) = c := by rw [hb]; cases c <;> rfl
    subst_vars; delta fields32; generalize opOf p0 = n at hop ⊢; subst hop; rfl
  | li h d j =>
    refine decodesBack_enc32 hw (d ++ j) (isShort_of_check hw) rfl (fun p0 hop hhdr hx => ?_)
    obtain rfl : (f32Fields p0).d = d := (hx 10 6).trans BitVec.extractLsb'_append_eq_left
    obtain rfl : (f32Fields p0).i = j := (hx 0 10).trans BitVec.extractLsb'_append_eq_right
    subst_vars; delta fields32; generalize opOf p0 = n at hop ⊢; subst hop; rfl
  | trap h j | syscall h j =>
    refine decodesBack_enc32 hw (0#6 ++ j) (isShort_of_check hw) rfl (fun p0 hop hhdr hx => ?_)
    obtain rfl : (f32Fields p0).i = j := (hx 0 10).trans BitVec.extractLsb'_append_eq_right
    subst_vars; delta fields32; generalize opOf p0 = n at hop ⊢; subst hop; rfl
  | _ => cases hk

theorem decodesBack_of_shared (i : Instr) (hw : i.wf) (hk : layout i = .shared) : DecodesBack i := by
  cases i with
  | syncpc h =>
    refine decodesBack_encS32 hw 0#16 rfl (fun p0 hop hhdr hx => ?_)
    subst_vars; delta fields32; generalize opOf p0 = n at hop ⊢; subst hop; rfl
  | syncpcD h m =>
    refine decodesBack_encS32 hw (0#4 ++ m ++ 0#4) rfl (fun p0 hop hhdr hx => ?_)
    obtain rfl : p0.extractLsb' 20 8 = m := (hx 4 8).trans (extractLsb'_middle _ m _)
    subst_vars; delta fields32; generalize opOf p0 = n at hop ⊢; subst hop; rfl
  | bEq h b a e lv | bNe h b a e lv | bLtS h b a e lv | bLtZ h b a e lv | bGeS h b a e lv | bGeZ h b a e lv =>
    have he := (firstFail_cons.1 hw).1
    refine decodesBack_encS_imm hw rfl (fun p0 p1 ⟨hop, hhdr, hd, ha, ht⟩ hs => ?_) (fun p0 p1 l ⟨hop, hhdr, hd, ha, ht⟩ hs => ?_) <;>
      (obtain ⟨hdec, rfl⟩ := branch_of_t ht he
       subst_vars; delta fields64 fields96; generalize opOf p0 = n at hop ⊢; subst hop; exact congrArg (Option.map _) hdec)
  | jmp | jl =>
    refine decodesBack_encS_imm hw rfl (fun p0 p1 ⟨hop, hhdr, hd, ha, ht⟩ hs => ?_) (fun p0 p1 l ⟨hop, hhdr, hd, ha, ht⟩ hs => ?_) <;>
      (subst_vars; delta fields64 fields96; generalize opOf p0 = n at hop ⊢; subst hop; rfl)
  | jr h a e =>
    refine decodesBack_encS hw rfl (fun p0 p1 ⟨hop, hhdr, hd, ha, ht⟩ hs => ?_) (fun _ _ _ _ hs => nomatch hs)
    have hdec := dec_of_t ht (firstFail_cons.1 hw).1
    subst_vars; delta fields64; generalize opOf p0 = n at hop ⊢; subst hop; exact congrArg (Option.map _) hdec
  | loop h dist k cnt =>
    refine decodesBack_encS hw rfl (fun p0 p1 ⟨hop, hhdr, hd, ha, ht⟩ hs => ?_) (fun _ _ _ _ hs => absurd hs (by cases cnt <;> exact nofun))
    obtain rfl : (gFields p1).d ++ (gFields p1).a = dist := by rw [hd, ha]; exact BitVec.extractLsb'_append_extractLsb'
    obtain rfl : (gFields p1).t.setWidth 3 = k := by rw [ht]; exact BitVec.setWidth_append_eq_right
    obtain rfl := loopCount_eq hs
    subst_vars; delta fields64; generalize opOf p0 = n at hop ⊢; subst hop; rfl
  | syncpcLong =>
    refine decodesBack_encS hw rfl (fun p0 p1 ⟨hop, hhdr, hd, ha, ht⟩ hs => ?_) (fun _ _ _ _ hs => nomatch hs)
    subst_vars; delta fields64; generalize opOf p0 = n at hop ⊢; subst hop; rfl
  | syncpcDLong h m =>
    refine decodesBack_encS hw rfl (fun p0 p1 ⟨hop, hhdr, hd, ha, ht⟩ hs => ?_) (fun _ _ _ _ hs => nomatch hs)
    obtain rfl : (gFields p1).i.setWidth 8 = m := by rw [(s_eq_imm hs).2]; simp
    subst_vars; delta fields64; generalize opOf p0 = n at hop ⊢; subst hop; rfl
  | _ => cases hk

theorem decodesBack_of_general (i : Instr) (hw : i.wf) (hk : layout i = .general) : DecodesBack i := by
  cases i with
  | addLong | subLong | mulLong | mulhSLong | mulhZLong | divSLong | divZLong | remSLong | remZLong | and64Long | or64Long | xor64Long
  | shlLong | shrSLong | shrZLong | rotLong | minSLong | minZLong | maxSLong | maxZLong | seqLong | sltSLong | sltZLong | selLong | extS | extZ
  | ins | probe | probeLn | copy | copyLn | pushe | pusheT | pope | popeT | promote | promoteH | demote | wcall | wzero | lacq | lacqT | lcfg
  | lmm | lmmA | lmmg | lmmgA | lscore | lscoreCm | lscoreTm | lpv | lpvA =>
    refine decodesBack_encG hw rfl (fun p0 p1 ⟨hop, hhdr, hd, ha, ht⟩ hs => ?_) (fun p0 p1 l ⟨hop, hhdr, hd, ha, ht⟩ hs => ?_) <;>
      (subst_vars; delta fields64 fields96; generalize opOf p0 = n at hop ⊢; subst hop; rfl)
  | clzLong | popcLong | ldovt | lrel | relCoreLong | relCluLong | relDieLong | relPkgLong | relSysLong | fenceCoreLong | fenceCluLong
  | fenceDieLong | fencePkgLong | fenceSysLong | acqCoreLong | acqCluLong | acqDieLong | acqPkgLong | acqSysLong =>
    refine decodesBack_encG hw rfl (fun p0 p1 ⟨hop, hhdr, hd, ha, ht⟩ hs => ?_) (fun _ _ _ _ hs => nomatch hs)
    subst_vars; delta fields64; generalize opOf p0 = n at hop ⊢; subst hop; rfl
  | slack h s | slackW h s =>
    have heng := engine_of_check hw
    refine decodesBack_encG hw rfl (fun p0 p1 ⟨hop, hhdr, hd, ha, ht⟩ hs => ?_) (fun p0 p1 l ⟨hop, hhdr, hd, ha, ht⟩ hs => ?_) <;>
      (subst_vars; delta fields64 fields96; generalize opOf p0 = n at hop ⊢; subst hop; exact congrArg some (by rw [heng]; rfl))
  | liLong h d a j =>
    refine decodesBack_encG hw rfl (fun p0 p1 ⟨hop, hhdr, hd, ha, ht⟩ hs => ?_) (fun p0 p1 l ⟨hop, hhdr, hd, ha, ht⟩ hs => ?_)
    · obtain rfl := imm_of_src2 hs
      subst_vars; delta fields64; generalize opOf p0 = n at hop ⊢; subst hop; rfl
    · obtain rfl := lit_of_src2 hs
      subst_vars; delta fields96; generalize opOf p0 = n at hop ⊢; subst hop; rfl
  | movLong h d a m w =>
    cases w with
    | false =>
      refine decodesBack_encG hw rfl (fun p0 p1 ⟨hop, hhdr, hd, ha, ht⟩ hs => ?_) (fun _ _ _ _ hs => nomatch hs)
      obtain rfl : (gFields p1).i.setWidth 4 = m := by rw [(s_eq_imm hs).2]; simp
      subst_vars; delta fields64; generalize opOf p0 = n at hop ⊢; subst hop; rfl
    | true =>
      refine decodesBack_encG hw rfl (fun p0 p1 _ hs => absurd hs (s_ne_lit _ _)) (fun p0 p1 l ⟨hop, hhdr, hd, ha, ht⟩ hs => ?_)
      obtain rfl : l.setWidth 4 = m := by rw [← Src2.lit.inj hs]; simp
      subst_vars; delta fields96; generalize opOf p0 = n at hop ⊢; subst hop; rfl
  | sysr h d k | sysw h d k =>
    refine decodesBack_encG hw rfl (fun p0 p1 ⟨hop, hhdr, hd, ha, ht⟩ hs => ?_) (fun _ _ _ _ hs => absurd hs (by cases k <;> exact nofun))
    obtain rfl := sysNum_eq hs
    subst_vars; delta fields64; generalize opOf p0 = n at hop ⊢; subst hop; rfl
  | settleLong h c =>
    refine decodesBack_encG hw rfl (fun p0 p1 ⟨hop, hhdr, hd, ha, ht⟩ hs => ?_) (fun _ _ _ _ hs => nomatch hs)
    obtain rfl : ((gFields p1).i == 1#14) = c := by rw [(s_eq_imm hs).2]; cases c <;> rfl
    subst_vars; delta fields64; generalize opOf p0 = n at hop ⊢; subst hop; rfl
  | _ => cases hk

theorem decodesBack_of_typed (i : Instr) (hw : i.wf) (hk : layout i = .typed) : DecodesBack i := by
  cases i with
  | ld | ldLn | st | stLn | wstripe | ldrain =>
    refine decodesBack_encG hw rfl (fun p0 p1 ⟨hop, hhdr, hd, ha, ht⟩ hs => ?_) (fun p0 p1 l ⟨hop, hhdr, hd, ha, ht⟩ hs => ?_) <;>
      (subst_vars; delta fields64 fields96; generalize opOf p0 = n at hop ⊢; subst hop; exact congrArg (Option.map _) (gTy_of_code ht))
  | aadd h sc | amin h sc | amax h sc | aor h sc | aand h sc | axchg h sc | acas h sc | aaddN h sc | aminN h sc | amaxN h sc | aorN h sc
  | aandN h sc =>
    refine decodesBack_encG hw rfl (fun p0 p1 ⟨hop, hhdr, hd, ha, ht⟩ hs => ?_) (fun p0 p1 l ⟨hop, hhdr, hd, ha, ht⟩ hs => ?_) <;>
      (subst_vars; delta fields64 fields96; generalize opOf p0 = n at hop ⊢; subst hop; cases sc <;> exact congrArg (Option.map _) (gTy_of_code ht))
  | wdrain h d y t s =>
    refine decodesBack_encG hw rfl (fun p0 p1 ⟨hop, hhdr, hd, ha, ht⟩ hs => ?_) (fun p0 p1 l ⟨hop, hhdr, hd, ha, ht⟩ hs => ?_) <;>
      (have hy : Ty.ofCode (gFields p1).a.toNat = some y := (congrArg _ (congrArg _ ha)).trans (ofCode_code_wide y)
       subst_vars; delta fields64 fields96; generalize opOf p0 = n at hop ⊢; subst hop
       exact (congrArg (Option.bind · _) (gTy_of_code ht)).trans (congrArg (Option.map _) hy))
  | _ => cases hk

theorem decodesBack_of_matrix (i : Instr) (hw : i.wf) (hk : layout i = .matrix) : DecodesBack i := by
  cases i with
  | mld | mldLn | mst | mstLn =>
    refine decodesBack_encSeg hw rfl (fun p0 p1 ⟨hop, hhdr, hd, ha, ht⟩ hs => ?_) (fun p0 p1 p2 ⟨hop, hhdr, hd, ha, ht⟩ hs => ?_) <;>
      (subst_vars; delta fields64 fields96; generalize opOf p0 = n at hop ⊢; subst hop; exact congrArg (Option.map _) (mTy_of_code ht))
  | vabs | vneg | vabsSat | vnegSat | vexp | vlog | vrcp | vrsq | vsin | vcos | vtanh | vredrAdd | vredrMax | vredrMin | vredrAmax | vredcAdd
  | vredcMax | vredcMin | vredcAmax =>
    refine decodesBack_encM64 hw rfl (fun p0 p1 ⟨hop, hhdr, hd, ha, ht⟩ => ?_)
    subst_vars; delta fields64; generalize opOf p0 = n at hop ⊢; subst hop; exact congrArg (Option.map _) (mTy_of_code ht)
  | vadd | vsub | vmul | vfma | vmin | vmax | vand | vor | vxor | vshl | vshr | vaddSat | vsubSat | vmulSat | vfmaSat | vshlSat | vcmpEq
  | vcmpNe | vcmpLt | vcmpLe =>
    refine decodesBack_encV hw rfl (fun p0 p1 p2 ⟨hop, hhdr, hd, ha, ht⟩ hs => ?_)
    subst_vars; delta fields96; generalize opOf p0 = n at hop ⊢; subst hop; exact congrArg (Option.map _) (mTy_of_code ht)
  | vsel =>
    refine decodesBack_encV hw rfl (fun p0 p1 p2 ⟨hop, hhdr, hd, ha, ht⟩ hs => ?_)
    subst_vars; delta fields96; generalize opOf p0 = n at hop ⊢; subst hop; rfl
  | vrotr | vrotc | vbcr | vbcc =>
    refine decodesBack_encAmt hw rfl (fun p0 p1 p2 ⟨hop, hhdr, hd, ha, ht⟩ hs => ?_)
    subst_vars; delta fields96; generalize opOf p0 = n at hop ⊢; subst hop; rfl
  | vcvt h d a t t2 g =>
    refine decodesBack_encM96 hw rfl (fun p0 p1 ⟨hop, hhdr, hd, ha, ht⟩ _ => ?_)
    have hg : BitVec.setWidth 6 (0#14 ++ t2.code ++ (0#7 ++ g)) = g := setWidth_append_append ..
    subst_vars; delta fields96; generalize opOf p0 = n at hop ⊢; subst hop
    exact (congrArg (Option.bind · _) (mTy_of_code ht)).trans
      ((congrArg (Option.map _) (t2Of_append _ t2 _)).trans (congrArg (fun g => some (Instr.vcvt _ _ _ _ _ g)) hg))
  | vpack h d a t t2 | vunpack h d a t t2 =>
    refine decodesBack_encM96 hw rfl (fun p0 p1 ⟨hop, hhdr, hd, ha, ht⟩ _ => ?_)
    subst_vars; delta fields96; generalize opOf p0 = n at hop ⊢; subst hop
    exact (congrArg (Option.bind · _) (mTy_of_code ht)).trans (congrArg (Option.map _) (t2Of_append _ t2 _))
  | _ => cases hk

/-- What has no layout of the main text is a directive, a logit word, or has no encoding. -/
theorem encode_of_other (i : Instr) (hk : layout i = .other) : isDirective i = true ∨ isLogitWord i = true ∨ encode i = none := by
  cases i with
  | wprep | wprepa | wsum | wacc | wnacc | wmap | wjmp | wend | whook => exact .inl rfl
  | lwEnd | lwLdc | lwLdb | lwBias | lwPenrep | lwPenfrq | lwPenprs | lwTemp | lwClamp | lwScale | lwMaskg | lwMaskb | lwTopk | lwTopp | lwMinp
  | lwSoftmax | lwDraw | lwArgmax | lwSetv | lwSetvLo | lwSkip | lwSkipZ | lwSkipP | lwSkipNg => exact .inr (.inl rfl)
  | _ => cases hk <;> exact .inr (.inr rfl)

theorem decodesBack_main (i : Instr) (hw : i.wf) (hnd : isDirective i = false) (hnl : isLogitWord i = false) : DecodesBack i := by
  cases hk : layout i with
  | short => exact decodesBack_of_short i hw hk
  | shared => exact decodesBack_of_shared i hw hk
  | general => exact decodesBack_of_general i hw hk
  | typed => exact decodesBack_of_typed i hw hk
  | matrix => exact decodesBack_of_matrix i hw hk
  | other =>
    rcases encode_of_other i hk with hd | hl | hn
    · exact absurd hd (by simp [hnd])
    · exact absurd hl (by simp [hnl])
    · exact fun ps x y he => absurd he (by simp [hn])

/-! ### Directives and logit words -/

theorem decodeDirective_encode (i : Instr) (ps : List (BitVec 32)) (x : BitVec 32) (hw : i.wf) (he : encode i = some ps)
    (hd : isDirective i = true) : decodeDirective (ps.getD 0 0) (ps.getD 1 x) = .ok i := by
  cases i with
  | wprep | wprepa | wsum | wacc | wnacc | wmap | wjmp | wend | whook =>
    obtain rfl := Option.some.inj he
    simp only [List.getD_cons_zero, List.getD_cons_succ, decodeDirective]
    simp (disch := decide) only [BitVec.extractLsb'_append_eq_of_le, BitVec.extractLsb'_append_eq_of_add_le]
    simp only [Nat.reduceSub, Nat.reduceAdd, BitVec.extractLsb'_eq_self, boolBit_beq_one]
    exact accept_self he hw
  | _ => cases hd

theorem decodeLogit_of_fields {i : Instr} {x : BitVec 16} {b a : BitVec 4} {m : BitVec 3} {op : BitVec 5} (hw : i.wf)
    (he : encode i = some [x ++ b ++ a ++ m ++ op])
    (hf : ∀ p, p.extractLsb' 0 5 = op → p.extractLsb' 5 3 = m → p.extractLsb' 8 4 = a → p.extractLsb' 12 4 = b → p.extractLsb' 16 16 = x →
      fieldsLogit p = some i) : decodeLogit (x ++ b ++ a ++ m ++ op) = .ok i := by
  have hi : fieldsLogit (x ++ b ++ a ++ m ++ op) = some i := by
    apply hf
    all_goals
      simp (disch := decide) only [BitVec.extractLsb'_append_eq_of_le, BitVec.extractLsb'_append_eq_of_add_le]
      simp only [Nat.reduceSub, BitVec.extractLsb'_eq_self]
  rw [decodeLogit, hi]
  exact accept_self he hw

theorem decodeLogit_encode (i : Instr) (ps : List (BitVec 32)) (hw : i.wf) (he : encode i = some ps) (hl : isLogitWord i = true) :
    decodeLogit (ps.getD 0 0) = .ok i := by
  cases i with
  | lwEnd | lwLdc | lwLdb | lwBias | lwPenrep | lwPenfrq | lwPenprs | lwTemp | lwClamp | lwScale | lwMaskg | lwMaskb | lwTopk | lwTopp | lwMinp
  | lwSoftmax | lwDraw | lwArgmax | lwSetv | lwSetvLo | lwSkip | lwSkipZ | lwSkipP | lwSkipNg =>
    obtain rfl := Option.some.inj he
    refine decodeLogit_of_fields hw he (fun p hop hm ha hb hx => ?_)
    subst_vars
    rw [fieldsLogit, hop, hm]
    rfl
  | _ => cases hl

/-! ### What is decoded encodes to what was read -/

theorem parcelCount_cases (p : BitVec 32) :
    parcelCount p = none ∨ parcelCount p = some 1 ∨ parcelCount p = some 2 ∨ parcelCount p = some 3 := by
  unfold parcelCount
  split <;> simp

theorem encode_of_decodeMain {i : Instr} {a b c : BitVec 32} (h : decodeMain a b c = .ok i) :
    i.wf ∧ ∃ n, parcelCount a = some n ∧ encode i = some ([a, b, c].take n) := by
  unfold decodeMain at h
  split at h
  · cases h
  · rcases parcelCount_cases a with hc | hc | hc | hc <;> simp only [hc] at h
    · cases h
    all_goals
      split at h
      · obtain ⟨rfl, he, hw⟩ := accept_eq_ok.1 h
        exact ⟨hw, _, hc, he⟩
      · cases h

theorem encode_of_decodeDirective {i : Instr} {a b : BitVec 32} (h : decodeDirective a b = .ok i) :
    i.wf ∧ (encode i = some [a] ∨ encode i = some [a, b]) := by
  unfold decodeDirective at h
  split at h
  · cases h
  · split at h
    case h_10 => cases h
    case h_6 => obtain ⟨rfl, he, hw⟩ := accept_eq_ok.1 h; exact ⟨hw, .inr he⟩
    all_goals obtain ⟨rfl, he, hw⟩ := accept_eq_ok.1 h; exact ⟨hw, .inl he⟩

theorem encode_of_decodeLogit {i : Instr} {a : BitVec 32} (h : decodeLogit a = .ok i) : i.wf ∧ encode i = some [a] := by
  unfold decodeLogit at h
  split at h
  · obtain ⟨rfl, he, hw⟩ := accept_eq_ok.1 h; exact ⟨hw, he⟩
  · cases h

/-- Settles O56: the main text layout by layout, the directives and the logit words field by field; the converse is what `accept` checks. -/
theorem decodeAndEncodeAgree : Obligations.DecodeAndEncodeAgree := by
  unfold Obligations.DecodeAndEncodeAgree
  refine ⟨fun i ps x y hw he => ⟨fun hnd hnl => decodesBack_main i hw hnd hnl ps x y he, decodeDirective_encode i ps x hw he,
    decodeLogit_encode i ps hw he⟩, fun i a b c => ⟨encode_of_decodeMain, encode_of_decodeDirective, encode_of_decodeLogit⟩⟩

/-- Settles O55: the decoders evaluate to the instruction on every word. -/
theorem exampleWordsDecode : Obligations.ExampleWordsDecode := by
  unfold Obligations.ExampleWordsDecode
  refine ⟨?mainText, ?directives, ?logitWords⟩
  case mainText => decide +kernel
  case directives => decide +kernel
  case logitWords => decide +kernel

end Sys2Proof.Laws.RoundTrip
end

section
/-!
PROOFS. Squashed slots (R55): an instruction whose guard reads zero finishes at once in the state with its pops taken; only an encoding that
is illegal as it stands raises before its guard is looked at (R70).
-/
namespace Sys2Proof.Laws.Squash

open Sys2Proof.Machine

/-! ### What finishing does to the tokens and the walk -/

/-- Pushing to the engines `l`, all different and none of them `e`, appends the token to each of their queues and to no other. -/
theorem queueAt_pushes (e : Eng) (t : Token) (l : List Eng) (hn : l.Nodup) (he : e ∉ l) (c : Core) (k : Nat) :
    queueAt (l.foldl (fun c q => setQueue c (queueCode e q) { queueAt c (queueCode e q) with toks := (queueAt c (queueCode e q)).toks ++ [t] }) c) k =
      if k ∈ l.map (queueCode e) then { queueAt c k with toks := (queueAt c k).toks ++ [t] } else queueAt c k := by
  induction l generalizing c with
  | nil => rfl
  | cons q l ih =>
    obtain ⟨hq, hn⟩ := List.nodup_cons.1 hn
    obtain ⟨heq, he⟩ := not_or.1 (mt List.mem_cons.2 he)
    rw [List.foldl_cons, ih hn he, queueAt_setQueue]
    by_cases hk : k = queueCode e q
    · have hl : k ∉ l.map (queueCode e) := by
        rintro hm
        obtain ⟨r, hr, hrk⟩ := List.mem_map.1 hm
        exact hq (queueCode_inj e r q (hrk.trans hk) (fun h => he (h ▸ hr)) (Ne.symm heq) ▸ hr)
      rw [if_neg hl, if_pos hk, if_pos (by simp [hk]), hk]
    · simp [hk]

theorem finishNow_pushed (p : State) (h : Hdr) (pc : Nat) : Pushed p (finishNow p h pc) h := by
  intro hn k
  have htok : (finishNow p h pc).core.tokens = (pushNow p.core h.eng h.push (ownToken p h.eng)).tokens := by
    rw [finishNow, issued_core]
    exact setEng_tokens ..
  have hq : queueAt (finishNow p h pc).core k = queueAt (pushNow p.core h.eng h.push (ownToken p h.eng)) k := by
    rw [queueAt, htok, queueAt]
  rw [hq]
  exact queueAt_pushes _ _ _ (maskEngs_nodup _) hn _ _

theorem eng_pushNow (c : Core) (e : Eng) (m : BitVec 4) (t : Token) (f : Eng) : (pushNow c e m t).eng f = c.eng f := by
  rw [pushNow_eq]; cases f <;> rfl

theorem finishNow_walked (p : State) (h : Hdr) (pc : Nat) : WalkedTo p (finishNow p h pc) h p.core.ck pc := by
  have hw := issued_walked (modCore p (fun c => pushNow c h.eng h.push (ownToken p h.eng))) h pc
  have hck : (pushNow p.core h.eng h.push (ownToken p h.eng)).ck = p.core.ck := by rw [pushNow_eq]
  obtain ⟨hhere, hgap, hplace, hcounters, hothers⟩ := hw
  simp only [modCore_core, eng_pushNow, hck] at hgap hplace hcounters hothers
  exact ⟨hhere, hgap, hplace, hcounters, hothers⟩

theorem finishNow_switched (p : State) (h : Hdr) (pc : Nat) :
    (finishNow p h pc).core.switched = (p.core.switched || (h.sw && p.core.holder == h.eng.num)) := by
  rw [finishNow, issued_core, modCore_core, pushNow_eq]

/-! ### Squashed at issue -/

/-- What the instructions of the four engines do where the guard reads zero, whatever their operands and bodies. -/
theorem issue_of_squashed {s p : State} {h : Hdr} {len : Nat} {srcs : List Loc} {body : State → Act} (hready : engineReady s.core h.eng = true)
    (howed : (s.core.eng h.eng).owed = []) (htok : ((s.core.eng h.eng).noPop || popsReady s.core s.clk h.eng h.pop) = true)
    (hroom : placesFree s.core h.eng h.push = true) (hpop : popped s h = (p, none)) (hwait : mustWait p.core h.eng [.g h.guard.toNat] = false)
    (hg : h.guard ≠ 0) (hzero : readG p h.eng h.guard.toNat = 0) : issue h len srcs body s = finishNow p h (nextPc s h len) := by
  have hsq : squashed p h = true := by simp [squashed, show h.guard ≠ 0#6 from hg, hzero]
  unfold issue
  simp only [hready, howed, htok, hroom, hpop, hwait, hsq, nextPc]
  rfl

/-- A lease instruction to which no fault is owed issues as any other. -/
theorem issueLease_clear {h : Hdr} {len : Nat} {srcs : List Loc} {body : State → Act} {s : State} (hl : s.core.leaseOwed = []) :
    issueLease h len srcs body s = issueOut h len srcs body s := by
  rw [issueLease, hl]

/-- Every guarded instruction goes through the shared issue, but for a system-register number that is illegal as it stands. -/
theorem guardedRows_issueOut (h : Hdr) (d a : Reg) (m n : MOp) (t u : Ty) (o : Src2) (x : VSrc) (g : SegSrc) (y : AmtSrc) (sc : Scope)
    (k : SysNum) (i : Imm) (sh : BitVec 6) (mv : BitVec 4) (b : Bool) (s : State) (hk : numberIllegal k = false)
    (hl : s.core.leaseOwed = []) :
    ∀ r ∈ guardedRows h d a m n t u o x g y sc k i sh mv b, ∃ srcs body, exec r.1 s = issueOut h r.2 srcs body s := by
  have hsysr : ∃ srcs body, exec (.sysr h d k) s = issueOut h 2 srcs body s := ⟨_, _, if_neg (by simp [hk])⟩
  have hsysw : ∃ srcs body, exec (.sysw h d k) s = issueOut h 2 srcs body s := ⟨_, _, if_neg (by simp [hk])⟩
  have hvcvt : ∃ srcs body, exec (.vcvt h m n t u d) s = issueOut h 3 srcs body s := by
    by_cases hu : u = .mq4
    · exact ⟨_, _, if_pos hu⟩
    · exact ⟨_, _, if_neg hu⟩
  unfold guardedRows
  simp only [List.forall_mem_cons, List.not_mem_nil, false_implies, implies_true, hsysr, hsysw, hvcvt, true_and, and_true]
  and_intros
  -- The meaning of each row unfolds to the shared issue; those of the lease array look for an owed fault before it.
  any_goals exact ⟨_, _, rfl⟩
  all_goals exact ⟨_, _, issueLease_clear hl⟩

/-- R55 for every guarded instruction whose encoding is legal: a slot that is squashed only moves tokens and spends its gap. -/
theorem squashed_of_legalNumber (h : Hdr) (d a : Reg) (m n : MOp) (t u : Ty) (o : Src2) (x : VSrc) (g : SegSrc) (y : AmtSrc) (sc : Scope)
    (k : SysNum) (i : Imm) (sh : BitVec 6) (mv : BitVec 4) (b : Bool) (s p : State) (hk : numberIllegal k = false)
    (hready : engineReady s.core h.eng = true) (howed : (s.core.eng h.eng).owed = []) (hl : s.core.leaseOwed = [])
    (htok : ((s.core.eng h.eng).noPop || popsReady s.core s.clk h.eng h.pop) = true) (hroom : placesFree s.core h.eng h.push = true)
    (hpop : popped s h = (p, none)) (hwait : mustWait p.core h.eng [.g h.guard.toNat] = false) (hg : h.guard ≠ 0)
    (hzero : readG p h.eng h.guard.toNat = 0) :
    ∀ r ∈ guardedRows h d a m n t u o x g y sc k i sh mv b,
      Completes (exec r.1 s) (fun q => WalkedTo p q h p.core.ck (nextPc s h r.2) ∧ Pushed p q h ∧ OnlyWalked p q ∧
        q.core.switched = (p.core.switched || (h.sw && p.core.holder == h.eng.num))) := by
  intro r hr
  obtain ⟨srcs, body, he⟩ := guardedRows_issueOut h d a m n t u o x g y sc k i sh mv b s hk hl r hr
  refine ⟨finishNow p h (nextPc s h r.2), ?_, finishNow_walked .., finishNow_pushed _ _ _, finishNow_onlyWalked .., finishNow_switched ..⟩
  rw [he, issueOut, issue_of_squashed hready howed htok hroom hpop hwait hg hzero]

/-! ### Illegal before the guard -/

/-- Core 0 runs at user level without a handler, every register zero. -/
def running : State := { State.reset with core := { running := true } }

/-- A header of the control engine whose guard is g1. -/
def guarded : Hdr := { eng := .c, gap := 0, sw := false, pop := 0, push := 0, guard := 1, rm := 0 }

/-- Nothing that only walks raises a fault. -/
theorem raised_of_onlyWalked {p q : State} (h : OnlyWalked p q) : q.core.raised = p.core.raised := by
  unfold OnlyWalked at h
  have hr := congrArg (fun s : State => s.core.raised) h
  exact hr

/-- SYSR of number 6, which no table assigns, raises ILLEGAL_INSTRUCTION although its guard reads zero (R70, R412). -/
theorem exec_sysr_unassigned : ∃ q, exec (.sysr guarded 0 (.num 6)) running = .next q ∧ q.core.raised = 1 := ⟨_, rfl, by decide⟩

/-- Refutes O54: the statement ranges over every system-register number, and SYSR of one that no table assigns (6) is illegal as it stands,
so it traps before its guard is looked at (R70) instead of being squashed. `squashed_of_legalNumber` is the statement without those numbers. -/
theorem not_squashedSlotsOnlyMoveTokens : ¬ Obligations.SquashedSlotsOnlyMoveTokens := by
  unfold Obligations.SquashedSlotsOnlyMoveTokens
  intro hall
  have hrow := hall guarded 0 0 ⟨0, .tile, 0⟩ ⟨0, .tile, 0⟩ .s8 .s8 (.reg 0) (.lit 0) .one (.reg 0) .core (.num 6) (.imm 0) 0 0 false
    running running (by decide) rfl rfl (by decide) (by decide) rfl (by decide) (by decide) rfl (.sysr guarded 0 (.num 6), 2) (by simp [guardedRows])
  obtain ⟨q, hq, -, -, honly, -⟩ := hrow
  obtain ⟨r, hr, hraised⟩ := exec_sysr_unassigned
  obtain rfl : r = q := Host.Outcome.next.inj (hr.symm.trans hq)
  exact absurd (hraised.symm.trans (raised_of_onlyWalked honly)) (by decide)

end Sys2Proof.Laws.Squash
end

section
/-!
PROOFS. Memory in canonical form (R101, R102; log entry 11). Memory changes only where a byte is stored (`pokeByte`), where an
instruction is placed, and where a reset clears what is not DRAM; each of these keeps the form. Here, for each operation of the model
in the order in which it is defined: that it leaves memory as it is (`_mem`), or that it keeps the form (`_wf`). This part: cores,
traps, translation, logs, caches, reads and stores.
-/
namespace Sys2Proof.Laws.Canonical

open Sys2Proof.Machine

/-! ### Folds and pairs -/

theorem foldl_mem {α : Type} {f : State → α → State} (h : ∀ s x, (f s x).mem = s.mem) (l : List α) (s : State) :
    (l.foldl f s).mem = s.mem := foldl_same (g := State.mem) h l s

@[simp] theorem modCoreAts_mem {α : Type} (k : α → Nat) (f : α → Core → Core) (l : List α) (s : State) :
    (l.foldl (fun s x => modCoreAt s (k x) (f x)) s).mem = s.mem := foldl_mem (fun _ _ => modCoreAt_mem ..) _ _

theorem foldl_wf {α : Type} {f : State → α → State} (hf : ∀ s x, Memory.wf s.mem → Memory.wf (f s x).mem) (l : List α) {s : State}
    (h : Memory.wf s.mem) : Memory.wf (l.foldl f s).mem := foldl_keeps (P := fun s : State => Memory.wf s.mem) hf l h

theorem foldl_fst_wf {α β : Type} {f : State × β → α → State × β} (hf : ∀ x a, Memory.wf x.1.mem → Memory.wf (f x a).1.mem) (l : List α)
    {x : State × β} (h : Memory.wf x.1.mem) : Memory.wf (l.foldl f x).1.mem := foldl_keeps (P := fun x : State × β => Memory.wf x.1.mem) hf l h

/-- What is kept in the first component holds of the state that a match takes from it. -/
theorem wf_of_eq_mk {α : Type} {x : State × α} {t : State} {a : α} (e : x = (t, a)) (h : Memory.wf x.1.mem) : Memory.wf t.mem := by
  rw [e] at h; exact h

theorem foldl_fst_mem {α β : Type} {f : State × β → α → State × β} (hf : ∀ x a, (f x a).1.mem = x.1.mem) (l : List α) (x : State × β) :
    (l.foldl f x).1.mem = x.1.mem := foldl_same (g := fun x : State × β => x.1.mem) hf l x

/-! ### Every state that a body or an outcome holds is canonical -/

def ActWf : Act → Prop
  | .done t | .soon t | .later t | .dropped t | .jump t _ | .whole t | .trapAt t _ | .trapAfter t _ => Memory.wf t.mem
  | .wait eff => ∀ s : State, Memory.wf s.mem → Memory.wf (eff s).mem
  | .trap _ | .poison _ => True

def OutWf : Host.Outcome State Fault Refusal → Prop
  | .next t => Memory.wf t.mem
  | .fault _ | .refused _ => True

@[simp] theorem outWf_next (t : State) : OutWf (.next t) ↔ Memory.wf t.mem := Iff.rfl

@[simp] theorem postEvent_mem (s : State) (d ctx : Nat) (words : List Word) (task : Option Nat) :
    (postEvent s d ctx words task).mem = s.mem := rfl

@[simp] theorem postMgmt_mem (s : State) (d kind unit : Nat) (payload : List Word) : (postMgmt s d kind unit payload).mem = s.mem := rfl
@[simp] theorem countEvents_mem (s : State) (ns : List Nat) : (countEvents s ns).mem = s.mem := rfl

@[simp] theorem postCrossedOf_mem (s : State) (k : Nat) (c : Core) : (postCrossedOf s k c).mem = s.mem :=
  foldl_mem (fun _ _ => postEvent_mem ..) _ _

@[simp] theorem postCrossed_mem (s : State) : (postCrossed s).mem = s.mem := by
  unfold postCrossed
  exact postCrossedOf_mem ..

@[simp] theorem postCrossedOut_mem (s : State) : (postCrossedOut s).mem = s.mem := foldl_mem (fun _ _ => postCrossedOf_mem ..) _ _

@[simp] theorem writeGAt_mem (s : State) (e : Eng) (w seq r : Nat) (v : Word) (mark : Bool) :
    (writeGAt s e w seq r v mark).mem = s.mem := by
  unfold writeGAt; repeat' split
  all_goals simp

@[simp] theorem writeG_mem (s : State) (e : Eng) (r : Nat) (v : Word) (mark : Bool) : (writeG s e r v mark).mem = s.mem := by simp [writeG]
@[simp] theorem writeCell_mem (s : State) (e : Eng) (seq k : Nat) (v : Cell) (mark : Bool) : (writeCell s e seq k v mark).mem = s.mem := rfl
@[simp] theorem writeSys_mem (s : State) (n : Nat) (v : Word) : (writeSys s n v).mem = s.mem := rfl
@[simp] theorem switchAway_mem (s : State) (e : Eng) (sw : Bool) : (switchAway s e sw).mem = s.mem := rfl
@[simp] theorem issued_mem (s : State) (h : Hdr) (next : Nat) : (issued s h next).mem = s.mem := rfl

@[simp] theorem endFaulted_mem (s : State) (f : FaultRec) (pc : Nat) : (endFaulted s f pc).mem = s.mem := by
  unfold endFaulted; split <;> simp

@[simp] theorem landValue_mem (s : State) (l : Landing) (w : Late) : (landValue s l w).mem = s.mem := by unfold landValue; split <;> simp

@[simp] theorem landWrites_mem (s : State) (l : Landing) : (landWrites s l).mem = s.mem := by
  unfold landWrites; split
  · exact foldl_mem (fun s w => landValue_mem s l w) _ _
  all_goals rfl

@[simp] theorem landScoreboarded_mem (s : State) : (landScoreboarded s).mem = s.mem := foldl_mem landWrites_mem _ _

@[simp] theorem enterHandler_mem (s : State) (e : Eng) (f : FaultRec) (pc : Nat) : (enterHandler s e f pc).mem = s.mem := by
  simp [enterHandler]

@[simp] theorem withdrawLeave_mem (s : State) : (withdrawLeave s).mem = s.mem := rfl

@[simp] theorem takeTrap_mem (s : State) (e : Eng) (f : FaultRec) (pc : Nat) : (takeTrap s e f pc).mem = s.mem := by
  unfold takeTrap; dsimp only; repeat' split
  all_goals simp

@[simp] theorem returnFromTrap_mem (s : State) : (returnFromTrap s).mem = s.mem := rfl

@[simp] theorem consumePoison_mem (s : State) (e : Eng) (pc : Nat) (tval : Word) : (consumePoison s e pc tval).mem = s.mem := by
  unfold consumePoison; split <;> simp

@[simp] theorem nothing_mem (s : State) : (nothing s).mem = s.mem := rfl
@[simp] theorem popped_mem (s : State) (h : Hdr) : (popped s h).1.mem = s.mem := by unfold popped; split <;> simp
@[simp] theorem finishNow_mem (s : State) (h : Hdr) (next : Nat) : (finishNow s h next).mem = s.mem := rfl

@[simp] theorem finishSoon_mem (s : State) (h : Hdr) (next : Nat) : (finishSoon s h next).mem = s.mem := by
  unfold finishSoon; split <;> simp

/-- What finishing an instruction leaves is one of the states that the end of its body holds. -/
theorem finish_wf {s : State} (h : Hdr) (next : Nat) {a : Act} (hs : Memory.wf s.mem) (ha : ActWf a) :
    Memory.wf (finish s h next a).mem := by
  cases a with
  | wait eff => exact ha s hs
  | trap f => simpa [finish] using hs
  | poison v => simpa [finish] using hs
  | _ => simpa [finish, ActWf] using ha

theorem issue_wf {h : Hdr} {len : Nat} {srcs : List Loc} {body : State → Act} {s : State} (hb : ∀ p : State, Memory.wf p.mem → ActWf (body p))
    (hs : Memory.wf s.mem) : Memory.wf (issue h len srcs body s).mem := by
  have hp : Memory.wf (popped s h).1.mem := by simpa using hs
  unfold issue
  dsimp only
  repeat' split
  case h_2.isFalse.isFalse.isFalse => exact finish_wf h _ hs (hb _ hp)
  all_goals simpa using hs

@[simp] theorem pokeKeys_mem (s : State) (a : Nat) (ks : List Key) : (pokeKeys s a ks).mem = s.mem := rfl

theorem askSlice_wf {s : State} (who pa policy : Nat) (write : Bool) (h : Memory.wf s.mem) :
    Memory.wf (askSlice s who pa policy write).mem := by
  unfold askSlice; grind [poisonGranule_wf, modSlice_mem]

@[simp] theorem touchTlb_mem (s : State) (t : TlbEntry) : (touchTlb s t).mem = s.mem := rfl
@[simp] theorem askWalk_mem (v : Nat) (want : Want) (s : State) : (askWalk v want s).mem = s.mem := rfl

@[simp] theorem failWalk_mem (granule cause : Nat) (s : State) (a : WalkAsk) : (failWalk granule cause s a).mem = s.mem := by
  unfold failWalk; split <;> simp

@[simp] theorem walkResult_mem (granule : Nat) (r : Except Nat TlbEntry) (s : State) (a : WalkAsk) :
    (walkResult granule r s a).mem = s.mem := by
  unfold walkResult; repeat' split
  all_goals simp

theorem readWords_wf {s : State} (d : Nat) (root : Word) (v : Nat) (asks : List WalkAsk) (h : Memory.wf s.mem) :
    Memory.wf (readWords s d root v asks).mem :=
  foldl_wf (fun s x h => by grind [askSlice_wf]) _ h

@[simp] theorem endWalk_mem (s : State) (d : Nat) (root : Word) (v : Nat) (more : List WalkAsk) :
    (endWalk s d root v more).1.mem = s.mem := by
  unfold endWalk
  exact foldl_mem (walkResult_mem _ _) _ _

@[simp] theorem received_mem (s : State) (own : Option (Nat × Nat)) (p : WalkFail) : (received s own p).mem = s.mem := by
  unfold received; split <;> simp

theorem translateNow_wf {s : State} (root : Word) (own : Option (Nat × Nat)) (v : Nat) (want : Want) (priv : Bool) (h : Memory.wf s.mem) :
    Memory.wf (translateNow s root own v want priv).1.mem := by
  unfold translateNow; grind [readWords_wf, modDie_mem, touchTlb_mem, received_mem, endWalk_mem]

@[simp] theorem publish_mem (s : State) (sc : Nat) : (publish s sc).mem = s.mem := rfl
@[simp] theorem modAll_mem (s : State) (f : Core → Core) : (modAll s f).mem = s.mem := by simp [modAll]
@[simp] theorem endPublished_mem (s : State) : (endPublished s).mem = s.mem := foldl_mem (fun _ _ => modAll_mem ..) _ _
@[simp] theorem endProvisional_mem (s : State) : (endProvisional s).mem = s.mem := by simp [endProvisional]

@[simp] theorem spill_mem (s : State) : (spill s).mem = s.mem := by
  unfold spill; repeat' split
  all_goals simp

theorem l1Put_wf {s : State} (x : L1Line) (h : Memory.wf s.mem) : Memory.wf (l1Put s x).mem := by
  unfold l1Put; dsimp only
  generalize ite (16 ≤ _) _ _ = victim
  have hb : ∀ t : State, t.mem = s.mem → Memory.wf t.mem := fun t ht => ht ▸ h
  cases victim with
  | some v => exact writeBack_wf _ (writeBacks_wf _ (hb _ (modCoreAt_mem ..)))
  | none => exact writeBacks_wf _ (hb _ (modCoreAt_mem ..))

theorem l1Drop_wf {s : State} (line : Nat) (cls : Coh) (h : Memory.wf s.mem) : Memory.wf (l1Drop s line cls).mem := by
  unfold l1Drop; dsimp only; split
  · exact h
  · exact writeBacks_wf _ (by simpa using h)

theorem flushP_wf {s : State} (p : L1Line → Bool) (h : Memory.wf s.mem) : Memory.wf (flushP s p).mem := by
  unfold flushP; dsimp only
  rw [foldl_mem fun s k => modCoreAt_mem ..]
  exact foldl_wf (fun s k hs => writeBacks_wf _ hs) _ h

theorem oLoad.oFill_wf {s : State} (line : Nat) (h : Memory.wf s.mem) : Memory.wf (oLoad.oFill s line).1.mem := by
  unfold oLoad.oFill; grind [l1Put_wf, modCore_mem]

theorem oLoad_wf {s : State} (u policy line : Nat) (h : Memory.wf s.mem) : Memory.wf (oLoad s u policy line).1.mem := by
  have hfill := oLoad.oFill_wf line (askSlice_wf (unitOf s u) (128 * line) policy false h)
  unfold oLoad; split
  · split
    · simpa using l1Put_wf _ h
    · exact hfill
  · exact hfill

theorem oStore_wf {s : State} (line : Nat) (ws : List (Nat × Byte × Byte)) (h : Memory.wf s.mem) : Memory.wf (oStore s line ws).mem := by
  unfold oStore; grind [l1Drop_wf, settle_wf, modDie_mem, modCore_mem]

theorem pLine_wf {s : State} (u rank line : Nat) (h : Memory.wf s.mem) : Memory.wf (pLine s u rank line).1.mem := by
  unfold pLine; grind [askSlice_wf]

theorem lLine.lFill_wf {s : State} (line : Nat) (h : Memory.wf s.mem) : Memory.wf (lLine.lFill s line).mem := l1Put_wf _ h

theorem lLine_wf {s : State} (u rank line : Nat) (h : Memory.wf s.mem) : Memory.wf (lLine s u rank line).mem := by
  have hfill := lLine.lFill_wf line (askSlice_wf (unitOf s u) (128 * line) rank false h)
  unfold lLine; split
  · split
    · exact l1Put_wf _ h
    · exact hfill
  · exact hfill

@[simp] theorem countPort_mem (s : State) (die k a b c : Nat) : (countPort s die k a b c).mem = s.mem := rfl
@[simp] theorem countFlits_mem (s : State) (dst n : Nat) : (countFlits s dst n).mem = s.mem := by unfold countFlits; split <;> simp

theorem readPiece_wf {s : State} (u : Nat) (t : TlbEntry) (policy pa n : Nat) (h : Memory.wf s.mem) :
    Memory.wf (readPiece s u t policy pa n).1.mem := by
  unfold readPiece; grind [pLine_wf, l1Put_wf, lLine_wf, oLoad_wf, landFlying_mem, sendFlits_mem, modCore_mem]

theorem readMarked_wf {s : State} (u : Nat) (t : TlbEntry) (policy pa n : Nat) (h : Memory.wf s.mem) :
    Memory.wf (readMarked s u t policy pa n).1.mem :=
  foldl_fst_wf (fun x a h => by grind [readPiece_wf]) _ h

theorem readMem_wf {s : State} (u : Nat) (t : TlbEntry) (policy pa n : Nat) (h : Memory.wf s.mem) :
    Memory.wf (readMem s u t policy pa n).1.mem := by
  unfold readMem; grind [readMarked_wf]

theorem storeMem_wf {s q : State} (u : Nat) (t : TlbEntry) (policy : Nat) (ws : List (Nat × Byte × Byte)) (mark : Bool)
    (e : storeMem s u t policy ws mark = some q) (h : Memory.wf s.mem) : Memory.wf q.mem := by
  unfold storeMem at e
  split at e
  · cases e; exact h
  split at e
  · cases e; simpa using h
  split at e
  · cases e; exact foldl_wf (fun s g hs => l1Put_wf _ (pLine_wf _ _ _ hs)) _ h
  · split at e
    · cases e; exact foldl_wf (fun s g hs => l1Drop_wf _ _ hs) _ h
    · cases e
  · cases e
    have hw := fun l : List (Nat × List (Nat × Byte × Byte)) => foldl_wf
      (f := fun s g => oStore (askSlice s (unitOf s u) (128 * g.1) 0 true) g.1 g.2) (fun s g hs => oStore_wf _ _ (askSlice_wf _ _ _ _ hs)) l h
    split
    · simpa using hw _
    · exact hw _

@[simp] theorem replayFrom_mem (s : State) (w upto : Nat) : (replayFrom s w upto).mem = s.mem := rfl
@[simp] theorem acquireElement_mem (s : State) (r : Release) : (acquireElement s r).mem = s.mem := by unfold acquireElement; split <;> simp
@[simp] theorem postRefused_mem (s : State) (d ctx reason tag : Nat) : (postRefused s d ctx reason tag).mem = s.mem := rfl

@[simp] theorem ringDoorbell_mem (s : State) (d n tail : Nat) : (ringDoorbell s d n tail).mem = s.mem := by
  unfold ringDoorbell; dsimp only; repeat' split
  all_goals simp

@[simp] theorem commandDone_mem (s : State) (d status : Nat) : (commandDone s d status).mem = s.mem := rfl

@[simp] theorem writeGo_mem (s : State) (d : Nat) (v : Word) : (writeGo s d v).mem = s.mem := by
  unfold writeGo; dsimp only; repeat' split
  all_goals simp

@[simp] theorem mgmtWrite_mem (s : State) (d off : Nat) (v : Word) : (mgmtWrite s d off v).mem = s.mem := by
  simp [mgmtWrite, apply_ite State.mem]

end Sys2Proof.Laws.Canonical
end

section
/-!
PROOFS. Memory in canonical form: near addresses, the scalar and control instructions, loads and stores, atomics, orderings.
-/
namespace Sys2Proof.Laws.Canonical

open Sys2Proof.Machine

theorem touchSpilled_wf {s : State} (pas : List Nat) (h : Memory.wf s.mem) : Memory.wf (touchSpilled s pas).mem := by
  unfold touchSpilled; split
  · exact h
  · exact foldl_wf (fun s l hs => askSlice_wf _ _ _ _ hs) _ h

theorem touchNear_wf {s : State} (r : Nat) (as : List Nat) (h : Memory.wf s.mem) : Memory.wf (touchNear s r as).mem := touchSpilled_wf _ h

theorem spillWrite_wf {s : State} (ws : List (Nat × Byte × Bool)) (h : Memory.wf s.mem) : Memory.wf (spillWrite s ws).mem := by
  unfold spillWrite; grind [overwrite_wf, touchSpilled_wf, poisonBytes_mem]

theorem nearWrite_wf {s : State} (r src seq : Nat) (readers : List Nat) (a : Nat) (b : Byte) (mark : Bool) (h : Memory.wf s.mem) :
    Memory.wf (nearWrite s r src seq readers a b mark).mem := by
  unfold nearWrite; split
  · exact h
  · split
    · exact spillWrite_wf _ h
    · exact h
  all_goals exact h

@[simp] theorem keepNear_mem (s : State) (n a : Nat) : (keepNear s n a).mem = s.mem := by
  unfold keepNear; repeat' split
  all_goals simp

theorem nearPut_wf {s : State} (o : Option Nat) (src id : Nat) (readers : List Nat) (a : Nat) (b : Byte) (mark : Bool)
    (h : Memory.wf s.mem) : Memory.wf (nearPut s o src id readers a b mark).mem := by
  unfold nearPut; split
  · exact h
  split
  · exact nearWrite_wf _ _ _ _ _ _ _ (by simpa using h)
  split
  · exact h
  · exact nearWrite_wf _ _ _ _ _ _ _ h

theorem nearStore_wf {s : State} (n : Nat) (ws : List (Nat × Byte × Bool)) (h : Memory.wf s.mem) : Memory.wf (nearStore s n ws).mem := by
  unfold nearStore; dsimp only
  refine spillWrite_wf _ (foldl_wf (fun s w hs => ?_) ws h)
  split <;> simpa using hs

@[simp] theorem putG_mem (s : State) (e : Eng) (r : Nat) (v : Word) : (putG s e r v).mem = s.mem := by simp [putG]
@[simp] theorem passS_mem (s : State) (h : SHdr) (next : Nat) (taken : Bool) : (passS s h next taken).mem = s.mem := rfl
@[simp] theorem skipS_mem (s : State) (next : Nat) : (skipS s next).mem = s.mem := rfl

@[simp] theorem passPrivate_mem (s : State) (fall : Nat) : (passPrivate s fall).mem = s.mem := by
  unfold passPrivate; dsimp only; repeat' split
  all_goals simp

@[simp] theorem loopStep_mem (s : State) (h : SHdr) (x : Engine) (n dist : Nat) (back : Bool) : (loopStep s h x n dist back).mem = s.mem := rfl
@[simp] theorem meetDone_mem (s : State) (len : Nat) (h : SHdr) (f : Engine → Engine) : (meetDone s len h f).mem = s.mem := rfl

@[simp] theorem meet_mem (s : State) (h : SHdr) (len : Nat) (mask : BitVec 8) : (meet s h len mask).mem = s.mem := by
  unfold meet; dsimp only; split <;> simp

@[simp] theorem discardLater_mem (s : State) (b : Nat) : (discardLater s b).mem = s.mem := rfl
@[simp] theorem clearTags_mem (s : State) : (clearTags s).mem = s.mem := rfl
@[simp] theorem syswWrite_mem (s : State) (n : Nat) (v : Word) : (syswWrite s n v).mem = s.mem := by unfold syswWrite; split <;> simp
@[simp] theorem recutFrame_mem (s : State) : (recutFrame s).mem = s.mem := rfl

theorem loadBytes_wf {s : State} (e : TlbEntry) (pa w : Nat) (h : Memory.wf s.mem) : Memory.wf (loadBytes s e pa w).1.mem := by
  unfold loadBytes; split
  · exact h
  · exact readMem_wf _ _ _ _ _ h

theorem storeBytes_wf {s q : State} {t : TlbEntry} {pa : Nat} {bs : List Byte} {mark : Bool} (e : storeBytes s t pa bs mark = some q)
    (h : Memory.wf s.mem) : Memory.wf q.mem := by
  unfold storeBytes at e; split at e
  · rw [← Option.some.inj e, mgmtWrite_mem]; exact h
  · exact storeMem_wf _ _ _ _ _ e h

@[simp] theorem movePort_mem (h : Hdr) (d : MOp) (a n : Nat) (step : ℤ) (act : Nat → List Nat → LandAct) (p : State) :
    (movePort h d a n step act p).mem = p.mem := rfl

@[simp] theorem segmentLands_mem (s : State) (l : Landing) (lat : Nat) (ws : List Late) : (segmentLands s l lat ws).mem = s.mem := rfl

theorem runSegment_wf {s : State} (l : Landing) (h : Memory.wf s.mem) : Memory.wf (runSegment s l).mem := by
  unfold runSegment; grind [touchNear_wf, segmentLands_mem]

theorem landDue_wf {s : State} (l : Landing) (h : Memory.wf s.mem) : Memory.wf (landDue s l).mem := by
  unfold landDue; split
  · split
    · simpa using h
    · simpa using nearStore_wf _ _ h
  all_goals exact runSegment_wf l h

theorem takeExclusive_wf {s : State} (policy line : Nat) (h : Memory.wf s.mem) : Memory.wf (takeExclusive s policy line).1.mem := by
  unfold takeExclusive; dsimp only; split
  · simpa using h
  · rw [modDie_mem]
    exact askSlice_wf _ _ _ _ (by simpa using h)

@[simp] theorem homeSignal_mem (s : State) (pa : Nat) : (homeSignal s pa).mem = s.mem := rfl

theorem atomicAt_wf {s : State} {t : TlbEntry} {sc : Scope} {pa w : Nat} {f : Nat → Elem} {r : State × Nat × Elem}
    (e : atomicAt s t sc pa w f = some r) (h : Memory.wf s.mem) : Memory.wf r.1.mem := by
  unfold atomicAt at e
  grind [takeExclusive_wf, l1Put_wf, readMem_wf, storeMem_wf, askSlice_wf, engineWrite_wf, oStore_wf, homeSignal_mem, modCore_mem]

@[simp] theorem addWait_mem (h : Hdr) (o : Machine.Ordering) (s : State) : (addWait h o s).mem = s.mem := rfl
@[simp] theorem releaseAt_mem (s : State) (sc : Nat) : (releaseAt s sc).mem = s.mem := by unfold releaseAt; split <;> simp

theorem acquire_wf {s : State} (sc : Nat) (ws : List Nat) (h : Memory.wf s.mem) : Memory.wf (acquire s sc ws).mem := by
  have hr : Memory.wf (ws.foldl (fun s w => replayFrom s w (acquiredTail s sc w)) s).mem := by
    rw [foldl_mem fun _ _ => replayFrom_mem ..]; exact h
  unfold acquire; dsimp only; split
  · exact flushP_wf _ hr
  · exact hr

theorem finishOrdering_wf {s : State} (o : Machine.Ordering) (h : Memory.wf s.mem) : Memory.wf (o.finish s).mem := by
  unfold Machine.Ordering.finish; split
  · exact h
  · exact acquire_wf _ _ h
  · split
    · exact flushP_wf _ h
    · exact h

end Sys2Proof.Laws.Canonical
end

section
/-!
PROOFS. Memory in canonical form: row operations and errors of DRAM, fetch, FIFOs, what the shared engines read and write, the slices of
the L2, migration.
-/
namespace Sys2Proof.Laws.Canonical

open Sys2Proof.Machine

/-- Every state that an arrival holds is canonical. -/
def ArrivalWf : Arrival → Prop
  | .stay t | .run t _ => Memory.wf t.mem

/-- What a fetch that waits leaves behind keeps the form. -/
def FetchedWf {α : Type} : Fetched α → Prop
  | .wait eff => ∀ s : State, Memory.wf s.mem → Memory.wf (eff s).mem
  | .bad _ | .got _ => True

@[simp] theorem sendRowOp_mem (kind id : Nat) (s : State) (pa : Nat) : (sendRowOp kind id s pa).mem = s.mem := rfl

@[simp] theorem rowEvent_mem (demote : Bool) (s : State) : (rowEvent demote s).mem = s.mem := by
  unfold rowEvent; dsimp only; repeat' split
  all_goals simp

@[simp] theorem countError_mem (s : State) (pa : Nat) (e : DramErr) : (countError s pa e).mem = s.mem := rfl

theorem rotGranule_wf {s : State} (pa : Nat) (h : Memory.wf s.mem) : Memory.wf (rotGranule s pa).mem := by
  unfold rotGranule; split
  · simpa using h
  · exact poisonGranule_wf pa h

theorem dramError_wf {s : State} (pa : Nat) (x2 : Option DramErr) (h : Memory.wf s.mem) : Memory.wf (dramError s pa x2).mem := by
  unfold dramError; split
  · exact h
  · exact h
  · exact rotGranule_wf pa h

@[simp] theorem reportError_mem (s : State) (q : L2Req) : (reportError s q).mem = s.mem := by unfold reportError; split <;> simp

theorem readThrough_wf {s : State} (who pa : Nat) (h : Memory.wf s.mem) : Memory.wf (readThrough s who pa).mem := by
  unfold readThrough; grind [poisonGranule_wf, reportError_mem, modSlice_mem]

theorem fillSector_wf {s : State} (pa who : Nat) (h : Memory.wf s.mem) : Memory.wf (fillSector s pa who).mem := by
  unfold fillSector; dsimp only; split
  · exact h
  · rw [foldl_mem fun _ _ => countLost_mem ..]
    exact foldl_wf (fun s a hs => readThrough_wf _ _ hs) _ h

@[simp] theorem executed_mem (s : State) (pa : Nat) : (executed s pa).mem = s.mem := rfl
@[simp] theorem askSector_mem (s : State) (pa : Nat) : (askSector s pa).mem = s.mem := rfl

theorem fetchParcel_wf (s : State) (e : Eng) (v : Nat) : FetchedWf (fetchParcel s e v) := by
  unfold fetchParcel; dsimp only
  split
  · exact fun t ht => by simpa using ht
  · trivial
  · split
    · exact fun t ht => by simpa using ht
    · trivial

theorem fetchRest_wf (s : State) (e : Eng) (n v : Nat) (x : Decoded) : FetchedWf (fetchRest s e n v x) := by
  induction n generalizing v x with
  | zero => trivial
  | succ n ih =>
    have hp := fetchParcel_wf s e v
    unfold fetchRest
    split
    · rw [‹fetchParcel s e v = _›] at hp; exact hp
    · trivial
    · exact ih ..

theorem fetchInstr_wf (s : State) (e : Eng) (pc : Nat) : FetchedWf (fetchInstr s e pc) := by
  have hp := fetchParcel_wf s e pc
  unfold fetchInstr
  split
  · rw [‹fetchParcel s e pc = _›] at hp; exact hp
  · trivial
  · dsimp only; split
    · trivial
    · exact fetchRest_wf ..

@[simp] theorem touchPages_mem (s : State) (e : Eng) (l : List Decoded) : (touchPages s e l).mem = s.mem := by
  refine foldl_mem (fun s p => ?_) _ _
  split
  · exact touchTlb_mem ..
  all_goals rfl

@[simp] theorem serve_mem (s : State) (w : Nat) (e : Eng) : (serve s w e).mem = s.mem := by
  unfold serve; dsimp only; split <;> simp

@[simp] theorem decodeSlot_mem (s : State) (waits : Eng → Bool) : (decodeSlot s waits).mem = s.mem := by
  have hserve (line : Nat) : (allEngs.foldl (fun s e => serve s line e) s).mem = s.mem := foldl_mem (fun _ _ => serve_mem ..) _ _
  unfold decodeSlot; dsimp only; repeat' split
  all_goals simp [hserve]

@[simp] theorem beginGroup_mem (s : State) (e : Eng) (tag : Nat) : (beginGroup s e tag).1.mem = s.mem := by
  unfold beginGroup; dsimp only; repeat' split
  all_goals simp

@[simp] theorem crossMode_mem (s : State) (e : Eng) (mode : Bool) : (crossMode s e mode).1.mem = s.mem := by
  unfold crossMode; dsimp only; repeat' split
  all_goals simp

@[simp] theorem leaveWait_mem (s : State) (e : Eng) : (leaveWait s e).mem = s.mem := by unfold leaveWait; split <;> simp

theorem raiseAt_wf {s : State} (e : Eng) (f : FaultRec) (pc : Nat) (h : Memory.wf s.mem) : ArrivalWf (raiseAt s e f pc) := by
  unfold raiseAt; split
  · simpa [ArrivalWf] using h
  · exact h

theorem meetInstr_wf {s : State} (e : Eng) (d : Decoded) (h : Memory.wf s.mem) : ArrivalWf (meetInstr s e d) := by
  have hb : Memory.wf (beginGroup s e (cutTag (s.core.eng e).pc (d.parcels.headD 0))).1.mem := by simpa using h
  unfold meetInstr; dsimp only
  split
  · exact hb
  split
  · exact raiseAt_wf _ _ _ hb
  split
  · exact hb
  split
  · exact raiseAt_wf _ _ _ hb
  · exact hb

theorem meetPoison_wf {s : State} (e : Eng) (d : Decoded) (h : Memory.wf s.mem) : ArrivalWf (meetPoison s e d) := by
  unfold meetPoison; dsimp only
  split
  · split
    · rw [ArrivalWf, consumePoison_mem, foldl_mem fun _ _ => executed_mem ..]; exact h
    all_goals simpa [ArrivalWf] using h
  · exact h

theorem arriveAt_wf {s : State} (e : Eng) (h : Memory.wf s.mem) : ArrivalWf (arriveAt s e) := by
  have hf := fetchInstr_wf s e (s.core.eng e).pc
  unfold arriveAt; dsimp only
  split
  · have hc : ∀ d, Memory.wf (crossMode s e d).1.mem := fun d => by simpa using h
    split
    · exact hc _
    split
    · exact meetPoison_wf e _ (hc _)
    · exact meetInstr_wf e _ (hc _)
  · split
    · rw [‹fetchInstr s e _ = _›] at hf; exact hf s h
    · exact raiseAt_wf _ _ _ h
    · exact h

theorem skipOn_wf (n : Nat) {s : State} (e : Eng) (h : Memory.wf s.mem) : Memory.wf (skipOn n s e).mem := by
  induction n generalizing s with
  | zero => exact h
  | succ n ih =>
    have ha := arriveAt_wf e h
    unfold skipOn
    split
    · split
      · rw [‹arriveAt s e = _›] at ha
        split
        · exact ha
        · exact ih ha
      · rw [‹arriveAt s e = _›] at ha; exact ha
    · exact h

theorem skipAll_wf {s : State} (h : Memory.wf s.mem) : Memory.wf (skipAll s).mem :=
  foldl_wf (f := skipOn 32) (fun _ e hs => skipOn_wf 32 e hs) _ h

theorem arrive_wf {s : State} (e : Eng) (h : Memory.wf s.mem) : ArrivalWf (arrive s e) := by
  unfold arrive; dsimp only
  split
  · exact h
  split
  · simpa [ArrivalWf] using h
  split
  · exact h
  split
  · simpa [ArrivalWf] using h
  split
  · exact h
  · exact arriveAt_wf e h

theorem fillBuffer_wf {s : State} (page : Nat) (h : Memory.wf s.mem) : Memory.wf (fillBuffer s page).mem := by
  rw [fillBuffer, modCore_mem]
  exact foldl_wf (f := fun s k => fillSector s (16384 * page + 256 * k) s.cur) (fun _ _ hs => fillSector_wf _ _ hs) _ h

@[simp] theorem setFifo_mem (s : State) (d k : Nat) (f : Fifo) : (setFifo s d k f).mem = s.mem := rfl
@[simp] theorem postRes_mem (s : State) (d k : Nat) (r : Res) : (postRes s d k r).mem = s.mem := rfl

@[simp] theorem postResult_mem (s : State) (d k ctx : Nat) (v : Word) (t : Nat) (f : Option FaultRec) :
    (postResult s d k ctx v t f).mem = s.mem := rfl

@[simp] theorem answer_mem (s : State) (d k : Nat) (c : Cmd) (v : Word) (t : Nat) (f : Option FaultRec) :
    (answer s d k c v t f).mem = s.mem := rfl

@[simp] theorem pushCmd_mem (s : State) (d k : Nat) (ws : List Word) (rm : BitVec 2) : (pushCmd s d k ws rm).mem = s.mem := rfl

theorem takeElement_mem {s : State} {d k : Nat} {r : Res × State} (e : takeElement s d k = some r) : r.2.mem = s.mem := by
  unfold takeElement at e; dsimp only at e
  repeat' split at e
  all_goals cases e
  all_goals rfl

@[simp] theorem acquireResult_mem (s : State) (r : Res) : (acquireResult s r).mem = s.mem := by unfold acquireResult; split <;> simp

theorem agentPage_wf {s : State} (g : Agent) (v n : Nat) (want : Want) (h : Memory.wf s.mem) :
    Memory.wf (agentPage s g v n want).1.mem := by
  have ht := translateNow_wf (rootOf s g.die g.ctx) (some (g.die, g.unit)) v want false h
  unfold agentPage
  split
  · rw [‹translateNow _ _ _ _ _ _ = _›] at ht; exact ht
  · rw [‹translateNow _ _ _ _ _ _ = _›] at ht; exact ht
  · rw [‹translateNow _ _ _ _ _ _ = _›] at ht
    split
    · exact ht
    · split <;> exact ht
    · exact ht

@[simp] theorem renewLines_mem (s : State) (clock pa n : Nat) : (renewLines s clock pa n).mem = s.mem := by
  refine foldl_mem (fun s l => ?_) _ _
  rfl

theorem askLines_wf {s : State} (who : Nat) (t : TlbEntry) (pa n : Nat) (h : Memory.wf s.mem) : Memory.wf (askLines s who t pa n).mem :=
  foldl_wf (fun _ _ hs => askSlice_wf _ _ _ _ hs) _ h

theorem agentRead_wf {s : State} (g : Agent) (v n : Nat) (h : Memory.wf s.mem) : Memory.wf (agentRead s g v n).1.mem :=
  foldl_fst_wf (fun x a h => by grind [agentPage_wf, askLines_wf, sendFlits_mem, renewLines_mem]) _ h

theorem agentCheck_wf {s : State} (g : Agent) (v n : Nat) (want : Want) (h : Memory.wf s.mem) :
    Memory.wf (agentCheck s g v n want).1.mem := by
  refine foldl_fst_wf (fun x p hx => ?_) _ h
  split
  · exact hx
  · have hp := agentPage_wf g p.1 p.2 want hx
    split
    all_goals rw [‹agentPage _ _ _ _ _ = _›] at hp; exact hp

theorem agentWrite_wf {s : State} (g : Agent) (v : Nat) (bs : List Byte) (h : Memory.wf s.mem) : Memory.wf (agentWrite s g v bs).1.mem :=
  foldl_fst_wf (fun x a h => by grind [agentPage_wf, agentPut_wf]) _ h

@[simp] theorem countIn_mem (s : State) (c ctx : Nat) (ns : List Nat) : (countIn s c ctx ns).mem = s.mem := by
  unfold countIn; repeat' split
  all_goals simp

@[simp] theorem unfault_mem (s : State) (m : Nat) : (unfault s m).mem = s.mem := rfl

@[simp] theorem poisonTask_mem (s : State) (mark : Option Nat) (tval : Word) : (poisonTask s mark tval).mem = s.mem := by
  unfold poisonTask; split
  · rfl
  · refine (foldl_mem (fun s i => ?_) _ _).trans (unfault_mem ..)
    dsimp only; split <;> simp

@[simp] theorem poisonCmd_mem (s : State) (d k : Nat) (c : Cmd) (v : Word) : (poisonCmd s d k c v).mem = s.mem := by
  unfold poisonCmd; split <;> simp

@[simp] theorem setSlice_mem (s : State) (x : Slice) : (setSlice s x).mem = s.mem := rfl

theorem l2Allocate_wf {s : State} (x : Slice) (line : Nat) (h : Memory.wf s.mem) : Memory.wf (l2Allocate s x line).mem := by
  unfold l2Allocate; grind [leaveSlice_wf, setSlice_mem]

@[simp] theorem poisonAsk_mem (granule : Nat) (s : State) (a : WalkAsk) : (poisonAsk granule s a).mem = s.mem := by
  unfold poisonAsk; split <;> simp

@[simp] theorem dropCode_mem (s : State) (d : Nat) (p : Nat → Bool) : (dropCode s d p).mem = s.mem :=
  (foldl_mem (fun _ _ => countLost_mem ..) _ _).trans (modCores_mem ..)

@[simp] theorem dropWalks_mem (s : State) (d : Nat) (p : Nat → Nat → Nat → Bool) : (dropWalks s d p).mem = s.mem := by simp [dropWalks]

theorem copyPage_wf {s : State} (m : Migration) (h : Memory.wf s.mem) : Memory.wf (copyPage s m).mem := by
  unfold copyPage; dsimp only
  rw [wroteLines_mem, setMarks_mem, setMarks_mem]
  exact pokes_wf _ (fun _ _ => ⟨_, _, _, rfl⟩) _ (by simpa using h)

theorem migrateLeaf_wf {s : State} (d : Nat) (c : Cmd) (h : Memory.wf s.mem) : Memory.wf (migrateLeaf s d c).1.mem := by
  unfold migrateLeaf; grind [agentRead_wf]

@[simp] theorem setMigration_mem (s : State) (d : Nat) (m n : Migration) : (setMigration s d m n).mem = s.mem := rfl

theorem migrateSwitch_wf {s : State} (d : Nat) (c : Cmd) (t : TlbEntry) (m : Migration) (h : Memory.wf s.mem) :
    Memory.wf (migrateSwitch s d c t m).mem := by
  unfold migrateSwitch; grind [copyPage_wf, agentWrite_wf, setFifo_mem, setMigration_mem]

@[simp] theorem migrateMapped_mem (s : State) (d : Nat) (m : Migration) : (migrateMapped s d m).mem = s.mem := by
  unfold migrateMapped; split <;> simp

@[simp] theorem migrateEnd_mem (s : State) (d : Nat) (c : Cmd) (m : Migration) : (migrateEnd s d c m).mem = s.mem := by
  unfold migrateEnd; split <;> simp

@[simp] theorem migrateOrphan_mem (s : State) (d : Nat) (m : Migration) : (migrateOrphan s d m).mem = s.mem := by
  unfold migrateOrphan; repeat' split
  all_goals simp

@[simp] theorem renameRecords_mem (s : State) (base size : Nat) : (renameRecords s base size).mem = s.mem := by simp [renameRecords]

end Sys2Proof.Laws.Canonical
end

section
/-!
PROOFS. Memory in canonical form: the copy engine element by element, probe fills, the stream side.
-/
namespace Sys2Proof.Laws.Canonical

open Sys2Proof.Machine

/-- Every state that the moving of an element ends with is canonical. -/
def MoveWf : Move → Prop
  | .ok s | .fault s _ | .wait s | .poison s => Memory.wf s.mem

theorem corePage_wf {s : State} (level : Bool) (v n : Nat) (want : Want) (h : Memory.wf s.mem) :
    Memory.wf (corePage s level v n want).1.mem := by
  unfold corePage; grind [translateNow_wf]

theorem readLoaded_wf {s : State} (loaded : List L1Line) (u : Nat) (t : TlbEntry) (policy pa n : Nat) (h : Memory.wf s.mem) :
    Memory.wf (readLoaded s loaded u t policy pa n).1.mem :=
  foldl_fst_wf (fun x a h => by grind [readMem_wf, modCore_mem]) _ h

theorem readFar_wf {s : State} (loaded : List L1Line) (u : Nat) (level : Bool) (policy v n : Nat) (h : Memory.wf s.mem) :
    Memory.wf (readFar s loaded u level policy v n).1.mem :=
  foldl_fst_wf (fun x a h => by grind [corePage_wf, readLoaded_wf]) _ h

theorem coreRead_wf {s : State} (level : Bool) (policy v n : Nat) (h : Memory.wf s.mem) :
    Memory.wf (coreRead s level policy v n).1.mem := by
  unfold coreRead; grind [readFar_wf]

theorem copyRead_wf {s : State} (c : CopyCmd) (v n : Nat) (h : Memory.wf s.mem) : Memory.wf (copyRead s c v n).1.mem := by
  unfold copyRead; grind [readFar_wf]

theorem copyPut_wf {s : State} (t : TlbEntry) (policy pa : Nat) (ws : List (Nat × Byte × Byte)) (mark : Bool) {v}
    (e : (copyPut s t policy pa ws mark) = some v) (h : Memory.wf s.mem) : Memory.wf v.mem := by
  unfold copyPut at e
  split at e
  · cases e; exact h
  · exact storeMem_wf _ _ _ _ _ e h

theorem copyWrite_wf {s : State} (level : Bool) (policy v : Nat) (ws : List (Byte × Byte)) (mark : Bool) (h : Memory.wf s.mem) :
    Memory.wf (copyWrite s level policy v ws mark).1.mem :=
  foldl_fst_wf (fun x a h => by grind [corePage_wf, copyPut_wf]) _ h

theorem putNear_wf {s : State} (order : Option Nat) (near b n q id val : Nat) (mark : Bool) {v}
    (e : (putNear s order near b n q id val mark) = .ok v) (h : Memory.wf s.mem) : Memory.wf v.mem := by
  unfold putNear at e; dsimp only at e
  split at e
  · cases e
  · cases e; exact foldl_wf (fun s w hs => nearPut_wf _ _ _ _ _ _ _ hs) _ h

theorem mq4Load_wf {rd : State → Nat → Nat → State × Except FaultRec (List Byte × Bool)}
    (hrd : ∀ (s : State) (v n : Nat), Memory.wf s.mem → Memory.wf (rd s v n).1.mem) {s : State} (base n : Nat) (h : Memory.wf s.mem) :
    Memory.wf (mq4Load rd s base n).1.mem := by
  unfold mq4Load; grind

theorem farBits_wf {s : State} (c : CopyCmd) (b : Nat) (p : Nat × Nat) (h : Memory.wf s.mem) : Memory.wf (farBits s c b p).1.mem := by
  unfold farBits; grind [copyRead_wf]

theorem landElem_wf (c : CopyCmd) (n : Ty) (q e : Nat) (counts : List Nat) (mark : Bool) {s : State} (h : Memory.wf s.mem) :
    MoveWf (landElem c n q e counts mark s) := by
  unfold landElem; split
  · exact h
  · rw [MoveWf, countEvents_mem]
    exact putNear_wf _ _ _ _ _ _ _ _ ‹putNear _ _ _ _ _ _ _ _ _ = _› h

theorem loadElem_wf {s : State} (c : CopyCmd) (f n : Ty) (idx : Nat) (h : Memory.wf s.mem) : MoveWf (loadElem s c f n idx) := by
  have hland := landElem_wf c n (nearIndex (layoutOf c.layout) c.transposes (visit (layoutOf c.layout) idx))
  have hmq4 := fun k => mq4Load_wf (rd := fun s v k => copyRead s c v k) (fun s v k hs => copyRead_wf c v k hs) (layoutOf c.layout).base k h
  have hfar := fun p => farBits_wf c (widthOf f) p h
  unfold loadElem; dsimp only
  repeat' split
  all_goals grind [MoveWf, copyRead_wf]

theorem putFar_wf {s : State} (c : CopyCmd) (v p b val : Nat) (mark : Bool) (counts : List Nat) (h : Memory.wf s.mem) :
    MoveWf (putFar s c v p b val mark counts) := by
  have hw := fun v' bs => copyWrite_wf c.level c.policy v' bs mark h
  unfold putFar; dsimp only
  grind [MoveWf, countEvents_mem]

theorem andThen_wf {m : Move} {k : State → Move} (hm : MoveWf m) (hk : ∀ s : State, Memory.wf s.mem → MoveWf (k s)) :
    MoveWf (m.andThen k) := by
  cases m with
  | ok s => exact hk s hm
  | _ => exact hm

theorem storeScaled_wf {s : State} (c : CopyCmd) (f n : Ty) (x : List Nat) (w : Nat) (h : Memory.wf s.mem) :
    MoveWf (storeScaled s c f n x w) := by
  unfold storeScaled; dsimp only
  repeat' split
  case h_4.isTrue => exact andThen_wf (putFar_wf _ _ _ _ _ _ _ h) fun s hs => putFar_wf _ _ _ _ _ _ _ hs
  case h_4.isFalse => exact andThen_wf h fun s hs => putFar_wf _ _ _ _ _ _ _ hs
  all_goals exact h

theorem storeMq4_wf {s : State} (c : CopyCmd) (n : Ty) (k : Nat) (h : Memory.wf s.mem) : MoveWf (storeMq4 s c n k) := by
  unfold storeMq4; dsimp only
  split
  · exact h
  · exact h
  · refine andThen_wf ?_ fun s hs => putFar_wf _ _ _ _ _ _ _ hs
    split
    · have hw := fun v bs => copyWrite_wf c.level c.policy v bs false h
      split
      · exact wf_of_eq_mk ‹copyWrite _ _ _ _ _ _ = _› (hw ..)
      · exact wf_of_eq_mk ‹copyWrite _ _ _ _ _ _ = _› (hw ..)
      · have hq := wf_of_eq_mk ‹copyWrite _ _ _ _ _ _ = _› (hw ..)
        split
        · exact hq
        · exact putFar_wf _ _ _ _ _ _ _ hq
    · exact h

theorem storeElem_wf {s : State} (c : CopyCmd) (f n : Ty) (idx : Nat) (h : Memory.wf s.mem) : MoveWf (storeElem s c f n idx) := by
  have ht := fun as => touchNear_wf 1 as h
  unfold storeElem; dsimp only
  split
  · exact h
  split
  · exact storeMq4_wf _ _ _ h
  split
  · exact h
  split
  · exact putFar_wf _ _ _ _ _ _ _ (ht _)
  split
  · exact ht _
  split
  · exact storeScaled_wf _ _ _ _ _ (ht _)
  · exact putFar_wf _ _ _ _ _ _ _ (ht _)

theorem moveElem_wf {s : State} (c : CopyCmd) (idx : Nat) (h : Memory.wf s.mem) : MoveWf (moveElem s c idx) := by
  unfold moveElem; split
  · split
    · exact storeElem_wf _ _ _ _ h
    · exact loadElem_wf _ _ _ _ h
  · exact h

@[simp] theorem copyPoison_mem (s : State) (r : CopyRun) : (copyPoison s r).mem = s.mem := by unfold copyPoison; split <;> simp
@[simp] theorem modRun_mem (s : State) (f : CopyRun → CopyRun) : (modRun s f).mem = s.mem := rfl

theorem lookAhead_wf {s : State} (r : CopyRun) (v : Nat) (h : Memory.wf s.mem) : Memory.wf (lookAhead s r v).mem := by
  unfold lookAhead; grind [corePage_wf, oLoad_wf, modRun_mem]

theorem storeLine_wf {s : State} (r : CopyRun) (h : Memory.wf s.mem) : Memory.wf (storeLine s r).mem := by
  unfold storeLine; grind [oStore_wf, askSlice_wf, poisonBytes_mem, modRun_mem]

theorem moveElems_wf (n : Nat) {s : State} (h : Memory.wf s.mem) : Memory.wf (moveElems n s).mem := by
  induction n generalizing s with
  | zero => exact h
  | succ n ih =>
    unfold moveElems
    split
    · exact h
    · split
      · exact h
      · have hm := moveElem_wf (s := s) (‹CopyRun›).cmd (‹CopyRun›).pos h
        split
        all_goals rw [‹moveElem _ _ _ = _›] at hm
        · exact ih hm
        · exact hm
        · simpa [MoveWf] using hm
        · simpa [MoveWf] using hm

@[simp] theorem stagingFault_mem (s : State) (f : FaultRec) : (stagingFault s f).mem = s.mem := by
  unfold stagingFault; dsimp only; split <;> simp

theorem readMatrix_wf {s : State} (d : Nat) (h : Memory.wf s.mem) : Memory.wf (readMatrix s d).1.mem := by
  unfold readMatrix; grind [coreRead_wf]

@[simp] theorem endCall_mem (s : State) (k : StreamCall) (f : Option FaultRec) : (endCall s k f).mem = s.mem := rfl
@[simp] theorem streamFault_mem (s : State) (f : FaultRec) : (streamFault s f).mem = s.mem := by unfold streamFault; split <;> simp
@[simp] theorem streamPoison_mem (s : State) (tval : Nat) : (streamPoison s tval).mem = s.mem := by unfold streamPoison; split <;> simp

theorem segmentNow_wf {s : State} (pos : StreamPos) (h : Memory.wf s.mem) : Memory.wf (segmentNow s pos).1.mem := by
  unfold segmentNow; grind [coreRead_wf]

@[simp] theorem setPos_mem (s : State) (pos : StreamPos) : (setPos s pos).mem = s.mem := rfl

theorem readReturns_wf {s : State} (k : StreamCall) (r : StreamRead) (h : Memory.wf s.mem) : Memory.wf (readReturns s k r).mem := by
  unfold readReturns; grind [readMatrix_wf, streamFault_mem, streamPoison_mem, modCore_mem]

@[simp] theorem directiveDone_mem (s : State) (k : StreamCall) (n : Nat) (counts : List Nat) : (directiveDone s k n counts).mem = s.mem := rfl

@[simp] theorem rowAdds_mem (s : State) (k : StreamCall) (x : Nat) (rows : List (Nat × Bool)) (n : Nat) :
    (rowAdds s k x rows n).mem = s.mem := by
  unfold rowAdds; split <;> simp

theorem streamPage_wf {s : State} (v : Nat) (h : Memory.wf s.mem) : Memory.wf (streamPage s v).1.mem := by
  unfold streamPage; grind [translateNow_wf]

@[simp] theorem prefetch_mem (s : State) : (prefetch s).mem = s.mem := by
  unfold prefetch; dsimp only; repeat' split
  all_goals simp

theorem streamParcel_wf {s : State} (v : Nat) (h : Memory.wf s.mem) : Memory.wf (streamParcel s v).1.mem := by
  unfold streamParcel; grind [streamPage_wf]

theorem arriveStream_wf {s : State} (h : Memory.wf s.mem) : ArrivalWf (arriveStream s) := by
  have hp : Memory.wf (prefetch s).mem := by simpa using h
  have hs := fun v => streamParcel_wf v hp
  unfold arriveStream; dsimp only
  repeat' split
  all_goals grind [ArrivalWf, streamFault_mem, streamPoison_mem, executed_mem, modCore_mem, streamParcel_wf]

end Sys2Proof.Laws.Canonical
end

section
/-!
PROOFS. Memory in canonical form: the lease arrays, Goleus, the grammar engine, counts of the sampler.
-/
namespace Sys2Proof.Laws.Canonical

open Sys2Proof.Machine

/-- Every state that a group ends with is canonical. -/
def GroupEndWf : GroupEnd → Prop
  | .done s | .fault s _ | .poison s _ => Memory.wf s.mem

@[simp] theorem returnLeave_mem (s : State) (c : Nat) : (returnLeave s c).mem = s.mem := by unfold returnLeave; split <;> simp
@[simp] theorem openSession_mem (s : State) (cls : Nat) : (openSession s cls).mem = s.mem := rfl
@[simp] theorem askLeave_mem (cls : Nat) (s : State) : (askLeave cls s).mem = s.mem := by unfold askLeave; split <;> simp
@[simp] theorem settleLrels_mem (s : State) : (settleLrels s).mem = s.mem := foldl_mem (fun _ _ => by simp) _ _
@[simp] theorem setArray_mem (s : State) (x : Array) : (setArray s x).mem = s.mem := rfl

theorem leaseRead_wf {s : State} (q : LeaseCmd) (v n : Nat) (h : Memory.wf s.mem) : Memory.wf (leaseRead s q v n).1.mem :=
  foldl_fst_wf (fun x a h => by grind [corePage_wf, landFlying_mem, sendFlits_mem]) _ h

theorem readElems_wf {s : State} (q : LeaseCmd) (o : Operand) (i j n : Nat) (h : Memory.wf s.mem) :
    Memory.wf (readElems s q o i j n).1.mem := by
  unfold readElems; grind [leaseRead_wf]

theorem readScale_wf {s : State} (q : LeaseCmd) (o : Operand) (i j : Nat) (h : Memory.wf s.mem) :
    Memory.wf (readScale s q o i j).1.mem := by
  unfold readScale; grind [leaseRead_wf]

theorem gather_wf {α β : Type} {f : State → α → State × Except FaultRec (β × Option Nat)}
    (hf : ∀ (s : State) (a : α), Memory.wf s.mem → Memory.wf (f s a).1.mem) {s : State} (l : List α) (h : Memory.wf s.mem) :
    Memory.wf (gather f s l).1.mem :=
  foldl_fst_wf (fun x a hx => by grind) l h

theorem sideDense_wf {s : State} (q : LeaseCmd) (o : Operand) (rows k0 : Nat) (h : Memory.wf s.mem) :
    Memory.wf (sideDense s q o rows k0).1.mem := by
  refine gather_wf (fun s i hs => ?_) _ h
  have he := readElems_wf q o i k0 32 hs
  split
  · exact wf_of_eq_mk ‹_› he
  · have hc := gather_wf (fun s b hs => readScale_wf q o i (k0 + b * o.w) hs) (List.range (32 / o.w)) (wf_of_eq_mk ‹_› he)
    split
    all_goals exact wf_of_eq_mk ‹_› hc

theorem sideAcross_wf {s : State} (q : LeaseCmd) (o : Operand) (cols k0 : Nat) (h : Memory.wf s.mem) :
    Memory.wf (sideAcross s q o cols k0).1.mem := by
  have hr := gather_wf (fun s k hs => readElems_wf q o (k0 + k) 0 cols hs) (List.range 32) h
  unfold sideAcross; split
  · exact wf_of_eq_mk ‹_› hr
  · have hc := gather_wf (fun s b hs => gather_wf (fun s c hs => readScale_wf q o (k0 + b * o.h) (c * o.w) hs) (List.range (ceilDiv cols o.w)) hs)
      (List.range (32 / o.h)) (wf_of_eq_mk ‹_› hr)
    split
    all_goals exact wf_of_eq_mk ‹_› hc

theorem readArray_wf {s : State} (q : LeaseCmd) (a n : Nat) (h : Memory.wf s.mem) : Memory.wf (readArray s q a n).1.mem := by
  unfold readArray; grind [leaseRead_wf]

theorem sideSparse_wf {s : State} (q : LeaseCmd) (o : Operand) (rows k0 : Nat) (h : Memory.wf s.mem) :
    Memory.wf (sideSparse s q o rows k0).1.mem := by
  unfold sideSparse; dsimp only; split
  · exact wf_of_eq_mk ‹_› (readArray_wf _ _ _ h)
  have hptr := wf_of_eq_mk ‹_› (readArray_wf q o.stride (rows + 1) h)
  split
  · exact hptr
  split
  · exact wf_of_eq_mk ‹_› (readArray_wf _ _ _ hptr)
  have hidx := wf_of_eq_mk ‹readArray _ _ _ _ = (_, .ok (_, _))› (readArray_wf _ _ _ hptr)
  split
  · exact hidx
  -- Row by row, the elements and then the scales are read.
  split
  all_goals refine wf_of_eq_mk ‹gather _ _ _ = _› (gather_wf (fun s n hs => ?_) _ hidx)
  all_goals
    split
    all_goals have he := wf_of_eq_mk ‹gather _ _ _ = _› (gather_wf (fun s k hs => by
      split
      · exact hs
      · split
        all_goals exact wf_of_eq_mk ‹_› (readElems_wf _ _ _ _ _ hs)) _ hs)
    · exact he
    · split
      all_goals exact wf_of_eq_mk ‹gather _ _ _ = _› (gather_wf (fun s b hs => readScale_wf _ _ _ _ hs) _ he)

theorem groupSides_wf {s : State} (q : LeaseCmd) (g : Nat) (h : Memory.wf s.mem) : Memory.wf (groupSides s q g).1.mem := by
  unfold groupSides; grind [sideDense_wf, sideSparse_wf, sideAcross_wf]

theorem readPairs_wf {s : State} (q : LeaseCmd) (a n : Nat) (h : Memory.wf s.mem) : Memory.wf (readPairs s q a n).1.mem := by
  unfold readPairs; grind [readArray_wf]

theorem visibility_wf {s : State} (q : LeaseCmd) (h : Memory.wf s.mem) : Memory.wf (visibility s q).1.mem := by
  unfold visibility; grind [readPairs_wf]

theorem runGroup_wf {s : State} (q : LeaseCmd) (h : Memory.wf s.mem) : GroupEndWf (runGroup s q) := by
  have hs := groupSides_wf q q.groups h
  unfold runGroup; dsimp only
  split
  · exact wf_of_eq_mk ‹_› hs
  · have hv := visibility_wf q (wf_of_eq_mk ‹_› hs)
    repeat' split
    all_goals grind [GroupEndWf, countEvents_mem, modCore_mem]

@[simp] theorem unpinLine_mem (s : State) (line : Nat) : (unpinLine s line).mem = s.mem := rfl
@[simp] theorem endRun_mem (s : State) : (endRun s).mem = s.mem := foldl_mem (fun _ _ => by simp) _ _

@[simp] theorem releasePins_mem (s : State) (x : Array) (q : LeaseCmd) (qs : List LeaseCmd) : (releasePins s x q qs).1.mem = s.mem := by
  unfold releasePins; split
  · rfl
  · exact foldl_mem (fun _ _ => unpinLine_mem ..) _ _

theorem pinLine_wf {s : State} (line : Nat) (noAlloc : Bool) (h : Memory.wf s.mem) : Memory.wf (pinLine s line noAlloc).mem := by
  unfold pinLine; grind [leaveSlice_wf, modSlice_mem]

theorem fetchLine_wf {s : State} (q : LeaseCmd) (l : TileLine) (h : Memory.wf s.mem) : Memory.wf (fetchLine s q l).mem := by
  unfold fetchLine; grind [corePage_wf, poisonGranule_wf, pinLine_wf, modCore_mem, renewLines_mem, reportError_mem]

@[simp] theorem failLease_mem (s : State) (q : LeaseCmd) (f : FaultRec) : (failLease s q f).mem = s.mem := by simp [failLease]

@[simp] theorem poisonLease_mem (s : State) (q : LeaseCmd) (v : Nat) : (poisonLease s q v).mem = s.mem := by
  unfold poisonLease; split <;> simp

@[simp] theorem countMq4_mem (s : State) (g : Agent) (v : Nat) : (countMq4 s g v).mem = s.mem := by simp [countMq4]

theorem mq4Weight_wf {s : State} (g : Agent) (base n : Nat) (h : Memory.wf s.mem) : Memory.wf (mq4Weight s g base n).1.mem := by
  have hm := mq4Load_wf (rd := fun s v k => agentRead s g v k) (fun s v k hs => agentRead_wf g v k hs) base n h
  unfold mq4Weight; split
  · exact wf_of_eq_mk ‹_› hm
  · have hq := wf_of_eq_mk ‹_› hm
    dsimp only; split
    · exact hq
    · split
      · exact hq
      · simpa using hq

theorem rowWeights_wf {s : State} (g : Agent) (c : Goleus) (t : Ty) (float : Bool) (j i : Nat) (h : Memory.wf s.mem) :
    Memory.wf (rowWeights s g c t float j i).1.mem := by
  unfold rowWeights; dsimp only; split
  · refine foldl_fst_wf (fun x k hx => ?_) _ h
    grind [mq4Weight_wf]
  · have hr := agentRead_wf g (c.source + i * c.pitch + 8 * widthOf t * j) (packedBytes (widthOf t) (segColumns c.k j)) h
    split
    · exact wf_of_eq_mk ‹_› hr
    · have hq := wf_of_eq_mk ‹_› hr
      repeat' split
      all_goals exact hq

theorem segWeights_wf {s : State} (g : Agent) (c : Goleus) (t : Ty) (float : Bool) (j : Nat) (h : Memory.wf s.mem) :
    Memory.wf (segWeights s g c t float j).1.mem :=
  foldl_fst_wf (fun x a h => by grind [rowWeights_wf]) _ h

theorem segCode_wf {s : State} (g : Agent) (c : Goleus) (t : Ty) (float : Bool) (j pos : Nat) (h : Memory.wf s.mem) :
    Memory.wf (segCode s g c t float j pos).1.mem := by
  unfold segCode; grind [segWeights_wf]

theorem allCode_wf {s : State} (g : Agent) (c : Goleus) (t : Ty) (float : Bool) (h : Memory.wf s.mem) :
    Memory.wf (allCode s g c t float).1.mem :=
  foldl_fst_wf (fun x a h => by grind [segCode_wf]) _ h

theorem writeAll_wf {s : State} (g : Agent) (ws : List (Nat × List Byte)) (h : Memory.wf s.mem) : Memory.wf (writeAll s g ws).1.mem := by
  have hc := foldl_fst_wf (f := fun (x : State × Option FaultRec) (w : Nat × List Byte) =>
    match x.2 with | some _ => x | none => agentCheck x.1 g w.1 w.2.length { w := true }) (fun x w hx => by grind [agentCheck_wf]) ws (x := (s, none)) h
  unfold writeAll; dsimp only
  split
  · exact hc
  · refine foldl_fst_wf (fun x w hx => ?_) _ hc
    grind [agentWrite_wf]

@[simp] theorem goleusRefuse_mem (s : State) (d : Nat) (c : Cmd) (x3 : Refused) : (goleusRefuse s d c x3).mem = s.mem := by
  unfold goleusRefuse; split <;> simp

theorem goleusWrite_wf {s : State} (d : Nat) (c : Cmd) (parcels : Nat) (ws : List (Nat × List Byte)) (h : Memory.wf s.mem) :
    Memory.wf (goleusWrite s d c parcels ws).mem := by
  unfold goleusWrite; grind [writeAll_wf, goleusRefuse_mem, answer_mem]

theorem gramBytes_wf {s : State} (a : Agent) (v n : Nat) (h : Memory.wf s.mem) : Memory.wf (gramBytes s a v n).1.mem :=
  foldl_fst_wf (fun x a h => by grind [translateNow_wf, askLines_wf]) _ h

theorem gramRead_wf {s : State} (a : Agent) (v n : Nat) (h : Memory.wf s.mem) : Memory.wf (gramRead s a v n).1.mem := by
  unfold gramRead; grind [gramBytes_wf]

theorem readGram_wf {s : State} (a : Agent) (header vocab : Nat) (h : Memory.wf s.mem) : Memory.wf (readGram s a header vocab).1.mem := by
  unfold readGram; grind [gramRead_wf]

theorem readChunk_wf {s : State} (a : Agent) (header : Nat) (h0 : GramHdr) (mask chunk : Nat) (h : Memory.wf s.mem) :
    Memory.wf (readChunk s a header h0 mask chunk).1.mem := by
  unfold readChunk; grind [gramBytes_wf, translateNow_wf, modDie_mem]

theorem permittedBy_wf {s : State} (a : Agent) (vocab : Nat) (g : Grammar) (h : Memory.wf s.mem) :
    Memory.wf (permittedBy s a vocab g).1.mem := by
  unfold permittedBy; split
  · exact wf_of_eq_mk ‹_› (readGram_wf _ _ _ h)
  have hh := wf_of_eq_mk ‹_› (readGram_wf a g.header vocab h)
  split
  · exact wf_of_eq_mk ‹_› (gramRead_wf _ _ _ hh)
  have hi := wf_of_eq_mk ‹gramRead _ _ _ _ = _› (gramRead_wf _ _ _ hh)
  dsimp only; split
  · exact hi
  split
  all_goals refine wf_of_eq_mk ‹List.foldl _ _ _ = _› (foldl_fst_wf (fun x c hx => ?_) _ hi)
  all_goals grind [readChunk_wf]

theorem advance_wf {s : State} (a : Agent) (vocab : Nat) (g : Grammar) (x : Nat) (h : Memory.wf s.mem) :
    Memory.wf (advance s a vocab g x).1.mem := by
  unfold advance; grind [readGram_wf, gramRead_wf]

@[simp] theorem setSeq_mem (s : State) (d n : Nat) (x : SeqSlot) : (setSeq s d n x).mem = s.mem := rfl

@[simp] theorem endGrammar_mem (s : State) (d : Nat) (c : Cmd) (lone : Nat) (g : Option Grammar) (x5 : Option Bad) :
    (endGrammar s d c lone g x5).mem = s.mem := by
  unfold endGrammar; split <;> simp

@[simp] theorem makeWay_mem (s : State) (d : Nat) : (makeWay s d).mem = s.mem := rfl
@[simp] theorem setRun_mem (s : State) (d : Nat) (r : Option SampleRun) : (setRun s d r).mem = s.mem := rfl

theorem samRead_wf {s : State} (d : Nat) (c : Cmd) (v n : Nat) (h : Memory.wf s.mem) : Memory.wf (samRead s d c v n).1.mem := by
  unfold samRead; grind [agentRead_wf]

theorem samRow_wf {s : State} (d : Nat) (c : Cmd) (v w n : Nat) (h : Memory.wf s.mem) : Memory.wf (samRow s d c v w n).1.mem := by
  unfold samRow; grind [agentRead_wf]

theorem bumpCount_wf {s : State} (d : Nat) (c : Cmd) (x : SeqSlot) (tok : Nat) (h : Memory.wf s.mem) :
    Memory.wf (bumpCount s d c x tok).1.mem := by
  unfold bumpCount; grind [samRead_wf, agentWrite_wf]

theorem countsReach_wf {s : State} (d : Nat) (c : Cmd) (x : SeqSlot) (toks : List Nat) (h : Memory.wf s.mem) :
    Memory.wf (countsReach s d c x toks).1.mem :=
  foldl_fst_wf (fun x a h => by grind [samRead_wf, agentCheck_wf]) _ h

theorem bumpCounts_wf {s : State} (d : Nat) (c : Cmd) (x : SeqSlot) (toks : List Nat) (h : Memory.wf s.mem) :
    Memory.wf (bumpCounts s d c x toks).1.mem :=
  foldl_fst_wf (fun x a h => by grind [bumpCount_wf]) _ h

end Sys2Proof.Laws.Canonical
end

section
/-!
PROOFS. Memory in canonical form: the sampler, tasks and their records, rollback, pre-emption.
-/
namespace Sys2Proof.Laws.Canonical

open Sys2Proof.Machine

/-- Every state that an admission holds is canonical. -/
def AdmissionWf : Admission → Prop
  | .wait s | .done s _ => Memory.wf s.mem

@[simp] theorem refuseCommit_mem (s : State) (d : Nat) (c : Cmd) (g : Option Grammar) (x4 : Bad) :
    (refuseCommit s d c g x4).mem = s.mem := by
  unfold refuseCommit; split <;> simp

theorem commitNow_wf {s : State} (d : Nat) (c : Cmd) (x : SeqSlot) (toks : List Nat) (g : Option Grammar) (draws : Bool) (status : Nat)
    (f : Option FaultRec) (h : Memory.wf s.mem) : Memory.wf (commitNow s d c x toks g draws status f).mem := by
  unfold commitNow; grind [countsReach_wf, bumpCounts_wf, refuseCommit_mem, setSeq_mem, answer_mem]

theorem commitEnded_wf {s : State} (d : Nat) (r : SampleRun) (h : Memory.wf s.mem) : Memory.wf (commitEnded s d r).mem := by
  unfold commitEnded; grind [commitNow_wf]

theorem flushCommits_wf {s : State} (d : Nat) (h : Memory.wf s.mem) : Memory.wf (flushCommits s d).mem :=
  foldl_wf (fun s x h => by grind [commitEnded_wf, modDie_mem]) _ h

theorem commitTokens_wf {s : State} (d : Nat) (c : Cmd) (x : SeqSlot) (toks : List Nat) (g : Option Grammar) (draws : Bool) (status : Nat)
    (f : Option FaultRec) (h : Memory.wf s.mem) : Memory.wf (commitTokens s d c x toks g draws status f).mem := by
  unfold commitTokens; grind [commitNow_wf, flushCommits_wf]

theorem commitRun_wf {s : State} (d : Nat) (r : SampleRun) (status : Nat) (f : Option FaultRec) (h : Memory.wf s.mem) :
    Memory.wf (commitRun s d r status f).mem := by
  unfold commitRun; grind [commitEnded_wf, flushCommits_wf, setRun_mem]

theorem flushEarlier_wf {s : State} (d : Nat) (h : Memory.wf s.mem) : Memory.wf (flushEarlier s d).mem := by
  unfold flushEarlier; grind [flushCommits_wf, makeWay_mem]

theorem endStatus_wf {s : State} (d : Nat) (c : Cmd) (hi : Nat) (b : Option Bad) (h : Memory.wf s.mem) :
    Memory.wf (endStatus s d c hi b).mem := by
  unfold endStatus; grind [flushEarlier_wf, answer_mem, poisonCmd_mem]

theorem endCommit_wf {s : State} (d : Nat) (c : Cmd) (g : Option Grammar) (b : Bad) (h : Memory.wf s.mem) :
    Memory.wf (endCommit s d c g b).mem := by
  unfold endCommit; grind [flushEarlier_wf, refuseCommit_mem]

theorem readProgram_wf {s : State} (d : Nat) (c : Cmd) (a n : Nat) (h : Memory.wf s.mem) : Memory.wf (readProgram s d c a n).1.mem := by
  unfold readProgram; grind [samRead_wf]

@[simp] theorem endRunWith_mem (s : State) (d : Nat) (r : SampleRun) (x3 : Bad) : (endRunWith s d r x3).mem = s.mem := by
  unfold endRunWith; repeat' split
  all_goals simp

theorem startProgram_wf {s : State} (d : Nat) (r : SampleRun) (bf16 : Bool) (a : Nat) (h : Memory.wf s.mem) :
    Memory.wf (startProgram s d r bf16 a).mem := by
  unfold startProgram; grind [samRow_wf, endRunWith_mem, setRun_mem]

theorem postToken_wf {s : State} (d : Nat) (r : SampleRun) (x : SeqSlot) (tok : Nat) (forced : Bool) (logp : Option Nat) (dropped : Bool)
    (h : Memory.wf s.mem) : Memory.wf (postToken s d r x tok forced logp dropped).1.mem := by
  unfold postToken; grind [flushCommits_wf, advance_wf, postResult_mem]

theorem beginChoice_wf {s : State} (d : Nat) (r : SampleRun) (x : SeqSlot) (h : Memory.wf s.mem) :
    Memory.wf (beginChoice s d r x).1.mem := by
  unfold beginChoice; grind [permittedBy_wf]

theorem walkTree_wf (n : Nat) {s : State} (d : Nat) (r : SampleRun) (x : SeqSlot) (h : Memory.wf s.mem) :
    Memory.wf (walkTree n s d r x).mem := by
  induction n generalizing s r with
  | zero => exact h
  | succ n ih =>
    have hb := beginChoice_wf d r x h
    unfold walkTree
    split
    · exact h
    split
    · simpa using wf_of_eq_mk ‹_› hb
    · exact startProgram_wf _ _ _ _ (wf_of_eq_mk ‹_› hb)
    · have hp := fun r t => postToken_wf d r x t true (some 0) false (wf_of_eq_mk ‹_› hb)
      split
      · simpa using wf_of_eq_mk ‹_› (hp ..)
      · have hq := wf_of_eq_mk ‹postToken _ _ _ _ _ _ _ _ = _› (hp ..)
        split
        · exact ih _ hq
        · exact hq

theorem chosen_wf {s : State} (d : Nat) (r : SampleRun) (c : Option Choice) (h : Memory.wf s.mem) : Memory.wf (chosen s d r c).mem := by
  unfold chosen; grind [postToken_wf, walkTree_wf, setRun_mem, endRunWith_mem]

theorem choose_wf {s : State} (d : Nat) (r : SampleRun) (p : Pick) (h : Memory.wf s.mem) : Memory.wf (choose s d r p).mem := by
  unfold choose; grind [chosen_wf, endRunWith_mem]

theorem startSample_wf {s : State} (d : Nat) (r : SampleRun) (x : SeqSlot) (row : Nat) (h : Memory.wf s.mem) :
    Memory.wf (startSample s d r x row).mem := by
  unfold startSample; grind [beginChoice_wf, startProgram_wf, postToken_wf, endRunWith_mem, setRun_mem]

theorem noteTokens_wf {s : State} (d : Nat) (c : Cmd) (x : SeqSlot) (toks : List Nat) (h : Memory.wf s.mem) :
    Memory.wf (noteTokens s d c x toks).1.mem :=
  foldl_fst_wf (fun x a h => by grind [permittedBy_wf, advance_wf]) _ h

@[simp] theorem wordDone_mem (s : State) (d : Nat) (r : SampleRun) : (wordDone s d r).mem = s.mem := rfl

@[simp] theorem filtered_mem (s : State) (d : Nat) (r : SampleRun) (grammar : Bool) (live : List Nat) :
    (filtered s d r grammar live).mem = s.mem := rfl

theorem sliceRead_wf {s : State} (d : Nat) (r : SampleRun) (a w : Nat) (h : Memory.wf s.mem) : Memory.wf (sliceRead s d r a w).1.mem := by
  unfold sliceRead; grind [samRow_wf]

theorem arriveSampler_wf {s : State} (d : Nat) (h : Memory.wf s.mem) : ArrivalWf (arriveSampler s d) := by
  unfold arriveSampler
  repeat' split
  all_goals grind [ArrivalWf, flushCommits_wf, commitRun_wf, choose_wf, setRun_mem]

@[simp] theorem setTask_mem (s : State) (d n : Nat) (t : Task) : (setTask s d n t).mem = s.mem := rfl
@[simp] theorem modTask_mem (s : State) (d n : Nat) (f : Task → Task) : (modTask s d n f).mem = s.mem := by unfold modTask; split <;> simp

theorem readDesc_wf {s : State} (g : Agent) (a : Nat) (h : Memory.wf s.mem) : Memory.wf (readDesc s g a).1.mem := by
  unfold readDesc; grind [agentRead_wf]

theorem readDescs_wf {s : State} (g : Agent) (as : List Nat) (h : Memory.wf s.mem) : Memory.wf (readDescs s g as).1.mem := by
  induction as generalizing s with
  | nil => exact h
  | cons a as ih =>
    have hd := readDesc_wf g a h
    unfold readDescs
    split
    · exact wf_of_eq_mk ‹_› hd
    · exact wf_of_eq_mk ‹_› hd
    · have hr := ih (wf_of_eq_mk ‹_› hd)
      split
      all_goals exact wf_of_eq_mk ‹_› hr

@[simp] theorem enterLaunch_mem (s : State) (g : Agent) (source cap : Nat) (r : LaunchRec) (addrs : List Nat) (ds : List TaskDesc) :
    (enterLaunch s g source cap r addrs ds).mem = s.mem := rfl

theorem launchDescs_wf {s : State} (g : Agent) (r : LaunchRec) (h : Memory.wf s.mem) : Memory.wf (launchDescs s g r).1.mem := by
  unfold launchDescs; grind [agentRead_wf]

@[simp] theorem setQueueEntry_mem (s : State) (d n : Nat) (q : HwQueue) : (setQueueEntry s d n q).mem = s.mem := rfl

theorem admitLaunch_wf {s : State} (g : Agent) (source cap : Nat) (bs : List Byte) (h : Memory.wf s.mem) :
    AdmissionWf (admitLaunch s g source cap bs) := by
  unfold admitLaunch; dsimp only
  split
  · exact h
  split
  · exact h
  have hl := launchDescs_wf g (launchOf bs) h
  split
  · exact wf_of_eq_mk ‹_› hl
  · exact wf_of_eq_mk ‹_› hl
  have hr := readDescs_wf g ‹List Nat› (wf_of_eq_mk ‹_› hl)
  split
  · exact wf_of_eq_mk ‹_› hr
  · exact wf_of_eq_mk ‹_› hr
  have hq := wf_of_eq_mk ‹readDescs _ _ _ = _› hr
  split
  · exact hq
  · split <;> exact hq

theorem admitHead_wf {s : State} (d n : Nat) (h : Memory.wf s.mem) : AdmissionWf (admitHead s d n) := by
  unfold admitHead
  split
  · exact h
  dsimp only; split
  · exact h
  have hr := fun a k => agentRead_wf (sequencer d (‹HwQueue›).ctx) a k h
  split
  · exact (wf_of_eq_mk ‹agentRead _ _ _ _ = _› (hr ..) :)
  · have ha := admitLaunch_wf (sequencer d (‹HwQueue›).ctx) n 7 ‹List Byte› (wf_of_eq_mk ‹_› (hr ..))
    split
    all_goals rw [‹admitLaunch _ _ _ _ _ = _›] at ha; exact ha

theorem cleanCluster_wf {s : State} (c : Nat) (h : Memory.wf s.mem) : Memory.wf (cleanCluster s c).mem := by
  refine foldl_wf (fun s i hs => ?_) _ h
  rw [modCoreAt_mem]
  exact writeBacks_wf _ hs

theorem fuseFor_wf {s : State} (t : Task) (c : Nat) (h : Memory.wf s.mem) : Memory.wf (fuseFor s t c).mem := by
  unfold fuseFor; grind [cleanCluster_wf, modDie_mem]

theorem stagingCmds_wf {s : State} (ctx id : Nat) (qs : List (Nat × Nat × BitVec 32)) (h : Memory.wf s.mem) :
    Memory.wf (stagingCmds s ctx id qs).1.mem := by
  induction qs generalizing s id with
  | nil => exact h
  | cons q qs ih =>
    have hr := coreRead_wf false 0 q.1 96 h
    unfold stagingCmds
    split
    · exact wf_of_eq_mk ‹_› hr
    · have hq := wf_of_eq_mk ‹_› hr
      dsimp only
      split
      · exact ih _ hq
      · exact ih _ hq

@[simp] theorem dropLeaves_mem (s : State) (c : Nat) : (dropLeaves s c).mem = s.mem := rfl
@[simp] theorem closeTask_mem (s : State) : (closeTask s).mem = s.mem := rfl
@[simp] theorem completeAll_mem (s : State) (ms : List Nat) : (completeAll s ms).mem = s.mem := foldl_mem (fun _ _ => by simp) _ _

@[simp] theorem freeCore_mem (s : State) (n : Nat) (t : Task) : (freeCore s n t).mem = s.mem := by
  unfold freeCore; repeat' split
  all_goals simp

theorem unfuseIdle_wf {s : State} (d id : Nat) (h : Memory.wf s.mem) : Memory.wf (unfuseIdle s d id).mem :=
  foldl_wf (fun s x h => by grind [cleanCluster_wf, modDie_mem]) _ h

theorem launchLess_wf {s : State} (d id k : Nat) (h : Memory.wf s.mem) : Memory.wf (launchLess s d id k).mem := by
  unfold launchLess; grind [unfuseIdle_wf, modDie_mem, postEvent_mem]

@[simp] theorem releaseOne_mem (s : State) (d id k : Nat) : (releaseOne s d id k).mem = s.mem := rfl

theorem taskPosted_wf {s : State} (d n : Nat) (h : Memory.wf s.mem) : Memory.wf (taskPosted s d n).mem := by
  unfold taskPosted; split
  · exact h
  · dsimp only
    split
    · exact launchLess_wf _ _ _ (by simpa using h)
    · refine launchLess_wf _ _ _ ?_
      rw [foldl_mem fun _ _ => releaseOne_mem ..]
      simpa using h

@[simp] theorem faultedMark_mem (s : State) (m : Nat) : (faultedMark s m).mem = s.mem := by simp [faultedMark]

theorem posted_wf {s : State} (d : Nat) (p : Posting) (h : Memory.wf s.mem) : Memory.wf (posted s d p).mem := by
  unfold posted; grind [taskPosted_wf, modDie_mem]

theorem writeRecord_wf {s : State} (d ctx header : Nat) (r : Ring) (words : List Word) (h : Memory.wf s.mem) :
    Memory.wf (writeRecord s d ctx header r words).1.mem := by
  unfold writeRecord; grind [agentCheck_wf, agentWrite_wf]

theorem postOne_wf {s : State} (d : Nat) (p : Posting) (h : Memory.wf s.mem) : Memory.wf (postOne s d p).mem := by
  have hlost {s : State} (hs : Memory.wf s.mem) : Memory.wf (posted (postMgmt s d 8 0 [BitVec.ofNat 64 p.ctx, 0]) d p).mem := posted_wf _ _ hs
  unfold postOne; dsimp only
  split
  · exact posted_wf _ _ h
  have hr := agentRead_wf (sequencer d p.ctx) (‹Context›).ring 64 h
  split
  · exact hlost (wf_of_eq_mk ‹_› hr)
  have hq := wf_of_eq_mk ‹_› hr
  split
  · exact hlost hq
  split
  · split
    · exact hq
    · split
      · simpa using hq
      · exact hq
  · have hw := fun ring r => writeRecord_wf d p.ctx ring r p.words hq
    split
    · exact posted_wf _ _ (wf_of_eq_mk ‹_› (hw ..))
    · exact hlost (wf_of_eq_mk ‹_› (hw ..))

theorem beginWait_wf {s : State} (d : Nat) (p : Posting) (h : Memory.wf s.mem) : Memory.wf (beginWait s d p).mem := by
  unfold beginWait; grind [agentRead_wf, freeCore_mem]

theorem postMgmtOne_wf {s : State} (d : Nat) (p : Posting) (h : Memory.wf s.mem) : Memory.wf (postMgmtOne s d p).mem := by
  unfold postMgmtOne; dsimp only
  repeat' split
  case isFalse.isFalse.isFalse => exact physWrite_wf _ _ (physWrite_wf _ _ h)
  all_goals exact h

@[simp] theorem stripTask_mem (s : State) (m : Nat) : (stripTask s m).mem = s.mem := by
  unfold stripTask; dsimp only
  refine (foldl_mem (fun s i => ?_) _ _).trans rfl
  split <;> simp

@[simp] theorem rollBack_mem (s : State) (m c : Nat) (pc : Option Nat) : (rollBack s m c pc).mem = s.mem := by
  have hstrip (ms : List Nat) : (ms.foldl stripTask s).mem = s.mem := foldl_mem stripTask_mem _ _
  have hready (ms : List Nat) (t : State) : (ms.foldl (fun s x => modTask s (x / 4096) (x % 4096) (readyAgain s.clk)) t).mem = t.mem :=
    foldl_mem (fun _ _ => modTask_mem ..) _ _
  unfold rollBack
  generalize closeMarks (dependents s) 16384 [m] = ms
  dsimp only; repeat' split
  all_goals simp [hstrip, hready]

@[simp] theorem markGranule_mem (s : State) (g : Nat) : (markGranule s g).mem = s.mem := rfl

theorem cleanL1_wf {s : State} (h : Memory.wf s.mem) : Memory.wf (cleanL1 s).mem := by
  have hl : Memory.wf (landFlying s fun _ => true).mem := by simpa using h
  unfold cleanL1; dsimp only; split
  · exact cleanCluster_wf _ hl
  · exact writeBacks_wf _ hl

@[simp] theorem pushedGo_mem (s : State) (ctx : Nat) : (pushedGo s ctx).mem = s.mem := rfl
@[simp] theorem pushedBack_mem (s : State) : (pushedBack s).mem = s.mem := rfl

theorem putAside_wf {s : State} (area : Nat) (h : Memory.wf s.mem) : Memory.wf (putAside s area).mem := by
  unfold putAside; grind [cleanL1_wf, pushedGo_mem, publish_mem, dropLeaves_mem]

theorem fuseAs_wf {s : State} (f : Nat) (h : Memory.wf s.mem) : Memory.wf (fuseAs s f).mem := by
  unfold fuseAs; grind [cleanCluster_wf, modDie_mem]

theorem bringIn_wf {s : State} (inc area f : Nat) (mask : BitVec 8) (h : Memory.wf s.mem) : Memory.wf (bringIn s inc area f mask).mem := by
  have hreplay (l : List Nat) (t : State) : (l.foldl (fun s w => replayFrom s w (2 ^ 64)) t).mem = t.mem := foldl_mem (fun _ _ => replayFrom_mem ..) _ _
  have hf (g : Core → Core) {t : State} (ht : Memory.wf t.mem) : Memory.wf (fuseAs (modCore t g) f).mem := by
    refine fuseAs_wf _ ?_
    rw [modCore_mem]; exact ht
  unfold bringIn
  generalize List.range 256 = l
  extract_lets d out
  split
  · exact h
  split
  · exact hf _ h
  · extract_lets s1 s2 s3 s4 s5
    have h2 : Memory.wf s2.mem := by
      rw [pushedBack_mem]
      exact hf _ h
    have h4 : s4.mem = s2.mem := (modCore_mem ..).trans (hreplay ..)
    have h5 : Memory.wf s5.mem := h4 ▸ h2
    split
    · rw [modTask_mem]; exact h5
    · exact h5

@[simp] theorem finishPreempt_mem (s : State) (d : Nat) : (finishPreempt s d).mem = s.mem := by
  unfold finishPreempt; dsimp only; repeat' split
  all_goals simp

theorem goFatal_wf {s : State} (reason d : Nat) (trigger : List Byte) (h : Memory.wf s.mem) :
    Memory.wf (goFatal s reason d trigger).mem := by
  unfold goFatal; grind [overwrite_wf, postMgmt_mem]

@[simp] theorem countSoft_mem (s : State) (d : Nat) : (countSoft s d).mem = s.mem := rfl

end Sys2Proof.Laws.Canonical
end

section
/-!
PROOFS. Memory in canonical form: the passing of a clk, the management commands, the host, collectives and decoders.
-/
namespace Sys2Proof.Laws.Canonical

open Sys2Proof.Machine

@[simp] theorem meetMarks_mem (s : State) : (meetMarks s).mem = s.mem := by
  unfold meetMarks; dsimp only; split <;> simp

@[simp] theorem meetDieMarks_mem (s : State) (d : Nat) : (meetDieMarks s d).mem = s.mem := by
  unfold meetDieMarks
  extract_lets s1
  have h1 : s1.mem = s.mem := by
    refine foldl_mem (fun s p => ?_) _ _
    repeat' split
    all_goals simp
  split
  · exact h1
  · split
    · rw [endRunWith_mem]; exact h1
    · exact h1

theorem clkEnd_wf (waits : State → Eng → Bool) {s : State} (h : Memory.wf s.mem) : Memory.wf (clkEnd waits s).mem := by
  unfold clkEnd; dsimp only
  rw [decodeSlot_mem]
  exact skipAll_wf (by simpa using h)

@[simp] theorem coreClk_mem (s : State) (held : Bool) (n : Nat) : (coreClk s held n).mem = s.mem := by simp [coreClk]
@[simp] theorem othersStore_mem (s : State) : (othersStore s).mem = s.mem := rfl

theorem passClk_wf (waits : State → Eng → Bool) {s : State} (h : Memory.wf s.mem) : Memory.wf (passClk waits s).mem := by
  have hend (l : List Nat) : Memory.wf (l.foldl (fun s n => clkEnd waits (focus s n)) s).mem :=
    foldl_wf (fun _ _ hs => clkEnd_wf waits (by simpa using hs)) l h
  have hmarks (l : List Nat) (t : State) : (l.foldl meetDieMarks t).mem = t.mem := foldl_mem meetDieMarks_mem l t
  have hclk (l : List Nat) (b : Bool) (t : State) : (l.foldl (fun s n => coreClk s b n) t).mem = t.mem := foldl_mem (fun _ _ => coreClk_mem ..) l t
  have hpre (l : List Nat) (t : State) : (l.foldl finishPreempt t).mem = t.mem := foldl_mem finishPreempt_mem l t
  unfold passClk
  split
  · exact h
  split
  · exact h
  split
  · exact goFatal_wf _ _ _ h
  · extract_lets back s1 s2 held s3 s4
    simpa only [s4, s3, s2, s1, focus_mem, hpre, hclk, hmarks, othersStore_mem, postCrossedOut_mem] using hend _

theorem ownCores_wf {s : State} (d : Nat) (x : Context) (h : Memory.wf s.mem) : Memory.wf (ownCores s d x).mem :=
  foldl_wf (fun s x h => by grind [cleanL1_wf, focus_mem, modCore_mem]) _ h

theorem flushLog_wf {s : State} (ctx c : Nat) (h : Memory.wf s.mem) : Memory.wf (flushLog s ctx c).mem := by
  have hpub : Memory.wf (if (focus s c).core.ctx == some ctx then publish (focus s c) 4 else focus s c).mem := by split <;> simpa using h
  unfold flushLog; dsimp only
  rw [modCore_mem]
  exact foldl_wf (fun s r hs => settleRecord_wf _ _ hs) _ hpub

theorem clearContext_wf {s : State} (d ctx : Nat) (h : Memory.wf s.mem) : Memory.wf (clearContext s d ctx).mem := by
  have hlogs (l : List Nat) : Memory.wf (l.foldl (fun s c => flushLog s ctx c) s).mem := foldl_wf (fun _ _ hs => flushLog_wf _ _ hs) l h
  unfold clearContext
  extract_lets x asn mails cores s1 s2 s3 s4
  have h2 : Memory.wf s2.mem := by
    refine foldl_wf (fun s c hs => ?_) _ (hlogs cores)
    dsimp only
    rw [modCore_mem]
    exact cleanL1_wf (by simpa using hs)
  have h3 : s3.mem = s2.mem := by simp [s3]
  rw [modDie_mem]
  exact h3 ▸ h2

theorem zeroRange_wf {s : State} (a n : Nat) (h : Memory.wf s.mem) : Memory.wf (zeroRange s a n).mem := by
  unfold zeroRange
  extract_lets inR s1 held s2 stack die s3 s4
  have h2 : Memory.wf s2.mem := pokes_wf (s := s1) _ (fun _ _ => ⟨_, _, _, rfl⟩) held h
  have h3 : s3.mem = s2.mem := setMarks_mem ..
  rw [foldl_mem fun _ _ => dropCode_mem ..]
  exact h3 ▸ h2

theorem lentAccess_wf {s : State} (r : LentReq) (h : Memory.wf s.mem) : Memory.wf (lentAccess s r).mem := by
  unfold lentAccess; grind [physWrite_wf, sendFlits_mem]

@[simp] theorem refuseColl_mem (s : State) (d : Nat) (c : Cmd) (f : FaultRec) : (refuseColl s d c f).mem = s.mem := rfl
@[simp] theorem dropColl_mem (s : State) (d : Nat) (x : Collective) : (dropColl s d x).mem = s.mem := rfl
@[simp] theorem failColl_mem (s : State) (d : Nat) (x : Collective) (f : FaultRec) : (failColl s d x f).mem = s.mem := rfl

@[simp] theorem poisonColl_mem (s : State) (d : Nat) (x : Collective) : (poisonColl s d x).mem = s.mem := by
  unfold poisonColl; split <;> simp

theorem collInit_wf {s : State} (g : Agent) (k : CollCmd) (h : Memory.wf s.mem) : Memory.wf (collInit s g k).1.mem := by
  unfold collInit; grind [agentRead_wf, agentWrite_wf]

theorem startColl_wf {s : State} (d : Nat) (c : Cmd) (h : Memory.wf s.mem) : Memory.wf (startColl s d c).mem := by
  unfold startColl; grind [agentRead_wf, collInit_wf, refuseColl_mem, poisonCmd_mem, modDie_mem, setFifo_mem]

theorem sendStep_wf {s : State} (d : Nat) (x : Collective) (h : Memory.wf s.mem) : Memory.wf (sendStep s d x).mem := by
  unfold sendStep; grind [agentRead_wf, modDie_mem, failColl_mem, poisonColl_mem, sendFlits_mem]

@[simp] theorem stepDone_mem (s : State) (d : Nat) (x : Collective) (t : Nat) : (stepDone s d x t).mem = s.mem := rfl

theorem receiveChunk_wf {s : State} (d : Nat) (x : Collective) (data : List Byte) (h : Memory.wf s.mem) :
    Memory.wf (receiveChunk s d x data).mem := by
  unfold receiveChunk; grind [agentWrite_wf, agentRead_wf, failColl_mem, stepDone_mem, countIn_mem, poisonColl_mem]

theorem landFrame_wf {s : State} (g : Agent) (core : Nat) (fs : List MediaFrame) (f : Frame) (q : MediaDesc) (h : Memory.wf s.mem) :
    Memory.wf (landFrame s g core fs f q).1.mem :=
  foldl_fst_wf (fun x a h => by grind [agentWrite_wf, countIn_mem]) _ h

theorem descDone_wf {s : State} (d k : Nat) (x : DecodeRing) (r : MediaRing) (fs : List MediaFrame) (res : Word) (t : Nat)
    (why : optParam (Option FaultRec) none) (h : Memory.wf s.mem) : Memory.wf (descDone s d k x r fs res t why).mem := by
  unfold descDone; grind [agentWrite_wf, modDie_mem, postResult_mem]

@[simp] theorem dropRing_mem (s : State) (d k : Nat) (x : DecodeRing) : (dropRing s d k x).mem = s.mem := rfl

@[simp] theorem poisonRing_mem (s : State) (d k : Nat) (x : DecodeRing) : (poisonRing s d k x).mem = s.mem := by
  unfold poisonRing; split <;> simp

theorem poisonDesc_wf {s : State} (d k : Nat) (x : DecodeRing) (r : MediaRing) (tag : Nat) (h : Memory.wf s.mem) :
    Memory.wf (poisonDesc s d k x r tag).mem := by
  unfold poisonDesc; grind [descDone_wf, poisonTask_mem]

theorem decodeOne_wf {s : State} (d k : Nat) (x : DecodeRing) (r : MediaRing) (desc : List Byte) (h : Memory.wf s.mem) :
    Memory.wf (decodeOne s d k x r desc).mem := by
  unfold decodeOne; grind [descDone_wf, agentRead_wf, poisonDesc_wf, agentCheck_wf, landFrame_wf]

end Sys2Proof.Laws.Canonical
end

section
/-!
PROOFS. Memory in canonical form: the instructions of the engines, by the form in which they issue. A form keeps it where its body does.
-/
namespace Sys2Proof.Laws.Canonical

open Sys2Proof.Machine

/-! ### Issue -/

section
variable {h : Hdr} {len : Nat} {srcs : List Loc} {body : State → Act} {s : State}

theorem issueOut_wf (hb : ∀ p : State, Memory.wf p.mem → ActWf (body p)) (hs : Memory.wf s.mem) : OutWf (issueOut h len srcs body s) :=
  issue_wf hb hs

theorem issueLease_wf (hb : ∀ p : State, Memory.wf p.mem → ActWf (body p)) (hs : Memory.wf s.mem) :
    OutWf (issueLease h len srcs body s) := by
  unfold issueLease; split
  · exact issueOut_wf hb hs
  · split
    · exact hs
    · simpa using hs

end

theorem issueS_wf {i : Instr} {inMiss inLeave : Bool} {body : State → Engine → State} {s : State}
    (hb : ∀ x : Engine, Memory.wf (body s x).mem) (hs : Memory.wf s.mem) : OutWf (issueS i inMiss inLeave body s) := by
  unfold issueS; dsimp only
  repeat' split
  all_goals grind [OutWf, takeTrap_mem, modEng_mem]

theorem issueIllegal_wf {e : Eng} {i : Instr} {s : State} (hs : Memory.wf s.mem) : OutWf (issueIllegal e i s) := by
  unfold issueIllegal; dsimp only
  split
  · exact hs
  split
  · simpa using hs
  · simpa using hs

/-- A wait that leaves memory alone, as all but the spill of an atomic's checks do. -/
theorem actWf_wait {eff : State → State} (h : ∀ s : State, (eff s).mem = s.mem) : ActWf (.wait eff) := fun s hs => (h s).symm ▸ hs

@[simp] theorem actWf_nothing : ActWf (.wait nothing) := actWf_wait nothing_mem
@[simp] theorem actWf_askWalk (v : Nat) (want : Want) : ActWf (.wait (askWalk v want)) := actWf_wait (askWalk_mem v want)
@[simp] theorem actWf_spill : ActWf (.wait spill) := actWf_wait spill_mem
@[simp] theorem actWf_trap (f : FaultRec) : ActWf (.trap f) := trivial
@[simp] theorem actWf_poison (v : Word) : ActWf (.poison v) := trivial

theorem withBase_wf {p : State} {b : Base} {k : Word → Act} (hk : ∀ v : Word, ActWf (k v)) : ActWf (withBase p b k) := by
  unfold withBase
  split
  · simp
  split
  · simp
  split
  · simp
  · exact hk _

/-! ### Scalar and control -/

section
variable {h : Hdr} {len : Nat} {d : Reg} {srcs : List Loc} {val : State → Word} {s : State}

theorem scalarNow_wf (hs : Memory.wf s.mem) : OutWf (scalarNow h len d srcs val s) :=
  issueOut_wf (fun p hp => by simpa [ActWf] using hp) hs

theorem scalarMul_wf (hs : Memory.wf s.mem) : OutWf (scalarMul h len d srcs val s) :=
  issueOut_wf (fun p hp => by simpa [ActWf] using hp) hs

theorem scalarDiv_wf {sig : State → Nat} (hs : Memory.wf s.mem) : OutWf (scalarDiv h len d srcs sig val s) :=
  issueOut_wf (fun p hp => by
    split
    · simp
    · simpa [ActWf] using hp) hs

end

theorem moveBody_wf {h : Hdr} {d a : Reg} {m : BitVec 4} {p : State} (hp : Memory.wf p.mem) : ActWf (moveBody h d a m p) := by
  unfold moveBody
  repeat' split
  all_goals grind [ActWf, putG_mem, modEng_mem, modCore_mem]

theorem decided_wf {s : State} {x : Engine} {dec : Eng} {srcs : List Loc} {eval : State → Except FaultRec (Bool × Nat)}
    {next : State → Bool → Nat → State} (hn : ∀ (t : State) b n, Memory.wf t.mem → Memory.wf (next t b n).mem) (hs : Memory.wf s.mem) :
    Memory.wf (decided s x dec srcs eval next).mem := by
  unfold decided
  repeat' split
  all_goals grind [consumePoison_mem, takeTrap_mem, modCore_mem]

theorem branch_wf {i : Instr} {h : SHdr} {b a : Reg} {dec : Eng} {lv : Bool} {t : Imm} {test : Word → Word → Bool} {s : State}
    (hs : Memory.wf s.mem) : OutWf (branch i h b a dec lv t test s) := by
  unfold branch; dsimp only
  split
  · split
    · simpa using hs
    · exact hs
  · refine issueS_wf (fun x => ?_) hs
    split
    · repeat' split
      all_goals simpa using hs
    · exact decided_wf (fun t b n ht => by simpa using ht) hs

theorem syncD_wf {i : Instr} {h : SHdr} {len : Nat} {mask : BitVec 8} {s : State} (hs : Memory.wf s.mem) :
    OutWf (syncD i h len mask s) := by
  refine issueS_wf (fun x => ?_) hs
  dsimp only
  repeat' split
  all_goals simpa using hs

theorem moveForm_wf {h : Hdr} {d : MOp} {b : Base} {t : Ty} {x : SegSrc} {store : Bool} {s : State} (hs : Memory.wf s.mem) :
    OutWf (moveForm h d b t x store s) := by
  refine issueOut_wf (fun p hp => withBase_wf fun v => ?_) hs
  dsimp only
  repeat' split
  all_goals grind [ActWf, movePort_mem, actWf_nothing]

/-! ### Memory -/

theorem ldBody_wf {h : Hdr} {d : Reg} {t : Ty} {v : Nat} {p : State} (hp : Memory.wf p.mem) : ActWf (ldBody h d t v p) := by
  have hl := fun e pa => loadBytes_wf (s := touchTlb p e) e pa (typeBytes t) (by simpa using hp)
  unfold ldBody; dsimp only
  repeat' split
  case h_2.isFalse => simpa [ActWf] using hl ..
  all_goals simp

theorem stBody_wf {d : Reg} {t : Ty} {v : Nat} {p : State} (hp : Memory.wf p.mem) : ActWf (stBody d t v p) := by
  unfold stBody; dsimp only
  repeat' split
  all_goals grind [ActWf, storeBytes_wf, touchTlb_mem, actWf_nothing, actWf_askWalk, actWf_spill]

theorem probeMiss_wf {h : Hdr} {d : Reg} {x : Src2} {w : Word} {v e : Nat} {t : TlbEntry} {pa : Nat} {p : State} (hp : Memory.wf p.mem) :
    ActWf (probeMiss h d x w v e t pa p) := by
  unfold probeMiss; dsimp only
  split
  all_goals simpa [ActWf] using hp

theorem probeBody_wf {h : Hdr} {d : Reg} {x : Src2} {v : Nat} {p : State} (hp : Memory.wf p.mem) : ActWf (probeBody h d x v p) := by
  unfold probeBody; dsimp only
  repeat' split
  all_goals grind [ActWf, putG_mem, modCore_mem, touchTlb_mem, probeMiss_wf, actWf_nothing, actWf_askWalk]

theorem atomicBody_wf {op : AOp} {h : Hdr} {sc : Scope} {d : Option Reg} {t : Ty} {x : Src2} {v : Nat} {p : State} (hp : Memory.wf p.mem) :
    ActWf (atomicBody op h sc d t x v p) := by
  have ha {e pa f r} (hr : atomicAt (touchTlb p e) e sc pa (typeBytes t) f = some r) : Memory.wf r.1.mem := atomicAt_wf hr (by simpa using hp)
  unfold atomicBody; dsimp only
  repeat' split
  all_goals grind [ActWf, modCore_mem, askSlice_wf, actWf_nothing, actWf_askWalk, actWf_spill]

theorem loadForm_wf {h : Hdr} {d : Reg} {b : Base} {t : Ty} {x : Src2} {s : State} (hs : Memory.wf s.mem) : OutWf (loadForm h d b t x s) :=
  issueOut_wf (fun _ hp => withBase_wf fun _ => ldBody_wf hp) hs

theorem storeForm_wf {h : Hdr} {d : Reg} {b : Base} {t : Ty} {x : Src2} {s : State} (hs : Memory.wf s.mem) :
    OutWf (storeForm h d b t x s) :=
  
  issueOut_wf (fun _ hp => withBase_wf fun _ => stBody_wf hp) hs

theorem atomicForm_wf {op : AOp} {h : Hdr} {sc : Scope} {d : Option Reg} {a : Reg} {t : Ty} {x : Src2} {s : State} (hs : Memory.wf s.mem) :
    OutWf (atomicForm op h sc d a t x s) := issueOut_wf (fun _ hp => atomicBody_wf hp) hs

theorem withLost_wf {sc : Nat} {p : State} {k : State → Act} (hp : Memory.wf p.mem) (hk : ActWf (k p)) : ActWf (withLost sc p k) := by
  unfold withLost; split
  · exact hp
  · exact hk

section
variable {sc : Scope} {h : Hdr} {len : Nat} {s : State}

theorem relForm_wf (hs : Memory.wf s.mem) : OutWf (relForm sc h len s) := by
  refine issueOut_wf (fun p hp => ?_) hs
  split
  · simp
  · exact withLost_wf hp (by simpa [ActWf] using hp)

theorem fenceForm_wf (hs : Memory.wf s.mem) : OutWf (fenceForm sc h len s) := by
  refine issueOut_wf (fun p hp => ?_) hs
  split
  · simp
  · exact withLost_wf hp (by simpa [ActWf] using hp)

theorem settleForm_wf {code : Bool} (hs : Memory.wf s.mem) : OutWf (settleForm h code len s) := by
  refine issueOut_wf (fun p hp => ?_) hs
  split
  · simp
  · simpa [ActWf] using hp

theorem acqForm_wf {a : Reg} (hs : Memory.wf s.mem) : OutWf (acqForm sc h a len s) := by
  refine issueOut_wf (fun p hp => ?_) hs
  dsimp only; split
  · simp
  · split
    · simp
    · exact acquire_wf _ _ hp

end

theorem rowForm_wf {kind : Nat} {h : Hdr} {a : Reg} {x : Src2} {s : State} (hs : Memory.wf s.mem) : OutWf (rowForm kind h a x s) := by
  refine issueOut_wf (fun p hp => ?_) hs
  unfold rowBody; dsimp only
  repeat' split
  case isTrue => exact hp
  case h_2.isFalse =>
    rw [ActWf, foldl_mem fun _ _ => sendRowOp_mem ..]
    simpa using hp
  all_goals simp

/-! ### FIFOs, vectors, copies, the weight-code queue, leases -/

theorem pushBody_wf {h : Hdr} {d : Option Reg} {a : Reg} {x : Src2} {p : State} (hp : Memory.wf p.mem) : ActWf (pushBody h d a x p) := by
  unfold pushBody; dsimp only
  repeat' split
  all_goals grind [ActWf, putG_mem, pushCmd_mem, publish_mem, touchTlb_mem, actWf_nothing, actWf_askWalk]

theorem popTaken_wf {h : Hdr} {d : Reg} {st : Option Reg} {x : Res} {p : State} (hp : Memory.wf p.mem) : ActWf (popTaken h d st x p) := by
  unfold popTaken; dsimp only
  repeat' split
  all_goals simpa [ActWf] using hp

theorem popBody_wf {h : Hdr} {d : Reg} {x : Src2} {st : Option Reg} {p : State} (hp : Memory.wf p.mem) : ActWf (popBody h d x st p) := by
  have ht {t d k r} (e : takeElement (touchTlb p t) d k = some r) : Memory.wf r.2.mem := by rw [takeElement_mem e]; simpa using hp
  unfold popBody; dsimp only
  repeat' split
  all_goals grind [ActWf, putG_mem, popTaken_wf, actWf_nothing, actWf_askWalk]

theorem vecLand_wf {h : Hdr} {lat : Nat} {xs : List VecCell} {p : State} (hp : Memory.wf p.mem) : ActWf (vecLand h lat xs p) := by
  simpa [vecLand, ActWf] using hp

theorem vecOut_wf {h : Hdr} {len lat : Nat} {cells : List Nat} {regs : List Loc} {val : State → List VecCell} {s : State}
    (hs : Memory.wf s.mem) : OutWf (vecOut h len lat cells regs val s) := issueOut_wf (fun _ hp => vecLand_wf hp) hs

theorem vecMove_wf {h : Hdr} {len lat : Nat} {cells : List Nat} {regs : List Loc} {val : State → List VecCell} {s : State}
    (hs : Memory.wf s.mem) : OutWf (vecMove h len lat cells regs val s) := by
  refine issueOut_wf (fun p hp => ?_) hs
  split
  · simp
  · exact vecLand_wf hp

theorem copyBody_wf {h : Hdr} {a : Reg} {x : Src2} {near : Nat} {p : State} (hp : Memory.wf p.mem) : ActWf (copyBody h a x near p) := by
  unfold copyBody; dsimp only; split
  · simp
  · simpa [ActWf] using hp

theorem queueW_wf {h : Hdr} {p : State} {op : WOp} (hp : Memory.wf p.mem) : ActWf (queueW h p op) := by
  unfold queueW; split
  · simp
  · simpa [ActWf] using hp

theorem leaseForm_wf {op : LeaseOp} {h : Hdr} {a : Reg} {x : Src2} {s : State} (hs : Memory.wf s.mem) : OutWf (leaseForm op h a x s) := by
  refine issueLease_wf (fun p hp => ?_) hs
  dsimp only
  repeat' split
  case isFalse.isFalse.isFalse.isFalse => simpa [ActWf] using hp
  all_goals simp

end Sys2Proof.Laws.Canonical
end

section
/-!
PROOFS. Memory in canonical form: directives, words of logit programs, the commands of the sampler, the grammar engine and the
management processor, by the form in which they are taken up.
-/
namespace Sys2Proof.Laws.Canonical

open Sys2Proof.Machine

section
variable {s : State}

theorem onStream_wf {f : StreamCall → State} (hf : ∀ k : StreamCall, Memory.wf (f k).mem) (h : Memory.wf s.mem) : OutWf (onStream s f) := by
  unfold onStream
  split
  · exact h
  · split
    · exact hf _
    · exact h

theorem onRun_wf {f : Nat → SampleRun → State} (hf : ∀ d r, Memory.wf (f d r).mem) (h : Memory.wf s.mem) : OutWf (onRun s f) := by
  unfold onRun; dsimp only
  split
  · exact h
  · split
    · exact h
    · exact hf _ _

theorem usingMarks_wf {d : Nat} {r : SampleRun} {marks : List Nat} {go : SampleRun → State} {uses : Nat → Bool}
    (hgo : ∀ r, Memory.wf (go r).mem) (h : Memory.wf s.mem) : Memory.wf (usingMarks s d r marks go uses).mem := by
  unfold usingMarks
  split
  · simpa using h
  · exact hgo _

theorem onX_wf {marks : SampleRun → List Nat} {f : SampleRun → Nat → Nat → Nat} {uses : SampleRun → Nat → Bool} (h : Memory.wf s.mem) :
    OutWf (onX s marks f uses) := onRun_wf (fun _ _ => usingMarks_wf (fun _ => by simpa using h) h) h

theorem filterBy_wf {keep : SampleRun → List Nat} (h : Memory.wf s.mem) : OutWf (filterBy s keep) :=
  onRun_wf (fun _ _ => usingMarks_wf (fun _ => by simpa using h) h) h

theorem withTable_wf {f : Nat → SampleRun → SeqSlot → State} (hf : ∀ d r x, Memory.wf (f d r x).mem) (h : Memory.wf s.mem) :
    OutWf (withTable s f) := by
  refine onRun_wf (fun d r => ?_) h
  split
  · simpa using h
  · exact hf _ _ _

theorem skipWhen_wf {n : BitVec 16} {p : SampleRun → Bool} (h : Memory.wf s.mem) : OutWf (skipWhen s n p) :=
  onRun_wf (fun _ _ => by simpa using h) h

theorem command_wf {code : Nat} {body : Nat → List Word → State} (hb : ∀ d ws, Memory.wf (body d ws).mem) (h : Memory.wf s.mem) :
    OutWf (command s code body) := by
  unfold command; dsimp only
  split
  · exact hb _ _
  · exact h

theorem grammarCommand_wf {mine : Nat → Bool} {body : State → Nat → Cmd → SeqSlot → State} (hb : ∀ d c x, Memory.wf (body s d c x).mem)
    (h : Memory.wf s.mem) : OutWf (grammarCommand s mine body) := by
  unfold grammarCommand; dsimp only
  split
  · exact h
  · split
    · exact h
    split
    · simpa using h
    split
    · simpa using h
    · exact hb _ _ _

theorem slotCommand_wf {k : Nat} {ok : Cmd → Bool} {body : State → Nat → Cmd → SeqSlot → State}
    (hb : ∀ (t : State) d c x, Memory.wf t.mem → Memory.wf (body t d c x).mem) (h : Memory.wf s.mem) : OutWf (slotCommand s k ok body) := by
  have hrefuse (d : Nat) (c : Cmd) (n : Nat) (b : Bool) :
      Memory.wf (if b then endCommit s d c none (bad n) else endStatus s d c 0 (some (bad n))).mem := by
    split
    · exact endCommit_wf _ _ _ _ h
    · exact endStatus_wf _ _ _ _ h
  unfold slotCommand; dsimp only
  split
  · exact h
  split
  · exact h
  split
  · exact hrefuse ..
  split
  · exact hrefuse ..
  · exact hb _ _ _ _ (by simpa using h)

theorem sampleEvent_wf {stage2 : Bool} {body : State → Nat → Cmd → SeqSlot → State}
    (hb : ∀ (t : State) d c x, Memory.wf t.mem → Memory.wf (body t d c x).mem) (h : Memory.wf s.mem) : OutWf (sampleEvent stage2 s body) := by
  unfold sampleEvent
  split
  · exact h
  · split
    · exact h
    · exact slotCommand_wf hb h

theorem walkCommand_wf {mine : Nat → Bool} {p : Word → Word → Nat → Nat → Nat → Bool} (h : Memory.wf s.mem) :
    OutWf (walkCommand s mine p) := by
  unfold walkCommand; dsimp only
  repeat' split
  all_goals simpa using h

theorem collEvent_wf {kinds : Nat → Bool} (h : Memory.wf s.mem) : OutWf (collEvent kinds s) := by
  unfold collEvent; dsimp only
  repeat' split
  all_goals grind [OutWf, poisonColl_mem, sendStep_wf, startColl_wf]

end


/-! ### Registers, results, orderings and records -/

theorem execEvManagementRegisterWrite_wf {s : State} (h : Memory.wf s.mem) : OutWf (execEvManagementRegisterWrite s) := by
  simpa [execEvManagementRegisterWrite] using h

theorem execEvDoorbell_wf {s : State} (h : Memory.wf s.mem) : OutWf (execEvDoorbell s) := by simpa [execEvDoorbell] using h

theorem execEvPrcfgWrite_wf {s : State} (h : Memory.wf s.mem) : OutWf (execEvPrcfgWrite s) := by
  unfold execEvPrcfgWrite; dsimp only
  repeat' split
  all_goals simpa using h

theorem execEvResultWrite_wf {s : State} (h : Memory.wf s.mem) : OutWf (execEvResultWrite s) := by
  unfold execEvResultWrite; dsimp only
  refine foldl_wf (fun t l ht => landDue_wf l ht) _ (foldl_wf (fun t l ht => landDue_wf l ht) _ ?_)
  simpa using h

theorem execEvLdReturn_wf {s : State} (h : Memory.wf s.mem) : OutWf (execEvLdReturn s) := by
  unfold execEvLdReturn; dsimp only
  split <;> simpa using h

theorem execEvOrderingComplete_wf {s : State} (h : Memory.wf s.mem) : OutWf (execEvOrderingComplete s) := by
  unfold execEvOrderingComplete; dsimp only
  split
  · simpa using h
  split
  · simpa using h
  · exact finishOrdering_wf _ (by simpa using h)

theorem execEvRecordSettle_wf {s : State} (h : Memory.wf s.mem) : OutWf (execEvRecordSettle s) := by
  unfold execEvRecordSettle
  grind [OutWf, settleRecord_wf, focus_mem, modCore_mem]

/-! ### Row operations, refresh and scrubbing -/

theorem execEvPromotion_wf {s : State} (h : Memory.wf s.mem) : OutWf (execEvPromotion s) := by simpa [execEvPromotion] using h
theorem execEvDemotion_wf {s : State} (h : Memory.wf s.mem) : OutWf (execEvDemotion s) := by simpa [execEvDemotion] using h

theorem execEvRowOperationsDone_wf {s : State} (h : Memory.wf s.mem) : OutWf (execEvRowOperationsDone s) := by
  unfold execEvRowOperationsDone; dsimp only
  split <;> simpa using h

theorem execEvRefresh_wf {s : State} (h : Memory.wf s.mem) : OutWf (execEvRefresh s) := by simpa [execEvRefresh] using h
theorem execEvHeartbeat_wf {s : State} (h : Memory.wf s.mem) : OutWf (execEvHeartbeat s) := by simpa [execEvHeartbeat] using h

theorem execEvHeartbeatMissed_wf {s : State} (h : Memory.wf s.mem) : OutWf (execEvHeartbeatMissed s) := by
  simpa [execEvHeartbeatMissed] using h

theorem execEvFallbackRefresh_wf {s : State} (h : Memory.wf s.mem) : OutWf (execEvFallbackRefresh s) := by
  unfold execEvFallbackRefresh; dsimp only
  repeat' split
  all_goals simpa using h

theorem execEvRefreshHandback_wf {s : State} (h : Memory.wf s.mem) : OutWf (execEvRefreshHandback s) := by
  unfold execEvRefreshHandback; dsimp only
  split <;> simpa using h

theorem execEvScrub_wf {s : State} (h : Memory.wf s.mem) : OutWf (execEvScrub s) := by
  unfold execEvScrub
  grind [OutWf, dramError_wf, modStack_mem, postMgmt_mem]

/-! ### Traps, code, slices and translation -/

theorem execEvTrapEntry_wf {s : State} (h : Memory.wf s.mem) : OutWf (execEvTrapEntry s) := by
  unfold execEvTrapEntry; dsimp only
  split
  · simpa using h
  · simpa using h
  split
  · simpa using h
  · rw [outWf_next, takeTrap_mem, modEng_mem]
    exact skipAll_wf (by simpa using h)

theorem execEvModeCrossing_wf {s : State} (h : Memory.wf s.mem) : OutWf (execEvModeCrossing s) := by
  unfold execEvModeCrossing; dsimp only
  split <;> simpa using h

theorem execEvCodeFetchArrival_wf {s : State} (h : Memory.wf s.mem) : OutWf (execEvCodeFetchArrival s) := by
  unfold execEvCodeFetchArrival
  grind [OutWf, fillSector_wf, fillBuffer_wf, focus_mem, modCore_mem]

theorem execEvL2Request_wf {s : State} (h : Memory.wf s.mem) : OutWf (execEvL2Request s) := by
  unfold execEvL2Request; dsimp only
  repeat' split
  all_goals simpa using h

theorem execEvLineFill_wf {s : State} (h : Memory.wf s.mem) : OutWf (execEvLineFill s) := by
  unfold execEvLineFill
  grind [OutWf, l2Allocate_wf, reportError_mem, setSlice_mem]

theorem execEvFilterClear_wf {s : State} (h : Memory.wf s.mem) : OutWf (execEvFilterClear s) := by
  unfold execEvFilterClear; dsimp only
  split <;> simpa using h

theorem execEvPageWalk_wf {s : State} (h : Memory.wf s.mem) : OutWf (execEvPageWalk s) := by
  unfold execEvPageWalk; dsimp only
  split
  · exact h
  next q _ =>
    have hread := readWords_wf s.arg.die.toNat q.root (q.granule * 65536) q.asks h
    split
    · rw [outWf_next, foldl_mem (poisonAsk_mem q.granule)]
      exact hread
    · simpa using hread

theorem execEvInvalidatePages_wf {s : State} (h : Memory.wf s.mem) : OutWf (execEvInvalidatePages s) := by
  unfold execEvInvalidatePages; dsimp only
  repeat' split
  all_goals simpa using h

theorem execEvInvalidateAll_wf {s : State} (h : Memory.wf s.mem) : OutWf (execEvInvalidateAll s) := by
  unfold execEvInvalidateAll; dsimp only
  repeat' split
  all_goals simpa using h

theorem execEvMigrate_wf {s : State} (h : Memory.wf s.mem) : OutWf (execEvMigrate s) := by
  unfold execEvMigrate
  repeat' split
  all_goals grind [OutWf, migrateLeaf_wf, migrateSwitch_wf, migrateOrphan_mem, answer_mem, poisonCmd_mem, setMigration_mem, migrateEnd_mem, migrateMapped_mem, modDie_mem]

theorem execEvReleaseOldFrame_wf {s : State} (h : Memory.wf s.mem) : OutWf (execEvReleaseOldFrame s) := by
  unfold execEvReleaseOldFrame; extract_lets d
  split
  · exact h
  · extract_lets old size
    split
    · exact h
    split
    · simpa using h
    split
    · exact h
    · rw [outWf_next, answer_mem, foldl_mem (fun s e => modDie_mem s e _), renameRecords_mem]
      exact h

/-! ### Copies, fills and weight commands -/

theorem execEvCopyCommand_wf {s : State} (h : Memory.wf s.mem) : OutWf (execEvCopyCommand s) := by
  unfold execEvCopyCommand; dsimp only
  repeat' split
  all_goals simpa using h

theorem execEvCopyTransfer_wf {s : State} (h : Memory.wf s.mem) : OutWf (execEvCopyTransfer s) := by
  unfold execEvCopyTransfer
  grind [OutWf, lookAhead_wf, storeLine_wf, moveElems_wf, focus_mem, modCore_mem]

theorem execEvCopyComplete_wf {s : State} (h : Memory.wf s.mem) : OutWf (execEvCopyComplete s) := by
  unfold execEvCopyComplete; dsimp only
  repeat' split
  all_goals simpa using h

theorem execEvProbeFill_wf {s : State} (h : Memory.wf s.mem) : OutWf (execEvProbeFill s) := by
  unfold execEvProbeFill; dsimp only
  split
  · split
    · split <;> simpa using h
    · simpa using h
  · split
    · simpa using h
    · rw [outWf_next, modCore_mem]
      exact foldl_wf (fun t b ht => nearPut_wf _ _ _ _ _ _ _ ht) _ (readMarked_wf _ _ _ _ _ (by simpa using h))

theorem execEvFillDone_wf {s : State} (h : Memory.wf s.mem) : OutWf (execEvFillDone s) := by
  unfold execEvFillDone; dsimp only
  repeat' split
  all_goals simpa using h

theorem execEvStripeApply_wf {s : State} (h : Memory.wf s.mem) : OutWf (execEvStripeApply s) := by
  unfold execEvStripeApply; dsimp only
  repeat' split
  all_goals simpa using h

theorem execEvZeroApply_wf {s : State} (h : Memory.wf s.mem) : OutWf (execEvZeroApply s) := by
  unfold execEvZeroApply; dsimp only
  split
  · simpa using h
  · split
    · rw [outWf_next, modCore_mem]
      simpa using h
    all_goals simpa using h

theorem execEvSlackApply_wf {s : State} (h : Memory.wf s.mem) : OutWf (execEvSlackApply s) := by
  unfold execEvSlackApply; dsimp only
  repeat' split
  all_goals simpa using h

theorem execEvCallRun_wf {s : State} (h : Memory.wf s.mem) : OutWf (execEvCallRun s) := by
  unfold execEvCallRun
  grind [OutWf, readMatrix_wf, focus_mem, modCore_mem]

theorem execEvSegmentStart_wf {s : State} (h : Memory.wf s.mem) : OutWf (execEvSegmentStart s) := by
  unfold execEvSegmentStart
  grind [OutWf, readReturns_wf, segmentNow_wf, focus_mem, streamFault_mem, streamPoison_mem, setPos_mem]

/-! ### Stream instructions -/

theorem execWprep_wf {w : BitVec 16} {col : BitVec 6} {q : BitVec 4} {s : State} (h : Memory.wf s.mem) : OutWf (execWprep w col q s) := by
  refine onStream_wf (fun k => ?_) h
  grind [touchNear_wf, streamFault_mem, streamPoison_mem, directiveDone_mem, modCore_mem]

theorem execWprepa_wf {w : BitVec 16} {row : BitVec 6} {q : BitVec 4} {s : State} (h : Memory.wf s.mem) : OutWf (execWprepa w row q s) := by
  refine onStream_wf (fun k => ?_) h; dsimp only
  split <;> simpa using h

theorem execWsum_wf {ny : Bool} {nx : Bool} {y : BitVec 5} {x : BitVec 5} {q : BitVec 4} {s : State} (h : Memory.wf s.mem) :
    OutWf (execWsum ny nx y x q s) := by
  refine onStream_wf (fun k => ?_) h
  split <;> simpa using h

theorem execWacc_wf {x : BitVec 5} {f : BitVec 8} {s : State} (h : Memory.wf s.mem) : OutWf (execWacc x f s) := by
  refine onStream_wf (fun k => ?_) h
  simpa using h

theorem execWnacc_wf {x : BitVec 5} {f : BitVec 8} {s : State} (h : Memory.wf s.mem) : OutWf (execWnacc x f s) := by
  refine onStream_wf (fun k => ?_) h
  simpa using h

theorem execWmap_wf {x : BitVec 5} {m : BitVec 8} {f : BitVec 8} {lit : BitVec 32} {s : State} (h : Memory.wf s.mem) :
    OutWf (execWmap x m f lit s) := by
  refine onStream_wf (fun k => ?_) h
  simpa using h

theorem execWjmp_wf {j : BitVec 26} {s : State} (h : Memory.wf s.mem) : OutWf (execWjmp j s) := by
  refine onStream_wf (fun k => ?_) h
  simpa using h

theorem execWend_wf {s : State} (h : Memory.wf s.mem) : OutWf (execWend s) := by
  refine onStream_wf (fun k => ?_) h
  repeat' split
  all_goals simpa using h

theorem execWhook_wf {i : BitVec 8} {s : State} (h : Memory.wf s.mem) : OutWf (execWhook i s) := by
  refine onStream_wf (fun k => ?_) h
  grind [coreRead_wf, streamFault_mem, modCore_mem]

/-! ### Leases and the array -/

theorem execEvStarvedClk_wf {s : State} (h : Memory.wf s.mem) : OutWf (execEvStarvedClk s) := by
  unfold execEvStarvedClk; dsimp only
  repeat' split
  all_goals simpa using h

theorem execEvProbeLag_wf {s : State} (h : Memory.wf s.mem) : OutWf (execEvProbeLag s) := by
  unfold execEvProbeLag; dsimp only
  repeat' split
  all_goals simpa using h

theorem execEvLeaveGrant_wf {s : State} (h : Memory.wf s.mem) : OutWf (execEvLeaveGrant s) := by
  unfold execEvLeaveGrant
  repeat' split
  all_goals simpa using h

theorem execEvRunGrant_wf {s : State} (h : Memory.wf s.mem) : OutWf (execEvRunGrant s) := by
  unfold execEvRunGrant; dsimp only
  repeat' split
  all_goals simpa using h

theorem execEvRunLimit_wf {s : State} (h : Memory.wf s.mem) : OutWf (execEvRunLimit s) := by
  unfold execEvRunLimit; dsimp only
  repeat' split
  all_goals simpa using h

theorem execEvTileLineArrival_wf {s : State} (h : Memory.wf s.mem) : OutWf (execEvTileLineArrival s) := by
  unfold execEvTileLineArrival
  grind [OutWf, fetchLine_wf, focus_mem, releasePins_mem, setArray_mem]

theorem execEvGroupStart_wf {s : State} (h : Memory.wf s.mem) : OutWf (execEvGroupStart s) := by
  unfold execEvGroupStart; dsimp only
  split
  · exact h
  next k _ =>
    have hfocus : Memory.wf (focus s (clusterCore s k)).mem := by simpa using h
    split
    · exact hfocus
    next q qs _ =>
      have hrun := runGroup_wf q hfocus
      split
      · exact hfocus
      split
      · exact hfocus
      · split <;> rename_i e <;> rw [e] at hrun <;> simpa [GroupEndWf] using hrun

theorem execEvLeaseCommandComplete_wf {s : State} (h : Memory.wf s.mem) : OutWf (execEvLeaseCommandComplete s) := by
  unfold execEvLeaseCommandComplete; dsimp only
  repeat' split
  all_goals simpa using h

/-! ### Weight compilation and grammars -/

theorem execEvCompile_wf {s : State} (h : Memory.wf s.mem) : OutWf (execEvCompile s) := by
  unfold execEvCompile
  grind [OutWf, allCode_wf, goleusWrite_wf, goleusRefuse_mem, poisonCmd_mem]

theorem execEvPatch_wf {s : State} (h : Memory.wf s.mem) : OutWf (execEvPatch s) := by
  unfold execEvPatch; dsimp only
  repeat' split
  all_goals grind [OutWf, agentRead_wf, segCode_wf, goleusWrite_wf, goleusRefuse_mem, poisonCmd_mem]

theorem execEvGrammarBind_wf {s : State} (h : Memory.wf s.mem) : OutWf (execEvGrammarBind s) := by
  refine grammarCommand_wf (fun d c x => ?_) h
  grind [readGram_wf, endGrammar_mem, setSeq_mem]

theorem execEvUnbind_wf {s : State} (h : Memory.wf s.mem) : OutWf (execEvUnbind s) := by
  refine grammarCommand_wf (fun d c x => ?_) h
  simpa using h

theorem execEvQuery_wf {s : State} (h : Memory.wf s.mem) : OutWf (execEvQuery s) := by
  refine grammarCommand_wf (fun d c x => ?_) h
  grind [permittedBy_wf, endGrammar_mem]

theorem execEvInvalidate_wf {s : State} (h : Memory.wf s.mem) : OutWf (execEvInvalidate s) := by
  unfold execEvInvalidate; dsimp only
  repeat' split
  all_goals simpa using h

/-! ### The sampler and its logit programs -/

theorem execEvOpen_wf {s : State} (h : Memory.wf s.mem) : OutWf (execEvOpen s) := by
  unfold execEvOpen; dsimp only
  repeat' split
  all_goals grind [OutWf, endStatus_wf, samRead_wf, readProgram_wf, makeWay_mem, setSeq_mem]

theorem execEvBind_wf {s : State} (h : Memory.wf s.mem) : OutWf (execEvBind s) := by
  refine slotCommand_wf (fun t d c x ht => ?_) h
  grind [readProgram_wf, endStatus_wf, setSeq_mem]

theorem execEvClose_wf {s : State} (h : Memory.wf s.mem) : OutWf (execEvClose s) := by
  refine slotCommand_wf (fun t d c x ht => ?_) h
  grind [endStatus_wf, modDie_mem]

theorem execEvSample_wf {s : State} (h : Memory.wf s.mem) : OutWf (execEvSample s) := by
  refine sampleEvent_wf (fun t d c x ht => ?_) h
  grind [endCommit_wf, startSample_wf]

theorem execEvSampleStage2_wf {s : State} (h : Memory.wf s.mem) : OutWf (execEvSampleStage2 s) := by
  refine sampleEvent_wf (fun t d c x ht => ?_) h
  grind [endCommit_wf, startSample_wf, setSeq_mem]

theorem execEvVerify_wf {s : State} (h : Memory.wf s.mem) : OutWf (execEvVerify s) := by
  refine slotCommand_wf (fun t d c x ht => ?_) h
  grind [endCommit_wf, samRead_wf, walkTree_wf]

theorem execEvNote_wf {s : State} (h : Memory.wf s.mem) : OutWf (execEvNote s) := by
  refine slotCommand_wf (fun t d c x ht => ?_) h; dsimp only
  repeat' split
  all_goals grind [slotCommand_wf, endCommit_wf, samRead_wf, noteTokens_wf, commitTokens_wf]

theorem execEvCluster_wf {s : State} (h : Memory.wf s.mem) : OutWf (execEvCluster s) := by
  refine slotCommand_wf (fun t d c x ht => ?_) h
  repeat' split
  all_goals grind [slotCommand_wf, endStatus_wf, samRead_wf, permittedBy_wf, setSeq_mem]

theorem execLwLdc_wf {s : State} (h : Memory.wf s.mem) : OutWf (execLwLdc s) := by
  refine withTable_wf (fun d r x => ?_) h
  grind [sliceRead_wf, endRunWith_mem, wordDone_mem]

theorem execLwLdb_wf {s : State} (h : Memory.wf s.mem) : OutWf (execLwLdb s) := by
  refine withTable_wf (fun d r x => ?_) h
  grind [sliceRead_wf, wordDone_mem, endRunWith_mem]

theorem execLwTemp_wf {a : BitVec 4} {s : State} (h : Memory.wf s.mem) : OutWf (execLwTemp a s) := by
  refine onRun_wf (fun d r => ?_) h
  grind [usingMarks_wf, wordDone_mem]

theorem execLwMaskg_wf {s : State} (h : Memory.wf s.mem) : OutWf (execLwMaskg s) := by
  refine onRun_wf (fun d r => ?_) h
  simpa using h

theorem execLwMaskb_wf {s : State} (h : Memory.wf s.mem) : OutWf (execLwMaskb s) := by
  refine withTable_wf (fun d r x => ?_) h
  grind [samRow_wf, filtered_mem, endRunWith_mem]

theorem execLwSoftmax_wf {s : State} (h : Memory.wf s.mem) : OutWf (execLwSoftmax s) := by
  refine onRun_wf (fun d r => ?_) h
  grind [usingMarks_wf, wordDone_mem]

theorem execLwDraw_wf {s : State} (h : Memory.wf s.mem) : OutWf (execLwDraw s) := by
  refine withTable_wf (fun d r x => ?_) h
  grind [choose_wf]

theorem execLwArgmax_wf {s : State} (h : Memory.wf s.mem) : OutWf (execLwArgmax s) := by
  refine onRun_wf (fun d r => ?_) h
  grind [choose_wf]

theorem execLwEnd_wf {s : State} (h : Memory.wf s.mem) : OutWf (execLwEnd s) := by
  refine onRun_wf (fun d r => ?_) h
  grind [choose_wf]

theorem execLwSetv_wf {x : BitVec 16} {a : BitVec 4} {s : State} (h : Memory.wf s.mem) : OutWf (execLwSetv x a s) := by
  refine onRun_wf (fun d r => ?_) h
  simpa using h

theorem execLwSetvLo_wf {x : BitVec 16} {a : BitVec 4} {s : State} (h : Memory.wf s.mem) : OutWf (execLwSetvLo x a s) := by
  refine onRun_wf (fun d r => ?_) h
  simpa using h

/-! ### Launches, tasks, events and preemption -/

theorem execEvLaunchAdmit_wf {s : State} (h : Memory.wf s.mem) : OutWf (execEvLaunchAdmit s) := by
  have hadmit := admitHead_wf s.arg.die.toNat s.arg.n h
  unfold execEvLaunchAdmit; dsimp only
  split
  · exact h
  · split <;> rename_i e <;> rw [e] at hadmit <;> exact hadmit

theorem execEvSpawn_wf {s : State} (h : Memory.wf s.mem) : OutWf (execEvSpawn s) := by
  unfold execEvSpawn; dsimp only
  split
  · exact h
  next c _ =>
    have hadmit := admitLaunch_wf (c.agent s.arg.die.toNat fifoSpawn) 4096 (wordAt c.words 8).toNat (bytesOf (c.words.take 8)) h
    split <;> rename_i e <;> rw [e] at hadmit <;> simpa [AdmissionWf] using hadmit

theorem execEvMarkerComplete_wf {s : State} (h : Memory.wf s.mem) : OutWf (execEvMarkerComplete s) := by
  unfold execEvMarkerComplete; dsimp only
  repeat' split
  all_goals simpa using h

theorem execEvAging_wf {s : State} (h : Memory.wf s.mem) : OutWf (execEvAging s) := by simpa [execEvAging] using h

theorem execEvTaskPlace_wf {s : State} (h : Memory.wf s.mem) : OutWf (execEvTaskPlace s) := by
  unfold execEvTaskPlace
  grind [OutWf, fuseFor_wf, acquire_wf, stagingCmds_wf, setTask_mem, modDie_mem, focus_mem, modCore_mem, acquireElement_mem]

theorem execEvTaskStart_wf {s : State} (h : Memory.wf s.mem) : OutWf (execEvTaskStart s) := by
  unfold execEvTaskStart; dsimp only
  repeat' split
  all_goals simpa using h

theorem execEvTaskComplete_wf {s : State} (h : Memory.wf s.mem) : OutWf (execEvTaskComplete s) := by
  unfold execEvTaskComplete; dsimp only
  repeat' split
  all_goals simpa using h

theorem execEvTaskFault_wf {s : State} (h : Memory.wf s.mem) : OutWf (execEvTaskFault s) := by
  unfold execEvTaskFault
  grind [OutWf, launchLess_wf, setTask_mem, modCoreAt_mem, faultedMark_mem, postEvent_mem, modDie_mem]

theorem execEvEventPost_wf {s : State} (h : Memory.wf s.mem) : OutWf (execEvEventPost s) := by
  unfold execEvEventPost
  grind [OutWf, beginWait_wf, postOne_wf, postMgmtOne_wf]

theorem execEvPoisonRollback_wf {s : State} (h : Memory.wf s.mem) : OutWf (execEvPoisonRollback s) := by
  unfold execEvPoisonRollback; dsimp only
  repeat' split
  all_goals simpa using h

theorem execEvPreempt_wf {s : State} (h : Memory.wf s.mem) : OutWf (execEvPreempt s) := by
  unfold execEvPreempt; dsimp only
  repeat' split
  all_goals simpa using h

theorem execEvImageLoad_wf {s : State} (h : Memory.wf s.mem) : OutWf (execEvImageLoad s) := by
  unfold execEvImageLoad; dsimp only
  repeat' split
  all_goals simpa using h

theorem execEvContextExchange_wf {s : State} (h : Memory.wf s.mem) : OutWf (execEvContextExchange s) := by
  unfold execEvContextExchange
  grind [OutWf, bringIn_wf, putAside_wf, focus_mem, modCore_mem, finishPreempt_mem]

theorem execEvImageDrain_wf {s : State} (h : Memory.wf s.mem) : OutWf (execEvImageDrain s) := by
  unfold execEvImageDrain; dsimp only
  split
  · exact h
  next i _ =>
    show Memory.wf (List.foldl _ _ _ : State).mem
    rw [foldl_mem (fun t p => markGranule_mem t _)]
    exact overwrite_wf _ h

/-! ### Errors and management commands -/

theorem execEvSramError_wf {s : State} (h : Memory.wf s.mem) : OutWf (execEvSramError s) := by
  have hl2 (die slice line : Nat) (x : Slice) (l : L2Line) : OutWf (
      if l.dirty then .next (spoilGranule s (32 * errGranule s line))
      else if 0 < l.pins then .next (countSoft s die)
      else .next (countSoft (leaveSlice (modDie s die (fun d => { d with slices := place {} d.slices slice x })) l) die)) := by
    split
    · exact spoilGranule_wf _ h
    split
    · simpa using h
    · rw [outWf_next, countSoft_mem]
      exact leaveSlice_wf l (by simpa using h)
  unfold execEvSramError
  split
  · exact h
  · split
    · exact h
    · split <;> simpa using h
  · dsimp only
    split
    · exact h
    · exact hl2 ..
  · dsimp only
    rw [outWf_next, countSoft_mem, foldl_mem countLost_mem]
    exact h
  case h_13 => split <;> exact h
  case h_20 =>
    split
    · exact goFatal_wf _ _ _ h
    · simpa using h
  all_goals simpa using h

theorem execEvFatalError_wf {s : State} (h : Memory.wf s.mem) : OutWf (execEvFatalError s) := by
  unfold execEvFatalError
  grind [OutWf, goFatal_wf]

theorem execEvCreate_wf {s : State} (h : Memory.wf s.mem) : OutWf (execEvCreate s) := by
  refine command_wf (fun d ws => ?_) h
  grind [ownCores_wf, commandDone_mem, modDie_mem]

theorem execEvSetvec_wf {s : State} (h : Memory.wf s.mem) : OutWf (execEvSetvec s) := by
  refine command_wf (fun d ws => ?_) h; dsimp only
  split <;> simpa using h

theorem execEvDestroy_wf {s : State} (h : Memory.wf s.mem) : OutWf (execEvDestroy s) := by
  refine command_wf (fun d ws => ?_) h
  grind [clearContext_wf, commandDone_mem]

theorem execEvQueue_wf {s : State} (h : Memory.wf s.mem) : OutWf (execEvQueue s) := by
  refine command_wf (fun d ws => ?_) h; dsimp only
  split <;> simpa using h

theorem execEvDump_wf {s : State} (h : Memory.wf s.mem) : OutWf (execEvDump s) := by
  refine command_wf (fun d ws => ?_) h; dsimp only
  split <;> simpa using h

theorem execEvFrames_wf {s : State} (h : Memory.wf s.mem) : OutWf (execEvFrames s) := by
  refine command_wf (fun d ws => ?_) h; dsimp only
  split
  · simpa using h
  split
  · exact h
  · rw [commandDone_mem]
    exact zeroRange_wf _ _ h

theorem execEvLend_wf {s : State} (h : Memory.wf s.mem) : OutWf (execEvLend s) := by
  refine command_wf (fun d ws => ?_) h; dsimp only
  repeat' split
  all_goals simpa using h

theorem execEvPower_wf {s : State} (h : Memory.wf s.mem) : OutWf (execEvPower s) := by
  refine command_wf (fun d ws => ?_) h; dsimp only
  split <;> simpa using h

theorem execEvAttest_wf {s : State} (h : Memory.wf s.mem) : OutWf (execEvAttest s) := by
  refine command_wf (fun d ws => ?_) h; dsimp only
  split
  · simpa using h
  · rw [commandDone_mem]
    exact physWrite_wf _ _ h

theorem execEvFirmware_wf {s : State} (h : Memory.wf s.mem) : OutWf (execEvFirmware s) := by
  refine command_wf (fun d ws => ?_) h; dsimp only
  repeat' split
  all_goals simpa using h

/-! ### Host, ports, power and reset -/

theorem execEvHostRead_wf {s : State} (h : Memory.wf s.mem) : OutWf (execEvHostRead s) := by
  unfold execEvHostRead; dsimp only
  split <;> simpa using h

theorem execEvHostWrite_wf {s : State} (h : Memory.wf s.mem) : OutWf (execEvHostWrite s) := by
  unfold execEvHostWrite; dsimp only
  split
  · exact h
  split
  · rw [outWf_next, mgmtWrite_mem]
    exact h
  split
  · exact foldl_wf (fun t g ht => hostLine_wf _ _ ht) _ h
  · exact h

theorem execEvLentAccess_wf {s : State} (h : Memory.wf s.mem) : OutWf (execEvLentAccess s) := by
  unfold execEvLentAccess
  grind [OutWf, lentAccess_wf]

theorem execEvFlitReceive_wf {s : State} (h : Memory.wf s.mem) : OutWf (execEvFlitReceive s) := by
  unfold execEvFlitReceive
  grind [OutWf, lentAccess_wf, countPort_mem, countFlits_mem]

theorem execEvPortDown_wf {s : State} (h : Memory.wf s.mem) : OutWf (execEvPortDown s) := by
  unfold execEvPortDown; dsimp only
  repeat' split
  all_goals simpa using h

theorem execEvPortUp_wf {s : State} (h : Memory.wf s.mem) : OutWf (execEvPortUp s) := by
  unfold execEvPortUp; dsimp only
  split <;> simpa using h

theorem execEvPowerThrottle_wf {s : State} (h : Memory.wf s.mem) : OutWf (execEvPowerThrottle s) := by
  unfold execEvPowerThrottle
  repeat' split
  all_goals simpa using h

theorem execEvPowerWithinBudget_wf {s : State} (h : Memory.wf s.mem) : OutWf (execEvPowerWithinBudget s) := by
  unfold execEvPowerWithinBudget
  split <;> simpa using h

theorem execEvReset_wf {s : State} (h : Memory.wf s.mem) : OutWf (execEvReset s) := by
  unfold execEvReset
  grind [OutWf, cellarBytes_wf]

/-! ### Collectives and decoders -/

theorem execEvCollectiveReceive_wf {s : State} (h : Memory.wf s.mem) : OutWf (execEvCollectiveReceive s) := by
  unfold execEvCollectiveReceive
  grind [OutWf, receiveChunk_wf, poisonColl_mem, modDie_mem, failColl_mem]

theorem execEvKick_wf {s : State} (h : Memory.wf s.mem) : OutWf (execEvKick s) := by
  unfold execEvKick
  grind [OutWf, agentRead_wf, answer_mem, poisonCmd_mem, setFifo_mem, modDie_mem]

theorem execEvDecodeFrame_wf {s : State} (h : Memory.wf s.mem) : OutWf (execEvDecodeFrame s) := by
  unfold execEvDecodeFrame
  grind [OutWf, agentRead_wf, descDone_wf, poisonDesc_wf, decodeOne_wf, postResult_mem, dropRing_mem, poisonRing_mem]

end Sys2Proof.Laws.Canonical
end

section
/-!
PROOFS. Memory in canonical form: every instruction and every step (settles O58).
-/
namespace Sys2Proof.Laws.Canonical

open Sys2Proof.Machine

/-! ### The instructions with a body of their own -/

section
variable {h : Hdr} {d a : Reg} {x : Src2} {s : State}

theorem execNop_wf (hs : Memory.wf s.mem) : OutWf (execNop h s) := issueOut_wf (fun _ hp => hp) hs

theorem execMov_wf {m : BitVec 4} (hs : Memory.wf s.mem) : OutWf (execMov h d a m s) := issueOut_wf (fun _ hp => moveBody_wf hp) hs

theorem execMovLong_wf {m : BitVec 4} {wide : Bool} (hs : Memory.wf s.mem) : OutWf (execMovLong h d a m wide s) :=
  issueOut_wf (fun _ hp => moveBody_wf hp) hs

theorem execTpop_wf {q : BitVec 4} (hs : Memory.wf s.mem) : OutWf (execTpop h q s) := issueOut_wf (fun _ hp => hp) hs

theorem execTpsh_wf {q : BitVec 4} (hs : Memory.wf s.mem) : OutWf (execTpsh h q s) := issueOut_wf (fun _ hp => hp) hs

theorem execQcancel_wf {q : BitVec 4} (hs : Memory.wf s.mem) : OutWf (execQcancel h q s) := by
  refine issueOut_wf (fun p hp => ?_) hs
  dsimp only
  split <;> simpa [ActWf] using hp

theorem execSlack_wf (hs : Memory.wf s.mem) : OutWf (execSlack h x s) := issueOut_wf (fun p hp => by simpa [ActWf] using hp) hs

theorem execSlackW_wf (hs : Memory.wf s.mem) : OutWf (execSlackW h x s) := issueOut_wf (fun _ hp => queueW_wf hp) hs

/-! #### Traps and system registers -/

theorem execTrap_wf {i : BitVec 10} (hs : Memory.wf s.mem) : OutWf (execTrap h i s) := by
  refine issueOut_wf (fun p hp => ?_) hs
  dsimp only
  split
  · split
    · simp
    · simpa [ActWf] using hp
  · exact hp

theorem execSyscall_wf {i : BitVec 10} (hs : Memory.wf s.mem) : OutWf (execSyscall h i s) := issueOut_wf (fun _ hp => hp) hs

theorem execEret_wf (hs : Memory.wf s.mem) : OutWf (execEret h s) := by
  refine issueOut_wf (fun p hp => ?_) hs
  split
  · simp
  split
  · simp
  · simpa [ActWf] using hp

theorem syswProbe_wf {p : State} {v : Word} (hp : Memory.wf p.mem) : ActWf (syswProbe p v) := by
  unfold syswProbe
  split
  · split
    · simpa [ActWf] using hp
    · simp
  · simp
  · split
    · exact actWf_wait fun t => modCore_mem ..
    · simpa [ActWf] using hp

theorem execSysr_wf {n : SysNum} (hs : Memory.wf s.mem) : OutWf (execSysr h d n s) := by
  unfold execSysr
  split
  · exact issueIllegal_wf hs
  · refine issueOut_wf (fun p hp => ?_) hs
    dsimp only
    split
    · simp
    split
    · simp
    split
    · simp
    · simpa [ActWf] using hp

theorem execSysw_wf {n : SysNum} (hs : Memory.wf s.mem) : OutWf (execSysw h a n s) := by
  unfold execSysw
  split
  · exact issueIllegal_wf hs
  · refine issueOut_wf (fun p hp => ?_) hs
    dsimp only
    split
    · simp
    split
    · simp
    split
    · simp
    split
    · simp
    split
    · exact syswProbe_wf hp
    · simpa [ActWf] using hp

theorem execLdovt_wf (hs : Memory.wf s.mem) : OutWf (execLdovt h a s) := by
  refine issueOut_wf (fun p hp => ?_) hs
  dsimp only
  split
  · simp
  split
  · simp
  · simpa [ActWf] using hp

theorem execHalt_wf (hs : Memory.wf s.mem) : OutWf (execHalt h s) := by
  refine issueOut_wf (fun p hp => ?_) hs
  dsimp only
  split <;> simpa [ActWf] using hp

/-! #### Control -/

theorem execJmp_wf {h : SHdr} {t : Imm} (hs : Memory.wf s.mem) : OutWf (execJmp h t s) := by
  refine issueS_wf (fun x => ?_) hs
  dsimp only
  repeat' split
  all_goals simpa using hs

theorem execJl_wf {h : SHdr} {t : Imm} (hs : Memory.wf s.mem) : OutWf (execJl h d t s) := by
  refine issueS_wf (fun x => ?_) hs
  dsimp only
  split <;> simpa using hs

theorem execJr_wf {h : SHdr} {dec : Eng} (hs : Memory.wf s.mem) : OutWf (execJr h a dec s) :=
  issueS_wf (fun _ => decided_wf (fun _ _ _ ht => by simpa using ht) hs) hs

theorem execLoop_wf {h : SHdr} {dist : BitVec 12} {n : BitVec 3} {cnt : LoopCount} (hs : Memory.wf s.mem) :
    OutWf (execLoop h dist n cnt s) := by
  refine issueS_wf (fun x => ?_) hs
  dsimp only
  split
  · simpa using hs
  · exact decided_wf (fun _ _ _ ht => by simpa using ht) hs

theorem execSyncpc_wf {h : SHdr} (hs : Memory.wf s.mem) : OutWf (execSyncpc h s) := issueS_wf (fun _ => by simpa using hs) hs

theorem execSyncpcLong_wf {h : SHdr} (hs : Memory.wf s.mem) : OutWf (execSyncpcLong h s) := issueS_wf (fun _ => by simpa using hs) hs

/-! #### Memory, FIFOs and copies -/

theorem execProbe_wf (hs : Memory.wf s.mem) : OutWf (execProbe h d a x s) :=
  issueOut_wf (fun _ hp => withBase_wf fun _ => probeBody_wf hp) hs

theorem execProbeLn_wf (hs : Memory.wf s.mem) : OutWf (execProbeLn h d a x s) :=
  issueOut_wf (fun _ hp => withBase_wf fun _ => probeBody_wf hp) hs

theorem execPushe_wf (hs : Memory.wf s.mem) : OutWf (execPushe h a x s) := issueOut_wf (fun _ hp => pushBody_wf hp) hs

theorem execPusheT_wf (hs : Memory.wf s.mem) : OutWf (execPusheT h d a x s) := issueOut_wf (fun _ hp => pushBody_wf hp) hs

theorem execPope_wf (hs : Memory.wf s.mem) : OutWf (execPope h d x s) := issueOut_wf (fun _ hp => popBody_wf hp) hs

theorem execPopeT_wf (hs : Memory.wf s.mem) : OutWf (execPopeT h d a x s) := issueOut_wf (fun _ hp => popBody_wf hp) hs

theorem execCopy_wf (hs : Memory.wf s.mem) : OutWf (execCopy h d a x s) := issueOut_wf (fun _ hp => copyBody_wf hp) hs

theorem execCopyLn_wf (hs : Memory.wf s.mem) : OutWf (execCopyLn h d a x s) :=
  issueOut_wf (fun _ hp => withBase_wf fun _ => copyBody_wf hp) hs

/-! #### Vectors, the weight-code queue and leases -/

theorem execVcvt_wf {d a : MOp} {t t2 : Ty} {g : Reg} (hs : Memory.wf s.mem) : OutWf (execVcvt h d a t t2 g s) := by
  unfold execVcvt
  split <;> exact vecOut_wf hs

theorem execWstripe_wf {t : Ty} (hs : Memory.wf s.mem) : OutWf (execWstripe h a t x s) := by
  refine issueOut_wf (fun p hp => ?_) hs
  dsimp only
  split
  · simp
  · exact queueW_wf hp

theorem execWzero_wf (hs : Memory.wf s.mem) : OutWf (execWzero h x s) := issueOut_wf (fun _ hp => queueW_wf hp) hs

theorem execWcall_wf (hs : Memory.wf s.mem) : OutWf (execWcall h a x s) := by
  refine issueOut_wf (fun p hp => ?_) hs
  dsimp only
  split
  · simp
  · simp
  split
  · simp
  · have hread := readMatrix_wf (readG p .w a.toNat).toNat hp
    split
    · simp
    next e =>
      split
      · simp
      · exact queueW_wf (wf_of_eq_mk e hread)

theorem execWdrain_wf {st t : Ty} (hs : Memory.wf s.mem) : OutWf (execWdrain h d st t x s) := by
  refine issueOut_wf (fun p hp => ?_) hs
  dsimp only
  split
  · simp
  split
  · simp
  · exact hp

theorem execLacq_wf (hs : Memory.wf s.mem) : OutWf (execLacq h x s) := by
  refine issueLease_wf (fun p hp => ?_) hs
  split
  · simp
  split
  · exact hp
  · exact actWf_wait (askLeave_mem _)

theorem execLacqT_wf (hs : Memory.wf s.mem) : OutWf (execLacqT h d x s) := by
  refine issueLease_wf (fun p hp => ?_) hs
  dsimp only
  split
  · simp
  split
  · simpa [ActWf] using hp
  split
  · simpa [ActWf] using hp
  · simpa [ActWf] using hp

theorem execLrel_wf (hs : Memory.wf s.mem) : OutWf (execLrel h s) := by
  refine issueLease_wf (fun p hp => ?_) hs
  split
  · simp
  split <;> simpa [ActWf] using hp

theorem execLcfg_wf (hs : Memory.wf s.mem) : OutWf (execLcfg h a x s) := by
  refine issueLease_wf (fun p hp => ?_) hs
  dsimp only
  split
  · simp
  · rw [ActWf, foldl_mem fun _ _ => writeSys_mem ..]
    exact hp

theorem execLdrain_wf {t : Ty} (hs : Memory.wf s.mem) : OutWf (execLdrain h d t x s) := by
  refine issueLease_wf (fun p hp => ?_) hs
  dsimp only
  split
  · simp
  split
  · simp
  · exact hp

end

/-! ### Every instruction, every step -/

/-- What an instruction of any form leaves is canonical: each issues by a form of its own, or has a lemma of its own above. -/
theorem exec_wf {s : State} (i : Instr) (h : Memory.wf s.mem) : OutWf (exec i s) := by
  cases i with
  | add | addLong | sub | subLong | and64 | and64Long | or64 | or64Long | xor64 | xor64Long | shl | shlLong | shrS | shrSLong | shrZ |
    shrZLong | rot | rotLong | minS | minSLong | minZ | minZLong | maxS | maxSLong | maxZ | maxZLong | clz | clzLong | popc | popcLong
    | extS | extZ | ins | seq | seqLong | sltS | sltSLong | sltZ | sltZLong | sel | selLong | li | liLong => exact scalarNow_wf h
  | mul | mulLong | mulhS | mulhSLong | mulhZ | mulhZLong => exact scalarMul_wf h
  | divS | divSLong | divZ | divZLong | remS | remSLong | remZ | remZLong => exact scalarDiv_wf h
  | bEq | bNe | bLtS | bLtZ | bGeS | bGeZ =>
    dsimp only [exec, execBEq, execBNe, execBLtS, execBLtZ, execBGeS, execBGeZ]
    exact branch_wf h
  | syncpcD | syncpcDLong => exact syncD_wf h
  | ld | ldLn => exact loadForm_wf h
  | st | stLn => exact storeForm_wf h
  | mld | mldLn | mst | mstLn => exact moveForm_wf h
  | settle | settleLong => exact settleForm_wf h
  | promote | promoteH | demote => exact rowForm_wf h
  | relCore | relCoreLong | relClu | relCluLong | relDie | relDieLong | relPkg | relPkgLong | relSys | relSysLong => exact relForm_wf h
  | acqCore | acqCoreLong | acqClu | acqCluLong | acqDie | acqDieLong | acqPkg | acqPkgLong | acqSys | acqSysLong => exact acqForm_wf h
  | fenceCore | fenceCoreLong | fenceClu | fenceCluLong | fenceDie | fenceDieLong | fencePkg | fencePkgLong | fenceSys | fenceSysLong
    => exact fenceForm_wf h
  | aadd | amin | amax | aor | aand | axchg | acas | aaddN | aminN | amaxN | aorN | aandN =>
    dsimp only [exec, execAadd, execAmin, execAmax, execAor, execAand, execAxchg, execAcas, execAaddN, execAminN, execAmaxN, execAorN, execAandN]
    exact atomicForm_wf h
  | vadd | vsub | vmul | vfma | vmin | vmax | vabs | vneg | vand | vor | vxor | vshl | vshr | vpack | vunpack | vcmpEq | vcmpNe |
    vcmpLt | vcmpLe | vredrAdd | vredrMax | vredrMin | vredrAmax | vredcAdd | vredcMax | vredcMin | vredcAmax | vexp | vlog | vrcp |
    vrsq | vsin | vcos | vtanh | vaddSat | vsubSat | vmulSat | vfmaSat | vabsSat | vnegSat | vshlSat => exact vecOut_wf h
  | vsel | vrotr | vrotc | vbcr | vbcc => exact vecMove_wf h
  | lmm | lmmA | lmmg | lmmgA | lscore | lscoreCm | lscoreTm | lpv | lpvA => exact leaseForm_wf h
  | lwBias | lwPenrep | lwPenfrq | lwPenprs | lwClamp | lwScale => exact onX_wf h
  | lwTopk | lwTopp | lwMinp => exact filterBy_wf h
  | lwSkip | lwSkipZ | lwSkipP | lwSkipNg => exact skipWhen_wf h
  | evInvalidateRange | evInvalidateAsn | evTlbInvalidateAll =>
    dsimp only [exec, execEvInvalidateRange, execEvInvalidateAsn, execEvTlbInvalidateAll]
    exact walkCommand_wf h
  | evRing | evRsum | evA2a =>
    dsimp only [exec, execEvRing, execEvRsum, execEvA2a]
    exact collEvent_wf h
  | nop => exact execNop_wf h
  | mov => exact execMov_wf h
  | movLong => exact execMovLong_wf h
  | jmp => exact execJmp_wf h
  | jl => exact execJl_wf h
  | jr => exact execJr_wf h
  | loop => exact execLoop_wf h
  | syncpc => exact execSyncpc_wf h
  | syncpcLong => exact execSyncpcLong_wf h
  | tpop => exact execTpop_wf h
  | tpsh => exact execTpsh_wf h
  | qcancel => exact execQcancel_wf h
  | slack => exact execSlack_wf h
  | slackW => exact execSlackW_wf h
  | trap => exact execTrap_wf h
  | syscall => exact execSyscall_wf h
  | eret => exact execEret_wf h
  | sysr => exact execSysr_wf h
  | sysw => exact execSysw_wf h
  | ldovt => exact execLdovt_wf h
  | halt => exact execHalt_wf h
  | probe => exact execProbe_wf h
  | probeLn => exact execProbeLn_wf h
  | copy => exact execCopy_wf h
  | copyLn => exact execCopyLn_wf h
  | pushe => exact execPushe_wf h
  | pusheT => exact execPusheT_wf h
  | pope => exact execPope_wf h
  | popeT => exact execPopeT_wf h
  | vcvt => exact execVcvt_wf h
  | wcall => exact execWcall_wf h
  | wstripe => exact execWstripe_wf h
  | wzero => exact execWzero_wf h
  | wdrain => exact execWdrain_wf h
  | lacq => exact execLacq_wf h
  | lacqT => exact execLacqT_wf h
  | lrel => exact execLrel_wf h
  | lcfg => exact execLcfg_wf h
  | ldrain => exact execLdrain_wf h
  | wprep => exact execWprep_wf h
  | wprepa => exact execWprepa_wf h
  | wsum => exact execWsum_wf h
  | wacc => exact execWacc_wf h
  | wnacc => exact execWnacc_wf h
  | wmap => exact execWmap_wf h
  | wjmp => exact execWjmp_wf h
  | whook => exact execWhook_wf h
  | lwTemp => exact execLwTemp_wf h
  | lwSetv => exact execLwSetv_wf h
  | lwSetvLo => exact execLwSetvLo_wf h
  | wend => exact execWend_wf h
  | lwEnd => exact execLwEnd_wf h
  | lwLdc => exact execLwLdc_wf h
  | lwLdb => exact execLwLdb_wf h
  | lwMaskg => exact execLwMaskg_wf h
  | lwMaskb => exact execLwMaskb_wf h
  | lwSoftmax => exact execLwSoftmax_wf h
  | lwDraw => exact execLwDraw_wf h
  | lwArgmax => exact execLwArgmax_wf h
  | evLdReturn => exact execEvLdReturn_wf h
  | evResultWrite => exact execEvResultWrite_wf h
  | evModeCrossing => exact execEvModeCrossing_wf h
  | evPrcfgWrite => exact execEvPrcfgWrite_wf h
  | evRecordSettle => exact execEvRecordSettle_wf h
  | evL2Request => exact execEvL2Request_wf h
  | evLineFill => exact execEvLineFill_wf h
  | evFilterClear => exact execEvFilterClear_wf h
  | evPageWalk => exact execEvPageWalk_wf h
  | evCodeFetchArrival => exact execEvCodeFetchArrival_wf h
  | evPromotion => exact execEvPromotion_wf h
  | evDemotion => exact execEvDemotion_wf h
  | evRowOperationsDone => exact execEvRowOperationsDone_wf h
  | evRefresh => exact execEvRefresh_wf h
  | evScrub => exact execEvScrub_wf h
  | evHeartbeat => exact execEvHeartbeat_wf h
  | evHeartbeatMissed => exact execEvHeartbeatMissed_wf h
  | evFallbackRefresh => exact execEvFallbackRefresh_wf h
  | evRefreshHandback => exact execEvRefreshHandback_wf h
  | evCopyCommand => exact execEvCopyCommand_wf h
  | evCopyTransfer => exact execEvCopyTransfer_wf h
  | evCopyComplete => exact execEvCopyComplete_wf h
  | evProbeFill => exact execEvProbeFill_wf h
  | evFillDone => exact execEvFillDone_wf h
  | evInvalidatePages => exact execEvInvalidatePages_wf h
  | evInvalidateAll => exact execEvInvalidateAll_wf h
  | evMigrate => exact execEvMigrate_wf h
  | evReleaseOldFrame => exact execEvReleaseOldFrame_wf h
  | evCompile => exact execEvCompile_wf h
  | evPatch => exact execEvPatch_wf h
  | evStripeApply => exact execEvStripeApply_wf h
  | evZeroApply => exact execEvZeroApply_wf h
  | evSlackApply => exact execEvSlackApply_wf h
  | evCallRun => exact execEvCallRun_wf h
  | evSegmentStart => exact execEvSegmentStart_wf h
  | evRunGrant => exact execEvRunGrant_wf h
  | evGroupStart => exact execEvGroupStart_wf h
  | evTileLineArrival => exact execEvTileLineArrival_wf h
  | evRunLimit => exact execEvRunLimit_wf h
  | evLeaseCommandComplete => exact execEvLeaseCommandComplete_wf h
  | evLeaveGrant => exact execEvLeaveGrant_wf h
  | evPowerThrottle => exact execEvPowerThrottle_wf h
  | evOpen => exact execEvOpen_wf h
  | evBind => exact execEvBind_wf h
  | evClose => exact execEvClose_wf h
  | evSample => exact execEvSample_wf h
  | evSampleStage2 => exact execEvSampleStage2_wf h
  | evCluster => exact execEvCluster_wf h
  | evVerify => exact execEvVerify_wf h
  | evNote => exact execEvNote_wf h
  | evGrammarBind => exact execEvGrammarBind_wf h
  | evUnbind => exact execEvUnbind_wf h
  | evQuery => exact execEvQuery_wf h
  | evInvalidate => exact execEvInvalidate_wf h
  | evCollectiveReceive => exact execEvCollectiveReceive_wf h
  | evKick => exact execEvKick_wf h
  | evDecodeFrame => exact execEvDecodeFrame_wf h
  | evSpawn => exact execEvSpawn_wf h
  | evDoorbell => exact execEvDoorbell_wf h
  | evLaunchAdmit => exact execEvLaunchAdmit_wf h
  | evMarkerComplete => exact execEvMarkerComplete_wf h
  | evTaskPlace => exact execEvTaskPlace_wf h
  | evTaskStart => exact execEvTaskStart_wf h
  | evTaskComplete => exact execEvTaskComplete_wf h
  | evTaskFault => exact execEvTaskFault_wf h
  | evEventPost => exact execEvEventPost_wf h
  | evAging => exact execEvAging_wf h
  | evTrapEntry => exact execEvTrapEntry_wf h
  | evPoisonRollback => exact execEvPoisonRollback_wf h
  | evSramError => exact execEvSramError_wf h
  | evFatalError => exact execEvFatalError_wf h
  | evImageLoad => exact execEvImageLoad_wf h
  | evContextExchange => exact execEvContextExchange_wf h
  | evImageDrain => exact execEvImageDrain_wf h
  | evCreate => exact execEvCreate_wf h
  | evSetvec => exact execEvSetvec_wf h
  | evDestroy => exact execEvDestroy_wf h
  | evQueue => exact execEvQueue_wf h
  | evPreempt => exact execEvPreempt_wf h
  | evDump => exact execEvDump_wf h
  | evFrames => exact execEvFrames_wf h
  | evLend => exact execEvLend_wf h
  | evPower => exact execEvPower_wf h
  | evAttest => exact execEvAttest_wf h
  | evFirmware => exact execEvFirmware_wf h
  | evManagementRegisterWrite => exact execEvManagementRegisterWrite_wf h
  | evHostRead => exact execEvHostRead_wf h
  | evHostWrite => exact execEvHostWrite_wf h
  | evLentAccess => exact execEvLentAccess_wf h
  | evFlitReceive => exact execEvFlitReceive_wf h
  | evPortDown => exact execEvPortDown_wf h
  | evPortUp => exact execEvPortUp_wf h
  | evReset => exact execEvReset_wf h
  | evStarvedClk => exact execEvStarvedClk_wf h
  | evProbeLag => exact execEvProbeLag_wf h
  | evPowerWithinBudget => exact execEvPowerWithinBudget_wf h
  | evOrderingComplete => exact execEvOrderingComplete_wf h

theorem runArrival_wf {a : Arrival} (h : ArrivalWf a) : OutWf (runArrival a) := by
  cases a with
  | stay s => exact h
  | run s i => exact exec_wf i h

theorem engineTurn_wf {s : State} (c : Nat) (e : Eng) (h : Memory.wf s.mem) : OutWf (engineTurn s c e) :=
  runArrival_wf (arrive_wf e (by simpa using h))

theorem whenMoves_wf {s : State} (c : Nat) (e : Eng) (h : Memory.wf s.mem) : Memory.wf (whenMoves s c e).mem := by
  unfold whenMoves; split
  · exact skipAll_wf (by simpa using h)
  · exact h

theorem runTurn_wf {s : State} (h : Memory.wf s.mem) : OutWf (runTurn s) := by
  unfold runTurn
  split
  case h_1 => exact h
  case h_2 => exact passClk_wf waitsNow h
  all_goals split
  case h_3.isFalse => exact engineTurn_wf _ _ (whenMoves_wf _ _ h)
  case h_4.isFalse => exact runArrival_wf (arriveStream_wf (by simpa using h))
  case h_5.isFalse => exact runArrival_wf (arriveSampler_wf _ h)
  case h_6.isFalse => exact exec_wf _ h
  all_goals exact h

@[simp] theorem nextTurn_mem (s : State) : (nextTurn s).mem = s.mem := rfl

theorem keepWaiting_wf {before after : State} (hb : Memory.wf before.mem) (ha : Memory.wf after.mem) :
    Memory.wf (keepWaiting before after).mem := by
  unfold keepWaiting; split
  · exact ha
  · simpa using hb

/-- A step from a state with canonical memory leaves one. -/
theorem step_wf {s : State} (h : Memory.wf s.mem) : OutWf (step s) := by
  have hturn := runTurn_wf h
  unfold step andNextTurn
  split
  next e =>
    rw [e] at hturn
    exact keepWaiting_wf h hturn
  all_goals trivial

end Sys2Proof.Laws.Canonical

namespace Sys2Proof

/-- Settles O58: every operation of the model that stores keeps memory in its form, hence so does every instruction
(`Laws.Canonical.exec_wf`), whichever part of the package moves. -/
theorem stepsKeepMemoryCanonical : Obligations.StepsKeepMemoryCanonical := by
  intro s t hs hstep
  have h := Laws.Canonical.step_wf hs
  rw [hstep] at h
  exact h

end Sys2Proof
end

section
/-!
PROOFS. Rows between shelf and cellar (R105 to R110, R113), refresh, scrubbing and heartbeats (R112 to R114): settles O36.
-/
namespace Sys2Proof.Laws.Rows

open Sys2Proof.Machine

/-! ### Stacks -/

@[simp] theorem stackAt_setStack (s : State) (k : Nat) (x : Stack) : stackAt (setStack s k x) k = x := by simp [stackAt]

@[simp] theorem stackAt_modStack (s : State) (k : Nat) (f : Stack → Stack) : stackAt (modStack s k f) k = f (stackAt s k) :=
  stackAt_setStack ..

@[simp] theorem stackAt_modCoreAt (s : State) (c k : Nat) (f : Core → Core) : stackAt (modCoreAt s c f) k = stackAt s k := by
  unfold modCoreAt; split <;> rfl

@[simp] theorem stackAt_postMgmt (s : State) (d kind unit k : Nat) (ws : List Word) : stackAt (postMgmt s d kind unit ws) k = stackAt s k := rfl

theorem sameMemory_of_mem {s t : State} (h : t.mem = s.mem) : SameMemory s t := memByte_of_mem h

theorem coresSame_setStack (s : State) (k : Nat) (x : Stack) : CoresSame s (setStack s k x) := ⟨fun _ => rfl, rfl, rfl, rfl⟩

theorem coresSame_modStack (s : State) (k : Nat) (f : Stack → Stack) : CoresSame s (modStack s k f) := ⟨fun _ => rfl, rfl, rfl, rfl⟩

theorem coresSame_postMgmt_setStack (s : State) (k d kind unit : Nat) (x : Stack) (ws : List Word) :
    CoresSame s (postMgmt (setStack s k x) d kind unit ws) := ⟨fun _ => rfl, rfl, rfl, rfl⟩

/-- A management record waits in its die's postings. -/
theorem postings_postMgmt (s : State) (d kind unit : Nat) (ws : List Word) :
    (dieAt (postMgmt s d kind unit ws) d).mgmtPostings.length = (dieAt s d).mgmtPostings.length + 1 := by simp [postMgmt]

/-! ### Tags of a subarray -/

/-- A hold that finds fewer than 24 held, or that is not asked for, is not refused. -/
theorem holdTag_free (h : Bool) {held : Nat} (t : PromoTag) (hh : h = true → held < 24) (ht : t.hold = false) :
    holdTag h held t = ({ t with hold := h }, false) := by
  cases h with
  | false => simp [holdTag, ← ht]
  | true => simp [holdTag, hh rfl]

theorem find?_range_first {p : Nat → Bool} {n m : Nat} (hn : n < m) (hp : p n = true) (hlt : ∀ j, j < n → p j = false) :
    (List.range m).find? p = some n := by
  rw [List.find?_range_eq_some]
  exact ⟨hp, by simpa using hn, fun j hj => by simp [hlt j hj]⟩

/-- A row without a tag is given the lowest free slot (R106). -/
theorem promoteRow_free {h : Bool} {row n : Nat} {ts : List PromoTag} (hrow : ∀ g ∈ ts, g.row ≠ row) (hn : n < 32) (hfree : ∀ g ∈ ts, g.slot ≠ n)
    (hlow : ∀ j, j < n → ∃ g ∈ ts, g.slot = j) (hheld : h = true → heldCount ts < 24) :
    promoteRow h row ts = (ts ++ [{ slot := n, row := row, dirty := false, hold := h }], false, false) := by
  have hnone : ts.find? (fun t => t.row == row) = none := List.find?_eq_none.2 (by simpa using hrow)
  have hslot : (List.range 32).find? (fun n => !ts.any (fun t => t.slot == n)) = some n :=
    find?_range_first hn (by simpa using hfree) (fun j hj => by simpa using hlow j hj)
  simp [promoteRow, hnone, hslot, holdTag_free h _ hheld]

/-! ### Row operations -/

/-- The row operation `r`, the `n`-th of stack `k`, has been served: it has left its bank's queue, the instruction that sent it has one row less
to go, and memory and registers are as they were. -/
def Served (s t : State) (k n : Nat) (r : RowOp) : Prop :=
  (stackAt t k).rowOps = (stackAt s k).rowOps.eraseIdx n ∧ SameMemory s t ∧ (coreAt t r.core).g = (coreAt s r.core).g ∧
    (coreAt t r.core).rowOps = (coreAt s r.core).rowOps.map (fun q => if q.2.1 = r.seq then (q.1 - 1, q.2) else q)

section
variable {s : State} {r : RowOp}

/-- The oldest row operation of its bank is served by the event of its kind, and its stack is what `applyRowOp` makes of it. -/
theorem rowEvent_served {demote : Bool} (hk : (r.kind == 2) = demote) (hr : (stackAt s s.arg.stack.toNat).rowOps[s.arg.n]? = some r)
    (hold : ∀ q ∈ (stackAt s s.arg.stack.toNat).rowOps.take s.arg.n, bankOf q.addr ≠ bankOf r.addr) :
    Served s (rowEvent demote s) s.arg.stack.toNat s.arg.n r ∧
      stackAt (rowEvent demote s) s.arg.stack.toNat =
        { applyRowOp (stackAt s s.arg.stack.toNat) r with rowOps := (stackAt s s.arg.stack.toNat).rowOps.eraseIdx s.arg.n } := by
  have hany : ((stackAt s s.arg.stack.toNat).rowOps.take s.arg.n).any (fun q => bankOf q.addr == bankOf r.addr) = false := by
    simpa [List.any_eq_false] using hold
  have hev : rowEvent demote s = modCoreAt (setStack s s.arg.stack.toNat
      { applyRowOp (stackAt s s.arg.stack.toNat) r with rowOps := (stackAt s s.arg.stack.toNat).rowOps.eraseIdx s.arg.n }) r.core (rowDone r.seq) := by
    simp [rowEvent, hr, hany, hk]
  have hcore : coreAt (rowEvent demote s) r.core = rowDone r.seq (coreAt s r.core) := by rw [hev, coreAt_modCoreAt, if_pos rfl]; rfl
  have hstack : stackAt (rowEvent demote s) s.arg.stack.toNat =
      { applyRowOp (stackAt s s.arg.stack.toNat) r with rowOps := (stackAt s s.arg.stack.toNat).rowOps.eraseIdx s.arg.n } := by simp [hev]
  refine ⟨⟨by rw [hstack], sameMemory_of_mem (by simp), by rw [hcore]; rfl, ?_⟩, hstack⟩
  rw [hcore]
  simp [rowDone]

theorem applyRowOp_refused_promotion {x : Stack} (hx : refusing x = true) (hk : r.kind < 2) :
    applyRowOp x r = { x with refusedPromotions := x.refusedPromotions + 1 } := by
  have hk2 : r.kind ≠ 2 := by omega
  simp [applyRowOp, hx, hk2]

theorem applyRowOp_refused_demotion {x : Stack} (hx : refusing x = true) (hk : r.kind = 2) :
    applyRowOp x r = { x with refusedDemotions := x.refusedDemotions + 1 } := by simp [applyRowOp, hx, hk]

theorem applyRowOp_demotion {x : Stack} (hx : refusing x = false) (hk : r.kind = 2) :
    look [] (applyRowOp x r).promo (subarrayOf r.addr) = (look [] x.promo (subarrayOf r.addr)).filter (fun g => g.row ≠ cellarRow r.addr) := by
  have hne : (fun g : PromoTag => g.row != cellarRow r.addr) = fun g => decide (g.row ≠ cellarRow r.addr) := by
    funext g
    rw [decide_not, bne, beq_eq_decide]
  simp only [applyRowOp, hx, hk, demoteRow, ← hne]
  simp

theorem applyRowOp_promotion {x : Stack} {n : Nat} (hx : refusing x = false) (hk : r.kind < 2)
    (hrow : ∀ g ∈ look [] x.promo (subarrayOf r.addr), g.row ≠ cellarRow r.addr) (hn : n < 32)
    (hfree : ∀ g ∈ look [] x.promo (subarrayOf r.addr), g.slot ≠ n)
    (hlow : ∀ j, j < n → ∃ g ∈ look [] x.promo (subarrayOf r.addr), g.slot = j)
    (hheld : r.kind = 1 → heldCount (look [] x.promo (subarrayOf r.addr)) < 24) :
    look [] (applyRowOp x r).promo (subarrayOf r.addr) = look [] x.promo (subarrayOf r.addr) ++
      [{ slot := n, row := cellarRow r.addr, dirty := false, hold := decide (r.kind = 1) }] := by
  have hk2 : r.kind ≠ 2 := by omega
  have hp := promoteRow_free (h := r.kind == 1) hrow hn hfree hlow (by simpa using hheld)
  simp [applyRowOp, hx, hk2, hp]
  rfl

end

/-! ### Tokens of an instruction with no row left -/

/-- Freeing the reserved places of a push set moves no token. -/
theorem toks_release (c : Core) (e : Eng) (m : BitVec 4) (k : Nat) : (queueAt (release c e m) k).toks = (queueAt c k).toks := by
  unfold release
  generalize maskEngs m = l
  induction l generalizing c with
  | nil => rfl
  | cons q l ih =>
    rw [List.foldl_cons, ih, queueAt_setQueue]
    split
    next e => rw [e]
    · rfl

/-- Freeing the reserved places of a push set changes the token queues and nothing else of the core. -/
theorem release_eq (c : Core) (e : Eng) (m : BitVec 4) : release c e m = { c with tokens := (release c e m).tokens } := by
  unfold release
  generalize maskEngs m = l
  induction l generalizing c with
  | nil => rfl
  | cons q l ih => simp only [List.foldl_cons]; exact (ih _).trans rfl

theorem pushReserved_eq (c : Core) (e : Eng) (m : BitVec 4) (t : Token) :
    pushReserved c e m t = { c with tokens := (pushReserved c e m t).tokens } := by
  unfold pushReserved
  rw [pushNow_eq, release_eq]

/-- Each queue of a push set ends with the token. -/
theorem toks_pushReserved (c : Core) {e q : Eng} {m : BitVec 4} (t : Token) (he : e ∉ maskEngs m) (hq : q ∈ maskEngs m) :
    (queueAt (pushReserved c e m t) (queueCode e q)).toks = (queueAt c (queueCode e q)).toks ++ [t] := by
  have h := Squash.queueAt_pushes e t (maskEngs m) (maskEngs_nodup m) he (release c e m) (queueCode e q)
  rw [if_pos (List.mem_map_of_mem hq)] at h
  unfold pushReserved pushNow
  rw [h, ← toks_release c e m]

section
variable {c : Core} {e : Eng} {m : BitVec 4} {id : Nat} {t : Token} (h : c.trapFrame = none)
include h

theorem pushCommand_noFrame : pushCommand c e m id t = pushReserved c e m t := by
  unfold pushCommand
  rw [h]

theorem pushCommand_rowOps : (pushCommand c e m id t).rowOps = c.rowOps := by rw [pushCommand_noFrame h, pushReserved_eq]

theorem pushCommand_g : (pushCommand c e m id t).g = c.g := by rw [pushCommand_noFrame h, pushReserved_eq]

theorem toks_pushCommand {q : Eng} (he : e ∉ maskEngs m) (hq : q ∈ maskEngs m) :
    (queueAt (pushCommand c e m id t) (queueCode e q)).toks = (queueAt c (queueCode e q)).toks ++ [t] := by
  rw [pushCommand_noFrame h, toks_pushReserved c t he hq]

end

@[simp] theorem focus_arg (s : State) (c : Nat) : (focus s c).arg = s.arg := by unfold focus; split <;> rfl

@[simp] theorem focus_clk (s : State) (c : Nat) : (focus s c).clk = s.clk := by unfold focus; split <;> rfl

/-! ### The statement -/

section
variable (s : State)

theorem rowOperationsDone_pushes {id n : Nat} {m : BitVec 4}
    (hr : (focus s s.arg.core.toNat).core.rowOps[s.arg.n]? = some (0, id, m, n)) (hframe : (focus s s.arg.core.toNat).core.trapFrame = none)
    (ha : .a ∉ maskEngs m) :
    Completes (exec .evRowOperationsDone s) (fun t => t.core.rowOps = (focus s s.arg.core.toNat).core.rowOps.eraseIdx s.arg.n ∧
      SameMemory (focus s s.arg.core.toNat) t ∧ t.core.g = (focus s s.arg.core.toNat).core.g ∧
      ∀ e ∈ maskEngs m, ∃ tk, (queueAt t.core (queueCode .a e)).toks = (queueAt (focus s s.arg.core.toNat).core (queueCode .a e)).toks ++ [tk]) := by
  have hdone : execEvRowOperationsDone s = .next (modCore (focus s s.arg.core.toNat) (fun c => pushCommand
      { c with rowOps := c.rowOps.eraseIdx s.arg.n } .a m id { src := Eng.a.num, seq := n, cmd := some id, clk := s.clk })) := by
    unfold execEvRowOperationsDone
    simp only [focus_arg, focus_clk, hr]
  exact ⟨_, hdone, pushCommand_rowOps hframe, fun _ => rfl, pushCommand_g hframe, fun e he => ⟨_, toks_pushCommand (by exact hframe) ha he⟩⟩

end

theorem rowsMoveBetweenShelfAndCellar : RowsMoveBetweenShelfAndCellar := by
  intro s r k x a hr hold served
  have hpromotion (hk : r.kind < 2) := rowEvent_served (demote := false) (by simp; omega) hr hold
  have hdemotion (hk : r.kind = 2) := rowEvent_served (demote := true) (by simpa using hk) hr hold
  refine ⟨fun hk hx hrow n hn hfree hlow hheld => ?_, fun hk hx => ?_, fun hk hx => ?_, fun hk hx => ?_,
    fun id m n hr hframe ha => rowOperationsDone_pushes s hr hframe ha⟩
  · obtain ⟨hserved, hstack⟩ := hpromotion hk
    exact ⟨_, rfl, hserved, by rw [hstack]; exact applyRowOp_promotion hx hk hrow hn hfree hlow hheld⟩
  · obtain ⟨hserved, hstack⟩ := hpromotion hk
    rw [applyRowOp_refused_promotion hx hk] at hstack
    exact ⟨_, rfl, hserved, by rw [hstack], by rw [hstack]⟩
  · obtain ⟨hserved, hstack⟩ := hdemotion hk
    exact ⟨_, rfl, hserved, by rw [hstack]; exact applyRowOp_demotion hx hk⟩
  · obtain ⟨hserved, hstack⟩ := hdemotion hk
    rw [applyRowOp_refused_demotion hx hk] at hstack
    exact ⟨_, rfl, hserved, by rw [hstack], by rw [hstack]⟩

/-- A heartbeat that is missing at its time is counted, and the fourth fails the manager (R113). -/
theorem heartbeatMissed_counts {s : State} (hdue : (stackAt s s.arg.stack.toNat).lastBeat + 700 * ((stackAt s s.arg.stack.toNat).missed + 1) ≤ s.clk)
    (hgood : (stackAt s s.arg.stack.toNat).failed = false) :
    Completes (exec .evHeartbeatMissed s) (fun t => CoresSame s t ∧
      (stackAt t s.arg.stack.toNat).missed = (stackAt s s.arg.stack.toNat).missed + 1 ∧
      ((stackAt t s.arg.stack.toNat).failed = true ↔ 4 ≤ (stackAt s s.arg.stack.toNat).missed + 1) ∧
      (stackAt t s.arg.stack.toNat).fallbackEntries =
        if 4 ≤ (stackAt s s.arg.stack.toNat).missed + 1 then (stackAt s s.arg.stack.toNat).fallbackEntries + 1
        else (stackAt s s.arg.stack.toNat).fallbackEntries) := by
  refine ⟨_, rfl, coresSame_modStack .., ?_⟩
  have hnow : ¬ s.clk < (stackAt s s.arg.stack.toNat).lastBeat + beatClk * ((stackAt s s.arg.stack.toNat).missed + 1) := not_lt.2 hdue
  rw [stackAt_modStack, if_neg hnow, if_neg (by simp [hgood])]
  by_cases hfourth : 4 ≤ (stackAt s s.arg.stack.toNat).missed + 1
  · rw [if_neg (not_lt.2 hfourth)]
    exact ⟨rfl, by simp [hfourth], by rw [if_pos hfourth]⟩
  · rw [if_pos (not_le.1 hfourth)]
    exact ⟨rfl, by simp [hgood, hfourth], by rw [if_neg hfourth]⟩

theorem fallbackRefresh_posts {s : State} (hfailed : (stackAt s s.arg.stack.toNat).failed = true) :
    Completes (exec .evFallbackRefresh s) (fun t => CoresSame s t ∧
      (stackAt t s.arg.stack.toNat).refreshRow = ((stackAt s s.arg.stack.toNat).refreshRow + 1) % 32768 ∧
      ((stackAt s s.arg.stack.toNat).fallbackStart = none → (stackAt t s.arg.stack.toNat).fallbackStart = some s.clk ∧
        (dieAt t (s.arg.stack.toNat / 2)).mgmtPostings.length = (dieAt s (s.arg.stack.toNat / 2)).mgmtPostings.length + 1)) := by
  have hexec : exec .evFallbackRefresh s = execEvFallbackRefresh s := rfl
  rw [hexec]
  unfold execEvFallbackRefresh
  simp only [hfailed]
  cases hstart : (stackAt s s.arg.stack.toNat).fallbackStart with
  | some c => exact ⟨_, rfl, coresSame_setStack .., by simp [bankRows], fun h => by cases h⟩
  | none => exact ⟨_, rfl, coresSame_postMgmt_setStack .., by simp [bankRows], fun _ => ⟨by simp, by simp [postings_postMgmt]⟩⟩

theorem refreshHandback_posts {s : State} (hdue : handbackDue s (stackAt s s.arg.stack.toNat) = true) :
    Completes (exec .evRefreshHandback s) (fun t => CoresSame s t ∧ (stackAt t s.arg.stack.toNat).failed = false ∧
      refusing (stackAt t s.arg.stack.toNat) = true ∧
      (dieAt t (s.arg.stack.toNat / 2)).mgmtPostings.length = (dieAt s (s.arg.stack.toNat / 2)).mgmtPostings.length + 1) := by
  have hexec : exec .evRefreshHandback s = execEvRefreshHandback s := rfl
  rw [hexec]
  unfold execEvRefreshHandback
  simp only [hdue]
  exact ⟨_, rfl, coresSame_postMgmt_setStack .., by simp, by simp [refusing], by simp [postings_postMgmt]⟩

/-- A scrub that finds no error moves on to the next row and does nothing else (R112). -/
theorem scrub_advances {s : State} (hgood : (stackAt s s.arg.stack.toNat).failed = false) (herr : s.arg.dramErr = none) :
    exec .evScrub s = .next (modStack s s.arg.stack.toNat (fun x => { x with scrubRow := (x.scrubRow + 1) % bankRows })) := by
  have hexec : exec .evScrub s = execEvScrub s := rfl
  rw [hexec]
  unfold execEvScrub
  simp [hgood, herr, dramError]

theorem stacksKeepRefreshing : StacksKeepRefreshing := by
  intro s k x
  refine ⟨fun hgood => ⟨_, rfl, coresSame_modStack .., ?_⟩, fun hgood herr => ⟨_, scrub_advances hgood herr, coresSame_modStack .., stackAt_modStack ..⟩,
    ⟨_, rfl, coresSame_modStack .., ?_⟩, heartbeatMissed_counts, fallbackRefresh_posts, fun c hfailed hstart hready hlate hround => refreshHandback_posts ?_⟩
  · rw [stackAt_modStack, if_neg (by simpa using hgood)]
    rfl
  · rw [stackAt_modStack]
    simp [x, k]
  · have hstart' : (stackAt s s.arg.stack.toNat).fallbackStart = some c := hstart
    unfold handbackDue
    rw [hstart']
    simp only [Bool.and_eq_true, decide_eq_true_eq, beq_iff_eq]
    exact ⟨⟨⟨hfailed, hready⟩, hlate⟩, hround⟩

end Sys2Proof.Laws.Rows

namespace Sys2Proof

/-- Settles O36: a served row operation leaves its stack as `applyRowOp` does and takes one row from its instruction, and each event of
a stack's upkeep is one change of that stack. -/
theorem rowsAndRefresh : Obligations.RowsAndRefresh :=
  ⟨Laws.Rows.rowsMoveBetweenShelfAndCellar, Laws.Rows.stacksKeepRefreshing⟩

end Sys2Proof
end

section
/-!
PROOFS. L2 slices serve requests and fills, and their filter starts anew (R120, R121, R123): first part of what settles O37.
-/
namespace Sys2Proof.Laws.Slices

open Sys2Proof.Machine

/-! ### Cores left as they are -/

theorem coresSame_trans {s t u : State} (h : CoresSame s t) (h' : CoresSame t u) : CoresSame s u := by
  obtain ⟨hmem, hcur, hcore, hothers⟩ := h
  obtain ⟨hmem', hcur', hcore', hothers'⟩ := h'
  exact ⟨fun a => (hmem' a).trans (hmem a), hcur'.trans hcur, hcore'.trans hcore, hothers'.trans hothers⟩

theorem coresSame_modDie (s : State) (d : Nat) (f : Die → Die) : CoresSame s (modDie s d f) := ⟨fun _ => rfl, rfl, rfl, rfl⟩

theorem coresSame_setSlice (s : State) (x : Slice) : CoresSame s (setSlice s x) := coresSame_modDie ..

theorem coresSame_reportError (s : State) (q : L2Req) : CoresSame s (reportError s q) := by
  unfold reportError
  split
  · exact ⟨fun _ => rfl, rfl, rfl, rfl⟩
  · exact Rows.coresSame_modStack ..
  · exact coresSame_trans (Rows.coresSame_modStack ..) (coresSame_modDie ..)

/-! ### The slice of a request -/

theorem slice_setSlice (s : State) (x : Slice) : look {} (dieAt (setSlice s x) s.arg.die.toNat).slices s.arg.n = x := by simp [setSlice]

@[simp] theorem slices_reportError (s : State) (q : L2Req) (d : Nat) : (dieAt (reportError s q) d).slices = (dieAt s d).slices := by
  unfold reportError
  split
  · rfl
  · rfl
  · rw [dieAt_modDie]
    split
    next hd => rw [hd]; rfl
    · rfl

/-- What `toFront` finds stands first. -/
theorem toFront_head {α : Type} {p : α → Bool} {l : List α} (h : ∃ x ∈ l, p x = true) : ∃ x, (toFront p l).head? = some x ∧ p x = true := by
  obtain ⟨x, hx⟩ := Option.isSome_iff_exists.1 (List.find?_isSome.2 h)
  exact ⟨x, by simp [toFront, hx], List.find?_some hx⟩

theorem toFront_of_none {α : Type} {p : α → Bool} {l : List α} (h : l.any p = false) : toFront p l = l := by
  have hnone : l.find? p = none := List.find?_eq_none.2 (by simpa using h)
  simp [toFront, hnone]

theorem any_beq_eq_false {α : Type} {f : α → Nat} {l : List α} {n : Nat} : l.any (fun a => f a == n) = false ↔ ∀ a ∈ l, f a ≠ n := by
  simp [List.any_eq_false]

/-- What slice `x` becomes where it serves request `r`, the `n`-th it holds (R120, R121). -/
def served (x : Slice) (n : Nat) (r : L2Req) : Slice :=
  { x with
    requests := x.requests.eraseIdx n
    lines := toFront (fun l => l.line == r.line) x.lines
    fills := if x.lines.any (fun l => l.line == r.line) || r.write then x.fills else x.fills ++ [r] }

theorem served_present {x : Slice} {r : L2Req} (n : Nat) (h : ∃ l ∈ x.lines, l.line = r.line) :
    (served x n r).fills = x.fills ∧ ∃ l, (served x n r).lines.head? = some l ∧ l.line = r.line := by
  obtain ⟨l, hl, hline⟩ := toFront_head (p := fun (l : L2Line) => l.line == r.line) (by simpa using h)
  exact ⟨if_pos (by simp [h]), l, hl, by simpa using hline⟩

theorem served_absent {x : Slice} {r : L2Req} (n : Nat) (h : ∀ l ∈ x.lines, l.line ≠ r.line) :
    (served x n r).lines = x.lines ∧ (served x n r).fills = if r.write then x.fills else x.fills ++ [r] := by
  have hany := any_beq_eq_false.2 h
  exact ⟨toFront_of_none hany, by simp [served, hany]⟩

section
variable {s : State} {r : L2Req}

/-- The oldest request for a line that no fill is bringing is served, and a hit reports what its read from DRAM has met (R115). -/
theorem l2Request_serves (hr : (sliceNo s).requests[s.arg.len]? = some r) (hold : ∀ q ∈ (sliceNo s).requests.take s.arg.len, q.line ≠ r.line)
    (hfill : ∀ f ∈ (sliceNo s).fills, f.line ≠ r.line) :
    exec .evL2Request s = .next (setSlice s (served (sliceNo s) s.arg.len r)) ∨
      exec .evL2Request s = .next (reportError (setSlice s (served (sliceNo s) s.arg.len r)) r) := by
  have hexec : exec .evL2Request s = execEvL2Request s := rfl
  have hfree : ((sliceNo s).requests.take s.arg.len).any (fun q => q.line == r.line) = false ∧ (sliceNo s).fills.any (fun f => f.line == r.line) = false :=
    ⟨any_beq_eq_false.2 hold, any_beq_eq_false.2 hfill⟩
  rw [hexec]
  unfold execEvL2Request
  simp only [hr, hfree]
  cases hany : (sliceNo s).lines.any (fun l => l.line == r.line) with
  | true => right; simp [served, hany]
  | false =>
    left
    cases hw : r.write <;> simp [served, hany, hw, toFront_of_none]

/-- A fill of first-touch policy brings an absent line into a set with a free way. -/
theorem lineFill_allocates (hr : (sliceNo s).fills[s.arg.len]? = some r) (hpolicy : r.policy = 0) (habsent : ∀ l ∈ (sliceNo s).lines, l.line ≠ r.line)
    (hway : ((sliceNo s).lines.filter (fun l => l2Set l.line = l2Set r.line)).length < 16) :
    exec .evLineFill s = .next (reportError (setSlice s { sliceNo s with
      fills := (sliceNo s).fills.eraseIdx s.arg.len
      requests := (sliceNo s).requests.filter (fun q => q.line != r.line || q.write)
      lines := { line := r.line, dirty := false, pins := 0, noAlloc := false } :: (sliceNo s).lines }) r) := by
  have hexec : exec .evLineFill s = execEvLineFill s := rfl
  have hany : (sliceNo s).lines.any (fun l => l.line == r.line) = false := any_beq_eq_false.2 habsent
  have hset : ((sliceNo s).lines.filter (fun l => l2Set l.line == l2Set r.line)).length < 16 := by simpa [beq_eq_decide] using hway
  rw [hexec]
  unfold execEvLineFill
  simp [hr, hpolicy, l2Allocate, hany, hset]

end

theorem filterClear_clears {s : State} (h : (sliceNo s).misses = 65536) :
    exec .evFilterClear s = .next (setSlice s { sliceNo s with filter := [], misses := 0 }) := by
  have hexec : exec .evFilterClear s = execEvFilterClear s := rfl
  rw [hexec]
  unfold execEvFilterClear
  simp [h]

theorem slicesServeRequests : SlicesServeRequests := by
  intro s x y
  have hset (z : Slice) : y (setSlice s z) = z := slice_setSlice ..
  have hreport (z : Slice) (r : L2Req) : y (reportError (setSlice s z) r) = z := by simp only [y, slices_reportError]; exact slice_setSlice ..
  have hsame (z : Slice) (r : L2Req) : CoresSame s (reportError (setSlice s z) r) :=
    coresSame_trans (coresSame_setSlice ..) (coresSame_reportError ..)
  refine ⟨fun r hr hold hfill => ?_, fun r hr hpolicy habsent hway => ?_, fun h => ?_⟩
  · rcases l2Request_serves hr hold hfill with he | he
    · refine ⟨_, he, coresSame_setSlice .., ?_⟩
      rw [hset]
      exact ⟨rfl, served_present _, served_absent _⟩
    · refine ⟨_, he, hsame .., ?_⟩
      rw [hreport]
      exact ⟨rfl, served_present _, served_absent _⟩
  · refine ⟨_, lineFill_allocates hr hpolicy habsent hway, hsame .., ?_⟩
    rw [hreport]
    exact ⟨rfl, rfl⟩
  · refine ⟨_, filterClear_clears h, coresSame_setSlice .., ?_⟩
    rw [hset]
    exact ⟨rfl, rfl, rfl⟩

end Sys2Proof.Laws.Slices
end

section
/-!
PROOFS. Page walks end for everyone who waits (R136, R138, R139, R433): settles O37 with the slices' part.
-/
namespace Sys2Proof.Laws.Walks

open Sys2Proof.Machine

/-! ### Reading through the slices -/

/-- Of cores, images and dies, nothing but the dies' slices has changed. -/
structure OnlySlices (s t : State) : Prop where
  cur : t.cur = s.cur
  core : t.core = s.core
  others : t.others = s.others
  images : t.images = s.images
  dies : ∀ d, dieAt t d = { dieAt s d with slices := (dieAt t d).slices }

theorem OnlySlices.refl (s : State) : OnlySlices s s := ⟨rfl, rfl, rfl, rfl, fun _ => rfl⟩

theorem OnlySlices.trans {s t u : State} (h : OnlySlices s t) (h' : OnlySlices t u) : OnlySlices s u where
  cur := h'.cur.trans h.cur
  core := h'.core.trans h.core
  others := h'.others.trans h.others
  images := h'.images.trans h.images
  dies d := by rw [h'.dies d, h.dies d]

theorem OnlySlices.coreAt {s t : State} (h : OnlySlices s t) (k : Nat) : coreAt t k = coreAt s k := by
  unfold Machine.coreAt
  rw [h.cur, h.core, h.others]

theorem OnlySlices.walkQueue {s t : State} (h : OnlySlices s t) (d : Nat) : (dieAt t d).walkQueue = (dieAt s d).walkQueue := by rw [h.dies]

theorem OnlySlices.walkCache {s t : State} (h : OnlySlices s t) (d : Nat) : (dieAt t d).walkCache = (dieAt s d).walkCache := by rw [h.dies]

theorem onlySlices_foldl {α : Type} {f : State → α → State} (h : ∀ s x, OnlySlices s (f s x)) (l : List α) (s : State) : OnlySlices s (l.foldl f s) :=
  foldl_keeps (P := OnlySlices s) (fun t x ht => ht.trans (h t x)) l (OnlySlices.refl s)

theorem onlySlices_modSlice (s : State) (pa : Nat) (f : Slice → Slice) : OnlySlices s (modSlice s pa f) where
  cur := rfl
  core := rfl
  others := rfl
  images := rfl
  dies d := by
    unfold modSlice
    rw [dieAt_modDie]
    split
    next hd => rw [hd]
    · rfl

theorem onlySlices_promoWrite (s : State) (pa m : Nat) : OnlySlices s (promoWrite s pa m) := by
  unfold promoWrite
  split
  · exact ⟨rfl, rfl, rfl, rfl, fun _ => rfl⟩
  · exact .refl s

theorem onlySlices_spoilGranule (s : State) (pa : Nat) : OnlySlices s (spoilGranule s pa) := by
  unfold spoilGranule
  generalize List.range 32 = l
  have hpoke (t : State) (i : Nat) : OnlySlices t
      (pokeByte t (32 * (pa / 32) + i) (Config.badByte t.tick (32 * (pa / 32) + i)) (keysAt t (32 * (pa / 32) + i))) := ⟨rfl, rfl, rfl, rfl, fun _ => rfl⟩
  have hmark (t : State) : OnlySlices t (setMark t (pa / 32) true) := ⟨rfl, rfl, rfl, rfl, fun _ => rfl⟩
  exact OnlySlices.trans (t := newMoment s) ⟨rfl, rfl, rfl, rfl, fun _ => rfl⟩ ((onlySlices_foldl hpoke l _).trans (hmark _))

theorem onlySlices_askSlice (s : State) (who pa policy : Nat) (write : Bool) : OnlySlices s (askSlice s who pa policy write) := by
  unfold askSlice
  split
  · exact .refl s
  · refine OnlySlices.trans ?_ (onlySlices_modSlice ..)
    split
    · exact (onlySlices_spoilGranule ..).trans (onlySlices_promoWrite ..)
    · exact .refl s
    · exact .refl s

/-- A walker's reads of its table entries change nothing of cores and walks. -/
theorem onlySlices_readWords (s : State) (d : Nat) (root : Word) (v : Nat) (asks : List WalkAsk) : OnlySlices s (readWords s d root v asks) :=
  onlySlices_foldl (fun _ _ => onlySlices_askSlice ..) _ _

/-- Whether the task of a core's access can be rolled back depends on cores and images alone. -/
theorem canRollBack_askTask {s t : State} {a : WalkAsk} (hcores : ∀ k, coreAt t k = coreAt s k) (himages : t.images = s.images)
    (ha : a.who < 256) : canRollBack t (askTask t a) = canRollBack s (askTask s a) := by
  have htask : askTask t a = askTask s a := by simp [askTask, ha, hcores]
  unfold canRollBack
  simp only [htask, hcores, himages]

/-- Poison that the only access has met, of a task that cannot be rolled back, is a failure of cause 6 (R433). -/
theorem poisonAsk_fails {s : State} {g : Nat} {as : List WalkAsk} {a : WalkAsk} (has : as = [a]) (h : canRollBack s (askTask s a) = false) :
    as.foldl (poisonAsk g) s = failWalk g 6 s a := by
  rw [has]
  simp [poisonAsk, h]

/-! ### The end of a walk -/

/-- Access `a`, of the current core, has cause `c` for granule `g`: the requests for the granule have left the queue, and nothing is installed. -/
structure AccessRefused (s p t : State) (d asn g c : Nat) (a : WalkAsk) : Prop where
  queue : (dieAt t d).walkQueue = (dieAt s d).walkQueue.filter (fun r => !r.same asn g)
  memory : SameMemory p t
  tlb : t.core.tlb = s.core.tlb
  walkCache : (dieAt t d).walkCache = (dieAt s d).walkCache
  cause : t.core.walkFail.head? = some { granule := g, cause := c, ask := a }

/-- The requests for granule `g` leave a die's queue. -/
def unqueued (asn g : Nat) (x : Die) : Die := { x with walkQueue := x.walkQueue.filter (fun r => !r.same asn g) }

/-- Die `x` after a walk for access `a` that came to `r` by the pointers `ps`. -/
def walkEnded (asn g : Nat) (r : Except Nat TlbEntry) (ps : List WalkEntry) (a : WalkAsk) (x : Die) : Die :=
  unqueued asn g (if (refusedFor r (g * 65536) a).isNone then addWalkEntries x ps else x)

/-- A walk that one access waits for comes to that access's result. -/
theorem endWalk_of_one {p : State} {d g : Nat} {root : Word} {r : Except Nat TlbEntry} {ps : List WalkEntry} {a : WalkAsk}
    (hwalk : walk p (dieAt p d) root (g * 65536) = (r, ps))
    (hasks : ((dieAt p d).walkQueue.filter (fun q => q.same (bits root 63 52) g)).flatMap WalkReq.asks = [a]) :
    (endWalk p d root (g * 65536) []).1 = walkResult g r (modDie p d (walkEnded (bits root 63 52) g r ps a)) a := by
  have hg : g * 65536 / 65536 = g := Nat.mul_div_cancel g (by decide)
  unfold endWalk
  simp only [hwalk, hg, hasks, List.append_nil, List.any_cons, List.any_nil, Bool.or_false, List.foldl_cons, List.foldl_nil]
  rfl

section
variable {s p : State} {d asn g c : Nat} {a : WalkAsk} (hp : OnlySlices s p) (hcur : s.cur < 256) (ha : a.who = s.cur)
include hp hcur ha

/-- A walk's failure for the current core is noted there. -/
theorem failWalk_refused : AccessRefused s p (failWalk g c (modDie p d (unqueued asn g)) a) d asn g c a := by
  have hwho : a.who = (modDie p d (unqueued asn g)).cur := ha.trans hp.cur.symm
  unfold failWalk
  rw [if_pos (by omega), modCoreAt, if_pos hwho]
  refine ⟨?_, fun _ => rfl, by rw [← hp.core]; rfl, ?_, rfl⟩
  · exact (congrArg Die.walkQueue (dieAt_modDie_self ..)).trans (by simp [unqueued, hp.walkQueue])
  · exact (congrArg Die.walkCache (dieAt_modDie_self ..)).trans (hp.walkCache d)

theorem walkResult_refused {r : Except Nat TlbEntry} {ps : List WalkEntry} (hr : refusedFor r (g * 65536) a = some c) :
    AccessRefused s p (walkResult g r (modDie p d (walkEnded asn g r ps a)) a) d asn g c a := by
  have hended : walkEnded asn g r ps a = unqueued asn g := by funext x; simp [walkEnded, hr]
  have hresult : walkResult g r (modDie p d (unqueued asn g)) a = failWalk g c (modDie p d (unqueued asn g)) a := by simp [walkResult, hr]
  rw [hended, hresult]
  exact failWalk_refused hp hcur ha

/-- A walk that succeeds for the current core gives its TLB the page. -/
theorem walkResult_installed {e : TlbEntry} {ps : List WalkEntry} (hr : refusedFor (.ok e) (g * 65536) a = none) :
    let t := walkResult g (.ok e) (modDie p d (walkEnded asn g (.ok e) ps a)) a
    (dieAt t d).walkQueue = (dieAt s d).walkQueue.filter (fun r => !r.same asn g) ∧ SameMemory p t ∧ t.core.g = s.core.g ∧ t.core.tlb.head? = some e := by
  have hwho : a.who = (modDie p d (walkEnded asn g (.ok e) ps a)).cur := ha.trans hp.cur.symm
  have hresult : walkResult g (.ok e) (modDie p d (walkEnded asn g (.ok e) ps a)) a =
      modCore (modDie p d (walkEnded asn g (.ok e) ps a)) (fun x => { x with tlb := tlbAdd x.tlb 256 e }) := by
    unfold walkResult
    simp only [hr]
    rw [if_pos (by omega), modCoreAt, if_pos hwho]
    rfl
  intro t
  have ht : t = _ := hresult
  rw [ht]
  refine ⟨?_, fun _ => rfl, by rw [← hp.core]; rfl, by simp [tlbAdd]⟩
  simp [walkEnded, unqueued, hr, addWalkEntries, hp.walkQueue]

end

/-! ### The statement -/

section
variable {s : State} {q : WalkReq} (hq : (dieAt s s.arg.die.toNat).walkQueue[s.arg.n]? = some q) (hn : s.arg.n < 128)
include hq hn

theorem pageWalk_ends (hmark : q.mark = false)
    (hpoison : walkPoison (readWords s s.arg.die.toNat q.root (q.granule * 65536) q.asks) s.arg.die.toNat q.root (q.granule * 65536) = false) :
    exec .evPageWalk s =
      .next (endWalk (readWords s s.arg.die.toNat q.root (q.granule * 65536) q.asks) s.arg.die.toNat q.root (q.granule * 65536) []).1 := by
  have hexec : exec .evPageWalk s = execEvPageWalk s := rfl
  rw [hexec]
  unfold execEvPageWalk
  simp [hn, hq, hmark, hpoison]

theorem pageWalk_meetsPoison (h : q.mark = true ∨
      walkPoison (readWords s s.arg.die.toNat q.root (q.granule * 65536) q.asks) s.arg.die.toNat q.root (q.granule * 65536) = true) :
    exec .evPageWalk s = .next (q.asks.foldl (poisonAsk q.granule)
      (modDie (readWords s s.arg.die.toNat q.root (q.granule * 65536) q.asks) s.arg.die.toNat (unqueued q.asn q.granule))) := by
  have hexec : exec .evPageWalk s = execEvPageWalk s := rfl
  rw [hexec]
  unfold execEvPageWalk
  simp [hn, hq, h]
  rfl

end

theorem walksEnd : WalksEnd := by
  intro s q a d same p hq hn hcur hasks ha
  have hp : OnlySlices s p := onlySlices_readWords ..
  have hasks' : ((dieAt p d).walkQueue.filter same).flatMap WalkReq.asks = [a] := by rw [hp.walkQueue]; exact hasks
  refine ⟨fun hmark hpoison => ?_, fun hpoison hask hrb => ?_⟩
  · have hends (r : Except Nat TlbEntry) (ps : List WalkEntry) (hwalk : walk p (dieAt p d) q.root (q.granule * 65536) = (r, ps)) :
        exec .evPageWalk s = .next (walkResult q.granule r (modDie p d (walkEnded (bits q.root 63 52) q.granule r ps a)) a) :=
      (pageWalk_ends hq hn hmark hpoison).trans (congrArg _ (endWalk_of_one hwalk hasks'))
    refine ⟨fun e ps hwalk => ⟨fun hr => ⟨_, hends _ _ hwalk, walkResult_installed hp hcur ha hr⟩, fun c hr => ?_⟩, fun c ps hwalk => ?_⟩
    · have h := walkResult_refused (d := d) (asn := bits q.root 63 52) (ps := ps) hp hcur ha hr
      exact ⟨_, hends _ _ hwalk, h.memory, h.tlb, h.walkCache, h.cause⟩
    · have h := walkResult_refused (d := d) (asn := bits q.root 63 52) (g := q.granule) (r := .error c) (ps := ps) hp hcur ha rfl
      exact ⟨_, hends _ _ hwalk, h.queue, h.memory, h.tlb, h.walkCache, h.cause⟩
  · have hstay := (canRollBack_askTask (t := modDie p d (unqueued q.asn q.granule)) hp.coreAt hp.images (by omega)).trans hrb
    have h := failWalk_refused (d := d) (asn := q.asn) (g := q.granule) (c := 6) hp hcur ha
    exact ⟨_, (pageWalk_meetsPoison hq hn hpoison).trans (congrArg _ (poisonAsk_fails hask hstay)), h.memory, h.tlb, h.walkCache, h.queue, h.cause⟩

end Sys2Proof.Laws.Walks

namespace Sys2Proof

/-- Settles O37: a slice that serves a request becomes `served`, and a walk's end reaches the one access that waits for it as an installed page
or as a noted cause. -/
theorem slicesAndWalks : Obligations.SlicesAndWalks := ⟨Laws.Slices.slicesServeRequests, Laws.Walks.walksEnd⟩

end Sys2Proof
end

section
/-!
PROOFS. The commands of the code cache's and the walk pool's FIFOs (R130, R140): first part of what settles O38.
-/
namespace Sys2Proof.Laws.Invalidations

open Sys2Proof.Machine

/-! ### Answers -/

theorem coresSame_answer (s : State) (d k : Nat) (c : Cmd) (v : Word) (t : Nat) (f : Option FaultRec) : CoresSame s (answer s d k c v t f) :=
  ⟨fun _ => rfl, rfl, rfl, rfl⟩

@[simp] theorem coreAt_answer (s : State) (d k : Nat) (c : Cmd) (v : Word) (t : Nat) (f : Option FaultRec) (n : Nat) :
    coreAt (answer s d k c v t f) n = coreAt s n := rfl

/-- An answer changes nothing of a die but its FIFOs. -/
theorem dieAt_answer (s : State) (d k : Nat) (c : Cmd) (v : Word) (t : Nat) (f : Option FaultRec) (e : Nat) :
    dieAt (answer s d k c v t f) e = { dieAt s e with fifos := (dieAt (answer s d k c v t f) e).fifos } := by
  unfold answer postResult postRes setFifo
  by_cases h : e = d
  · subst h; simp
  · simp [dieAt_modDie, h]

/-- A command answered in a state whose FIFO is that of `s` has been answered since `s`. -/
theorem answered_answer {s t : State} {d k : Nat} {c : Cmd} {v : Word} (h : fifoAt t d k = fifoAt s d k) :
    Answered s (answer t d k c v 0 none) d k c v := by
  have hf : fifoAt (answer t d k c v 0 none) d k =
      { dropCmd (fifoAt s d k) c with results := (fifoAt s d k).results ++ [{ ctx := c.ctx, val := v, release := { time := 0 }, fault := none }] } := by
    rw [fifoAt_answer, if_pos ⟨rfl, rfl⟩, h]
  exact ⟨congrArg Fifo.cmds hf, _, congrArg Fifo.results hf, rfl, rfl⟩

/-- An outcome by which the command is answered, and of the rest of the state the part that `g` reads is left as it was. -/
theorem answered_only {β : Type} {s : State} {i : Instr} {d k : Nat} {c : Cmd} {v : Word} (g : Die → β) (hg : ∀ x fs, g { x with fifos := fs } = g x)
    (h : exec i s = .next (answer s d k c v 0 none)) :
    Completes (exec i s) (fun t => CoresSame s t ∧ Answered s t d k c v ∧ g (dieAt t d) = g (dieAt s d)) :=
  ⟨_, h, coresSame_answer .., answered_answer rfl, by rw [dieAt_answer, hg]⟩

/-! ### Changes of many cores -/

@[simp] theorem modCoreAt_dies (s : State) (k : Nat) (f : Core → Core) : (modCoreAt s k f).dies = s.dies := by unfold modCoreAt; split <;> rfl

@[simp] theorem modCores_dies (s : State) (p : Nat → Bool) (f : Core → Core) : (modCores s p f).dies = s.dies :=
  foldl_same (g := State.dies) (fun _ _ => by split <;> simp) _ _

@[simp] theorem countLost_dies (s : State) (x : CodeSector) : (countLost s x).dies = s.dies := by
  unfold countLost
  dsimp only
  split
  · rfl
  · exact foldl_same (g := State.dies) (fun _ _ => modCoreAt_dies ..) _ _

theorem fifoAt_of_fifos {s t : State} {d : Nat} (h : (dieAt t d).fifos = (dieAt s d).fifos) (k : Nat) : fifoAt t d k = fifoAt s d k := by
  unfold fifoAt
  rw [h]

/-- A change that made twice is made once reaches each of the cores that `p` names, once. -/
theorem coreAt_foldl_modCoreAt {p : Nat → Bool} {f : Core → Core} (hf : ∀ c, f (f c) = f c) (l : List Nat) (s : State) (k : Nat) :
    coreAt (l.foldl (fun s c => if p c then modCoreAt s c f else s) s) k = if k ∈ l ∧ p k = true then f (coreAt s k) else coreAt s k := by
  induction l generalizing s with
  | nil => simp
  | cons c l ih =>
    have hstep : coreAt (if p c then modCoreAt s c f else s) k = if k = c ∧ p c = true then f (coreAt s k) else coreAt s k := by
      by_cases hc : p c = true
      · by_cases hk : k = c <;> simp [hc, hk, coreAt_modCoreAt]
      · simp [hc]
    rw [List.foldl_cons, ih, hstep]
    by_cases hk : k = c
    · subst hk
      by_cases hp : p k = true <;> simp [hp, hf]
    · simp [hk]

theorem coreAt_modCores {f : Core → Core} (hf : ∀ c, f (f c) = f c) (s : State) (p : Nat → Bool) (k : Nat) :
    coreAt (modCores s p f) k = if (k = s.cur ∨ k ∈ s.others.map Prod.fst) ∧ p k = true then f (coreAt s k) else coreAt s k := by
  unfold modCores
  rw [coreAt_foldl_modCoreAt hf]
  simp only [List.mem_cons]

/-! ### Code pages (R130) -/

theorem dieAt_dropCode (s : State) (d : Nat) (p : Nat → Bool) :
    dieAt (dropCode s d p) d = { dieAt s d with codeCache := (dieAt s d).codeCache.filter (fun c => !p c.page) } := by
  have hdies := (foldl_same (g := State.dies) countLost_dies (((dieAt s d).codeCache.filter (fun c => p c.page)).flatMap (fun c => c.sectors.map Prod.snd))
    (modCores (modDie s d (fun x => { x with codeCache := x.codeCache.filter (fun c => !p c.page) })) (fun c => dieOfCore c == d)
      (fun c => { c with codeBuffer := c.codeBuffer.filter (fun f => !p f.page) }))).trans (modCores_dies ..)
  exact (dieAt_of_dies hdies d).trans (dieAt_modDie_self ..)

/-- Code pages dropped and the command answered: no page that `p` names is left in the die's code cache. -/
theorem answer_dropCode {s : State} {d : Nat} {c : Cmd} {p : Nat → Bool} {P : Nat → Prop} (hp : ∀ g, P g → p g = true) :
    SameMemory s (answer (dropCode s d p) d fifoCode c 0 0 none) ∧ Answered s (answer (dropCode s d p) d fifoCode c 0 0 none) d fifoCode c 0 ∧
      ∀ g ∈ (dieAt (answer (dropCode s d p) d fifoCode c 0 0 none) d).codeCache, ¬P g.page := by
  refine ⟨memByte_of_mem (by simp), answered_answer (fifoAt_of_fifos (by rw [dieAt_dropCode]) _), fun g hg hP => ?_⟩
  rw [dieAt_answer, dieAt_dropCode] at hg
  simpa [hp _ hP] using (List.mem_filter.1 hg).2

section
variable {s : State} {c : Cmd} (hc : nextCmd (fifoAt s s.arg.die.toNat fifoCode) = some c)
include hc

theorem invalidatePages_malformed (hcode : bits (wordAt c.words 0) 7 0 ≠ 1)
    (hbad : bits (wordAt c.words 0) 31 0 ≠ 0 ∨ bits (wordAt c.words 0) 63 32 = 0 ∨ 65536 < bits (wordAt c.words 0) 63 32 ∨
      (wordAt c.words 1).toNat % 16384 ≠ 0) :
    exec .evInvalidatePages s = .next (answer s s.arg.die.toNat fifoCode c 1 0 none) := by
  have hexec : exec .evInvalidatePages s = execEvInvalidatePages s := rfl
  rw [hexec]
  unfold execEvInvalidatePages
  simp only [hc]
  rw [if_neg (by simpa using hcode), if_pos (by simpa [or_assoc] using hbad)]

theorem invalidatePages_drops (hcode : bits (wordAt c.words 0) 7 0 ≠ 1) (hzero : bits (wordAt c.words 0) 31 0 = 0)
    (hpos : 0 < bits (wordAt c.words 0) 63 32) (hmax : bits (wordAt c.words 0) 63 32 ≤ 65536) (haddr : (wordAt c.words 1).toNat % 16384 = 0) :
    exec .evInvalidatePages s = .next (answer (dropCode s s.arg.die.toNat (fun p => decide ((wordAt c.words 1).toNat / 16384 ≤ p) &&
      decide (p < (wordAt c.words 1).toNat / 16384 + bits (wordAt c.words 0) 63 32))) s.arg.die.toNat fifoCode c 0 0 none) := by
  have hexec : exec .evInvalidatePages s = execEvInvalidatePages s := rfl
  rw [hexec]
  unfold execEvInvalidatePages
  simp only [hc]
  rw [if_neg (by simpa using hcode), if_neg (by simp; omega)]

theorem invalidateAll_answers (hcode : bits (wordAt c.words 0) 7 0 = 1) :
    exec .evInvalidateAll s = .next (if bits (wordAt c.words 0) 31 8 ≠ 0 then answer s s.arg.die.toNat fifoCode c 1 0 none
      else answer (dropCode s s.arg.die.toNat (fun _ => true)) s.arg.die.toNat fifoCode c 0 0 none) := by
  have hexec : exec .evInvalidateAll s = execEvInvalidateAll s := rfl
  rw [hexec]
  unfold execEvInvalidateAll
  by_cases h : bits (wordAt c.words 0) 31 8 = 0 <;> simp [hc, hcode, h]

end

/-- A command code is the low part of its record's low half. -/
theorem low_half_ne_zero {w : Word} (h : bits w 7 0 ≠ 0) : bits w 31 0 ≠ 0 := by
  simp only [bits] at h ⊢
  omega

/-! ### Translations (R140) -/

section
variable (s : State) (d : Nat) (p : Nat → Nat → Nat → Bool)

theorem dropWalks_fifos : (dieAt (dropWalks s d p) d).fifos = (dieAt s d).fifos := by
  unfold dropWalks
  rw [dieAt_of_dies (modCores_dies ..), dieAt_modDie_self]

/-- A translation that `p` names is left in no core of the die. -/
theorem tlb_dropWalks {k : Nat} (hd : dieOfCore k = d) (hk : k = s.cur ∨ k ∈ s.others.map Prod.fst) :
    (coreAt (dropWalks s d p) k).tlb = (coreAt s k).tlb.filter (fun e => !p e.asn e.base e.size) := by
  unfold dropWalks
  rw [coreAt_modCores (fun c => by simp [sysNow]), if_pos ⟨hk, by simpa using hd⟩]
  rfl

end

/-- Translations dropped and the command answered: none that `P` names is left in a core of the die. -/
theorem answer_dropWalks {s : State} {d : Nat} {c : Cmd} {p : Nat → Nat → Nat → Bool} {P : TlbEntry → Prop} (hp : ∀ e, P e → p e.asn e.base e.size = true) :
    SameMemory s (answer (dropWalks s d p) d fifoWalk c 0 0 none) ∧ Answered s (answer (dropWalks s d p) d fifoWalk c 0 0 none) d fifoWalk c 0 ∧
      ∀ k, dieOfCore k = d → (k = s.cur ∨ k ∈ s.others.map Prod.fst) → ∀ e ∈ (coreAt (answer (dropWalks s d p) d fifoWalk c 0 0 none) k).tlb, ¬P e := by
  refine ⟨memByte_of_mem (by simp), answered_answer (fifoAt_of_fifos (dropWalks_fifos ..) _), fun k hd hk e he hP => ?_⟩
  rw [coreAt_answer, tlb_dropWalks s d p hd hk] at he
  simpa [hp e hP] using (List.mem_filter.1 he).2

/-- What makes a record with a code that is not reserved malformed (R140). -/
theorem walkCmdBad_iff {code : Nat} {w a : Word} : walkCmdBad code w a = true ↔
    bits w 15 8 ≠ 0 ∨ (code < 2 ∧ bits w 31 28 ≠ 0) ∨ (code = 0 ∧ (bits w 63 32 = 0 ∨ 2 ^ 28 < bits w 63 32 ∨ a.toNat % 65536 ≠ 0)) := by
  simp [walkCmdBad, or_assoc]

/-- A translation that command 0 names: of its address space, and with an address in its range. -/
def inRange (w a : Word) (asn base size : Nat) : Bool :=
  asn == bits w 27 16 && decide (base < a.toNat + 65536 * bits w 63 32) && decide (a.toNat < base + size)

theorem exec_invalidateRange (s : State) : exec .evInvalidateRange s = walkCommand s (fun c => c != 1 && c != 2) inRange := rfl

theorem exec_invalidateAsn (s : State) : exec .evInvalidateAsn s = walkCommand s (fun c => c == 1) (fun w _ asn _ _ => asn == bits w 27 16) := rfl

theorem exec_tlbInvalidateAll (s : State) : exec .evTlbInvalidateAll s = walkCommand s (fun c => c == 2) (fun _ _ _ _ _ => true) := rfl

section
variable {s : State} {c : Cmd} {mine : Nat → Bool} {p : Word → Word → Nat → Nat → Nat → Bool}
  (hc : nextCmd (fifoAt s s.arg.die.toNat fifoWalk) = some c) (hmine : mine (bits (wordAt c.words 0) 7 0) = true)
include hc hmine

theorem walkCommand_malformed (hbad : 2 < bits (wordAt c.words 0) 7 0 ∨
      walkCmdBad (bits (wordAt c.words 0) 7 0) (wordAt c.words 0) (wordAt c.words 1) = true) :
    walkCommand s mine p = .next (answer s s.arg.die.toNat fifoWalk c 1 0 none) := by
  unfold walkCommand
  simp only [hc, hmine]
  rw [if_neg (by simp), if_pos (by simpa using hbad)]

theorem walkCommand_drops (hcode : bits (wordAt c.words 0) 7 0 ≤ 2)
    (hgood : ¬walkCmdBad (bits (wordAt c.words 0) 7 0) (wordAt c.words 0) (wordAt c.words 1) = true) :
    walkCommand s mine p = .next (answer (dropWalks s s.arg.die.toNat (p (wordAt c.words 0) (wordAt c.words 1))) s.arg.die.toNat fifoWalk c 0 0 none) := by
  unfold walkCommand
  simp only [hc, hmine]
  rw [if_neg (by simp), if_neg (by simp [hgood]; omega)]

end

/-! ### The statement -/

theorem walkCommand_malformed_only {s : State} {c : Cmd} {i : Instr} (h : exec i s = .next (answer s s.arg.die.toNat fifoWalk c 1 0 none)) :
    Completes (exec i s) (fun t => CoresSame s t ∧ Answered s t s.arg.die.toNat fifoWalk c 1 ∧
      (dieAt t s.arg.die.toNat).walkCache = (dieAt s s.arg.die.toNat).walkCache ∧ (dieAt t s.arg.die.toNat).tlbs = (dieAt s s.arg.die.toNat).tlbs) := by
  obtain ⟨t, ht, hsame, hans, hdie⟩ := answered_only (fun x => (x.walkCache, x.tlbs)) (fun _ _ => rfl) h
  exact ⟨t, ht, hsame, hans, congrArg Prod.fst hdie, congrArg Prod.snd hdie⟩

theorem invalidationsRemove : InvalidationsRemove := by
  intro s c
  dsimp only
  refine ⟨fun hc => ?_, fun hc => ?_⟩
  · have hmalformed {i : Instr} := answered_only (s := s) (i := i) (d := s.arg.die.toNat) (k := fifoCode) (c := c) (v := 1) Die.codeCache (fun _ _ => rfl)
    refine ⟨fun hcode hzero hpos hmax haddr => ?_, fun hcode hbad => ?_, fun hcode hbad => ?_, fun hcode => ?_, fun hcode hgood => ?_, fun hcode hbad => ?_⟩
    · exact ⟨_, invalidatePages_drops hc (by omega) hzero hpos hmax haddr, answer_dropCode (P := fun g => (wordAt c.words 1).toNat / 16384 ≤ g ∧
        g < (wordAt c.words 1).toNat / 16384 + bits (wordAt c.words 0) 63 32) (by simp)⟩
    · exact hmalformed (invalidatePages_malformed hc (by omega) (.inr hbad))
    · exact hmalformed (invalidatePages_malformed hc (by omega) (.inl hbad))
    · exact hmalformed (invalidatePages_malformed hc (by omega) (.inl (low_half_ne_zero (by omega))))
    · exact ⟨_, (invalidateAll_answers hc hcode).trans (congrArg _ (if_neg (by simpa using hgood))),
        answer_dropCode (P := fun _ => True) (fun _ _ => rfl)⟩
    · exact hmalformed ((invalidateAll_answers hc hcode).trans (congrArg _ (if_pos hbad)))
  · refine ⟨fun hcode hres hasn hpos hmax haddr => ?_, fun hcode hres hasn => ?_, fun hcode hres => ?_, fun hcode h => ?_, fun hcode h => ?_,
      fun hcode h => ?_, fun hcode => ?_⟩
    · have he := walkCommand_drops (mine := fun c => c != 1 && c != 2) (p := inRange) hc (by simp [hcode]) (by omega) (by rw [walkCmdBad_iff]; omega)
      exact ⟨_, (exec_invalidateRange s).trans he, answer_dropWalks (by simp [inRange, and_assoc])⟩
    · have he := walkCommand_drops (mine := fun c => c == 1) (p := fun w _ asn _ _ => asn == bits w 27 16) hc (by simp [hcode]) (by omega)
        (by rw [walkCmdBad_iff]; omega)
      exact ⟨_, (exec_invalidateAsn s).trans he, answer_dropWalks (by simp)⟩
    · have he := walkCommand_drops (mine := fun c => c == 2) (p := fun _ _ _ _ _ => true) hc (by simp [hcode]) (by omega)
        (by rw [walkCmdBad_iff]; omega)
      exact ⟨_, (exec_tlbInvalidateAll s).trans he, answer_dropWalks (P := fun _ => True) (fun _ _ => rfl)⟩
    · exact walkCommand_malformed_only ((exec_invalidateRange s).trans
        (walkCommand_malformed hc (by simp [hcode]) (.inr (walkCmdBad_iff.2 (by omega)))))
    · exact walkCommand_malformed_only ((exec_invalidateAsn s).trans
        (walkCommand_malformed hc (by simp [hcode]) (.inr (walkCmdBad_iff.2 (by omega)))))
    · exact walkCommand_malformed_only ((exec_tlbInvalidateAll s).trans
        (walkCommand_malformed hc (by simp [hcode]) (.inr (walkCmdBad_iff.2 (.inl h)))))
    · exact walkCommand_malformed_only ((exec_invalidateRange s).trans (walkCommand_malformed hc (by simp; omega) (.inl hcode)))

end Sys2Proof.Laws.Invalidations
end

section
/-!
PROOFS. Page migration and the release of old frames (R165, R166): settles O38 with the invalidations' part.
-/
namespace Sys2Proof.Laws.Migrations

open Sys2Proof.Machine

/-! ### Malformed commands -/

theorem migrateBad_iff {c : Cmd} : migrateBad c = true ↔
    1 < bits (wordAt c.words 1) 7 0 ∨ bits (wordAt c.words 1) 31 8 ≠ 0 ∨ bits (wordAt c.words 1) 63 44 ≠ 0 := by
  unfold migrateBad migrateCode
  simp [or_assoc]

/-- No migration is found where all have been answered. -/
theorem find?_unanswered {ms : List Migration} (h : ∀ m ∈ ms, m.answered = true) (p : Migration → Bool) : ms.find? (fun m => !m.answered && p m) = none :=
  List.find?_eq_none.2 (fun m hm => by simp [h m hm])

section
variable {s : State} {c : Cmd} (hc : nextCmd (fifoAt s s.arg.die.toNat fifoMigration) = some c)
include hc

section
variable (hcode : migrateCode c ≠ 1) (hidle : ∀ m ∈ (dieAt s s.arg.die.toNat).migrations, m.answered = true)
include hcode hidle

theorem migrate_malformed (hbad : migrateBad c = true) : exec .evMigrate s = .next (answer s s.arg.die.toNat fifoMigration c 1 0 none) := by
  have hexec : exec .evMigrate s = execEvMigrate s := rfl
  rw [hexec]
  unfold execEvMigrate
  simp only [find?_unanswered hidle, hc]
  rw [if_neg (by simpa using hcode), if_pos hbad]

/-- A migration whose leaf is valid starts, or ends with 2 where its new frame does not fit (R165). -/
theorem migrate_starts {t : State} {e : TlbEntry} (hgood : ¬migrateBad c = true) (hleaf : migrateLeaf s s.arg.die.toNat c = (t, some e)) :
    exec .evMigrate s = .next (if frameFits (wordAt c.words 2).toNat e.size = true then
        modDie t s.arg.die.toNat (fun x => { x with migrations := x.migrations ++
          [{ old := leafFrame e.leaf, new := (wordAt c.words 2).toNat, size := e.size, pushed := false, switched := false, stamp := c.stamp, core := c.core }] })
      else answer t s.arg.die.toNat fifoMigration c 2 0 none) := by
  have hexec : exec .evMigrate s = execEvMigrate s := rfl
  have hnone : (dieAt s s.arg.die.toNat).migrations.find? (fun m => !m.answered) = none := by simpa using find?_unanswered hidle (fun _ => true)
  rw [hexec]
  unfold execEvMigrate
  simp only [find?_unanswered hidle, hc]
  rw [if_neg (by simpa using hcode), if_neg hgood]
  simp only [hnone, hleaf]
  split <;> rfl

end

theorem release_malformed (hcode : migrateCode c = 1) (hbad : migrateBad c = true) :
    exec .evReleaseOldFrame s = .next (answer s s.arg.die.toNat fifoMigration c 1 0 none) := by
  have hexec : exec .evReleaseOldFrame s = execEvReleaseOldFrame s := rfl
  rw [hexec]
  unfold execEvReleaseOldFrame
  simp only [hc]
  rw [if_neg (by simp [hcode]), if_pos hbad]

end

/-! ### The release of a frame -/

/-- The redirect from frame `old` goes from a die. -/
def forget (old : Nat) (x : Die) : Die := { x with migrations := x.migrations.filter (fun m => m.old != old || !m.switched) }

/-- The redirect from frame `old` goes from the dies `ds`, and from what cores keep of settled records. -/
def released (s : State) (old size : Nat) (ds : List Nat) : State :=
  ds.foldl (fun s e => modDie s e (forget old)) (renameRecords s old size)

/-- A frame that one migration names is released, unless a log still names it (R166). -/
theorem release_of_moved {s : State} {c : Cmd} {m : Migration} (hc : nextCmd (fifoAt s s.arg.die.toNat fifoMigration) = some c)
    (hcode : migrateCode c = 1) (hgood : ¬migrateBad c = true) (hm : s.dies.flatMap (fun x => x.2.migrations) = [m]) (hold : m.old = (wordAt c.words 2).toNat) :
    exec .evReleaseOldFrame s = .next (if logsName s m.old m.size = true then s
      else answer (released s m.old m.size (s.dies.map Prod.fst)) s.arg.die.toNat fifoMigration c 0 0 none) := by
  have hexec : exec .evReleaseOldFrame s = execEvReleaseOldFrame s := rfl
  have hfind : (s.dies.flatMap (fun x => x.2.migrations)).find? (fun n => n.old == m.old) = some m := by simp [hm]
  rw [hexec]
  unfold execEvReleaseOldFrame
  simp only [hc]
  rw [if_neg (by simp [hcode]), if_neg hgood]
  simp only [← hold, hfind]
  split <;> rfl

@[simp] theorem forget_forget (old : Nat) (x : Die) : forget old (forget old x) = forget old x := by simp [forget]

/-- Each die that is named, however often, forgets the redirect. -/
theorem dieAt_foldl_forget (old : Nat) (l : List Nat) (s : State) (e : Nat) :
    dieAt (l.foldl (fun s k => modDie s k (forget old)) s) e = if e ∈ l then forget old (dieAt s e) else dieAt s e := by
  induction l generalizing s with
  | nil => simp
  | cons k l ih =>
    rw [List.foldl_cons, ih, dieAt_modDie]
    by_cases hk : e = k
    · subst hk; simp
    · simp [hk]

theorem renameRecords_dies (s : State) (base size : Nat) : (renameRecords s base size).dies = s.dies := by simp [renameRecords, modAll]

theorem dieAt_released (s : State) (old size : Nat) (ds : List Nat) (e : Nat) :
    dieAt (released s old size ds) e = if e ∈ ds then forget old (dieAt s e) else dieAt s e := by
  rw [released, dieAt_foldl_forget, dieAt_of_dies (renameRecords_dies ..)]

theorem fifoAt_released (s : State) (old size : Nat) (ds : List Nat) (e k : Nat) : fifoAt (released s old size ds) e k = fifoAt s e k :=
  Invalidations.fifoAt_of_fifos (by rw [dieAt_released]; split <;> rfl) k

theorem released_mem (s : State) (old size : Nat) (ds : List Nat) : (released s old size ds).mem = s.mem :=
  (Canonical.foldl_mem (fun _ _ => modDie_mem ..) _ _).trans (Canonical.renameRecords_mem ..)

/-- An entry that does not read as the default is listed. -/
theorem mem_keys_of_look_ne {α : Type} {d : α} {m : Sparse α} {k : Nat} (h : look d m k ≠ d) : k ∈ m.map Prod.fst := by
  induction m with
  | nil => exact absurd rfl h
  | cons e m ih =>
    obtain ⟨j, w⟩ := e
    by_cases hk : k = j
    · simp [hk]
    · refine List.mem_cons_of_mem _ (ih fun hd => h ?_)
      simp only [look, hk, if_false, hd, ite_self]

/-- A die that has a migration is listed. -/
theorem mem_dies_of_migrations {s : State} {e : Nat} (h : (dieAt s e).migrations ≠ []) : e ∈ s.dies.map Prod.fst :=
  mem_keys_of_look_ne (d := ({} : Die)) (fun hd => h (congrArg Die.migrations hd))

/-! ### The statement -/

theorem pagesMigrate : PagesMigrate := by
  intro s c d hc
  refine ⟨⟨fun hidle hcode hbad => ?_, fun hcode hbad => ?_⟩, fun h31 h63 => ⟨fun hcode hidle t e hleaf => ?_, fun hcode m e hm he hold hsw => ?_⟩⟩
  · exact Invalidations.answered_only Die.migrations (fun _ _ => rfl) (migrate_malformed hc hcode hidle (migrateBad_iff.2 hbad))
  · exact Invalidations.answered_only Die.migrations (fun _ _ => rfl) (release_malformed hc hcode (migrateBad_iff.2 (.inr hbad)))
  all_goals have hgood : ¬migrateBad c = true := by rw [migrateBad_iff, h31, h63, hcode]; simp
  · have hstart := migrate_starts hc (by rw [migrateCode, hcode]; decide) hidle hgood hleaf
    refine ⟨fun hfits => ?_, fun hfits => ?_⟩
    · rw [if_neg (by simp [hfits])] at hstart
      exact ⟨_, hstart, fun _ => rfl, Invalidations.answered_answer rfl, by rw [Invalidations.dieAt_answer]⟩
    · rw [if_pos hfits] at hstart
      exact ⟨_, hstart, fun _ => rfl, congrArg Die.migrations (dieAt_modDie_self ..)⟩
  · have hrelease := release_of_moved hc hcode hgood hm hold
    refine ⟨fun hlog => ?_, fun hlog => ?_⟩
    · rw [if_neg (by simp [hlog])] at hrelease
      refine ⟨_, hrelease, memByte_of_mem (by simp [released_mem]), Invalidations.answered_answer (fifoAt_released ..), ?_⟩
      rw [Invalidations.dieAt_answer, dieAt_released, if_pos (mem_dies_of_migrations (by simp [he]))]
      simp [forget, he, hsw]
    · rwa [if_pos hlog] at hrelease

end Sys2Proof.Laws.Migrations

namespace Sys2Proof

/-- Settles O38: what an admitted record names is filtered from the die and its cores, a malformed one is only answered, and a released frame is
forgotten by every die. -/
theorem invalidationsAndMigrations : Obligations.InvalidationsAndMigrations :=
  ⟨Laws.Invalidations.invalidationsRemove, Laws.Migrations.pagesMigrate⟩

end Sys2Proof
end

section
/-!
PROOFS. What the finish of an instruction leaves in the walk, the tokens and the registers, seen from the state with its pops taken although
the body has changed other parts of it: the layer under O24 and O25.
-/
namespace Sys2Proof.Laws.Finishes

open Sys2Proof.Machine

/-! ### What only walks keeps the rest -/

/-- What reads neither the engines nor the tokens nor the decode slot is the same after a change of the walk. -/
theorem keeps_of_onlyWalked {β : Type} (g : State → β)
    (hg : ∀ (s : State) (c a v w : Engine) (k : Sparse TokenQueue) (b : Bool),
      g { s with core := { s.core with engC := c, engA := a, engV := v, engW := w, tokens := k, switched := b } } = g s)
    {p t : State} (h : OnlyWalked p t) : g t = g p := (congrArg g h).trans (hg ..)

theorem core_of_onlyWalked {β : Type} (g : Core → β)
    (hg : ∀ (x : Core) (c a v w : Engine) (k : Sparse TokenQueue) (b : Bool),
      g { x with engC := c, engA := a, engV := v, engW := w, tokens := k, switched := b } = g x)
    {p t : State} (h : OnlyWalked p t) : g t.core = g p.core := keeps_of_onlyWalked (fun s => g s.core) (fun s => hg s.core) h

theorem sameMemory_of_onlyWalked {p t : State} (h : OnlyWalked p t) : SameMemory p t :=
  memByte_of_mem (keeps_of_onlyWalked State.mem (fun _ _ _ _ _ _ _ => rfl) h)

theorem fifoAt_of_onlyWalked {p t : State} (h : OnlyWalked p t) (d k : Nat) : fifoAt t d k = fifoAt p d k :=
  keeps_of_onlyWalked (fun s => fifoAt s d k) (fun _ _ _ _ _ _ _ => rfl) h

/-- What reads neither the walk nor the general registers nor the results in flight is the same after a write of a register. -/
theorem keeps_of_onlyRegs {β : Type} (g : State → β)
    (hg : ∀ (s : State) (c a v w : Engine) (k : Sparse TokenQueue) (b : Bool) (r : File Word) (x : List (Nat × Nat × Nat)) (n : Nat) (l : List Landing),
      g { s with core := { s.core with engC := c, engA := a, engV := v, engW := w, tokens := k, switched := b, g := r, gTurn := x, nextId := n, landing := l } } =
        g s)
    {p t : State} (h : OnlyRegs p t) : g t = g p := (congrArg g h).trans (hg p ..)

theorem core_of_onlyRegs {β : Type} (g : Core → β)
    (hg : ∀ (y : Core) (c a v w : Engine) (k : Sparse TokenQueue) (b : Bool) (r : File Word) (x : List (Nat × Nat × Nat)) (n : Nat) (l : List Landing),
      g { y with engC := c, engA := a, engV := v, engW := w, tokens := k, switched := b, g := r, gTurn := x, nextId := n, landing := l } = g y)
    {p t : State} (h : OnlyRegs p t) : g t.core = g p.core := keeps_of_onlyRegs (fun s => g s.core) (fun s => hg s.core) h

theorem onlyRegs_walks {p q t : State} (h : OnlyRegs p q) (h' : OnlyWalked q t) : OnlyRegs p t := by
  have hcore {β : Type} := core_of_onlyWalked (β := β) (h := h')
  unfold OnlyRegs
  rw [hcore Core.g (fun _ _ _ _ _ _ _ => rfl), hcore Core.gTurn (fun _ _ _ _ _ _ _ => rfl), hcore Core.nextId (fun _ _ _ _ _ _ _ => rfl),
    hcore Core.landing (fun _ _ _ _ _ _ _ => rfl)]
  exact OnlyWalked.trans h h'

theorem sameMemory_of_onlyRegs {p t : State} (h : OnlyRegs p t) : SameMemory p t :=
  memByte_of_mem (keeps_of_onlyRegs State.mem (fun _ _ _ _ _ _ _ _ _ _ _ => rfl) h)

theorem fifoAt_of_onlyRegs {p t : State} (h : OnlyRegs p t) (d k : Nat) : fifoAt t d k = fifoAt p d k :=
  keeps_of_onlyRegs (fun s => fifoAt s d k) (fun _ _ _ _ _ _ _ _ _ _ _ => rfl) h

/-! ### The walk of a state -/

/-- What the walk, the tokens and their clk are read from. -/
def walkOf (s : State) : (Engine × Engine × Engine × Engine) × Nat × Sparse TokenQueue × Nat :=
  ((s.core.engC, s.core.engA, s.core.engV, s.core.engW), s.core.ck, s.core.tokens, s.clk)

theorem walkOf_eq_iff {p q : State} : walkOf q = walkOf p ↔
    ((q.core.engC = p.core.engC ∧ q.core.engA = p.core.engA ∧ q.core.engV = p.core.engV ∧ q.core.engW = p.core.engW) ∧
      q.core.ck = p.core.ck ∧ q.core.tokens = p.core.tokens ∧ q.clk = p.clk) := by
  simp only [walkOf, Prod.mk.injEq]

section
variable {p q t : State} (hw : walkOf q = walkOf p)
include hw

theorem eng_of_walkOf (e : Eng) : q.core.eng e = p.core.eng e := by
  obtain ⟨⟨hc, ha, hv, hx⟩, -⟩ := walkOf_eq_iff.1 hw
  cases e
  case c => exact hc
  case a => exact ha
  case v => exact hv
  case w => exact hx

theorem ck_of_walkOf : q.core.ck = p.core.ck := (walkOf_eq_iff.1 hw).2.1

theorem tokens_of_walkOf : q.core.tokens = p.core.tokens := (walkOf_eq_iff.1 hw).2.2.1

theorem queueAt_of_walkOf (k : Nat) : queueAt q.core k = queueAt p.core k := by rw [queueAt, tokens_of_walkOf hw, queueAt]

theorem ownToken_of_walkOf (e : Eng) : ownToken q e = ownToken p e := by
  rw [ownToken, eng_of_walkOf hw, (walkOf_eq_iff.1 hw).2.2.2, ownToken]

theorem walkedTo_of_walkOf {h : Hdr} {pc : Nat} (ht : WalkedTo q t h q.core.ck pc) : WalkedTo p t h p.core.ck pc := by
  obtain ⟨hhere, hgap, hplace, hcounters, hothers⟩ := ht
  rw [eng_of_walkOf hw] at hplace hcounters
  rw [ck_of_walkOf hw] at hgap
  exact ⟨hhere, hgap, hplace, hcounters, fun e he => (hothers e he).trans (eng_of_walkOf hw e)⟩

theorem pushed_of_walkOf {h : Hdr} (ht : Pushed q t h) : Pushed p t h := by
  intro hn k
  rw [ht hn k, queueAt_of_walkOf hw, ownToken_of_walkOf hw]

theorem reserved_of_walkOf {h : Hdr} (ht : Reserved q t h) : Reserved p t h := by
  intro hn k
  rw [ht hn k, queueAt_of_walkOf hw]

end

/-! ### Tokens that come later -/

/-- Finish an instruction whose tokens are pushed by what it has put in flight. -/
def finishLater (s : State) (h : Hdr) (next : Nat) : State := issued (modCore s (fun c => reserve c h.eng h.push)) h next

theorem finish_later (s t : State) (h : Hdr) (next : Nat) : finish s h next (.later t) = finishLater t h next := rfl

/-- Reserving a place for the engines `l`, all different and none of them `e`, takes one in each of their queues and in no other. -/
theorem queueAt_reserves (e : Eng) (l : List Eng) (hn : l.Nodup) (he : e ∉ l) (c : Core) (k : Nat) :
    queueAt (l.foldl (fun c q => setQueue c (queueCode e q) { queueAt c (queueCode e q) with reserved := (queueAt c (queueCode e q)).reserved + 1 }) c) k =
      if k ∈ l.map (queueCode e) then { queueAt c k with reserved := (queueAt c k).reserved + 1 } else queueAt c k := by
  induction l generalizing c with
  | nil => rfl
  | cons q l ih =>
    obtain ⟨hq, hn⟩ := List.nodup_cons.1 hn
    obtain ⟨heq, he⟩ := not_or.1 (mt List.mem_cons.2 he)
    rw [List.foldl_cons, ih hn he, queueAt_setQueue]
    by_cases hk : k = queueCode e q
    · have hl : k ∉ l.map (queueCode e) := by
        rintro hm
        obtain ⟨r, hr, hrk⟩ := List.mem_map.1 hm
        exact hq (queueCode_inj e r q (hrk.trans hk) (fun h => he (h ▸ hr)) (Ne.symm heq) ▸ hr)
      rw [if_neg hl, if_pos hk, if_pos (by simp [hk]), hk]
    · simp [hk]

theorem finishLater_onlyWalked (p : State) (h : Hdr) (pc : Nat) : OnlyWalked p (finishLater p h pc) := by
  refine OnlyWalked.trans ?_ (issued_onlyWalked _ h pc)
  rw [OnlyWalked, modCore, reserve_eq]

theorem eng_reserve (c : Core) (e : Eng) (m : BitVec 4) (f : Eng) : (reserve c e m).eng f = c.eng f := by
  rw [reserve_eq]; cases f <;> rfl

theorem finishLater_reserved (p : State) (h : Hdr) (pc : Nat) : Reserved p (finishLater p h pc) h := by
  intro hn k
  have htok : (finishLater p h pc).core.tokens = (reserve p.core h.eng h.push).tokens := by
    rw [finishLater, issued_core]
    exact setEng_tokens ..
  have hq : queueAt (finishLater p h pc).core k = queueAt (reserve p.core h.eng h.push) k := by rw [queueAt, htok, queueAt]
  rw [hq]
  exact queueAt_reserves _ _ (maskEngs_nodup _) hn _ _

theorem finishLater_walked (p : State) (h : Hdr) (pc : Nat) : WalkedTo p (finishLater p h pc) h p.core.ck pc := by
  have hw := issued_walked (modCore p (fun c => reserve c h.eng h.push)) h pc
  have hck : (reserve p.core h.eng h.push).ck = p.core.ck := by rw [reserve_eq]
  obtain ⟨hhere, hgap, hplace, hcounters, hothers⟩ := hw
  simp only [modCore_core, eng_reserve, hck] at hgap hplace hcounters hothers
  exact ⟨hhere, hgap, hplace, hcounters, hothers⟩

/-! ### A general register written at once -/

section
variable (q : State) (e : Eng) (r : Nat) (v : Word)

@[simp] theorem walkOf_putG : walkOf (putG q e r v) = walkOf q := by
  unfold putG writeG writeGAt
  split
  · rfl
  · split <;> rfl

/-- Results of the engine still on their way to the register are dropped (R204). -/
theorem landing_putG : (putG q e r v).core.landing = q.core.landing.map (dropTargets e (q.core.eng e).seq [.g r]) := by
  unfold putG writeG writeGAt
  split
  · rfl
  · split <;> rfl

/-- A write of a register touches nothing of the core but the registers and the results in flight. -/
theorem putG_onlyRegs : OnlyRegs q (putG q e r v) := by
  unfold putG writeG writeGAt
  split
  · rfl
  · split <;> rfl

@[simp] theorem putG_zero : (putG q e 0 v).core.g = q.core.g := rfl

variable {q e r} (hr : outranked q.core e (q.core.ck + 1) r = false)
include hr

theorem putG_written (h0 : r ≠ 0) : putG q e r v = modCore q (fun c =>
    { supersede c e (c.eng e).seq [.g r] with
      g := fileWrite 0 c.g c.nextId e.num (c.eng e).seq (otherReaders c e (c.eng e).seq) r v false, nextId := c.nextId + 1
      gTurn := (r, c.ck + 1, e.num) :: c.gTurn.filter (fun p => p.1 != r && decide (c.ck ≤ p.2.1)) }) := by
  unfold putG writeG writeGAt
  have hr' : outranked (modCore q (fun c => supersede c e (c.eng e).seq [.g r])).core e
      ((modCore q (fun c => supersede c e (c.eng e).seq [.g r])).core.ck + 1) r = false := hr
  rw [if_neg h0, hr']
  cases e <;> rfl

theorem look_putG (k : Nat) : look 0 (putG q e r v).core.g.cur k = if r ≠ 0 ∧ k = r then v else look 0 q.core.g.cur k := by
  by_cases h0 : r = 0
  · simp [h0]
  · rw [putG_written v hr h0]
    simp [h0, fileWrite, look_place]

theorem mark_putG (k : Nat) : look false (putG q e r v).core.g.poison k = if r ≠ 0 ∧ k = r then false else look false q.core.g.poison k := by
  by_cases h0 : r = 0
  · simp [h0]
  · rw [putG_written v hr h0]
    simp [h0, fileWrite, look_place]

/-- The engine that has written a register reads what it wrote, whatever is drawn for undecided reads. -/
theorem fileRead_putG (h0 : r ≠ 0) (tick : Nat) : fileRead 0 (putG q e r v).core.g tick saltG e.num r = v := by
  rw [putG_written v hr h0]
  exact fileRead_fileWrite_self _ _ _ _ _ _ _ _ _ _ _ (not_mem_otherReaders _ _ _)

/-- No write of a register outranks one of the same clk and engine. -/
theorem outranked_putG (k : Nat) (hk : outranked q.core e (q.core.ck + 1) k = false) :
    outranked (putG q e r v).core e ((putG q e r v).core.ck + 1) k = false := by
  by_cases h0 : r = 0
  · rw [h0]; exact hk
  · rw [putG_written v hr h0]
    simp only [outranked, List.any_eq_false] at hk ⊢
    intro x hx
    rcases List.mem_cons.1 hx with rfl | hx
    · simp [supersede]
    · exact hk x (List.mem_of_mem_filter hx)

end

/-- A register has been written by an instruction that has changed other parts of the core before, and then only walks. -/
theorem regWritten_of_putG {p q t : State} {h : Hdr} {d : Nat} {v : Word} (hr : outranked q.core h.eng (q.core.ck + 1) d = false)
    (hg : q.core.g = p.core.g) (hl : q.core.landing = p.core.landing) (hw : walkOf q = walkOf p) (ht : OnlyWalked (putG q h.eng d v) t) :
    RegWritten p t h d v [] := by
  have htg : t.core.g = (putG q h.eng d v).core.g := core_of_onlyWalked Core.g (fun _ _ _ _ _ _ _ => rfl) ht
  have htl : t.core.landing = (putG q h.eng d v).core.landing := core_of_onlyWalked Core.landing (fun _ _ _ _ _ _ _ => rfl) ht
  constructor
  case value => rw [htg, look_putG v hr, hg]; by_cases hd : d = 0 <;> simp [hd]
  case read => exact fun hd => by rw [readG, if_neg hd, htg, fileRead_putG v hr hd]
  case zero => rfl
  case others => exact fun r hrd => by rw [htg, look_putG v hr, mark_putG v hr, hg]; simp [hrd]
  case landing => rw [htl, landing_putG, hl, eng_of_walkOf hw, List.append_nil]

end Sys2Proof.Laws.Finishes
end

section
/-!
PROOFS. PUSHE and POPE at the FIFOs of the window (R145, R146): settles O24.
-/
namespace Sys2Proof.Laws.Fifos

open Sys2Proof.Machine Sys2Proof.Laws.Finishes Sys2Proof.Laws.Squash

/-! ### PUSHE (R145) -/

/-- The registers that hold a command of FIFO `k`. -/
def commandLocs (k : Nat) (a : Reg) : List Loc := (List.range (fifoShape k).1).map (fun i => .g (a.toNat + i))

/-- Their values, as the access engine reads them. -/
def commandWords (p : State) (k : Nat) (a : Reg) : List Word := (List.range (fifoShape k).1).map (fun i => readG p .a (a.toNat + i))

/-- The state in which a push has released the log and appended its command. -/
def pushedAt (h : Hdr) (a : Reg) (p : State) (e : TlbEntry) (die k : Nat) : State :=
  pushCmd (publish (touchTlb p e) (pushScope p die k)) die k (commandWords p k a) h.rm

section
variable {h : Hdr} {a : Reg} {o : Src2} {p : State} {e : TlbEntry} {pa die k : Nat} (st : Option Reg)
  (ht : translate p .a (src2Z p .a o).toNat { w := true } = .ok e pa)
include ht

theorem pushBody_outside (hf : fifoReached p pa = none) : pushBody h st a o p = .trap (engineFault (src2Z p .a o).toNat) := by
  unfold pushBody
  simp only [ht, hf]

variable (hf : fifoReached p pa = some (die, k))
include hf

theorem pushBody_refused (hbad : 64 < a.toNat + (fifoShape k).1 ∨ (h.rm ≠ 0 ∧ ¬(fifoCopy ≤ k ∧ k < fifoMail))) :
    pushBody h st a o p = .trap (engineFault (src2Z p .a o).toNat) := by
  unfold pushBody
  simp only [ht, hf]
  by_cases hrm : h.rm ≠ 0 ∧ ¬(fifoCopy ≤ k ∧ k < fifoMail)
  · rw [if_pos (by simpa [-not_and, not_and_or] using hrm)]
  · rw [if_neg (by simpa [-not_and, not_and_or] using hrm), if_pos (hbad.resolve_right hrm)]

/-- A command that the FIFO takes and that need not wait: a full FIFO has no room for it, any other appends it. -/
theorem pushBody_accepted (hfits : a.toNat + (fifoShape k).1 ≤ 64) (hrm : h.rm = 0 ∨ (fifoCopy ≤ k ∧ k < fifoMail)) (ho : orderHeld p.core true = false)
    (hwait : mustWait p.core .a (commandLocs k a) = false) (hturn : outOfTurn p die (fifoAt p die k).pushed = false)
    (hclean : anyPoison p.core (commandLocs k a) = false) :
    pushBody h st a o p =
      if fifoFull p die k then (match st with | none => .wait nothing | some r => .dropped (putG p h.eng r.toNat 0))
      else .done (match st with | none => pushedAt h a p e die k | some r => putG (pushedAt h a p e die k) h.eng r.toNat 1) := by
  have hno : ¬(h.rm != 0 && !(decide (fifoCopy ≤ k) && decide (k < fifoMail))) = true := by
    rcases hrm with hrm | hrm
    · simp [hrm]
    · simp [hrm.1, hrm.2]
  have hw : mustWait p.core .a ((List.range (fifoShape k).1).map (fun i => Loc.g (a.toNat + i))) = false := hwait
  have hc : anyPoison p.core ((List.range (fifoShape k).1).map (fun i => Loc.g (a.toNat + i))) = false := hclean
  unfold pushBody
  simp only [ht, hf]
  rw [if_neg hno, if_neg (by omega), if_neg (by simp [ho, hw, hturn]), if_neg (by simp [hc])]
  rfl

end

/-! #### The state that a push leaves -/

section
variable (h : Hdr) (a : Reg) (p : State) (e : TlbEntry) (die k : Nat)

@[simp] theorem walkOf_pushedAt : walkOf (pushedAt h a p e die k) = walkOf p := rfl
@[simp] theorem pushedAt_mem : (pushedAt h a p e die k).mem = p.mem := rfl
@[simp] theorem pushedAt_g : (pushedAt h a p e die k).core.g = p.core.g := rfl
@[simp] theorem pushedAt_gTurn : (pushedAt h a p e die k).core.gTurn = p.core.gTurn := rfl
@[simp] theorem pushedAt_landing : (pushedAt h a p e die k).core.landing = p.core.landing := rfl
@[simp] theorem pushedAt_clock : (pushedAt h a p e die k).core.clock = p.core.clock + 1 := rfl

theorem log_pushedAt : (pushedAt h a p e die k).core.log = publishedLog p := by
  have hnone (x : Option Nat) : x.isNone = true ↔ x = none := by simp
  simp only [pushedAt, pushCmd, setFifo, publish, publishedLog, modDie_core, modCore_core, hnone]
  rfl

/-- The command that a push appends: the words in its registers and what its FIFO adds to them, with the release just made. -/
theorem fifoAt_pushedAt : ∃ c ws, (fifoAt (pushedAt h a p e die k) die k).cmds = (fifoAt p die k).cmds ++ [c] ∧ c.core = p.cur ∧ c.rm = h.rm ∧
    c.words = commandWords p k a ++ ws ∧ c.release.core = some p.cur ∧ c.release.time = p.core.clock + 1 := by
  have hwords : ∃ ws, (if decide (fifoCopy ≤ k) && decide (k < fifoMail) then
      commandWords p k a ++ issueWords (publish (touchTlb p e) (pushScope p die k))
      else if k == fifoSpawn then commandWords p k a ++ [spawnLevel (publish (touchTlb p e) (pushScope p die k))] else commandWords p k a) =
      commandWords p k a ++ ws := by
    split
    · exact ⟨_, rfl⟩
    · split
      · exact ⟨_, rfl⟩
      · exact ⟨[], (List.append_nil _).symm⟩
  obtain ⟨ws, hws⟩ := hwords
  unfold pushedAt pushCmd
  rw [fifoAt_setFifo, if_pos ⟨rfl, rfl⟩]
  exact ⟨_, ws, rfl, rfl, rfl, hws, rfl, rfl⟩

/-- A push made with status 1 written to a register, or to none. -/
def pushStatus (st : Option Reg) : State :=
  match st with
  | none => pushedAt h a p e die k
  | some r => putG (pushedAt h a p e die k) h.eng r.toNat 1

variable (st : Option Reg)

theorem pushStatus_onlyRegs : OnlyRegs (pushedAt h a p e die k) (pushStatus h a p e die k st) := by
  cases st with
  | none => rfl
  | some r => exact putG_onlyRegs ..

theorem walkOf_pushStatus : walkOf (pushStatus h a p e die k st) = walkOf p := by
  cases st with
  | none => exact walkOf_pushedAt ..
  | some r => exact (walkOf_putG ..).trans (walkOf_pushedAt ..)

end

/-! #### What the two forms come to -/

section
variable {h : Hdr} {o : Src2} {s p : State} (hi : Issues s h (src2Locs o) p) (ha : h.eng = .a)
include hi

theorem exec_pushe (a : Reg) : exec (.pushe h a o) s = .next (finish s h (nextPc s h (src2Len o)) (pushBody h none a o p)) := issueOut_of_issues hi

theorem exec_pusheT (d a : Reg) : exec (.pusheT h d a o) s = .next (finish s h (nextPc s h (src2Len o)) (pushBody h (some d) a o p)) :=
  issueOut_of_issues hi

end

/-- An instruction that ends without its effect writes its status register, and does nothing else. -/
theorem dropped_writes {h : Hdr} {p : State} {d : Nat} {v : Word} (pc : Nat) (hr : outranked p.core h.eng (p.core.ck + 1) d = false) :
    ((issued (putG p h.eng d v) h pc).core.eng h.eng).pc = pc ∧ RegWritten p (issued (putG p h.eng d v) h pc) h d v [] ∧
      (issued (putG p h.eng d v) h pc).core.tokens = p.core.tokens ∧ (issued (putG p h.eng d v) h pc).core.log = p.core.log ∧
      SameMemory p (issued (putG p h.eng d v) h pc) := by
  have hw := issued_onlyWalked (putG p h.eng d v) h pc
  have hregs := onlyRegs_walks (putG_onlyRegs ..) hw
  refine ⟨(issued_walked ..).here, regWritten_of_putG hr rfl rfl rfl hw, ?_, core_of_onlyRegs Core.log (fun _ _ _ _ _ _ _ _ _ _ _ => rfl) hregs,
    sameMemory_of_onlyRegs hregs⟩
  rw [issued_core]
  exact (setEng_tokens ..).trans (tokens_of_walkOf (walkOf_putG ..))

/-- A push that has found room finishes with its command appended, its release made, and its status, if it has one, written. -/
theorem pushes_finish {h : Hdr} {a : Reg} {p : State} {e : TlbEntry} {die k : Nat} (st : Option Reg) (pc : Nat)
    (hr : ∀ g, st = some g → outranked p.core h.eng (p.core.ck + 1) g.toNat = false) :
    let t := finishNow (pushStatus h a p e die k st) h pc
    (t.core.eng h.eng).pc = pc ∧ Pushed p t h ∧ SameMemory p t ∧
      t.core.log = publishedLog p ∧ t.core.clock = p.core.clock + 1 ∧
      (st = none → t.core.g = p.core.g) ∧ (∀ g, st = some g → RegWritten p t h g.toNat 1 []) ∧
      ∃ c ws, (fifoAt t die k).cmds = (fifoAt p die k).cmds ++ [c] ∧ c.core = p.cur ∧ c.rm = h.rm ∧
        c.words = commandWords p k a ++ ws ∧ c.release.core = some p.cur ∧ c.release.time = p.core.clock + 1 := by
  intro t
  have hw : OnlyWalked (pushStatus h a p e die k st) t := finishNow_onlyWalked ..
  have hregs := onlyRegs_walks (pushStatus_onlyRegs h a p e die k st) hw
  refine ⟨(finishNow_walked ..).here, pushed_of_walkOf (walkOf_pushStatus ..) (finishNow_pushed _ _ _), ?_, ?_, ?_, ?_, ?_, ?_⟩
  · exact fun b => (sameMemory_of_onlyRegs hregs b).trans (memByte_of_mem (pushedAt_mem ..) b)
  · exact (core_of_onlyRegs Core.log (fun _ _ _ _ _ _ _ _ _ _ _ => rfl) hregs).trans (log_pushedAt ..)
  · exact (core_of_onlyRegs Core.clock (fun _ _ _ _ _ _ _ _ _ _ _ => rfl) hregs).trans (pushedAt_clock ..)
  · rintro rfl
    exact (core_of_onlyWalked Core.g (fun _ _ _ _ _ _ _ => rfl) hw).trans (pushedAt_g ..)
  · rintro g rfl
    exact regWritten_of_putG (by simpa [outranked, ck_of_walkOf (walkOf_pushedAt h a p e die k)] using hr g rfl) (pushedAt_g ..) (pushedAt_landing ..) (walkOf_pushedAt ..) hw
  · rw [fifoAt_of_onlyRegs hregs]
    exact fifoAt_pushedAt ..

theorem pushesAppendCommands : PushesAppendCommands := by
  intro h d a o e pa s p hi ha v ht Faults
  have hpushe := exec_pushe hi a
  have hpusheT := exec_pusheT hi d a
  have htrap (st : Option Reg) (hb : pushBody h st a o p = .trap (engineFault v.toNat)) : finish s h (nextPc s h (src2Len o)) (pushBody h st a o p) =
      takeTrap s .a { code := .engineCommand, tval := v, popped := (s.core.eng .a).noPop } (s.core.eng .a).pc := by
    rw [hb, finish, ha, engineFault, BitVec.ofNat_toNat, BitVec.setWidth_eq]
  have hfaults (hb : ∀ st, pushBody h st a o p = .trap (engineFault v.toNat)) : Faults (.pushe h a o) ∧ Faults (.pusheT h d a o) :=
    ⟨hpushe.trans (congrArg _ (htrap _ (hb _))), hpusheT.trans (congrArg _ (htrap _ (hb _)))⟩
  refine ⟨fun hf => hfaults fun st => pushBody_outside st ht hf, fun die k hf => ?_⟩
  intro n locs
  refine ⟨fun hbad => hfaults fun st => pushBody_refused st ht hf hbad, fun hfits hrm ho hwait hturn hclean => ⟨fun hfull => ?_, fun hroom => ?_⟩⟩
  all_goals have hbody (st : Option Reg) := pushBody_accepted st ht hf hfits hrm ho hwait hturn hclean
  · simp only [hfull, if_true] at hbody
    rw [hbody] at hpushe hpusheT
    refine ⟨hpushe, fun hr => ⟨_, hpusheT, ?_⟩⟩
    rw [← ha] at hr
    have hd := dropped_writes (v := 0) (nextPc s h (src2Len o)) hr
    rw [← ha]
    exact hd
  · simp only [hroom, Bool.false_eq_true, if_false] at hbody
    have hfin (st : Option Reg) (hr : ∀ g, st = some g → outranked p.core .a (p.core.ck + 1) g.toNat = false) :=
      pushes_finish (h := h) (a := a) (p := p) (e := e) (die := die) (k := k) st (nextPc s h (src2Len o)) (by rwa [ha])
    rw [ha] at hfin
    refine List.forall_mem_cons.2 ⟨fun hr => ⟨_, hpushe.trans (by rw [hbody]; rfl), hfin none hr⟩,
      List.forall_mem_cons.2 ⟨fun hr => ⟨_, hpusheT.trans (by rw [hbody]; rfl), hfin (some d) hr⟩, fun _ hr => absurd hr List.not_mem_nil⟩⟩

/-! ### POPE (R146) -/

section
variable {h : Hdr} {d : Reg} {o : Src2} {p : State} {e : TlbEntry} {pa die k : Nat} (st : Option Reg)
  (ht : translate p .a (src2Z p .a o).toNat { r := true } = .ok e pa) (hf : fifoReached p pa = some (die, k)) (ho : orderHeld p.core false = false)
  (hturn : outOfTurn p die (fifoAt p die k).popped = false)
include ht hf ho hturn

theorem popBody_empty (hx : takeElement (touchTlb p e) die k = none) :
    popBody h d o st p = (match st with | none => .wait nothing | some r => .dropped (putG p h.eng r.toNat 0)) := by
  unfold popBody
  simp only [ht, hf, ho, hturn, hx]
  rfl

theorem popBody_takes {x : Res} {q : State} (hx : takeElement (touchTlb p e) die k = some (x, q)) (hm : x.mark = false) :
    popBody h d o st p = popTaken h d st x q := by
  unfold popBody
  simp only [ht, hf, ho, hturn, hx, hm]
  rfl

end

section
variable {h : Hdr} {o : Src2} {s p : State} (hi : Issues s h (src2Locs o) p) (d : Reg)
include hi

theorem exec_pope : exec (.pope h d o) s = .next (finish s h (nextPc s h (src2Len o)) (popBody h d o none p)) := issueOut_of_issues hi

theorem exec_popeT (a : Reg) : exec (.popeT h d a o) s = .next (finish s h (nextPc s h (src2Len o)) (popBody h d o (some a) p)) :=
  issueOut_of_issues hi

end

/-- Taking an element changes its FIFO and nothing else. -/
theorem takeElement_eq {s q : State} {d k : Nat} {x : Res} (hx : takeElement s d k = some (x, q)) : ∃ f, q = setFifo s d k f := by
  unfold takeElement at hx
  dsimp only at hx
  split at hx
  · split at hx <;> cases hx
    exact ⟨_, rfl⟩
  · split at hx <;> cases hx
    exact ⟨_, rfl⟩

theorem takeElement_core {p q : State} {e : TlbEntry} {d k : Nat} {x : Res} (hx : takeElement (touchTlb p e) d k = some (x, q)) :
    q.core = (touchTlb p e).core := by
  obtain ⟨f, rfl⟩ := takeElement_eq hx
  rfl

/-! #### What acquiring an element leaves -/

/-- What is not the shadow lists of the files is as acquiring the element's release leaves it. -/
theorem acquireResult_core {β : Type} (v : Core → β) (hv : ∀ c r id, v (syncCommand c r id) = v c) (s : State) (x : Res) :
    v (acquireResult s x).core = v (acquireElement s x.release).core := by
  unfold acquireResult
  split
  · exact foldl_same (g := v) (fun c r => hv c r _) _ _
  · rfl

/-- What neither a replay nor an acquisition changes. -/
theorem acquireElement_core {β : Type} (v : Core → β)
    (hv : ∀ (c : Core) (l : List (Nat × LogRec)) (m : List Nat) (t n : Nat) (w : Sparse Nat),
      v { c with replay := l, deps := m, clock := t, moment := n, known := w } = v c) (s : State) (r : Release) :
    v (acquireElement s r).core = v s.core := by
  unfold acquireElement
  split
  · exact hv s.core ..
  · exact hv s.core ..

theorem acquireResult_same {β : Type} (v : Core → β) (hs : ∀ c r id, v (syncCommand c r id) = v c)
    (hv : ∀ (c : Core) (l : List (Nat × LogRec)) (m : List Nat) (t n : Nat) (w : Sparse Nat),
      v { c with replay := l, deps := m, clock := t, moment := n, known := w } = v c) (s : State) (x : Res) :
    v (acquireResult s x).core = v s.core := (acquireResult_core v hs s x).trans (acquireElement_core v hv s x.release)

section
variable (s : State) (x : Res)

theorem acquireResult_cur : look 0 (acquireResult s x).core.g.cur = look 0 s.core.g.cur :=
  congrArg (look 0) (acquireResult_same (fun c => c.g.cur) (fun _ _ _ => rfl) (fun _ _ _ _ _ _ => rfl) s x)

theorem acquireResult_marks : look false (acquireResult s x).core.g.poison = look false s.core.g.poison :=
  congrArg (look false) (acquireResult_same (fun c => c.g.poison) (fun _ _ _ => rfl) (fun _ _ _ _ _ _ => rfl) s x)

theorem acquireResult_sysNow (n : Nat) : sysNow (acquireResult s x).core n = sysNow s.core n :=
  acquireResult_same (fun c => sysNow c n) (fun _ _ _ => rfl) (fun _ _ _ _ _ _ => rfl) s x

theorem acquireResult_clk : (acquireResult s x).clk = s.clk := by
  have he : (acquireElement s x.release).clk = s.clk := by unfold acquireElement; split <;> rfl
  unfold acquireResult
  split
  · exact he
  · exact he

theorem walkOf_acquireResult : walkOf (acquireResult s x) = walkOf s := by
  have hcore := acquireResult_same (fun c => ((c.engC, c.engA, c.engV, c.engW), c.ck, c.tokens)) (fun _ _ _ => rfl) (fun _ _ _ _ _ _ => rfl) s x
  simp only [Prod.mk.injEq] at hcore
  obtain ⟨heng, hck, htok⟩ := hcore
  exact walkOf_eq_iff.2 ⟨heng, hck, htok, acquireResult_clk s x⟩

/-- The moment of the core's reads moves to the present (R346). -/
theorem acquireResult_moment : (acquireResult s x).core.moment = s.now := by
  rw [acquireResult_core Core.moment (fun _ _ _ => rfl)]
  unfold acquireElement
  split <;> rfl

/-- The core's clock reaches the element's release time and does not go back (R346). -/
theorem acquireResult_clock : x.release.time ≤ (acquireResult s x).core.clock ∧ s.core.clock ≤ (acquireResult s x).core.clock := by
  rw [acquireResult_core Core.clock (fun _ _ _ => rfl)]
  unfold acquireElement
  split
  · refine ⟨Nat.le_max_right .., le_trans ?_ (Nat.le_max_left ..)⟩
    exact foldl_keeps (P := fun t => s.core.clock ≤ t) (fun t r ht => le_trans ht (Nat.le_max_left ..)) _ le_rfl
  · exact ⟨Nat.le_max_right .., Nat.le_max_left ..⟩

end

/-! #### The registers that a pop writes -/

/-- The registers of a pop written: the element's value, then the status. -/
def popStatus (h : Hdr) (d : Reg) (st : Option Reg) (v : Word) (q : State) : State :=
  match st with
  | none => putG q h.eng d.toNat v
  | some r => putG (putG q h.eng d.toNat v) h.eng r.toNat 1

theorem popTaken_clean {h : Hdr} {d : Reg} {st : Option Reg} {x : Res} {q : State} (hx : x.fault = none) :
    popTaken h d st x q = .done (acquireResult (popStatus h d st x.val q) x) := by
  unfold popTaken
  simp only [hx]
  cases st <;> rfl

theorem popTaken_faulted {h : Hdr} {d : Reg} {st : Option Reg} {x : Res} {q : State} {f : FaultRec} (hx : x.fault = some f) :
    popTaken h d st x q = .trapAfter (acquireResult (popStatus h d st x.val q) x) { f with element := true, tval := x.val } := by
  unfold popTaken
  simp only [hx]
  cases st <;> rfl

/-- What neither the walk nor the registers make is as before the pop's registers were written. -/
theorem popStatus_same {β : Type} (g : State → β)
    (hg : ∀ (s : State) (c a v w : Engine) (k : Sparse TokenQueue) (b : Bool) (r : File Word) (x : List (Nat × Nat × Nat)) (n : Nat) (l : List Landing),
      g { s with core := { s.core with engC := c, engA := a, engV := v, engW := w, tokens := k, switched := b, g := r, gTurn := x, nextId := n, landing := l } } =
        g s) (h : Hdr) (d : Reg) (st : Option Reg) (v : Word) (q : State) : g (popStatus h d st v q) = g q := by
  cases st with
  | none => exact keeps_of_onlyRegs g hg (putG_onlyRegs ..)
  | some r => exact (keeps_of_onlyRegs g hg (putG_onlyRegs ..)).trans (keeps_of_onlyRegs g hg (putG_onlyRegs ..))

theorem walkOf_popStatus (h : Hdr) (d : Reg) (st : Option Reg) (v : Word) (q : State) : walkOf (popStatus h d st v q) = walkOf q := by
  cases st with
  | none => exact walkOf_putG ..
  | some r => exact (walkOf_putG ..).trans (walkOf_putG ..)

section
variable {h : Hdr} {d a : Reg} {q : State} (v : Word) (hd : outranked q.core h.eng (q.core.ck + 1) d.toNat = false)
include hd

theorem look_popStatus (ha : outranked q.core h.eng (q.core.ck + 1) a.toNat = false) (r : Nat) :
    look 0 (popStatus h d (some a) v q).core.g.cur r =
      if r = 0 then look 0 q.core.g.cur 0 else if r = a.toNat then 1 else if r = d.toNat then v else look 0 q.core.g.cur r := by
  rw [popStatus, look_putG 1 (outranked_putG v hd _ ha), look_putG v hd]
  by_cases h0 : r = 0
  · subst h0
    rw [if_neg (fun hr => hr.1 hr.2.symm), if_neg (fun hr => hr.1 hr.2.symm), if_pos rfl]
  · have hne (y : Reg) : (y.toNat ≠ 0 ∧ r = y.toNat) ↔ r = y.toNat := ⟨And.right, fun hr => ⟨fun hy => h0 (hr.trans hy), hr⟩⟩
    simp only [hne, h0, if_false]

end

/-- A pop that has taken an element finishes with its registers written and its release acquired. -/
theorem pops_finish {h : Hdr} {d : Reg} {st : Option Reg} {p q : State} {e : TlbEntry} {die k : Nat} {x : Res}
    (hx : takeElement (touchTlb p e) die k = some (x, q)) (pc : Nat) :
    let t := finishNow (acquireResult (popStatus h d st x.val q) x) h pc
    ((t.core.eng h.eng).pc = pc ∧ Pushed p t h ∧ SameMemory p t ∧ t.core.moment = p.now ∧ x.release.time ≤ t.core.clock ∧ p.core.clock ≤ t.core.clock) ∧
      look 0 t.core.g.cur = look 0 (popStatus h d st x.val q).core.g.cur ∧
      look false t.core.g.poison = look false (popStatus h d st x.val q).core.g.poison := by
  intro t
  obtain ⟨f, rfl⟩ := takeElement_eq hx
  have hw : OnlyWalked (acquireResult (popStatus h d st x.val (setFifo (touchTlb p e) die k f)) x) t := finishNow_onlyWalked ..
  have hcore {β : Type} := core_of_onlyWalked (β := β) (h := hw)
  have hwalk : walkOf (acquireResult (popStatus h d st x.val (setFifo (touchTlb p e) die k f)) x) = walkOf p :=
    (walkOf_acquireResult ..).trans (walkOf_popStatus ..)
  have hsame {β : Type} (g : State → β) hg := popStatus_same g hg h d st x.val (setFifo (touchTlb p e) die k f)
  have hclock := acquireResult_clock (popStatus h d st x.val (setFifo (touchTlb p e) die k f)) x
  rw [hsame (fun s => s.core.clock) (fun _ _ _ _ _ _ _ _ _ _ _ => rfl)] at hclock
  rw [hcore Core.moment (fun _ _ _ _ _ _ _ => rfl), hcore Core.clock (fun _ _ _ _ _ _ _ => rfl), hcore Core.g (fun _ _ _ _ _ _ _ => rfl)]
  refine ⟨⟨(finishNow_walked ..).here, pushed_of_walkOf hwalk (finishNow_pushed _ _ _), memByte_of_mem ?_, ?_, hclock⟩, acquireResult_cur .., acquireResult_marks ..⟩
  · rw [keeps_of_onlyWalked State.mem (fun _ _ _ _ _ _ _ => rfl) hw, Canonical.acquireResult_mem]
    exact hsame State.mem (fun _ _ _ _ _ _ _ _ _ _ _ => rfl)
  · rw [acquireResult_moment]
    exact hsame State.now (fun _ _ _ _ _ _ _ _ _ _ _ => rfl)

/-! #### A fault that the element carries (R147, R413, R416) -/

theorem sysNow_setSysNow (c : Core) (n m : Nat) (v : Word) : sysNow (setSysNow c n v) m = if m = n then v else sysNow c m := by
  simp [sysNow, setSysNow, look_place]

theorem sysNow_atHandler (c : Core) (n : Nat) : sysNow (atHandler c) n = if n = sysSLIPW then 0 else if n = sysPRIV then 1 else sysNow c n := by
  have hsys : (atHandler c).sys = (setSysNow (setSysNow c sysPRIV 1) sysSLIPW 0).sys := rfl
  rw [sysNow, hsys, ← sysNow, sysNow_setSysNow, sysNow_setSysNow]

/-- The core as a handler finds it, `c` the core with its trap registers saved. -/
def handlerCore (c : Core) : Core := atHandler { c with trapFrame := some (frameOf c) }

theorem enterHandler_core (s : State) (e : Eng) (f : FaultRec) (pc : Nat) :
    (enterHandler s e f pc).core = handlerCore (saveTrap (landScoreboarded s).core e f pc) := by
  rw [enterHandler, modCore_core, handlerCore]

theorem sysNow_handlerCore (c : Core) (n : Nat) : sysNow (handlerCore c) n = if n = sysSLIPW then 0 else if n = sysPRIV then 1 else sysNow c n := by
  rw [handlerCore, sysNow_atHandler]
  rfl

/-- What a fault of engine `e` leaves in the trap registers. -/
theorem sysNow_saveTrap (c : Core) (e : Eng) (f : FaultRec) (pc : Nat) :
    sysNow (saveTrap c e f pc) sysTVAL = f.tval ∧ sysNow (saveTrap c e f pc) sysTCAUSE = causeWord f e 0 ∧
      sysNow (saveTrap c e f pc) (sysTPC + e.num) = BitVec.ofNat 64 pc := by
  refine ⟨?_, ?_, ?_⟩
  · simp [saveTrap, sysNow_setSysNow]
  · simp [saveTrap, sysNow_setSysNow]
  · cases e <;> simp [saveTrap, sysNow_setSysNow, Core.setEng, Eng.num, sysTPC, sysTCAUSE, sysTVAL, sysTSPC]

/-- What a handler's first instruction finds in the trap registers, and the level it runs at. -/
theorem enterHandler_registers (s : State) (e : Eng) (f : FaultRec) (pc : Nat) :
    privileged (enterHandler s e f pc).core = true ∧ sysNow (enterHandler s e f pc).core sysTVAL = f.tval ∧
      sysNow (enterHandler s e f pc).core sysTCAUSE = causeWord f e 0 ∧ sysNow (enterHandler s e f pc).core (sysTPC + e.num) = BitVec.ofNat 64 pc := by
  obtain ⟨hval, hcause, hpc⟩ := sysNow_saveTrap (landScoreboarded s).core e f pc
  have hne (n : Nat) (h0 : n ≠ sysSLIPW) (h1 : n ≠ sysPRIV) :
      sysNow (enterHandler s e f pc).core n = sysNow (saveTrap (landScoreboarded s).core e f pc) n := by
    rw [enterHandler_core, sysNow_handlerCore, if_neg h0, if_neg h1]
  refine ⟨?_, (hne _ (by decide) (by decide)).trans hval, (hne _ (by decide) (by decide)).trans hcause,
    (hne _ (by cases e <;> decide) (by cases e <;> decide)).trans hpc⟩
  rw [privileged, enterHandler_core, sysNow_handlerCore, if_neg (by decide), if_pos rfl]
  rfl

theorem takeTrap_user {s : State} {e : Eng} {f : FaultRec} {pc : Nat} (hp : privileged s.core = false) (hv : sysNow s.core sysTVEC ≠ 0) :
    takeTrap s e f pc = enterHandler (withdrawLeave (modCore s (fun c => { c with raised := c.raised + 1, walkFail := [] }))) e f pc := by
  have hp' : privileged (withdrawLeave (modCore s (fun c => { c with raised := c.raised + 1, walkFail := [] }))).core = false := hp
  have hv' : sysNow (withdrawLeave (modCore s (fun c => { c with raised := c.raised + 1, walkFail := [] }))).core sysTVEC ≠ 0 := hv
  unfold takeTrap
  dsimp only
  rw [hp', if_neg (by simp), if_neg hv']

/-- Bit 39 of TCAUSE says that the fault came with a result element (R411). -/
theorem causeWord_element {f : FaultRec} {e : Eng} (hf : f.element = true) : (causeWord f e 0).getLsbD 39 = true := by
  have hcode : f.code.num ≤ 25 := by cases f.code <;> decide
  have hnum : e.num ≤ 3 := by cases e <;> decide
  have hcause : f.cause % 65536 < 65536 := Nat.mod_lt _ (by decide)
  have hbit (b : Bool) (n : Nat) : (if b then n else 0) ≤ n := by cases b <;> simp
  have h37 := hbit f.stream.isSome (2 ^ 37)
  have h38 := hbit f.popped (2 ^ 38)
  unfold causeWord
  rw [hf, if_pos rfl, BitVec.getLsbD_ofNat, Nat.add_comm _ (2 ^ 39), Nat.testBit_two_pow_add_eq, Nat.testBit_lt_two_pow (by omega)]
  rfl

/-- A pop whose element carries a fault raises it once the pop has been performed. -/
theorem popFault_raises {h : Hdr} {d : Reg} {v : Word} {p q : State} {e : TlbEntry} {die k : Nat} {x : Res} {f : FaultRec} (pc : Nat)
    (hx : takeElement (touchTlb p e) die k = some (x, q)) (hp : privileged p.core = false) (hvec : sysNow p.core sysTVEC ≠ 0) :
    let t := takeTrap (finishNow (acquireResult (popStatus h d none v q) x) h pc) h.eng { f with element := true, tval := x.val } pc
    privileged t.core = true ∧ sysNow t.core sysTVAL = x.val ∧ (sysNow t.core sysTCAUSE).getLsbD 39 = true ∧
      (sysNow t.core (sysTPC + h.eng.num)).toNat = pc % 2 ^ 64 := by
  intro t
  have hsys (n : Nat) : sysNow (finishNow (acquireResult (popStatus h d none v q) x) h pc).core n = sysNow p.core n := by
    rw [core_of_onlyWalked (fun c => sysNow c n) (fun _ _ _ _ _ _ _ => rfl) (finishNow_onlyWalked ..), acquireResult_sysNow,
      popStatus_same (fun s => sysNow s.core n) (fun _ _ _ _ _ _ _ _ _ _ _ => rfl), takeElement_core hx]
    rfl
  have hlevel : privileged (finishNow (acquireResult (popStatus h d none v q) x) h pc).core = false := by
    rw [privileged, hsys]
    exact hp
  have ht : t = enterHandler _ _ _ _ := takeTrap_user hlevel (by rwa [hsys])
  rw [ht]
  obtain ⟨hpriv, hval, hcause, hpc⟩ := enterHandler_registers (withdrawLeave (modCore (finishNow (acquireResult (popStatus h d none v q) x) h pc)
    (fun c => { c with raised := c.raised + 1, walkFail := [] }))) h.eng { f with element := true, tval := x.val } pc
  exact ⟨hpriv, hval, by rw [hcause]; exact causeWord_element rfl, by rw [hpc, BitVec.toNat_ofNat]⟩

theorem popsTakeElements : PopsTakeElements := by
  intro h d a o e pa die k s p hi ha v ht hf ho hturn hd hst
  have hpope := exec_pope hi d
  have hpopeT := exec_popeT hi d a
  refine ⟨fun hx => ?_, fun x q hx hclean hm => ?_, fun x f q hx hfault hm hlevel hvec => ?_⟩
  · have hbody (st : Option Reg) := popBody_empty (h := h) (d := d) st ht hf ho hturn hx
    rw [hbody] at hpope hpopeT
    rw [← ha] at hst
    obtain ⟨hpc, hreg, htok, -, hmem⟩ := dropped_writes (v := 0) (nextPc s h (src2Len o)) hst
    refine ⟨hpope, _, hpopeT, ?_⟩
    rw [← ha]
    exact ⟨hpc, hreg, htok, hmem⟩
  all_goals have hbody (st : Option Reg) := popBody_takes (h := h) (d := d) st ht hf ho hturn hx hm
  · rw [hbody, popTaken_clean hclean] at hpope hpopeT
    obtain ⟨hp, hcur, hmark⟩ := pops_finish (h := h) (d := d) (st := none) hx (nextPc s h (src2Len o))
    obtain ⟨hpT, hcurT, -⟩ := pops_finish (h := h) (d := d) (st := some a) hx (nextPc s h (src2Len o))
    rw [ha] at hp hpT
    have hcore := takeElement_core hx
    have hg : q.core.g = p.core.g := by rw [hcore]; rfl
    have hfree (r : Nat) (hr : outranked p.core .a (p.core.ck + 1) r = false) : outranked q.core h.eng (q.core.ck + 1) r = false := by
      rw [hcore, ha]; exact hr
    obtain ⟨hpc, hpush, hmem, hmoment, htime, hclock⟩ := hp
    obtain ⟨hpcT, hpushT, hmemT, hmomentT, htimeT, -⟩ := hpT
    have hlook (r : Nat) := look_putG x.val (hfree _ hd) r
    have hlookT (r : Nat) := look_popStatus x.val (hfree _ hd) (hfree _ hst) r
    have hmarks (r : Nat) := mark_putG x.val (hfree _ hd) r
    rw [hg] at hlook hlookT hmarks
    refine ⟨⟨_, hpope, hpc, hpush, hmem, hmoment, htime, hclock, ?_, fun r hr => ⟨?_, ?_⟩⟩, _, hpopeT, hpcT, hpushT, hmemT, hmomentT, htimeT, fun r => ?_⟩
    · refine (congrFun hcur d.toNat).trans ((hlook _).trans ?_)
      by_cases hd0 : d = 0
      · simp [hd0]
      · rw [if_pos ⟨fun h0 => hd0 (BitVec.eq_of_toNat_eq h0), rfl⟩, if_neg hd0]
    · exact (congrFun hcur r).trans ((hlook r).trans (if_neg fun hrd => hr hrd.2))
    · exact (congrFun hmark r).trans ((hmarks r).trans (if_neg fun hrd => hr hrd.2))
    · exact (congrFun hcurT r).trans (hlookT r)
  · rw [hbody, popTaken_faulted hfault] at hpope
    have hraise := popFault_raises (h := h) (d := d) (v := x.val) (f := f) (nextPc s h (src2Len o)) hx hlevel hvec
    rw [ha] at hraise
    exact ⟨_, hpope, by rw [finish, ha]; exact hraise⟩

end Sys2Proof.Laws.Fifos

namespace Sys2Proof

/-- Settles O24: a push or a pop that finds its FIFO ends in one state for each outcome of its body, whose FIFO, registers, clock and log are read off. -/
theorem windowFifos : Obligations.WindowFifos := ⟨Laws.Fifos.pushesAppendCommands, Laws.Fifos.popsTakeElements⟩

end Sys2Proof
end

section
/-!
PROOFS. The issue of COPY and COPY.ln (R148, R149) and of the row commands (R110, R111): settles O25.
-/
namespace Sys2Proof.Laws.CopyIssue

open Sys2Proof.Machine Sys2Proof.Laws.Finishes Sys2Proof.Laws.Squash

/-! ### COPY (R148, R149) -/

/-- The command of a COPY at near address `near`, as the access engine reads its operands. -/
def copyOf (h : Hdr) (a : Reg) (o : Src2) (near : Nat) (p : State) : CopyCmd :=
  { layout := (List.range 12).map (fun i => readG p .a (a.toNat + i)), xform := (src2Z p .a o).setWidth 32
    near := near, rm := h.rm, id := p.core.nextId, tag := p.core.engA.walk, push := h.push, ctx := p.core.ctx.getD 0
    ovt := wordAt (issueWords p) 0, level := wordAt (issueWords p) 1 == 1, bgm := (issueWords p).drop 2, order := some p.core.engA.seq }

/-- The state in which a copy command has joined the queue. -/
def copyQueued (q : CopyCmd) (p : State) : State :=
  modCore p (fun c => { c with copyQueue := c.copyQueue ++ [q], nextId := c.nextId + 1 })

theorem copyBody_joins {h : Hdr} {a : Reg} {o : Src2} {p : State} (near : Nat) (ho : orderHeld p.core false = false) (hroom : p.core.copyQueue.length < 32)
    (hpushed : (pushedCopies p).isEmpty = true) : copyBody h a o near p = .later (copyQueued (copyOf h a o near p) p) := by
  unfold copyBody
  rw [if_neg (by simp [ho, hpushed]; omega)]
  rfl

/-- A command that has joined the queue is all that has changed, but for the walk and the places reserved. -/
theorem copyQueued_finishes (h : Hdr) (q : CopyCmd) (p : State) (pc : Nat) :
    let t := finishLater (copyQueued q p) h pc
    WalkedTo p t h p.core.ck pc ∧ Reserved p t h ∧ SameMemory p t ∧ t.core.g = p.core.g ∧ t.core.near = p.core.near ∧
      t.core.copyQueue = p.core.copyQueue ++ [q] := by
  intro t
  have hw : OnlyWalked (copyQueued q p) t := finishLater_onlyWalked ..
  have hwalk : walkOf (copyQueued q p) = walkOf p := rfl
  have hcore {β : Type} := core_of_onlyWalked (β := β) (h := hw)
  exact ⟨walkedTo_of_walkOf hwalk (finishLater_walked ..), reserved_of_walkOf hwalk (finishLater_reserved _ _ _),
    fun b => sameMemory_of_onlyWalked hw b,
    hcore Core.g (fun _ _ _ _ _ _ _ => rfl), hcore Core.near (fun _ _ _ _ _ _ _ => rfl), hcore Core.copyQueue (fun _ _ _ _ _ _ _ => rfl)⟩

theorem copiesJoinTheQueue : CopiesJoinTheQueue := by
  intro h d a o s p ha ho hroom hpushed Queued
  have hqueued (v : Word) : Queued v (finishLater (copyQueued (copyOf h a o v.toNat p) p) h (nextPc s h (src2Len o))) := by
    obtain ⟨hwalk, htok, hmem, hg, hnear, hq⟩ := copyQueued_finishes h (copyOf h a o v.toNat p) p (nextPc s h (src2Len o))
    exact ⟨hwalk, htok, hmem, hg, hnear, _, hq, rfl, rfl, rfl, rfl, rfl, rfl⟩
  refine ⟨fun hi => ⟨_, (issueOut_of_issues hi).trans ?_, hqueued _⟩, fun w hi hwait hclean haddr => ⟨_, (issueOut_of_issues hi).trans ?_, hqueued w⟩⟩
  · rw [copyBody_joins _ ho hroom hpushed, finish_later]
  · have hbase : withBase p (.nest d) (fun v => copyBody h a o v.toNat p) = copyBody h a o w.toNat p := by
      have hlocs : baseLocs p (.nest d) = lnLocs p d.toNat := rfl
      have hw : baseAddr p (.nest d) = some w := haddr
      unfold withBase
      rw [hlocs, hwait, hclean, hw]
      rfl
    rw [hbase, copyBody_joins _ ho hroom hpushed, finish_later]

/-! ### Row commands (R110, R111) -/

section
variable {kind : Nat} {h : Hdr} {a : Reg} {o : Src2} {p : State}

theorem rowBody_zero (hn : (src2Z p .a o).toNat = 0) : rowBody kind h a o p = .done p := by
  unfold rowBody
  dsimp only
  rw [hn]
  rfl

theorem rowBody_tooMany (hn : 4096 < (src2Z p .a o).toNat) : rowBody kind h a o p = .trap commandFault := by
  unfold rowBody
  dsimp only
  rw [if_neg (by simp; omega), if_pos hn]

/-- The granules of a row command of `n` granules from physical address `pa` on. -/
def granules (pa n : Nat) : List Nat := (List.range n).map (fun k => pa / 1024 * 1024 + 1024 * k)

/-- Those that have a cellar row. -/
def cellarGranules (pa n : Nat) : List Nat := (granules pa n).filter (fun g => classOf g == 0)

/-- The state in which a row command has joined the core's unfinished ones. -/
def rowsJoined (push : BitVec 4) (p : State) (e : TlbEntry) (pa n : Nat) : State :=
  modCore (touchTlb p e) (fun c => { c with
    nextId := p.core.nextId + 1, rowOps := c.rowOps ++ [((cellarGranules pa n).length, p.core.nextId, push, c.engA.seq)] })

/-- The state in which its row operations have joined their stacks, too. -/
def rowsSent (kind : Nat) (push : BitVec 4) (p : State) (e : TlbEntry) (pa n : Nat) : State :=
  (cellarGranules pa n).foldl (sendRowOp kind p.core.nextId) (rowsJoined push p e pa n)

theorem rowBody_sends {e : TlbEntry} {pa : Nat} (hpos : 0 < (src2Z p .a o).toNat) (hmax : (src2Z p .a o).toNat ≤ 4096)
    (ht : translateRights p .a (readG p .a a.toNat).toNat { r := true } = .ok e pa)
    (hpage : (readG p .a a.toNat).toNat / 1024 * 1024 + 1024 * (src2Z p .a o).toNat ≤ e.base + e.size) (hclass : classOf pa ≠ 3)
    (hbacked : ∀ k, k < (src2Z p .a o).toNat → backed (pa / 1024 * 1024 + 1024 * k) = true) (ho : orderHeld p.core false = false)
    (hroom : p.core.rowOps.length < 16) : rowBody kind h a o p = .later (rowsSent kind h.push p e pa (src2Z p .a o).toNat) := by
  have hnone : ((List.range (src2Z p .a o).toNat).map (fun k => pa / 1024 * 1024 + 1024 * k)).zipIdx.find? (fun g => !backed g.1) = none := by
    refine List.find?_eq_none.2 fun g hg => ?_
    obtain ⟨k, hk, hgk⟩ := List.mem_map.1 (List.fst_mem_of_mem_zipIdx hg)
    simp [← hgk, hbacked k (List.mem_range.1 hk)]
  unfold rowBody
  dsimp only
  rw [if_neg (by simp; omega), if_neg (by omega)]
  simp only [ht]
  rw [if_neg (by omega), if_neg (by simpa using hclass), hnone]
  dsimp only
  rw [if_neg (by simp [ho]; omega)]
  rfl

end

theorem stackAt_modStack (s : State) (j k : Nat) (f : Stack → Stack) : stackAt (modStack s j f) k = if k = j then f (stackAt s j) else stackAt s k := by
  simp [stackAt, modStack, setStack, look_place]

/-- Row operations sent in turn reach the stacks of their granules in that order. -/
theorem rowOps_sent (kind id : Nat) (l : List Nat) (s : State) (k : Nat) : (stackAt (l.foldl (sendRowOp kind id) s) k).rowOps =
    (stackAt s k).rowOps ++ (l.filter (fun g => stackOf g = k)).map (fun g => { kind := kind, addr := g, core := s.cur, seq := id }) := by
  induction l generalizing s with
  | nil => simp
  | cons g l ih =>
    rw [List.foldl_cons, ih, sendRowOp, stackAt_modStack]
    by_cases hg : stackOf g = k
    · simp [hg, modStack, setStack]
    · simp [hg, Ne.symm hg, modStack, setStack]

section
variable (kind : Nat) (push : BitVec 4) (p : State) (e : TlbEntry) (pa n : Nat)

/-- Sending row operations changes nothing but the stacks. -/
theorem rowsSent_same {β : Type} (g : State → β) (hg : ∀ (s : State) (x : Sparse Stack), g { s with dramStacks := x } = g s) :
    g (rowsSent kind push p e pa n) = g (rowsJoined push p e pa n) :=
  foldl_same (f := sendRowOp kind p.core.nextId) (fun s _ => hg s _) _ _

theorem walkOf_rowsSent : walkOf (rowsSent kind push p e pa n) = walkOf p := rowsSent_same kind push p e pa n walkOf (fun _ _ => rfl)

theorem rowsSent_mem : (rowsSent kind push p e pa n).mem = p.mem := rowsSent_same kind push p e pa n State.mem (fun _ _ => rfl)

theorem rowsSent_g : (rowsSent kind push p e pa n).core.g = p.core.g := rowsSent_same kind push p e pa n (fun s => s.core.g) (fun _ _ => rfl)

theorem rowsSent_rowOps : (rowsSent kind push p e pa n).core.rowOps =
    p.core.rowOps ++ [((cellarGranules pa n).length, p.core.nextId, push, p.core.engA.seq)] :=
  rowsSent_same kind push p e pa n (fun s => s.core.rowOps) (fun _ _ => rfl)

theorem length_cellarGranules : (cellarGranules pa n).length = ((List.range n).filter (fun k => classOf (pa / 1024 * 1024 + 1024 * k) = 0)).length := by
  rw [cellarGranules, granules, List.filter_map, List.length_map]
  rfl

theorem rowOps_rowsSent (k : Nat) : (stackAt (rowsSent kind push p e pa n) k).rowOps = (stackAt p k).rowOps ++
    ((granules pa n).filter (fun g => classOf g = 0 ∧ stackOf g = k)).map
      (fun g => { kind := kind, addr := g, core := p.cur, seq := p.core.nextId }) := by
  rw [rowsSent, rowOps_sent, cellarGranules, List.filter_filter]
  have hboth : (fun g => decide (stackOf g = k) && classOf g == 0) = fun g => decide (classOf g = 0 ∧ stackOf g = k) := by
    funext g
    rw [Bool.decide_and, Bool.and_comm]
    rfl
  rw [hboth]
  rfl

end

theorem rowCommandsIssue : RowCommandsIssue := by
  intro h a o s p hi ha v n r hr
  have hexec : exec r.1 s = .next (finish s h (nextPc s h (src2Len o)) (rowBody r.2 h a o p)) := by
    have hform : exec r.1 s = rowForm r.2 h a o s := by
      simp only [List.mem_cons, List.not_mem_nil, or_false] at hr
      rcases hr with rfl | rfl | rfl <;> rfl
    exact hform.trans (issueOut_of_issues hi)
  refine ⟨fun hn => ⟨_, hexec, ?_⟩, fun hn => ?_, fun e pa hpos hmax ht hpage hclass hbacked ho hroom => ⟨_, hexec, ?_⟩⟩
  · rw [rowBody_zero hn]
    exact ⟨finishNow_walked .., finishNow_pushed _ _ _, finishNow_onlyWalked ..⟩
  · rw [hexec, rowBody_tooMany hn, finish, ha]
    rfl
  · rw [rowBody_sends hpos hmax ht hpage hclass hbacked ho hroom, finish_later]
    have hw := finishLater_onlyWalked (rowsSent r.2 h.push p e pa n) h (nextPc s h (src2Len o))
    have hcore {β : Type} := core_of_onlyWalked (β := β) (h := hw)
    refine ⟨walkedTo_of_walkOf (walkOf_rowsSent ..) (finishLater_walked ..), reserved_of_walkOf (walkOf_rowsSent ..) (finishLater_reserved _ _ _),
      fun b => (sameMemory_of_onlyWalked hw b).trans (memByte_of_mem (rowsSent_mem ..) b), ?_, p.core.nextId, ?_, fun k => ?_⟩
    · rw [hcore Core.g (fun _ _ _ _ _ _ _ => rfl), rowsSent_g]
    · rw [hcore Core.rowOps (fun _ _ _ _ _ _ _ => rfl), rowsSent_rowOps, length_cellarGranules]
    · rw [keeps_of_onlyWalked (fun s => stackAt s k) (fun _ _ _ _ _ _ _ => rfl) hw]
      exact rowOps_rowsSent ..

end Sys2Proof.Laws.CopyIssue

namespace Sys2Proof

/-- Settles O25: a copy command is appended to the queue as it reads its operands, and a row command to the unfinished ones, its row operations
to their stacks in turn. -/
theorem copiesAndRowCommandsIssue : Obligations.CopiesAndRowCommandsIssue :=
  ⟨Laws.CopyIssue.copiesJoinTheQueue, Laws.CopyIssue.rowCommandsIssue⟩

end Sys2Proof
end

section
/-!
PROOFS. What an access to memory leaves of the current core: its registers, its cells, its scratchpad and the commands of its engines.
-/
namespace Sys2Proof.Laws.Accesses

open Sys2Proof.Machine

/-- A part of a core that no access to memory changes: it is read from neither the L1, the code buffer, the event counters, the stores on
their way, the clock, the moment, what is known, nor the stop for a spilled block. -/
def Apart {β : Type} (v : Core → β) : Prop :=
  ∀ (c : Core) (lines : List L1Line) (code : List CodePage) (sys : File Word) (flying : List FlyingStore) (clock moment : Nat) (known : Sparse Nat)
    (stall : Bool), v { c with l1 := lines, codeBuffer := code, sys := sys, flying := flying, clock := clock, moment := moment, known := known, spillStall := stall } = v c

section
variable {β : Type} {v : Core → β}

theorem coreAt_same {f : Core → Core} (hf : ∀ c, v (f c) = v c) (s : State) (k : Nat) : v (modCoreAt s k f).core = v s.core := by
  unfold modCoreAt
  split
  · exact hf _
  · rfl

theorem cores_same {f : Core → Core} (hf : ∀ c, v (f c) = v c) (s : State) (p : Nat → Bool) : v (modCores s p f).core = v s.core := by
  refine foldl_same (g := fun s : State => v s.core) (fun s k => ?_) _ _
  split
  · exact coreAt_same hf s k
  · rfl

/-! ### Operations that do not reach a core -/

/-- Writing bytes of memory does not reach a core. -/
theorem pokes_core {α : Type} {f : State → α → State} (hf : ∀ s x, ∃ a b ks, f s x = pokeByte s a b ks) (l : List α) (s : State) :
    (l.foldl f s).core = s.core := by
  refine foldl_same (g := State.core) (fun s x => ?_) _ _
  obtain ⟨a, b, ks, h⟩ := hf s x
  rw [h]
  rfl

@[simp] theorem promoWrite_core (s : State) (pa m : Nat) : (promoWrite s pa m).core = s.core := by unfold promoWrite; split <;> rfl

@[simp] theorem wroteLine_core (s : State) (pa : Nat) : (wroteLine s pa).core = s.core := by
  unfold wroteLine
  split
  · rfl
  · split
    · rfl
    · exact promoWrite_core ..

@[simp] theorem wroteLines_core (s : State) (as : List Nat) : (wroteLines s as).core = s.core :=
  foldl_same (g := State.core) (fun s l => wroteLine_core s (128 * l)) _ _

@[simp] theorem setMark_core (s : State) (g : Nat) (b : Bool) : (setMark s g b).core = s.core := rfl

@[simp] theorem setMarks_core (s : State) (gs : List Nat) (b : Bool) : (setMarks s gs b).core = s.core :=
  foldl_same (g := State.core) (f := fun s g => setMark s g b) (fun s g => setMark_core s g b) _ _

@[simp] theorem clearPoison_core (s : State) (as : List Nat) : (clearPoison s as).core = s.core := setMarks_core ..
@[simp] theorem poisonBytes_core (s : State) (as : List Nat) : (poisonBytes s as).core = s.core := setMarks_core ..

@[simp] theorem overwrite_core (s : State) (ws : List (Nat × Byte)) : (overwrite s ws).core = s.core := by
  refine (pokes_core (fun _ _ => ⟨_, _, _, rfl⟩) _ _).trans ?_
  rw [wroteLines_core, clearPoison_core]
  rfl

@[simp] theorem writeBack_core (s : State) (l : L1Line) : (writeBack s l).core = s.core := by
  unfold writeBack
  split
  · rfl
  · split
    · rw [setMarks_core, overwrite_core]
    · split <;> rfl

@[simp] theorem writeBacks_core (s : State) (ls : List L1Line) : (ls.foldl writeBack s).core = s.core :=
  foldl_same (g := State.core) writeBack_core _ _

@[simp] theorem poisonGranule_core (s : State) (pa : Nat) : (poisonGranule s pa).core = s.core := by
  have hspoil : (spoilGranule s pa).core = s.core := by
    unfold spoilGranule
    generalize List.range 32 = l
    dsimp only
    rw [setMark_core]
    exact pokes_core (s := newMoment s)
      (f := fun s i => pokeByte s (32 * (pa / 32) + i) (Config.badByte s.tick (32 * (pa / 32) + i)) (keysAt s (32 * (pa / 32) + i)))
      (fun _ _ => ⟨_, _, _, rfl⟩) l
  rw [poisonGranule, promoWrite_core]
  exact hspoil

@[simp] theorem askSlice_core (s : State) (who pa policy : Nat) (write : Bool) : (askSlice s who pa policy write).core = s.core := by
  unfold askSlice
  split
  · rfl
  · dsimp only
    split
    · exact poisonGranule_core ..
    · rfl
    · rfl

@[simp] theorem sendFlits_core (s : State) (dst n : Nat) : (sendFlits s dst n).core = s.core := by unfold sendFlits countFlits; split <;> rfl

@[simp] theorem pLine_core (s : State) (u rank line : Nat) : (pLine s u rank line).1.core = s.core := by
  unfold pLine
  split
  · rfl
  · exact askSlice_core ..

/-! ### Operations that reach the parts an access changes -/

variable (hv : Apart v)
include hv

theorem countLost_apart (s : State) (x : CodeSector) : v (countLost s x).core = v s.core := by
  unfold countLost
  dsimp only
  split
  · rfl
  · exact foldl_same (g := fun s : State => v s.core) (fun s k => coreAt_same (fun c => hv c c.l1 c.codeBuffer _ c.flying c.clock c.moment c.known c.spillStall) s k) _ _

theorem dropSector_apart (s : State) (pa : Nat) : v (dropSector s pa).core = v s.core := by
  unfold dropSector
  split
  · rfl
  · refine (foldl_same (g := fun s : State => v s.core) (countLost_apart hv) _ _).trans ?_
    exact cores_same (fun c => hv c c.l1 _ c.sys c.flying c.clock c.moment c.known c.spillStall) _ _

theorem settleBy_apart (s : State) (comp : Nat) (k : Nat → Key) (ws : List (Nat × Byte × Byte)) : v (settleBy s comp k ws).core = v s.core := by
  have hbase := (foldl_same (g := fun s : State => v s.core) (fun s k => dropSector_apart hv s (256 * k))
    (dedupNat (ws.map (fun w => w.1 / 256))) (wroteLines (newMoment s) (ws.map Prod.fst))).trans (congrArg v (wroteLines_core ..))
  unfold settleBy
  dsimp only
  split
  · refine Eq.trans ?_ hbase
    exact congrArg v ((pokes_core (fun _ _ => ⟨_, _, _, rfl⟩) _ _).trans (clearPoison_core ..))
  · refine Eq.trans ?_ hbase
    refine congrArg v ((pokes_core (fun _ _ => ⟨_, _, _, rfl⟩) _ _).trans ?_)
    exact (foldl_same (g := State.core) (f := fun s (p : Nat × Byte × List Key) => pokeKeys s p.1 p.2.2) (fun _ _ => rfl) _ _).trans (clearPoison_core ..)

theorem l1Drop_apart (s : State) (line : Nat) (cls : Coh) : v (l1Drop s line cls).core = v s.core := by
  unfold l1Drop
  dsimp only
  split
  · rfl
  · rw [writeBacks_core]
    exact coreAt_same (fun c => hv c _ c.codeBuffer c.sys c.flying c.clock c.moment c.known c.spillStall) _ _

theorem l1Put_apart (s : State) (x : L1Line) : v (l1Put s x).core = v s.core := by
  have hput (f : Core → List L1Line) := coreAt_same (v := v) (f := fun c => { c with l1 := f c })
    (fun c => hv c _ c.codeBuffer c.sys c.flying c.clock c.moment c.known c.spillStall) s (l1Holder s x.line)
  unfold l1Put
  dsimp only
  split
  · rw [writeBack_core, writeBacks_core]
    exact hput _
  · rw [writeBacks_core]
    exact hput _

/-- An O store of a line changes nothing else of the core (R342). -/
theorem oStore_apart (s : State) (line : Nat) (ws : List (Nat × Byte × Byte)) : v (oStore s line ws).core = v s.core := by
  unfold oStore
  dsimp only
  rw [modCore_core, modDie_core]
  refine (hv _ _ _ _ _ _ _ _ _).trans ?_
  exact (settleBy_apart hv _ _ _ _).trans (l1Drop_apart hv _ _ _)

theorem oFill_apart (s : State) (line : Nat) : v (oLoad.oFill s line).1.core = v s.core :=
  (hv _ _ _ _ _ _ _ _ _).trans (l1Put_apart hv _ _)

theorem oLoad_apart (s : State) (u policy line : Nat) : v (oLoad s u policy line).1.core = v s.core := by
  have hfill : v (oLoad.oFill (askSlice s (unitOf s u) (128 * line) policy false) line).1.core = v s.core :=
    (oFill_apart hv _ _).trans (congrArg v (askSlice_core ..))
  unfold oLoad
  split
  · split
    · exact (hv _ _ _ _ _ _ _ _ _).trans (l1Put_apart hv _ _)
    · exact hfill
  · exact hfill

theorem lLine_apart (s : State) (u rank line : Nat) : v (lLine s u rank line).core = v s.core := by
  have hfill : v (lLine.lFill (askSlice s (unitOf s u) (128 * line) rank false) line).core = v s.core :=
    (l1Put_apart hv _ _).trans (congrArg v (askSlice_core ..))
  unfold lLine
  split
  · split
    · exact l1Put_apart hv _ _
    · exact hfill
  · exact hfill

theorem landFlying_apart (s : State) (p : FlyingStore → Bool) : v (landFlying s p).core = v s.core := by
  unfold landFlying
  rw [modCore_core]
  refine (hv _ _ _ _ _ _ _ _ _).trans ?_
  exact congrArg v (foldl_same (g := State.core) (f := fun s (f : FlyingStore) => lentStore s f.ws f.mark) (fun _ _ => rfl) _ _)

theorem readPiece_apart (s : State) (u : Nat) (t : TlbEntry) (policy pa n : Nat) : v (readPiece s u t policy pa n).1.core = v s.core := by
  unfold readPiece
  dsimp only
  split
  · rw [landFlying_apart hv, sendFlits_core]
  · split
    · exact (l1Put_apart hv _ _).trans (congrArg v (pLine_core ..))
    · exact (hv _ _ _ _ _ _ _ _ _).trans (lLine_apart hv _ _ _ _)
    · exact (hv _ _ _ _ _ _ _ _ _).trans (oLoad_apart hv _ _ _ _)

/-- A read of memory changes nothing else of the core (R180, R330, R338, R342, R446). -/
theorem readMarked_apart (s : State) (u : Nat) (t : TlbEntry) (policy pa n : Nat) : v (readMarked s u t policy pa n).1.core = v s.core := by
  unfold readMarked
  refine foldl_same (g := fun x : State × List (Byte × Bool) => v x.1.core) (fun x p => ?_) _ _
  exact readPiece_apart hv x.1 u t policy p.1 p.2

theorem touchSpilled_apart (s : State) (pas : List Nat) : v (touchSpilled s pas).core = v s.core := by
  unfold touchSpilled
  split
  · rfl
  · refine (hv _ _ _ _ _ _ _ _ _).trans ?_
    exact congrArg v (foldl_same (g := State.core) (fun s l => askSlice_core s _ (128 * l) 0 false) _ _)

theorem spillWrite_apart (s : State) (ws : List (Nat × Byte × Bool)) : v (spillWrite s ws).core = v s.core := by
  unfold spillWrite
  split
  · rfl
  · rw [poisonBytes_core, touchSpilled_apart hv, overwrite_core]

/-- A near byte written for a command changes nothing of the core but the scratchpad and what it keeps of it, beside what an access to
a spilled block does. -/
theorem nearPut_apart (hn : ∀ (c : Core) (near : File Byte) (old : List NearOld) (n : Nat), v { c with near := near, nearOld := old, nextId := n } = v c)
    (s : State) (o : Option Nat) (src id : Nat) (readers : List Nat) (a : Nat) (b : Byte) (mark : Bool) :
    v (nearPut s o src id readers a b mark).core = v s.core := by
  have hwrite (s : State) : v (nearWrite s 1 src id readers a b mark).core = v s.core := by
    unfold nearWrite
    split
    · exact hn s.core _ s.core.nearOld _
    · split
      · exact spillWrite_apart hv _ _
      · rfl
    · rfl
    · rfl
  have hkeep (n : Nat) : v (keepNear s n a).core = v s.core := by
    unfold keepNear
    split
    · split
      · exact hn s.core s.core.near _ s.core.nextId
      · rfl
    · rfl
  unfold nearPut
  split
  · exact hn s.core s.core.near _ s.core.nextId
  · split
    · exact (hwrite _).trans (hkeep _)
    · split
      · rfl
      · exact hwrite s

end

end Sys2Proof.Laws.Accesses
end

section
/-!
PROOFS. The copy engine (R149, R151, R158, R159, R343) and the probe fills (R194) run their commands: settles O39.
-/
namespace Sys2Proof.Laws.Copies

open Sys2Proof.Machine

/-! ### What each event of the copy engine does at the core that the environment names -/

/-- The copy command that a pushed command becomes on its way into the copy queue (R149). -/
def copyOfCmd (p : State) (q : Cmd) : CopyCmd :=
  { layout := q.words.take 12, xform := BitVec.ofNat 32 (bits (wordAt q.words 12) 63 32), near := bits (wordAt q.words 12) 31 0, rm := q.rm
    id := p.core.nextId, tag := p.core.engA.walk, push := 0, fifo := true, ctx := q.ctx
    ovt := wordAt q.words 13, level := wordAt q.words 14 == 1, bgm := q.words.drop 15 }

theorem xform_copyOfCmd (p : State) (q : Cmd) : (copyOfCmd p q).xform.toNat = bits (wordAt q.words 12) 63 32 := by
  have hlt : bits (wordAt q.words 12) 63 32 < 2 ^ 32 := Nat.mod_lt _ (by decide)
  exact (BitVec.toNat_ofNat ..).trans (Nat.mod_eq_of_lt hlt)

/-- The core with its copy command ended: nothing that stores overtook stays when it was the last. -/
def copyEnded (p : State) : State := modCore p (fun c => dropOld { c with copyRun := none })

theorem dropOld_eq (c : Core) : dropOld c = { c with nearOld := (dropOld c).nearOld } := by unfold dropOld; split <;> rfl

@[simp] theorem copyEnded_copyRun (p : State) : (copyEnded p).core.copyRun = none := by rw [copyEnded, modCore_core, dropOld_eq]
@[simp] theorem copyEnded_g (p : State) : (copyEnded p).core.g = p.core.g := by rw [copyEnded, modCore_core, dropOld_eq]
@[simp] theorem copyEnded_tokens (p : State) : (copyEnded p).core.tokens = p.core.tokens := by rw [copyEnded, modCore_core, dropOld_eq]
@[simp] theorem copyEnded_trapFrame (p : State) : (copyEnded p).core.trapFrame = p.core.trapFrame := by rw [copyEnded, modCore_core, dropOld_eq]

theorem queueAt_copyEnded (p : State) (k : Nat) : queueAt (copyEnded p).core k = queueAt p.core k := by rw [queueAt, copyEnded_tokens, queueAt]

/-- The token that an ended copy pushes, marked with the fault where it met one (R159). -/
def copyToken (p : State) (r : CopyRun) : Token :=
  { src := Eng.a.num, seq := r.cmd.order.getD 0, cmd := some r.cmd.id, mark := r.fault, clk := p.clk }

/-- The core with its fill ended: the fill's entry is no longer pending (R194). -/
def fillEnded (p : State) (f : Fill) : State :=
  modCore p (fun c => dropOld { c with
    fillRun := none, probeTags := c.probeTags.map (fun t => if t.entry == f.entry then { t with pending := false } else t) })

theorem fillEnded_parts (p : State) (f : Fill) : (fillEnded p f).core.fillRun = none ∧ (fillEnded p f).core.near = p.core.near ∧
    (fillEnded p f).core.probeTags = p.core.probeTags.map (fun g => if g.entry = f.entry then { g with pending := false } else g) := by
  rw [fillEnded, modCore_core, dropOld_eq]
  simp only [beq_iff_eq]
  exact ⟨trivial, trivial, trivial⟩

theorem startRun_cmd (q : CopyCmd) : (startRun q).cmd = q ∧ (startRun q).pos = 0 ∧ (startRun q).stores = [] := by
  unfold startRun; split <;> exact ⟨rfl, rfl, rfl⟩

theorem startRun_fault (q : CopyCmd) : (startRun q).fault = q.broken.orElse (fun _ => checkCopy q) := by
  unfold startRun; split <;> exact Eq.symm ‹_›

/-- A command whose checks find a fault looks at no line (R158). -/
theorem startRun_ahead (q : CopyCmd) (h : (startRun q).fault ≠ none) : (startRun q).ahead = [] := by
  unfold startRun at h ⊢
  split
  · rfl
  next hc => rw [hc] at h; exact absurd rfl h

/-- Tokens of a command that pushes any, or has met no fault, carry the fault where there is one (R159). -/
theorem endTokens_pushes {push : BitVec 4} {f : Option FaultRec} (h : push ≠ 0) (clk : Nat) (owner owes : Eng) (id seq : Nat) (c : Core) :
    endTokens clk owner owes push id seq f c = pushCommand c owner push id { src := owner.num, seq := seq, cmd := some id, mark := f, clk := clk } := by
  unfold endTokens
  cases f with
  | none => rfl
  | some x => exact if_neg (by simpa using h)

section
variable {s p : State} (hp : focus s s.arg.core.toNat = p)
include hp

theorem copyCommand_joins {q : Cmd} {qs : List Cmd} (hq : (fifoAt p (dieOfCore p.cur) (fifoCopy + p.cur % 64)).cmds = q :: qs)
    (hroom : p.core.copyQueue.length < 32) (hctx : p.core.ctx = some q.ctx) :
    execEvCopyCommand s = .next (modCore
      (setFifo p (dieOfCore p.cur) (fifoCopy + p.cur % 64) { fifoAt p (dieOfCore p.cur) (fifoCopy + p.cur % 64) with cmds := qs })
      (fun c => { c with copyQueue := c.copyQueue ++ [copyOfCmd p q], nextId := c.nextId + 1 })) := by
  unfold execEvCopyCommand
  rw [hp]
  dsimp only
  rw [hq]
  dsimp only
  rw [if_neg (by simp [hctx]; omega)]
  rfl

theorem copyTransfer_starts {q : CopyCmd} {qs : List CopyCmd} (hrun : p.core.copyRun = none) (hfill : p.core.fillRun = none)
    (hfills : p.core.fillQueue = []) (hq : p.core.copyQueue = q :: qs) (hmoves : waitsForMoves p.core q = false) (hfull : resultsFull p q = false)
    (hbad : q.id ∉ p.core.badCmds) :
    execEvCopyTransfer s = .next (modCore p (fun c => { c with copyQueue := qs, copyRun := some (startRun q) })) := by
  unfold execEvCopyTransfer
  rw [hp]
  simp [hrun, hfill, hfills, hq, hmoves, hfull, hbad]

theorem copyTransfer_moves {r : CopyRun} (hrun : p.core.copyRun = some r) (hahead : r.ahead = []) (hmoved : r.moved = false) (hn : s.arg.n = 1) :
    execEvCopyTransfer s = .next (moveElems 1 p) := by
  have harg : p.arg.n = 1 := by rw [← hp, Rows.focus_arg, hn]
  unfold execEvCopyTransfer
  rw [hp]
  simp [hrun, hahead, hmoved, harg]

theorem copyTransfer_stores {r : CopyRun} (hrun : p.core.copyRun = some r) (hahead : r.ahead = []) (hmoved : r.moved = true) :
    execEvCopyTransfer s = .next (storeLine p r) := by
  unfold execEvCopyTransfer
  rw [hp]
  simp [hrun, hahead, hmoved]

theorem copyComplete_posts {r : CopyRun} (hrun : p.core.copyRun = some r) (hmoved : r.moved = true) (hstores : r.stores = []) (hfifo : r.cmd.fifo = true) :
    execEvCopyComplete s = .next (postRes (copyEnded p) (dieOfCore p.cur) (fifoCopy + p.cur % 64)
      { ctx := r.cmd.ctx, val := copyResult r.fault r.pos, fault := r.fault, cmd := some r.cmd.id }) := by
  unfold execEvCopyComplete
  rw [hp]
  simp [hrun, hmoved, hstores, hfifo, copyEnded]

theorem copyComplete_pushes {r : CopyRun} (hrun : p.core.copyRun = some r) (hmoved : r.moved = true) (hstores : r.stores = []) (hstaging : r.cmd.staging = false)
    (hfifo : r.cmd.fifo = false) (hpush : r.cmd.push ≠ 0) :
    execEvCopyComplete s = .next (modCore (copyEnded p) (fun c => pushCommand c .a r.cmd.push r.cmd.id (copyToken p r))) := by
  unfold execEvCopyComplete
  rw [hp]
  have hend := funext (endTokens_pushes (f := r.fault) hpush p.clk .a .a r.cmd.id (r.cmd.order.getD 0))
  simp [hrun, hmoved, hstores, hfifo, hstaging, hend, copyEnded, copyToken]

theorem probeFill_starts {f : Fill} {fs : List Fill} (hrun : p.core.fillRun = none) (hq : p.core.fillQueue = f :: fs) (hcopy : p.core.copyRun = none)
    (hmoves : movesBefore p.core.landing f.order = false) :
    execEvProbeFill s = .next (modCore p (fun c => { c with fillQueue := fs, fillRun := some f })) := by
  unfold execEvProbeFill
  rw [hp]
  simp [hrun, hq, hcopy, hmoves]

theorem fillDone_ends {f : Fill} (hrun : p.core.fillRun = some f) (hpos : f.pos = 4096) :
    execEvFillDone s = .next (fillEnded p f) := by
  unfold execEvFillDone
  rw [hp]
  simp [hrun, hpos, fillEnded]

end

/-! ### One element, one line -/

section
variable {p : State} {r : CopyRun} (hrun : p.core.copyRun = some r) (hmoved : r.moved = false)
include hrun hmoved

theorem moveElems_one : moveElems 1 p = match moveElem p r.cmd r.pos with
    | .ok s => modRun s (fun r => { r with pos := r.pos + 1 })
    | .fault s f => modRun s (fun x => { x with fault := some (metAt r.pos f) })
    | .wait s => spill s
    | .poison s => copyPoison s r := by
  unfold moveElems
  rw [hrun]
  dsimp only
  rw [if_neg (by rw [← CopyRun.moved, hmoved]; decide)]
  rfl

end

/-- The command's bytes of the line of address `a`. -/
def storesOf (r : CopyRun) (a : Nat) : Sparse (Byte × Byte × Bool) := r.stores.filter (fun w => w.1 / 128 == a / 128)

/-- The state in which those bytes have reached memory, by one O store (R342, R343). -/
def lineStored (p : State) (r : CopyRun) (a : Nat) : State :=
  poisonBytes (oStore (askSlice p (unitOf p 1) (128 * (a / 128)) 0 true) (a / 128) ((storesOf r a).map (fun w => (w.1, w.2.1, w.2.2.1))))
    (((storesOf r a).filter (fun w => w.2.2.2)).map Prod.fst)

theorem storeLine_eq {p : State} {r : CopyRun} {w : Nat × Byte × Byte × Bool} {ws : Sparse (Byte × Byte × Bool)} (hw : r.stores = w :: ws)
    (hheld : accessHeld p.core r.cmd.order = false) :
    storeLine p r = modRun (lineStored p r w.1) (fun r => { r with stores := r.stores.filter (fun x => x.1 / 128 != w.1 / 128) }) := by
  unfold storeLine lineStored storesOf
  rw [hw]
  dsimp only
  rw [hheld]
  rfl

theorem lineStored_apart {β : Type} {v : Core → β} (hv : Accesses.Apart v) (p : State) (r : CopyRun) (a : Nat) : v (lineStored p r a).core = v p.core := by
  rw [lineStored, Accesses.poisonBytes_core, Accesses.oStore_apart hv, Accesses.askSlice_core]

/-! ### The bytes of a fill -/

/-- The state in which the next `n` bytes of a fill have been read and written to its slot. -/
def fillMoved (p : State) (f : Fill) (n : Nat) : State :=
  (readMarked p 1 f.page 0 (f.pa + f.pos) n).2.zipIdx.foldl
    (fun s b => nearPut s (some f.order) 1 f.order [] (f.slot + f.pos + b.2) b.1.1 b.1.2) (readMarked p 1 f.page 0 (f.pa + f.pos) n).1

theorem fillMoved_apart {β : Type} {v : Core → β} (hv : Accesses.Apart v)
    (hn : ∀ (c : Core) (near : File Byte) (old : List NearOld) (n : Nat), v { c with near := near, nearOld := old, nextId := n } = v c)
    (p : State) (f : Fill) (n : Nat) : v (fillMoved p f n).core = v p.core := by
  refine Eq.trans ?_ (Accesses.readMarked_apart hv p 1 f.page 0 (f.pa + f.pos) n)
  refine foldl_same (g := fun s : State => v s.core) (fun s b => ?_) _ _
  exact Accesses.nearPut_apart hv hn s _ _ _ _ _ _ _

theorem probeFill_moves {s p : State} (hp : focus s s.arg.core.toNat = p) {f : Fill} (hrun : p.core.fillRun = some f)
    (hfree : isOrdered f.page f.pa = false ∨ accessHeld p.core (some f.order) = false) :
    execEvProbeFill s = .next (modCore (fillMoved p f (fillSpan f s.arg.n)) (fun c => { c with fillRun := some { f with pos := f.pos + fillSpan f s.arg.n } })) := by
  have harg : p.arg = s.arg := by rw [← hp, Rows.focus_arg]
  unfold execEvProbeFill
  rw [hp]
  dsimp only
  rw [hrun, harg]
  dsimp only
  rw [if_neg (by simpa [or_iff_not_imp_left] using hfree)]
  rfl

theorem fillMoved_g (p : State) (f : Fill) (n : Nat) : (fillMoved p f n).core.g = p.core.g :=
  fillMoved_apart (v := Core.g) (fun _ _ _ _ _ _ _ _ _ => rfl) (fun _ _ _ _ => rfl) p f n

theorem fillMoved_cells (p : State) (f : Fill) (n : Nat) : (fillMoved p f n).core.cells = p.core.cells :=
  fillMoved_apart (v := Core.cells) (fun _ _ _ _ _ _ _ _ _ => rfl) (fun _ _ _ _ => rfl) p f n

theorem fillSpan_le (f : Fill) (n : Nat) : fillSpan f n ≤ 4096 - f.pos := Nat.min_le_right _ _

theorem fillSpan_of_unordered {f : Fill} (n : Nat) (h : leafCoh f.page.leaf ≠ .o) : fillSpan f n = min n (4096 - f.pos) := by
  unfold fillSpan
  rw [if_neg (by simpa using h)]

/-! ### The statements -/

theorem copiesRun : CopiesRun := by
  intro s p d k
  refine ⟨fun q qs hq hroom hctx => ⟨_, copyCommand_joins rfl hq hroom hctx, ?_⟩,
    fun q qs hrun hfill hfills hq hmoves hfull hbad => ⟨_, copyTransfer_starts rfl hrun hfill hfills hq hmoves hfull hbad, ?_⟩,
    fun r p1 r1 hrun hahead hfault hpos hn hr1 => ?_, fun r w ws hrun hahead hmoved hw hheld => ⟨_, copyTransfer_stores rfl hrun hahead hmoved, ?_⟩,
    fun r hrun hend hstores hstaging => ?_⟩
  · refine ⟨?_, fun _ => rfl, rfl, _, rfl, rfl, rfl, xform_copyOfCmd p q, rfl, rfl⟩
    have hfifo := fifoAt_setFifo p d k { fifoAt p d k with cmds := qs } d k
    rw [if_pos ⟨rfl, rfl⟩] at hfifo
    exact congrArg Fifo.cmds hfifo
  · obtain ⟨hcmd, hpos, hst⟩ := startRun_cmd q
    exact ⟨rfl, ⟨_, rfl, hcmd, hpos, hst, startRun_fault q, startRun_ahead q⟩, rfl, fun _ => rfl⟩
  · have hmoved : r.moved = false := by simp [CopyRun.moved, hfault]; omega
    have hexec := copyTransfer_moves rfl hrun hahead hmoved hn
    rw [moveElems_one hrun hmoved] at hexec
    refine ⟨fun hok => ?_, fun f hf => ?_⟩
    · rw [hok] at hexec
      exact ⟨_, hexec, congrArg (Option.map _) hr1, rfl, fun _ => rfl⟩
    · rw [hf] at hexec
      exact ⟨_, hexec, congrArg (Option.map _) hr1, rfl, fun _ => rfl⟩
  · have hcore {β : Type} {v : Core → β} (hv : Accesses.Apart v) : v (lineStored p r w.1).core = v p.core := lineStored_apart hv p r w.1
    rw [storeLine_eq hw hheld]
    refine ⟨hcore (v := Core.g) (fun _ _ _ _ _ _ _ _ _ => rfl), hcore (v := Core.near) (fun _ _ _ _ _ _ _ _ _ => rfl), ?_⟩
    have hr := hcore (v := Core.copyRun) (fun _ _ _ _ _ _ _ _ _ => rfl)
    exact congrArg (Option.map _) (hr.trans hrun)
  · have hmoved : r.moved = true := by
      rcases hend with hf | hpos
      · simp [CopyRun.moved, Option.isSome_iff_ne_none, hf]
      · simp [CopyRun.moved, hpos]
    refine ⟨fun hfifo => ⟨_, copyComplete_posts rfl hrun hmoved hstores hfifo, copyEnded_copyRun p, fun _ => rfl, copyEnded_g p, ?_⟩,
      fun hfifo hpush ha hframe => ⟨_, copyComplete_pushes rfl hrun hmoved hstores hstaging hfifo hpush, ?_⟩⟩
    · refine ⟨{ ctx := r.cmd.ctx, val := copyResult r.fault r.pos, fault := r.fault, cmd := some r.cmd.id }, ?_, rfl, rfl,
        fun hf => congrArg (copyResult · r.pos) hf⟩
      rw [postRes, fifoAt_setFifo, if_pos ⟨rfl, rfl⟩]
      rfl
    · have hfr : (copyEnded p).core.trapFrame = none := (copyEnded_trapFrame p).trans hframe
      refine ⟨?_, fun _ => rfl, (Rows.pushCommand_g hfr).trans (copyEnded_g p), fun e he => ⟨copyToken p r, ?_, rfl⟩⟩
      · rw [modCore_core, Rows.pushCommand_noFrame hfr, Rows.pushReserved_eq]
        exact copyEnded_copyRun p
      · rw [modCore_core, Rows.toks_pushCommand hfr ha he, queueAt_copyEnded]

theorem fillsRun : FillsRun := by
  intro s p
  refine ⟨fun f fs hrun hq hcopy hmoves => ⟨_, probeFill_starts rfl hrun hq hcopy hmoves, rfl, rfl, rfl, fun _ => rfl⟩,
    fun f hrun _ hfree => ⟨_, probeFill_moves rfl hrun hfree, ?_, ?_, ?_⟩,
    fun f hrun hpos => ⟨_, fillDone_ends rfl hrun hpos, ?_⟩⟩
  · exact ⟨fillSpan f s.arg.n, rfl, fillSpan_le f _, fillSpan_of_unordered _⟩
  · simp only [modCore_core, fillMoved_g, p]
  · simp only [modCore_core, fillMoved_cells, p]
  · obtain ⟨hend, hnear, htags⟩ := fillEnded_parts p f
    exact ⟨hend, hnear, htags, fun _ => rfl⟩

end Sys2Proof.Laws.Copies

namespace Sys2Proof

/-- Settles O39: each event does at the core it names what the statement says of it, and an access to memory leaves the engine's own record,
the registers and the scratchpad. -/
theorem copiesAndFillsRun : Obligations.CopiesAndFillsRun := ⟨Laws.Copies.copiesRun, Laws.Copies.fillsRun⟩

end Sys2Proof
end

section
/-!
PROOFS. The end of a collective whose chunk disagrees (R449, R450): refutes O52.
-/
namespace Sys2Proof.Laws.CollectiveEnds

open Sys2Proof.Machine

/-- The chunk of the present step of `x` that the event brings comes from another device, is meant for `x`, and disagrees with it. -/
structure Disagrees (s : State) (x : Collective) : Prop where
  remote : (x.members.getD (peerFrom (collOf x.cmd) x.step) (0, 0)).1 ≠ s.device
  tag : s.arg.peer.tag.toNat = (collOf x.cmd).tag
  group : s.arg.peer.group = x.members
  rank : s.arg.peer.rank = peerFrom (collOf x.cmd) x.step
  step : s.arg.peer.step = x.step
  differs : s.arg.peer.kind ≠ (collOf x.cmd).kind ∨ s.arg.peer.data.length ≠ (collOf x.cmd).chunk

/-- A collective whose step's chunk disagrees ends with ENGINE_COMMAND (R450). -/
theorem collectiveReceive_disagrees {s : State} {x : Collective} (hx : (dieAt s s.arg.die.toNat).collectives[s.arg.n]? = some x)
    (hmark : x.cmd.mark = false) (hsent : x.sent = true) (h : Disagrees s x) :
    exec .evCollectiveReceive s = .next (failColl s s.arg.die.toNat x { code := .engineCommand }) := by
  obtain ⟨hremote, htag, hgroup, hrank, hstep, hdiffers⟩ := h
  change execEvCollectiveReceive s = _
  unfold execEvCollectiveReceive
  dsimp only
  rw [hx]
  dsimp only
  simp only [hmark, hsent, htag, hgroup, hrank, hstep, beq_self_eq_true, beq_eq_false_iff_ne.2 hremote]
  have hagree : (s.arg.peer.kind == (collOf x.cmd).kind && s.arg.peer.data.length == (collOf x.cmd).chunk) = false := by
    simpa [or_iff_not_imp_left] using hdiffers
  simp [hagree]

/-- What ends a collective takes it out of its die's list once. -/
theorem collectives_failColl (s : State) (d : Nat) (x : Collective) (f : FaultRec) :
    (dieAt (failColl s d x f) d).collectives = (dieAt s d).collectives.erase x := by
  simp [failColl, dropColl, postResult, postRes, setFifo, heldInbox]

/-- So an ended collective is still in the list exactly if the list held it more than once. -/
theorem mem_failColl_iff (s : State) (d : Nat) (x : Collective) (f : FaultRec) :
    x ∈ (dieAt (failColl s d x f) d).collectives ↔ 2 ≤ (dieAt s d).collectives.count x := by
  rw [collectives_failColl, ← List.count_pos_iff, List.count_erase_self]
  omega

theorem fifoAt_dropColl (s : State) (d : Nat) (x : Collective) (k : Nat) : fifoAt (dropColl s d x) d k = fifoAt s d k := by
  rw [fifoAt, dropColl, dieAt_modDie_self]
  rfl

/-- The clause that O52 states of such a chunk, for a die that lists no collective twice. -/
theorem collectiveReceive_ends {s : State} {x : Collective} (hx : (dieAt s s.arg.die.toNat).collectives[s.arg.n]? = some x)
    (hmark : x.cmd.mark = false) (hsent : x.sent = true) (h : Disagrees s x) (honce : (dieAt s s.arg.die.toNat).collectives.Nodup) :
    Completes (exec .evCollectiveReceive s) (fun t => SameMemory s t ∧ x ∉ (dieAt t s.arg.die.toNat).collectives ∧
      ∃ e, (fifoAt t s.arg.die.toNat fifoCollective).results = (fifoAt s s.arg.die.toNat fifoCollective).results ++ [e] ∧ e.ctx = x.cmd.ctx ∧
        e.val = collElem (collOf x.cmd).tag x.step true (collStatus { code := .engineCommand })) := by
  refine ⟨_, collectiveReceive_disagrees hx hmark hsent h, fun _ => rfl, fun hmem => ?_, ?_⟩
  · have htwice := (mem_failColl_iff ..).1 hmem
    have hone := List.nodup_iff_count_le_one.1 honce x
    omega
  · refine ⟨{ ctx := x.cmd.ctx, val := collElem (collOf x.cmd).tag x.step true (collStatus { code := .engineCommand }), fault := some { code := .engineCommand } },
      ?_, rfl, rfl⟩
    rw [failColl, postResult, postRes, fifoAt_setFifo, if_pos ⟨rfl, rfl⟩, fifoAt_dropColl]

/-- A RING of three devices, rank 0, chunks of 128 bytes, whose first step is sent and awaits the chunk of rank 2. -/
def ringOfThree : Collective :=
  { cmd := { ctx := 1, core := 0, stamp := 0, task := none
             words := [0, 0, BitVec.ofNat 64 (3 * 2 ^ 48), BitVec.ofNat 64 (128 * 2 ^ 32), 0x10000, 0x10000, 0x20000, 0] }
    members := [(0, 0), (1, 0), (2, 0)], step := 1, sent := true, cert := 0 }

/-- A package whose die 0 lists that collective twice, as a chunk of a sum comes for it from rank 2. -/
def listedTwice : State :=
  { State.reset with
    dies := [(0, { collectives := [ringOfThree, ringOfThree] })]
    arg := { peer := { tag := 0, group := ringOfThree.members, kind := 1, rank := 2, step := 1, data := [] } } }

theorem listedTwice_disagrees : Disagrees listedTwice ringOfThree := by
  constructor <;> decide +kernel

/-- Refutes O52: a chunk that disagrees ends its collective by taking it out of the die's list once, so a die that lists the same collective
twice still lists it. The model stamps every command with the step that pushes it, so no two collectives of a run are equal, but the statement
is made of every state. `collectiveReceive_ends` is the clause for a list without such twins. -/
theorem not_collectivesAndDecoders : ¬ Obligations.CollectivesAndDecoders := by
  unfold Obligations.CollectivesAndDecoders
  intro h
  obtain ⟨-, hrunning, -⟩ := h listedTwice
  obtain ⟨-, hreceive⟩ := hrunning ringOfThree (by decide +kernel) rfl
  have hd := listedTwice_disagrees
  obtain ⟨hends, -⟩ := hreceive rfl (by decide +kernel) (by decide +kernel) hd.remote hd.tag hd.group hd.rank hd.step
  obtain ⟨t, ht, -, hgone, -⟩ := hends (.inl (by decide +kernel))
  rw [collectiveReceive_disagrees (by decide +kernel) rfl rfl hd] at ht
  cases ht
  exact hgone ((mem_failColl_iff ..).2 (by decide +kernel))

end Sys2Proof.Laws.CollectiveEnds
end

section
/-!
PROOFS. MLD and MST (R187, R189, R190): settles O20.
-/
namespace Sys2Proof.Laws.Moves

open Sys2Proof.Machine

/-- With its address there and sound, a load-store form goes on with it (R183, R213). -/
theorem withBase_of_clean {p : State} {b : Base} {v : Word} (hin : mustWait p.core .a (baseLocs p b) = false)
    (hclean : anyPoison p.core (baseLocs p b) = false) (ha : baseAddr p b = some v) (k : Word → Act) : withBase p b k = k v := by
  simp [withBase, hin, hclean, ha]

/-- The statement's list of segments is the one the move forms. -/
theorem segmentPlaces_eq (v : Word) (n : Nat) (step : Int) :
    segmentPlaces v n step = (List.range n).map (fun (k : Nat) => (v.toNat : Int) + (k : Int) * step) := by
  have hcast : (List.range n >>= fun a => pure (a : Int)) = (List.range n).map Nat.cast := List.map_eq_flatMap.symm
  rw [segmentPlaces, hcast, List.map_map]
  rfl

/-- What an MLD or an MST does with its first address (R187, R189, R190). -/
def moveBody (h : Hdr) (d : MOp) (t : Ty) (x : SegSrc) (store : Bool) (p : State) (v : Word) : Act :=
  let n := (segList p x).1
  let step := (segList p x).2
  let places := segmentPlaces v n step
  match places.findSome? (fun a => segFault p a (segBytes d t)) with
  | some f => .trap f
  | none =>
    if n == 0 then .done p
    else if orderHeld p.core false || decide (p.core.ck < p.core.portFree) || p.core.landing.any Landing.isSegment && portWaits p.core then .wait nothing
    else if store then
      if mustWait p.core .a (((List.range n).flatMap (segmentCells d)).map Loc.cell) || mstHeld p (places.map (fun a => (a.toNat, segBytes d t))) then .wait nothing
      else .later (movePort h d v.toNat n step (fun a ks => .storeSegment a ks t) p)
    else .later (movePort h d v.toNat n step (fun a ks => .loadSegment a ks t) p)

theorem moveForm_eq (h : Hdr) (d : MOp) (b : Base) (t : Ty) (x : SegSrc) (store : Bool) (s : State) :
    moveForm h d b t x store s = issueOut h (segLen x) (segLocs x) (fun p => withBase p b (moveBody h d t x store p)) s := by
  unfold moveForm moveBody
  simp only [segmentPlaces_eq] <;> rfl

/-- A segment of the move, as the port takes it (R189). -/
def segmentAct (d : MOp) (t : Ty) (store : Bool) (v : Word) (step : Int) (k : Nat) : LandAct :=
  if store then .storeSegment ((v.toNat : Int) + (k : Int) * step).toNat (segmentCells d k) t
  else .loadSegment ((v.toNat : Int) + (k : Int) * step).toNat (segmentCells d k) t

/-- The entry by which segment `k` of `n` stands at the port: one a clk, the last one with the tokens (R190). -/
def segmentEntry (h : Hdr) (c : Core) (n : Nat) (act : Nat → LandAct) (k : Nat) : Landing :=
  { due := some (c.ck + k), eng := .a, seq := c.engA.seq, tag := c.engA.walk, scoreboard := false, act := act k, push := if k + 1 = n then h.push else 0 }

/-- The state in which the segments stand at the port. -/
def portTaken (h : Hdr) (n : Nat) (act : Nat → LandAct) (p : State) : State :=
  modCore p (fun c => { c with landing := c.landing ++ (List.range n).map (segmentEntry h c n act), portFree := c.ck + n })

theorem movePort_eq (h : Hdr) (d : MOp) (a n : Nat) (step : Int) (act : Nat → List Nat → LandAct) (p : State) :
    movePort h d a n step act p = portTaken h n (fun k => act ((a : Int) + (k : Int) * step).toNat (segmentCells d k)) p := by
  have hsegs : ((List.range n).map (fun (k : Nat) => act ((a : Int) + (k : Int) * step).toNat (segmentCells d k))).zipIdx.map
      (fun q => segmentEntry h p.core n (fun _ => q.1) q.2) =
      (List.range n).map (segmentEntry h p.core n (fun k => act ((a : Int) + (k : Int) * step).toNat (segmentCells d k))) := by
    refine List.ext_getElem (by simp) (fun i h₁ h₂ => ?_)
    simp [segmentEntry]
  unfold portTaken
  rw [modCore, ← hsegs]
  simp only [movePort, modCore, segmentEntry, beq_iff_eq]

section
variable {h : Hdr} {d : MOp} {t : Ty} {x : SegSrc} {store : Bool} {p : State} {v : Word}

theorem moveBody_fault {f : FaultRec} (hf : (segmentPlaces v (segList p x).1 (segList p x).2).findSome? (fun a => segFault p a (segBytes d t)) = some f) :
    moveBody h d t x store p v = .trap f := by
  unfold moveBody
  dsimp only
  rw [hf]

variable (hf : (segmentPlaces v (segList p x).1 (segList p x).2).findSome? (fun a => segFault p a (segBytes d t)) = none)
include hf

theorem moveBody_none (hn : (segList p x).1 = 0) : moveBody h d t x store p v = .done p := by
  unfold moveBody
  dsimp only
  rw [hf]
  simp [hn]

theorem moveBody_enters (hn : 0 < (segList p x).1) (horder : orderHeld p.core false = false) (hport : p.core.portFree ≤ p.core.ck)
    (hwaits : portWaits p.core = false)
    (hstore : store = true → mustWait p.core .a (((List.range (segList p x).1).flatMap (segmentCells d)).map Loc.cell) = false ∧
      mstHeld p ((segmentPlaces v (segList p x).1 (segList p x).2).map (fun b => (b.toNat, segBytes d t))) = false) :
    moveBody h d t x store p v = .later (portTaken h (segList p x).1 (segmentAct d t store v (segList p x).2) p) := by
  unfold moveBody
  dsimp only
  rw [hf]
  have hn0 : (segList p x).1 ≠ 0 := by omega
  cases store
  case false =>
    simp [hn0, horder, not_lt.2 hport, hwaits, movePort_eq]
    rfl
  case true =>
    obtain ⟨hcells, hheld⟩ := hstore rfl
    simp [hn0, horder, not_lt.2 hport, hwaits, hcells, hheld, movePort_eq]
    rfl

end

/-- A form of MLD or MST that issues with its first address comes to its body. -/
theorem exec_move {h : Hdr} {d : MOp} {a : Reg} {t : Ty} {x : SegSrc} {v : Word} {s p : State} (hi : Issues s h (segLocs x) p)
    {r : Instr × Base × Bool} (hr : r ∈ ([(.mld h d a t x, .reg a, false), (.mldLn h d a t x, .nest a, false), (.mst h d a t x, .reg a, true),
        (.mstLn h d a t x, .nest a, true)] : List (Instr × Base × Bool)))
    (hin : mustWait p.core .a (baseLocs p r.2.1) = false) (hclean : anyPoison p.core (baseLocs p r.2.1) = false) (ha : baseAddr p r.2.1 = some v) :
    exec r.1 s = .next (finish s h (nextPc s h (segLen x)) (moveBody h d t x r.2.2 p v)) := by
  have hform : exec r.1 s = moveForm h d r.2.1 t x r.2.2 s := by
    simp only [List.mem_cons, List.not_mem_nil, or_false] at hr
    rcases hr with rfl | rfl | rfl | rfl <;> rfl
  rw [hform, moveForm_eq, issueOut_of_issues hi, withBase_of_clean hin hclean ha]

/-- What the statement says of a move whose segments have entered the port. -/
theorem portTaken_finishes (h : Hdr) (p : State) (n pc : Nat) (act : Nat → LandAct) :
    let q := Finishes.finishLater (portTaken h n act p) h pc
    WalkedTo p q h p.core.ck pc ∧ Reserved p q h ∧ SameMemory p q ∧ q.core.portFree = p.core.ck + n ∧ q.core.cells = p.core.cells ∧
      q.core.near = p.core.near ∧ q.core.g = p.core.g ∧ q.core.landing = p.core.landing ++ (List.range n).map (segmentEntry h p.core n act) := by
  intro q
  have hw : Finishes.walkOf (portTaken h n act p) = Finishes.walkOf p := rfl
  have hq : OnlyWalked (portTaken h n act p) q := Finishes.finishLater_onlyWalked _ h pc
  have hcore {β : Type} := Finishes.core_of_onlyWalked (β := β) (h := hq)
  exact ⟨Finishes.walkedTo_of_walkOf hw (Finishes.finishLater_walked _ h pc), Finishes.reserved_of_walkOf hw (Finishes.finishLater_reserved _ h pc),
    fun a => Finishes.sameMemory_of_onlyWalked hq a, hcore Core.portFree (fun _ _ _ _ _ _ _ => rfl), hcore Core.cells (fun _ _ _ _ _ _ _ => rfl),
    hcore Core.near (fun _ _ _ _ _ _ _ => rfl), hcore Core.g (fun _ _ _ _ _ _ _ => rfl), hcore Core.landing (fun _ _ _ _ _ _ _ => rfl)⟩

/-- Settles O20: each form comes to one body, which traps at its first bad segment, ends at a count of 0, or puts its segments at the port. -/
theorem matrixMovesEnterThePort : Obligations.MatrixMovesEnterThePort := by
  intro h d a t x v s p hi he r hr hin hclean ha n places bytes
  have hexec := exec_move hi hr hin hclean ha
  refine ⟨fun f hf => ?_, fun hf hn => ?_, fun hf hn horder hport hwaits hstore => ?_⟩
  · rw [hexec, moveBody_fault hf, finish, he]
  · rw [moveBody_none hf hn] at hexec
    have hq : OnlyWalked p (finishNow p h (nextPc s h (segLen x))) := finishNow_onlyWalked p h _
    exact ⟨_, hexec, Squash.finishNow_walked p h _, Squash.finishNow_pushed p h _, hq, Finishes.sameMemory_of_onlyWalked hq⟩
  · rw [moveBody_enters hf hn horder hport hwaits hstore, Finishes.finish_later] at hexec
    obtain ⟨hwalk, hres, hmem, hfree, hcells, hnear, hg, hland⟩ := portTaken_finishes h p n (nextPc s h (segLen x)) (segmentAct d t r.2.2 v (segList p x).2)
    refine ⟨_, hexec, hwalk, hres, hmem, hfree, hcells, hnear, hg, _, hland, by simp, fun k l hl => ?_⟩
    obtain ⟨i, hik, rfl⟩ := Option.map_eq_some_iff.1 ((List.getElem?_map ..).symm.trans hl)
    obtain rfl : i = k := by simpa using (List.getElem?_eq_some_iff.1 hik).2.symm
    exact ⟨rfl, rfl, rfl⟩

end Sys2Proof.Laws.Moves
end

section
/-!
PROOFS. PROBE (R191, R193, R376): settles O21.
-/
namespace Sys2Proof.Laws.Probes

open Sys2Proof.Machine

/-! ### Pops leave the engines as they are -/

theorem eng_popOne (c : Core) (e : Eng) (k : Nat) (f : Eng) : (popOne c e k).1.eng f = c.eng f := by
  have hunmark (c : Core) (t : Token) : (unmark c t).eng f = c.eng f := by
    unfold unmark
    dsimp only
    split <;> cases f <;> rfl
  have hsync (c : Core) (t : Token) : (syncCore c e.num t).eng f = c.eng f := by
    unfold syncCore
    dsimp only
    split <;> cases f <;> rfl
  unfold popOne
  split
  · rfl
  · dsimp only
    rw [hunmark, hsync]
    cases f <;> rfl

theorem eng_takePops (e : Eng) (l : List Eng) (c : Core) (f : Eng) : (takePops c e l).1.eng f = c.eng f := by
  induction l generalizing c with
  | nil => rfl
  | cons q l ih => exact (ih _).trans (eng_popOne ..)

/-- An engine stands where it stood before its instruction's pops were taken. -/
theorem eng_of_issues {s p : State} {h : Hdr} {srcs : List Loc} (hi : Issues s h srcs p) (f : Eng) : p.core.eng f = s.core.eng f := by
  have hp : (popped s h).1 = p := by rw [hi.pops]
  rw [← hp]
  unfold popped
  split
  · rfl
  · exact eng_takePops ..

/-! ### What a PROBE's body comes to -/

/-- The state in which a hit at tag `g` has been noted (R193). -/
def notedAt (e : TlbEntry) (g : ProbeTag) (p : State) : State :=
  modCore (touchTlb p e) (fun c => { c with probeTags := toFront (fun y => y.entry == g.entry) c.probeTags })

/-- And in which its address has been written. -/
def hitAt (h : Hdr) (d : Reg) (v : Nat) (e : TlbEntry) (g : ProbeTag) (p : State) : State :=
  putG (notedAt e g p) h.eng d.toNat (probeAddr (readSys p .a sysPRCFG) g.entry v)

/-- The state in which entry `n` has been claimed for a miss and its fill queued (R193). -/
def claimedAt (v : Nat) (e : TlbEntry) (pa n : Nat) (p : State) : State :=
  modCore (touchTlb p e) (fun c => { c with
    probeTags := { entry := n, pending := true, block := v / 4096 } :: c.probeTags.filter (fun t => t.entry != n)
    fillQueue := c.fillQueue ++
      [{ entry := n, slot := slotAddr (readSys p .a sysPRCFG) n, page := e, pa := pa / 4096 * 4096, tag := c.engA.walk, order := c.engA.seq }] })

/-- And in which its address has been written. -/
def missedAt (h : Hdr) (d : Reg) (v : Nat) (e : TlbEntry) (pa n : Nat) (p : State) : State :=
  putG (claimedAt v e pa n p) h.eng d.toNat (probeAddr (readSys p .a sysPRCFG) n v)

/-- The access engine enters a miss stretch that leads back to `back` (R376). -/
def enterMiss (back : Nat) (y : Engine) : Engine := { y with stretch := some (.miss back), home := y.exposed, seen := Eng.a.num :: y.seen }

section
variable {h : Hdr} {d : Reg} {o : Src2} {v pa : Nat} {e : TlbEntry} {p : State} (hpage : accessPage p v 1 { r := true } = .ok e pa) (hcls : classOf pa < 2)
include hpage hcls

theorem probeBody_unconfigured (hbad : bits (readSys p .a sysPRCFG) 19 10 = 0 ∨ 512 < bits (readSys p .a sysPRCFG) 9 0 + bits (readSys p .a sysPRCFG) 19 10) :
    probeBody h d o v p = .trap { code := .probeConfig } := by
  have hcls3 : classOf pa ≠ 3 := by omega
  have hcls2 : classOf pa ≠ 2 := by omega
  unfold probeBody
  rw [hpage]
  simp [hcls3, hcls2, hbad]

variable (hcount : 0 < bits (readSys p .a sysPRCFG) 19 10) (hfits : bits (readSys p .a sysPRCFG) 9 0 + bits (readSys p .a sysPRCFG) 19 10 ≤ 512)
  (horder : orderHeld p.core false = false) (hmark : p.core.probeTags.any ProbeTag.mark = false)
include hcount hfits horder hmark

theorem probeBody_hit {g : ProbeTag} (hg : p.core.probeTags.find? (fun y => y.block == v / 4096) = some g) :
    probeBody h d o v p = .done (hitAt h d v e g p) := by
  have hcls3 : classOf pa ≠ 3 := by omega
  have hcls2 : classOf pa ≠ 2 := by omega
  have hcount0 : bits (readSys p .a sysPRCFG) 19 10 ≠ 0 := by omega
  have htags : (touchTlb p e).core.probeTags = p.core.probeTags := rfl
  unfold probeBody
  rw [hpage]
  simp [hcls3, hcls2, hcount0, not_lt.2 hfits, horder, htags, hmark, hg, hitAt, notedAt]

theorem probeBody_miss {n : Nat} (hg : p.core.probeTags.find? (fun y => y.block == v / 4096) = none)
    (hn : probeVictim p.core (bits (readSys p .a sysPRCFG) 19 10) = some n) (hroom : p.core.fillQueue.length < 16) :
    probeBody h d o v p = probeMiss h d o (readSys p .a sysPRCFG) v n e pa (touchTlb p e) := by
  have hcls3 : classOf pa ≠ 3 := by omega
  have hcls2 : classOf pa ≠ 2 := by omega
  have hcount0 : bits (readSys p .a sysPRCFG) 19 10 ≠ 0 := by omega
  have htags : (touchTlb p e).core.probeTags = p.core.probeTags := rfl
  have hvictim : probeVictim (touchTlb p e).core (bits (readSys p .a sysPRCFG) 19 10) = some n := hn
  have hqueue : (touchTlb p e).core.fillQueue.length < 16 := hroom
  unfold probeBody
  rw [hpage]
  simp [hcls3, hcls2, hcount0, not_lt.2 hfits, horder, htags, hmark, hg, hvictim, not_le.2 hqueue]

end

/-- In a stretch the walk goes on (R376). -/
theorem probeMiss_inStretch {h : Hdr} {d : Reg} {o : Src2} {v pa n : Nat} {e : TlbEntry} {p : State} (hs : p.core.engA.stretch ≠ none) :
    probeMiss h d o (readSys p .a sysPRCFG) v n e pa (touchTlb p e) = .done (missedAt h d v e pa n p) := by
  obtain ⟨x, hx⟩ := Option.ne_none_iff_exists'.1 hs
  have hx' : (touchTlb p e).core.engA.stretch = some x := hx
  unfold probeMiss
  dsimp only
  rw [hx']
  rfl

/-- Outside one the engine goes to the miss target, in a stretch that leads back (R376). -/
theorem probeMiss_outside {h : Hdr} {d : Reg} {o : Src2} {v pa n : Nat} {e : TlbEntry} {p : State} (hs : p.core.engA.stretch = none) :
    probeMiss h d o (readSys p .a sysPRCFG) v n e pa (touchTlb p e) =
      .jump (modEng (missedAt h d v e pa n p) .a (enterMiss (p.core.engA.pc + 4 * src2Len o))) (probeTarget p p.core.engA.pc o) := by
  have hs' : (touchTlb p e).core.engA.stretch = none := hs
  unfold probeMiss
  dsimp only
  rw [hs']
  rfl

/-- A PROBE that issues with its address comes to its body. -/
theorem exec_probes {h : Hdr} {d a : Reg} {o : Src2} {v : Word} {s p : State} (hi : Issues s h (src2Locs o) p)
    {r : Instr × Base} (hr : r ∈ ([(.probe h d a o, .reg a), (.probeLn h d a o, .nest a)] : List (Instr × Base)))
    (hin : mustWait p.core .a (baseLocs p r.2) = false) (hclean : anyPoison p.core (baseLocs p r.2) = false) (ha : baseAddr p r.2 = some v) :
    exec r.1 s = .next (finish s h (nextPc s h (src2Len o)) (probeBody h d o v.toNat p)) := by
  have hform : exec r.1 s = issueOut h (src2Len o) (src2Locs o) (fun p => withBase p r.2 (fun v => probeBody h d o v.toNat p)) s := by
    simp only [List.mem_cons, List.not_mem_nil, or_false] at hr
    rcases hr with rfl | rfl <;> rfl
  rw [hform, issueOut_of_issues hi, Moves.withBase_of_clean hin hclean ha]

/-! ### What it leaves -/

/-- What the walk of a PROBE leaves of a state `q` that differs from the one before in neither walk, registers nor memory. -/
theorem writes_finish {p q t : State} {h : Hdr} {d : Nat} {v : Word} (hout : outranked p.core h.eng (p.core.ck + 1) d = false)
    (hturn : q.core.gTurn = p.core.gTurn) (hg : q.core.g = p.core.g) (hl : q.core.landing = p.core.landing) (hw : Finishes.walkOf q = Finishes.walkOf p)
    (hm : q.mem = p.mem) (ht : OnlyWalked (putG q h.eng d v) t) :
    SameMemory p t ∧ RegWritten p t h d v [] ∧ t.core.probeTags = q.core.probeTags ∧ t.core.fillQueue = q.core.fillQueue := by
  have hregs := Finishes.onlyRegs_walks (Finishes.putG_onlyRegs ..) ht
  have hr : outranked q.core h.eng (q.core.ck + 1) d = false := by rw [outranked, hturn, Finishes.ck_of_walkOf hw]; exact hout
  exact ⟨fun b => (Finishes.sameMemory_of_onlyRegs hregs b).trans (memByte_of_mem hm b), Finishes.regWritten_of_putG hr hg hl hw ht,
    Finishes.core_of_onlyRegs Core.probeTags (fun _ _ _ _ _ _ _ _ _ _ _ => rfl) hregs,
    Finishes.core_of_onlyRegs Core.fillQueue (fun _ _ _ _ _ _ _ _ _ _ _ => rfl) hregs⟩

theorem probeHits : ProbeHits := by
  intro h d a o v e pa g s p hi he hout r hr hin hclean ha hpage hcls base count
  have hexec := exec_probes hi hr hin hclean ha
  refine ⟨fun hbad => ?_, fun hcount hfits horder hmark hg => ?_⟩
  · rw [hexec, probeBody_unconfigured hpage hcls hbad, finish, he]
  · rw [probeBody_hit hpage hcls hcount hfits horder hmark hg] at hexec
    have hw : Finishes.walkOf (hitAt h d v.toNat e g p) = Finishes.walkOf p := Finishes.walkOf_putG ..
    obtain ⟨hmem, hreg, htags, hfills⟩ := writes_finish (p := p) (q := notedAt e g p) (by rw [he]; exact hout) rfl rfl rfl rfl rfl
      (finishNow_onlyWalked (hitAt h d v.toNat e g p) h (nextPc s h (src2Len o)))
    obtain ⟨y, hy, hentry⟩ := Slices.toFront_head (p := fun y : ProbeTag => y.entry == g.entry) ⟨g, List.mem_of_find?_eq_some hg, beq_self_eq_true _⟩
    exact ⟨_, hexec, he ▸ (Squash.finishNow_walked ..).here, Finishes.pushed_of_walkOf hw (Squash.finishNow_pushed _ _ _), hmem, hreg, hfills,
      y, (congrArg List.head? htags).trans hy, by simpa using hentry⟩

/-! ### Into the miss stretch -/

/-- An engine in a stretch passes an instruction and stays in it. -/
theorem passed_stretch {x : Engine} (hx : x.stretch ≠ none) (tag next : Nat) : (passed x tag next).stretch = x.stretch := by
  obtain ⟨y, hy⟩ := Option.ne_none_iff_exists'.1 hx
  simp [passed, hy]

theorem finishNow_stretch {q : State} {h : Hdr} (he : h.eng = .a) (hq : q.core.engA.stretch ≠ none) (pc : Nat) :
    (finishNow q h pc).core.engA.stretch = q.core.engA.stretch := by
  have heng : (pushNow q.core .a h.push (ownToken q .a)).eng .a = q.core.engA := Squash.eng_pushNow ..
  rw [finishNow, issued_core, he]
  simp only [modCore_core, heng, Core.setEng, walked]
  exact passed_stretch hq ..

/-- Entering the stretch changes neither the tokens nor the place from which the engine pushes. -/
theorem pushed_of_enterMiss {q t : State} {h : Hdr} {back : Nat} (ht : Pushed (modEng q .a (enterMiss back)) t h) : Pushed q t h := by
  have htok : ownToken (modEng q .a (enterMiss back)) h.eng = ownToken q h.eng := by cases he : h.eng <;> rfl
  have hqueue (k : Nat) : queueAt (modEng q .a (enterMiss back)).core k = queueAt q.core k := rfl
  intro hn k
  rw [ht hn k, htok, hqueue]

theorem probeMisses : ProbeMisses := by
  intro h d a o v e pa n s p hi he hout r hr hin hclean ha hpage hcls base count hcount hfits horder hroom hmark hg hn
  have hexec := exec_probes hi hr hin hclean ha
  rw [probeBody_miss hpage hcls hcount hfits horder hmark hg hn hroom] at hexec
  have hw : Finishes.walkOf (missedAt h d v.toNat e pa n p) = Finishes.walkOf p := Finishes.walkOf_putG ..
  have hengA : (missedAt h d v.toNat e pa n p).core.engA = p.core.engA := Finishes.eng_of_walkOf hw .a
  have hrest {t : State} := writes_finish (t := t) (q := claimedAt v.toNat e pa n p) (d := d.toNat)
    (v := probeAddr (readSys p .a sysPRCFG) n v.toNat) (h := h) (p := p) (by rw [he]; exact hout) rfl rfl rfl rfl rfl
  cases hs : p.core.engA.stretch with
  | some x =>
    have hs' : p.core.engA.stretch ≠ none := by simp [hs]
    rw [probeMiss_inStretch hs'] at hexec
    obtain ⟨hmem, hreg, htags, hfills⟩ := hrest (finishNow_onlyWalked (missedAt h d v.toNat e pa n p) h (nextPc s h (src2Len o)))
    refine ⟨_, hexec, Finishes.pushed_of_walkOf hw (Squash.finishNow_pushed _ _ _), hmem, hreg, htags, hfills, fun h0 => absurd h0 (by simp),
      fun _ => ⟨?_, ?_⟩⟩
    · have hpc := (Squash.finishNow_walked (missedAt h d v.toNat e pa n p) h (nextPc s h (src2Len o))).here
      rw [he] at hpc
      exact hpc
    · exact (finishNow_stretch he (by rw [hengA]; exact hs') _).trans (by rw [hengA, hs])
  | none =>
    rw [probeMiss_outside hs] at hexec
    have hback : p.core.engA.pc + 4 * src2Len o = nextPc s h (src2Len o) := by rw [nextPc, ← eng_of_issues hi, he]; rfl
    rw [hback] at hexec
    obtain ⟨hmem, hreg, htags, hfills⟩ := hrest (OnlyWalked.trans (by rfl)
      (finishNow_onlyWalked (modEng (missedAt h d v.toNat e pa n p) .a (enterMiss (nextPc s h (src2Len o)))) h (probeTarget p p.core.engA.pc o)))
    refine ⟨_, hexec, Finishes.pushed_of_walkOf hw (pushed_of_enterMiss (Squash.finishNow_pushed _ _ _)), hmem, hreg, htags, hfills,
      fun _ => ⟨?_, ?_⟩, fun h0 => absurd rfl h0⟩
    · have hpc := (Squash.finishNow_walked (modEng (missedAt h d v.toNat e pa n p) .a (enterMiss (nextPc s h (src2Len o)))) h
        (probeTarget p p.core.engA.pc o)).here
      rw [he] at hpc
      exact hpc
    · exact finishNow_stretch he (by simp [enterMiss, modEng, Core.setEng]) _

end Sys2Proof.Laws.Probes

namespace Sys2Proof

/-- Settles O21: a hit ends in the state with its tag noted, a miss in the one with its entry claimed, either with its address written. -/
theorem probes : Obligations.Probes := ⟨Laws.Probes.probeHits, Laws.Probes.probeMisses⟩

end Sys2Proof
end

section
/-!
PROOFS. Late results that reach their registers (R185, R222, R226): first part of what settles O34.
-/
namespace Sys2Proof.Laws.Results

open Sys2Proof.Machine

theorem pushReserved_zero (c : Core) (e : Eng) (t : Token) : pushReserved c e 0 t = c := rfl

theorem pushCommand_zero (c : Core) (e : Eng) (id : Nat) (t : Token) : pushCommand c e 0 id t = c := by
  unfold pushCommand
  split
  next f hf =>
    split
    · rw [pushReserved_zero]
      exact congrArg (fun x => { c with trapFrame := x }) hf.symm
    · rfl
  next => rfl

section
variable {s : State} {l : Landing} {r : Nat} {v : Word} {m : Bool}

/-- A late result for a register, with no tokens and no events of its own, comes to the write of that register. -/
theorem landWrites_register (hact : l.act = .write [{ loc := .g r, val := v, mark := m }]) (hpush : l.push = 0) (hcounts : l.counts = []) :
    landWrites s l = writeGAt (modCore s (fun c => supersede c l.eng l.seq [.g r])) l.eng (l.due.getD (s.core.ck + 1)) l.seq r v m := by
  unfold landWrites
  rw [hact, hcounts]
  dsimp only
  rw [hpush]
  simp only [pushCommand_zero, pushReserved_zero, ite_self]
  rfl

theorem writeGAt_written {e : Eng} {w seq : Nat} (h0 : r ≠ 0) (ho : outranked s.core e w r = false) : writeGAt s e w seq r v m = modCore s (fun c => { c with
    g := fileWrite 0 c.g c.nextId e.num seq (otherReaders c e seq) r v m, nextId := c.nextId + 1
    gTurn := (r, w, e.num) :: c.gTurn.filter (fun p => p.1 != r && decide (c.ck ≤ p.2.1)) }) := by
  rw [writeGAt, if_neg h0, ho]
  rfl

/-- What the statement says of such a result: `ls` is what is left in flight. -/
theorem landWrites_lands {p : State} {ls : List Landing} (hact : l.act = .write [{ loc := .g r, val := v, mark := m }]) (hpush : l.push = 0)
    (hcounts : l.counts = []) (h0 : r ≠ 0) (ho : outranked p.core l.eng (l.due.getD (p.core.ck + 1)) r = false)
    (hls : ls.length + 1 = p.core.landing.length) :
    let t := landWrites (modCore p (fun c => { c with landing := ls })) l
    look 0 t.core.g.cur r = v ∧ look false t.core.g.poison r = m ∧ OtherRegsSame p t r ∧ SameMemory p t ∧
      t.core.landing.length + 1 = p.core.landing.length ∧ t.core.cells = p.core.cells ∧ t.core.tokens = p.core.tokens := by
  intro t
  have ht : t = _ := (landWrites_register hact hpush hcounts).trans (writeGAt_written h0 (by exact ho))
  rw [ht]
  refine ⟨by simp [fileWrite, supersede], by simp [fileWrite, supersede], fun k hk => ?_, fun _ => rfl, by simpa [supersede] using hls, rfl, rfl⟩
  simp [fileWrite, supersede, look_place_ne _ _ _ hk]

end

/-! ### Entries whose clk has come -/

/-- Of an entry that is no segment, `dueEntries` lists each copy in flight once its clk has come. -/
theorem count_dueList {c : Core} {l : Landing} (hseg : l.isSegment = false) (htime : l.timeUp c.ck = true) (hkept : l.keptBack c = false) (b : Bool)
    (ls : List Landing) : (dueList c b ls).count l = ls.count l := by
  induction ls generalizing b with
  | nil => rfl
  | cons x ls ih =>
    unfold dueList
    by_cases hx : x = l
    · subst hx
      simp [htime, hkept, hseg, ih]
    · split
      · rw [ih, List.count_cons_of_ne hx]
      · split
        · rw [ih, List.count_cons_of_ne hx]
        · rw [List.count_cons_of_ne hx, ih, List.count_cons_of_ne hx]

theorem of_mem_dueList {c : Core} {l : Landing} {b : Bool} {ls : List Landing} (h : l ∈ dueList c b ls) : l.timeUp c.ck = true ∧ l.keptBack c = false := by
  induction ls generalizing b with
  | nil => exact absurd h List.not_mem_nil
  | cons x ls ih =>
    unfold dueList at h
    split at h
    · exact ih h
    next hx =>
      split at h
      · exact ih h
      · rcases List.mem_cons.1 h with rfl | h
        · simpa using hx
        · exact ih h

/-- Where one entry alone is due, taking it out shortens what is in flight by one. -/
theorem length_filter_due {c : Core} {l : Landing} (hseg : l.isSegment = false) (hdue : dueEntries c = [l]) :
    (c.landing.filter (fun x => !([l].contains x))).length + 1 = c.landing.length := by
  obtain ⟨htime, hkept⟩ := of_mem_dueList (l := l) (b := false) (ls := c.landing) (by rw [← dueEntries, hdue]; exact List.mem_singleton_self l)
  have hcount : c.landing.count l = 1 := by
    rw [← count_dueList hseg htime hkept false c.landing, ← dueEntries, hdue, List.count_singleton_self]
  have hsplit := List.length_eq_length_filter_add (l := c.landing) (fun x => x == l)
  rw [← List.count_eq_length_filter, hcount] at hsplit
  simp only [List.contains_cons, List.contains_nil, Bool.or_false]
  omega

/-! ### The statement -/

theorem resultsAreWritten : ResultsAreWritten := by
  intro s l r v m p hact hpush hcounts h0 Lands
  have hseg : l.isSegment = false := by rw [Landing.isSegment, hact]
  refine ⟨fun hdue hl ho => ?_, fun d hdue hentries ho => ?_⟩
  · have hmem : l ∈ p.core.landing := List.mem_of_mem_filter (List.mem_of_getElem? hl)
    have hlen : (p.core.landing.erase l).length + 1 = p.core.landing.length := by
      rw [List.length_erase_of_mem hmem]
      have := List.length_pos_of_mem hmem
      omega
    refine ⟨_, ?_, landWrites_lands hact hpush hcounts h0 (by rw [hdue]; exact ho) hlen⟩
    have harg : p.arg = s.arg := Rows.focus_arg ..
    change execEvLdReturn s = _
    unfold execEvLdReturn
    dsimp only
    rw [harg, hl]
    rfl
  · refine ⟨_, ?_, landWrites_lands hact hpush hcounts h0 (by rw [hdue]; exact ho) (length_filter_due hseg hentries)⟩
    have horder : allEngs.flatMap (fun e => [l].filter (fun x => x.eng == e)) = [l] := by cases he : l.eng <;> simp [allEngs, he]
    change execEvResultWrite s = _
    unfold execEvResultWrite
    dsimp only
    rw [hentries, horder]
    simp only [List.filter_cons, hseg, Bool.not_false, if_true, Bool.false_eq_true, if_false, List.filter_nil, List.foldl_cons, List.foldl_nil, landDue, hact]
    rfl

end Sys2Proof.Laws.Results
end

section
/-!
PROOFS. The mode crossing, the write of PRCFG, owed faults and sectors of code on their way (R383, R191, R159, R416, R127, R120, R128):
settles O34 with the late results' part.
-/
namespace Sys2Proof.Laws.Crossings

open Sys2Proof.Machine

/-! ### Engines pass what is not theirs (R361) -/

@[simp] theorem onlyWalked_refl (s : State) : OnlyWalked s s := rfl

@[simp] theorem onlyWalked_modEng (s : State) (e : Eng) (f : Engine → Engine) : OnlyWalked s (modEng s e f) := by cases e <;> rfl

theorem crossMode_onlyWalked (s : State) (e : Eng) (mode : Bool) : OnlyWalked s (crossMode s e mode).1 := by
  unfold crossMode
  dsimp only
  repeat' split
  all_goals simp

theorem beginGroup_onlyWalked (s : State) (e : Eng) (tag : Nat) : OnlyWalked s (beginGroup s e tag).1 := by
  unfold beginGroup
  dsimp only
  repeat' split
  all_goals simp

/-- An arrival that changes nothing but the walk. -/
def ArrivalWalked (s : State) : Arrival → Prop
  | .stay t => OnlyWalked s t
  | .run t _ => OnlyWalked s t

/-- An engine that stands at an instruction of another tag passes it or waits; it neither issues nor faults. -/
theorem meetInstr_onlyWalked {s t : State} {e : Eng} {d : Decoded} (hst : OnlyWalked s t) (hpass : passesOver e (t.core.eng e).pc (d.parcels.headD 0) = true) :
    ArrivalWalked s (meetInstr t e d) := by
  have hS : cutTag (t.core.eng e).pc (d.parcels.headD 0) ≠ tagS := by simpa using (Bool.and_eq_true_iff.1 hpass).2
  have hevery : everyEngine (t.core.eng e).pc (d.parcels.headD 0) = false := by
    by_contra h
    exact hS (by rw [cutTag, if_pos (by simpa using h)])
  have hgroup := hst.trans (beginGroup_onlyWalked t e (cutTag (t.core.eng e).pc (d.parcels.headD 0)))
  unfold meetInstr
  dsimp only
  rw [hevery]
  split
  · exact hgroup
  · rw [if_neg Bool.false_ne_true, if_pos (by exact hpass)]
    exact hgroup.trans (onlyWalked_modEng ..)

theorem crossMode_pc (s : State) (e : Eng) (mode : Bool) : ((crossMode s e mode).1.core.eng e).pc = (s.core.eng e).pc := by
  unfold crossMode
  dsimp only
  repeat' split
  all_goals simp

theorem skips_queue {s : State} {e : Eng} (h : skips s e = true) :
    ∃ d rest, queueAtPc (s.core.eng e) = d :: rest ∧ passesOver e (s.core.eng e).pc (d.parcels.headD 0) = true ∧ d.mark = false := by
  unfold skips at h
  dsimp only at h
  split at h
  next d rest hd =>
    obtain ⟨hpass, hmark⟩ := Bool.and_eq_true_iff.1 (Bool.and_eq_true_iff.1 h).2
    exact ⟨d, rest, hd, hpass, by simpa using hmark⟩
  next => simp at h

theorem arriveAt_onlyWalked {s : State} {e : Eng} (h : skips s e = true) : ArrivalWalked s (arriveAt s e) := by
  obtain ⟨d, rest, hd, hpass, hmark⟩ := skips_queue h
  have hcross := crossMode_onlyWalked s e d.exposed
  have hpc : ((modEng (crossMode s e d.exposed).1 e (fun x => { x with decoded := d :: rest })).core.eng e).pc = (s.core.eng e).pc := by
    rw [← crossMode_pc s e d.exposed]
    cases e <;> rfl
  unfold arriveAt
  rw [hd]
  dsimp only
  rw [hmark]
  split
  · exact hcross
  · exact meetInstr_onlyWalked (hcross.trans (onlyWalked_modEng ..)) (by rw [hpc]; exact hpass)

theorem skipOn_onlyWalked (n : Nat) (s : State) (e : Eng) : OnlyWalked s (skipOn n s e) := by
  induction n generalizing s with
  | zero => rfl
  | succ n ih =>
    unfold skipOn
    split
    next h =>
      have ha := arriveAt_onlyWalked h
      split
      next t ht =>
        rw [ht] at ha
        split
        · exact ha
        · exact ha.trans (ih t)
      next t i ht =>
        rw [ht] at ha
        exact ha
    next => rfl

theorem skipAll_onlyWalked (s : State) : OnlyWalked s (skipAll s) :=
  foldl_keeps (P := OnlyWalked s) (fun t e ht => ht.trans (skipOn_onlyWalked 32 t e)) _ rfl

/-! ### Results in flight land before a handler begins (R416) -/

/-- What a trap entry takes from a core beside the fault: where the handler is, and how many faults have been raised. -/
def entryOf (c : Core) : Word × Nat := (sysNow c sysTVEC, c.raised)

theorem entryOf_setSysNow (c : Core) {n : Nat} (v : Word) (hn : n ≠ sysTVEC) : entryOf (setSysNow c n v) = entryOf c := by
  rw [entryOf, Fifos.sysNow_setSysNow, if_neg hn.symm]
  rfl

/-- An event counter is no trap register. -/
theorem entryOf_countOne (c : Core) {n : Nat} (hn : n < 32) : entryOf (countOne c n) = entryOf c := by
  have hfec (v : Word) : entryOf (setSysNow c (sysFEC + n) v) = entryOf c := entryOf_setSysNow c v (by simp only [sysFEC, sysTVEC]; omega)
  have hite {b : Prop} [Decidable b] {x y : Core} (hx : entryOf x = entryOf c) (hy : entryOf y = entryOf c) : entryOf (if b then x else y) = entryOf c := by
    split <;> assumption
  have hpth (x : Core) (v : Word) (l : List Nat) : entryOf { setSysNow x sysFPTH v with fecCrossed := l } = entryOf x :=
    entryOf_setSysNow x (n := sysFPTH) v (by decide)
  exact hite ((hpth _ _ _).trans (hfec _)) (hfec _)

theorem entryOf_counts (ns : List Nat) (c : Core) (hn : ∀ n ∈ ns, n < 32) : entryOf (ns.foldl countOne c) = entryOf c := by
  induction ns generalizing c with
  | nil => rfl
  | cons n ns ih =>
    rw [List.foldl_cons, ih _ (fun m hm => hn m (List.mem_cons_of_mem n hm)), entryOf_countOne c (hn n List.mem_cons_self)]

theorem entryOf_landValue (s : State) (l : Landing) (w : Late) : entryOf (landValue s l w).core = entryOf s.core := by
  unfold landValue writeGAt
  repeat' split
  all_goals rfl

theorem entryOf_pushReserved (c : Core) (e : Eng) (m : BitVec 4) (t : Token) : entryOf (pushReserved c e m t) = entryOf c := by
  rw [Rows.pushReserved_eq]
  rfl

theorem entryOf_pushCommand (c : Core) (e : Eng) (m : BitVec 4) (id : Nat) (t : Token) : entryOf (pushCommand c e m id t) = entryOf c := by
  unfold pushCommand
  repeat' split
  · rfl
  · exact entryOf_pushReserved ..
  · exact entryOf_pushReserved ..

theorem entryOf_landWrites (s : State) {l : Landing} (hl : ∀ n ∈ l.counts, n < 32) : entryOf (landWrites s l).core = entryOf s.core := by
  have hpush (c : Core) (t : Token) : entryOf (if l.old then pushCommand c l.eng l.push 0 t else pushReserved c l.eng l.push t) = entryOf c := by
    split
    · exact entryOf_pushCommand ..
    · exact entryOf_pushReserved ..
  unfold landWrites
  dsimp only
  rw [modCore_core, hpush, countEvents, modCore_core, entryOf_counts _ _ hl]
  split
  · exact (foldl_same (g := fun s : State => entryOf s.core) (fun s w => entryOf_landValue s l w) _ _).trans rfl
  · rfl
  · rfl

theorem entryOf_landAll (ls : List Landing) (s : State) (hls : ∀ l ∈ ls, ∀ n ∈ l.counts, n < 32) : entryOf (ls.foldl landWrites s).core = entryOf s.core := by
  induction ls generalizing s with
  | nil => rfl
  | cons l ls ih =>
    rw [List.foldl_cons, ih _ (fun m hm => hls m (List.mem_cons_of_mem l hm)), entryOf_landWrites s (hls l List.mem_cons_self)]

theorem entryOf_landScoreboarded (s : State) (hs : ∀ l ∈ s.core.landing, ∀ n ∈ l.counts, n < 32) : entryOf (landScoreboarded s).core = entryOf s.core :=
  (entryOf_landAll _ _ (fun l hl => hs l (List.mem_of_mem_filter hl))).trans rfl

/-! ### The handler begins -/

theorem entryOf_saveTrap (c : Core) (e : Eng) (f : FaultRec) (pc : Nat) : entryOf (saveTrap c e f pc) = entryOf c := by
  have hset (e' : Engine) : entryOf (c.setEng e e') = entryOf c := by cases e <;> rfl
  unfold saveTrap
  simp only [List.foldl_cons, List.foldl_nil]
  iterate 7 rw [entryOf_setSysNow _ _ (by decide)]
  exact hset _

theorem handlerCore_begins (c : Core) : (Fifos.handlerCore c).raised = c.raised ∧ ∀ g, ((Fifos.handlerCore c).eng g).pc = (sysNow c sysTVEC).toNat :=
  ⟨rfl, fun g => by cases g <;> rfl⟩

/-- Of a fault whose results in flight count proper events, the handler is the one of TVEC, for every engine, and one more fault has
been raised. -/
theorem takeTrap_begins {s : State} {e : Eng} {f : FaultRec} {pc : Nat} (hp : privileged s.core = false) (hv : sysNow s.core sysTVEC ≠ 0)
    (hs : ∀ l ∈ s.core.landing, ∀ n ∈ l.counts, n < 32) :
    (takeTrap s e f pc).core.raised = s.core.raised + 1 ∧ ∀ g, ((takeTrap s e f pc).core.eng g).pc = (sysNow s.core sysTVEC).toNat := by
  rw [Fifos.takeTrap_user hp hv, Fifos.enterHandler_core]
  generalize hq : withdrawLeave (modCore s (fun c => { c with raised := c.raised + 1, walkFail := [] })) = q
  have hentry : entryOf (saveTrap (landScoreboarded q).core e f pc) = (sysNow s.core sysTVEC, s.core.raised + 1) := by
    rw [entryOf_saveTrap, entryOf_landScoreboarded _ (by rw [← hq]; exact hs), ← hq]
    rfl
  obtain ⟨hvec, hraised⟩ := Prod.mk.inj hentry
  obtain ⟨hsame, hpc⟩ := handlerCore_begins (saveTrap (landScoreboarded q).core e f pc)
  exact ⟨hsame.trans hraised, fun g => by rw [hpc, hvec]⟩

/-- TCAUSE's low 16 bits are the number of the fault (R411). -/
theorem causeWord_code (f : FaultRec) (e : Eng) : bits (causeWord f e 0) 15 0 = f.code.num := by
  have hcode : f.code.num ≤ 25 := by cases f.code <;> decide
  obtain ⟨k, hk⟩ : ∃ k, causeWord f e 0 = BitVec.ofNat 64 (f.code.num + 2 ^ 16 * k) := by
    refine ⟨f.cause % 65536 + 2 ^ 18 * e.num + (if f.stream.isSome then 2 ^ 21 else 0) + (if f.popped then 2 ^ 22 else 0) +
      (if f.element then 2 ^ 23 else 0), congrArg (BitVec.ofNat 64) ?_⟩
    split_ifs <;> ring
  rw [hk, bits, BitVec.toNat_ofNat]
  omega

theorem owedFaultsAreRaised {s : State} {f : FaultRec} (fs : List FaultRec) (hp : privileged s.core = false)
    (hv : sysNow s.core sysTVEC ≠ 0) (hl : ∀ l ∈ s.core.landing, ∀ n ∈ l.counts, n < 32) (e : Eng) (b : Bool) (pc : Nat) :
    let t := takeTrap (modEng (skipAll s) e (fun x => { x with owed := fs })) e { f with popped := b } pc
    privileged t.core = true ∧ t.core.raised = s.core.raised + 1 ∧ (∀ g, (t.core.eng g).pc = (sysNow s.core sysTVEC).toNat) ∧
      sysNow t.core sysTVAL = f.tval ∧ bits (sysNow t.core sysTCAUSE) 15 0 = f.code.num := by
  intro t
  have hw : OnlyWalked s (modEng (skipAll s) e (fun x => { x with owed := fs })) := (skipAll_onlyWalked s).trans (onlyWalked_modEng ..)
  have hcore {β : Type} := Finishes.core_of_onlyWalked (β := β) (h := hw)
  have hsys (n : Nat) := hcore (fun c => sysNow c n) (fun _ _ _ _ _ _ _ => rfl)
  have hlevel : privileged (modEng (skipAll s) e (fun x => { x with owed := fs })).core = false := by rw [privileged, hsys]; exact hp
  have hvec : sysNow (modEng (skipAll s) e (fun x => { x with owed := fs })).core sysTVEC ≠ 0 := by rw [hsys]; exact hv
  obtain ⟨hraised, hpc⟩ := takeTrap_begins (e := e) (f := { f with popped := b }) (pc := pc) hlevel hvec
    (by rw [hcore Core.landing (fun _ _ _ _ _ _ _ => rfl)]; exact hl)
  rw [hcore Core.raised (fun _ _ _ _ _ _ _ => rfl)] at hraised
  rw [hsys] at hpc
  have htrap : t = enterHandler _ _ _ _ := Fifos.takeTrap_user hlevel hvec
  obtain ⟨hpriv, htval, hcause, -⟩ := Fifos.enterHandler_registers (withdrawLeave (modCore (modEng (skipAll s) e (fun x => { x with owed := fs }))
    (fun c => { c with raised := c.raised + 1, walkFail := [] }))) e { f with popped := b } pc
  rw [← htrap] at hpriv htval hcause
  exact ⟨hpriv, hraised, hpc, htval, by rw [hcause]; exact causeWord_code ..⟩

/-! ### Sectors of code (R127, R128) -/

theorem checkBits_none {s : State} (hf : s.found = none) (pa : Nat) : checkBits s pa = none := by
  unfold checkBits
  rw [hf]
  exact ite_self _

/-- What the read of a line through its slice leaves as it was, where DRAM finds no error. -/
def ReadKept (s t : State) : Prop := t.core = s.core ∧ t.cur = s.cur ∧ t.now = s.now ∧ t.mem = s.mem ∧ t.found = s.found

theorem readThrough_kept {s : State} (hf : s.found = none) (who pa : Nat) : ReadKept s (readThrough s who pa) := by
  unfold readThrough
  rw [checkBits_none hf]
  split
  · exact ⟨rfl, rfl, rfl, rfl, rfl⟩
  · exact ⟨rfl, rfl, rfl, rfl, rfl⟩

theorem readLines_kept (s : State) (hf : s.found = none) (who : Nat) (ls : List Nat) : ReadKept s (ls.foldl (fun s a => readThrough s who a) s) := by
  refine foldl_keeps (P := ReadKept s) (fun t a ht => ?_) ls ⟨rfl, rfl, rfl, rfl, rfl⟩
  obtain ⟨hcore, hcur, hnow, hmem, hfound⟩ := ht
  obtain ⟨hcore', hcur', hnow', hmem', hfound'⟩ := readThrough_kept (hfound.trans hf) who a
  exact ⟨hcore'.trans hcore, hcur'.trans hcur, hnow'.trans hnow, hmem'.trans hmem, hfound'.trans hfound⟩

theorem cachedSector_putSector (d : Die) (pa : Nat) (x : CodeSector) : cachedSector (putSector d pa x) pa = some x := by
  unfold putSector
  dsimp only
  split
  next p hp =>
    have hpage : p.page = codePageOf pa := by simpa using List.find?_some hp
    simp [cachedSector, hpage]
  next => simp [cachedSector, findKey]

/-- A page that becomes the most recent keeps its sectors. -/
theorem cachedSector_touchCode (d : Die) (pa : Nat) : cachedSector (touchCode d (codePageOf pa)) pa = cachedSector d pa := by
  have hfind {α : Type} (p : α → Bool) (l : List α) : (toFront p l).find? p = l.find? p := by
    unfold toFront
    split
    next hnone => rfl
    next x hx => rw [List.find?_cons_of_pos (List.find?_some hx), hx]
  rw [cachedSector, touchCode, hfind, cachedSector]

/-- A sector asked for is valid then: as it was where it was valid, with the bytes of the present where it was not. -/
theorem fillSector_valid {p : State} (hf : p.found = none) (pa : Nat) :
    sectorMoment (dieAt (fillSector p pa p.cur) (dieOfCore p.cur)) pa = some ((sectorMoment (dieAt p (dieOfCore p.cur)) pa).getD p.now) ∧
      (fillSector p pa p.cur).core.g = p.core.g ∧ (fillSector p pa p.cur).mem = p.mem := by
  unfold fillSector
  dsimp only
  split
  next x hx =>
    refine ⟨?_, rfl, rfl⟩
    rw [sectorMoment, sectorMoment, dieAt_setDie, if_pos rfl, cachedSector_touchCode, hx]
    rfl
  next hx =>
    obtain ⟨hcore, -, hnow, hmem, -⟩ := readLines_kept p hf (8 * p.cur + 5) (sectorLines pa)
    generalize (sectorLines pa).foldl (fun s a => readThrough s (8 * p.cur + 5) a) p = s1 at hcore hnow hmem ⊢
    have hlost {β : Type} (g : State → β) (hg : ∀ s x, g (countLost s x) = g s) (ls : List CodeSector) (s : State) : g (ls.foldl countLost s) = g s :=
      foldl_same hg ls s
    refine ⟨?_, ?_, ?_⟩
    · rw [dieAt, hlost State.dies Invalidations.countLost_dies, ← dieAt, dieAt_modDie_self, sectorMoment, cachedSector_putSector, sectorMoment, hx]
      exact congrArg some hnow
    · rw [hlost (fun s => s.core.g) (Accesses.countLost_apart (v := Core.g) (fun _ _ _ _ _ _ _ _ _ => rfl)), modDie_core, hcore]
    · rw [hlost State.mem (fun s x => by simp)]
      exact hmem

/-! ### The statement -/

theorem prcfgIsWritten (p : State) (v : Word) :
    let t := modCore (clearTags (syswWrite p sysPRCFG v)) (fun c => { c with prcfgWait := some (v, true) })
    sysNow t.core sysPRCFG = v &&& sysKept sysPRCFG ∧ t.core.probeTags = [] ∧ t.core.g = p.core.g ∧ SameMemory p t := by
  refine ⟨?_, rfl, rfl, fun _ => rfl⟩
  exact (look_place ..).trans (if_pos rfl)

theorem crossingsFetchesAndOwedFaults : CrossingsFetchesAndOwedFaults := by
  intro s p
  refine ⟨fun hcross hland hout => ?_, fun v hv => ⟨fun hpend => ?_, fun hpend => ?_⟩, fun f fs howed hstands hp hvec hl => ?_,
    fun k hk => ⟨fun hwait => ?_, fun hwait hfound => ?_⟩⟩
  · refine ⟨_, (if_pos ?_).trans rfl, fun _ => rfl, rfl, fun e => by cases e <;> exact ⟨rfl, rfl, rfl⟩⟩
    simpa [hland, List.all_eq_true] using ⟨⟨fun e _ => hcross e, hland⟩, fun k q hq => hout (k, q) hq⟩
  · change execEvPrcfgWrite s = _
    unfold execEvPrcfgWrite
    dsimp only
    rw [hv]
    exact if_pos hpend
  · refine ⟨_, ?_, prcfgIsWritten p v⟩
    change execEvPrcfgWrite s = _
    unfold execEvPrcfgWrite
    dsimp only
    rw [hv]
    exact if_neg (by rw [hpend]; exact Bool.false_ne_true)
  · refine ⟨_, ?_, owedFaultsAreRaised fs hp hvec hl .c (skipAll p).core.engC.noPop (skipAll p).core.engC.pc⟩
    change execEvTrapEntry s = _
    unfold execEvTrapEntry
    dsimp only
    rw [hstands]
    dsimp only [Core.eng]
    rw [howed]
  · have harg : p.arg = s.arg := Rows.focus_arg ..
    change execEvCodeFetchArrival s = _
    unfold execEvCodeFetchArrival
    dsimp only
    rw [harg, hk]
    exact if_pos hwait
  · have harg : p.arg = s.arg := Rows.focus_arg ..
    obtain ⟨hmoment, hg, hmem⟩ := fillSector_valid hfound (256 * k)
    refine ⟨?t, ?runs, ?kept⟩
    case runs =>
      change execEvCodeFetchArrival s = _
      unfold execEvCodeFetchArrival
      dsimp only
      rw [harg, hk]
      dsimp only
      rw [show sectorWaits (focus s s.arg.core.toNat) (256 * k) = false from hwait, if_neg Bool.false_ne_true]
    case kept => exact ⟨hmoment, hg, memByte_of_mem hmem⟩

end Sys2Proof.Laws.Crossings

namespace Sys2Proof

/-- Settles O34: each event's state is written out, and a fault that is owed finds its handler after the engines have passed what is not
theirs, which changes the walk alone. -/
theorem resultsCrossingsAndFetches : Obligations.ResultsCrossingsAndFetches :=
  ⟨Laws.Results.resultsAreWritten, Laws.Crossings.crossingsFetchesAndOwedFaults⟩

end Sys2Proof
end

section
/-!
PROOFS. What reads of memory and write-backs leave of settled memory, of the L1s and of the package: the layer under O18 and O19 (R180, R330,
R331, R338, R342).
-/
namespace Sys2Proof.Laws.WriteBacks

open Sys2Proof.Machine

/-! ### Operations that do not reach a core -/

/-- Between `p` and `q` only settled memory has changed, with what is kept beside it: marks, keys, what was there before, the tags of the
stacks and the dies. -/
def OnlyMemory (p q : State) : Prop :=
  q = { p with dies := q.dies, mem := q.mem, memPoison := q.memPoison, pastMarks := q.pastMarks, keys := q.keys, now := q.now, past := q.past
               dramStacks := q.dramStacks }

namespace OnlyMemory

theorem refl (p : State) : OnlyMemory p p := rfl

theorem trans {p q t : State} (h : OnlyMemory p q) (h' : OnlyMemory q t) : OnlyMemory p t := by
  unfold OnlyMemory at *
  conv_lhs => rw [h']
  rw [h]

theorem foldl {α : Type} {f : State → α → State} (h : ∀ s x, OnlyMemory s (f s x)) (l : List α) (s : State) : OnlyMemory s (l.foldl f s) :=
  foldl_keeps (P := OnlyMemory s) (fun t x ht => ht.trans (h t x)) l rfl

/-- What reads none of that is the same. -/
theorem keeps {β : Type} {p q : State} (h : OnlyMemory p q) (g : State → β)
    (hg : ∀ (s : State) (dies : Sparse Die) (mem : Sparse Byte) (poison : Sparse Bool) (marks : List (Nat × Nat × Bool)) (keys : Sparse Key) (now : Nat)
      (past : List Past) (tags : Sparse Stack),
      g { s with dies := dies, mem := mem, memPoison := poison, pastMarks := marks, keys := keys, now := now, past := past, dramStacks := tags } = g s) :
    g q = g p := (congrArg g h).trans (hg ..)

theorem core {p q : State} (h : OnlyMemory p q) : q.core = p.core := h.keeps State.core (fun _ _ _ _ _ _ _ _ _ => rfl)
theorem coreAt {p q : State} (h : OnlyMemory p q) (c : Nat) : coreAt q c = coreAt p c := h.keeps (fun s => Machine.coreAt s c) (fun _ _ _ _ _ _ _ _ _ => rfl)
theorem clk {p q : State} (h : OnlyMemory p q) : q.clk = p.clk := h.keeps State.clk (fun _ _ _ _ _ _ _ _ _ => rfl)
theorem found {p q : State} (h : OnlyMemory p q) : q.found = p.found := h.keeps State.found (fun _ _ _ _ _ _ _ _ _ => rfl)

end OnlyMemory

theorem promoWrite_onlyMemory (s : State) (pa m : Nat) : OnlyMemory s (promoWrite s pa m) := by
  unfold promoWrite
  split <;> rfl

theorem wroteLine_onlyMemory (s : State) (pa : Nat) : OnlyMemory s (wroteLine s pa) := by
  unfold wroteLine
  split
  · rfl
  · split
    · rfl
    · exact promoWrite_onlyMemory ..

theorem wroteLines_onlyMemory (s : State) (as : List Nat) : OnlyMemory s (wroteLines s as) :=
  OnlyMemory.foldl (fun s l => wroteLine_onlyMemory s (128 * l)) _ s

theorem setMarks_onlyMemory (s : State) (gs : List Nat) (b : Bool) : OnlyMemory s (setMarks s gs b) :=
  OnlyMemory.foldl (f := fun s g => setMark s g b) (fun _ _ => rfl) gs s

theorem overwrite_onlyMemory (s : State) (ws : List (Nat × Byte)) : OnlyMemory s (overwrite s ws) := by
  have hmoment : OnlyMemory s (newMoment s) := rfl
  exact (hmoment.trans ((setMarks_onlyMemory _ _ false).trans (wroteLines_onlyMemory ..))).trans
    (OnlyMemory.foldl (f := fun s (w : Nat × Byte) => pokeByte s w.1 w.2 (keysAt s w.1)) (fun _ _ => rfl) ws _)

theorem writeBack_onlyMemory (s : State) (l : L1Line) : OnlyMemory s (writeBack s l) := by
  unfold writeBack
  split
  · rfl
  · split
    · exact (overwrite_onlyMemory ..).trans (setMarks_onlyMemory ..)
    · split <;> rfl

theorem writeBacks_onlyMemory (s : State) (ls : List L1Line) : OnlyMemory s (ls.foldl writeBack s) := OnlyMemory.foldl writeBack_onlyMemory ls s

theorem sendFlits_onlyMemory (s : State) (dst n : Nat) : OnlyMemory s (sendFlits s dst n) := by
  unfold sendFlits countFlits
  split <;> rfl

/-- A request of a home slice that finds no error, or that is a write, changes the slice alone. -/
theorem askSlice_modSlice {s : State} {write : Bool} (h : s.found = none ∨ write = true) (who pa policy : Nat) :
    askSlice s who pa policy write = s ∨ ∃ f, askSlice s who pa policy write = modSlice s pa f := by
  have herr : (if write then none else checkBits s pa) = none := by
    rcases h with h | h
    · rw [Crossings.checkBits_none h, ite_self]
    · rw [if_pos h]
  unfold askSlice
  split
  · exact .inl rfl
  · rw [herr]
    exact .inr ⟨_, rfl⟩

theorem askSlice_onlyMemory {s : State} {write : Bool} (h : s.found = none ∨ write = true) (who pa policy : Nat) :
    OnlyMemory s (askSlice s who pa policy write) := by
  rcases askSlice_modSlice h who pa policy with e | ⟨f, e⟩
  · rw [e]; rfl
  · rw [e]; rfl

/-! ### Moments go on -/

theorem wroteLine_now (s : State) (pa : Nat) : (wroteLine s pa).now = s.now := by
  unfold wroteLine promoWrite
  repeat' split
  all_goals rfl

theorem setMarks_now (s : State) (gs : List Nat) (b : Bool) : (setMarks s gs b).now = s.now :=
  foldl_same (g := State.now) (f := fun s g => setMark s g b) (fun _ _ => rfl) gs s

theorem overwrite_now (s : State) (ws : List (Nat × Byte)) : (overwrite s ws).now = s.now + 1 := by
  have hpoke (s : State) : (ws.foldl (fun s (w : Nat × Byte) => pokeByte s w.1 w.2 (keysAt s w.1)) s).now = s.now :=
    foldl_same (g := State.now) (f := fun s (w : Nat × Byte) => pokeByte s w.1 w.2 (keysAt s w.1)) (fun _ _ => rfl) ws s
  have hlines (as : List Nat) (s : State) : (wroteLines s as).now = s.now := foldl_same (g := State.now) (fun s l => wroteLine_now s (128 * l)) _ s
  rw [overwrite, hpoke, hlines, clearPoison, setMarks_now]
  rfl

theorem writeBack_now (s : State) (l : L1Line) : s.now ≤ (writeBack s l).now := by
  unfold writeBack
  split
  · exact le_rfl
  · split
    · rw [setMarks_now, overwrite_now]
      exact Nat.le_succ _
    · split <;> exact le_rfl

/-! ### Write-backs of bytes of a given set -/

/-- From `p` to `q` the clk has stayed and moments have gone on, and a byte of memory that has changed has taken a value that `D` lists. -/
structure Backs (D : Nat × Byte → Prop) (p q : State) : Prop where
  clk : q.clk = p.clk
  found : q.found = p.found
  later : p.now ≤ q.now
  written : ∀ a, memByte q a = memByte p a ∨ D (a, memByte q a)

/-- Every dirty byte of every L1 is one that `D` lists. -/
def Within (D : Nat × Byte → Prop) (s : State) : Prop := ∀ c, ∀ l ∈ (coreAt s c).l1, ∀ x ∈ l.dirty, D x

/-- The dirty bytes of the L1s of `p`. -/
def DirtyIn (p : State) (x : Nat × Byte) : Prop := ∃ c l, l ∈ (coreAt p c).l1 ∧ x ∈ l.dirty

theorem within_dirtyIn (p : State) : Within (DirtyIn p) p := fun c l hl _ hx => ⟨c, l, hl, hx⟩

theorem writtenBack_of_backs {p q : State} (h : Backs (DirtyIn p) p q) (a : Nat) : WrittenBack p q a := fun hne => by
  obtain ⟨c, l, hl, hx⟩ := (h.written a).resolve_left hne
  exact ⟨c, l, hl, hx⟩

section
variable {D : Nat × Byte → Prop}

theorem Backs.refl (p : State) : Backs D p p := ⟨rfl, rfl, le_rfl, fun _ => .inl rfl⟩

theorem Backs.trans {p q t : State} (h : Backs D p q) (h' : Backs D q t) : Backs D p t where
  clk := h'.clk.trans h.clk
  found := h'.found.trans h.found
  later := h.later.trans h'.later
  written a := by
    rcases h'.written a with e | hd
    · rw [e]
      exact h.written a
    · exact .inr hd

/-- What leaves memory and its moment as they were. -/
theorem backs_of_mem {p q : State} (hclk : q.clk = p.clk) (hfound : q.found = p.found) (hnow : q.now = p.now) (hmem : q.mem = p.mem) : Backs D p q :=
  ⟨hclk, hfound, hnow.ge, fun a => .inl (memByte_of_mem hmem a)⟩

theorem backs_of_onlyWalked {p q : State} (h : OnlyWalked p q) : Backs D p q :=
  have hkeeps {β : Type} (g : State → β) := Finishes.keeps_of_onlyWalked g (h := h)
  backs_of_mem (hkeeps State.clk (fun _ _ _ _ _ _ _ => rfl)) (hkeeps State.found (fun _ _ _ _ _ _ _ => rfl)) (hkeeps State.now (fun _ _ _ _ _ _ _ => rfl))
    (hkeeps State.mem (fun _ _ _ _ _ _ _ => rfl))

theorem within_of_onlyMemory {p q : State} (h : OnlyMemory p q) (hp : Within D p) : Within D q := fun c l hl => hp c l (by rwa [← h.coreAt c])

/-- A byte that an overwriting has changed is one it wrote. -/
theorem memByte_overwrite (s : State) (ws : List (Nat × Byte)) (a : Nat) :
    memByte (overwrite s ws) a = memByte s a ∨ (a, memByte (overwrite s ws) a) ∈ ws := by
  have hpokes : ∀ (ws : List (Nat × Byte)) (s : State), let t := ws.foldl (fun s w => pokeByte s w.1 w.2 (keysAt s w.1)) s
      memByte t a = memByte s a ∨ (a, memByte t a) ∈ ws := by
    intro ws
    induction ws with
    | nil => exact fun s => .inl rfl
    | cons w ws ih =>
      intro s
      rcases ih (pokeByte s w.1 w.2 (keysAt s w.1)) with e | hmem
      · rw [memByte_pokeByte] at e
        by_cases ha : a = w.1
        · rw [if_pos ha] at e
          exact .inr (List.mem_cons.2 (.inl (Prod.ext ha e)))
        · rw [if_neg ha] at e
          exact .inl e
      · exact .inr (List.mem_cons_of_mem _ hmem)
  rcases hpokes ws (wroteLines (clearPoison (newMoment s) (ws.map Prod.fst)) (ws.map Prod.fst)) with e | h
  · exact .inl (e.trans (memByte_of_mem (by simp) a))
  · exact .inr h

theorem backs_writeBack {s : State} {l : L1Line} (hl : ∀ x ∈ l.dirty, D x) : Backs D s (writeBack s l) where
  clk := (writeBack_onlyMemory s l).clk
  found := (writeBack_onlyMemory s l).found
  later := writeBack_now s l
  written a := by
    unfold writeBack
    split
    · exact .inl rfl
    · split
      · rw [memByte_of_mem (s := overwrite s l.dirty) (by simp)]
        exact (memByte_overwrite s l.dirty a).imp_right (hl _)
      · split
        · exact .inl rfl
        · exact .inl rfl

theorem backs_writeBacks {ls : List L1Line} (hls : ∀ l ∈ ls, ∀ x ∈ l.dirty, D x) (s : State) : Backs D s (ls.foldl writeBack s) := by
  induction ls generalizing s with
  | nil => exact .refl s
  | cons l ls ih => exact (backs_writeBack (hls l List.mem_cons_self)).trans (ih (fun m hm => hls m (List.mem_cons_of_mem l hm)) _)

theorem backs_modCoreAt (s : State) (c : Nat) (f : Core → Core) : Backs D s (modCoreAt s c f) := by
  unfold modCoreAt
  split <;> exact backs_of_mem rfl rfl rfl rfl

/-- An L1 whose lines are lines it had, or lines within `D`. -/
theorem within_modL1 {s : State} (hs : Within D s) (h : Nat) (ls : List L1Line) (hls : ∀ l ∈ ls, ∀ x ∈ l.dirty, D x) :
    Within D (modCoreAt s h (fun c => { c with l1 := ls })) := by
  intro c l hl
  rw [coreAt_modCoreAt] at hl
  split at hl
  · exact hls l hl
  · exact hs c l hl

/-- A change of the current core that leaves its L1. -/
theorem within_modCore {s : State} (hs : Within D s) {f : Core → Core} (hf : (f s.core).l1 = s.core.l1) : Within D (modCore s f) := by
  intro c l hl
  have hat : modCore s f = modCoreAt s s.cur f := (if_pos rfl).symm
  rw [hat, coreAt_modCoreAt, show coreAt s s.cur = s.core from if_pos rfl] at hl
  split at hl
  next hc => exact hs c l (by rwa [hc, show coreAt s s.cur = s.core from if_pos rfl, ← hf])
  next => exact hs c l hl

/-! ### Lines come into the L1 and leave it -/

/-- Putting a line into its L1 keeps some of the lines that stand there and writes some back. -/
theorem l1Put_eq (s : State) (x : L1Line) : ∃ kept out : List L1Line, (∀ l ∈ kept, l ∈ (coreAt s (l1Holder s x.line)).l1) ∧
    (∀ l ∈ out, l ∈ (coreAt s (l1Holder s x.line)).l1) ∧
    l1Put s x = out.foldl writeBack (modCoreAt s (l1Holder s x.line) (fun c => { c with l1 := x :: kept })) := by
  unfold l1Put
  dsimp only
  split
  next v hv =>
    refine ⟨_, _ ++ [v], fun l hl => List.mem_of_mem_filter (List.mem_of_mem_filter hl), fun l hl => ?_, by rw [List.foldl_append]; rfl⟩
    rcases List.mem_append.1 hl with hl | hl
    · exact List.mem_of_mem_filter hl
    · rw [List.mem_singleton] at hl
      subst hl
      split at hv
      · exact List.mem_of_mem_filter (List.mem_of_mem_filter (List.mem_of_getLast? hv))
      · exact absurd hv (by simp)
  next hv => exact ⟨_, _, fun l hl => List.mem_of_mem_filter hl, fun l hl => List.mem_of_mem_filter hl, rfl⟩

/-- An access that drops the copies of other classes leaves the state, or keeps some of the lines that stand there and writes the others back. -/
theorem l1Drop_eq (s : State) (line : Nat) (cls : Coh) : l1Drop s line cls = s ∨ ∃ kept out : List L1Line,
    (∀ l ∈ kept, l ∈ (coreAt s (l1Holder s line)).l1) ∧ (∀ l ∈ out, l ∈ (coreAt s (l1Holder s line)).l1) ∧
    l1Drop s line cls = out.foldl writeBack (modCoreAt s (l1Holder s line) (fun c => { c with l1 := kept })) := by
  unfold l1Drop
  dsimp only
  split
  · exact .inl rfl
  · refine .inr ⟨(coreAt s (l1Holder s line)).l1.filter (fun l => !(l.line == line && l.cls != cls)),
      (coreAt s (l1Holder s line)).l1.filter (fun l => l.line == line && l.cls != cls),
        fun l hl => List.mem_of_mem_filter hl, fun l hl => List.mem_of_mem_filter hl, ?_⟩
    congr 1
    unfold modCoreAt coreAt
    split <;> rfl

theorem backs_l1Put {s : State} (hs : Within D s) (x : L1Line) : Backs D s (l1Put s x) := by
  obtain ⟨kept, out, -, hout, h⟩ := l1Put_eq s x
  rw [h]
  exact (backs_modCoreAt ..).trans (backs_writeBacks (fun l hl => hs _ l (hout l hl)) _)

theorem within_l1Put {s : State} (hs : Within D s) {x : L1Line} (hx : ∀ y ∈ x.dirty, D y) : Within D (l1Put s x) := by
  obtain ⟨kept, out, hkept, -, h⟩ := l1Put_eq s x
  rw [h]
  refine within_of_onlyMemory (writeBacks_onlyMemory _ out) (within_modL1 hs _ _ (fun l hl => ?_))
  rcases List.mem_cons.1 hl with rfl | hl
  · exact hx
  · exact hs _ l (hkept l hl)

theorem backs_l1Drop {s : State} (hs : Within D s) (line : Nat) (cls : Coh) : Backs D s (l1Drop s line cls) := by
  rcases l1Drop_eq s line cls with h | ⟨kept, out, -, hout, h⟩
  · rw [h]
    exact .refl s
  · rw [h]
    exact (backs_modCoreAt ..).trans (backs_writeBacks (fun l hl => hs _ l (hout l hl)) _)

end

end Sys2Proof.Laws.WriteBacks
end

section
/-!
PROOFS. What the core's view of a logged page depends on (R165, R338): the layer under O18 and O19.
-/
namespace Sys2Proof.Laws.Views

open Sys2Proof.Machine

/-- Every migration of every die, in the order in which an address looks for the one that moves it. -/
def migrationsOf (s : State) : List Migration := s.dies.flatMap (fun d => d.2.migrations)

section
variable {s t : State} (hd : migrationsOf t = migrationsOf s)
include hd

theorem movedFrom_of_migrations (pa : Nat) : movedFrom t pa = movedFrom s pa :=
  congrArg (List.find? (fun m : Migration => decide (m.old ≤ pa) && decide (pa < m.old + m.size))) hd

theorem movesOf_of_migrations (n pa : Nat) : movesOf t n pa = movesOf s n pa := by
  induction n generalizing pa with
  | zero => rfl
  | succ n ih =>
    unfold movesOf
    rw [movedFrom_of_migrations hd]
    split
    next m hm => rw [ih]
    next => rfl

theorem homeOf_of_migrations (pa : Nat) : homeOf t pa = homeOf s pa := by
  have hlen : (t.dies.flatMap (fun d => d.2.migrations)).length = (s.dies.flatMap (fun d => d.2.migrations)).length := congrArg List.length hd
  rw [homeOf, movesAll, hlen, movesOf_of_migrations hd, homeOf, movesAll]

theorem covers_of_migrations (r : LogRec) (a : Nat) : r.covers t a = r.covers s a := by
  simp only [LogRec.covers, homeOf_of_migrations hd]

theorem overRecord_of_migrations (a : Nat) (k : Key) (r : LogRec) (x : Byte × List Key) : overRecord t a k r x = overRecord s a k r x := by
  rw [overRecord, covers_of_migrations hd, overRecord]

end

/-- A byte of the view is the same where the settled byte, its keys, the migrations and the core's records are. -/
theorem viewByte_congr {s t : State} {comp m a : Nat} (hd : migrationsOf t = migrationsOf s) (hcur : t.cur = s.cur) (hlog : t.core.log = s.core.log)
    (hctx : t.core.ctx = s.core.ctx) (hreplay : t.core.replay = s.core.replay) (hbyte : shownByte t comp m a = shownByte s comp m a)
    (hkeys : keysAtMoment t m a = keysAtMoment s m a) : viewByte t comp m a = viewByte s comp m a := by
  simp only [viewByte, overRecord_of_migrations hd, hcur, hlog, hctx, hreplay, hbyte, hkeys]

/-- The walk, the tokens and the decode slot are no part of the view. -/
theorem viewByte_of_onlyWalked {s t : State} (h : OnlyWalked s t) (comp m a : Nat) : viewByte t comp m a = viewByte s comp m a := by
  have hkeeps {β : Type} (g : State → β) := Finishes.keeps_of_onlyWalked g (h := h)
  exact viewByte_congr (hkeeps migrationsOf (fun _ _ _ _ _ _ _ => rfl)) (hkeeps State.cur (fun _ _ _ _ _ _ _ => rfl))
    (hkeeps (fun s => s.core.log) (fun _ _ _ _ _ _ _ => rfl)) (hkeeps (fun s => s.core.ctx) (fun _ _ _ _ _ _ _ => rfl))
    (hkeeps (fun s => s.core.replay) (fun _ _ _ _ _ _ _ => rfl)) (hkeeps (fun s => shownByte s comp m a) (fun _ _ _ _ _ _ _ => rfl))
    (hkeeps (fun s => keysAtMoment s m a) (fun _ _ _ _ _ _ _ => rfl))

/-- What is under way to registers is no part of the view. -/
theorem viewByte_addLanding (s : State) (l : Core → Landing) (comp m a : Nat) :
    viewByte (modCore s (fun c => addLanding c (l c))) comp m a = viewByte s comp m a := viewByte_congr rfl rfl rfl rfl rfl rfl rfl

end Sys2Proof.Laws.Views
end

section
/-!
PROOFS. LD and LD.ln (R184 to R186, R338, R440): settles O18.
-/
namespace Sys2Proof.Laws.Loads

open Sys2Proof.Machine
open Sys2Proof.Laws.WriteBacks

/-! ### What a read leaves -/

/-- From `s` to `t`, where every dirty byte of an L1 is one `D` lists, memory has changed only to bytes that `D` lists, and that is so still. -/
def Reads (D : Nat × Byte → Prop) (s t : State) : Prop := Backs D s t ∧ Within D t

section
variable {D : Nat × Byte → Prop} {s t u : State}

theorem Reads.trans (h : Reads D s t) (h' : Reads D t u) : Reads D s u := ⟨h.1.trans h'.1, h'.2⟩

theorem reads_of_onlyMemory (hs : Within D s) (h : OnlyMemory s t) (hnow : t.now = s.now) (hmem : t.mem = s.mem) : Reads D s t :=
  ⟨backs_of_mem h.clk h.found hnow hmem, within_of_onlyMemory h hs⟩

theorem Reads.modCore (h : Reads D s t) {f : Core → Core} (hf : ∀ c, (f c).l1 = c.l1) : Reads D s (modCore t f) :=
  h.trans ⟨backs_of_mem rfl rfl rfl rfl, within_modCore h.2 (hf _)⟩

theorem reads_l1Put (hs : Within D s) {x : L1Line} (hx : ∀ y ∈ x.dirty, D y) : Reads D s (l1Put s x) := ⟨backs_l1Put hs x, within_l1Put hs hx⟩

theorem reads_askSlice (hs : Within D s) (hf : s.found = none) (who pa policy : Nat) : Reads D s (askSlice s who pa policy false) := by
  rcases askSlice_modSlice (write := false) (.inl hf) who pa policy with e | ⟨f, e⟩
  · rw [e]
    exact ⟨.refl s, hs⟩
  · rw [e]
    exact reads_of_onlyMemory hs rfl rfl rfl

theorem dirty_of_l1Find (hs : Within D s) {line : Nat} {cls : Coh} {l : L1Line} (hl : l1Find s line cls = some l) : ∀ x ∈ l.dirty, D x :=
  hs _ l (List.mem_of_find?_eq_some hl)

theorem reads_pLine (hs : Within D s) (hf : s.found = none) (u rank line : Nat) :
    Reads D s (pLine s u rank line).1 ∧ ∀ x ∈ (pLine s u rank line).2.dirty, D x := by
  unfold pLine
  split
  next l hl => exact ⟨⟨.refl s, hs⟩, dirty_of_l1Find hs hl⟩
  next => exact ⟨reads_askSlice hs hf .., fun x hx => absurd hx List.not_mem_nil⟩

theorem reads_lLine (hs : Within D s) (hf : s.found = none) (u rank line : Nat) : Reads D s (lLine s u rank line) := by
  have hfill : Reads D s (lLine.lFill (askSlice s (unitOf s u) (128 * line) rank false) line) := by
    have hask := reads_askSlice hs hf (unitOf s u) (128 * line) rank
    exact hask.trans (reads_l1Put hask.2 (fun x hx => absurd hx List.not_mem_nil))
  unfold lLine
  split
  next l hl =>
    split
    · exact reads_l1Put hs (dirty_of_l1Find hs hl)
    · exact hfill
  next => exact hfill

theorem reads_oFill (hs : Within D s) (line : Nat) : Reads D s (oLoad.oFill s line).1 := by
  have hlease (m : Sparse (Nat × Nat)) : Reads D s { s with oLines := m } := ⟨backs_of_mem rfl rfl rfl rfl, hs⟩
  unfold oLoad.oFill
  dsimp only
  refine ((hlease _).trans (reads_l1Put (hlease _).2 ?_)).modCore ?_
  · exact fun x hx => absurd hx List.not_mem_nil
  · exact fun _ => rfl

theorem reads_oLoad (hs : Within D s) (hf : s.found = none) (u policy line : Nat) : Reads D s (oLoad s u policy line).1 := by
  have hask := reads_askSlice hs hf (unitOf s u) (128 * line) policy
  unfold oLoad
  split
  next l hl =>
    split
    · dsimp only
      refine (reads_l1Put hs (dirty_of_l1Find hs hl)).modCore ?_
      exact fun _ => rfl
    · exact hask.trans (reads_oFill hask.2 line)
  next => exact hask.trans (reads_oFill hask.2 line)

theorem reads_landFlying (hs : Within D s) (p : FlyingStore → Bool) : Reads D s (landFlying s p) := by
  have hstore : Reads D s ((s.core.flying.filter p).foldl (fun s f => lentStore s f.ws f.mark) s) :=
    foldl_keeps (P := Reads D s) (f := fun s (f : FlyingStore) => lentStore s f.ws f.mark)
      (fun t f ht => ht.trans ⟨backs_of_mem rfl rfl rfl rfl, ht.2⟩) _ ⟨.refl s, hs⟩
  exact hstore.modCore (fun _ => rfl)

theorem reads_readPiece (hs : Within D s) (hf : s.found = none) (u : Nat) (e : TlbEntry) (policy pa n : Nat) : Reads D s (readPiece s u e policy pa n).1 := by
  unfold readPiece
  dsimp only
  split
  · have hflits : Reads D s (sendFlits s (lenderOf pa) 1) := by
      refine reads_of_onlyMemory hs (sendFlits_onlyMemory ..) ?_ (by simp)
      unfold sendFlits countFlits
      split <;> rfl
    exact hflits.trans (reads_landFlying hflits.2 _)
  · split
    · obtain ⟨hline, hdirty⟩ := reads_pLine hs hf u (policyRank (leafPolicy e.leaf) policy) (pa / 128)
      generalize pLine s u (policyRank (leafPolicy e.leaf) policy) (pa / 128) = x at hline hdirty
      exact hline.trans (reads_l1Put hline.2 hdirty)
    · have hline := reads_lLine hs hf u (policyRank (leafPolicy e.leaf) policy) (pa / 128)
      generalize lLine s u (policyRank (leafPolicy e.leaf) policy) (pa / 128) = x at hline
      dsimp only
      refine hline.modCore ?_
      exact fun _ => rfl
    · have hline := reads_oLoad hs hf u (policyRank (leafPolicy e.leaf) policy) (pa / 128)
      generalize oLoad s u (policyRank (leafPolicy e.leaf) policy) (pa / 128) = x at hline
      dsimp only
      refine hline.modCore ?_
      exact fun _ => rfl

theorem reads_readMarked (hs : Within D s) (hf : s.found = none) (u : Nat) (e : TlbEntry) (policy pa n : Nat) :
    Reads D s (readMarked s u e policy pa n).1 := by
  unfold readMarked
  refine foldl_keeps (P := fun x : State × List (Byte × Bool) => Reads D s x.1) (fun x p hx => ?_) _ ⟨.refl s, hs⟩
  exact hx.trans (reads_readPiece hx.2 (hx.1.found.trans hf) u e policy p.1 p.2)

theorem reads_loadBytes (hs : Within D s) (hf : s.found = none) (e : TlbEntry) (pa w : Nat) : Reads D s (loadBytes s e pa w).1 := by
  unfold loadBytes
  split
  · exact ⟨.refl s, hs⟩
  · exact reads_readMarked hs hf 0 e 0 pa w

end

/-- A load leaves the parts of the core that no access changes. -/
theorem loadBytes_apart {β : Type} {v : Core → β} (hv : Accesses.Apart v) (s : State) (e : TlbEntry) (pa w : Nat) :
    v (loadBytes s e pa w).1.core = v s.core := by
  unfold loadBytes
  split
  · rfl
  · exact Accesses.readMarked_apart hv s 0 e 0 pa w

/-! ### The core's own view of a logged page (R338) -/

theorem l1Put_keeps {β : Type} {v : Core → β} (hv : ∀ (c : Core) (ls : List L1Line), v { c with l1 := ls } = v c) (s : State) (x : L1Line) :
    v (l1Put s x).core = v s.core := by
  obtain ⟨kept, out, -, -, h⟩ := l1Put_eq s x
  rw [h, Accesses.writeBacks_core]
  exact Accesses.coreAt_same (fun c => hv c _) _ _

theorem lLine_moment (s : State) (u rank line : Nat) : (lLine s u rank line).core.moment = s.core.moment := by
  have hput (s : State) (x : L1Line) : (l1Put s x).core.moment = s.core.moment := l1Put_keeps (fun _ _ => rfl) s x
  have hfill : (lLine.lFill (askSlice s (unitOf s u) (128 * line) rank false) line).core.moment = s.core.moment :=
    (hput _ _).trans (congrArg Core.moment (Accesses.askSlice_core ..))
  unfold lLine
  repeat' split
  · exact hput _ _
  · exact hfill
  · exact hfill

/-- A piece of a logged page shows the core's view, at a moment not before the core's and not after the present. -/
theorem readPiece_logged {s : State} {e : TlbEntry} {pa : Nat} (hf : s.found = none) (hcls : classOf pa < 2) (hleaf : leafCoh e.leaf = .l) (u policy n : Nat) :
    ∃ m, s.core.moment ≤ m ∧ (s.core.moment ≤ s.now → m ≤ (readPiece s u e policy pa n).1.now) ∧
      (readPiece s u e policy pa n).2.map Prod.fst = (List.range n).map (fun i => viewByte (readPiece s u e policy pa n).1 (leafComp e.leaf) m (pa + i)) := by
  have hnow : s.now ≤ (lLine s u (policyRank (leafPolicy e.leaf) policy) (pa / 128)).now := (reads_lLine (within_dirtyIn s) hf _ _ _).1.later
  have hmoment := lLine_moment s u (policyRank (leafPolicy e.leaf) policy) (pa / 128)
  have hlent : (classOf pa == 2) = false := by simp; omega
  unfold readPiece
  dsimp only
  rw [hlent, hleaf]
  dsimp only
  generalize lLine s u (policyRank (leafPolicy e.leaf) policy) (pa / 128) = t at hnow hmoment
  have hpick : s.core.moment ≤ pickMoment t pa ∧ (s.core.moment ≤ s.now → pickMoment t pa ≤ t.now) := by
    rw [pickMoment, hmoment]
    have hlt := Nat.mod_lt (Config.freeMoment t.tick pa) (Nat.succ_pos (t.now - s.core.moment))
    rw [Nat.succ_eq_add_one] at hlt
    omega
  refine ⟨pickMoment t pa, hpick.1, hpick.2, ?_⟩
  simp [List.map_map, Function.comp_def]

/-- An access within a unit is one piece, or none where it has no bytes. -/
theorem piecesOf_within {unit pa w : Nat} (hw : w ≤ unit - pa % unit) : piecesOf unit (w + 1) pa w = if w = 0 then [] else [(pa, w)] := by
  unfold piecesOf
  by_cases h0 : w = 0 <;> simp [h0, hw]

theorem loadBytes_logged {s : State} {e : TlbEntry} {pa w : Nat} (hf : s.found = none) (hcls : classOf pa < 2) (hleaf : leafCoh e.leaf = .l)
    (hw : w ≤ 16 - pa % 16) :
    ∃ m, s.core.moment ≤ m ∧ (s.core.moment ≤ s.now → m ≤ (loadBytes s e pa w).1.now) ∧
      (loadBytes s e pa w).2.1 = (List.range w).map (fun i => viewByte (loadBytes s e pa w).1 (leafComp e.leaf) m (pa + i)) := by
  have hreg : (classOf pa == 3) = false := by simp; omega
  have hunit : (if leafCoh e.leaf == .o then 128 else 16) = 16 := by rw [hleaf]; rfl
  unfold loadBytes
  rw [hreg]
  simp only [Bool.false_eq_true, if_false, readMem, readMarked, hunit, piecesOf_within hw]
  by_cases h0 : w = 0
  · subst h0
    exact ⟨s.core.moment, le_rfl, id, rfl⟩
  · rw [if_neg h0]
    obtain ⟨m, hm, hnow, hbytes⟩ := readPiece_logged hf hcls hleaf 0 0 w
    exact ⟨m, hm, hnow, by simpa using hbytes⟩

/-! ### The instruction -/

section
variable {h : Hdr} {d a : Reg} {t : Ty} {o : Src2} {v : Word} {s p : State} {r : Instr × Base}

/-- A form of LD that issues with its address comes to its body. -/
theorem exec_load (hi : Issues s h (src2Locs o) p) (hr : r ∈ ([(.ld h d a t o, .reg a), (.ldLn h d a t o, .nest a)] : List (Instr × Base)))
    (ha : Addressed p r.2 o v) : exec r.1 s = .next (finish s h (nextPc s h (src2Len o)) (ldBody h d t v.toNat p)) := by
  obtain ⟨hin, hclean, w, hw, rfl⟩ := ha
  have hform : exec r.1 s = loadForm h d r.2 t o s := by
    simp only [List.mem_cons, List.not_mem_nil, or_false] at hr
    rcases hr with rfl | rfl <;> rfl
  rw [hform, loadForm, issueOut_of_issues hi, Moves.withBase_of_clean hin hclean hw]

variable {e : TlbEntry} {pa : Nat} (hpage : accessPage p v.toNat (widthOf t / 8) { r := true } = .ok e pa)
    (hreach : reachFault p v.toNat pa (widthOf t / 8) = none)
include hpage hreach

theorem ldBody_full (hfull : 32 ≤ outstandingLoads p.core) : ldBody h d t v.toNat p = .wait nothing := by
  simp [ldBody, typeBytes, hpage, hreach, hfull]

/-- The late result of a load whose bytes are `bs`. -/
def loadLanding (h : Hdr) (d : Reg) (t : Ty) (pa : Nat) (p : State) (c : Core) (bs : List Byte) (mark : Bool) : Landing :=
  { memLanding h c (lateG d.toNat (loaded t (leNat bs)) mark) with isLoad := true, due := loadDue p pa }

/-- The state in which the load's value is under way. -/
def loadState (h : Hdr) (d : Reg) (t : Ty) (e : TlbEntry) (pa : Nat) (p : State) : State :=
  let x := loadBytes (touchTlb p e) e pa (widthOf t / 8)
  modCore x.1 (fun c => addLanding c (loadLanding h d t pa p c x.2.1 x.2.2))

theorem ldBody_loads (horder : orderHeld p.core (isOrdered e pa) = false) (hroom : outstandingLoads p.core < 32) :
    ldBody h d t v.toNat p = .later (loadState h d t e pa p) := by
  simp [ldBody, typeBytes, hpage, hreach, horder, not_le.2 hroom, loadLanding, loadState]

end

section
variable (h : Hdr) (d : Reg) (t : Ty) (e : TlbEntry) (pa : Nat) {p : State}

/-- What an access, a translation and a late result leave of the core, the load leaves. -/
theorem loadState_core {β : Type} {v : Core → β} (hv : Accesses.Apart v) (ht : ∀ (c : Core) (l : List TlbEntry), v { c with tlb := l } = v c)
    (hl : ∀ (c : Core) (l : List Landing), v { c with landing := l } = v c) : v (loadState h d t e pa p).core = v p.core :=
  (hl ..).trans ((loadBytes_apart hv _ e pa _).trans (ht ..))

theorem loadState_landing : (loadState h d t e pa p).core.landing = p.core.landing ++
    [{ due := if classOf pa = 3 then some (p.core.ck + if windowDie pa = dieOfCore p.cur then 40 else 62) else none, eng := .a
       seq := p.core.engA.seq, tag := p.core.engA.walk, scoreboard := true
       act := .write (if d = 0 then [] else [{ loc := .g d.toNat, val := loaded t (leNat (loadBytes (touchTlb p e) e pa (widthOf t / 8)).2.1)
                                               mark := (loadBytes (touchTlb p e) e pa (widthOf t / 8)).2.2 }])
       push := h.push, isLoad := true }] := by
  have hd : (d.toNat = 0) = (d = 0) := propext ⟨fun h0 => BitVec.eq_of_toNat_eq h0, fun h0 => by rw [h0]; rfl⟩
  have heng : (loadBytes (touchTlb p e) e pa (widthOf t / 8)).1.core.engA = p.core.engA := loadBytes_apart (fun _ _ _ _ _ _ _ _ _ => rfl) (touchTlb p e) e pa _
  have hland : (loadBytes (touchTlb p e) e pa (widthOf t / 8)).1.core.landing = p.core.landing :=
    loadBytes_apart (fun _ _ _ _ _ _ _ _ _ => rfl) (touchTlb p e) e pa _
  simp only [loadState, modCore_core, addLanding_landing, hland, loadLanding, memLanding, lateG, loadDue, heng, hd, beq_iff_eq]

variable (hf : p.found = none)
include hf

theorem backs_loadState : Backs (DirtyIn p) p (loadState h d t e pa p) := by
  have htouch : Backs (DirtyIn p) p (touchTlb p e) := backs_of_mem rfl rfl rfl rfl
  obtain ⟨hread, -⟩ := reads_loadBytes (D := DirtyIn p) (s := touchTlb p e) (within_modCore (within_dirtyIn p) rfl) hf e pa (widthOf t / 8)
  unfold loadState
  generalize loadBytes (touchTlb p e) e pa (widthOf t / 8) = x at hread ⊢
  exact htouch.trans (hread.trans (backs_of_mem rfl rfl rfl rfl))

theorem walkOf_loadState : Finishes.walkOf (loadState h d t e pa p) = Finishes.walkOf p := by
  have hcore := loadState_core h d t e pa (p := p) (v := fun c => ((c.engC, c.engA, c.engV, c.engW), c.ck, c.tokens)) (fun _ _ _ _ _ _ _ _ _ => rfl)
    (fun _ _ => rfl) (fun _ _ => rfl)
  simp only [Prod.mk.injEq] at hcore
  obtain ⟨heng, hck, htok⟩ := hcore
  exact Finishes.walkOf_eq_iff.2 ⟨heng, hck, htok, (backs_loadState h d t e pa hf).clk⟩

/-- The bytes of a logged page are the core's view there. -/
theorem loadState_view (hcls : classOf pa < 2) (hleaf : leafCoh e.leaf = .l) (hw : widthOf t / 8 ≤ 16 - pa % 16) :
    ∃ m, p.core.moment ≤ m ∧ (p.core.moment ≤ p.now → m ≤ (loadState h d t e pa p).now) ∧
      (loadBytes (touchTlb p e) e pa (widthOf t / 8)).2.1 =
        (List.range (widthOf t / 8)).map (fun i => viewByte (loadState h d t e pa p) (leafComp e.leaf) m (pa + i)) := by
  obtain ⟨m, hm, hnow, hbytes⟩ := loadBytes_logged (s := touchTlb p e) hf hcls hleaf hw
  unfold loadState
  generalize loadBytes (touchTlb p e) e pa (widthOf t / 8) = x at hnow hbytes ⊢
  exact ⟨m, hm, hnow, hbytes.trans (List.map_congr_left (fun i _ => (Views.viewByte_addLanding ..).symm))⟩

end

theorem loadsComplete : LoadsComplete := by
  intro h d a t o v e pa s p hi he r hr ha w hpage hreach horder hroom hf
  have hexec := exec_load hi hr ha
  rw [ldBody_loads hpage hreach horder hroom, Finishes.finish_later] at hexec
  have hwalk := walkOf_loadState h d t e pa hf
  have hq := Finishes.finishLater_onlyWalked (loadState h d t e pa p) h (nextPc s h (src2Len o))
  have hcore {β : Type} := Finishes.core_of_onlyWalked (β := β) (h := hq)
  refine ⟨_, hexec, leNat (loadBytes (touchTlb p e) e pa w).2.1, (loadBytes (touchTlb p e) e pa w).2.2, ?_, fun hcls hleaf hwide => ?_,
    Finishes.walkedTo_of_walkOf hwalk (Finishes.finishLater_walked ..), Finishes.reserved_of_walkOf hwalk (Finishes.finishLater_reserved _ h _), ?_, fun b => ?_⟩
  · exact (hcore Core.landing (fun _ _ _ _ _ _ _ => rfl)).trans (loadState_landing h d t e pa)
  · obtain ⟨m, hm, hnow, hbytes⟩ := loadState_view h d t e pa hf hcls hleaf hwide
    refine ⟨m, hm, fun hle => ?_, congrArg leNat (hbytes.trans (List.map_congr_left (fun i _ => (Views.viewByte_of_onlyWalked hq ..).symm)))⟩
    rw [Finishes.keeps_of_onlyWalked State.now (fun _ _ _ _ _ _ _ => rfl) hq]
    exact hnow hle
  · exact (hcore Core.g (fun _ _ _ _ _ _ _ => rfl)).trans (loadState_core h d t e pa (fun _ _ _ _ _ _ _ _ _ => rfl) (fun _ _ => rfl) (fun _ _ => rfl))
  · exact writtenBack_of_backs ((backs_loadState h d t e pa hf).trans (backs_of_onlyWalked hq)) b

theorem loadsAreBounded : LoadsAreBounded := by
  intro h d a t o v e pa s p hi he r hr ha hpage hreach hfull
  rw [exec_load hi hr ha, ldBody_full hpage hreach hfull]
  rfl

end Sys2Proof.Laws.Loads

namespace Sys2Proof

/-- Settles O18: a load reads its bytes piece by piece, and no piece changes memory but by writing dirty bytes of an L1 back. -/
theorem loads : Obligations.Loads := ⟨Laws.Loads.loadsComplete, Laws.Loads.loadsAreBounded⟩

end Sys2Proof
end

section
/-!
PROOFS. The bytes of a store, as the store log and the merge of settled bits take them (R334, R337): a layer under O19.
-/
namespace Sys2Proof.Laws.Bytes

open Sys2Proof.Machine

/-! ### Bytes of a number -/

@[simp] theorem length_leBytes (w n : Nat) : (leBytes w n).length = w := by
  induction w generalizing n with
  | zero => rfl
  | succ w ih => rw [leBytes, List.length_cons, ih]

theorem getD_leBytes {w i : Nat} (n : Nat) (hi : i < w) : (leBytes w n).getD i 0 = BitVec.ofNat 8 (n / 256 ^ i) := by
  induction w generalizing n i with
  | zero => omega
  | succ w ih =>
    cases i with
    | zero => simp [leBytes]
    | succ i => rw [leBytes, List.getD_cons_succ, ih (n / 256) (by omega), Nat.div_div_eq_div_mul, pow_succ']

/-! ### Writes of whole bytes -/

theorem mem_wholeBytes {pa : Nat} {bs : List Byte} {w : Nat × Byte × Byte} : w ∈ wholeBytes pa bs ↔ ∃ i, i < bs.length ∧ w = (pa + i, bs.getD i 0, 255#8) := by
  simp [wholeBytes, eq_comm]

theorem wholeBytes_ne_nil {pa : Nat} {bs : List Byte} (h : 0 < bs.length) : wholeBytes pa bs ≠ [] :=
  List.ne_nil_of_mem (mem_wholeBytes.2 ⟨0, h, rfl⟩)

/-- The first of them is at the first address. -/
theorem wholeBytes_cons {bs : List Byte} (pa : Nat) (h : 0 < bs.length) : ∃ b ws, wholeBytes pa bs = (pa, b, 255#8) :: ws := by
  obtain ⟨n, hn⟩ := Nat.exists_eq_add_of_lt h
  rw [Nat.zero_add] at hn
  exact ⟨_, _, by rw [wholeBytes, hn, List.range_succ_eq_map, List.map_cons, Nat.add_zero]⟩

/-- Writes that all lie in one unit form one group. -/
theorem groupBy_one {n g : Nat} {ws : List (Nat × Byte × Byte)} (hne : ws ≠ []) (h : ∀ w ∈ ws, w.1 / n = g) : groupBy n ws = [(g, ws)] := by
  have hdedup (l : List Nat) (hl : l ≠ []) (hall : ∀ x ∈ l, x = g) : dedupNat l = [g] := by
    induction l with
    | nil => exact absurd rfl hl
    | cons x l ih =>
      rw [dedupNat, hall x List.mem_cons_self]
      cases l with
      | nil => rfl
      | cons y l => rw [ih (List.cons_ne_nil y l) (fun z hz => hall z (List.mem_cons_of_mem x hz))]; simp
  have hone : dedupNat (ws.map (fun w => w.1 / n)) = [g] := by
    refine hdedup _ (by simpa using hne) (fun x hx => ?_)
    obtain ⟨w, hw, rfl⟩ := List.mem_map.1 hx
    exact h w hw
  have hall : ws.filter (fun w => w.1 / n == g) = ws := List.filter_eq_self.2 (fun w hw => by simp [h w hw])
  rw [groupBy, hone, List.map_cons, List.map_nil, hall]

theorem groupBy_wholeBytes {n pa : Nat} {bs : List Byte} (hlen : 0 < bs.length) (h : pa % n + bs.length ≤ n) :
    groupBy n (wholeBytes pa bs) = [(pa / n, wholeBytes pa bs)] := by
  refine groupBy_one (wholeBytes_ne_nil hlen) (fun w hw => ?_)
  obtain ⟨i, hi, rfl⟩ := mem_wholeBytes.1 hw
  have hpa := Nat.div_add_mod pa n
  refine Nat.div_eq_of_lt_le ?_ ?_
  · rw [Nat.mul_comm]
    omega
  · rw [Nat.succ_mul, Nat.mul_comm]
    omega

/-! ### A byte of a record's block -/

/-- Byte `a` of the 16 that a record holds. -/
def recByte (x : BitVec 128) (a : Nat) : Byte := (x >>> (8 * (a % 16))).setWidth 8

theorem overRecord_eq (s : State) (a : Nat) (k : Key) (r : LogRec) (x : Byte × List Key) :
    overRecord s a k r x = if r.covers s a then mergeBits x.1 x.2 (recByte r.data a) (recByte r.mask a) k else x := rfl

theorem getLsbD_recByte (x : BitVec 128) (a i : Nat) : (recByte x a).getLsbD i = (decide (i < 8) && x.getLsbD (8 * (a % 16) + i)) := by
  simp [recByte, BitVec.getLsbD_setWidth]

theorem recByte_zero (a : Nat) : recByte 0#128 a = 0#8 := by simp [recByte]

theorem recByte_or (x y : BitVec 128) (a : Nat) : recByte (x ||| y) a = recByte x a ||| recByte y a := by
  refine BitVec.eq_of_getLsbD_eq (fun i hi => ?_)
  simp only [getLsbD_recByte, BitVec.getLsbD_or, hi, decide_true, Bool.true_and]

theorem recByte_and (x y : BitVec 128) (a : Nat) : recByte (x &&& y) a = recByte x a &&& recByte y a := by
  refine BitVec.eq_of_getLsbD_eq (fun i hi => ?_)
  simp only [getLsbD_recByte, BitVec.getLsbD_and, hi, decide_true, Bool.true_and]

theorem recByte_not (x : BitVec 128) (a : Nat) : recByte (~~~x) a = ~~~recByte x a := by
  refine BitVec.eq_of_getLsbD_eq (fun i hi => ?_)
  have hin : 8 * (a % 16) + i < 128 := by omega
  simp only [getLsbD_recByte, BitVec.getLsbD_not, hi, hin, decide_true, Bool.true_and]

/-- A byte that stands at address `b` of its block is byte `a` where the two are the same place. -/
theorem recByte_shiftLeft (x : Byte) (a b : Nat) :
    recByte (BitVec.shiftLeft (x.setWidth 128) (8 * (b % 16))) a = if b % 16 = a % 16 then x else 0#8 := by
  refine BitVec.eq_of_getLsbD_eq (fun i hi => ?_)
  have hin : 8 * (a % 16) + i < 128 := by omega
  change (recByte (x.setWidth 128 <<< (8 * (b % 16))) a).getLsbD i = _
  rw [getLsbD_recByte, BitVec.getLsbD_shiftLeft, BitVec.getLsbD_setWidth]
  by_cases hab : b % 16 = a % 16
  · have hsub : 8 * (a % 16) + i - 8 * (b % 16) = i := by omega
    have hle : ¬ 8 * (a % 16) + i < 8 * (b % 16) := by omega
    have hi' : i < 128 := by omega
    simp [hab, hi, hin, hi']
  · rw [if_neg hab]
    by_cases hlt : b % 16 < a % 16
    · have hbig : 8 ≤ 8 * (a % 16) + i - 8 * (b % 16) := by omega
      simp [BitVec.getLsbD_of_ge x _ hbig]
    · have hle : 8 * (a % 16) + i < 8 * (b % 16) := by omega
      simp [hle]

/-- Of bytes of one value put over one another, that value stands where one of them is. -/
theorem foldl_or (f : Nat × Byte × Byte → Byte) (v : Byte) (ws : List (Nat × Byte × Byte)) (hf : ∀ w ∈ ws, f w = 0#8 ∨ f w = v) (x : Byte) :
    ws.foldl (fun x w => x ||| f w) x = x ||| if ∀ w ∈ ws, f w = 0#8 then 0#8 else v := by
  induction ws generalizing x with
  | nil => simp
  | cons w ws ih =>
    rw [List.foldl_cons, ih (fun y hy => hf y (List.mem_cons_of_mem w hy))]
    rcases hf w List.mem_cons_self with h0 | hv
    · simp only [List.forall_mem_cons, h0, true_and, BitVec.or_zero]
    · by_cases hz : v = 0#8
      · simp [hv, hz]
      · rw [if_neg (c := ∀ y ∈ w :: ws, f y = 0#8) (fun hall => hz (hv ▸ hall w List.mem_cons_self)), hv]
        split
        · rw [BitVec.or_zero]
        · rw [BitVec.or_assoc, BitVec.or_self]

theorem recByte_blockBits (ws : List (Nat × Byte × Byte)) (a : Nat) :
    recByte (blockBits ws).1 a = ws.foldl (fun x w => x ||| if w.1 % 16 = a % 16 then w.2.1 else 0#8) 0#8 ∧
      recByte (blockBits ws).2 a = ws.foldl (fun x w => x ||| if w.1 % 16 = a % 16 then w.2.2 else 0#8) 0#8 := by
  have hfold : ∀ (ws : List (Nat × Byte × Byte)) (p : BitVec 128 × BitVec 128),
      let q := ws.foldl (fun p w => (p.1 ||| BitVec.shiftLeft (w.2.1.setWidth 128) (8 * (w.1 % 16)), p.2 ||| BitVec.shiftLeft (w.2.2.setWidth 128) (8 * (w.1 % 16)))) p
      recByte q.1 a = ws.foldl (fun x w => x ||| if w.1 % 16 = a % 16 then w.2.1 else 0#8) (recByte p.1 a) ∧
        recByte q.2 a = ws.foldl (fun x w => x ||| if w.1 % 16 = a % 16 then w.2.2 else 0#8) (recByte p.2 a) := by
    intro ws
    induction ws with
    | nil => exact fun p => ⟨rfl, rfl⟩
    | cons w ws ih =>
      intro p
      obtain ⟨hdata, hmask⟩ := ih (p.1 ||| BitVec.shiftLeft (w.2.1.setWidth 128) (8 * (w.1 % 16)), p.2 ||| BitVec.shiftLeft (w.2.2.setWidth 128) (8 * (w.1 % 16)))
      simp only [recByte_or, recByte_shiftLeft] at hdata hmask
      exact ⟨hdata, hmask⟩
  obtain ⟨hdata, hmask⟩ := hfold ws (0#128, 0#128)
  rw [recByte_zero] at hdata hmask
  exact ⟨hdata, hmask⟩

section
variable {pa : Nat} {bs : List Byte} (hblock : pa % 16 + bs.length ≤ 16)
include hblock

/-- A stored byte stands in its block with every bit enabled. -/
theorem recByte_stored {i : Nat} (hi : i < bs.length) :
    recByte (blockBits (wholeBytes pa bs)).1 (pa + i) = bs.getD i 0 ∧ recByte (blockBits (wholeBytes pa bs)).2 (pa + i) = 255#8 := by
  have hplace {j : Nat} (hj : j < bs.length) : (pa + j) % 16 = (pa + i) % 16 ↔ j = i := by omega
  have hmem : (pa + i, bs.getD i 0, 255#8) ∈ wholeBytes pa bs := mem_wholeBytes.2 ⟨i, hi, rfl⟩
  obtain ⟨hdata, hmask⟩ := recByte_blockBits (wholeBytes pa bs) (pa + i)
  rw [hdata, hmask, foldl_or _ (bs.getD i 0), foldl_or _ 255#8]
  · refine ⟨?_, ?_⟩
    · split
      next hall => simpa using (hall _ hmem).symm
      next => simp
    · split
      next hall => exact absurd (hall _ hmem) (by simp)
      next => simp
  · intro w hw
    obtain ⟨j, hj, rfl⟩ := mem_wholeBytes.1 hw
    split <;> simp
  · intro w hw
    obtain ⟨j, hj, rfl⟩ := mem_wholeBytes.1 hw
    dsimp only
    simp only [hplace hj]
    split
    next hji => exact .inr (by rw [hji])
    next => exact .inl rfl

/-- The other bytes of the block are not enabled. -/
theorem recByte_other {b : Nat} (hb : b / 16 = pa / 16) (hout : b < pa ∨ pa + bs.length ≤ b) : recByte (blockBits (wholeBytes pa bs)).2 b = 0#8 := by
  obtain ⟨-, hmask⟩ := recByte_blockBits (wholeBytes pa bs) b
  rw [hmask, foldl_or _ 0#8]
  · simp
  · intro w hw
    obtain ⟨j, hj, rfl⟩ := mem_wholeBytes.1 hw
    exact .inl (if_neg (by dsimp only; omega))

end

/-! ### Merging bits by key (R337) -/

/-- A byte is made of its bits. -/
theorem byte_of_bits (b : Byte) : BitVec.ofNat 8 ((List.range 8).foldl (fun acc i => acc + (if b.getLsbD i then 2 ^ i else 0)) 0) = b := by
  revert b
  decide +kernel

/-- A bit of a write is taken. -/
def takes (ks : List Key) (mask : Byte) (k : Key) (i : Nat) : Bool := mask.getLsbD i && (ks.getD i {}).lt k

theorem mergeBits_byte {b c : Byte} {ks : List Key} {data mask : Byte} {k : Key}
    (h : ∀ i, i < 8 → (if takes ks mask k i then data.getLsbD i else b.getLsbD i) = c.getLsbD i) : (mergeBits b ks data mask k).1 = c := by
  rw [← byte_of_bits c]
  refine congrArg (BitVec.ofNat 8) (List.foldl_ext _ _ _ (fun acc i hi => ?_))
  exact congrArg (fun x : Bool => acc + if x then 2 ^ i else 0) (h i (List.mem_range.1 hi))

theorem mergeBits_key (b : Byte) (ks : List Key) (data mask : Byte) (k : Key) {i : Nat} (hi : i < 8) :
    (mergeBits b ks data mask k).2.getD i {} = if takes ks mask k i then k else ks.getD i {} := by
  simp [mergeBits, takes, hi]

/-- The keys of a byte's bits have times below `n`. -/
def KeysBelow (n : Nat) (ks : List Key) : Prop := ∀ i, i < 8 → (ks.getD i {}).time < n

theorem keysBelow_of_mem {n : Nat} {ks : List Key} (hn : 0 < n) (h : ∀ k ∈ ks, k.time < n) : KeysBelow n ks := by
  intro i _
  rw [List.getD_eq_getElem?_getD]
  cases hk : ks[i]? with
  | none => exact hn
  | some k => exact h k (List.mem_of_getElem? hk)

theorem KeysBelow.mono {n m : Nat} {ks : List Key} (h : KeysBelow n ks) (hnm : n ≤ m) : KeysBelow m ks := fun i hi => (h i hi).trans_le hnm

theorem keysBelow_mergeBits {n : Nat} {b : Byte} {ks : List Key} {data mask : Byte} {k : Key} (h : KeysBelow n ks) (hk : k.time < n) :
    KeysBelow n (mergeBits b ks data mask k).2 := by
  intro i hi
  rw [mergeBits_key _ _ _ _ _ hi]
  split
  · exact hk
  · exact h i hi

/-- A write of a whole byte that is later than its bits takes it. -/
theorem mergeBits_later {b data : Byte} {ks : List Key} {k : Key} (h : KeysBelow k.time ks) : (mergeBits b ks data 255#8 k).1 = data := by
  refine mergeBits_byte (fun i hi => ?_)
  have hlt : (ks.getD i {}).lt k = true := by rw [Key.lt, decide_eq_true (h i hi), Bool.true_or]
  have hmask : (255#8).getLsbD i = true := by interval_cases i <;> rfl
  rw [if_pos (by rw [takes, hmask, hlt]; rfl)]

/-- A write that enables no bit leaves the byte. -/
theorem mergeBits_masked (b data : Byte) (ks : List Key) (k : Key) : (mergeBits b ks data 0#8 k).1 = b := by
  refine mergeBits_byte (fun i hi => ?_)
  rw [if_neg (by simp [takes])]

end Sys2Proof.Laws.Bytes
end

section
/-!
PROOFS. What a record of the store log adds to the core's view, and what write-backs leave of it (R165, R334, R338): a layer under O19.
-/
namespace Sys2Proof.Laws.Records

open Sys2Proof.Machine
open Sys2Proof.Laws.Bytes
open Sys2Proof.Laws.Views (migrationsOf)
open Sys2Proof.Laws.WriteBacks

/-! ### The view by layers -/

/-- The core's records of its own context. -/
def own (c : Core) : List LogRec := c.log.filter (fun r => some r.ctx == c.ctx)

def published (c : Core) : List LogRec := (own c).filter (fun r => r.time.isSome && !r.settled)

def unpublished (c : Core) : List LogRec := (own c).filter (fun r => r.time.isNone)

/-- The view of a byte without the core's unpublished records. -/
def beneath (s : State) (comp m a : Nat) : Byte × List Key :=
  (published s.core).foldl (fun x r => overRecord s a { time := r.time.getD 0, num := s.cur } r x)
    (s.core.replay.foldl (fun x p => overRecord s a { time := p.2.time.getD 0, num := p.1 } p.2 x) (shownByte s comp m a, keysAtMoment s m a))

/-- Unpublished records laid over a byte, the `n`-th of the core's first. -/
def topped (s : State) (a n : Nat) (us : List LogRec) (x : Byte × List Key) : Byte × List Key :=
  (us.zipIdx n).foldl (fun x q => overRecord s a { time := 2 ^ 64 + q.2, num := 0 } q.1 x) x

theorem viewByte_eq (s : State) (comp m a : Nat) : viewByte s comp m a = (topped s a 0 (unpublished s.core) (beneath s comp m a)).1 := rfl

section
variable {s : State} {a n : Nat} {x : Byte × List Key}

theorem topped_nil : topped s a n [] x = x := rfl

theorem topped_cons (r : LogRec) (us : List LogRec) :
    topped s a n (r :: us) x = topped s a (n + 1) us (overRecord s a { time := 2 ^ 64 + n, num := 0 } r x) := by
  rw [topped, List.zipIdx_cons, List.foldl_cons, topped]

theorem topped_append (us vs : List LogRec) : topped s a n (us ++ vs) x = topped s a (n + us.length) vs (topped s a n us x) := by
  simp only [topped, List.zipIdx_append, List.foldl_append]

theorem keysBelow_overRecord {k : Key} {r : LogRec} {b : Nat} (hx : KeysBelow b x.2) (hk : k.time < b) : KeysBelow b (overRecord s a k r x).2 := by
  rw [overRecord_eq]
  split
  · exact keysBelow_mergeBits hx hk
  · exact hx

theorem keysBelow_topped (us : List LogRec) (hx : KeysBelow (2 ^ 64 + n) x.2) : KeysBelow (2 ^ 64 + (n + us.length)) (topped s a n us x).2 := by
  induction us generalizing n x with
  | nil => exact hx
  | cons r us ih =>
    rw [topped_cons]
    have h := ih (keysBelow_overRecord (s := s) (a := a) (k := { time := 2 ^ 64 + n, num := 0 }) (r := r) (b := 2 ^ 64 + (n + 1))
      (hx.mono (by omega)) (show 2 ^ 64 + n < 2 ^ 64 + (n + 1) by omega))
    rw [List.length_cons, show n + (us.length + 1) = n + 1 + us.length by omega]
    exact h

/-- Record `r` gives byte `a` the value `b`, whole. -/
def Gives (r : LogRec) (a : Nat) (b : Byte) : Prop := recByte r.data a = b ∧ recByte r.mask a = 255#8

theorem overRecord_gives {r : LogRec} {b : Byte} (hc : r.covers s a = true) (hr : Gives r a b) (hx : KeysBelow (2 ^ 64 + n) x.2) :
    (overRecord s a { time := 2 ^ 64 + n, num := 0 } r x).1 = b := by
  obtain ⟨hdata, hmask⟩ := hr
  rw [overRecord_eq, if_pos hc, hmask, hdata]
  exact mergeBits_later (k := { time := 2 ^ 64 + n, num := 0 }) hx

/-- A byte whose last record gives it `b` reads `b`. -/
theorem topped_gives {us vs : List LogRec} {r : LogRec} {b : Byte} (hx : KeysBelow (2 ^ 64) x.2) (hc : r.covers s a = true) (hr : Gives r a b)
    (hvs : ∀ y ∈ vs, y.covers s a = true → Gives y a b) : (topped s a 0 (us ++ r :: vs) x).1 = b := by
  have hafter : ∀ (vs : List LogRec) (n : Nat) (x : Byte × List Key), (∀ y ∈ vs, y.covers s a = true → Gives y a b) → x.1 = b →
      KeysBelow (2 ^ 64 + n) x.2 → (topped s a n vs x).1 = b := by
    intro vs
    induction vs with
    | nil => exact fun n x _ hxb _ => hxb
    | cons y vs ih =>
      intro n x hvs hxb hx
      rw [topped_cons]
      refine ih _ _ (fun z hz => hvs z (List.mem_cons_of_mem y hz)) ?_
        (keysBelow_overRecord (hx.mono (by omega)) (show 2 ^ 64 + n < 2 ^ 64 + (n + 1) by omega))
      by_cases hy : y.covers s a = true
      · exact overRecord_gives hy (hvs y List.mem_cons_self hy) hx
      · rw [overRecord_eq, if_neg hy, hxb]
  have hbefore := keysBelow_topped (s := s) (a := a) (n := 0) us hx
  rw [topped_append, topped_cons]
  exact hafter vs _ _ hvs (overRecord_gives hc hr hbefore)
    (keysBelow_overRecord (hbefore.mono (by omega)) (show 2 ^ 64 + (0 + us.length) < 2 ^ 64 + (0 + us.length + 1) by omega))

/-- Records that a change leaves as they were at byte `a` show it alike. -/
theorem topped_map {f : LogRec → LogRec} {us : List LogRec} (hf : ∀ r ∈ us, ∀ k x, overRecord s a k (f r) x = overRecord s a k r x) :
    topped s a n (us.map f) x = topped s a n us x := by
  induction us generalizing n x with
  | nil => rfl
  | cons r us ih =>
    rw [List.map_cons, topped_cons, topped_cons, hf r List.mem_cons_self]
    exact ih (fun y hy => hf y (List.mem_cons_of_mem r hy))

theorem overRecord_masked {k : Key} {r : LogRec} (hr : r.covers s a = true → recByte r.mask a = 0#8) : (overRecord s a k r x).1 = x.1 := by
  rw [overRecord_eq]
  split
  next hc => rw [hr hc, mergeBits_masked]
  next => rfl

end

theorem keysBelow_beneath {s : State} {comp m a : Nat} (hkeys : ∀ k ∈ keysAtMoment s m a, k.time < 2 ^ 64)
    (hlog : ∀ r ∈ published s.core, r.time.getD 0 < 2 ^ 64) (hreplay : ∀ r ∈ s.core.replay, r.2.time.getD 0 < 2 ^ 64) :
    KeysBelow (2 ^ 64) (beneath s comp m a).2 := by
  unfold beneath
  refine List.foldlRecOn (motive := fun x : Byte × List Key => KeysBelow (2 ^ 64) x.2) _ _ ?_ (fun x hx r hr => keysBelow_overRecord hx (hlog r hr))
  refine List.foldlRecOn (motive := fun x : Byte × List Key => KeysBelow (2 ^ 64) x.2) _ _ ?_ (fun x hx r hr => keysBelow_overRecord hx (hreplay r hr))
  exact keysBelow_of_mem (by decide) hkeys

theorem beneath_congr {s t : State} {comp m a : Nat} (hd : migrationsOf t = migrationsOf s) (hcur : t.cur = s.cur)
    (hpub : published t.core = published s.core) (hreplay : t.core.replay = s.core.replay) (hbyte : shownByte t comp m a = shownByte s comp m a)
    (hkeys : keysAtMoment t m a = keysAtMoment s m a) : beneath t comp m a = beneath s comp m a := by
  simp only [beneath, Views.overRecord_of_migrations hd, hcur, hpub, hreplay, hbyte, hkeys]

/-! ### A write into the log (R334, R335) -/

/-- The record takes what its context stores into its block: it is one of the block, not yet published. -/
def joins (ctx block : Nat) (r : LogRec) : Bool := r.block == block && r.time.isNone && r.ctx == ctx

/-- A record with the bytes of a store merged in. -/
def joined (data mask : BitVec 128) (mark : Bool) (r : LogRec) : LogRec :=
  { r with data := (r.data &&& ~~~mask) ||| (data &&& mask), mask := r.mask ||| mask, poison := r.poison || mark }

def joinAll (ctx block : Nat) (data mask : BitVec 128) (mark : Bool) (r : LogRec) : LogRec := if joins ctx block r then joined data mask mark r else r

/-- The record of a store into a block of which no record takes it. -/
def freshRecord (ctx block : Nat) (data mask : BitVec 128) (comp : Nat) (mark : Bool) : LogRec :=
  { block := block, data := data &&& mask, mask := mask, ctx := ctx, comp := comp, poison := mark }

/-- The log after a store. -/
def logAfter (ctx block : Nat) (data mask : BitVec 128) (comp : Nat) (mark : Bool) (log : List LogRec) : List LogRec :=
  if log.any (joins ctx block) then log.map (joinAll ctx block data mask mark) else log ++ [freshRecord ctx block data mask comp mark]

section
variable {c : Core} {ctx block comp : Nat} {data mask : BitVec 128} {mark : Bool}

theorem logWrite_eq (hroom : c.log.length < 8192) :
    logWrite c ctx block data mask comp mark = some { c with log := logAfter ctx block data mask comp mark c.log } := by
  unfold logWrite logAfter
  by_cases hany : c.log.any (joins ctx block) = true
  · rw [if_pos hany]
    exact if_pos hany
  · rw [if_neg hany]
    exact (if_neg hany).trans (if_neg (by omega))

theorem joinAll_ctx (r : LogRec) : (joinAll ctx block data mask mark r).ctx = r.ctx := by unfold joinAll; split <;> rfl
theorem joinAll_time (r : LogRec) : (joinAll ctx block data mask mark r).time = r.time := by unfold joinAll; split <;> rfl
theorem joinAll_block (r : LogRec) : (joinAll ctx block data mask mark r).block = r.block := by unfold joinAll; split <;> rfl

theorem joinAll_covers (s : State) (r : LogRec) (a : Nat) : (joinAll ctx block data mask mark r).covers s a = r.covers s a := by
  simp only [LogRec.covers, joinAll_block]

theorem joinAll_published {r : LogRec} (h : r.time.isSome = true) : joinAll ctx block data mask mark r = r := by
  obtain ⟨time, ht⟩ := Option.isSome_iff_exists.1 h
  simp [joinAll, joins, ht]

theorem own_joined : own { c with log := c.log.map (joinAll ctx block data mask mark) } = (own c).map (joinAll ctx block data mask mark) := by
  simp only [own, List.filter_map, Function.comp_def, joinAll_ctx]

theorem own_fresh (hctx : c.ctx = some ctx) :
    own { c with log := c.log ++ [freshRecord ctx block data mask comp mark] } = own c ++ [freshRecord ctx block data mask comp mark] := by
  simp [own, List.filter_append, freshRecord, hctx]

/-- A store publishes nothing. -/
theorem published_after (hctx : c.ctx = some ctx) : published { c with log := logAfter ctx block data mask comp mark c.log } = published c := by
  unfold logAfter
  split
  · rw [published, own_joined, List.filter_map]
    refine (List.map_congr_left (fun r hr => ?_)).trans (List.map_id _) |>.trans ?_
    · have hr' := (List.mem_filter.1 hr).2
      rw [Function.comp_apply] at hr'
      have hsome : r.time.isSome = true := by
        rw [← joinAll_time (ctx := ctx) (block := block) (data := data) (mask := mask) (mark := mark) r]
        exact (Bool.and_eq_true_iff.1 hr').1
      rw [joinAll_published hsome]
      rfl
    · refine List.filter_congr (fun r _ => ?_)
      rw [Function.comp_apply, joinAll_time]
      by_cases hsome : r.time.isSome = true
      · rw [joinAll_published hsome]
      · rw [Bool.not_eq_true] at hsome
        rw [hsome, Bool.false_and, Bool.false_and]
  · rw [published, own_fresh hctx, List.filter_append, published]
    exact List.append_nil _

theorem unpublished_joined : unpublished { c with log := c.log.map (joinAll ctx block data mask mark) } = (unpublished c).map (joinAll ctx block data mask mark) := by
  simp only [unpublished, own_joined, List.filter_map, Function.comp_def, joinAll_time]

theorem unpublished_fresh (hctx : c.ctx = some ctx) : unpublished { c with log := c.log ++ [freshRecord ctx block data mask comp mark] } =
    unpublished c ++ [freshRecord ctx block data mask comp mark] := by
  rw [unpublished, own_fresh hctx, List.filter_append, unpublished]
  rfl

end

/-! ### What write-backs leave of the view -/

theorem flatMap_place {α β : Type} [DecidableEq α] {d : α} {g : α → List β} (hd : g d = []) (m : Sparse α) {k : Nat} {v : α} (hv : v ≠ d)
    (h : g v = g (look d m k)) : (place d m k v).flatMap (fun p => g p.2) = m.flatMap (fun p => g p.2) := by
  induction m with
  | nil =>
    rw [place, if_neg hv, List.flatMap_cons, h, look, hd]
    rfl
  | cons p m ih =>
    obtain ⟨j, w⟩ := p
    rw [look] at h
    rw [place, if_neg hv]
    by_cases hlt : k < j
    · rw [if_neg (by omega), if_pos hlt, hd] at h
      rw [if_pos hlt, List.flatMap_cons, h]
      rfl
    · rw [if_neg hlt]
      by_cases hkj : k = j
      · rw [if_pos hkj] at h
        rw [if_pos hkj, if_neg hv, List.flatMap_cons, List.flatMap_cons, h]
      · rw [if_neg hkj, if_neg hlt] at h
        rw [if_neg hkj, List.flatMap_cons, List.flatMap_cons, ih h]

theorem place_ne_nil {α : Type} [DecidableEq α] {d : α} (m : Sparse α) (k : Nat) {v : α} (hv : v ≠ d) : place d m k v ≠ [] := by
  intro h
  have hlook := look_place_self d m k v
  rw [h] at hlook
  exact hv hlook.symm

/-- A change of a die that leaves its migrations, and something in the die. -/
theorem migrationsOf_modDie {s : State} {d : Nat} {f : Die → Die} (hm : (f (dieAt s d)).migrations = (dieAt s d).migrations) (hne : f (dieAt s d) ≠ {}) :
    migrationsOf (modDie s d f) = migrationsOf s := flatMap_place (g := Die.migrations) rfl s.dies hne hm

theorem migrationsOf_wroteLine (s : State) (pa : Nat) : migrationsOf (wroteLine s pa) = migrationsOf s := by
  unfold wroteLine
  split
  · rfl
  · split
    next hline =>
      refine migrationsOf_modDie rfl (fun hdie => ?_)
      refine place_ne_nil (d := ({} : Slice)) _ _ (fun hslice => ?_) (congrArg Die.slices hdie)
      have hnil := congrArg Slice.lines hslice
      obtain ⟨l, hl, -⟩ := List.any_eq_true.1 hline
      exact List.ne_nil_of_mem hl (List.map_eq_nil_iff.1 hnil)
    · unfold promoWrite
      split <;> rfl

/-- What no step of an overwriting changes, the overwriting leaves. -/
theorem overwrite_same {β : Type} {g : State → β} (hmoment : ∀ s, g (newMoment s) = g s) (hmark : ∀ s k b, g (setMark s k b) = g s)
    (hline : ∀ s pa, g (wroteLine s pa) = g s) (hpoke : ∀ s a b, g (pokeByte s a b (keysAt s a)) = g s) (s : State) (ws : List (Nat × Byte)) :
    g (overwrite s ws) = g s := by
  have hlines (as : List Nat) (s : State) : g (wroteLines s as) = g s := foldl_same (g := g) (fun s l => hline s (128 * l)) _ s
  have hmarks (gs : List Nat) (s : State) : g (setMarks s gs false) = g s := foldl_same (g := g) (f := fun s k => setMark s k false) (fun s k => hmark s k false) gs s
  refine (foldl_same (g := g) (f := fun s (w : Nat × Byte) => pokeByte s w.1 w.2 (keysAt s w.1)) (fun s w => hpoke s w.1 w.2) ws _).trans ?_
  rw [hlines, clearPoison, hmarks, hmoment]

/-- So does the write-back of a line. -/
theorem writeBack_same {β : Type} {g : State → β} (hmoment : ∀ s, g (newMoment s) = g s) (hmark : ∀ s k b, g (setMark s k b) = g s)
    (hline : ∀ s pa, g (wroteLine s pa) = g s) (hpoke : ∀ s a b, g (pokeByte s a b (keysAt s a)) = g s)
    (hout : ∀ (s : State) (d : Nat) (l : L1Line) (f : Die → List L1Line), g (modDie s d (fun x => { x with outLines := l :: f x })) = g s)
    (s : State) (l : L1Line) : g (writeBack s l) = g s := by
  unfold writeBack
  split
  · rfl
  · split
    · refine (foldl_same (g := g) (f := fun s k => setMark s k true) (fun s k => hmark s k true) l.marks _).trans ?_
      exact overwrite_same hmoment hmark hline hpoke s l.dirty
    · split
      · exact hout ..
      · rfl

theorem migrationsOf_writeBack (s : State) (l : L1Line) : migrationsOf (writeBack s l) = migrationsOf s :=
  writeBack_same (fun _ => rfl) (fun _ _ _ => rfl) migrationsOf_wroteLine (fun _ _ _ => rfl)
    (fun _ _ _ _ => migrationsOf_modDie rfl (fun hdie => List.cons_ne_nil _ _ (congrArg Die.outLines hdie))) s l

/-- Which clusters of a die are fused. -/
theorem fused_writeBack (s : State) (l : L1Line) (d : Nat) : (dieAt (writeBack s l) d).fused = (dieAt s d).fused := by
  have hdie (s : State) (k : Nat) (f : Die → Die) (hf : ∀ x, (f x).fused = x.fused) : (dieAt (modDie s k f) d).fused = (dieAt s d).fused := by
    rw [dieAt_modDie]
    split
    next h => rw [hf, h]
    next => rfl
  refine writeBack_same (g := fun s => (dieAt s d).fused) (fun _ => rfl) (fun _ _ _ => rfl) (fun s pa => ?_) (fun _ _ _ => rfl)
    (fun s k l f => hdie s k _ (fun _ => rfl)) s l
  unfold wroteLine promoWrite
  repeat' split
  · rfl
  · exact hdie s _ _ (fun _ => rfl)
  · rfl
  · rfl

/-! ### Keys -/

theorem look_placeAll {α : Type} [DecidableEq α] (d : α) (vs : List α) (m : Sparse α) (k j : Nat) :
    look d (placeAll d m k vs) j = if k ≤ j ∧ j < k + vs.length then vs.getD (j - k) d else look d m j := by
  induction vs generalizing m k with
  | nil => rw [placeAll, if_neg (by simp only [List.length_nil]; omega)]
  | cons v vs ih =>
    rw [placeAll, ih, look_place, List.length_cons]
    by_cases hj : j = k
    · rw [if_neg (by omega), if_pos hj, if_pos (by omega), hj, Nat.sub_self]
      rfl
    · by_cases hin : k ≤ j ∧ j < k + (vs.length + 1)
      · rw [if_pos (by omega), if_pos hin, show j - k = j - (k + 1) + 1 by omega, List.getD_cons_succ]
      · rw [if_neg (by omega), if_neg hj, if_neg hin]

/-- Entries set to what they are change nothing. -/
theorem look_placeAll_lookAll {α : Type} [DecidableEq α] (d : α) (m : Sparse α) (k n j : Nat) : look d (placeAll d m k (lookAll d m k n)) j = look d m j := by
  rw [look_placeAll]
  split
  next hin =>
    have hlt : j - k < n := by simpa [lookAll, Nat.sub_lt_iff_lt_add hin.1, Nat.add_comm] using hin.2
    simp [lookAll, hlt, Nat.add_sub_cancel' hin.1]
  next => rfl

/-- A byte poked with the keys it has keeps them. -/
theorem keysAt_pokeByte (s : State) (a : Nat) (b : Byte) (c : Nat) : keysAt (pokeByte s a b (keysAt s a)) c = keysAt s c :=
  List.map_congr_left (fun i _ => look_placeAll_lookAll {} s.keys (8 * a) 8 (8 * c + i))

/-- A byte poked with the keys it has keeps, for every moment, the keys it had then. -/
theorem keysAtMoment_pokeByte (s : State) (a : Nat) (b : Byte) (m c : Nat) : keysAtMoment (pokeByte s a b (keysAt s a)) m c = keysAtMoment s m c := by
  have hpast : (pokeByte s a b (keysAt s a)).past = { moment := s.now, addr := a, byte := memByte s a, keys := keysAt s a } :: s.past := rfl
  rw [keysAtMoment, keysAt_pokeByte, hpast, List.foldl_cons, keysAtMoment]
  split
  next h =>
    obtain ⟨rfl, -⟩ := h
    rfl
  next => rfl

theorem keysPast_wroteLine (s : State) (pa : Nat) : (wroteLine s pa).keys = s.keys ∧ (wroteLine s pa).past = s.past := by
  unfold wroteLine promoWrite
  repeat' split
  all_goals exact ⟨rfl, rfl⟩

theorem keysAt_writeBack (s : State) (l : L1Line) (a : Nat) : keysAt (writeBack s l) a = keysAt s a :=
  writeBack_same (g := fun s => keysAt s a) (fun _ => rfl) (fun _ _ _ => rfl) (fun s pa => by rw [keysAt, (keysPast_wroteLine s pa).1, keysAt])
    (fun s b x => keysAt_pokeByte s b x a) (fun _ _ _ _ => rfl) s l

theorem keysAtMoment_writeBack (s : State) (l : L1Line) (m a : Nat) : keysAtMoment (writeBack s l) m a = keysAtMoment s m a := by
  refine writeBack_same (g := fun s => keysAtMoment s m a) (fun _ => rfl) (fun _ _ _ => rfl) (fun s pa => ?_) (fun s b x => keysAtMoment_pokeByte s b x m a)
    (fun _ _ _ _ => rfl) s l
  obtain ⟨hkeys, hpast⟩ := keysPast_wroteLine s pa
  rw [keysAtMoment, keysAt, hkeys, hpast, keysAtMoment, keysAt]

/-! ### Copies of other classes dropped -/

theorem l1Drop_same {β : Type} {g : State → β} (hmod : ∀ s k ls, g (modCoreAt s k (fun c => { c with l1 := ls })) = g s) (hback : ∀ s l, g (writeBack s l) = g s)
    (s : State) (line : Nat) (cls : Coh) : g (l1Drop s line cls) = g s := by
  rcases l1Drop_eq s line cls with h | ⟨kept, out, -, -, h⟩
  · rw [h]
  · rw [h, foldl_same hback, hmod]

theorem migrationsOf_l1Drop (s : State) (line : Nat) (cls : Coh) : migrationsOf (l1Drop s line cls) = migrationsOf s :=
  l1Drop_same (fun s k ls => by unfold modCoreAt; split <;> rfl) migrationsOf_writeBack s line cls

theorem keysAtMoment_l1Drop (s : State) (line : Nat) (cls : Coh) (m a : Nat) : keysAtMoment (l1Drop s line cls) m a = keysAtMoment s m a :=
  l1Drop_same (g := fun s => keysAtMoment s m a) (fun s k ls => by unfold modCoreAt; split <;> rfl) (fun s l => keysAtMoment_writeBack s l m a) s line cls

theorem keysAt_l1Drop (s : State) (line : Nat) (cls : Coh) (a : Nat) : keysAt (l1Drop s line cls) a = keysAt s a :=
  l1Drop_same (g := fun s => keysAt s a) (fun s k ls => by unfold modCoreAt; split <;> rfl) (fun s l => keysAt_writeBack s l a) s line cls

theorem l1Drop_oLines (s : State) (line : Nat) (cls : Coh) : (l1Drop s line cls).oLines = s.oLines :=
  l1Drop_same (g := State.oLines) (fun s k ls => by unfold modCoreAt; split <;> rfl)
    (fun s l => (writeBack_onlyMemory s l).keeps State.oLines (fun _ _ _ _ _ _ _ _ _ => rfl)) s line cls

theorem l1Drop_cur (s : State) (line : Nat) (cls : Coh) : (l1Drop s line cls).cur = s.cur :=
  l1Drop_same (g := State.cur) (fun s k ls => by unfold modCoreAt; split <;> rfl)
    (fun s l => (writeBack_onlyMemory s l).keeps State.cur (fun _ _ _ _ _ _ _ _ _ => rfl)) s line cls

theorem l1Drop_keeps {β : Type} {v : Core → β} (hv : ∀ (c : Core) (ls : List L1Line), v { c with l1 := ls } = v c) (s : State) (line : Nat) (cls : Coh) :
    v (l1Drop s line cls).core = v s.core :=
  l1Drop_same (g := fun s => v s.core) (fun s k ls => Accesses.coreAt_same (fun c => hv c ls) s k) (fun s l => congrArg v (Accesses.writeBack_core s l)) s line cls

/-- Where the L1 holds the line under no other class, nothing is dropped. -/
theorem l1Drop_plain {s : State} {line : Nat} {cls : Coh} (h : ∀ l ∈ (coreAt s (l1Holder s line)).l1, l.line = line → l.cls = cls) : l1Drop s line cls = s := by
  unfold l1Drop
  dsimp only
  refine if_pos ?_
  rw [List.isEmpty_iff, List.filter_eq_nil_iff]
  intro l hl
  by_cases hline : l.line = line
  · simp [h l hl hline]
  · simp [hline]

end Sys2Proof.Laws.Records
end

section
/-!
PROOFS. ST and ST.ln to logged pages (R184, R185, R331, R334, R338): first part of what settles O19.
-/
namespace Sys2Proof.Laws.LoggedStores

open Sys2Proof.Machine
open Sys2Proof.Laws.Bytes
open Sys2Proof.Laws.Records
open Sys2Proof.Laws.WriteBacks
open Sys2Proof.Laws.Views (migrationsOf)

/-! ### The instruction -/

section
variable {h : Hdr} {d a : Reg} {t : Ty} {o : Src2} {v : Word} {s p q : State} {r : Instr × Base}

/-- A form of ST that issues with its address comes to its body. -/
theorem exec_store (hi : Issues s h (src2Locs o) p) (hr : r ∈ ([(.st h d a t o, .reg a), (.stLn h d a t o, .nest a)] : List (Instr × Base)))
    (ha : Addressed p r.2 o v) : exec r.1 s = .next (finish s h (nextPc s h (src2Len o)) (stBody d t v.toNat p)) := by
  obtain ⟨hin, hclean, w, hw, rfl⟩ := ha
  have hform : exec r.1 s = storeForm h d r.2 t o s := by
    simp only [List.mem_cons, List.not_mem_nil, or_false] at hr
    rcases hr with rfl | rfl <;> rfl
  rw [hform, storeForm, issueOut_of_issues hi, Moves.withBase_of_clean hin hclean hw]

/-- The bytes that an ST stores. -/
def valueBytes (p : State) (d : Reg) (t : Ty) : List Byte := leBytes (widthOf t / 8) (readG p .a d.toNat).toNat

theorem getD_valueBytes {i : Nat} (hi : i < widthOf t / 8) :
    (valueBytes p d t).getD i 0 = BitVec.ofNat 8 ((readG p .a d.toNat).toNat / 256 ^ i) := getD_leBytes _ hi

@[simp] theorem length_valueBytes : (valueBytes p d t).length = widthOf t / 8 := length_leBytes ..

/-- An ST to memory of the package that may go on is the store of its bytes under the page's class. -/
theorem stBody_stores {e : TlbEntry} {pa : Nat} (hin : mustWait p.core .a [.g d.toNat] = false) (hclean : anyPoison p.core [.g d.toNat] = false)
    (hpage : accessPage p v.toNat (widthOf t / 8) { w := true } = .ok e pa) (hcls : classOf pa < 2)
    (horder : orderHeld p.core (isOrdered e pa) = false)
    (hq : storeMem (touchTlb p e) 0 e 0 (wholeBytes pa (valueBytes p d t)) false = some q) : stBody d t v.toNat p = .done q := by
  have hreach : reachFault p v.toNat pa (widthOf t / 8) = none := by
    unfold reachFault
    split
    · omega
    · omega
    · rfl
  have hreg : (classOf pa == 3) = false := by simp; omega
  unfold valueBytes at hq
  simp [stBody, typeBytes, hin, hclean, hpage, hreach, horder, storeBytes, hreg, hq]

theorem finish_done (s t : State) (h : Hdr) (next : Nat) : finish s h next (.done t) = finishNow t h next := rfl

/-- What the statements say of the walk after a store that has left it. -/
theorem store_finishes (hwalk : Finishes.walkOf q = Finishes.walkOf p) (hg : q.core.g = p.core.g) (pc : Nat) :
    WalkedTo p (finishNow q h pc) h p.core.ck pc ∧ Pushed p (finishNow q h pc) h ∧ (finishNow q h pc).core.g = p.core.g :=
  ⟨Finishes.walkedTo_of_walkOf hwalk (Squash.finishNow_walked q h pc), Finishes.pushed_of_walkOf hwalk (Squash.finishNow_pushed q h pc),
    (Finishes.core_of_onlyWalked Core.g (fun _ _ _ _ _ _ _ => rfl) (finishNow_onlyWalked q h pc)).trans hg⟩

end

/-! ### The store into the log -/

section
variable {p : State} {e : TlbEntry} {ctx pa : Nat} {bs : List Byte}

/-- The state with the bytes logged, before the line's other copies are dropped. -/
def loggedAt (p : State) (e : TlbEntry) (ctx pa : Nat) (bs : List Byte) : State :=
  modCore (touchTlb p e) (fun c => { c with
    log := logAfter ctx (16 * (pa / 16)) (blockBits (wholeBytes pa bs)).1 (blockBits (wholeBytes pa bs)).2 (leafComp e.leaf) false c.log })

theorem storeMem_logged (hctx : p.core.ctx = some ctx) (hroom : p.core.log.length < 8192) (hlen : 0 < bs.length) (hblock : pa % 16 + bs.length ≤ 16)
    (hcls : classOf pa < 2) (hleaf : leafCoh e.leaf = .l) :
    storeMem (touchTlb p e) 0 e 0 (wholeBytes pa bs) false = some (l1Drop (loggedAt p e ctx pa bs) (pa / 128) .l) := by
  obtain ⟨b, ws, hws⟩ := wholeBytes_cons pa hlen
  have hlent : (classOf pa == 2) = false := by simp; omega
  have h16 := groupBy_wholeBytes (n := 16) hlen hblock
  have h128 := groupBy_wholeBytes (n := 128) (pa := pa) hlen (by omega)
  have hlog := logWrite_eq (c := (touchTlb p e).core) (ctx := ctx) (block := 16 * (pa / 16)) (comp := leafComp e.leaf)
    (data := (blockBits (wholeBytes pa bs)).1) (mask := (blockBits (wholeBytes pa bs)).2) (mark := false) hroom
  have hctx' : (touchTlb p e).core.ctx.getD 0 = ctx := by
    change p.core.ctx.getD 0 = ctx
    rw [hctx]
    rfl
  rw [hws] at h16 h128 hlog ⊢
  unfold storeMem
  dsimp only
  rw [hlent, hleaf]
  dsimp only
  rw [h16, hctx']
  simp only [logAll, hlog, h128, List.foldl_cons, List.foldl_nil, Bool.false_eq_true, if_false]
  rw [loggedAt, hws]
  rfl

theorem loggedAt_core {β : Type} {g : Core → β} (hg : ∀ (c : Core) (l : List LogRec) (u : List TlbEntry), g { c with log := l, tlb := u } = g c) :
    g (loggedAt p e ctx pa bs).core = g p.core := hg p.core _ _

theorem loggedAt_l1 (k : Nat) : (coreAt (loggedAt p e ctx pa bs) k).l1 = (coreAt p k).l1 := by
  by_cases hk : k = p.cur
  · rw [show coreAt p k = p.core from if_pos hk, show coreAt (loggedAt p e ctx pa bs) k = (loggedAt p e ctx pa bs).core from if_pos hk]
    exact loggedAt_core (fun _ _ _ => rfl)
  · rw [show coreAt p k = look {} p.others k from if_neg hk, show coreAt (loggedAt p e ctx pa bs) k = look {} p.others k from if_neg hk]

/-- Byte `pa + i` of a record that has taken the store is the byte stored there. -/
theorem gives_joined (hblock : pa % 16 + bs.length ≤ 16) {i : Nat} (hi : i < bs.length) (mark : Bool) (r : LogRec) :
    Gives (joined (blockBits (wholeBytes pa bs)).1 (blockBits (wholeBytes pa bs)).2 mark r) (pa + i) (bs.getD i 0) := by
  obtain ⟨hdata, hmask⟩ := recByte_stored hblock hi
  constructor
  · simp only [joined, recByte_or, recByte_and, recByte_not, hdata, hmask]
    refine BitVec.eq_of_getLsbD_eq (fun j hj => ?_)
    have hone : (255#8).getLsbD j = true := by interval_cases j <;> rfl
    simp only [BitVec.getLsbD_or, BitVec.getLsbD_and, BitVec.getLsbD_not, hone, hj, decide_true, Bool.not_true, Bool.and_false, Bool.false_or, Bool.and_true]
  · rw [joined, recByte_or, hmask]
    exact BitVec.or_allOnes

theorem gives_fresh (hblock : pa % 16 + bs.length ≤ 16) {i : Nat} (hi : i < bs.length) (ctx block comp : Nat) (mark : Bool) :
    Gives (freshRecord ctx block (blockBits (wholeBytes pa bs)).1 (blockBits (wholeBytes pa bs)).2 comp mark) (pa + i) (bs.getD i 0) := by
  obtain ⟨hdata, hmask⟩ := recByte_stored hblock hi
  refine ⟨?_, hmask⟩
  rw [freshRecord, recByte_and, hdata, hmask]
  exact BitVec.and_allOnes

/-- A byte outside the store that a record of the block covers is as it was there. -/
theorem overRecord_joinAll {s : State} {block : Nat} {data mask : BitVec 128} {mark : Bool} {a : Nat} {r : LogRec}
    (hmask : block = a / 16 * 16 → recByte mask a = 0#8) (hcov : r.covers s a = true → r.block = a / 16 * 16) (k : Key) (x : Byte × List Key) :
    overRecord s a k (joinAll ctx block data mask mark r) x = overRecord s a k r x := by
  rw [overRecord_eq, overRecord_eq, joinAll_covers]
  split
  next hc =>
    unfold joinAll
    split
    next hj =>
      have hblock : block = a / 16 * 16 := by
        have hb : r.block = block := by simpa using (Bool.and_eq_true_iff.1 (Bool.and_eq_true_iff.1 hj).1).1
        rw [← hb, hcov hc]
      simp only [joined, recByte_or, recByte_and, recByte_not, hmask hblock, BitVec.not_zero, BitVec.and_allOnes, BitVec.and_zero, BitVec.or_zero]
    next => rfl
  next => rfl

end

/-! ### The view after the store -/

section
variable {p q : State} {e : TlbEntry} {ctx pa comp m : Nat} {bs : List Byte}

/-- A state shows the logged bytes: `q` has the core's records of the store, and the migrations and keys of `p`. -/
structure ShowsLog (p q : State) (e : TlbEntry) (ctx pa : Nat) (bs : List Byte) : Prop where
  migrations : migrationsOf q = migrationsOf p
  cur : q.cur = p.cur
  log : q.core.log = (loggedAt p e ctx pa bs).core.log
  ctx : q.core.ctx = p.core.ctx
  replay : q.core.replay = p.core.replay
  keys : ∀ m a, keysAtMoment q m a = keysAtMoment p m a

theorem showsLog_loggedAt : ShowsLog p (loggedAt p e ctx pa bs) e ctx pa bs := ⟨rfl, rfl, rfl, rfl, rfl, fun _ _ => rfl⟩

theorem ShowsLog.l1Drop (h : ShowsLog p q e ctx pa bs) (line : Nat) (cls : Coh) : ShowsLog p (l1Drop q line cls) e ctx pa bs where
  migrations := (migrationsOf_l1Drop ..).trans h.migrations
  cur := (l1Drop_cur ..).trans h.cur
  log := (l1Drop_keeps (v := Core.log) (fun _ _ => rfl) ..).trans h.log
  ctx := (l1Drop_keeps (v := Core.ctx) (fun _ _ => rfl) ..).trans h.ctx
  replay := (l1Drop_keeps (v := Core.replay) (fun _ _ => rfl) ..).trans h.replay
  keys m a := (keysAtMoment_l1Drop ..).trans (h.keys m a)

/-- The core's records as the store has left them. -/
def coreLogged (p : State) (e : TlbEntry) (ctx pa : Nat) (bs : List Byte) : Core :=
  { p.core with log := (loggedAt p e ctx pa bs).core.log }

theorem ShowsLog.unpublished (h : ShowsLog p q e ctx pa bs) : unpublished q.core = unpublished (coreLogged p e ctx pa bs) := by
  simp only [Records.unpublished, own, h.log, h.ctx, coreLogged]

theorem ShowsLog.published (h : ShowsLog p q e ctx pa bs) (hctx : p.core.ctx = some ctx) : published q.core = published p.core := by
  have hq : Records.published q.core = Records.published (coreLogged p e ctx pa bs) := by simp only [Records.published, own, h.log, h.ctx, coreLogged]
  exact hq.trans (published_after hctx)

/-- The stored bytes are what the core's view shows, whatever is beneath. -/
theorem view_stored (h : ShowsLog p q e ctx pa bs) (hctx : p.core.ctx = some ctx) (hblock : pa % 16 + bs.length ≤ 16) {i : Nat} (hi : i < bs.length)
    (htimes : TimesBelow p m (pa + i)) (hlatest : LatestOf p (pa + i)) : viewByte q comp m (pa + i) = bs.getD i 0 := by
  obtain ⟨hkeys, hlog, hreplay⟩ := htimes
  have hbelow : KeysBelow (2 ^ 64) (beneath q comp m (pa + i)).2 := by
    refine keysBelow_beneath (by rw [h.keys]; exact hkeys) ?_ (by rw [h.replay]; exact hreplay)
    rw [h.published hctx]
    exact fun r hr => hlog r (List.mem_of_mem_filter (List.mem_of_mem_filter hr))
  have hplace : (pa + i) / 16 * 16 = 16 * (pa / 16) := by omega
  have hcovers {r : LogRec} (hr : r.block = 16 * (pa / 16)) : r.covers q (pa + i) = true := by simp [LogRec.covers, hr, hplace]
  rw [viewByte_eq, h.unpublished]
  by_cases hany : p.core.log.any (joins ctx (16 * (pa / 16))) = true
  · obtain ⟨r, hr, hjoins⟩ := List.any_eq_true.1 hany
    obtain ⟨l, l', hsplit⟩ := List.append_of_mem hr
    have hlogged : (coreLogged p e ctx pa bs) = { p.core with log := p.core.log.map (joinAll ctx (16 * (pa / 16)) (blockBits (wholeBytes pa bs)).1
        (blockBits (wholeBytes pa bs)).2 false) } := congrArg (fun l => { p.core with log := l }) (if_pos hany)
    have hparts := hjoins
    simp only [joins, Bool.and_eq_true, beq_iff_eq, Option.isNone_iff_eq_none] at hparts
    obtain ⟨⟨hrb, hrt⟩, hrc⟩ := hparts
    have hun : Records.unpublished p.core = Records.unpublished { p.core with log := l } ++ r :: Records.unpublished { p.core with log := l' } := by
      simp [Records.unpublished, own, hsplit, List.filter_append, hctx, hrc, hrt]
    rw [hlogged, unpublished_joined, hun, List.map_append, List.map_cons]
    refine topped_gives hbelow (hcovers ((joinAll_block r).trans hrb)) ?_ (fun y hy hcy => ?_)
    · rw [joinAll, if_pos hjoins]
      exact gives_joined hblock hi false r
    · obtain ⟨x, hx, rfl⟩ := List.mem_map.1 hy
      obtain ⟨hxown, hxt⟩ := List.mem_filter.1 hx
      obtain ⟨hxm, hxc⟩ := List.mem_filter.1 hxown
      rw [Option.isNone_iff_eq_none] at hxt
      rw [joinAll_covers, Views.covers_of_migrations h.migrations] at hcy
      have hxb : x.block = 16 * (pa / 16) := (hlatest l r l' hsplit hrt (hrb.trans hplace.symm) x hxm hxt hcy).trans hplace
      have hxj : joins ctx (16 * (pa / 16)) x = true := by
        have hxc' : x.ctx = ctx := by simpa [hctx] using hxc
        simp [joins, hxb, hxt, hxc']
      rw [joinAll, if_pos hxj]
      exact gives_joined hblock hi false x
  · have hlogged : (coreLogged p e ctx pa bs) = { p.core with log := p.core.log ++ [freshRecord ctx (16 * (pa / 16)) (blockBits (wholeBytes pa bs)).1
        (blockBits (wholeBytes pa bs)).2 (leafComp e.leaf) false] } := congrArg (fun l => { p.core with log := l }) (if_neg hany)
    rw [hlogged, unpublished_fresh hctx]
    exact topped_gives hbelow (hcovers rfl) (gives_fresh hblock hi ctx _ _ false) (fun y hy => absurd hy List.not_mem_nil)

/-- Where no page has been moved, a record covers the bytes of its own block. -/
theorem covers_plain (hmoved : ∀ a, movedFrom p a = none) (r : LogRec) (a : Nat) : r.covers p a = true ↔ r.block = a / 16 * 16 := by
  have hhome (a : Nat) : homeOf p a = a := by
    unfold homeOf movesAll
    cases (p.dies.flatMap (fun d => d.2.migrations)).length with
    | zero => rfl
    | succ n => rw [movesOf, hmoved]; rfl
  simp [LogRec.covers, hhome]

/-- The other bytes are as they were. -/
theorem view_other (h : ShowsLog p q e ctx pa bs) (hctx : p.core.ctx = some ctx) (hblock : pa % 16 + bs.length ≤ 16) (hmoved : ∀ a, movedFrom p a = none)
    (hbyte : ∀ a, shownByte q comp m a = shownByte p comp m a) {b : Nat} (hb : b < pa ∨ pa + bs.length ≤ b) :
    viewByte q comp m b = viewByte p comp m b := by
  have hmoved' (a : Nat) : movedFrom q a = none := (Views.movedFrom_of_migrations h.migrations a).trans (hmoved a)
  have hmask : 16 * (pa / 16) = b / 16 * 16 → recByte (blockBits (wholeBytes pa bs)).2 b = 0#8 := fun hsame => recByte_other hblock (by omega) hb
  have hbeneath : beneath q comp m b = beneath p comp m b :=
    beneath_congr h.migrations h.cur (h.published hctx) h.replay (hbyte b) (h.keys m b)
  have htopped (us : List LogRec) (x : Byte × List Key) : topped q b 0 us x = topped p b 0 us x := by
    simp only [topped, Views.overRecord_of_migrations h.migrations]
  rw [viewByte_eq, viewByte_eq, h.unpublished, hbeneath, htopped]
  by_cases hany : p.core.log.any (joins ctx (16 * (pa / 16))) = true
  · have hlogged : (coreLogged p e ctx pa bs) = { p.core with log := p.core.log.map (joinAll ctx (16 * (pa / 16)) (blockBits (wholeBytes pa bs)).1
        (blockBits (wholeBytes pa bs)).2 false) } := congrArg (fun l => { p.core with log := l }) (if_pos hany)
    rw [hlogged, unpublished_joined, topped_map (fun r _ k x => overRecord_joinAll hmask (fun hc => (covers_plain hmoved r b).1 hc) k x)]
  · have hlogged : (coreLogged p e ctx pa bs) = { p.core with log := p.core.log ++ [freshRecord ctx (16 * (pa / 16)) (blockBits (wholeBytes pa bs)).1
        (blockBits (wholeBytes pa bs)).2 (leafComp e.leaf) false] } := congrArg (fun l => { p.core with log := l }) (if_neg hany)
    rw [hlogged, unpublished_fresh hctx, topped_append, topped_cons, topped_nil]
    exact overRecord_masked (fun hc => hmask ((covers_plain hmoved _ b).1 hc))

end

/-! ### The statement -/

theorem storesToLoggedPages : StoresToLoggedPages := by
  intro h d a t o v e pa ctx s p hi he hin hclean hctx hroom r hr ha w hpage hcls hleaf hblock hw horder
  have hord : isOrdered e pa = false := by simp [isOrdered, hleaf]
  have hlen : (valueBytes p d t).length = w := length_valueBytes
  have hblock' : pa % 16 + (valueBytes p d t).length ≤ 16 := by rw [hlen]; exact hblock
  have hbody := stBody_stores hin hclean hpage hcls (by rw [hord]; exact horder)
    (storeMem_logged hctx hroom (by rw [hlen]; exact hw) hblock' hcls hleaf)
  have hexec := exec_store hi hr ha
  rw [hbody, finish_done] at hexec
  generalize hq : l1Drop (loggedAt p e ctx pa (valueBytes p d t)) (pa / 128) .l = q at hexec
  have hshows : ShowsLog p q e ctx pa (valueBytes p d t) := hq ▸ showsLog_loggedAt.l1Drop _ _
  have hkeeps {β : Type} {g : Core → β} (hg : ∀ (c : Core) (l : List LogRec) (u : List TlbEntry), g { c with log := l, tlb := u } = g c)
      (hv : ∀ (c : Core) (ls : List L1Line), g { c with l1 := ls } = g c) : g q.core = g p.core := by
    rw [← hq, l1Drop_keeps hv]
    exact loggedAt_core hg
  have hlogged : Backs (DirtyIn p) p (loggedAt p e ctx pa (valueBytes p d t)) := backs_of_mem rfl rfl rfl rfl
  have hbacks : Backs (DirtyIn p) p q := by
    rw [← hq]
    exact hlogged.trans (backs_l1Drop (within_modCore (within_modCore (within_dirtyIn p) rfl) rfl) _ _)
  have hwalk : Finishes.walkOf q = Finishes.walkOf p := by
    have hcore := hkeeps (g := fun c => ((c.engC, c.engA, c.engV, c.engW), c.ck, c.tokens)) (fun _ _ _ => rfl) (fun _ _ => rfl)
    simp only [Prod.mk.injEq] at hcore
    obtain ⟨heng, hck, htok⟩ := hcore
    exact Finishes.walkOf_eq_iff.2 ⟨heng, hck, htok, hbacks.clk⟩
  have hfin : OnlyWalked q (finishNow q h (nextPc s h (src2Len o))) := finishNow_onlyWalked ..
  obtain ⟨hwalked, hpushed, hg⟩ := store_finishes (h := h) hwalk (hkeeps (g := Core.g) (fun _ _ _ => rfl) (fun _ _ => rfl)) (nextPc s h (src2Len o))
  refine ⟨_, hexec, hwalked, hpushed, hg, fun b => writtenBack_of_backs (hbacks.trans (backs_of_onlyWalked hfin)) b, fun m i hilt htimes hlatest => ?_,
    fun hplain => ?_⟩
  · rw [Views.viewByte_of_onlyWalked hfin, view_stored hshows hctx hblock' (by rw [hlen]; exact hilt) htimes hlatest, getD_valueBytes hilt]
  · obtain ⟨hmoved, hlines⟩ := hplain
    have hsame : q = loggedAt p e ctx pa (valueBytes p d t) := by
      rw [← hq]
      refine l1Drop_plain (fun l hl => hlines l ?_)
      exact (congrArg (fun ls => l ∈ ls) (loggedAt_l1 ..)).mp hl
    refine ⟨fun b => ?_, fun m b hb => ?_⟩
    · rw [Finishes.sameMemory_of_onlyWalked hfin, hsame]
      rfl
    · rw [Views.viewByte_of_onlyWalked hfin]
      exact view_other hshows hctx hblock' hmoved (fun a => by rw [hsame]; rfl) (by rw [hlen]; exact hb)

end Sys2Proof.Laws.LoggedStores
end

section
/-!
PROOFS. ST and ST.ln to P pages, to O pages and to pages lent by another device (R184, R185, R331, R342, R446): settles O19 with the logged pages' part.
-/
namespace Sys2Proof.Laws.OtherStores

open Sys2Proof.Machine
open Sys2Proof.Laws.Bytes
open Sys2Proof.Laws.Records
open Sys2Proof.Laws.WriteBacks
open Sys2Proof.Laws.LoggedStores

/-! ### Writes one after the other -/

/-- What each write of a list sets to `v` or leaves, and one of them sets, is `v` after all of them. -/
theorem foldl_sets {σ α β : Type} {f : σ → α → σ} {g : σ → β} {v : β} {ws : List α} (hkeep : ∀ s, ∀ w ∈ ws, g (f s w) = v ∨ g (f s w) = g s)
    (hset : ∃ w ∈ ws, ∀ s, g (f s w) = v) (s : σ) : g (ws.foldl f s) = v := by
  have hstays : ∀ (ws : List α) (s : σ), (∀ s, ∀ w ∈ ws, g (f s w) = v ∨ g (f s w) = g s) → g s = v → g (ws.foldl f s) = v := by
    intro ws
    induction ws with
    | nil => exact fun s _ hs => hs
    | cons w ws ih =>
      intro s hkeep hs
      refine ih _ (fun s y hy => hkeep s y (List.mem_cons_of_mem w hy)) ?_
      rcases hkeep s w List.mem_cons_self with h | h
      · exact h
      · exact h.trans hs
  obtain ⟨w, hw, hv⟩ := hset
  obtain ⟨us, vs, rfl⟩ := List.append_of_mem hw
  rw [List.foldl_append, List.foldl_cons]
  exact hstays vs _ (fun s y hy => hkeep s y (List.mem_append_right us (List.mem_cons_of_mem w hy))) (hv _)

/-- A stored byte enters a table by its address. -/
theorem foldl_wholeBytes {σ β : Type} {f : σ → Nat × Byte × Byte → σ} {g : σ → β} {v : Byte → β} {pa i : Nat} {bs : List Byte} (hi : i < bs.length)
    (hhere : ∀ s (b : Byte), g (f s (pa + i, b, 255#8)) = v b) (hother : ∀ s j (b : Byte), j < bs.length → j ≠ i → g (f s (pa + j, b, 255#8)) = g s) (s : σ) :
    g ((wholeBytes pa bs).foldl f s) = v (bs.getD i 0) := by
  refine foldl_sets (fun s w hw => ?_) ⟨_, mem_wholeBytes.2 ⟨i, hi, rfl⟩, fun s => hhere s _⟩ s
  obtain ⟨j, hj, rfl⟩ := mem_wholeBytes.1 hw
  by_cases hji : j = i
  · exact .inl (by rw [hji, hhere])
  · exact .inr (hother s j _ hj hji)

/-- A byte written whole takes nothing of what was there. -/
theorem whole_byte (b c : Byte) : (b &&& 255#8) ||| (c &&& ~~~255#8) = b := by
  have hnot : ~~~255#8 = 0#8 := by decide
  rw [hnot, BitVec.and_zero, BitVec.or_zero]
  exact BitVec.and_allOnes

/-! ### P pages (R180, R330) -/

section
variable {s p : State} {e : TlbEntry} {pa : Nat} {bs : List Byte}

theorem pLine_onlyMemory (hf : s.found = none) (u rank line : Nat) : OnlyMemory s (pLine s u rank line).1 := by
  unfold pLine
  split
  · rfl
  · exact askSlice_onlyMemory (.inl hf) ..

theorem pLine_line (hf : s.found = none) (u rank line : Nat) :
    (pLine s u rank line).2.line = line ∧ (pLine s u rank line).2.cls = .p ∧ (pLine s u rank line).2.owner = s.cur := by
  have hcur := (pLine_onlyMemory hf u rank line).keeps State.cur (fun _ _ _ _ _ _ _ _ _ => rfl)
  unfold pLine at hcur ⊢
  split at hcur
  next l hl => simpa [and_assoc] using List.find?_some hl
  next hl => exact ⟨rfl, rfl, hcur⟩

/-- The line with the bytes of a store among its dirty ones. -/
def storedLine (s : State) (l : L1Line) (ws : List (Nat × Byte × Byte)) : L1Line :=
  let old := fun a => match findKey l.dirty a with | some b => b | none => byteAt s l.moment a
  { l with
    dirty := ws.foldl (fun d w => setKey d w.1 ((w.2.1 &&& w.2.2) ||| (old w.1 &&& ~~~w.2.2))) l.dirty
    marks := l.marks.filter (fun k => !granuleWhole ws k) }

theorem findKey_storedLine (s : State) (l : L1Line) {i : Nat} (hi : i < bs.length) :
    findKey (storedLine s l (wholeBytes pa bs)).dirty (pa + i) = some (bs.getD i 0) := by
  refine foldl_wholeBytes (g := fun d : Sparse Byte => findKey d (pa + i)) (v := some) hi (fun d b => ?_) (fun d j b _ hji => ?_) l.dirty
  · rw [findKey_setKey_self, whole_byte]
  · exact findKey_setKey_ne _ _ (by omega)

/-- The state after a store to a line of a P page. -/
def putStored (s : State) (rank line : Nat) (ws : List (Nat × Byte × Byte)) : State :=
  l1Put (pLine s 0 rank line).1 (storedLine (pLine s 0 rank line).1 (pLine s 0 rank line).2 ws)

theorem storeMem_pPage (hlen : 0 < bs.length) (hline : pa % 128 + bs.length ≤ 128) (hcls : classOf pa < 2) (hleaf : leafCoh e.leaf = .p) :
    storeMem s 0 e 0 (wholeBytes pa bs) false = some (putStored s (policyRank (leafPolicy e.leaf) 0) (pa / 128) (wholeBytes pa bs)) := by
  obtain ⟨b, ws, hws⟩ := wholeBytes_cons pa hlen
  have hlent : (classOf pa == 2) = false := by simp; omega
  have hgroup := groupBy_wholeBytes (pa := pa) hlen hline
  rw [hws] at hgroup ⊢
  unfold storeMem
  dsimp only
  rw [hlent, hleaf]
  dsimp only
  rw [hgroup, List.foldl_cons, List.foldl_nil]
  unfold putStored storedLine
  generalize pLine s 0 (policyRank (leafPolicy e.leaf) 0) (pa / 128) = x
  obtain ⟨q, l⟩ := x
  simp only [Bool.false_eq_true, if_false] <;> rfl

theorem backs_putStored {D : Nat × Byte → Prop} (hs : Within D s) (hf : s.found = none) (rank line : Nat) (ws : List (Nat × Byte × Byte)) :
    Backs D s (putStored s rank line ws) :=
  have hread := (Loads.reads_pLine hs hf 0 rank line).1
  hread.1.trans (backs_l1Put hread.2 _)

theorem putStored_keeps {β : Type} {v : Core → β} (hv : ∀ (c : Core) (ls : List L1Line), v { c with l1 := ls } = v c) (s : State) (rank line : Nat)
    (ws : List (Nat × Byte × Byte)) : v (putStored s rank line ws).core = v s.core :=
  (Loads.l1Put_keeps hv _ _).trans (congrArg v (Accesses.pLine_core ..))

/-- A line of a P page put into the L1 of its core is found there. -/
theorem l1Find_l1Put (s : State) {x : L1Line} (hcls : x.cls = .p) (howner : x.owner = s.cur) : l1Find (l1Put s x) x.line .p = some x := by
  obtain ⟨kept, out, -, -, h⟩ := l1Put_eq s x
  have hmod : (modCoreAt s (l1Holder s x.line) (fun c => { c with l1 := x :: kept })).dies = s.dies ∧
      (modCoreAt s (l1Holder s x.line) (fun c => { c with l1 := x :: kept })).cur = s.cur := by
    unfold modCoreAt
    split <;> exact ⟨rfl, rfl⟩
  have honly := writeBacks_onlyMemory (modCoreAt s (l1Holder s x.line) (fun c => { c with l1 := x :: kept })) out
  have hcur : (l1Put s x).cur = s.cur := by
    rw [h, honly.keeps State.cur (fun _ _ _ _ _ _ _ _ _ => rfl)]
    exact hmod.2
  have hfused (d : Nat) : (dieAt (l1Put s x) d).fused = (dieAt s d).fused := by
    rw [h, foldl_same (g := fun s => (dieAt s d).fused) (fun s l => fused_writeBack s l d), dieAt, hmod.1, dieAt]
  have hholder : l1Holder (l1Put s x) x.line = l1Holder s x.line := by rw [l1Holder, hfused, hcur, l1Holder]
  have hl1 : (coreAt (l1Put s x) (l1Holder s x.line)).l1 = x :: kept := by rw [h, honly.coreAt, coreAt_modCoreAt, if_pos rfl]
  rw [l1Find, hholder, hl1]
  exact List.find?_cons_of_pos (by simp [hcls, howner, hcur])

theorem l1Find_putStored (hf : s.found = none) (rank line : Nat) (ws : List (Nat × Byte × Byte)) :
    l1Find (putStored s rank line ws) line .p = some (storedLine (pLine s 0 rank line).1 (pLine s 0 rank line).2 ws) := by
  obtain ⟨hl, hcls, howner⟩ := pLine_line hf 0 rank line
  have hcur := (pLine_onlyMemory hf 0 rank line).keeps State.cur (fun _ _ _ _ _ _ _ _ _ => rfl)
  have hfind := l1Find_l1Put (pLine s 0 rank line).1 (x := storedLine (pLine s 0 rank line).1 (pLine s 0 rank line).2 ws) hcls (howner.trans hcur.symm)
  rw [show (storedLine (pLine s 0 rank line).1 (pLine s 0 rank line).2 ws).line = line from hl] at hfind
  exact hfind

/-- The L1 is no part of the walk. -/
theorem l1Find_of_onlyWalked {p q : State} (h : OnlyWalked p q) (line : Nat) (cls : Coh) : l1Find q line cls = l1Find p line cls := by
  have hat (k : Nat) : (coreAt q k).l1 = (coreAt p k).l1 := by
    have hkeeps {β : Type} (g : State → β) := Finishes.keeps_of_onlyWalked g (h := h)
    refine hkeeps (fun s => (coreAt s k).l1) (fun s _ _ _ _ _ _ => ?_)
    unfold coreAt
    dsimp only
    split <;> rfl
  have hholder : l1Holder q line = l1Holder p line :=
    Finishes.keeps_of_onlyWalked (fun s => l1Holder s line) (fun _ _ _ _ _ _ _ => rfl) h
  have hcur : q.cur = p.cur := Finishes.keeps_of_onlyWalked State.cur (fun _ _ _ _ _ _ _ => rfl) h
  rw [l1Find, hholder, hat, hcur, l1Find]

end

theorem storesToPPages {h : Hdr} {d a : Reg} {t : Ty} {o : Src2} {v : Word} {e : TlbEntry} {pa : Nat} {s p : State}
    (hi : Issues s h (src2Locs o) p) (he : h.eng = .a) (hin : mustWait p.core .a [.g d.toNat] = false) (hclean : anyPoison p.core [.g d.toNat] = false)
    {r : Instr × Base} (hr : r ∈ ([(.st h d a t o, .reg a), (.stLn h d a t o, .nest a)] : List (Instr × Base))) (ha : Addressed p r.2 o v)
    (hpage : accessPage p v.toNat (widthOf t / 8) { w := true } = .ok e pa) (hcls : classOf pa < 2) (hline : pa % 128 + widthOf t / 8 ≤ 128)
    (hw : 0 < widthOf t / 8) (hf : p.found = none) (hleaf : leafCoh e.leaf = .p) (horder : orderHeld p.core false = false) :
    Completes (exec r.1 s) (fun q => (q.core.eng .a).pc = nextPc s h (src2Len o) ∧ Pushed p q h ∧ q.core.g = p.core.g ∧ OnlyWriteBacks p q ∧
      ∃ l, l1Find q (pa / 128) .p = some l ∧
        ∀ i, i < widthOf t / 8 → findKey l.dirty (pa + i) = some (BitVec.ofNat 8 ((readG p .a d.toNat).toNat / 256 ^ i))) := by
  have hord : isOrdered e pa = false := by simp [isOrdered, hleaf]
  have hlen : (valueBytes p d t).length = widthOf t / 8 := length_valueBytes
  have hbody := stBody_stores hin hclean hpage hcls (by rw [hord]; exact horder)
    (storeMem_pPage (s := touchTlb p e) (bs := valueBytes p d t) (by rw [hlen]; exact hw) (by rw [hlen]; exact hline) hcls hleaf)
  have hexec := exec_store hi hr ha
  rw [hbody, finish_done] at hexec
  have hbacks : Backs (DirtyIn p) p (putStored (touchTlb p e) (policyRank (leafPolicy e.leaf) 0) (pa / 128) (wholeBytes pa (valueBytes p d t))) :=
    Backs.trans (q := touchTlb p e) (backs_of_mem rfl rfl rfl rfl) (backs_putStored (within_modCore (within_dirtyIn p) rfl) hf _ _ _)
  have hcore := putStored_keeps (v := fun c => (((c.engC, c.engA, c.engV, c.engW), c.ck, c.tokens), c.g)) (fun _ _ => rfl) (touchTlb p e)
    (policyRank (leafPolicy e.leaf) 0) (pa / 128) (wholeBytes pa (valueBytes p d t))
  have hfind := l1Find_putStored (s := touchTlb p e) hf (policyRank (leafPolicy e.leaf) 0) (pa / 128) (wholeBytes pa (valueBytes p d t))
  generalize putStored (touchTlb p e) (policyRank (leafPolicy e.leaf) 0) (pa / 128) (wholeBytes pa (valueBytes p d t)) = q at hexec hbacks hcore hfind
  simp only [Prod.mk.injEq] at hcore
  obtain ⟨⟨heng, hck, htok⟩, hg⟩ := hcore
  obtain ⟨hwalked, hpushed, hg'⟩ := store_finishes (h := h) (Finishes.walkOf_eq_iff.2 ⟨heng, hck, htok, hbacks.clk⟩) hg (nextPc s h (src2Len o))
  have hfin : OnlyWalked q (finishNow q h (nextPc s h (src2Len o))) := finishNow_onlyWalked ..
  refine ⟨_, hexec, by rw [← he]; exact hwalked.here, hpushed, hg', fun b => writtenBack_of_backs (hbacks.trans (backs_of_onlyWalked hfin)) b, _,
    (l1Find_of_onlyWalked hfin _ _).trans hfind, fun i hilt => ?_⟩
  rw [findKey_storedLine _ _ (by rw [hlen]; exact hilt), getD_valueBytes hilt]

/-! ### O pages (R342) -/

section
variable {β : Type} {g : State → β}

theorem countLost_same (hcore : ∀ s k f, g (modCoreAt s k f) = g s) (s : State) (x : CodeSector) : g (countLost s x) = g s := by
  unfold countLost
  dsimp only
  split
  · rfl
  · exact foldl_same (g := g) (fun s k => hcore s k _) _ _

theorem dropSector_same (hdie : ∀ s d f, g (modDie s d f) = g s) (hcore : ∀ s k f, g (modCoreAt s k f) = g s) (s : State) (pa : Nat) :
    g (dropSector s pa) = g s := by
  unfold dropSector
  split
  · rfl
  · refine (foldl_same (g := g) (countLost_same hcore) _ _).trans ?_
    refine (foldl_same (g := g) (fun s k => ?_) _ _).trans (hdie _ _ _)
    split
    · exact hcore ..
    · rfl

end

/-- Where the bits of a settlement find memory: its lines have been written and its sectors dropped. -/
def settleBase (s : State) (ws : List (Nat × Byte × Byte)) : State :=
  clearPoison ((dedupNat (ws.map (fun w => w.1 / 256))).foldl (fun s k => dropSector s (256 * k)) (wroteLines (newMoment s) (ws.map Prod.fst)))
    ((ws.filter (fun w => w.2.2 == 255)).map Prod.fst)

/-- The bits of one write, merged into the byte at its address. -/
def mergeAt (k : Key) (s : State) (w : Nat × Byte × Byte) : State :=
  pokeByte s w.1 (mergeBits (memByte s w.1) (keysAt s w.1) w.2.1 w.2.2 k).1 (mergeBits (memByte s w.1) (keysAt s w.1) w.2.1 w.2.2 k).2

theorem settle_eq (s : State) (k : Key) (ws : List (Nat × Byte × Byte)) : settle s 0 k ws = ws.foldl (mergeAt k) (settleBase s ws) := rfl

theorem settleBase_same {β : Type} {g : State → β} (hmoment : ∀ s, g (newMoment s) = g s) (hmark : ∀ s k b, g (setMark s k b) = g s)
    (hline : ∀ s pa, g (wroteLine s pa) = g s) (hdrop : ∀ s pa, g (dropSector s pa) = g s) (s : State) (ws : List (Nat × Byte × Byte)) :
    g (settleBase s ws) = g s := by
  refine (foldl_same (g := g) (f := fun s k => setMark s k false) (fun s k => hmark s k false) _ _).trans ?_
  refine (foldl_same (g := g) (fun s k => hdrop s (256 * k)) _ _).trans ?_
  exact (foldl_same (g := g) (fun s l => hline s (128 * l)) _ _).trans (hmoment s)

theorem settle_clk (s : State) (k : Key) (ws : List (Nat × Byte × Byte)) : (settle s 0 k ws).clk = s.clk := by
  have hcore (s : State) (c : Nat) (f : Core → Core) : (modCoreAt s c f).clk = s.clk := by unfold modCoreAt; split <;> rfl
  rw [settle_eq, foldl_same (g := State.clk) (f := mergeAt k) (fun _ _ => rfl)]
  exact settleBase_same (g := State.clk) (fun _ => rfl) (fun _ _ _ => rfl) (fun s pa => (wroteLine_onlyMemory s pa).clk)
    (dropSector_same (fun _ _ _ => rfl) hcore) s ws

theorem keysAt_settleBase (s : State) (ws : List (Nat × Byte × Byte)) (a : Nat) : keysAt (settleBase s ws) a = keysAt s a := by
  have hcore (s : State) (c : Nat) (f : Core → Core) : (modCoreAt s c f).keys = s.keys := by unfold modCoreAt; split <;> rfl
  have hkeys : (settleBase s ws).keys = s.keys := settleBase_same (g := State.keys) (fun _ => rfl) (fun _ _ _ => rfl) (fun s pa => (keysPast_wroteLine s pa).1)
    (dropSector_same (fun _ _ _ => rfl) hcore) s ws
  rw [keysAt, hkeys, keysAt]

/-- A merge at one address leaves the keys of another. -/
theorem keysAt_mergeAt (k : Key) (s : State) (w : Nat × Byte × Byte) {a : Nat} (ha : a ≠ w.1) : keysAt (mergeAt k s w) a = keysAt s a := by
  have hkeys : (mergeAt k s w).keys = placeAll {} s.keys (8 * w.1) (mergeBits (memByte s w.1) (keysAt s w.1) w.2.1 w.2.2 k).2 := rfl
  rw [keysAt, keysAt, lookAll, lookAll, hkeys]
  refine List.map_congr_left (fun i hi => ?_)
  have hi' : i < 8 := List.mem_range.1 hi
  rw [look_placeAll, if_neg]
  simp only [mergeBits, List.length_map, List.length_range]
  omega

/-- A whole byte that settles later than what stands there is what is read. -/
theorem memByte_merges {k : Key} {ws : List (Nat × Byte × Byte)} (hnodup : (ws.map Prod.fst).Nodup) {w : Nat × Byte × Byte} (hw : w ∈ ws) (hmask : w.2.2 = 255#8)
    (s : State) (hkeys : KeysBelow k.time (keysAt s w.1)) : memByte (ws.foldl (mergeAt k) s) w.1 = w.2.1 := by
  induction ws generalizing s with
  | nil => exact absurd hw List.not_mem_nil
  | cons x ws ih =>
    rw [List.map_cons, List.nodup_cons] at hnodup
    obtain ⟨hx, hnodup⟩ := hnodup
    rw [List.foldl_cons]
    rcases List.mem_cons.1 hw with rfl | hw
    · rw [memByte_pokes Prod.fst (mergeAt k) (fun s w => ⟨_, _, rfl⟩) ws _ _ (fun y hy (hyw : y.1 = w.1) => hx (hyw ▸ List.mem_map_of_mem hy)),
        mergeAt, memByte_pokeByte,
        if_pos rfl, hmask]
      exact mergeBits_later hkeys
    · have hne : w.1 ≠ x.1 := fun hwx => hx (hwx ▸ List.mem_map_of_mem hw)
      exact ih hnodup hw _ (by rw [keysAt_mergeAt k s x hne]; exact hkeys)

theorem nodup_wholeBytes (pa : Nat) (bs : List Byte) : ((wholeBytes pa bs).map Prod.fst).Nodup := by
  rw [wholeBytes, List.map_map]
  exact List.Nodup.map (fun i j hij => Nat.add_left_cancel hij) List.nodup_range

/-- The key of an O store. -/
def oKey (s : State) (line : Nat) : Key := { time := Nat.max s.core.clock ((look (0, 0) s.oLines line).2 + 1), num := s.cur }

/-- The state that an O store settles its bits in: the line's other copies are dropped, and its lease has a new time. -/
def oLeased (s : State) (line : Nat) : State :=
  { l1Drop s line .o with oLines := place (0, 0) (l1Drop s line .o).oLines line ((oKey (l1Drop s line .o) line).time, (oKey (l1Drop s line .o) line).time) }

theorem memByte_oStore (s : State) (line : Nat) (ws : List (Nat × Byte × Byte)) (a : Nat) :
    memByte (oStore s line ws) a = memByte (settle (oLeased s line) 0 (oKey (l1Drop s line .o) line) ws) a := rfl

theorem clk_oStore (s : State) (line : Nat) (ws : List (Nat × Byte × Byte)) : (oStore s line ws).clk = s.clk := by
  have hdrop : (l1Drop s line .o).clk = s.clk := l1Drop_same (g := State.clk) (fun s k ls => by unfold modCoreAt; split <;> rfl)
    (fun s l => (writeBack_onlyMemory s l).clk) s line .o
  exact (settle_clk (oLeased s line) (oKey (l1Drop s line .o) line) ws).trans hdrop

/-- The bytes of an O store settle, where no later write of them has. -/
theorem memByte_oStore_stored {s : State} {pa line i : Nat} {bs : List Byte} (hi : i < bs.length)
    (hkeys : ∀ k ∈ keysAt s (pa + i), k.time ≤ (look (0, 0) s.oLines line).2) : memByte (oStore s line (wholeBytes pa bs)) (pa + i) = bs.getD i 0 := by
  have hbelow : KeysBelow (oKey (l1Drop s line .o) line).time (keysAt (settleBase (oLeased s line) (wholeBytes pa bs)) (pa + i)) := by
    have hsame : keysAt (oLeased s line) (pa + i) = keysAt s (pa + i) := keysAt_l1Drop s line .o (pa + i)
    have htime : (look (0, 0) s.oLines line).2 < (oKey (l1Drop s line .o) line).time := by
      rw [oKey, l1Drop_oLines]
      exact Nat.lt_of_lt_of_le (Nat.lt_succ_self _) (Nat.le_max_right ..)
    rw [keysAt_settleBase, hsame]
    exact keysBelow_of_mem (by omega) (fun k hk => (hkeys k hk).trans_lt htime)
  rw [memByte_oStore, settle_eq]
  exact memByte_merges (nodup_wholeBytes pa bs) (mem_wholeBytes.2 ⟨i, hi, rfl⟩) rfl _ hbelow

/-- The others are those that stand when the copies of other classes are dropped. -/
theorem memByte_oStore_other {s : State} {pa line b : Nat} {bs : List Byte} (hb : b < pa ∨ pa + bs.length ≤ b) :
    memByte (oStore s line (wholeBytes pa bs)) b = memByte (l1Drop s line .o) b := by
  refine (memByte_oStore ..).trans ((memByte_settle_other _ _ _ _ (fun w hw => ?_)).trans rfl)
  obtain ⟨i, hi, rfl⟩ := mem_wholeBytes.1 hw
  dsimp only
  omega

theorem storeMem_oPage {s : State} {e : TlbEntry} {pa : Nat} {bs : List Byte} (hlen : 0 < bs.length) (hline : pa % 128 + bs.length ≤ 128)
    (hcls : classOf pa < 2) (hleaf : leafCoh e.leaf = .o) :
    storeMem s 0 e 0 (wholeBytes pa bs) false = some (oStore (askSlice s (unitOf s 0) (128 * (pa / 128)) 0 true) (pa / 128) (wholeBytes pa bs)) := by
  obtain ⟨b, ws, hws⟩ := wholeBytes_cons pa hlen
  have hlent : (classOf pa == 2) = false := by simp; omega
  have hgroup := groupBy_wholeBytes (pa := pa) hlen hline
  rw [hws] at hgroup ⊢
  unfold storeMem
  dsimp only
  rw [hlent, hleaf]
  dsimp only
  rw [hgroup]
  rfl

theorem storesToOPages {h : Hdr} {d a : Reg} {t : Ty} {o : Src2} {v : Word} {e : TlbEntry} {pa : Nat} {s p : State}
    (hi : Issues s h (src2Locs o) p) (he : h.eng = .a) (hin : mustWait p.core .a [.g d.toNat] = false) (hclean : anyPoison p.core [.g d.toNat] = false)
    {r : Instr × Base} (hr : r ∈ ([(.st h d a t o, .reg a), (.stLn h d a t o, .nest a)] : List (Instr × Base))) (ha : Addressed p r.2 o v)
    (hpage : accessPage p v.toNat (widthOf t / 8) { w := true } = .ok e pa) (hcls : classOf pa < 2) (hline : pa % 128 + widthOf t / 8 ≤ 128)
    (hw : 0 < widthOf t / 8) (hleaf : leafCoh e.leaf = .o) (horder : orderHeld p.core true = false) :
    Completes (exec r.1 s) (fun q => (q.core.eng .a).pc = nextPc s h (src2Len o) ∧ Pushed p q h ∧ q.core.g = p.core.g ∧
      (∀ b, (b < pa ∨ pa + widthOf t / 8 ≤ b) → WrittenBack p q b) ∧
      ∀ i, i < widthOf t / 8 → (∀ k ∈ keysAt p (pa + i), k.time ≤ (look (0, 0) p.oLines (pa / 128)).2) →
        memByte q (pa + i) = BitVec.ofNat 8 ((readG p .a d.toNat).toNat / 256 ^ i)) := by
  have hord : isOrdered e pa = true := by simp [isOrdered, hleaf, hcls]
  have hlen : (valueBytes p d t).length = widthOf t / 8 := length_valueBytes
  have hbody := stBody_stores hin hclean hpage hcls (by rw [hord]; exact horder)
    (storeMem_oPage (s := touchTlb p e) (bs := valueBytes p d t) (by rw [hlen]; exact hw) (by rw [hlen]; exact hline) hcls hleaf)
  have hexec := exec_store hi hr ha
  rw [hbody, finish_done] at hexec
  have hask : OnlyMemory (touchTlb p e) (askSlice (touchTlb p e) (unitOf (touchTlb p e) 0) (128 * (pa / 128)) 0 true) := askSlice_onlyMemory (.inr rfl) ..
  have hmod := askSlice_modSlice (s := touchTlb p e) (write := true) (.inr rfl) (unitOf (touchTlb p e) 0) (128 * (pa / 128)) 0
  generalize askSlice (touchTlb p e) (unitOf (touchTlb p e) 0) (128 * (pa / 128)) 0 true = u at hexec hask hmod
  have hsame {β : Type} (g : State → β) (hg : ∀ s f, g (modSlice s (128 * (pa / 128)) f) = g s) : g u = g (touchTlb p e) := by
    rcases hmod with hu | ⟨f, hu⟩
    · rw [hu]
    · rw [hu, hg]
  have hwithin : Within (DirtyIn p) u := within_of_onlyMemory hask (within_modCore (within_dirtyIn p) rfl)
  have hbacks : Backs (DirtyIn p) p (l1Drop u (pa / 128) .o) := by
    have hu : Backs (DirtyIn p) p u := backs_of_mem hask.clk hask.found (hsame State.now (fun _ _ => rfl)) (hsame State.mem (fun _ _ => rfl))
    exact hu.trans (backs_l1Drop hwithin _ _)
  have hcore {β : Type} {g : Core → β} (hg : Accesses.Apart g) (ht : ∀ c l, g { c with tlb := l } = g c) :
      g (oStore u (pa / 128) (wholeBytes pa (valueBytes p d t))).core = g p.core := by
    rw [Accesses.oStore_apart hg, hask.core]
    exact ht ..
  have hwalk : Finishes.walkOf (oStore u (pa / 128) (wholeBytes pa (valueBytes p d t))) = Finishes.walkOf p := by
    have h4 := hcore (g := fun c => ((c.engC, c.engA, c.engV, c.engW), c.ck, c.tokens)) (fun _ _ _ _ _ _ _ _ _ => rfl) (fun _ _ => rfl)
    simp only [Prod.mk.injEq] at h4
    obtain ⟨heng, hck, htok⟩ := h4
    exact Finishes.walkOf_eq_iff.2 ⟨heng, hck, htok, (clk_oStore ..).trans hask.clk⟩
  obtain ⟨hwalked, hpushed, hg⟩ := store_finishes (h := h) hwalk (hcore (g := Core.g) (fun _ _ _ _ _ _ _ _ _ => rfl) (fun _ _ => rfl)) (nextPc s h (src2Len o))
  have hfin := finishNow_onlyWalked (oStore u (pa / 128) (wholeBytes pa (valueBytes p d t))) h (nextPc s h (src2Len o))
  refine ⟨_, hexec, by rw [← he]; exact hwalked.here, hpushed, hg, fun b hb hne => ?_, fun i hilt hkeys => ?_⟩
  · rw [Finishes.sameMemory_of_onlyWalked hfin, memByte_oStore_other (by rw [hlen]; exact hb)] at hne ⊢
    exact writtenBack_of_backs hbacks b hne
  · rw [Finishes.sameMemory_of_onlyWalked hfin, memByte_oStore_stored (by rw [hlen]; exact hilt) ?_, getD_valueBytes hilt]
    rw [hsame (fun s => keysAt s (pa + i)) (fun _ _ => rfl), hsame State.oLines (fun _ _ => rfl)]
    exact hkeys

theorem storesToOtherPages : StoresToOtherPages := by
  intro h d a t o v e pa s p hi he hin hclean r hr ha w byte hpage hcls hline hw hf
  exact ⟨storesToPPages hi he hin hclean hr ha hpage hcls hline hw hf, storesToOPages hi he hin hclean hr ha hpage hcls hline hw⟩

/-! ### Lent pages (R446) -/

theorem lentValue_lentStore (s : State) {pa i : Nat} {bs : List Byte} (mark : Bool) (hi : i < bs.length) (hlen : bs.length ≤ 8) :
    lentValue (lentStore s (wholeBytes pa bs) mark) (pa + i) = bs.getD i 0 := by
  have hlook : look none (lentStore s (wholeBytes pa bs) mark).remote ((pa + i) % 2 ^ 50) = some (bs.getD i 0) := by
    refine foldl_wholeBytes (g := fun m : Sparse (Option Byte) => look none m ((pa + i) % 2 ^ 50)) (v := some) hi (fun m b => ?_) (fun m j b hj hji => ?_) s.remote
    · rw [look_place_self, whole_byte]
    · exact look_place_ne _ _ _ (by omega)
  rw [lentValue, hlook]

theorem storesToLentPages : StoresToLentPages := by
  intro p e pa w n mark hcls hw hw8
  have hlen : (leBytes w n).length = w := length_leBytes w n
  have hstore : storeBytes p e pa (leBytes w n) mark = some (sendStore p (wholeBytes pa (leBytes w n)) mark) := by
    obtain ⟨b, ws, hws⟩ := wholeBytes_cons pa (bs := leBytes w n) (by omega)
    rw [storeBytes, hcls, hws]
    unfold storeMem
    dsimp only
    rw [hcls]
    rfl
  obtain ⟨b, ws, hws⟩ := wholeBytes_cons pa (bs := leBytes w n) (by omega)
  obtain ⟨k, hsend⟩ : ∃ k, sendStore p (wholeBytes pa (leBytes w n)) mark = modCore (sendFlits p (lenderOf pa) k) (fun c => { c with
      flying := c.flying ++ [{ ws := wholeBytes pa (leBytes w n), mark := mark, id := c.nextId }]
      nextId := c.nextId + 1 }) := by
    rw [hws]
    exact ⟨_, rfl⟩
  have honly := sendFlits_onlyMemory p (lenderOf pa) k
  have hcore := Accesses.sendFlits_core p (lenderOf pa) k
  have hflying : (sendStore p (wholeBytes pa (leBytes w n)) mark).core.flying =
      p.core.flying ++ [{ ws := wholeBytes pa (leBytes w n), mark := mark, id := p.core.nextId }] := by rw [hsend, modCore_core, hcore]
  refine ⟨_, hstore, memByte_of_mem (by rw [hsend]; simp), by rw [hsend, modCore_core, hcore], by rw [hsend, modCore_core, hcore], ?_, ⟨_, hflying, rfl, rfl⟩,
    fun i hi => ?_⟩
  · rw [hsend]
    exact honly.keeps State.remote (fun _ _ _ _ _ _ _ _ _ => rfl)
  have hlender : FlyingStore.lender { ws := wholeBytes pa (leBytes w n), mark := mark, id := p.core.nextId } = lenderOf pa := by rw [FlyingStore.lender, hws]
  unfold landFlying
  rw [hflying, List.filter_append, List.filter_cons_of_pos (by simp [hlender]), List.filter_nil, List.foldl_append]
  exact lentValue_lentStore _ mark (by omega) (by omega)

end Sys2Proof.Laws.OtherStores

namespace Sys2Proof

/-- Settles O19: a store to a logged page becomes the last record that writes its bytes, one to a P page a line at the front of its L1,
one to an O page the greatest key of its bytes, and one to a lent page the last store on its way to the lender. -/
theorem stores : Obligations.Stores := ⟨Laws.LoggedStores.storesToLoggedPages, Laws.OtherStores.storesToOtherPages, Laws.OtherStores.storesToLentPages⟩

end Sys2Proof
end

section
/-!
PROOFS. What an instruction leaves whose result is written in the clk after its issue (R222), where its tokens come too (R368): the layer under
O1, O2 and O5.
-/
namespace Sys2Proof.Laws.Soon

open Sys2Proof.Machine
open Sys2Proof.Laws.Finishes

/-! ### Tokens of the next clk -/

/-- The state in which the tokens of the next clk are under way, their places not yet reserved. -/
def tokensSent (p : State) (h : Hdr) : State := modCore p (fun c => { c with landing := c.landing ++ tokensLater p h })

theorem reserve_landing (c : Core) (l : List Landing) (e : Eng) (m : BitVec 4) :
    reserve { c with landing := l } e m = { reserve c e m with landing := l } := by
  unfold reserve
  generalize maskEngs m = es
  induction es generalizing c with
  | nil => rfl
  | cons q es ih => exact ih (setQueue c (queueCode e q) { queueAt c (queueCode e q) with reserved := (queueAt c (queueCode e q)).reserved + 1 })

theorem maskEngs_zero : maskEngs 0 = [] := by decide

/-- Finishing in the next clk is finishing with a result in flight that carries the tokens and no value. -/
theorem finishSoon_eq (p : State) (h : Hdr) (pc : Nat) : finishSoon p h pc = finishLater (tokensSent p h) h pc := by
  unfold finishSoon finishLater tokensSent tokensLater
  by_cases hm : h.push = 0
  · simp only [hm, beq_self_eq_true, if_true, List.append_nil]
    simp only [reserve, maskEngs_zero, List.foldl_nil, modCore]
  · simp only [beq_false_of_ne hm, Bool.false_eq_true, if_false, modCore, reserve_landing, addLanding]
    rw [reserve_eq]

theorem finishSoon_walked (p : State) (h : Hdr) (pc : Nat) : WalkedTo p (finishSoon p h pc) h p.core.ck pc := by
  rw [finishSoon_eq]
  exact walkedTo_of_walkOf (p := p) (q := tokensSent p h) rfl (finishLater_walked _ h pc)

theorem finishSoon_reserved (p : State) (h : Hdr) (pc : Nat) : Reserved p (finishSoon p h pc) h := by
  rw [finishSoon_eq]
  exact reserved_of_walkOf (q := tokensSent p h) rfl (finishLater_reserved _ h pc)

theorem finishSoon_landing (p : State) (h : Hdr) (pc : Nat) : (finishSoon p h pc).core.landing = p.core.landing ++ tokensLater p h := by
  rw [finishSoon_eq]
  exact core_of_onlyWalked Core.landing (fun _ _ _ _ _ _ _ => rfl) (finishLater_onlyWalked (tokensSent p h) h pc)

theorem finishSoon_pushed (p : State) (h : Hdr) (pc : Nat) : PushedSoon p (finishSoon p h pc) h :=
  ⟨finishSoon_reserved p h pc, finishSoon_landing p h pc⟩

/-- What reads neither the walk nor the results in flight is the same after them. -/
theorem keeps_of_onlyLanding {β : Type} (g : State → β)
    (hg : ∀ (s : State) (c a v w : Engine) (k : Sparse TokenQueue) (b : Bool) (l : List Landing),
      g { s with core := { s.core with engC := c, engA := a, engV := v, engW := w, tokens := k, switched := b, landing := l } } = g s)
    {p t : State} (h : OnlyLanding p t) : g t = g p := (congrArg g h).trans (hg p ..)

theorem core_of_onlyLanding {β : Type} (g : Core → β)
    (hg : ∀ (x : Core) (c a v w : Engine) (k : Sparse TokenQueue) (b : Bool) (l : List Landing),
      g { x with engC := c, engA := a, engV := v, engW := w, tokens := k, switched := b, landing := l } = g x)
    {p t : State} (h : OnlyLanding p t) : g t.core = g p.core := keeps_of_onlyLanding (fun s => g s.core) (fun s => hg s.core) h

theorem sameMemory_of_onlyLanding {p t : State} (h : OnlyLanding p t) : SameMemory p t :=
  memByte_of_mem (keeps_of_onlyLanding State.mem (fun _ _ _ _ _ _ _ _ => rfl) h)

theorem onlyLanding_of_onlyWalked {p q t : State} (h : OnlyWalked p q) (h' : OnlyLanding q t) : OnlyLanding p t := by
  have hl : OnlyWalked (modCore p (fun c => { c with landing := t.core.landing })) (modCore q (fun c => { c with landing := t.core.landing })) :=
    congrArg (fun s => modCore s (fun c => { c with landing := t.core.landing })) h
  exact hl.trans h'

theorem onlyRegs_lands {p q t : State} (h : OnlyRegs p q) (h' : OnlyLanding q t) : OnlyRegs p t := by
  have hcore {β : Type} := core_of_onlyLanding (β := β) (h := h')
  unfold OnlyRegs
  rw [hcore Core.g (fun _ _ _ _ _ _ _ _ => rfl), hcore Core.gTurn (fun _ _ _ _ _ _ _ _ => rfl), hcore Core.nextId (fun _ _ _ _ _ _ _ _ => rfl)]
  unfold OnlyLanding at h'
  rw [OnlyRegs] at h
  refine OnlyWalked.trans ?_ h'
  rw [h]
  rfl

/-! ### A register written in the next clk -/

theorem tokensLater_of_walkOf {p q : State} (hw : walkOf q = walkOf p) (h : Hdr) : tokensLater q h = tokensLater p h := by
  simp only [tokensLater, tokensNext, eng_of_walkOf hw, ck_of_walkOf hw]

/-- A scalar result: its register written at once, in place of any result of the engine still on its way there, its tokens in the next clk. -/
theorem wroteReg_of_putG {s p : State} {h : Hdr} {d : Nat} (hr : outranked p.core h.eng (p.core.ck + 1) d = false) (len : Nat) (v : Word) :
    WroteReg s p (finishSoon (putG p h.eng d v) h (nextPc s h len)) h len d v := by
  have hl := finishSoon_onlyLanding (putG p h.eng d v) h (nextPc s h len)
  have hland := finishSoon_landing (putG p h.eng d v) h (nextPc s h len)
  have hwalk : walkOf (putG p h.eng d v) = walkOf p := walkOf_putG ..
  have hregs : OnlyRegs p (finishSoon (putG p h.eng d v) h (nextPc s h len)) := onlyRegs_lands (putG_onlyRegs ..) hl
  have hwritten := regWritten_of_putG (t := modCore (finishSoon (putG p h.eng d v) h (nextPc s h len))
    (fun c => { c with landing := (putG p h.eng d v).core.landing })) hr rfl rfl rfl
    (congrArg (fun t => modCore t (fun c => { c with landing := (putG p h.eng d v).core.landing })) hl)
  obtain ⟨hvalue, hread, hzero, hothers, -⟩ := hwritten
  exact ⟨walkedTo_of_walkOf hwalk (finishSoon_walked ..), reserved_of_walkOf hwalk (finishSoon_reserved _ h _),
    ⟨hvalue, hread, hzero, hothers, by rw [hland, landing_putG, tokensLater_of_walkOf hwalk]⟩, sameMemory_of_onlyRegs hregs, hregs⟩

/-- Every instruction of one clk writes the value of its body (R216, R222). -/
theorem scalarNow_writes {s p : State} {h : Hdr} {srcs : List Loc} {d : Reg} (hi : Issues s h srcs p)
    (hr : outranked p.core h.eng (p.core.ck + 1) d.toNat = false) (len : Nat) {val : State → Word} {v : Word} (hv : val p = v) :
    Completes (scalarNow h len d srcs val s) (fun t => WroteReg s p t h len d.toNat v) :=
  ⟨_, issueOut_of_issues hi, hv ▸ wroteReg_of_putG hr len (val p)⟩

end Sys2Proof.Laws.Soon
end

section
/-!
PROOFS. The operations of R216 in one clk: settles O1.
-/
namespace Sys2Proof.Laws.Arithmetic

open Sys2Proof.Machine

/-! ### Values (R216) -/

section
variable (x y : Word)

theorem rotW_eq : rotW x y = (x <<< (y.toNat % 64)) ||| (x >>> (64 - y.toNat % 64)) := by
  rw [rotW, shiftOf, BitVec.rotateLeft_def, Nat.mod_mod]

/-- Where equal keys belong to equal values, it does not matter on which side a tie falls. -/
theorem ite_le_eq_ite_lt {α : Type} [LinearOrder α] {i j : α} {v w : Word} (h : i = j → v = w) :
    (if i ≤ j then v else w) = if i < j then v else w := by
  rcases lt_trichotomy i j with hlt | heq | hgt
  · rw [if_pos hlt.le, if_pos hlt]
  · rw [h heq, ite_self, ite_self]
  · rw [if_neg hgt.not_ge, if_neg hgt.not_gt]

theorem minS_eq : minS x y = if x.slt y then x else y := by
  simp only [BitVec.slt, decide_eq_true_eq]
  exact ite_le_eq_ite_lt BitVec.eq_of_toInt_eq

theorem minZ_eq : minZ x y = if x.ult y then x else y := by
  simp only [BitVec.ult, decide_eq_true_eq]
  exact ite_le_eq_ite_lt BitVec.eq_of_toNat_eq

theorem maxS_eq : maxS x y = if x.slt y then y else x := by
  simp only [BitVec.slt, decide_eq_true_eq]
  exact ite_le_eq_ite_lt fun h => (BitVec.eq_of_toInt_eq h).symm

theorem maxZ_eq : maxZ x y = if x.ult y then y else x := by
  simp only [BitVec.ult, decide_eq_true_eq]
  exact ite_le_eq_ite_lt fun h => (BitVec.eq_of_toNat_eq h).symm

theorem seqW_eq : seqW x y = if x = y then 1 else 0 := by simp only [seqW, boolW, decide_eq_true_eq]

end

/-! ### The instructions -/

theorem scalarShortForms : ScalarShortForms := by
  intro h d a b s p hi hr x y n
  have hw {val : State → Word} {v : Word} (hv : val p = v) := Soon.scalarNow_writes hi hr 1 hv
  simp only [List.forall_mem_cons, List.not_mem_nil, false_implies, implies_true, and_true]
  exact ⟨hw rfl, hw rfl, hw rfl, hw rfl, hw rfl, hw rfl, hw rfl, hw rfl, hw (rotW_eq x y), hw (minS_eq x y), hw (minZ_eq x y), hw (maxS_eq x y),
    hw (maxZ_eq x y), hw (seqW_eq x y), hw rfl, hw rfl⟩

theorem scalarLongForms : ScalarLongForms := by
  intro h d a o s p hi hr x y len n
  have hy : src2S p h.eng o = y := by cases o <;> rfl
  have hlen : src2Len o = len := by cases o <;> rfl
  have hw {val : State → Word} {v : Word} (hv : val p = v) := Soon.scalarNow_writes hi hr (src2Len o) hv
  simp only [List.forall_mem_cons, List.not_mem_nil, false_implies, implies_true, and_true, n, ← hy, ← hlen]
  exact ⟨hw rfl, hw rfl, hw rfl, hw rfl, hw rfl, hw rfl, hw rfl, hw rfl, hw (rotW_eq ..), hw (minS_eq ..), hw (minZ_eq ..), hw (maxS_eq ..),
    hw (maxZ_eq ..), hw (seqW_eq ..), hw rfl, hw rfl⟩

end Sys2Proof.Laws.Arithmetic

namespace Sys2Proof

/-- Settles O1: each form is a write of one value in the next clk, and the model's value is the table's. -/
theorem scalarArithmetic : Obligations.ScalarArithmetic := ⟨Laws.Arithmetic.scalarShortForms, Laws.Arithmetic.scalarLongForms⟩

end Sys2Proof
end

section
/-!
PROOFS. Counts, constants, selections and bit fields (R216, R218 to R220): settles O2.
-/
namespace Sys2Proof.Laws.Fields

open Sys2Proof.Machine

/-! ### Counts (R218) -/

theorem significantBits_sigBits (m : Nat) : SignificantBits m (sigBits m) := by
  unfold SignificantBits sigBits log2Nat
  by_cases h0 : m = 0
  · simp [h0]
  · rw [if_neg h0]
    exact ⟨Nat.lt_log2_self, fun _ => Nat.log2_self_le h0⟩

theorem leadingZeros_of_significantBits {x : Word} {b : Nat} (hb : SignificantBits x.toNat b) : LeadingZeros x (64 - b) := by
  obtain ⟨hlt, hle⟩ := hb
  refine ⟨?_, fun hx => ?_⟩
  · rintro rfl
    have hb0 : b = 0 := by
      by_contra hb
      exact absurd (Nat.two_pow_pos (b - 1)) (not_lt.2 (hle hb))
    rw [hb0]
  · have hpos : 0 < x.toNat := Nat.pos_of_ne_zero fun h0 => hx (BitVec.eq_of_toNat_eq h0)
    have hb : b ≠ 0 := by rintro rfl; omega
    have h64 : b - 1 < 64 := (Nat.pow_lt_pow_iff_right Nat.one_lt_two).1 ((hle hb).trans_lt x.isLt)
    rw [show 63 - (64 - b) = b - 1 by omega, show 64 - (64 - b) = b by omega]
    exact ⟨hle hb, hlt, by omega⟩

theorem popcW_eq (x : Word) : popcW x = BitVec.ofNat 64 ((List.finRange 64).countP (fun i => x.getLsbD i)) := by
  have hbits : (List.finRange 64 >>= fun i => pure i.val) = List.range 64 := List.map_eq_flatMap.symm.trans List.map_coe_finRange_eq_range
  rw [popcW, ← List.countP_eq_length_filter, hbits]

theorem countsConstantsSelections : CountsConstantsSelections := by
  intro h d a s p hr
  have hw {srcs : List Loc} (hi : Issues s h srcs p) (len : Nat) {val : State → Word} {v : Word} (hv : val p = v) := Soon.scalarNow_writes hi hr len hv
  have hclz (hi : Issues s h [.g a.toNat] p) (len : Nat) : Completes (scalarNow h len d (srcA a) (fun p => clzW (ra h a p)) s)
      (fun t => ∃ n, LeadingZeros (readG p h.eng a.toNat) n ∧ WroteReg s p t h len d.toNat (BitVec.ofNat 64 n)) := by
    obtain ⟨t, ht, hwrote⟩ := hw hi len (val := fun p => clzW (ra h a p)) rfl
    exact ⟨t, ht, _, leadingZeros_of_significantBits (significantBits_sigBits _), hwrote⟩
  have hsel (x y c : Word) : (if c = 0 then y else x) = if c ≠ 0 then x else y := (ite_not ..).symm
  simp only [List.forall_mem_cons, List.not_mem_nil, false_implies, implies_true, and_true]
  exact ⟨fun hi => ⟨⟨hclz hi 1, hclz hi 2⟩, hw hi 1 (popcW_eq _), hw hi 2 (popcW_eq _)⟩,
    fun hi => ⟨fun i => hw hi 1 rfl, fun sh i => hw hi 2 rfl, fun sh l => hw hi 3 rfl⟩,
    fun b hi => hw hi 1 (hsel ..), fun o hi => hw hi (src2Len o) (hsel ..)⟩

/-! ### Bit fields (R219) -/

/-- The model's reading of a number of `n` bits in two's complement is the word's. -/
theorem signedOf_eq_toInt {n : Nat} (hn : 0 < n) (m : Nat) : signedOf n m = (BitVec.ofNat n m).toInt := by
  obtain ⟨b, rfl⟩ := Nat.exists_eq_add_one.2 hn
  rw [signedOf, BitVec.toInt_eq_toNat_cond, BitVec.toNat_ofNat, Nat.add_sub_cancel]
  have hpow : 2 ^ (b + 1) = 2 * 2 ^ b := Nat.pow_succ'
  by_cases hlt : m % 2 ^ (b + 1) < 2 ^ b
  · rw [if_pos hlt, if_pos (by omega)]
    norm_cast
  · rw [if_neg hlt, if_neg (by omega)]
    norm_cast

section
variable (w : Word)

theorem fieldPos_eq : fieldPos w = w.toNat % 64 := by simp [fieldPos, bits]

theorem fieldLen_eq : fieldLen w = min (w.toNat / 64 % 64 + 1) (64 - w.toNat % 64) := by
  rw [fieldLen, fieldPos_eq]
  rfl

theorem fieldPos_lt : fieldPos w < 64 := by rw [fieldPos_eq]; omega

theorem fieldLen_pos : 0 < fieldLen w := by rw [fieldLen_eq]; omega

/-- The field is cut at bit 63. -/
theorem fieldPos_add_fieldLen_le : fieldPos w + fieldLen w ≤ 64 := by rw [fieldLen_eq, fieldPos_eq]; omega

variable (x : Word) {k : Nat} (hk : k < 64)

/-- Bit `k` of the field of `x`. -/
theorem getLsbD_field (n : Nat) : (BitVec.ofNat n (x.toNat / 2 ^ fieldPos w)).getLsbD k = (decide (k < n) && x.getLsbD (fieldPos w + k)) := by
  rw [BitVec.getLsbD_ofNat, Nat.testBit_div_two_pow, BitVec.getLsbD, Nat.add_comm]

include hk

theorem getLsbD_extZ : (extZ x w).getLsbD k = (decide (k < fieldLen w) && x.getLsbD (fieldPos w + k)) := by
  rw [extZ, BitVec.getLsbD_ofNat, Nat.testBit_mod_two_pow, Nat.testBit_div_two_pow, BitVec.getLsbD, Nat.add_comm, decide_eq_true hk, Bool.true_and]

theorem getLsbD_extS : (extS x w).getLsbD k = x.getLsbD (fieldPos w + min k (fieldLen w - 1)) := by
  have hn := fieldLen_pos w
  have hext : extS x w = (BitVec.ofNat (fieldLen w) (x.toNat / 2 ^ fieldPos w)).signExtend 64 := congrArg _ (signedOf_eq_toInt hn _)
  rw [hext, BitVec.getLsbD_signExtend, decide_eq_true hk, Bool.true_and, BitVec.msb_eq_getLsbD_last, getLsbD_field, getLsbD_field]
  by_cases hin : k < fieldLen w
  · rw [if_pos hin, min_eq_left (by omega), decide_eq_true hin, Bool.true_and]
  · rw [if_neg hin, min_eq_right (by omega), decide_eq_true (by omega), Bool.true_and]

/-- INS keeps the bits outside the field's place. -/
theorem getLsbD_insW (old : Word) : (insW old x w).getLsbD k =
    if fieldPos w ≤ k ∧ k < fieldPos w + fieldLen w then x.getLsbD (k - fieldPos w) else old.getLsbD k := by
  have hmask : (BitVec.ofNat 64 ((2 ^ fieldLen w - 1) * 2 ^ fieldPos w)).getLsbD k = decide (fieldPos w ≤ k ∧ k < fieldPos w + fieldLen w) := by
    rw [BitVec.getLsbD_ofNat, Nat.testBit_mul_two_pow, Nat.testBit_two_pow_sub_one, decide_eq_true hk, Bool.true_and, ← Bool.decide_and]
    exact decide_eq_decide.2 (by omega)
  simp only [insW, BitVec.getLsbD_or, BitVec.getLsbD_and, BitVec.getLsbD_not, BitVec.getLsbD_shiftLeft, hmask, decide_eq_true hk, Bool.true_and]
  by_cases hin : fieldPos w ≤ k ∧ k < fieldPos w + fieldLen w
  · simp [hin, not_lt.2 hin.1]
  · simp [hin]

end

theorem bitFieldForms : BitFieldForms := by
  intro h d a o s p hr x w pos n
  have hsrc : src2Z p h.eng o = w := by cases o <;> rfl
  have hpos : fieldPos w = pos := fieldPos_eq w
  have hlen : fieldLen w = n := fieldLen_eq w
  have hbits {srcs : List Loc} (hi : Issues s h srcs p) {val : State → Word} {P : Word → Prop} (hP : P (val p)) :
      Completes (scalarNow h (src2Len o) d srcs val s) (fun t => ∃ v, WroteReg s p t h (src2Len o) d.toNat v ∧ P v) := by
    obtain ⟨t, ht, hwrote⟩ := Soon.scalarNow_writes hi hr (src2Len o) (val := val) rfl
    exact ⟨t, ht, val p, hwrote, hP⟩
  simp only [← hpos, ← hlen, ← hsrc]
  exact ⟨fun hi => ⟨hbits hi fun k hk => getLsbD_extZ _ x hk, hbits hi fun k hk => getLsbD_extS _ x hk⟩, fun hi => hbits hi fun k hk => getLsbD_insW _ x hk _⟩

end Sys2Proof.Laws.Fields

namespace Sys2Proof

/-- Settles O2: the counts by the bounds of the highest set bit, the fields bit by bit. -/
theorem countsConstantsFields : Obligations.CountsConstantsFields := ⟨Laws.Fields.countsConstantsSelections, Laws.Fields.bitFieldForms⟩

end Sys2Proof
end

section
/-!
PROOFS. Products and divisions (R216, R217, R222): settles O3 and O4.
-/
namespace Sys2Proof.Laws.Products

open Sys2Proof.Machine
open Sys2Proof.Laws.Finishes

/-! ### A result on its way -/

/-- The state in which the result of a scalar instruction is on its way. -/
def resultSent (p : State) (h : Hdr) (d due : Nat) (board : Bool) (v : Word) : State :=
  modCore p (fun c => addLanding c
    { due := some due, eng := h.eng, seq := (c.eng h.eng).seq, scoreboard := board, act := lateG d v false, push := h.push })

theorem eng_resultSent (p : State) (h : Hdr) (d due : Nat) (board : Bool) (v : Word) (e : Eng) :
    (resultSent p h d due board v).core.eng e = p.core.eng e := by
  cases e <;> rfl

theorem sentReg_of_resultSent (s p : State) (h : Hdr) (len d due : Nat) (board : Bool) (v : Word) :
    SentReg s p (finishLater (resultSent p h d due board v) h (nextPc s h len)) h len d due board v := by
  have hw := finishLater_onlyWalked (resultSent p h d due board v) h (nextPc s h len)
  have hland : (finishLater (resultSent p h d due board v) h (nextPc s h len)).core.landing = (resultSent p h d due board v).core.landing :=
    core_of_onlyWalked Core.landing (fun _ _ _ _ _ _ _ => rfl) hw
  refine ⟨walkedTo_of_walkOf (p := p) (q := resultSent p h d due board v) rfl (finishLater_walked ..),
    reserved_of_walkOf (p := p) (q := resultSent p h d due board v) rfl (finishLater_reserved _ h _), hland,
    sameMemory_of_onlyWalked (p := resultSent p h d due board v) hw, ?_⟩
  rw [OnlyLanding, hland]
  exact hw

/-- The divider of the executing engine is busy until `due`. -/
def dividerTaken (p : State) (e : Eng) (due : Nat) : State := modEng p e (fun x => { x with dividerFree := due })

theorem eng_dividerTaken_self (p : State) (e : Eng) (due : Nat) :
    (dividerTaken p e due).core.eng e = { p.core.eng e with dividerFree := due } := eng_setEng_self ..

theorem eng_dividerTaken_ne (p : State) {e f : Eng} (due : Nat) (hf : f ≠ e) : (dividerTaken p e due).core.eng f = p.core.eng f :=
  eng_setEng_ne _ _ hf

theorem dividerTaken_onlyWalked (p : State) (e : Eng) (due : Nat) : OnlyWalked p (dividerTaken p e due) := by
  cases e <;> rfl

theorem dividerTaken_tokens (p : State) (e : Eng) (due : Nat) : (dividerTaken p e due).core.tokens = p.core.tokens := setEng_tokens ..

theorem dividerTaken_landing (p : State) (e : Eng) (due : Nat) : (dividerTaken p e due).core.landing = p.core.landing := setEng_landing ..

theorem dividerTaken_ck (p : State) (e : Eng) (due : Nat) : (dividerTaken p e due).core.ck = p.core.ck := setEng_ck ..

/-- That the divider is taken changes nothing of what is said of a result on its way. -/
theorem sentReg_of_dividerTaken {s p t : State} {h : Hdr} {len d due n : Nat} {board : Bool} {v : Word}
    (ht : SentReg s (dividerTaken p h.eng n) t h len d due board v) : SentReg s p t h len d due board v := by
  obtain ⟨⟨hhere, hgap, hplace, hcounters, hothers⟩, htokens, hland, hmem, hrest⟩ := ht
  rw [eng_dividerTaken_self] at hplace hcounters hland
  rw [dividerTaken_ck] at hgap
  rw [dividerTaken_landing] at hland
  refine ⟨⟨hhere, hgap, hplace, hcounters, fun e he => (hothers e he).trans (eng_dividerTaken_ne p n he)⟩, fun hn k => ?_, hland, hmem,
    Soon.onlyLanding_of_onlyWalked (dividerTaken_onlyWalked ..) hrest⟩
  rw [htokens hn k, queueAt, dividerTaken_tokens, queueAt]

/-! ### Products -/

/-- A product is on its way for three clk (R222). -/
theorem scalarMul_sends {s p : State} {h : Hdr} {srcs : List Loc} (hi : Issues s h srcs p) (len : Nat) (d : Reg) {val : State → Word} {v : Word}
    (hv : val p = v) : Completes (scalarMul h len d srcs val s) (fun t => SentReg s p t h len d.toNat (p.core.ck + 3) false v) :=
  ⟨_, issueOut_of_issues hi, hv ▸ sentReg_of_resultSent s p h len d.toNat (p.core.ck + 3) false (val p)⟩

theorem productsLandAfterThree : ProductsLandAfterThree := by
  intro h d a s p x low highS highZ
  have hm {srcs : List Loc} (hi : Issues s h srcs p) (len : Nat) {val : State → Word} {v : Word} (hv : val p = v) := scalarMul_sends hi len d hv
  simp only [List.forall_mem_cons, List.not_mem_nil, false_implies, implies_true, and_true]
  exact ⟨fun b hi => ⟨hm hi 1 rfl, hm hi 1 rfl, hm hi 1 rfl⟩, fun o hi => ⟨hm hi _ rfl, hm hi _ rfl, hm hi _ rfl⟩⟩

/-! ### Divisions -/

theorem passed_dividerFree (x : Engine) (tag next : Nat) : (passed x tag next).dividerFree = x.dividerFree := by
  unfold passed
  cases x.stretch with
  | some _ => rfl
  | none => dsimp only; split <;> rfl

theorem finishLater_dividerFree (p : State) (h : Hdr) (pc : Nat) :
    ((finishLater p h pc).core.eng h.eng).dividerFree = (p.core.eng h.eng).dividerFree := by
  have heng (c : Core) (x : Engine) (b : Bool) : ({ c.setEng h.eng x with switched := b } : Core).eng h.eng = x := by cases h.eng <;> rfl
  rw [finishLater, issued_core, heng, walked, modCore_core, eng_reserve]
  exact passed_dividerFree ..

/-- When a division issued now lands, for a dividend of `b` significant bits (R222). -/
def divisionDue (p : State) (b : Nat) : Nat := p.core.ck + (6 + (b + 1) / 2)

/-- The place in the walk that the result carries is not the divider's. -/
theorem resultSent_dividerTaken (p : State) (h : Hdr) (d due : Nat) (v : Word) : resultSent (dividerTaken p h.eng due) h d due true v =
    modCore p (fun c => addLanding (c.setEng h.eng { c.eng h.eng with dividerFree := due })
      { due := some due, eng := h.eng, seq := (c.eng h.eng).seq, scoreboard := true, act := lateG d v false, push := h.push }) := by
  simp only [resultSent, dividerTaken, modEng, modCore, eng_setEng_self]

/-- A division that finds the divider free takes it, and its result is on its way (R222). -/
theorem scalarDiv_sends {s p : State} {h : Hdr} {srcs : List Loc} (hi : Issues s h srcs p) (hfree : (p.core.eng h.eng).dividerFree ≤ p.core.ck)
    (len : Nat) (d : Reg) {sig : State → Nat} {val : State → Word} {m : Nat} {v : Word} (hm : sig p = sigBits m) (hv : val p = v) :
    Completes (scalarDiv h len d srcs sig val s) (fun t => ∃ b, SignificantBits m b ∧ SentReg s p t h len d.toNat (divisionDue p b) true v ∧
      (t.core.eng h.eng).dividerFree = divisionDue p b) := by
  have hdue : p.core.ck + 6 + ceilDiv (sig p) 2 = divisionDue p (sigBits m) := by rw [hm, Nat.add_assoc]; rfl
  have hexec : scalarDiv h len d srcs sig val s = .next (finishLater (resultSent (dividerTaken p h.eng (divisionDue p (sigBits m))) h d.toNat
      (divisionDue p (sigBits m)) true v) h (nextPc s h len)) := by
    rw [scalarDiv, issueOut_of_issues hi, if_neg (not_lt.2 hfree), resultSent_dividerTaken, ← hdue, ← hv]
    rfl
  refine ⟨_, hexec, sigBits m, Fields.significantBits_sigBits m, sentReg_of_dividerTaken (sentReg_of_resultSent ..), ?_⟩
  rw [finishLater_dividerFree, eng_resultSent, eng_dividerTaken_self]

/-- A division that finds the divider busy waits (R222). -/
theorem scalarDiv_waits {s p : State} {h : Hdr} {srcs : List Loc} (hi : Issues s h srcs p) (hbusy : p.core.ck < (p.core.eng h.eng).dividerFree)
    (len : Nat) (d : Reg) (sig : State → Nat) (val : State → Word) : scalarDiv h len d srcs sig val s = .next s := by
  rw [scalarDiv, issueOut_of_issues hi, if_pos hbusy]
  rfl

theorem busyDividerWaits : BusyDividerWaits := by
  intro h d a s p hbusy
  have hw {srcs : List Loc} (hi : Issues s h srcs p) (len : Nat) {sig : State → Nat} {val : State → Word} := scalarDiv_waits hi hbusy len d sig val
  simp only [List.forall_mem_cons, List.not_mem_nil, false_implies, implies_true, and_true]
  exact ⟨fun b hi => ⟨hw hi 1, hw hi 1, hw hi 1, hw hi 1⟩, fun o hi => ⟨hw hi _, hw hi _, hw hi _, hw hi _⟩⟩

/-! ### Quotients and remainders (R217) -/

section
variable (x y : Word)

theorem divZ_eq : divZ x y = quotientZ x y := by
  unfold divZ quotientZ
  split
  · rfl
  · exact BitVec.udiv_def

/-- Quotient times divisor plus remainder is the dividend. -/
theorem mul_udiv_add_umod : y * (x / y) + x % y = x := by
  refine BitVec.eq_of_toNat_eq ?_
  rw [BitVec.toNat_add, BitVec.toNat_mul, BitVec.toNat_udiv, BitVec.toNat_umod, Nat.mod_add_mod, Nat.div_add_mod, Nat.mod_eq_of_lt x.isLt]

theorem remZ_eq : remZ x y = remainderZ x y := by
  unfold remZ remainderZ
  split
  · rfl
  · next hy =>
    have hq : quotientZ x y = x / y := (divZ_eq x y).symm.trans (if_neg hy)
    rw [hq]
    exact eq_sub_of_add_eq' (mul_udiv_add_umod x y)

/-- The overflow of a signed division (R217), as words and as numbers. -/
theorem overflows_iff : (x = BitVec.intMin 64 && y = BitVec.allOnes 64) = true ↔ x.toInt = -2 ^ 63 ∧ y.toInt = -1 := by
  have hx : x = BitVec.intMin 64 ↔ x.toInt = -2 ^ 63 := BitVec.toInt_inj.symm
  have hy : y = BitVec.allOnes 64 ↔ y.toInt = -1 := BitVec.toInt_inj.symm
  simp only [Bool.and_eq_true, decide_eq_true_eq, hx, hy]

theorem divS_eq : divS x y = quotientS x y := by
  simp only [divS, quotientS, overflows_iff]
  rfl

theorem remS_eq : remS x y = remainderS x y := by
  simp only [remS, remainderS, overflows_iff]
  split
  · rfl
  · split
    · rfl
    · next hy hov =>
      have hq : quotientS x y = BitVec.ofInt 64 (x.toInt.tdiv y.toInt) := by rw [quotientS, if_neg hy, if_neg hov]
      have hx : BitVec.ofInt 64 (y.toInt * x.toInt.tdiv y.toInt + x.toInt.tmod y.toInt) = x := by rw [Int.mul_tdiv_add_tmod, BitVec.ofInt_toInt]
      rw [BitVec.ofInt_add, BitVec.ofInt_mul, BitVec.ofInt_toInt] at hx
      rw [hq]
      exact eq_sub_of_add_eq' hx

theorem quotientZ_mul_add (hy : y ≠ 0) : quotientZ x y * y + remainderZ x y = x := by
  rw [remainderZ, if_neg hy, mul_comm, add_sub_cancel]

theorem quotientS_mul_add (hy : y ≠ 0) : quotientS x y * y + remainderS x y = x := by
  by_cases hov : x.toInt = -2 ^ 63 ∧ y.toInt = -1
  · obtain ⟨rfl, rfl⟩ : x = BitVec.intMin 64 ∧ y = BitVec.allOnes 64 := by simpa using (overflows_iff x y).2 hov
    decide
  · rw [remainderS, if_neg hy, if_neg hov, mul_comm, add_sub_cancel]

end

/-- Settles O4: the divider is taken until the result lands, and the model's quotients and remainders are those of R217. -/
theorem divisionsLandByDividend : Obligations.DivisionsLandByDividend := by
  intro h d a s p hfree x Sent
  have hs {srcs : List Loc} (hi : Issues s h srcs p) (len : Nat) {sig : State → Nat} {val : State → Word} {m : Nat} {v : Word} (hm : sig p = sigBits m)
      (hv : val p = v) := scalarDiv_sends hi hfree len d hm hv
  simp only [List.forall_mem_cons, List.not_mem_nil, false_implies, implies_true, and_true]
  exact ⟨fun b hi => ⟨hs hi 1 rfl (divZ_eq ..), hs hi 1 rfl (remZ_eq ..), hs hi 1 rfl (divS_eq ..), hs hi 1 rfl (remS_eq ..)⟩,
    fun o hi => ⟨hs hi _ rfl (divZ_eq ..), hs hi _ rfl (remZ_eq ..), hs hi _ rfl (divS_eq ..), hs hi _ rfl (remS_eq ..)⟩,
    fun u y hy => ⟨quotientZ_mul_add u y hy, quotientS_mul_add u y hy⟩⟩

end Sys2Proof.Laws.Products

namespace Sys2Proof

/-- Settles O3: a product is a late result of three clk, and the divider is looked at before anything else. -/
theorem productsAndBusyDividers : Obligations.ProductsAndBusyDividers := ⟨Laws.Products.productsLandAfterThree, Laws.Products.busyDividerWaits⟩

end Sys2Proof
end

section
/-!
PROOFS. MOV (R221, R431): settles O5.
-/
namespace Sys2Proof.Laws.MoveCodes

open Sys2Proof.Machine
open Sys2Proof.Laws.Finishes
open Sys2Proof.Laws.Soon

/-! ### What each code comes to -/

/-- Each form of a move is the same body, with its own number of parcels. -/
theorem exec_moves {h : Hdr} {d a : Reg} {i : BitVec 4 → Instr} {len : Nat}
    (hi : (i, len) ∈ ([(fun m => .mov h d a m, 1), (fun m => .movLong h d a m false, 2), (fun m => .movLong h d a m true, 3)] :
      List ((BitVec 4 → Instr) × Nat))) (m : BitVec 4) (s : State) : exec (i m) s = issueOut h len (moveSrcs a m) (moveBody h d a m) s := by
  simp only [List.mem_cons, Prod.mk.injEq, List.not_mem_nil, or_false] at hi
  rcases hi with ⟨rfl, rfl⟩ | ⟨rfl, rfl⟩ | ⟨rfl, rfl⟩ <;> rfl

/-- The state in which the executing engine's copy of a loop counter is set (R211). -/
def counterSet (p : State) (e : Eng) (n : Nat) (v : BitVec 32) : State := modEng p e (fun x => { x with lc := place 0 x.lc n v })

/-- The state in which an index register is set, and sound again (R431). -/
def indexSet (p : State) (n : Nat) (v : Word) : State :=
  modCore p (fun c => { c with kregs := place 0 c.kregs n v, kMarks := c.kMarks.filter (fun m => m != n) })

section
variable (h : Hdr) (d a : Reg) (p : State)

theorem moveBody_register : moveBody h d a 0 p = .soon (putG p h.eng d.toNat (readG p h.eng a.toNat)) := rfl

theorem moveBody_fromCounter (ha : a.toNat < 8) : moveBody h d a 1 p = .soon (putG p h.eng d.toNat ((readLc p h.eng a.toNat).setWidth 64)) := by
  have hbody : moveBody h d a 1 p = .soon (putG p h.eng d.toNat ((readLc p h.eng (a.toNat % 8)).setWidth 64)) := rfl
  rw [hbody, Nat.mod_eq_of_lt ha]

theorem moveBody_toCounter (hd : d.toNat < 8) : moveBody h d a 2 p = .soon (counterSet p h.eng d.toNat ((readG p h.eng a.toNat).setWidth 32)) := by
  have hbody : moveBody h d a 2 p = .soon (counterSet p h.eng (d.toNat % 8) ((readG p h.eng a.toNat).setWidth 32)) := rfl
  rw [hbody, Nat.mod_eq_of_lt hd]

theorem moveBody_fromIndex (ha : a.toNat < 32) : moveBody h d a 3 p =
    if a.toNat ∈ p.core.kMarks then .poison 0 else .soon (putG p h.eng d.toNat (look 0 p.core.kregs a.toNat)) := by
  have hbody : moveBody h d a 3 p = if anyPoison p.core [.k (a.toNat % 32)] then .poison 0 else .soon (putG p h.eng d.toNat (look 0 p.core.kregs (a.toNat % 32))) :=
    rfl
  have hmark : anyPoison p.core [.k a.toNat] = decide (a.toNat ∈ p.core.kMarks) := by simp [anyPoison]
  simp only [hbody, Nat.mod_eq_of_lt ha, hmark, decide_eq_true_eq]

theorem moveBody_toIndex (hd : d.toNat < 32) : moveBody h d a 4 p = .soon (indexSet p d.toNat (readG p h.eng a.toNat)) := by
  have hbody : moveBody h d a 4 p = .soon (indexSet p (d.toNat % 32) (readG p h.eng a.toNat)) := rfl
  rw [hbody, Nat.mod_eq_of_lt hd]

end

/-! ### What the writes of a counter and of an index register leave -/

theorem counterSet_onlyWalked (p : State) (e : Eng) (n : Nat) (v : BitVec 32) : OnlyWalked p (counterSet p e n v) := by
  cases e <;> rfl

theorem counterSet_eng (p : State) (e : Eng) (n : Nat) (v : BitVec 32) :
    (counterSet p e n v).core.eng e = { p.core.eng e with lc := place 0 (p.core.eng e).lc n v } := eng_setEng_self ..

theorem pushedSoon_counterSet {p t : State} {h : Hdr} {n : Nat} {v : BitVec 32} (ht : PushedSoon (counterSet p h.eng n v) t h) : PushedSoon p t h := by
  obtain ⟨hres, hland⟩ := ht
  have htok : (counterSet p h.eng n v).core.tokens = p.core.tokens := setEng_tokens ..
  have hin : (counterSet p h.eng n v).core.landing = p.core.landing := setEng_landing ..
  have hck : (counterSet p h.eng n v).core.ck = p.core.ck := setEng_ck ..
  refine ⟨fun hn k => ?_, ?_⟩
  · rw [hres hn k, queueAt, htok, queueAt]
  · rw [hland, hin, tokensLater, tokensNext, counterSet_eng, hck]
    rfl

/-- Code 2: the executing engine's copy of the counter alone. -/
theorem toCounter_finishes (p : State) (h : Hdr) (d pc : Nat) (v : BitVec 32) :
    let t := finishSoon (counterSet p h.eng d v) h pc
    (t.core.eng h.eng).pc = pc ∧ PushedSoon p t h ∧ OnlyLanding p t ∧ SameMemory p t ∧
      (∀ n, readLc t h.eng n = if n = d then v else readLc p h.eng n) ∧ ∀ e, e ≠ h.eng → t.core.eng e = p.core.eng e := by
  intro t
  obtain ⟨hhere, -, -, hcounters, hothers⟩ := finishSoon_walked (counterSet p h.eng d v) h pc
  have honly : OnlyLanding p t := onlyLanding_of_onlyWalked (counterSet_onlyWalked ..) (finishSoon_onlyLanding ..)
  refine ⟨hhere, pushedSoon_counterSet (finishSoon_pushed ..), honly, sameMemory_of_onlyLanding honly, fun n => ?_, fun e he => ?_⟩
  · rw [readLc, hcounters, counterSet_eng, look_place, readLc]
  · exact (hothers e he).trans (eng_setEng_ne _ _ he)

/-- Code 4: one index register, which the write makes sound. -/
theorem toIndex_finishes (p : State) (h : Hdr) (d pc : Nat) (v : Word) :
    let t := finishSoon (indexSet p d v) h pc
    WalkedTo p t h p.core.ck pc ∧ PushedSoon p t h ∧ SameMemory p t ∧
      (∀ n, look 0 t.core.kregs n = if n = d then v else look 0 p.core.kregs n) ∧ (∀ n, n ∈ t.core.kMarks ↔ n ∈ p.core.kMarks ∧ n ≠ d) ∧
      OnlyLanding { p with core := { p.core with kregs := t.core.kregs, kMarks := t.core.kMarks } } t := by
  intro t
  have honly : OnlyLanding (indexSet p d v) t := finishSoon_onlyLanding ..
  have hregs : t.core.kregs = place 0 p.core.kregs d v := core_of_onlyLanding Core.kregs (fun _ _ _ _ _ _ _ _ => rfl) honly
  have hmarks : t.core.kMarks = p.core.kMarks.filter (fun m => m != d) := core_of_onlyLanding Core.kMarks (fun _ _ _ _ _ _ _ _ => rfl) honly
  refine ⟨walkedTo_of_walkOf (p := p) (q := indexSet p d v) rfl (finishSoon_walked ..), finishSoon_pushed (indexSet p d v) h pc,
    sameMemory_of_onlyLanding (p := indexSet p d v) honly, fun n => ?_, fun n => ?_, ?_⟩
  · rw [hregs, look_place]
  · rw [hmarks, List.mem_filter, bne_iff_ne]
  · rw [hregs, hmarks]
    exact honly

/-- Settles O5: each code is one write in the next clk, but for the read of a marked index register, which consumes its mark. -/
theorem movesByCode : Obligations.MovesByCode := by
  intro h d a s p i len hil
  have hexec (m : BitVec 4) (hi : Issues s h (moveSrcs a m) p) : exec (i m) s = .next (finish s h (nextPc s h len) (moveBody h d a m p)) :=
    (exec_moves hil m s).trans (issueOut_of_issues hi)
  refine ⟨fun hr => ⟨fun hi => ?_, fun hi ha => ?_, fun hi ha hclean => ?_⟩, fun hi ha hmark => ?_, fun hi hd => ?_, fun hi hd => ?_⟩
  · exact ⟨_, hexec 0 hi, wroteReg_of_putG hr len _⟩
  · exact ⟨_, (hexec 1 hi).trans (by rw [moveBody_fromCounter _ _ _ _ ha]; rfl), wroteReg_of_putG hr len _⟩
  · exact ⟨_, (hexec 3 hi).trans (by rw [moveBody_fromIndex _ _ _ _ ha, if_neg hclean]; rfl), wroteReg_of_putG hr len _⟩
  · rw [hexec 3 hi, moveBody_fromIndex _ _ _ _ ha, if_pos hmark]
    rfl
  · exact ⟨_, (hexec 2 hi).trans (by rw [moveBody_toCounter _ _ _ _ hd]; rfl), toCounter_finishes ..⟩
  · exact ⟨_, (hexec 4 hi).trans (by rw [moveBody_toIndex _ _ _ _ hd]; rfl), toIndex_finishes ..⟩

end Sys2Proof.Laws.MoveCodes
end

section
/-!
PROOFS. The addresses of loop nests and the faults of LD and ST (R184, R213, R214): settles O17.
-/
namespace Sys2Proof.Laws.Addresses

open Sys2Proof.Machine

/-! ### Loop-nest addresses (R213) -/

/-- Term `i` of the access whose descriptor is `w`. -/
def nestTerm (p : State) (w : Word) (i : Nat) : Word :=
  if w.getLsbD (6 * i + 5) then (readLc p .a i).setWidth 64 * look 0 p.core.kregs (w.toNat / 2 ^ (6 * i) % 32) else 0

/-- Adding the enabled terms one after the other adds the sum of all terms. -/
theorem foldl_nestTerms (p : State) (w : Word) (l : List Nat) (x : Word) :
    l.foldl (fun acc t => if w.getLsbD (6 * t + 5) then
        acc + (readLc p .a t).setWidth 64 * look 0 p.core.kregs (bits w (6 * t + 4) (6 * t)) else acc) x = x + (l.map (nestTerm p w)).sum := by
  induction l generalizing x with
  | nil => exact (add_zero x).symm
  | cons t l ih =>
    have hindex : bits w (6 * t + 4) (6 * t) = w.toNat / 2 ^ (6 * t) % 32 := by
      rw [bits, show 6 * t + 4 + 1 - 6 * t = 5 by omega]
      rfl
    rw [List.foldl_cons, ih, List.map_cons, List.sum_cons, hindex, nestTerm]
    by_cases hon : w.getLsbD (6 * t + 5) = true
    · rw [if_pos hon, if_pos hon, add_assoc]
    · rw [if_neg hon, if_neg hon, zero_add]

section
variable (p : State) (j : Nat)

theorem lnAddress_of_reserved (hbad : (readSys p .a (sysLNA + j)).toNat / 2 ^ 48 % 2 ^ 10 ≠ 0) : lnAddress p j = none :=
  if_pos (bne_iff_ne.2 hbad)

theorem lnAddress_of_clear (hclear : (readSys p .a (sysLNA + j)).toNat / 2 ^ 48 % 2 ^ 10 = 0) : lnAddress p j =
    some (readG p .a ((readSys p .a (sysLNA + j)).toNat / 2 ^ 58) + ((List.range 8).map (nestTerm p (readSys p .a (sysLNA + j)))).sum) := by
  have hbase (w : Word) : bits w 63 58 = w.toNat / 2 ^ 58 := Nat.mod_eq_of_lt (Nat.div_lt_of_lt_mul w.isLt)
  have hform : lnAddress p j = some _ := if_neg fun hb => bne_iff_ne.1 hb hclear
  rw [hform, foldl_nestTerms, hbase]

end

theorem sum_range_eight (f : Nat → Word) : ((List.range 8).map f).sum = f 0 + f 1 + f 2 + f 3 + f 4 + f 5 + f 6 + f 7 := by
  simp [List.range_succ, add_assoc]

/-! ### Faults at issue -/

theorem withBase_of_none {p : State} {b : Base} (hin : mustWait p.core .a (baseLocs p b) = false) (hclean : anyPoison p.core (baseLocs p b) = false)
    (ha : baseAddr p b = none) (k : Word → Act) : withBase p b k = .trap formatFault := by
  simp [withBase, hin, hclean, ha]

/-- An instruction of the access engine whose body ends in a fault of its own raises it where it stands (R413). -/
theorem finish_trap {s : State} {h : Hdr} (he : h.eng = .a) (next : Nat) (f : FaultRec) : finish s h next (.trap f) =
    takeTrap s .a { f with popped := (s.core.eng .a).noPop } (s.core.eng .a).pc := by
  rw [finish, he]

theorem loopNestAddresses : LoopNestAddresses := by
  intro h d j t o s p hi he hin hclean w term
  refine ⟨fun hclear => ?_, fun hbad => ?_⟩
  · rw [lnAddress_of_clear p j.toNat hclear, sum_range_eight]
    rfl
  · have hbase (k : Word → Act) : withBase p (.nest j) k = .trap formatFault :=
      withBase_of_none (b := .nest j) hin hclean (lnAddress_of_reserved p j.toNat hbad) k
    have hraises (body : State → Word → Act) : issueOut h (src2Len o) (src2Locs o) (fun q => withBase q (.nest j) (body q)) s =
        .next (takeTrap s .a { code := .formatConfig, popped := (s.core.eng .a).noPop } (s.core.eng .a).pc) := by
      rw [issueOut_of_issues hi, hbase, finish_trap he]
      rfl
    simp only [List.forall_mem_cons, List.not_mem_nil, false_implies, implies_true, and_true]
    exact ⟨hraises _, hraises _⟩

/-! ### Faults of an access (R184) -/

/-- The fault that an access of `w` bytes at `v` raises, in the order of R184's checks. -/
def accessFault (p : State) (v w : Nat) (want : Want) : Option FaultRec :=
  match accessPage p v w want with
  | .bad f => some f
  | .miss => none
  | .ok _ pa => reachFault p v pa w

section
variable {p : State} {d : Reg} {t : Ty} {v : Nat} {f : FaultRec}

theorem accessFault_cases {w : Nat} {want : Want} (hf : accessFault p v w want = some f) :
    accessPage p v w want = .bad f ∨ ∃ e pa, accessPage p v w want = .ok e pa ∧ reachFault p v pa w = some f := by
  unfold accessFault at hf
  cases hpage : accessPage p v w want with
  | bad g => rw [hpage] at hf; exact .inl (congrArg Tr.bad (Option.some.inj hf))
  | miss => rw [hpage] at hf; cases hf
  | ok e pa => rw [hpage] at hf; exact .inr ⟨e, pa, rfl, hf⟩

theorem ldBody_of_accessFault {h : Hdr} (hf : accessFault p v (typeBytes t) { r := true } = some f) : ldBody h d t v p = .trap f := by
  rcases accessFault_cases hf with hpage | ⟨e, pa, hpage, hreach⟩
  · simp only [ldBody, hpage]
  · simp only [ldBody, hpage, hreach]

theorem stBody_of_accessFault (hin : mustWait p.core .a [.g d.toNat] = false) (hf : accessFault p v (typeBytes t) { w := true } = some f) :
    stBody d t v p = .trap f := by
  rcases accessFault_cases hf with hpage | ⟨e, pa, hpage, hreach⟩
  · simp only [stBody, hin, Bool.false_eq_true, if_false, hpage]
  · simp only [stBody, hin, Bool.false_eq_true, if_false, hpage, hreach]

end

section
variable (p : State) (v : Word) {w : Nat} (want : Want)

theorem accessFault_notCanonical (hv : 2 ^ 48 ≤ v.toNat) : accessFault p v.toNat w want = some { code := .translation, cause := 0, tval := v } := by
  have hpage : accessPage p v.toNat w want = .bad (trFault 0 v.toNat) := if_pos (by simpa [canonical] using hv)
  rw [accessFault, hpage]
  simp [trFault]

variable (hv : v.toNat < 2 ^ 48)
include hv

theorem accessPage_canonical : accessPage p v.toNat w want = if v.toNat % w ≠ 0 then .bad (alignFault v.toNat) else translate p .a v.toNat want := by
  have hcanon : canonical v.toNat = true := decide_eq_true hv
  simp [accessPage, hcanon]

theorem accessFault_notAligned (hw : v.toNat % w ≠ 0) : accessFault p v.toNat w want = some { code := .alignment, tval := v } := by
  rw [accessFault, accessPage_canonical p v want hv, if_pos hw]
  simp [alignFault]

variable {want} (hw : v.toNat % w = 0)
include hw

theorem accessPage_aligned : accessPage p v.toNat w want = translate p .a v.toNat want := by
  rw [accessPage_canonical p v want hv, if_neg (not_not.2 hw)]

theorem accessFault_notTranslated {f : FaultRec} (ht : translate p .a v.toNat want = .bad f) : accessFault p v.toNat w want = some f := by
  rw [accessFault, accessPage_aligned p v hv hw, ht]

theorem accessFault_notReached {e : TlbEntry} {pa : Nat} (ht : translate p .a v.toNat want = .ok e pa) (hcls : classOf pa = 3)
    (hreg : isManagement (windowOffset pa) = false ∨ w ≠ 8) : accessFault p v.toNat w want = some { code := .engineCommand, tval := v } := by
  have hno : (isManagement (windowOffset pa) && w == 8) = false := by
    rcases hreg with hreg | hreg
    · rw [hreg, Bool.false_and]
    · rw [beq_false_of_ne hreg, Bool.and_false]
  rw [accessFault, accessPage_aligned p v hv hw, ht]
  simp [reachFault, hcls, hno, engineFault]

end

theorem loadStoreFaults : LoadStoreFaults := by
  intro h d a t o v s p hi he hd r hr ha w Raises
  have hraises (f : FaultRec) (hf : accessFault p v.toNat w r.2.2 = some f) : Raises f := by
    have hload {i : Instr × Base} (hm : i ∈ ([(.ld h d a t o, .reg a), (.ldLn h d a t o, .nest a)] : List (Instr × Base))) (ha : Addressed p i.2 o v)
        (hf : accessFault p v.toNat w { r := true } = some f) := (Loads.exec_load hi hm ha).trans (by rw [ldBody_of_accessFault hf, finish_trap he])
    have hstore {i : Instr × Base} (hm : i ∈ ([(.st h d a t o, .reg a), (.stLn h d a t o, .nest a)] : List (Instr × Base))) (ha : Addressed p i.2 o v)
        (hf : accessFault p v.toNat w { w := true } = some f) :=
      (LoggedStores.exec_store hi hm ha).trans (by rw [stBody_of_accessFault hd hf, finish_trap he])
    simp only [List.mem_cons, List.not_mem_nil, or_false] at hr
    rcases hr with rfl | rfl | rfl | rfl
    · exact hload (.head _) ha hf
    · exact hload (.tail _ (.head _)) ha hf
    · exact hstore (.head _) ha hf
    · exact hstore (.tail _ (.head _)) ha hf
  exact ⟨fun hv => hraises _ (accessFault_notCanonical p v _ hv), fun hv hw => hraises _ (accessFault_notAligned p v _ hv hw),
    fun hv hw f ht => hraises _ (accessFault_notTranslated p v hv hw ht),
    fun hv hw e pa ht hcls hreg => hraises _ (accessFault_notReached p v hv hw ht hcls hreg)⟩

end Sys2Proof.Laws.Addresses

namespace Sys2Proof

/-- Settles O17: the terms of a loop nest are added one by one, and each check of R184 is reached when those before it pass. -/
theorem addressesAndTheirFaults : Obligations.AddressesAndTheirFaults := ⟨Laws.Addresses.loopNestAddresses, Laws.Addresses.loadStoreFaults⟩

end Sys2Proof
end

section
/-!
PROOFS. What a vector instruction leaves whose results are written at its latency (R226), and its elements one by one (R230): the layer under
O26, O27 and O29.
-/
namespace Sys2Proof.Laws.VectorResults

open Sys2Proof.Machine
open Sys2Proof.Laws.Finishes

/-! ### Cells on their way -/

/-- The state in which the cells of a vector instruction are on their way. -/
def cellsSent (p : State) (h : Hdr) (lat : Nat) (ws : List Late) (counts : List Nat) : State :=
  modCore p (fun c => addLanding c
    { due := some (c.ck + lat), eng := h.eng, seq := (c.eng h.eng).seq, scoreboard := false, act := .write ws, push := h.push, counts := counts })

theorem sentCells_of_cellsSent (s p : State) (h : Hdr) (len lat : Nat) (ws : List Late) (counts : List Nat) :
    SentCells s p (finishLater (cellsSent p h lat ws counts) h (nextPc s h len)) h len lat ws counts := by
  have hw := finishLater_onlyWalked (cellsSent p h lat ws counts) h (nextPc s h len)
  have hland : (finishLater (cellsSent p h lat ws counts) h (nextPc s h len)).core.landing = (cellsSent p h lat ws counts).core.landing :=
    core_of_onlyWalked Core.landing (fun _ _ _ _ _ _ _ => rfl) hw
  refine ⟨walkedTo_of_walkOf (p := p) (q := cellsSent p h lat ws counts) rfl (finishLater_walked ..),
    reserved_of_walkOf (p := p) (q := cellsSent p h lat ws counts) rfl (finishLater_reserved _ h _), hland,
    sameMemory_of_onlyWalked (p := cellsSent p h lat ws counts) hw, ?_⟩
  rw [OnlyLanding, hland]
  exact hw

theorem completes_imp {o : Host.Outcome State Fault Refusal} {P Q : State → Prop} (ho : Completes o P) (hPQ : ∀ q, P q → Q q) : Completes o Q :=
  ho.imp (fun q hq => hq.imp_right (hPQ q))

/-- What is on its way determines the events it counts. -/
theorem counts_of_sentCells {s p t : State} {h : Hdr} {len lat : Nat} {ws ws' : List Late} {counts counts' : List Nat}
    (ht : SentCells s p t h len lat ws counts) (ht' : SentCells s p t h len lat ws' counts') : counts = counts' :=
  congrArg Landing.counts (List.singleton_injective (List.append_cancel_left (ht.landing.symm.trans ht'.landing)))

/-- A vector instruction that issues and consumes what it reads puts the cells that its body gives on their way (R226, R227). -/
theorem vecOut_sends {s p : State} {h : Hdr} {cells : List Nat} {regs : List Loc} (hi : Issues s h (regs ++ cellLocs cells) p) (len lat : Nat)
    (val : State → List VecCell) : Completes (vecOut h len lat cells regs val s)
      (fun q => SentCells s p q h len lat ((val p).map VecCell.late) ((val p).flatMap VecCell.counts)) :=
  ⟨_, issueOut_of_issues hi, sentCells_of_cellsSent ..⟩

/-! ### Element by element (R230) -/

theorem zipIdx_eq_map_range {α : Type} (l : List α) (x : α) : l.zipIdx = (List.range l.length).map (fun k => (l.getD k x, k)) :=
  List.ext_getElem (by simp) (fun k hk _ => by
    rw [List.length_zipIdx] at hk
    simp [hk])

theorem zip_eq_map_range {α β : Type} {l : List α} {m : List β} {n : Nat} (hl : l.length = n) (hm : m.length = n) (x : α) (y : β) :
    l.zip m = (List.range n).map (fun k => (l.getD k x, m.getD k y)) :=
  List.ext_getElem (by simp [hl, hm]) (fun k hk _ => by
    have hkn : k < n := by simpa [hl, hm] using hk
    simp [hl, hm, hkn])

/-- A vector instruction whose body gives `f k` for cell `k` of its destination, without marks. -/
theorem vecOut_sends_elements {s p : State} {h : Hdr} {cells : List Nat} {regs : List Loc} (hi : Issues s h (regs ++ cellLocs cells) p) {len lat : Nat}
    {val : State → List VecCell} {d : MOp} {n : Nat} {f : Nat → VecCell} (hval : val p = (List.range n).map f)
    (hkey : ∀ k, (f k).key = (viewCells d).getD k 0) (hmark : ∀ k, (f k).mark = false) :
    Completes (vecOut h len lat cells regs val s)
      (fun q => SentCells s p q h len lat (cellWrites d n (fun k => (f k).val) (fun _ => false)) ((List.range n).flatMap (fun k => (f k).counts))) := by
  have hlate : cellWrites d n (fun k => (f k).val) (fun _ => false) = (List.range n).map (VecCell.late ∘ f) :=
    List.map_congr_left (fun k _ => by rw [Function.comp_apply, VecCell.late, hkey, hmark])
  have hsent := vecOut_sends hi len lat val
  rw [hval, List.map_map, List.flatMap_map] at hsent
  rw [hlate]
  exact hsent

section
variable {p : State} {d a : MOp} {n : Nat} (hd : (viewCells d).length = n) (ha : (viewCells a).length = n)
include hd ha

/-- Lane-wise results, element by element. -/
theorem lanes_eq (f : Nat → Nat → Nat → Nat → Elem) (g : Nat) : lanes p d a f g = (List.range n).map (fun k =>
    let e := f k (cellOf p a k) (cellOf p d k) ((viewCells d).getD k 0)
    { key := (viewCells d).getD k 0, val := e.bits, counts := fecOf g e.kind }) := by
  have hz := zip_eq_map_range hd ha 0 0
  rw [lanes, zipIdx_eq_map_range _ (0, 0), hz, List.length_map, List.length_range, List.map_map]
  refine List.map_congr_left (fun k hk => ?_)
  simp [List.mem_range.1 hk, cellOf, cellNat]

/-- A lane-wise instruction that issues sends element `e k` to cell `k` of its destination, with its event. -/
theorem lanes_send {s : State} {h : Hdr} {cells : List Nat} (hi : Issues s h (cellLocs cells) p) (len lat g : Nat)
    {f : State → Nat → Nat → Nat → Nat → Elem} {e : Nat → Elem}
    (he : ∀ k, f p k (cellOf p a k) (cellOf p d k) ((viewCells d).getD k 0) = e k) :
    Completes (vecOut h len lat cells [] (fun p => lanes p d a (f p) g) s)
      (fun q => SentCells s p q h len lat (cellWrites d n (fun k => (e k).bits) (fun _ => false)) ((List.range n).flatMap (fun k => fecOf g (e k).kind))) := by
  have hlanes := lanes_eq (p := p) hd ha (f p) g
  simp only [he] at hlanes
  exact vecOut_sends_elements (regs := []) (val := fun p => lanes p d a (f p) g) hi hlanes (fun _ => rfl) (fun _ => rfl)

/-- A lane-wise operation of two sources other than VFMA. -/
theorem laneBin_sends {s : State} {h : Hdr} {x : VSrc} {op : LaneOp} (hop : op ≠ .fma) (hi : Issues s h (cellLocs (viewCells a ++ vsrcCells x)) p)
    (sat : Bool) (t : Ty) {e : Nat → Elem}
    (he : ∀ k, laneOp op sat t h.rm (readSys p .v sysOVT) (cellOf p a k) (srcOf p x k) (cellOf p d k) = e k) :
    Completes (laneBin op sat h d a t x s) (fun q => SentCells s p q h 3 4 (cellWrites d n (fun k => (e k).bits) (fun _ => false))
      ((List.range n).flatMap (fun k => fecOf (groupOf t) (e k).kind))) := by
  rw [laneBin, if_neg hop, List.append_nil]
  exact lanes_send hd ha hi 3 4 _ he

/-- VFMA reads the old destination too. -/
theorem laneFma_sends {s : State} {h : Hdr} {x : VSrc} (hi : Issues s h (cellLocs (viewCells a ++ vsrcCells x ++ viewCells d)) p)
    (sat : Bool) (t : Ty) {e : Nat → Elem}
    (he : ∀ k, laneOp .fma sat t h.rm (readSys p .v sysOVT) (cellOf p a k) (srcOf p x k) (cellOf p d k) = e k) :
    Completes (laneBin .fma sat h d a t x s) (fun q => SentCells s p q h 3 4 (cellWrites d n (fun k => (e k).bits) (fun _ => false))
      ((List.range n).flatMap (fun k => fecOf (groupOf t) (e k).kind))) := lanes_send hd ha hi 3 4 _ he

/-- A lane-wise operation of one source. -/
theorem laneUn_sends {s : State} {h : Hdr} (hi : Issues s h (cellLocs (viewCells a)) p) (op : LaneOp) (sat : Bool) (t : Ty) {e : Nat → Elem}
    (he : ∀ k, laneOp op sat t h.rm (readSys p .v sysOVT) (cellOf p a k) 0 0 = e k) :
    Completes (laneUn op sat h d a t s) (fun q => SentCells s p q h 2 4 (cellWrites d n (fun k => (e k).bits) (fun _ => false))
      ((List.range n).flatMap (fun k => fecOf (groupOf t) (e k).kind))) := lanes_send hd ha hi 2 4 _ he

end

end Sys2Proof.Laws.VectorResults
end

section
/-!
PROOFS. Floating-point lanes and special functions (R232, R245): settles O27.
-/
namespace Sys2Proof.Laws.FloatLanes

open Sys2Proof.Machine
open Sys2Proof.Laws.VectorResults

/-- With a floating-point type a lane computes on the bits of the type's width (R223). -/
theorem laneOp_of_fmtOf {t : Ty} {f : Fmt} (hf : fmtOf t = some f) (op : LaneOp) (sat : Bool) (rm : BitVec 2) (ovt : Word) (a s d : Nat) :
    laneOp op sat t rm ovt a s d = floatLane op t f rm ovt (a % 2 ^ widthOf t) (s % 2 ^ widthOf t) (d % 2 ^ widthOf t) := by
  rw [laneOp, hf]

/-- VABS and VNEG give the canonical NaN or an encoding, and count nothing (R232). -/
theorem signed_eq (f : Fmt) (w v : Nat) :
    (if (numOfFmt f w).isNan then ⟨nanBits f, none⟩ else ⟨v, none⟩ : Elem) = ⟨if (numOfFmt f w).isNan then nanBits f else v, none⟩ :=
  (apply_ite (fun b => (⟨b, none⟩ : Elem)) _ _ _).symm

end Sys2Proof.Laws.FloatLanes

namespace Sys2Proof

open Sys2Proof.Machine
open Sys2Proof.Laws.VectorResults Sys2Proof.Laws.FloatLanes

/-- Settles O27: each element is the lane operation or the special function of its operands' elements, at the latency of its form. -/
theorem floatLanesAndSpecials : Obligations.FloatLanesAndSpecials := by
  intro h d a t f x n s p hf _ ⟨hd, ha, _⟩
  have lane := laneOp_of_fmtOf hf
  refine ⟨fun hi => ?_, fun hi => laneFma_sends hd ha hi false t (fun _ => lane ..), fun hi => ?_⟩
  · have hbin {op : LaneOp} (hop : op ≠ .fma) {e : Nat → Elem} := laneBin_sends hd ha hop hi false t (e := e)
    exact ⟨hbin (by decide) (fun _ => lane ..), hbin (by decide) (fun _ => lane ..), hbin (by decide) (fun _ => lane ..),
      hbin (by decide) (fun _ => lane ..), hbin (by decide) (fun _ => lane ..)⟩
  · refine ⟨laneUn_sends hd ha hi .abs false t (fun _ => (lane ..).trans (signed_eq ..)),
      laneUn_sends hd ha hi .neg false t (fun _ => (lane ..).trans (signed_eq ..)), ?_⟩
    have hspecial (fn : Fn) : Completes (vecSpecial fn h d a t s) _ := lanes_send hd ha hi 2 12 (groupOf t) (fun _ => rfl)
    simp only [List.forall_mem_cons, List.not_mem_nil, false_implies, implies_true, and_true]
    exact ⟨hspecial .exp, hspecial .log, hspecial .rcp, hspecial .rsq, hspecial .sin, hspecial .cos, hspecial .tanh⟩

end Sys2Proof
end

section
/-!
PROOFS. Conversions, packing and reductions (R238 to R241, R244): settles O29.
-/
namespace Sys2Proof.Laws.Conversions

open Sys2Proof.Machine
open Sys2Proof.Laws.VectorResults

variable {h : Hdr} {d a : MOp} {t t2 : Ty} {s p : State}

/-! ### Element by element (R238, R239) -/

theorem vcvt_sends (g : Reg) {n : Nat} (ht2 : t2 ≠ .mq4) (hd : (viewCells d).length = n) (ha : (viewCells a).length = n)
    (hi : Issues s h (cellLocs (viewCells a)) p) :
    let e := fun k => convert t t2 h.rm (readSys p .v sysOVT) (cellOf p a k % 2 ^ widthOf t2)
    Completes (execVcvt h d a t t2 g s) (fun q => SentCells s p q h 3 4 (cellWrites d n (fun k => (e k).bits) (fun _ => false))
      ((List.range n).flatMap (fun k => fecOf (groupOf t) (e k).kind))) := by
  rw [execVcvt, if_neg ht2]
  exact lanes_send hd ha hi 3 4 _ (fun _ => rfl)

theorem vcvt_mq4_sends (g : Reg) {n : Nat} (hd : (viewCells d).length = n) (ha : (viewCells a).length = n)
    (hi : Issues s h (.g g.toNat :: cellLocs (viewCells a)) p) :
    Completes (execVcvt h d a t .mq4 g s) (fun q => ∃ counts, SentCells s p q h 3 4 (cellWrites d n (fun k =>
      (mq4Convert t h.rm (readSys p .v sysOVT) ((readG p .v g.toNat).toNat % 2 ^ 32) (cellOf p a k)).1) (fun _ => false)) counts) := by
  rw [execVcvt, if_pos rfl]
  exact completes_imp (vecOut_sends_elements (regs := [.g g.toNat]) hi
    ((congrArg (List.map _) (zip_eq_map_range hd ha 0 0)).trans List.map_map) (fun _ => rfl) (fun _ => rfl)) (fun _ hq => ⟨_, hq⟩)

/-! ### Packed cells (R240, R241) -/

/-- Elements placed one above the other, each of `w` bits. -/
theorem foldl_zipIdx_eq_sum (el : Nat → Elem) (n w : Nat) : (((List.range n).map el).zipIdx.foldl (fun v e => v + e.1.bits * 2 ^ (e.2 * w)) 0) =
    ((List.range n).map (fun k => (el k).bits * 2 ^ (k * w))).sum := by
  have hz : ((List.range n).map el).zipIdx = (List.range n).map (fun k => (el k, k)) := List.ext_getElem (by simp) (by simp)
  rw [hz, List.sum_eq_foldl, List.foldl_map, List.foldl_map]

theorem vpack_sends :
    let src := fun (k c : Nat) => 1024 * ((a.reg.toNat + k) % 32) + c
    let el := fun (k c : Nat) => convert t t2 h.rm (readSys p .v sysOVT) ((readCell p .v (src k c)).toNat % 2 ^ widthOf t2)
    Issues s h (cellLocs ((List.range (packCount t)).flatMap (fun k => (List.range 1024).map (src k)))) p →
      Completes (execVpack h d a t t2 s) (fun q => ∃ ws counts, SentCells s p q h 3 4 ws counts ∧ ws.length = 1024 ∧
        ∀ c, c < 1024 → ∃ l, ws[c]? = some l ∧ l.loc = .cell (1024 * d.reg.toNat + c) ∧
          l.val = BitVec.ofNat 64 (((List.range (packCount t)).map (fun k => (el k c).bits * 2 ^ (k * widthOf t))).sum % 2 ^ 32)) := by
  intro src el hi
  obtain ⟨q, hq, hsent⟩ := vecOut_sends (regs := []) hi 3 4 (fun p => (List.range 1024).map (fun c =>
    let es := (List.range (packCount t)).map (fun k => convert t t2 h.rm (vecOvt p) (cellNat p (src k c) % 2 ^ widthOf t2))
    { key := 1024 * d.reg.toNat + c
      val := es.zipIdx.foldl (fun v e => v + e.1.bits * 2 ^ (e.2 * widthOf t)) 0
      counts := es.flatMap (fun e => fecOf (groupOf t) e.kind) }))
  refine ⟨q, hq, _, _, hsent, by simp only [List.length_map, List.length_range], fun c hc => ?_⟩
  rw [List.getElem?_map, List.getElem?_map, List.getElem?_range hc]
  exact ⟨_, rfl, rfl, congrArg (fun v => BitVec.ofNat 64 (v % 2 ^ 32)) (foldl_zipIdx_eq_sum (fun k => el k c) ..)⟩

theorem vunpack_sends (hi : Issues s h (cellLocs (viewCells a)) p) :
    Completes (execVunpack h d a t t2 s) (fun q => ∃ ws counts, SentCells s p q h 3 4 ws counts ∧
      ws = (List.range (packCount t2)).flatMap (fun k => (List.range 1024).map (fun c =>
        ({ loc := .cell (1024 * ((d.reg.toNat + k) % 32) + c),
           val := BitVec.ofNat 64 ((convert t t2 h.rm (readSys p .v sysOVT)
             ((readCell p .v (1024 * a.reg.toNat + c)).toNat / 2 ^ (k * widthOf t2) % 2 ^ widthOf t2)).bits % 2 ^ 32) } : Late)))) := by
  obtain ⟨q, hq, hsent⟩ := vecOut_sends (regs := []) hi 3 4 (fun p => (List.range (packCount t2)).flatMap (fun k => (List.range 1024).map (fun c =>
    let e := convert t t2 h.rm (vecOvt p) (cellNat p (1024 * a.reg.toNat + c) / 2 ^ (k * widthOf t2) % 2 ^ widthOf t2)
    { key := 1024 * ((d.reg.toNat + k) % 32) + c, val := e.bits, counts := fecOf (groupOf t) e.kind })))
  refine ⟨q, hq, _, _, hsent, ?_⟩
  rw [List.map_flatMap]
  simp only [List.map_map]
  rfl

/-! ### Reductions (R244) -/

/-- Line `i` of the source gives cell `i` of the destination's view. -/
theorem vecReduce_sends (hi : Issues s h (cellLocs (viewCells a)) p) (op : RedOp) (lat : Nat) (line : Nat → List Nat) :
    Completes (vecReduce op lat line h d a t s) (fun q => ∃ counts, SentCells s p q h 2 lat (cellWrites d (viewCells d).length (fun i =>
      (reduce op t h.rm (readSys p .v sysOVT) ((line i).map (cellNat p))).bits) (fun _ => false)) counts) := by
  exact completes_imp (vecOut_sends_elements (regs := []) hi
    ((congrArg (List.map _) (zipIdx_eq_map_range (viewCells d) 0)).trans List.map_map) (fun _ => rfl) (fun _ => rfl)) (fun _ hq => ⟨_, hq⟩)

/-- A row has its 64 cells reduced in nine clk. -/
theorem vecReduceR_sends (hi : Issues s h (cellLocs (viewCells a)) p) (op : RedOp) :
    Completes (vecReduceR op h d a t s) (fun q => ∃ counts, SentCells s p q h 2 9 (cellWrites d (viewCells d).length (fun i =>
      (reduce op t h.rm (readSys p .v sysOVT) ((List.range 64).map (fun j => (readCell p .v (cellNo a.reg.toNat i j)).toNat))).bits)
        (fun _ => false)) counts) := by
  have hsent := vecReduce_sends (d := d) (t := t) hi op 9 (rowCells a.reg.toNat)
  simp only [rowCells, List.map_map] at hsent
  exact hsent

/-- A column has its 16 cells reduced in five clk. -/
theorem vecReduceC_sends (hi : Issues s h (cellLocs (viewCells a)) p) (op : RedOp) :
    Completes (vecReduceC op h d a t s) (fun q => ∃ counts, SentCells s p q h 2 5 (cellWrites d (viewCells d).length (fun j =>
      (reduce op t h.rm (readSys p .v sysOVT) ((List.range 16).map (fun i => (readCell p .v (cellNo a.reg.toNat i j)).toNat))).bits)
        (fun _ => false)) counts) := by
  have hsent := vecReduce_sends (d := d) (t := t) hi op 5 (colCells a.reg.toNat)
  simp only [colCells, List.map_map] at hsent
  exact hsent

end Sys2Proof.Laws.Conversions

namespace Sys2Proof

open Sys2Proof.Machine
open Sys2Proof.Laws.Conversions

/-- Settles O29: each form sends the cells of its own list, element by element, packed, or line by line. -/
theorem conversionsAndReductions : Obligations.ConversionsAndReductions := by
  intro h d a t t2 s p _
  refine ⟨fun g n ht2 ⟨hd, ha, _⟩ hi => vcvt_sends g ht2 hd ha hi, fun g n ht2 ⟨hd, ha, _⟩ hi => ?_, vpack_sends,
    fun hi => ⟨vunpack_sends hi, ?_, ?_⟩⟩
  · subst ht2
    exact vcvt_mq4_sends g hd ha hi
  · simp only [List.forall_mem_cons, List.not_mem_nil, false_implies, implies_true, and_true]
    exact ⟨vecReduceR_sends hi .add, vecReduceR_sends hi .max, vecReduceR_sends hi .min, vecReduceR_sends hi .amax⟩
  · simp only [List.forall_mem_cons, List.not_mem_nil, false_implies, implies_true, and_true]
    exact ⟨vecReduceC_sends hi .add, vecReduceC_sends hi .max, vecReduceC_sends hi .min, vecReduceC_sends hi .amax⟩

end Sys2Proof
end

section
/-!
PROOFS. Integer lanes, shifts, bitwise operations and comparisons (R233 to R236): refutes O26, and proves what of it holds.
-/
namespace Sys2Proof.Laws.IntegerForms

open Sys2Proof.Machine
open Sys2Proof.Laws.VectorResults

/-! ### Values of integer elements -/

section
variable (t : Ty) (c : Nat)

theorem intOf_mod : intOf t (c % 2 ^ widthOf t) = intElem t c := by
  unfold intOf signedOf intElem
  have hcast : ((c % 2 ^ widthOf t : Nat) : Int) = (c : Int) % 2 ^ widthOf t := by push_cast; rfl
  cases isSigned t
  · simp
  · by_cases hlow : c % 2 ^ widthOf t < 2 ^ (widthOf t - 1)
    · simp [hlow]
    · simp [hlow, not_lt.1 hlow]

theorem lowBits_natCast (m : Nat) : lowBits t (m : Int) = m % 2 ^ widthOf t := by
  have hcast : (m : Int) % 2 ^ widthOf t = ((m % 2 ^ widthOf t : Nat) : Int) := by push_cast; rfl
  rw [lowBits, hcast, Int.toNat_natCast]

/-- An element keeps its bits. -/
theorem lowBits_intElem : lowBits t (intElem t c) = c % 2 ^ widthOf t := by
  dsimp only [intElem]
  split
  · rw [lowBits, Int.sub_emod_right]
    exact (lowBits_natCast ..).trans (Nat.mod_mod ..)
  · exact (lowBits_natCast ..).trans (Nat.mod_mod ..)

end

theorem wrapElem_eq (t : Ty) (i : Int) : wrapElem t i = ⟨lowBits t i, none⟩ := rfl

theorem clampTo_eq (t : Ty) (i : Int) : clampTo t i = max (intRange t).1 (min (intRange t).2 i) := by
  unfold clampTo intRange
  cases isSigned t <;> rfl

theorem intRange_le (t : Ty) : (intRange t).1 ≤ (intRange t).2 := by
  have hpos (n : Nat) : (0 : Int) < 2 ^ n := by positivity
  have := hpos (widthOf t - 1)
  have := hpos (widthOf t)
  unfold intRange
  split <;> dsimp only <;> omega

/-- An integer outside the type's range, and no other, is counted when it is clamped (R233). -/
theorem clampElem_eq (t : Ty) (i : Int) : clampElem t i = ⟨lowBits t (clampTo t i), if clampTo t i = i then none else some 2⟩ := by
  have hle := intRange_le t
  rw [clampTo_eq]
  unfold clampElem
  generalize intRange t = r at hle
  obtain ⟨lo, hi⟩ := r
  dsimp only at hle ⊢
  by_cases hlo : i < lo
  · have hmax : max lo (min hi i) = lo := by omega
    rw [if_pos hlo, hmax, if_neg (by omega)]
    rfl
  · rw [if_neg hlo]
    by_cases hhi : hi < i
    · have hmax : max lo (min hi i) = hi := by omega
      rw [if_pos hhi, hmax, if_neg (by omega)]
      rfl
    · have hmax : max lo (min hi i) = i := by omega
      rw [if_neg hhi, hmax, if_pos rfl]
      rfl

/-! ### Lanes of an integer type -/

/-- What an integer lane makes of its exact result. -/
def settled (sat : Bool) (t : Ty) (i : Int) : Elem := if sat then clampElem t i else wrapElem t i

section
variable {t : Ty} (hf : fmtOf t = none) (sat : Bool) (rm : BitVec 2) (ovt : Word) (u v w : Nat)
include hf

theorem laneOp_of_fmtOf (op : LaneOp) : laneOp op sat t rm ovt u v w =
    intLane op sat t (u % 2 ^ widthOf t) (v % 2 ^ widthOf t) (w % 2 ^ widthOf t) := by
  rw [laneOp, hf]

theorem laneOp_add : laneOp .add sat t rm ovt u v w = settled sat t (intElem t u + intElem t v) := by
  rw [laneOp_of_fmtOf hf, ← intOf_mod, ← intOf_mod]; rfl

theorem laneOp_sub : laneOp .sub sat t rm ovt u v w = settled sat t (intElem t u - intElem t v) := by
  rw [laneOp_of_fmtOf hf, ← intOf_mod, ← intOf_mod]; rfl

theorem laneOp_mul : laneOp .mul sat t rm ovt u v w = settled sat t (intElem t u * intElem t v) := by
  rw [laneOp_of_fmtOf hf, ← intOf_mod, ← intOf_mod]; rfl

theorem laneOp_fma : laneOp .fma sat t rm ovt u v w = settled sat t (intElem t u * intElem t v + intElem t w) := by
  rw [laneOp_of_fmtOf hf, ← intOf_mod, ← intOf_mod, ← intOf_mod]; rfl

theorem laneOp_abs : laneOp .abs sat t rm ovt u v w = settled sat t |intElem t u| := by
  rw [laneOp_of_fmtOf hf, Int.abs_eq_natAbs, ← intOf_mod]; rfl

theorem laneOp_neg : laneOp .neg sat t rm ovt u v w = settled sat t (-intElem t u) := by
  rw [laneOp_of_fmtOf hf, ← intOf_mod]; rfl

/-- The lesser of two elements is one of them, with its bits. -/
theorem laneOp_min : laneOp .min sat t rm ovt u v w = wrapElem t (min (intElem t u) (intElem t v)) := by
  rw [laneOp_of_fmtOf hf, intLane, intOf_mod, intOf_mod, wrapElem_eq, min_def]
  split <;> rw [lowBits_intElem]

theorem laneOp_max : laneOp .max sat t rm ovt u v w = wrapElem t (max (intElem t u) (intElem t v)) := by
  rw [laneOp_of_fmtOf hf, intLane, intOf_mod, intOf_mod, wrapElem_eq, max_def]
  split <;> rw [lowBits_intElem]

/-! ### Shifts (R234) -/

/-- The shift count: the low bits of src2, unsigned. -/
def shiftCount (t : Ty) (v : Nat) : Nat := v % 2 ^ widthOf t % 2 ^ min (widthOf t) 6

omit hf in
theorem shiftCount_eq : v % 2 ^ widthOf t % 2 ^ (if widthOf t < 6 then widthOf t else 6) = shiftCount t v := by
  have hmin : (if widthOf t < 6 then widthOf t else 6) = min (widthOf t) 6 := by split <;> omega
  rw [hmin, shiftCount]

theorem laneOp_shl : laneOp .shl false t rm ovt u v w = ⟨u % 2 ^ widthOf t * 2 ^ shiftCount t v % 2 ^ widthOf t, none⟩ := by
  rw [laneOp_of_fmtOf hf, intLane, shiftCount_eq]
  by_cases hn : widthOf t ≤ shiftCount t v
  · have hzero : u % 2 ^ widthOf t * 2 ^ shiftCount t v % 2 ^ widthOf t = 0 := Nat.mod_eq_zero_of_dvd (Dvd.dvd.mul_left (pow_dvd_pow 2 hn) _)
    simp [hn, hzero]
  · simp [hn]

theorem laneOp_shl_sat : laneOp .shl true t rm ovt u v w = clampElem t (intElem t u * 2 ^ shiftCount t v) := by
  rw [laneOp_of_fmtOf hf, intLane, shiftCount_eq, intOf_mod]
  rfl

theorem laneOp_shr : laneOp .shr false t rm ovt u v w = wrapElem t (intElem t u / 2 ^ shiftCount t v) := by
  rw [laneOp_of_fmtOf hf, intLane, shiftCount_eq, intOf_mod]
  by_cases hs : isSigned t = true
  · exact if_pos hs
  · have hu : intElem t u / 2 ^ shiftCount t v = ((u % 2 ^ widthOf t / 2 ^ shiftCount t v : Nat) : Int) := by simp [intElem, hs]
    have hlt : u % 2 ^ widthOf t < 2 ^ widthOf t := Nat.mod_lt _ (by positivity)
    rw [hu, wrapElem_eq, lowBits_natCast, Nat.mod_eq_of_lt ((Nat.div_le_self ..).trans_lt hlt)]
    refine (if_neg hs).trans ?_
    by_cases hn : widthOf t ≤ shiftCount t v
    · rw [if_pos hn, Nat.div_eq_of_lt (hlt.trans_le (Nat.pow_le_pow_right (by decide) hn))]
    · rw [if_neg hn]

end

/-! ### Bitwise operations and comparisons (R235, R236) -/

/-- Bitwise operations take the type's bits, floating-point or not, and count nothing (R235). -/
theorem laneOp_bits (t : Ty) (rm : BitVec 2) (ovt : Word) (u v w : Nat) :
    laneOp .and false t rm ovt u v w = ⟨u % 2 ^ widthOf t &&& v % 2 ^ widthOf t, none⟩ ∧
    laneOp .or false t rm ovt u v w = ⟨u % 2 ^ widthOf t ||| v % 2 ^ widthOf t, none⟩ ∧
    laneOp .xor false t rm ovt u v w = ⟨u % 2 ^ widthOf t ^^^ v % 2 ^ widthOf t, none⟩ := by
  unfold laneOp
  cases fmtOf t with
  | none => exact ⟨rfl, rfl, rfl⟩
  | some f => exact ⟨rfl, rfl, rfl⟩

/-- A comparison with a NaN holds for .ne alone (R236). -/
theorem compareElems_eq (t : Ty) (u v : Nat) :
    let nan := (numOf t u).isNan || (numOf t v).isNan
    let less := ltNum (numOf t u) (numOf t v)
    let more := ltNum (numOf t v) (numOf t u)
    compareElems .eq t u v = (!nan && !less && !more) ∧ compareElems .ne t u v = (nan || less || more) ∧
    compareElems .lt t u v = (!nan && less) ∧ compareElems .le t u v = (!nan && !more) := by
  dsimp only [compareElems]
  cases (numOf t u).isNan || (numOf t v).isNan <;> simp

/-! ### The forms -/

section
variable {h : Hdr} {d a : MOp} {t : Ty} {x : VSrc} {n : Nat} {s p : State}

/-- After four clk instruction `i` writes the low bits of its exact results and counts nothing (R233). -/
def Wraps (h : Hdr) (d : MOp) (t : Ty) (n : Nat) (s p : State) (i : Instr) (len : Nat) (e : Nat → Int) : Prop :=
  Completes (exec i s) (fun q => SentCells s p q h len 4 (cellWrites d n (fun k => lowBits t (e k)) (fun _ => false)) [])

/-- After four clk instruction `i` writes its exact results clamped, each clamped one counting kind 2 in the type's group (R233). -/
def Clamps (h : Hdr) (d : MOp) (t : Ty) (n : Nat) (s p : State) (i : Instr) (len : Nat) (e : Nat → Int) : Prop :=
  Completes (exec i s) (fun q => SentCells s p q h len 4 (cellWrites d n (fun k => lowBits t (clampTo t (e k))) (fun _ => false))
    ((List.range n).flatMap (fun k => if clampTo t (e k) = e k then [] else fecOf (groupOf t) (some 2))))

/-- After four clk instruction `i` of three parcels writes the cells `e` and counts nothing. -/
def Writes (h : Hdr) (d : MOp) (n : Nat) (s p : State) (i : Instr) (e : Nat → Nat) : Prop :=
  Completes (exec i s) (fun q => SentCells s p q h 3 4 (cellWrites d n e (fun _ => false)) [])

/-- Elements without events count nothing. -/
theorem sent_of_uncounted {o : Host.Outcome State Fault Refusal} {len g : Nat} {v : Nat → Nat}
    (ho : Completes o (fun q => SentCells s p q h len 4 (cellWrites d n v (fun _ => false)) ((List.range n).flatMap (fun _ => fecOf g none)))) :
    Completes o (fun q => SentCells s p q h len 4 (cellWrites d n v (fun _ => false)) []) := by
  have hnone : (List.range n).flatMap (fun _ => fecOf g none) = [] := by simp [fecOf]
  rwa [hnone] at ho

theorem wraps_of_settled {i : Instr} {len : Nat} {e : Nat → Int}
    (ho : Completes (exec i s) (fun q => SentCells s p q h len 4 (cellWrites d n (fun k => (settled false t (e k)).bits) (fun _ => false))
      ((List.range n).flatMap (fun k => fecOf (groupOf t) (settled false t (e k)).kind)))) : Wraps h d t n s p i len e := sent_of_uncounted ho

theorem clamps_of_settled {i : Instr} {len : Nat} {e : Nat → Int}
    (ho : Completes (exec i s) (fun q => SentCells s p q h len 4 (cellWrites d n (fun k => (settled true t (e k)).bits) (fun _ => false))
      ((List.range n).flatMap (fun k => fecOf (groupOf t) (settled true t (e k)).kind)))) : Clamps h d t n s p i len e := by
  have hkind (k : Nat) : fecOf (groupOf t) (if clampTo t (e k) = e k then none else some 2) =
      if clampTo t (e k) = e k then [] else fecOf (groupOf t) (some 2) := apply_ite (fecOf (groupOf t)) _ _ _
  simpa only [Clamps, settled, if_true, clampElem_eq, hkind] using ho

variable (hf : fmtOf t = none) (hd : (viewCells d).length = n) (ha : (viewCells a).length = n)
include hf hd ha

section
variable (hi : Issues s h (cellLocs (viewCells a ++ vsrcCells x)) p)
include hi

theorem binaryForms_wrap :
    let A := fun k => intElem t (cellOf p a k)
    let S := fun k => intElem t (srcOf p x k)
    ∀ r ∈ ([(.vadd h d a t x, fun k => A k + S k), (.vsub h d a t x, fun k => A k - S k), (.vmul h d a t x, fun k => A k * S k),
        (.vmin h d a t x, fun k => min (A k) (S k)), (.vmax h d a t x, fun k => max (A k) (S k)),
        (.vshr h d a t x, fun k => A k / 2 ^ shiftCount t (srcOf p x k))] : List (Instr × (Nat → Int))),
      Wraps h d t n s p r.1 3 r.2 := by
  have hbin {op : LaneOp} (hop : op ≠ .fma) {e : Nat → Elem} := laneBin_sends hd ha hop hi false t (e := e)
  simp only [List.forall_mem_cons, List.not_mem_nil, false_implies, implies_true, and_true]
  exact ⟨wraps_of_settled (hbin (by decide) (fun _ => laneOp_add hf ..)), wraps_of_settled (hbin (by decide) (fun _ => laneOp_sub hf ..)),
    wraps_of_settled (hbin (by decide) (fun _ => laneOp_mul hf ..)), wraps_of_settled (hbin (by decide) (fun _ => laneOp_min hf ..)),
    wraps_of_settled (hbin (by decide) (fun _ => laneOp_max hf ..)), wraps_of_settled (hbin (by decide) (fun _ => laneOp_shr hf ..))⟩

theorem binaryForms_clamp :
    let A := fun k => intElem t (cellOf p a k)
    let S := fun k => intElem t (srcOf p x k)
    ∀ r ∈ ([(.vaddSat h d a t x, fun k => A k + S k), (.vsubSat h d a t x, fun k => A k - S k), (.vmulSat h d a t x, fun k => A k * S k),
        (.vshlSat h d a t x, fun k => A k * 2 ^ shiftCount t (srcOf p x k))] : List (Instr × (Nat → Int))),
      Clamps h d t n s p r.1 3 r.2 := by
  have hbin {op : LaneOp} (hop : op ≠ .fma) {e : Nat → Elem} := laneBin_sends hd ha hop hi true t (e := e)
  simp only [List.forall_mem_cons, List.not_mem_nil, false_implies, implies_true, and_true]
  exact ⟨clamps_of_settled (hbin (by decide) (fun _ => laneOp_add hf ..)), clamps_of_settled (hbin (by decide) (fun _ => laneOp_sub hf ..)),
    clamps_of_settled (hbin (by decide) (fun _ => laneOp_mul hf ..)), clamps_of_settled (hbin (by decide) (fun _ => laneOp_shl_sat hf ..))⟩

theorem vshl_writes : Writes h d n s p (.vshl h d a t x) (fun k => cellOf p a k % 2 ^ widthOf t * 2 ^ shiftCount t (srcOf p x k) % 2 ^ widthOf t) :=
  sent_of_uncounted (laneBin_sends hd ha (by decide) hi false t (fun _ => laneOp_shl hf ..))

omit hf

/-- Bitwise forms do the same with every type. -/
theorem bitForms_write :
    let A := fun k => cellOf p a k % 2 ^ widthOf t
    let S := fun k => srcOf p x k % 2 ^ widthOf t
    ∀ r ∈ ([(.vand h d a t x, fun k => A k &&& S k), (.vor h d a t x, fun k => A k ||| S k), (.vxor h d a t x, fun k => A k ^^^ S k)] :
        List (Instr × (Nat → Nat))), Writes h d n s p r.1 r.2 := by
  have hbin {op : LaneOp} (hop : op ≠ .fma) {e : Nat → Elem} := laneBin_sends hd ha hop hi false t (e := e)
  have hbits (k : Nat) := laneOp_bits t h.rm (readSys p .v sysOVT) (cellOf p a k) (srcOf p x k) (cellOf p d k)
  simp only [forall_and] at hbits
  obtain ⟨hand, hor, hxor⟩ := hbits
  simp only [List.forall_mem_cons, List.not_mem_nil, false_implies, implies_true, and_true]
  exact ⟨sent_of_uncounted (hbin (by decide) hand), sent_of_uncounted (hbin (by decide) hor), sent_of_uncounted (hbin (by decide) hxor)⟩

/-- Comparisons write whole cells of ones or zeros, with every type. -/
theorem comparisons_write :
    let A := fun k => numOf t (cellOf p a k % 2 ^ widthOf t)
    let S := fun k => numOf t (srcOf p x k % 2 ^ widthOf t)
    let nan := fun k => (A k).isNan || (S k).isNan
    let less := fun k => ltNum (A k) (S k)
    let more := fun k => ltNum (S k) (A k)
    ∀ r ∈ ([(.vcmpEq h d a t x, fun k => !nan k && !less k && !more k), (.vcmpNe h d a t x, fun k => nan k || less k || more k),
        (.vcmpLt h d a t x, fun k => !nan k && less k), (.vcmpLe h d a t x, fun k => !nan k && !more k)] : List (Instr × (Nat → Bool))),
      Writes h d n s p r.1 (fun k => if r.2 k then 2 ^ 32 - 1 else 0) := by
  have hcmp (c : Cmp) {e : Nat → Bool} (he : ∀ k, compareElems c t (cellOf p a k % 2 ^ widthOf t) (srcOf p x k % 2 ^ widthOf t) = e k) :
      Completes (vecCompare c h d a t x s) _ :=
    lanes_send hd ha hi 3 4 0 (e := fun k => ⟨if e k then 2 ^ 32 - 1 else 0, none⟩) (fun k => by rw [← he]; rfl)
  have hrel (k : Nat) := compareElems_eq t (cellOf p a k % 2 ^ widthOf t) (srcOf p x k % 2 ^ widthOf t)
  simp only [forall_and] at hrel
  obtain ⟨heq, hne, hlt, hle⟩ := hrel
  simp only [List.forall_mem_cons, List.not_mem_nil, false_implies, implies_true, and_true]
  exact ⟨sent_of_uncounted (hcmp .eq heq), sent_of_uncounted (hcmp .ne hne), sent_of_uncounted (hcmp .lt hlt), sent_of_uncounted (hcmp .le hle)⟩

end

theorem fmaForms_send (hi : Issues s h (cellLocs (viewCells a ++ vsrcCells x ++ viewCells d)) p) :
    let e := fun k => intElem t (cellOf p a k) * intElem t (srcOf p x k) + intElem t (cellOf p d k)
    Wraps h d t n s p (.vfma h d a t x) 3 e ∧ Clamps h d t n s p (.vfmaSat h d a t x) 3 e :=
  ⟨wraps_of_settled (laneFma_sends hd ha hi false t (fun _ => laneOp_fma hf ..)),
   clamps_of_settled (laneFma_sends hd ha hi true t (fun _ => laneOp_fma hf ..))⟩

theorem unaryForms_send (hi : Issues s h (cellLocs (viewCells a)) p) :
    let A := fun k => intElem t (cellOf p a k)
    (Wraps h d t n s p (.vabs h d a t) 2 (fun k => |A k|) ∧ Wraps h d t n s p (.vneg h d a t) 2 (fun k => -A k)) ∧
    Clamps h d t n s p (.vabsSat h d a t) 2 (fun k => |A k|) ∧ Clamps h d t n s p (.vnegSat h d a t) 2 (fun k => -A k) :=
  ⟨⟨wraps_of_settled (laneUn_sends hd ha hi .abs false t (fun _ => laneOp_abs hf ..)),
    wraps_of_settled (laneUn_sends hd ha hi .neg false t (fun _ => laneOp_neg hf ..))⟩,
   clamps_of_settled (laneUn_sends hd ha hi .abs true t (fun _ => laneOp_abs hf ..)),
   clamps_of_settled (laneUn_sends hd ha hi .neg true t (fun _ => laneOp_neg hf ..))⟩

end

/-- The events of an integer type other than mq4 belong to group 7 (R93). -/
theorem groupOf_eq_seven {t : Ty} (hf : fmtOf t = none) (ht : t ≠ .mq4) : groupOf t = 7 := by
  rw [groupOf, hf]
  exact if_neg ht

/-! ### An mq4 lane that is clamped -/

/-- A header of the vector engine with no tokens, guard or rounding mode. -/
def plain : Hdr := { eng := .v, gap := 0, sw := false, pop := 0, push := 0, guard := 0, rm := 0 }

/-- Column 0 of m0. -/
def firstCol : MOp := ⟨0, .col, 0⟩

/-- VSUB.sat.mq4 of a column of zeros and the literal 1. -/
theorem vsubSat_issues : Issues Squash.running plain (cellLocs (viewCells firstCol ++ vsrcCells (.lit 1))) Squash.running := by
  constructor <;> decide

/-- Every element of it is clamped. -/
theorem clamped_everywhere (k : Nat) :
    clampTo .mq4 (intElem .mq4 (cellOf Squash.running firstCol k) - intElem .mq4 (srcOf Squash.running (.lit 1) k)) ≠
      intElem .mq4 (cellOf Squash.running firstCol k) - intElem .mq4 (srcOf Squash.running (.lit 1) k) := by
  have hzero : cellOf Squash.running firstCol k = 0 := rfl
  have hone : srcOf Squash.running (.lit 1) k = 1 := rfl
  rw [hzero, hone]
  decide

end Sys2Proof.Laws.IntegerForms

namespace Sys2Proof

open Sys2Proof.Machine
open Sys2Proof.Laws.VectorResults Sys2Proof.Laws.IntegerForms

/-- Refutes O26: the statement ranges over every type without a floating-point format, and so over mq4, which no lane-wise instruction admits
(R231) and whose events belong to group 6 (R93): the model runs VSUB.sat.mq4 and counts its clamped elements there, not in group 7.
`binaryForms_clamp`, `fmaForms_send` and `unaryForms_send` are the clauses on clamping with the type's own group, which is 7 for every other such
type (`groupOf_eq_seven`); the clauses without clamping hold as they stand. -/
theorem not_integerAndBitLanes : ¬ Obligations.IntegerAndBitLanes := by
  unfold Obligations.IntegerAndBitLanes
  rintro ⟨hlanes, -⟩
  have hcount : SameCount 16 firstCol firstCol (.lit 1) := ⟨by decide, by decide, fun _ hm => nomatch hm⟩
  obtain ⟨-, -, -, -, -, -, ⟨q, hq, hstated⟩, -⟩ :=
    (hlanes plain firstCol firstCol .mq4 (.lit 1) 16 Laws.Squash.running Laws.Squash.running rfl rfl hcount).1 vsubSat_issues
  obtain ⟨r, hr, hcounted⟩ := binaryForms_clamp (t := .mq4) rfl hcount.1 hcount.2.1 vsubSat_issues (.vsubSat plain firstCol firstCol .mq4 (.lit 1), _)
    (.tail _ (.head _))
  obtain rfl : q = r := Host.Outcome.next.inj (hq.symm.trans hr)
  have hgroups := counts_of_sentCells hstated hcounted
  simp only [if_neg (clamped_everywhere _)] at hgroups
  exact absurd hgroups (by decide)

end Sys2Proof
end

section
/-!
PROOFS. COMPILE and PATCH (R275 to R282), outcome by outcome: settles O41.
-/
namespace Sys2Proof.Laws.Goleus

open Sys2Proof.Machine
open Sys2Proof.Laws.Invalidations

/-- A command answered with any key time has left its FIFO and has its result there. -/
theorem answered_at (s : State) (d k : Nat) (c : Cmd) (v : Word) (t : Nat) : Answered s (answer s d k c v t none) d k c v := by
  have hf := fifoAt_answer s d k c v t none d k
  rw [if_pos ⟨rfl, rfl⟩] at hf
  exact ⟨congrArg Fifo.cmds hf, _, congrArg Fifo.results hf, rfl, rfl⟩

/-- A command refused with status `n` has written nothing and is answered with it. -/
theorem goleusRefuse_answers (s : State) (d : Nat) (c : Cmd) (n : Nat) :
    CoresSame s (goleusRefuse s d c (.status n)) ∧ Answered s (goleusRefuse s d c (.status n)) d fifoGoleus c (BitVec.ofNat 64 n) :=
  ⟨coresSame_answer .., answered_at ..⟩

/-- What a command writes stands in memory when it is answered with its parcels. -/
theorem goleusWrite_answers {s s' : State} {d parcels k : Nat} {c : Cmd} {ws : List (Nat × List Byte)}
    (hw : writeAll s (c.agent d fifoGoleus) ws = (s', .ok k)) :
    SameMemory s' (goleusWrite s d c parcels ws) ∧ Answered s' (goleusWrite s d c parcels ws) d fifoGoleus c (BitVec.ofNat 64 (parcels * 2 ^ 32)) := by
  have h : goleusWrite s d c parcels ws = answer s' d fifoGoleus c (BitVec.ofNat 64 (parcels * 2 ^ 32)) k none := by
    unfold goleusWrite
    rw [hw]
  rw [h]
  exact ⟨fun _ => rfl, answered_at ..⟩

section
variable {s : State} {c : Cmd} {a : Agent} {bs : List Byte} {g : Goleus} (hc : nextCmd (fifoAt s s.arg.die.toNat fifoGoleus) = some c)
  (hbs : bytesOf c.words = bs) (hg : goleusOf bs = g)
include hc hbs hg

/-- R275: a malformed command that is no PATCH is refused with status 1. -/
theorem compile_malformed (hcode : g.code ≠ 1) (hbad : goleusTy g = none ∨ goleusBad bs g = true) :
    execEvCompile s = .next (goleusRefuse s s.arg.die.toNat c (.status 1)) := by
  unfold execEvCompile
  simp only [hc, hbs, hg, beq_eq_false_iff_ne.2 hcode]
  cases hty : goleusTy g with
  | none => rfl
  | some x => simp [hbad.resolve_left (by simp [hty])]

variable (ha : c.agent s.arg.die.toNat fifoGoleus = a) {ty : Ty} {fl : Bool} (hty : goleusTy g = some (ty, fl)) (hgood : goleusBad bs g = false)
include ha hty hgood

section
variable (hcode : g.code = 0) {s1 : State} {segs : List (List (BitVec 32))} (hall : allCode s a g ty fl = (s1, .ok (segs, false)))
include hcode hall

/-- R279: code that does not fit its area is refused with status 2. -/
theorem compile_tooLong (hsize : g.size < 4 * (segs.map List.length).sum) :
    execEvCompile s = .next (goleusRefuse s1 s.arg.die.toNat c (.status 2)) := by
  unfold execEvCompile
  simp [hc, hbs, hg, ha, hty, hgood, hcode, hall, hsize]

/-- R279, R280: code that fits is written with the header and the entries of its segments. -/
theorem compile_writes (hsize : 4 * (segs.map List.length).sum ≤ g.size) :
    execEvCompile s = .next (goleusWrite s1 s.arg.die.toNat c (segs.map List.length).sum [(g.area, parcelBytes segs.flatten), (g.desc,
      headerBytes g fl ++ (segStarts g.area segs).flatMap (fun p => entryBytes 0 p.1 g.slack p.2 ++ List.replicate 32 0#8))]) := by
  unfold execEvCompile
  simp [hc, hbs, hg, ha, hty, hgood, hcode, hall, Nat.not_lt.2 hsize]

end

/-- R281: a patch of a segment of the matrix that the command describes, one of whose entries may be replaced and whose code fits, writes the
code and that entry, one generation on. -/
theorem patch_writes (hcode : g.code = 1) {s1 s2 s3 : State} {hb eb : List Byte} {m : Matrix} {ps : List (BitVec 32)}
    (hhead : agentRead s a g.desc 64 = (s1, .ok (hb, false))) (hm : matrixOf hb = some m) (hk : m.k = g.k) (hrows : m.rows = g.rows)
    (hfl : m.floatKind = fl) (hseg : g.seg < m.count) (hentry : agentRead s1 a (m.table + 64 * g.seg) 64 = (s2, .ok (eb, false)))
    (hfree : (patchEntry eb m.floor).2 = false) (hps : segCode s2 a g ty fl g.seg 0 = (s3, .ok (ps, false))) (hsize : 4 * ps.length ≤ g.size) :
    execEvPatch s = .next (goleusWrite s3 s.arg.die.toNat c ps.length [(g.area, parcelBytes ps),
      (m.table + 64 * g.seg + 32 * (patchEntry eb m.floor).1, entryBytes (m.gen + 1) g.area g.slack ps.length)]) := by
  unfold execEvPatch
  simp [hc, hbs, hg, ha, hty, hgood, hcode, hhead, hm, hk, hrows, hfl, Nat.not_le.2 hseg, hentry, hfree, hps, Nat.not_lt.2 hsize]

end

end Sys2Proof.Laws.Goleus

namespace Sys2Proof

open Sys2Proof.Machine Sys2Proof.Laws.Goleus

/-- Settles O41: each outcome of COMPILE and PATCH is one state, a refusal or what is written, from which its answer is read off. -/
theorem goleusCompilesAndPatches : Obligations.GoleusCompilesAndPatches := by
  intro s c d bs g a hc
  refine ⟨fun hcode hbad => ⟨_, compile_malformed hc rfl rfl hcode hbad, goleusRefuse_answers ..⟩, fun ty fl hty hgood => ⟨?compile, ?patch⟩⟩
  case compile =>
    intro hcode s1 segs hall
    refine ⟨fun hsize => ⟨_, compile_tooLong hc rfl rfl rfl hty hgood hcode hall hsize, fun _ => rfl, (goleusRefuse_answers s1 d c 2).2⟩, ?_⟩
    exact fun hsize s2 k hw => ⟨_, compile_writes hc rfl rfl rfl hty hgood hcode hall hsize, goleusWrite_answers hw⟩
  case patch =>
    intro hcode s1 s2 s3 hb eb m ps hhead hm hk hrows hfl hseg hentry hfree hps hsize s4 k hw
    exact ⟨_, patch_writes hc rfl rfl rfl hty hgood hcode hhead hm hk hrows hfl hseg hentry hfree hps hsize, goleusWrite_answers hw⟩

end Sys2Proof
end

section
/-!
PROOFS. WJMP, WEND and WHOOK move the stream (R267, R268): settles O32.
-/
namespace Sys2Proof.Laws.Stream

open Sys2Proof.Machine
open Sys2Proof.Laws.Rows

/-- Pushing a command's tokens changes the token queues, of the walk or of the frame, and nothing else of the core. -/
theorem pushCommand_eq (c : Core) (e : Eng) (m : BitVec 4) (id : Nat) (t : Token) :
    pushCommand c e m id t = { c with tokens := (pushCommand c e m id t).tokens, trapFrame := (pushCommand c e m id t).trapFrame } := by
  unfold pushCommand
  split
  · split
    · rfl
    · rw [pushReserved_eq]
  · rw [pushReserved_eq]

/-- A call that ends without a fault leaves no call, and its tokens are all that it changes beside (R262). -/
theorem endCall_parts (s : State) (k : StreamCall) :
    (endCall s k none).core.call = none ∧ (endCall s k none).core.acc = s.core.acc ∧ SameMemory s (endCall s k none) := by
  have hcore : (endCall s k none).core = pushCommand { s.core with call := none } .w k.cmd.push k.cmd.id
    { src := Eng.w.num, seq := k.cmd.seq, cmd := some k.cmd.id, mark := none, clk := s.clk } := rfl
  rw [hcore, pushCommand_eq]
  exact ⟨rfl, rfl, fun _ => rfl⟩

/-- What the read of hook entry `v` has found when it comes back as `got` (R268). -/
def hookFound (v : Nat) (got : Except FaultRec (List Byte × Bool)) : StreamRead :=
  match got with
  | .error f => .fault f
  | .ok (_, true) => .poison v
  | .ok (bs, false) =>
    let e : Word := BitVec.ofNat 64 (leNat bs)
    if bits e 62 48 ≠ 0 then .fault (weightFault 6) else if e.getLsbD 63 = true then .hook (bits e 47 0) else .noHook

/-- The call that waits for the read of a hook entry: it keeps its caller's position, to go on after the hook, and knows what it will learn. -/
def hooked (k : StreamCall) (r : StreamRead) : StreamCall :=
  { k with
    caller := some { k.pos with pc := k.pos.pc + 4 }
    pos := { gen := 0, arow := 0, segTable := 0, segCount := 0, seg := 0, pc := k.pos.pc }
    read := some r }

section
variable {s : State} {k : StreamCall} (hk : s.core.call = some k)
include hk

theorem setPos_call (pos : StreamPos) : (setPos s pos).core.call = some { k with pos := pos } := by
  simp [setPos, hk]

variable (hin : k.pos.inSegment = true)
include hin

/-- A directive acts on the running call. -/
theorem onStream_running (f : StreamCall → State) : onStream s f = .next (f k) := by
  simp [onStream, hk, hin]

theorem wend_nextSegment (hseg : k.pos.seg + 1 < k.pos.segCount) : execWend s = .next (setPos s (nextSegment k.pos)) := by
  rw [execWend, onStream_running hk hin, if_pos hseg]

theorem wend_returns (hseg : k.pos.segCount ≤ k.pos.seg + 1) {c : StreamPos} (hc : k.caller = some c) :
    execWend s = .next (modCore s (fun x => { x with call := some { k with pos := c, caller := none } })) := by
  rw [execWend, onStream_running hk hin, if_neg (by omega), hc]

theorem wend_ends (hseg : k.pos.segCount ≤ k.pos.seg + 1) (hc : k.caller = none) : execWend s = .next (endCall s k none) := by
  rw [execWend, onStream_running hk hin, if_neg (by omega), hc]

variable (i : BitVec 8)

theorem whook_nested (hc : k.caller.isSome = true) : execWhook i s = .next (streamFault s (weightFault 5)) := by
  rw [execWhook, onStream_running hk hin]
  simp only [hc, if_true]

variable (hc : k.caller = none) {tb : Word} (htb : fileRead 0 s.core.sys s.tick saltSys 4 sysHKTB = tb)
include hc htb

theorem whook_reservedTable (hbad : bits tb 2 0 ≠ 0 ∨ bits tb 63 48 ≠ 0) : execWhook i s = .next (streamFault s (weightFault 6)) := by
  rw [execWhook, onStream_running hk hin]
  simp only [hc, htb, Option.isSome_none, Bool.false_eq_true, if_false]
  rw [if_pos (by simpa using hbad)]

theorem whook_reads (hlow : bits tb 2 0 = 0) (hhigh : bits tb 63 48 = 0) {s1 : State} {got : Except FaultRec (List Byte × Bool)}
    (hread : coreRead s (privileged s.core) 0 (tb.toNat + 8 * i.toNat) 8 = (s1, got)) :
    execWhook i s = .next (modCore s1 (fun c => { c with call := some (hooked k (hookFound (tb.toNat + 8 * i.toNat) got)) })) := by
  rw [execWhook, onStream_running hk hin]
  simp only [hc, htb, Option.isSome_none, Bool.false_eq_true, if_false]
  rw [if_neg (by simp [hlow, hhigh])]
  simp only [coreLevel, hread]
  congr 3
  funext c
  congr 3
  unfold hookFound
  rcases got with f | ⟨bs, _ | _⟩
  · rfl
  · simp
  · rfl

end

end Sys2Proof.Laws.Stream

namespace Sys2Proof

open Sys2Proof.Machine Sys2Proof.Laws.Stream

/-- Settles O32: a directive acts on the running call (`onStream_running`), and each case of WEND and WHOOK is one state. -/
theorem streamControl : Obligations.StreamControl := by
  intro j i s k hk hin
  refine ⟨?jump, ?next, ?back, ?ends, ?nested, ?hook⟩
  case jump => exact ⟨_, onStream_running hk hin _, setPos_call hk _, rfl, fun _ => rfl⟩
  case next => exact fun hseg => ⟨_, wend_nextSegment hk hin hseg, setPos_call hk _, rfl, fun _ => rfl⟩
  case back => exact fun hseg c hc => ⟨_, wend_returns hk hin hseg hc, rfl, rfl, fun _ => rfl⟩
  case ends => exact fun hseg hc => ⟨_, wend_ends hk hin hseg hc, endCall_parts s k⟩
  case nested => exact whook_nested hk hin i
  case hook =>
    intro tb v Reads hc
    refine ⟨whook_reservedTable hk hin i hc rfl, fun hlow hhigh => ⟨?sound, ?poisoned, ?failed⟩⟩
    case sound => exact fun s1 bs hread => ⟨_, whook_reads hk hin i hc rfl hlow hhigh hread, fun _ => rfl, rfl, rfl⟩
    case poisoned => exact fun s1 bs hread => ⟨_, whook_reads hk hin i hc rfl hlow hhigh hread, fun _ => rfl, rfl, rfl⟩
    case failed => exact fun s1 x hread => ⟨_, whook_reads hk hin i hc rfl hlow hhigh hread, fun _ => rfl, rfl, rfl⟩

end Sys2Proof
end

section
/-!
PROOFS. Rows of lanes in the sparse tables that hold accumulators and slots (R179): what setting a range leaves; the layer under O40.
-/
namespace Sys2Proof.Laws.Lanes

open Sys2Proof.Machine

/-! ### Tables in canonical form -/

section
variable {α : Type} {d : α} {m : Sparse α}

theorem tableWf_iff_pairwise [DecidableEq α] : tableWf d m = true ↔ m.Pairwise (fun a b => a.1 < b.1) ∧ ∀ e ∈ m, e.2 ≠ d := by
  induction m with
  | nil => simp [tableWf]
  | cons e m ih =>
    obtain ⟨j, w⟩ := e
    rw [tableWf_cons, ih, List.pairwise_cons, List.forall_mem_cons]
    constructor
    · rintro ⟨hw, hhead, hm, hd⟩
      refine ⟨⟨fun b hb => ?_, hm⟩, hw, hd⟩
      cases m with
      | nil => exact absurd hb List.not_mem_nil
      | cons f l =>
        have hf : j < f.1 := hhead f rfl
        rcases List.mem_cons.1 hb with rfl | hb
        · exact hf
        · exact hf.trans ((List.pairwise_cons.1 hm).1 b hb)
    · rintro ⟨⟨hlt, hm⟩, hw, hd⟩
      exact ⟨hw, fun b hb => hlt b (List.mem_of_mem_head? hb), hm, hd⟩

theorem look_of_forall_lt {j : Nat} (h : ∀ e ∈ m, j < e.1) : look d m j = d :=
  look_of_lt_head d m j (fun e he => h e (List.mem_of_mem_head? he))

/-- Of a canonical table, the entries whose keys satisfy `p` are the table where `p` holds and nothing elsewhere. -/
theorem look_filter [DecidableEq α] (hm : tableWf d m = true) (p : Nat → Bool) (j : Nat) :
    look d (m.filter (fun e => p e.1)) j = if p j then look d m j else d := by
  induction m with
  | nil => simp
  | cons e m ih =>
    obtain ⟨i, w⟩ := e
    have hlt := (List.pairwise_cons.1 (tableWf_iff_pairwise.1 hm).1).1
    have ih := ih (tableWf_tail d _ m hm)
    by_cases hi : p i = true
    · rw [List.filter_cons_of_pos (by exact hi)]
      simp only [look, ih]
      by_cases hj : j = i
      · simp [hj, hi]
      · simp only [hj, if_false]
        split <;> simp
    · rw [List.filter_cons_of_neg (by exact hi), ih]
      simp only [look]
      by_cases hj : j = i
      · simp [hj, hi]
      · by_cases hji : j < i
        · simp [hj, hji, look_of_forall_lt (d := d) (fun e he => hji.trans (hlt e he))]
        · simp [hj, hji]

theorem look_append_of_lt (m' : Sparse α) {j : Nat} (h : ∀ e ∈ m, e.1 < j) : look d (m ++ m') j = look d m' j := by
  induction m with
  | nil => rfl
  | cons e m ih =>
    obtain ⟨i, w⟩ := e
    obtain ⟨hi, hm⟩ := List.forall_mem_cons.1 h
    rw [List.cons_append, look, if_neg (by omega), if_neg (by omega), ih hm]

theorem look_append_of_gt {m' : Sparse α} {j : Nat} (h : ∀ e ∈ m', j < e.1) : look d (m ++ m') j = look d m j := by
  induction m with
  | nil => exact look_of_forall_lt h
  | cons e m ih => rw [List.cons_append, look, look, ih]

end

/-! ### Ranges -/

/-- The entries of lanes `vs` from key `k` on, zeros not listed. -/
def laneEntries (k : Nat) (vs : List Cell) : Sparse Cell := vs.zipIdx.filterMap (fun q => if q.1 = 0 then none else some (k + q.2, q.1))

theorem laneEntries_cons (k : Nat) (v : Cell) (vs : List Cell) :
    laneEntries k (v :: vs) = if v = 0 then laneEntries (k + 1) vs else (k, v) :: laneEntries (k + 1) vs := by
  have hrest : (vs.zipIdx 1).filterMap (fun q => if q.1 = 0 then none else some (k + q.2, q.1)) = laneEntries (k + 1) vs := by
    rw [laneEntries, List.zipIdx_succ (i := 0), List.filterMap_map]
    congr 1
    funext q
    simp [Nat.add_assoc, Nat.add_comm 1]
  unfold laneEntries at hrest ⊢
  rw [List.zipIdx_cons, List.filterMap_cons, hrest]
  split <;> simp_all

theorem mem_laneEntries {k : Nat} {vs : List Cell} {e : Nat × Cell} (he : e ∈ laneEntries k vs) : k ≤ e.1 ∧ e.1 < k + vs.length ∧ e.2 ≠ 0 := by
  induction vs generalizing k with
  | nil => exact absurd he List.not_mem_nil
  | cons v vs ih =>
    rw [laneEntries_cons] at he
    rw [List.length_cons]
    split at he
    · obtain ⟨h1, h2, h3⟩ := ih he
      exact ⟨by omega, by omega, h3⟩
    · rcases List.mem_cons.1 he with rfl | he
      · exact ⟨le_rfl, by simp, ‹_›⟩
      · obtain ⟨h1, h2, h3⟩ := ih he
        exact ⟨by omega, by omega, h3⟩

theorem pairwise_laneEntries (k : Nat) (vs : List Cell) : (laneEntries k vs).Pairwise (fun a b => a.1 < b.1) := by
  induction vs generalizing k with
  | nil => exact .nil
  | cons v vs ih =>
    rw [laneEntries_cons]
    split
    · exact ih _
    · exact List.pairwise_cons.2 ⟨fun e he => (mem_laneEntries he).1, ih _⟩

theorem look_laneEntries (k : Nat) (vs : List Cell) (i : Nat) : look 0 (laneEntries k vs) (k + i) = vs.getD i 0 := by
  induction vs generalizing k i with
  | nil => rfl
  | cons v vs ih =>
    rw [laneEntries_cons]
    have hzero : look 0 (laneEntries (k + 1) vs) k = 0 := look_of_forall_lt (fun e he => (mem_laneEntries he).1)
    have hsucc : ∀ n, look 0 (laneEntries (k + 1) vs) (k + (n + 1)) = vs.getD n 0 := fun n => by rw [← ih (k + 1) n]; congr 1; omega
    by_cases hv : v = 0
    · rw [if_pos hv]
      cases i with
      | zero => simpa [hv] using hzero
      | succ n => simpa using hsucc n
    · rw [if_neg hv, look]
      cases i with
      | zero => simp
      | succ n => rw [if_neg (by omega), if_neg (by omega)]; simpa using hsucc n

section
variable {m : Sparse Cell} (hm : tableWf 0 m = true) (k : Nat) (vs : List Cell)
include hm

/-- A range that has been set reads as it was set, and every other key as before. -/
theorem look_setRange (j : Nat) : look 0 (setRange m k vs) j = if k ≤ j ∧ j < k + vs.length then vs.getD (j - k) 0 else look 0 m j := by
  have hbelow := look_filter hm (fun i => decide (i < k)) j
  have habove := look_filter hm (fun i => decide (k + vs.length ≤ i)) j
  have hlast : ∀ e ∈ m.filter (fun p => decide (k + vs.length ≤ p.1)), k + vs.length ≤ e.1 := fun e he => by simpa using (List.mem_filter.1 he).2
  have hfirst : ∀ e ∈ m.filter (fun p => decide (p.1 < k)), e.1 < k := fun e he => by simpa using (List.mem_filter.1 he).2
  unfold setRange
  by_cases hk : j < k
  · rw [List.append_assoc, look_append_of_gt, hbelow, if_pos (by simpa using hk), if_neg (by omega)]
    intro e he
    rcases List.mem_append.1 he with he | he
    · exact hk.trans_le (mem_laneEntries he).1
    · have := hlast e he; omega
  · have hpast : look 0 (m.filter (fun p => decide (p.1 < k)) ++ laneEntries k vs ++ m.filter (fun p => decide (k + vs.length ≤ p.1))) j =
        look 0 (laneEntries k vs ++ m.filter (fun p => decide (k + vs.length ≤ p.1))) j := by
      rw [List.append_assoc, look_append_of_lt]
      intro e he
      have := hfirst e he; omega
    refine hpast.trans ?_
    by_cases hn : j < k + vs.length
    · rw [look_append_of_gt (fun e he => hn.trans_le (hlast e he)), if_pos ⟨by omega, hn⟩, ← look_laneEntries k]
      congr 1; omega
    · rw [look_append_of_lt _ (fun e he => by have := (mem_laneEntries he).2.1; omega), habove, if_pos (by simpa using hn), if_neg (by omega)]

theorem tableWf_setRange : tableWf 0 (setRange m k vs) = true := by
  obtain ⟨hsorted, hlisted⟩ := tableWf_iff_pairwise.1 hm
  have hmid : ∀ e ∈ laneEntries k vs, k ≤ e.1 ∧ e.1 < k + vs.length ∧ e.2 ≠ 0 := fun e he => mem_laneEntries he
  refine tableWf_iff_pairwise.2 ⟨?_, ?_⟩
  · refine List.pairwise_append.2 ⟨List.pairwise_append.2 ⟨hsorted.filter _, pairwise_laneEntries k vs, fun a ha b hb => ?_⟩, hsorted.filter _, fun a ha b hb => ?_⟩
    · have hb := (hmid b hb).1
      have ha : a.1 < k := by simpa using (List.mem_filter.1 ha).2
      omega
    · have hb : k + vs.length ≤ b.1 := by simpa using (List.mem_filter.1 hb).2
      rcases List.mem_append.1 ha with ha | ha
      · have ha : a.1 < k := by simpa using (List.mem_filter.1 ha).2
        omega
      · have ha := (hmid a ha).2.1
        omega
  · intro e he
    rcases List.mem_append.1 he with he | he
    · rcases List.mem_append.1 he with he | he
      · exact hlisted e (List.mem_of_mem_filter he)
      · exact (hmid e he).2.2
    · exact hlisted e (List.mem_of_mem_filter he)

end

end Sys2Proof.Laws.Lanes
end

section
/-!
PROOFS. The stream side at the head of the weight-code queue, the reads that come before directives, and the clk they take (R254 to R268, R272,
R273, R387, R388, R474): settles O40.
-/
namespace Sys2Proof.Laws.StreamSide

open Sys2Proof.Machine
open Sys2Proof.Laws.Lanes Sys2Proof.Laws.Stream Sys2Proof.Laws.Rows

/-! ### A command is taken -/

/-- Taking a command changes the queue, what the stream side still receives of older values, and the tokens; the rest of the core stays. -/
theorem takeWeight_eq (clk : Nat) (w : WCmd) (c : Core) : takeWeight clk w c = { c with
    wQueue := c.wQueue.tail, g := (streamSees w.sees c).g, near := (streamSees w.sees c).near, sys := (streamSees w.sees c).sys
    tokens := (takeWeight clk w c).tokens, trapFrame := (takeWeight clk w c).trapFrame } :=
  pushCommand_eq (streamSees w.sees { c with wQueue := c.wQueue.tail }) .w w.push w.id { src := Eng.w.num, seq := w.seq, cmd := some w.id, clk := clk }

theorem toks_takeWeight {c : Core} {w : WCmd} (clk : Nat) (hframe : c.trapFrame = none) (hw : .w ∉ maskEngs w.push) {e : Eng} (he : e ∈ maskEngs w.push) :
    ∃ tk, (queueAt (takeWeight clk w c) (queueCode .w e)).toks = (queueAt c (queueCode .w e)).toks ++ [tk] :=
  ⟨_, toks_pushCommand (c := streamSees w.sees { c with wQueue := c.wQueue.tail }) hframe hw he⟩

/-- The head of the queue has been taken and its tokens pushed. -/
def Taken (p : State) (w : WCmd) (ws : List WCmd) (t : State) : Prop :=
  t.core.wQueue = ws ∧ t.core.call = none ∧ SameMemory p t ∧ t.core.g.cur = p.core.g.cur ∧
    (p.core.trapFrame = none → .w ∉ maskEngs w.push → ∀ e ∈ maskEngs w.push,
      ∃ tk, (queueAt t.core (queueCode .w e)).toks = (queueAt p.core (queueCode .w e)).toks ++ [tk])

/-- A command that touches neither the queue nor the call nor the registers nor the tokens is taken. -/
theorem taken_of_takeWeight {p : State} {w : WCmd} {ws : List WCmd} {f : Core → Core} (hq : (f p.core).wQueue = w :: ws) (hcall : (f p.core).call = none)
    (hg : (f p.core).g = p.core.g) (htok : (f p.core).tokens = p.core.tokens) (hframe : (f p.core).trapFrame = p.core.trapFrame) :
    Taken p w ws (modCore p (fun c => takeWeight p.clk w (f c))) := by
  refine ⟨?_, ?_, fun _ => rfl, ?_, fun hnone hw e he => ?_⟩
  · rw [modCore_core, takeWeight_eq, hq, List.tail_cons]
  · rw [modCore_core, takeWeight_eq, hcall]
  · rw [modCore_core, takeWeight_eq, ← hg]; rfl
  · obtain ⟨tk, h⟩ := toks_takeWeight (c := f p.core) p.clk (hframe.trans hnone) hw he
    exact ⟨tk, h.trans (by rw [queueAt, htok, queueAt])⟩

/-! ### Rows that become zero (R255) -/

/-- The core with `n` accumulator rows from row `b` on set to zero. -/
def zeroRows (b n : Nat) (c : Core) : Core := (List.range n).foldl (fun c i => setAcc c (b + i) (List.replicate 512 0)) c

theorem zeroRows_zero (b : Nat) (c : Core) : zeroRows b 0 c = c := rfl

theorem zeroRows_succ (b n : Nat) (c : Core) : zeroRows b (n + 1) c = setAcc (zeroRows b n c) (b + n) (List.replicate 512 0) := by
  rw [zeroRows, List.range_succ, List.foldl_append]
  rfl

theorem zeroRows_eq (b n : Nat) (c : Core) : zeroRows b n c = { c with acc := (zeroRows b n c).acc, accPoison := (zeroRows b n c).accPoison } := by
  induction n with
  | zero => rfl
  | succ n ih =>
    rw [zeroRows_succ]
    generalize zeroRows b n c = x at ih
    rw [ih]
    rfl

theorem look_zeroRows {c : Core} (hc : tableWf 0 c.acc = true) (b n : Nat) : tableWf 0 (zeroRows b n c).acc = true ∧
    ∀ row i, row < 256 → i < 512 → look 0 (zeroRows b n c).acc (accBase row + i) = if ∃ k < n, (b + k) % 256 = row then 0 else look 0 c.acc (accBase row + i) := by
  induction n with
  | zero => exact ⟨hc, fun row i _ _ => by simp [-List.reduceReplicate, zeroRows_zero]⟩
  | succ n ih =>
    obtain ⟨hwf, hlook⟩ := ih
    rw [zeroRows_succ, setAcc]
    refine ⟨tableWf_setRange hwf _ _, fun row i hrow hi => ?_⟩
    rw [look_setRange hwf, hlook row i hrow hi]
    by_cases hn : (b + n) % 256 = row
    · rw [if_pos (by rw [List.length_replicate, accBase, accBase]; omega), if_pos ⟨n, by omega, hn⟩, List.getD_replicate _ (by rw [accBase, accBase]; omega)]
    · rw [if_neg (by rw [List.length_replicate, accBase, accBase]; omega)]
      congr 1
      refine propext ⟨fun ⟨k, hk, h⟩ => ⟨k, by omega, h⟩, fun ⟨k, hk, h⟩ => ⟨k, ?_, h⟩⟩
      rcases Nat.lt_succ_iff_lt_or_eq.1 hk with hk | rfl
      · exact hk
      · exact absurd h hn

/-- Up to 256 rows from `b` on, counted round the 256 there are. -/
theorem row_named_iff {b n row : Nat} (hn : n ≤ 256) (hrow : row < 256) : (∃ k < n, (b + k) % 256 = row) ↔ (row + 256 - b % 256) % 256 < n := by
  constructor
  · rintro ⟨k, hk, h⟩; omega
  · exact fun h => ⟨_, h, by omega⟩

/-! ### The head of the queue -/

section
variable {s p : State} (hp : focus s s.arg.core.toNat = p) {w : WCmd} {ws : List WCmd}

theorem nextWeight_head (hcall : p.core.call = none) (hq : p.core.wQueue = w :: ws) (hid : w.id ∉ p.core.badCmds) : nextWeight p.core = some w := by
  simp [nextWeight, hcall, hq, hid]

variable (hnext : nextWeight p.core = some w)
include hp hnext

theorem stripeApply_loads {st : Stripe} (hop : w.op = .stripe st) :
    execEvStripeApply s = .next (modCore p (fun c => takeWeight p.clk w { c with stripe := st })) := by
  simp only [execEvStripeApply, hp, hnext, hop]

theorem zeroApply_zeroes {b n : Nat} (hop : w.op = .zero b n) :
    execEvZeroApply s = .next (modCore p (fun c => takeWeight p.clk w (zeroRows b n c))) := by
  simp only [execEvZeroApply, hp, hnext, hop]
  rfl

theorem slackApply_sets {n : Nat} (hop : w.op = .slack n) :
    execEvSlackApply s = .next (modCore p (fun c => takeWeight p.clk w { c with wSlack := n })) := by
  simp only [execEvSlackApply, hp, hnext, hop]

/-! ### Calls (R262) -/

/-- The call of command `w` before its header is known, with what its reading has found. -/
def callOf (w : WCmd) (gen ab : Nat) (r : Option StreamRead) : StreamCall :=
  { cmd := w, abase := ab, floatKind := true, pos := { gen := gen, arow := 0, segTable := 0, segCount := 0, seg := 0 }, read := r }

/-- The call of command `w` at segment 0 of the descriptor with header `m`. -/
def callAt (w : WCmd) (gen ab : Nat) (m : Matrix) : StreamCall :=
  { cmd := w, abase := ab, floatKind := m.floatKind, pos := { gen := gen, arow := m.arow, segTable := m.table, segCount := m.count, seg := 0 } }

variable {d gen ab : Nat} (hop : w.op = .call d gen ab)
  (hsees : modCore p (fun c => streamSees w.sees { c with wQueue := c.wQueue.tail }) = { p with core := { p.core with wQueue := ws } }) {p1 : State}
include hop hsees

theorem callRun_fails {x : FaultRec} (hm : readMatrix { p with core := { p.core with wQueue := ws } } d = (p1, .error x)) :
    execEvCallRun s = .next (modCore p1 (fun c => { c with call := some (callOf w gen ab (some (.fault x))) })) := by
  simp only [execEvCallRun, hp, hnext, hop, hsees, hm]
  rfl

theorem callRun_poisoned {m : Matrix} (hm : readMatrix { p with core := { p.core with wQueue := ws } } d = (p1, .ok (m, true))) :
    execEvCallRun s = .next (modCore p1 (fun c => { c with call := some (callOf w gen ab (some (.poison d))) })) := by
  simp only [execEvCallRun, hp, hnext, hop, hsees, hm, if_true]
  rfl

variable {m : Matrix} (hm : readMatrix { p with core := { p.core with wQueue := ws } } d = (p1, .ok (m, false)))
include hm

theorem callRun_disagrees (hbad : m.floatKind ≠ kindOf p.core.stripe.ty ∨ p.core.stripe.k < m.k) :
    execEvCallRun s = .next (modCore p1 (fun c => { c with call := some (callOf w gen ab (some (.fault (weightFault 3)))) })) := by
  simp only [execEvCallRun, hp, hnext, hop, hsees, hm, Bool.false_eq_true, if_false]
  rw [if_pos (by simpa using hbad)]
  rfl

theorem callRun_taken (hkind : m.floatKind = kindOf p.core.stripe.ty) (hk : m.k ≤ p.core.stripe.k) :
    execEvCallRun s = .next (modCore p1 (fun c => { c with call := some (callAt w gen ab m) })) := by
  simp only [execEvCallRun, hp, hnext, hop, hsees, hm, Bool.false_eq_true, if_false]
  rw [if_neg (by simp [hkind, hk])]
  rfl

end

/-- Where no older value is kept, taking a call changes the queue alone. -/
theorem streamSees_taken {p : State} {w : WCmd} {ws : List WCmd} (hq : p.core.wQueue = w :: ws) (hg : p.core.g.old = []) (hn : p.core.near.old = [])
    (hs : p.core.sys.old = []) :
    modCore p (fun c => streamSees w.sees { c with wQueue := c.wQueue.tail }) = { p with core := { p.core with wQueue := ws } } := by
  have hfile {α : Type} (f : File α) (h : f.old = []) : ({ f with old := [] } : File α) = f := by rw [← h]
  simp only [modCore, streamSees, hq, List.tail_cons, hg, hn, hs, List.map_nil, List.filter_nil, hfile _ hg, hfile _ hn, hfile _ hs]

/-! ### Segments, and the reads that come before (R261, R268, R474) -/

section
variable {s p : State} (hp : focus s s.arg.core.toNat = p) {k : StreamCall} (hk : p.core.call = some k)
include hp hk

theorem segmentStart_returns {r : StreamRead} (hr : k.read = some r) : execEvSegmentStart s = .next (readReturns p k r) := by
  simp only [execEvSegmentStart, hp, hk, hr]

theorem segmentStart_enters (hr : k.read = none) (hin : k.pos.inSegment = false) {p1 : State} {e : Segment}
    (hseg : segmentNow p k.pos = (p1, .ok (e, false))) : execEvSegmentStart s = .next (setPos p1 { k.pos with
      colbase := 64 * k.pos.seg, start := e.start, parcels := e.parcels, pc := e.start, slack := max e.slack p.core.wSlack, inSegment := true }) := by
  simp only [execEvSegmentStart, hp, hk, hr, hin, hseg, Bool.false_eq_true, if_false]

end

section
variable {p p1 : State} {k : StreamCall} {d : Nat}

theorem readReturns_hook {m : Matrix} (hm : readMatrix p d = (p1, .ok (m, false))) : readReturns p k (.hook d) =
    modCore p1 (fun c => { c with call := some { k with
      read := none, pos := { k.pos with gen := m.gen, arow := m.arow, segTable := m.table, segCount := m.count, seg := 0 } } }) := by
  simp only [readReturns, hm, Bool.false_eq_true, if_false]

theorem readReturns_hook_fails {x : FaultRec} (hm : readMatrix p d = (p1, .error x)) : readReturns p k (.hook d) =
    modCore p1 (fun c => { c with call := some { k with read := some (.fault x) } }) := by
  simp only [readReturns, hm]

end

/-! ### The statements -/

theorem weightQueueRuns : WeightQueueRuns := by
  intro s w ws p
  refine ⟨fun hcall hq hid => ?queue, fun k hk => ?reads, fun k e p1 hk hr hin hseg hk1 => ?segment⟩
  case queue =>
    have hnext : nextWeight p.core = some w := nextWeight_head hcall hq hid
    refine ⟨fun st hop => ?stripe, fun b n hop hn hacc => ?zero, fun n hop => ?slack, ?call, ?unread⟩
    case stripe => exact ⟨_, stripeApply_loads rfl hnext hop, taken_of_takeWeight hq hcall rfl rfl rfl, by rw [modCore_core, takeWeight_eq], by rw [modCore_core, takeWeight_eq]⟩
    case slack => exact ⟨_, slackApply_sets rfl hnext hop, taken_of_takeWeight hq hcall rfl rfl rfl, by rw [modCore_core, takeWeight_eq], by rw [modCore_core, takeWeight_eq]⟩
    case zero =>
      have hzero := zeroRows_eq b n p.core
      refine ⟨_, zeroApply_zeroes rfl hnext hop, taken_of_takeWeight (f := zeroRows b n) ?_ ?_ ?_ ?_ ?_, ?_, fun row i hrow hi => ?_⟩
      · rw [hzero]; exact hq
      · rw [hzero]; exact hcall
      · rw [hzero]
      · rw [hzero]
      · rw [hzero]
      · rw [modCore_core, takeWeight_eq, hzero]
      · rw [modCore_core, takeWeight_eq]
        exact ((look_zeroRows hacc b n).2 row i hrow hi).trans (by simp only [row_named_iff hn hrow])
    case call =>
      intro d gen ab m p1 hop _ hg hnear hsys hm
      have hsees := streamSees_taken hq hg hnear hsys
      exact ⟨fun hbad => ⟨_, callRun_disagrees rfl hnext hop hsees hm hbad, fun _ => rfl, _, rfl, rfl, rfl, rfl, rfl⟩,
        fun hkind hle => ⟨_, callRun_taken rfl hnext hop hsees hm hkind hle, fun _ => rfl, _, rfl, rfl, rfl, rfl, rfl, rfl, rfl, rfl, rfl, rfl, rfl, rfl⟩⟩
    case unread =>
      intro d gen ab p1 hop _ hg hnear hsys
      have hsees := streamSees_taken hq hg hnear hsys
      exact ⟨fun x hm => ⟨_, callRun_fails rfl hnext hop hsees hm, fun _ => rfl, _, rfl, rfl, rfl, rfl, rfl⟩,
        fun m hm => ⟨_, callRun_poisoned rfl hnext hop hsees hm, fun _ => rfl, _, rfl, rfl, rfl, rfl, rfl⟩⟩
  case reads =>
    refine ⟨fun x hr => segmentStart_returns rfl hk hr, fun v hr => segmentStart_returns rfl hk hr,
      fun hr => ⟨_, segmentStart_returns rfl hk hr, fun _ => rfl, rfl, rfl⟩, fun d p1 hr => ⟨fun m hm => ?_, fun x hm => ?_⟩⟩
    · exact ⟨_, (segmentStart_returns rfl hk hr).trans (congrArg _ (readReturns_hook hm)), fun _ => rfl, rfl⟩
    · exact ⟨_, (segmentStart_returns rfl hk hr).trans (congrArg _ (readReturns_hook_fails hm)), fun _ => rfl, rfl⟩
  case segment => exact ⟨_, segmentStart_enters rfl hk hr hin hseg, fun _ => rfl, setPos_call hk1 _⟩

/-- A counter of the weight-code engine that is not at its greatest value grows by one (R273). -/
theorem sysNow_bumpSys {c : Core} {n : Nat} (h : (sysNow c n).toNat < 2 ^ 32 - 1) : sysNow (bumpSys c n) n = sysNow c n + 1 := by
  rw [bumpSys, Fifos.sysNow_setSysNow, if_pos rfl]
  apply BitVec.eq_of_toNat_eq
  rw [BitVec.toNat_ofNat, BitVec.toNat_add, Nat.mod_eq_of_lt (show (sysNow c n).toNat < 2 ^ 32 by omega), show Nat.min ((sysNow c n).toNat + 1) (2 ^ 32 - 1) = (sysNow c n).toNat + 1 from Nat.min_eq_left (by omega)]
  rfl

section
variable {s p : State} (hp : focus s s.arg.core.toNat = p)
include hp

section
variable {k : StreamCall} (hk : p.core.call = some k) (hstarved : p.core.starved = true) (hr : k.read = none) (hin : k.pos.inSegment = true)
include hk hstarved hr hin

theorem starvedClk_absorbed (hlag : k.pos.lag < k.pos.slack) : execEvStarvedClk s = .next
    (modCore (setPos p { k.pos with lag := k.pos.lag + 1 }) (fun c => bumpSys { c with starved := false } sysWABS)) := by
  have hslack : slackNow p k = k.pos.slack := by simp [slackNow, hr, hin]
  simp [execEvStarvedClk, hp, hk, hstarved, hslack, hlag]

theorem starvedClk_freezes (hlag : k.pos.slack ≤ k.pos.lag) : execEvStarvedClk s = .next
    (modCore p (fun c => bumpSys { c with starved := false, frozen := true } sysWFRZ)) := by
  have hslack : slackNow p k = k.pos.slack := by simp [slackNow, hr, hin]
  simp [execEvStarvedClk, hp, hk, hstarved, hslack, Nat.not_lt.2 hlag]

end

variable (hlagging : p.core.lagging = true)
include hlagging

theorem probeLag_absorbed (h : p.core.probeLag < bits (sysNow p.core sysSLIPW) 31 16) : execEvProbeLag s = .next
    { p with core := { p.core with lagging := false, probeLag := p.core.probeLag + 1 } } := by
  simp [execEvProbeLag, hp, hlagging, h, modCore]

theorem probeLag_freezes (h : bits (sysNow p.core sysSLIPW) 31 16 ≤ p.core.probeLag) : execEvProbeLag s = .next
    { p with core := { p.core with lagging := false, frozen := true } } := by
  simp [execEvProbeLag, hp, hlagging, Nat.not_lt.2 h, modCore]

end

theorem starvedAndLaggingClk : StarvedAndLaggingClk := by
  intro s p
  refine ⟨fun k hk hstarved hr hin => ⟨fun hlag => ?_, fun hlag => ?_⟩, fun hlagging => ⟨fun h => ?_, fun h => ?_⟩⟩
  · exact ⟨_, starvedClk_absorbed rfl hk hstarved hr hin hlag, rfl, rfl, setPos_call hk _, rfl, fun _ => rfl, fun h => sysNow_bumpSys h⟩
  · exact ⟨_, starvedClk_freezes rfl hk hstarved hr hin hlag, rfl, rfl, hk, rfl, fun _ => rfl, fun h => sysNow_bumpSys h⟩
  · exact ⟨_, probeLag_absorbed rfl hlagging h, rfl⟩
  · exact ⟨_, probeLag_freezes rfl hlagging h, rfl⟩

end Sys2Proof.Laws.StreamSide

namespace Sys2Proof

/-- Settles O40: the head of the queue, each read that returns and each clk ends in one state, whose parts are read off. -/
theorem streamSideRuns : Obligations.StreamSideRuns := ⟨Laws.StreamSide.weightQueueRuns, Laws.StreamSide.starvedAndLaggingClk⟩

end Sys2Proof
end

section
/-!
PROOFS. The instructions of the weight-code engine and SLACK of the access engine (R251, R253 to R257, R385, R388): settles O30.
-/
namespace Sys2Proof.Laws.WeightCommands

open Sys2Proof.Machine Sys2Proof.Laws.Finishes Sys2Proof.Laws.Squash

/-! ### A command joins the queue (R251) -/

section
variable {h : Hdr} {p : State} {op : WOp}

/-- The entry that command `op` of an instruction with header `h` gets in the queue. -/
def entryOf (h : Hdr) (op : WOp) (c : Core) : WCmd :=
  { op := op, id := c.nextId, tag := c.engW.walk, push := h.push, seq := c.engW.seq, sees := seenByW c }

/-- The state in which the command has joined the queue. -/
def joined (h : Hdr) (op : WOp) (p : State) : State :=
  modCore p (fun c => { c with wQueue := c.wQueue ++ [entryOf h op c], nextId := c.nextId + 1 })

theorem queueW_joins (hroom : p.core.wQueue.length < 16) : queueW h p op = .later (joined h op p) := if_neg (Nat.not_le.2 hroom)

theorem queueW_waits (hfull : 16 ≤ p.core.wQueue.length) : queueW h p op = .wait nothing := if_pos hfull

theorem wQueue_joined (pc : Nat) : (finishLater (joined h op p) h pc).core.wQueue = p.core.wQueue ++ [entryOf h op p.core] :=
  core_of_onlyWalked Core.wQueue (fun _ _ _ _ _ _ _ => rfl) (finishLater_onlyWalked (joined h op p) h pc)

/-- Nothing else changes but the walk and the places reserved. -/
theorem queuedW_joined {s : State} {len : Nat} : QueuedW s p (finishLater (joined h op p) h (nextPc s h len)) h len op := by
  have hw : OnlyWalked (joined h op p) (finishLater (joined h op p) h (nextPc s h len)) := finishLater_onlyWalked ..
  have hwalk : walkOf (joined h op p) = walkOf p := rfl
  have hcore {β : Type} := core_of_onlyWalked (β := β) (h := hw)
  exact ⟨walkedTo_of_walkOf hwalk (finishLater_walked ..), reserved_of_walkOf hwalk (finishLater_reserved _ _ _),
    hcore Core.g (fun _ _ _ _ _ _ _ => rfl), fun b => sameMemory_of_onlyWalked hw b, _, wQueue_joined _, rfl, rfl, rfl⟩

variable {s : State} {len : Nat} {srcs : List Loc} {body : State → Act} (hi : Issues s h srcs p) (hbody : body p = queueW h p op)
include hi hbody

theorem issueOut_queues (hroom : p.core.wQueue.length < 16) : Completes (issueOut h len srcs body s) (fun q => QueuedW s p q h len op) :=
  ⟨_, by rw [issueOut_of_issues hi, hbody, queueW_joins hroom, finish_later], queuedW_joined⟩

theorem issueOut_waits (hfull : 16 ≤ p.core.wQueue.length) : issueOut h len srcs body s = .next s := by
  rw [issueOut_of_issues hi, hbody, queueW_waits hfull]
  rfl

end

/-! ### WSTRIPE, WZERO and the two SLACKs (R253 to R255, R388) -/

theorem stripeOf_eq (base w : Nat) (t : Ty) (rm : BitVec 2) :
    stripeOf base w t rm = { base := base, pitch := w % 2 ^ 16, k := w / 2 ^ 16 % 2 ^ 12 + 1, ty := t, rm := rm } := by simp [stripeOf]

theorem stripeFault_misaligned {st : Stripe} (hbad : st.base % 4 ≠ 0 ∨ st.pitch % 4 ≠ 0) : stripeFault st = some (nearFault 3 st.base) :=
  if_pos (by simpa using hbad)

/-- What WSTRIPE does once it issues. -/
def stripeBody (h : Hdr) (st : Stripe) (p : State) : Act :=
  match stripeFault st with
  | some f => .trap f
  | none => queueW h p (.stripe st)

theorem stripeBody_misaligned {h : Hdr} {st : Stripe} {p : State} (hbad : st.base % 4 ≠ 0 ∨ st.pitch % 4 ≠ 0) :
    stripeBody h st p = .trap (nearFault 3 st.base) := by rw [stripeBody, stripeFault_misaligned hbad]

theorem stripeBody_queues {h : Hdr} {st : Stripe} {p : State} (hok : stripeFault st = none) : stripeBody h st p = queueW h p (.stripe st) := by
  rw [stripeBody, hok]

theorem wstripe_body (h : Hdr) (a : Reg) (t : Ty) (o : Src2) (s : State) : exec (.wstripe h a t o) s =
    issueOut h (src2Len o) (.g a.toNat :: src2Locs o)
      (fun p => stripeBody h (stripeOf (readG p .w a.toNat).toNat (src2Z p .w o).toNat t h.rm) p) s := rfl

theorem finish_trap (s : State) (h : Hdr) (next : Nat) (f : FaultRec) :
    finish s h next (.trap f) = takeTrap s h.eng { f with popped := (s.core.eng h.eng).noPop } (s.core.eng h.eng).pc := rfl

theorem nearFault_base (cause : Nat) (v : Word) : nearFault cause v.toNat = { code := .nearAddress, cause := cause, tval := v } := by
  rw [nearFault, BitVec.ofNat_toNat, BitVec.setWidth_eq]

/-- The access engine's SLACK of `n` has been carried out. -/
def probeSlackSet (n : Nat) (p : State) : State :=
  modCore p (fun c => { setSysNow c sysSLIPW (BitVec.ofNat 64 (bits (sysNow c sysSLIPW) 15 0 + n * 65536)) with probeLag := 0 })

theorem bits_slip {x n : Nat} (hx : x < 65536) (hn : n < 65536) :
    bits (BitVec.ofNat 64 (x + n * 65536)) 31 16 = n ∧ bits (BitVec.ofNat 64 (x + n * 65536)) 15 0 = x := by
  simp only [bits, BitVec.toNat_ofNat]
  omega

theorem sysNow_probeSlackSet (n m : Nat) (p : State) : sysNow (probeSlackSet n p).core m =
    if m = sysSLIPW then BitVec.ofNat 64 (bits (sysNow p.core sysSLIPW) 15 0 + n * 65536) else sysNow p.core m :=
  Fifos.sysNow_setSysNow p.core sysSLIPW m _

theorem slack_sets {h : Hdr} {o : Src2} {s p : State} (hi : Issues s h (src2Locs o) p) : exec (.slack h o) s =
    .next (finishNow (probeSlackSet ((src2Z p h.eng o).toNat % 65536) p) h (nextPc s h (src2Len o))) := issueOut_of_issues hi

theorem weightCommandsQueue : WeightCommandsQueue := by
  intro h a t o s p w
  refine ⟨fun he hi => ?stripe, fun he hi => ⟨fun hroom => ⟨?zero, ?slackW⟩, fun hfull => ⟨?zeroWaits, ?slackWaits⟩⟩, fun _ hi => ?slack⟩
  case stripe =>
    intro st
    have hst : stripeOf (readG p .w a.toNat).toNat (src2Z p .w o).toNat t h.rm = st := by rw [stripeOf_eq]; simp only [st, w, he]
    rw [wstripe_body]
    refine ⟨fun hbad => ?_, fun hok hroom => issueOut_queues hi (by rw [hst, stripeBody_queues hok]) hroom⟩
    rw [issueOut_of_issues hi, hst, stripeBody_misaligned hbad, finish_trap, nearFault_base, he]
  case zero => exact issueOut_queues hi (by dsimp only; rw [← he]) hroom
  case slackW => exact issueOut_queues hi rfl hroom
  case zeroWaits => exact issueOut_waits hi rfl hfull
  case slackWaits => exact issueOut_waits hi rfl hfull
  case slack =>
    have hw := finishNow_onlyWalked (probeSlackSet (w % 65536) p) h (nextPc s h (src2Len o))
    have hwalk : walkOf (probeSlackSet (w % 65536) p) = walkOf p := rfl
    have hcore {β : Type} := core_of_onlyWalked (β := β) (h := hw)
    have hsys (n : Nat) := (hcore (sysNow · n) (fun _ _ _ _ _ _ _ => rfl)).trans (sysNow_probeSlackSet (w % 65536) n p)
    obtain ⟨hhigh, hlow⟩ := bits_slip (x := bits (sysNow p.core sysSLIPW) 15 0) (Nat.mod_lt _ (by omega)) (Nat.mod_lt w (by omega : 65536 > 0))
    refine ⟨_, slack_sets hi, walkedTo_of_walkOf hwalk (finishNow_walked ..), pushed_of_walkOf hwalk (finishNow_pushed _ _ _),
      fun b => sameMemory_of_onlyWalked hw b, hcore Core.probeLag (fun _ _ _ _ _ _ _ => rfl), hcore Core.g (fun _ _ _ _ _ _ _ => rfl),
      fun n hn => (hsys n).trans (if_neg hn), ?_, ?_⟩
    · rw [hsys, if_pos rfl]; exact hhigh
    · rw [hsys, if_pos rfl]; exact hlow

/-! ### WCALL (R256) -/

theorem wcall_joins {h : Hdr} {a : Reg} {o : Src2} {s p p1 : State} {e : TlbEntry} {pa : Nat} {m : Matrix} (hi : Issues s h (.g a.toNat :: src2Locs o) p)
    (htr : translate p .w (readG p .w a.toNat).toNat { r := true } = .ok e pa) (hroom : p.core.wQueue.length < 16) (hheld : callHeld p.core = false)
    (hread : readMatrix p (readG p .w a.toNat).toNat = (p1, .ok (m, false))) (hq : p1.core.wQueue = p.core.wQueue) : exec (.wcall h a o) s =
      .next (finishLater (joined h (.call (readG p .w a.toNat).toNat m.gen ((src2Z p .w o).toNat % 256)) p1) h (nextPc s h (src2Len o))) := by
  refine (issueOut_of_issues hi).trans (congrArg _ ?_)
  simp only [htr, hread, hheld, Nat.not_le.2 hroom, decide_false, Bool.or_self, Bool.false_eq_true, if_false]
  rw [queueW_joins (hq ▸ hroom), finish_later]

/-! ### WDRAIN (R257) -/

theorem landing_addLandings (f : Nat → Landing) (l : List Nat) (c : Core) :
    l.foldl (fun c k => addLanding c (f k)) c = { c with landing := c.landing ++ l.map f } := by
  induction l generalizing c with
  | nil => simp
  | cons k l ih => rw [List.foldl_cons, ih]; simp [addLanding]

/-- The results of a WDRAIN of `n` registers from `d` on, rows `w % 256` on, lane blocks from `w / 256` on. -/
def drainLandings (h : Hdr) (p : State) (st dt : Ty) (d w n : Nat) : List Landing :=
  (List.range n).map (fun k => drainLanding h p st dt (w % 256) ((w / 256 + k) % 8) ((d + k) % 32) k n)

/-- The state in which these results are on their way. -/
def drained (h : Hdr) (p : State) (st dt : Ty) (d w n : Nat) : State :=
  { p with core := { p.core with landing := p.core.landing ++ drainLandings h p st dt d w n } }

theorem modCore_drained (h : Hdr) (p : State) (st dt : Ty) (d w n : Nat) : modCore p (fun c => (List.range n).foldl (fun c k =>
    addLanding c (drainLanding h p st dt (w % 256) ((w / 256 + k) % 8) ((d + k) % 32) k n)) c) = drained h p st dt d w n := by
  rw [modCore, landing_addLandings, drained, drainLandings]

theorem wdrain_sends {h : Hdr} {d : Reg} {st dt : Ty} {o : Src2} {s p : State} (hi : Issues s h (src2Locs o) p) (hidle : weightIdle p.core = true)
    (hclean : p.core.accPoison = []) : exec (.wdrain h d st dt o) s = .next
      (finishLater (drained h p st dt d.toNat (src2Z p .w o).toNat ((src2Z p .w o).toNat / 2048 % 8 + 1)) h (nextPc s h (src2Len o))) := by
  refine (issueOut_of_issues hi).trans (congrArg _ ?_)
  simp only [hidle, rangePoison, hclean, List.any_nil, List.any_eq_true, Bool.not_true, Bool.false_eq_true, and_false, exists_false, if_false, finish_later, modCore_drained]

theorem act_drainLanding (h : Hdr) (p : State) (st dt : Ty) (row blk reg k n : Nat) : (drainLanding h p st dt row blk reg k n).act =
    .write ((List.range 16).flatMap (fun i => (rangeOf p.core.acc (accBase (row + i) + 64 * blk) 64).zipIdx.map (fun x =>
      ({ loc := .cell (cellNo reg i x.2), val := BitVec.ofNat 64 (convert dt st h.rm (readSys p .w sysOVT) x.1.toNat).bits } : Late)))) := by
  simp only [drainLanding, List.map_flatMap, List.map_map]
  rfl

theorem callsAndDrains : CallsAndDrains := by
  intro h a d st dt o e pa s p he w
  refine ⟨fun m p1 hi => ?call, fun hi hidle hclean => ?drain⟩
  case call =>
    intro base htr hroom hheld hread hq
    have hw := finishLater_onlyWalked (joined h (.call base m.gen (w % 256)) p1) h (nextPc s h (src2Len o))
    refine ⟨_, wcall_joins hi htr hroom hheld hread hq, entryOf h (.call base m.gen (w % 256)) p1.core, ?_, rfl, rfl, ?_, fun b => sameMemory_of_onlyWalked hw b⟩
    · exact (wQueue_joined _).trans (by rw [hq])
    · exact he ▸ (issued_walked ..).here
  case drain =>
    intro n
    have hw := finishLater_onlyWalked (drained h p st dt d.toNat w n) h (nextPc s h (src2Len o))
    have hcore {β : Type} := core_of_onlyWalked (β := β) (h := hw)
    have hwalk : walkOf (drained h p st dt d.toNat w n) = walkOf p := rfl
    refine ⟨_, wdrain_sends hi hidle hclean, walkedTo_of_walkOf hwalk (finishLater_walked ..), reserved_of_walkOf hwalk (finishLater_reserved _ _ _),
      hcore Core.cells (fun _ _ _ _ _ _ _ => rfl), fun b => sameMemory_of_onlyWalked hw b,
      drainLandings h p st dt d.toNat w n, hcore Core.landing (fun _ _ _ _ _ _ _ => rfl), by simp [drainLandings], fun k l hl => ?_⟩
    obtain ⟨j, hj, rfl⟩ : ∃ j, (List.range n)[k]? = some j ∧ drainLanding h p st dt (w % 256) ((w / 256 + j) % 8) ((d.toNat + j) % 32) j n = l := by
      simpa [drainLandings] using hl
    obtain ⟨hk, hkj⟩ := List.getElem?_eq_some_iff.1 hj
    obtain rfl : k = j := (List.getElem_range hk).symm.trans hkj
    exact ⟨rfl, by simp [drainLanding], act_drainLanding ..⟩

end Sys2Proof.Laws.WeightCommands

namespace Sys2Proof

/-- Settles O30: each instruction that issues ends in one state, whose walk, tokens, queue and results in flight are read off. -/
theorem weightInstructions : Obligations.WeightInstructions := ⟨Laws.WeightCommands.weightCommandsQueue, Laws.WeightCommands.callsAndDrains⟩

end Sys2Proof
end

section
/-!
PROOFS. WPREP of a stripe in a spilled block where DRAM finds an error that cannot be corrected (R116, R177, R264): refutes O31.
-/
namespace Sys2Proof.Laws.SpilledStripe

open Sys2Proof.Machine

/-! ### What a request that meets an error leaves of memory (R116) -/

/-- The granule of `pa` no longer holds what it held. -/
theorem memByte_spoilGranule (s : State) {pa b : Nat} (hb : b = 32 * (pa / 32)) : memByte (spoilGranule s pa) b = Config.badByte s.tick b := by
  rw [spoilGranule, memByte_of_mem (setMark_mem ..), List.range_succ_eq_map, List.foldl_cons, List.foldl_map]
  refine (memByte_pokes (fun i => 32 * (pa / 32) + (i + 1)) _ (fun t i => ⟨_, _, rfl⟩) _ _ _ (fun i _ => by omega)).trans ?_
  rw [Nat.add_zero, ← hb, memByte_pokeByte, if_pos rfl]
  rfl

/-- A read that finds an error which cannot be corrected spoils the granule. -/
theorem askSlice_spoils {s : State} {pa a : Nat} (hclass : classOf pa < 2) (herr : checkBits s pa = some (a, .uncorrectable)) (who policy : Nat) :
    (askSlice s who pa policy false).mem = (spoilGranule s a).mem := by
  rw [askSlice, if_neg (Nat.not_le.2 hclass)]
  simp only [herr, Bool.false_eq_true, if_false, modSlice_mem, poisonGranule, promoWrite_mem]

/-! ### WPREP -/

/-- Reading near bytes that all lie spilled asks for their lines. -/
theorem touchNear_spilled {s : State} {r : Nat} {as : List Nat} (h : ∀ a ∈ as, nearPlace s r a = .spilled a) : touchNear s r as = touchSpilled s as := by
  unfold touchNear
  congr 1
  exact (List.filterMap_congr (g := some) (fun a ha => by rw [h a ha])).trans List.filterMap_some

/-- A WPREP that computes its products leaves the memory that its reads of the stripe leave. -/
theorem wprep_reads {w : BitVec 16} {r : BitVec 6} {q : BitVec 4} {s : State} {k : StreamCall} (hk : s.core.call = some k) (hin : k.pos.inSegment = true)
    (hrow : k.pos.colbase + r.toNat < s.core.stripe.k) {as : List Nat} (has : rowAddrs s.core.stripe (k.pos.colbase + r.toNat) = as)
    (hcheck : as.findSome? (nearCheck s 4) = none) (hpend : as.any (nearPending s.core none) = false) (hclean : as.any (nearPoison s 4) = false) :
    ∃ t, exec (.wprep w r q) s = .next t ∧ t.mem = (touchNear s 4 as).mem := by
  have hexec : exec (.wprep w r q) s = execWprep w r q s := rfl
  rw [hexec, execWprep, Stream.onStream_running hk hin]
  simp only [if_neg (Nat.not_le.2 hrow), has, hcheck, hpend, hclean, Bool.false_eq_true, if_false]
  exact ⟨_, rfl, by rw [Canonical.directiveDone_mem, modCore_mem]⟩

/-! ### The state -/

/-- A call that stands at the first parcel of segment 0. -/
def runningCall : StreamCall :=
  { cmd := { op := .call 0 0 0, id := 0, tag := 0, push := 0, seq := 0 }, abase := 0, floatKind := false
    pos := { gen := 0, arow := 0, segTable := 0, segCount := 1, seg := 0, inSegment := true } }

/-- One row of 256 bytes at near address 0, which lies spilled in frame 0; physical byte 128 holds `b`, and its line is found to hold an
error that cannot be corrected when DRAM is next read. -/
def erring (b : Byte) : State :=
  { State.reset with
    core := { call := some runningCall, stripe := { k := 1, ty := .s4 }, sys := { File.zero with cur := [(sysSPT, 0xC000000000000000)] } }
    mem := [(128, b)]
    found := some (128, .uncorrectable) }

section
variable (b : Byte)

theorem rowAddrs_erring : rowAddrs (erring b).core.stripe 0 = List.range 256 := by
  have hrow (i : Nat) : stripeRow (erring b).core.stripe 0 + i = i := Nat.zero_add i
  have hbytes : rowBytes (erring b).core.stripe.ty = 256 := by
    change rowBytes .s4 = 256
    decide
  rw [rowAddrs, hbytes]
  exact List.map_id'' hrow _

theorem nearPlace_erring {a : Nat} (ha : a < 32768) : nearPlace (erring b) 4 a = .spilled a := by
  have hread (salt : Nat) : fileRead 0 (erring b).core.sys (erring b).tick salt 4 (sysSPT + a / 32768) = 0xC000000000000000 := by
    rw [Nat.div_eq_of_lt ha]; rfl
  have hframe : bits (0xC000000000000000 : Word) 51 15 * 32768 + a % 32768 = a := by
    rw [Nat.mod_eq_of_lt ha]; exact Nat.zero_add a
  simp only [nearPlace, hread, hframe, if_neg (show ¬ 2 ^ 21 ≤ a by omega)]
  rfl

theorem nearCheck_erring {a : Nat} (ha : a < 32768) : nearCheck (erring b) 4 a = none := by
  have hbacked : backed a = true := by
    have hclass : classOf a = 0 := by simp only [classOf, nbitsOf]; omega
    rw [backed, hclass]
    simp only [nbitsOf, Bool.and_eq_true, beq_iff_eq]
    exact ⟨by omega, decide_eq_true (by omega)⟩
  rw [nearCheck, nearPlace_erring b ha]
  exact if_pos hbacked

theorem nearPoison_erring {a : Nat} (ha : a < 32768) : nearPoison (erring b) 4 a = false := by
  rw [nearPoison, nearPlace_erring b ha]
  simp only [memPoisoned, tagPoisoned]
  have hpromo : (stackAt (erring b) (stackOf a)).promo = [] := rfl
  rw [hpromo]
  simp [erring, State.reset]

/-- The row's two lines are asked for in turn. -/
theorem touchNear_erring : (touchNear (erring b) 4 (List.range 256)).mem = (askSlice (askSlice (erring b) 0 0 0 false) 0 128 0 false).mem := by
  have hlines : dedupNat ((List.range 256).map (fun a => a / 128)) = [0, 1] := by decide +kernel
  rw [touchNear_spilled (fun a ha => nearPlace_erring b ((List.mem_range.1 ha).trans (by omega))), touchSpilled, if_neg (by decide), hlines, modCore_mem]
  rfl

theorem checkBits_erring_next : checkBits (askSlice (erring b) 0 0 0 false) 128 = some (128, .uncorrectable) := rfl

/-- Physical byte 128 is one that DRAM has spoilt, whatever it held. -/
theorem memByte_touchNear_erring : memByte (touchNear (erring b) 4 (List.range 256)) 128 = Config.badByte 0 128 := by
  have hmem := (touchNear_erring b).trans (askSlice_spoils (by decide) (checkBits_erring_next b) 0 0)
  exact (memByte_of_mem hmem 128).trans (memByte_spoilGranule _ rfl)

/-- If a WPREP left memory as it was, byte 128 would be the one that the spoilt granule holds. -/
theorem byte_of_productsAndSums (h : ProductsAndSums) : b = Config.badByte 0 128 := by
  have hin : ∀ a ∈ List.range 256, a < 32768 := fun a ha => (List.mem_range.1 ha).trans (by omega)
  have has : rowAddrs (erring b).core.stripe (runningCall.pos.colbase + (0 : BitVec 6).toNat) = List.range 256 := rowAddrs_erring b
  have hcheck : (List.range 256).findSome? (nearCheck (erring b) 4) = none := List.findSome?_eq_none_iff.2 (fun a ha => nearCheck_erring b (hin a ha))
  have hpend : (List.range 256).any (nearPending (erring b).core none) = false := List.any_eq_false.2 (fun a _ => Bool.false_ne_true)
  have hclean : (List.range 256).any (nearPoison (erring b) 4) = false := List.any_eq_false.2 (fun a ha => by simp [nearPoison_erring b (hin a ha)])
  obtain ⟨t, hexec, ⟨-, -, hsame⟩, -⟩ := (h 0 0 0 false false 0 0 (erring b) runningCall rfl rfl rfl rfl rfl rfl).1 Nat.one_pos
    (by rw [has]; exact hcheck) (by rw [has]; exact hpend) (by rw [has]; exact hclean)
  obtain ⟨t', hexec', hmem⟩ := wprep_reads (w := 0) (r := 0) (q := 0) (s := erring b) (k := runningCall) rfl rfl Nat.one_pos has hcheck hpend hclean
  obtain rfl : t = t' := Host.Outcome.next.inj (hexec.symm.trans hexec')
  calc b = memByte (erring b) 128 := rfl
    _ = memByte t 128 := (hsame 128).symm
    _ = memByte (touchNear (erring b) 4 (List.range 256)) 128 := memByte_of_mem hmem 128
    _ = Config.badByte 0 128 := memByte_touchNear_erring b

end

end Sys2Proof.Laws.SpilledStripe

namespace Sys2Proof

/-- Refutes O31: a WPREP whose stripe row lies in a spilled block reads it through its home slice, and where DRAM then finds an error that
cannot be corrected the granule is rewritten as poisoned (R116), so a byte of memory changes. Two states that differ in that byte alone
end with the same one. -/
theorem not_directives : ¬ Obligations.Directives := by
  unfold Obligations.Directives
  rintro ⟨h, -⟩
  have hsame : (1 : BitVec 8) = 2 :=
    (Laws.SpilledStripe.byte_of_productsAndSums 1 h).trans (Laws.SpilledStripe.byte_of_productsAndSums 2 h).symm
  exact absurd hsame (by decide)

end Sys2Proof
end

section
/-!
PROOFS. The instructions of the lease array (R284, R288, R291 to R294, R302): settles O33 and O60.
-/
namespace Sys2Proof.Laws.LeaseInstructions

open Sys2Proof.Machine Sys2Proof.Laws.Finishes Sys2Proof.Laws.Squash

/-! ### Issue and finish -/

/-- The engine is past the instruction, its tokens are pushed, and memory is the same. -/
def Finished (p t : State) (h : Hdr) (pc : Nat) : Prop := WalkedTo p t h p.core.ck pc ∧ Pushed p t h ∧ SameMemory p t

/-- The engine is past the instruction, the places of its tokens are reserved, and memory is the same. -/
def FinishedLater (p t : State) (h : Hdr) (pc : Nat) : Prop := WalkedTo p t h p.core.ck pc ∧ Reserved p t h ∧ SameMemory p t

section
variable {p q : State} (hw : walkOf q = walkOf p) (hm : q.mem = p.mem) (h : Hdr) (pc : Nat)
include hw hm

theorem finished_of_walkOf : Finished p (finishNow q h pc) h pc :=
  ⟨walkedTo_of_walkOf hw (finishNow_walked ..), pushed_of_walkOf hw (finishNow_pushed _ _ _),
    fun a => (sameMemory_of_onlyWalked (finishNow_onlyWalked q h pc) a).trans (memByte_of_mem hm a)⟩

theorem finishedLater_of_walkOf : FinishedLater p (finishLater q h pc) h pc :=
  ⟨walkedTo_of_walkOf hw (finishLater_walked ..), reserved_of_walkOf hw (finishLater_reserved _ _ _),
    fun a => (sameMemory_of_onlyWalked (finishLater_onlyWalked q h pc) a).trans (memByte_of_mem hm a)⟩

end

theorem engC_pc_of_walkedTo {p t : State} {h : Hdr} {ck pc : Nat} (he : h.eng = .c) (ht : WalkedTo p t h ck pc) : t.core.engC.pc = pc := by
  have hhere := ht.here
  rw [he] at hhere
  exact hhere

/-- With no fault owed to it, a lease instruction that issues comes to its body. -/
theorem issueLease_of_issues {s p : State} {h : Hdr} {len : Nat} {srcs : List Loc} {body : State → Act} (howed : s.core.leaseOwed = [])
    (hi : Issues s h srcs p) : issueLease h len srcs body s = .next (finish s h (nextPc s h len) (body p)) := by
  unfold issueLease
  rw [howed]
  exact issueOut_of_issues hi

/-- LEASE with cause `n` is raised at the instruction. -/
def leaseTrap (n : Nat) (s : State) : State :=
  takeTrap s .c { code := .lease, cause := n, popped := (s.core.eng .c).noPop } (s.core.eng .c).pc

theorem finish_leaseFault {h : Hdr} (he : h.eng = .c) (s : State) (pc n : Nat) : finish s h pc (.trap (leaseFault n)) = leaseTrap n s := by
  simp only [finish, he]
  rfl

/-! ### LACQ and LACQ.t (R284, R291) -/

theorem leaveHeld_eq_some {p : State} {cls : Nat} (h : leaveHeld p cls ≠ none) : leaveHeld p cls = some cls := by
  obtain ⟨k, hk⟩ := Option.ne_none_iff_exists'.1 h
  obtain rfl : k = cls := by simpa using (Option.filter_eq_some_iff.1 hk).2
  exact hk

section
variable {h : Hdr} {d : Reg} {o : Src2} {s p : State} (howed : s.core.leaseOwed = []) (hi : Issues s h (src2Locs o) p)
include howed hi

theorem lacq_raises (he : h.eng = .c) (hopen : p.core.leaseOpen = true) : exec (.lacq h o) s = .next (leaseTrap 2 s) := by
  refine (issueLease_of_issues howed hi).trans (congrArg _ ?_)
  rw [if_pos hopen, finish_leaseFault he]

theorem lacqT_raises (he : h.eng = .c) (hopen : p.core.leaseOpen = true) : exec (.lacqT h d o) s = .next (leaseTrap 2 s) := by
  refine (issueLease_of_issues howed hi).trans (congrArg _ ?_)
  simp only [hopen, if_true, finish_leaseFault he]

variable (hclosed : p.core.leaseOpen = false) {cls : Nat} (hcls : (src2Z p .c o).toNat % 4 = cls)
include hclosed hcls

theorem lacq_opens (hheld : leaveHeld p cls ≠ none) : exec (.lacq h o) s = .next (finishNow (openSession p cls) h (nextPc s h (src2Len o))) := by
  refine (issueLease_of_issues howed hi).trans (congrArg _ ?_)
  simp only [hclosed, hcls, leaveHeld_eq_some hheld, Bool.false_eq_true, if_false, finish]

theorem lacqT_opens (hheld : leaveHeld p cls ≠ none) :
    exec (.lacqT h d o) s = .next (finishNow (putG (openSession p cls) .c d.toNat 1) h (nextPc s h (src2Len o))) := by
  refine (issueLease_of_issues howed hi).trans (congrArg _ ?_)
  simp only [hclosed, hcls, leaveHeld_eq_some hheld, Bool.false_eq_true, if_false, finish]

variable (hnone : leaveHeld p cls = none)
include hnone

theorem lacq_waits : exec (.lacq h o) s = .next (askLeave cls s) := by
  refine (issueLease_of_issues howed hi).trans (congrArg _ ?_)
  simp only [hclosed, hcls, hnone, Bool.false_eq_true, if_false, finish]

/-- R291: leave that nothing stands before and that fits the budget is granted at once. -/
theorem lacqT_opens_atOnce (hfirst : p.leaveQueue = []) (hfits : leaveFits p cls = true) : exec (.lacqT h d o) s =
    .next (finishNow (putG (openSession { p with leaves := p.leaves ++ [(p.cur, cls)] } cls) .c d.toNat 1) h (nextPc s h (src2Len o))) := by
  refine (issueLease_of_issues howed hi).trans (congrArg _ ?_)
  simp only [hclosed, hcls, hnone, hfirst, hfits, List.isEmpty_nil, Bool.and_self, Bool.false_eq_true, if_false, if_true, finish]

theorem lacqT_refused (hno : p.leaveQueue ≠ [] ∨ leaveFits p cls = false) :
    exec (.lacqT h d o) s = .next (finishNow (putG p .c d.toNat 0) h (nextPc s h (src2Len o))) := by
  have hgrant : (p.leaveQueue.isEmpty && leaveFits p cls) = false := by
    rcases hno with hqueue | hfits
    · rw [List.isEmpty_eq_false_iff.2 hqueue, Bool.false_and]
    · rw [hfits, Bool.and_false]
  refine (issueLease_of_issues howed hi).trans (congrArg _ ?_)
  simp only [hclosed, hcls, hnone, hgrant, Bool.false_eq_true, if_false, finish]

end

theorem openSession_finishes (p : State) (cls : Nat) (h : Hdr) (pc : Nat) :
    let t := finishNow (openSession p cls) h pc
    Finished p t h pc ∧ t.core.leaseOpen = true ∧ t.core.leaseClass = cls ∧ t.core.g = p.core.g := by
  have hcore {β : Type} := core_of_onlyWalked (β := β) (h := finishNow_onlyWalked (openSession p cls) h pc)
  exact ⟨finished_of_walkOf (p := p) (q := openSession p cls) rfl rfl h pc, hcore Core.leaseOpen (fun _ _ _ _ _ _ _ => rfl),
    hcore Core.leaseClass (fun _ _ _ _ _ _ _ => rfl), hcore Core.g (fun _ _ _ _ _ _ _ => rfl)⟩

/-- An LACQ.t that answers `v` once it has left the session as `q` has it. -/
theorem answer_finishes {p q : State} (hw : walkOf q = walkOf p) (hm : q.mem = p.mem) (d : Nat) (v : Word) (h : Hdr) (pc : Nat) :
    let t := finishNow (putG q .c d v) h pc
    Finished p t h pc ∧ t.core.leaseOpen = q.core.leaseOpen ∧ t.core.leaseClass = q.core.leaseClass := by
  have hregs := onlyRegs_walks (putG_onlyRegs q .c d v) (finishNow_onlyWalked _ h pc)
  have hcore {β : Type} := core_of_onlyRegs (β := β) (h := hregs)
  have hmem : (putG q .c d v).mem = p.mem := (keeps_of_onlyRegs State.mem (fun _ _ _ _ _ _ _ _ _ _ _ => rfl) (putG_onlyRegs ..)).trans hm
  exact ⟨finished_of_walkOf ((walkOf_putG ..).trans hw) hmem h pc, hcore Core.leaseOpen (fun _ _ _ _ _ _ _ _ _ _ _ => rfl),
    hcore Core.leaseClass (fun _ _ _ _ _ _ _ _ _ _ _ => rfl)⟩

theorem answer_written {p q : State} {h : Hdr} (he : h.eng = .c) {d : Nat} (hr : outranked q.core .c (q.core.ck + 1) d = false)
    (hw : walkOf q = walkOf p) (hg : q.core.g = p.core.g) (hl : q.core.landing = p.core.landing) (v : Word) (pc : Nat) :
    RegWritten p (finishNow (putG q .c d v) h pc) h d v [] := by
  rw [← he] at hr ⊢
  exact regWritten_of_putG hr hg hl hw (finishNow_onlyWalked ..)

/-! ### LREL (R292) -/

theorem returnLeave_eq (s : State) (c : Nat) :
    returnLeave s c = { s with leaves := (returnLeave s c).leaves, leaveQueue := (returnLeave s c).leaveQueue } := by
  unfold returnLeave
  split <;> rfl

@[simp] theorem returnLeave_core (s : State) (c : Nat) : (returnLeave s c).core = s.core := by rw [returnLeave_eq]

@[simp] theorem walkOf_returnLeave (s : State) (c : Nat) : walkOf (returnLeave s c) = walkOf s := by rw [returnLeave_eq]; rfl

/-- The session is closed and its leave returned. -/
def sessionClosed (p : State) : State := returnLeave (modCore p (fun c => { c with leaseOpen := false })) p.cur

/-- The session is closed; its leave and the tokens of `h` wait for the commands that are queued. -/
def sessionClosing (h : Hdr) (p : State) : State :=
  modCore p (fun c => { c with leaseOpen := false, lrels := c.lrels ++ [(h.push, c.nextId, c.engC.seq)], nextId := c.nextId + 1 })

section
variable {h : Hdr} {s p : State} (howed : s.core.leaseOwed = []) (hi : Issues s h [] p)
include howed hi

theorem lrel_raises (he : h.eng = .c) (hclosed : p.core.leaseOpen = false) : exec (.lrel h) s = .next (leaseTrap 2 s) := by
  refine (issueLease_of_issues howed hi).trans (congrArg _ ?_)
  rw [hclosed, Bool.not_false, if_pos rfl, finish_leaseFault he]

variable (hopen : p.core.leaseOpen = true)
include hopen

theorem lrel_closes (hnone : p.core.leaseQueue = []) : exec (.lrel h) s = .next (finishNow (sessionClosed p) h (nextPc s h 2)) := by
  refine (issueLease_of_issues howed hi).trans (congrArg _ ?_)
  simp only [hopen, hnone, Bool.not_true, Bool.false_eq_true, if_false, List.isEmpty_nil, if_true]
  rfl

theorem lrel_closes_later (hsome : p.core.leaseQueue ≠ []) : exec (.lrel h) s = .next (finishLater (sessionClosing h p) h (nextPc s h 2)) := by
  refine (issueLease_of_issues howed hi).trans (congrArg _ ?_)
  simp only [hopen, List.isEmpty_eq_false_iff.2 hsome, Bool.not_true, Bool.false_eq_true, if_false]
  rfl

end

theorem sessionClosed_finishes (p : State) (h : Hdr) (pc : Nat) :
    let t := finishNow (sessionClosed p) h pc
    Finished p t h pc ∧ t.core.leaseOpen = false ∧ t.core.leaseQueue = p.core.leaseQueue ∧ t.core.g = p.core.g := by
  have hcore {β : Type} (f : Core → β) (hf) := (core_of_onlyWalked f hf (finishNow_onlyWalked (sessionClosed p) h pc)).trans
    (congrArg f (returnLeave_core ..))
  exact ⟨finished_of_walkOf (p := p) (q := sessionClosed p) (walkOf_returnLeave ..) (Canonical.returnLeave_mem ..) h pc,
    hcore Core.leaseOpen (fun _ _ _ _ _ _ _ => rfl), hcore Core.leaseQueue (fun _ _ _ _ _ _ _ => rfl), hcore Core.g (fun _ _ _ _ _ _ _ => rfl)⟩

theorem sessionClosing_finishes (p : State) (h : Hdr) (pc : Nat) :
    let t := finishLater (sessionClosing h p) h pc
    FinishedLater p t h pc ∧ t.core.leaseOpen = false ∧ t.core.leaseQueue = p.core.leaseQueue := by
  have hcore {β : Type} := core_of_onlyWalked (β := β) (h := finishLater_onlyWalked (sessionClosing h p) h pc)
  exact ⟨finishedLater_of_walkOf (p := p) (q := sessionClosing h p) rfl rfl h pc, hcore Core.leaseOpen (fun _ _ _ _ _ _ _ => rfl),
    hcore Core.leaseQueue (fun _ _ _ _ _ _ _ => rfl)⟩

theorem sessionsOpenAndClose : SessionsOpenAndClose := by
  intro h d o s p he howed hr Raises Done
  refine ⟨fun hi => ⟨fun hopen => ?raises, fun hclosed hheld => ?opens, fun hclosed hnone hqueue => ?refused, fun hclosed hnone => ?waits⟩,
    fun hi => ⟨fun hclosed => ?lrelRaises, fun hopen hqueue => ?closes⟩⟩
  case raises => exact ⟨lacq_raises howed hi he hopen, lacqT_raises howed hi he hopen⟩
  case opens =>
    refine ⟨⟨_, lacq_opens howed hi hclosed rfl hheld, openSession_finishes ..⟩, _, lacqT_opens howed hi hclosed rfl hheld, ?_⟩
    obtain ⟨hdone, hopen, hclass⟩ := answer_finishes (p := p) (q := openSession p ((src2Z p .c o).toNat % 4)) rfl rfl d.toNat 1 h (nextPc s h (src2Len o))
    exact ⟨hdone, hopen, hclass, answer_written (p := p) (q := openSession p _) he hr rfl rfl rfl 1 _⟩
  case refused =>
    obtain ⟨hdone, hopen, -⟩ := answer_finishes (p := p) rfl rfl d.toNat 0 h (nextPc s h (src2Len o))
    exact ⟨_, lacqT_refused howed hi hclosed rfl hnone (.inl hqueue), hdone, hopen.trans hclosed, answer_written he hr rfl rfl rfl 0 _⟩
  case waits => exact lacq_waits howed hi hclosed rfl hnone
  case lrelRaises => exact lrel_raises howed hi he hclosed
  case closes =>
    obtain ⟨hdone, hclosed, -, hg⟩ := sessionClosed_finishes p h (nextPc s h 2)
    exact ⟨_, lrel_closes howed hi hopen hqueue, hdone, hclosed, hg⟩

/-! ### LCFG (R293) -/

theorem sysNow_writeSys (s : State) (n k : Nat) (v : Word) : sysNow (writeSys s n v).core k = if k = n then v else sysNow s.core k := by
  simp [sysNow, writeSys, fileWrite, look_place]

/-- The words `ws` are written to the system registers from `n` on. -/
def wordsWritten (n : Nat) (ws : List Word) (s : State) : State := ws.zipIdx.foldl (fun s q => writeSys s (n + q.2) q.1) s

theorem wordsWritten_same {β : Type} {g : State → β} (hg : ∀ s n v, g (writeSys s n v) = g s) (n : Nat) (ws : List Word) (s : State) :
    g (wordsWritten n ws s) = g s := foldl_same (fun s (q : Word × Nat) => hg s (n + q.2) q.1) _ _

theorem sysNow_wordsWritten (n : Nat) (ws : List Word) (s : State) (k : Nat) :
    sysNow (wordsWritten n ws s).core k = if n ≤ k ∧ k < n + ws.length then ws.getD (k - n) 0 else sysNow s.core k := by
  have hfrom (i : Nat) (s : State) : sysNow ((ws.zipIdx i).foldl (fun s q => writeSys s (n + q.2) q.1) s).core k =
      if n + i ≤ k ∧ k < n + i + ws.length then ws.getD (k - (n + i)) 0 else sysNow s.core k := by
    induction ws generalizing i s with
    | nil => rw [if_neg (by simp)]; rfl
    | cons w ws ih =>
      rw [List.zipIdx_cons, List.foldl_cons, ih, sysNow_writeSys, List.length_cons]
      rcases Nat.lt_trichotomy k (n + i) with hk | hk | hk
      · rw [if_neg (by omega), if_neg (by omega), if_neg (by omega)]
      · rw [if_neg (by omega), if_pos hk, if_pos (by omega), hk, Nat.sub_self, List.getD_cons_zero]
      · have hnext : k - (n + i) = k - (n + (i + 1)) + 1 := by omega
        rw [if_neg (by omega : ¬ k = n + i), hnext, List.getD_cons_succ]
        exact if_congr (by omega) rfl rfl
  exact hfrom 0 s

/-- The words that an LCFG reads from `a` on. -/
def slotRead (a : Reg) (p : State) : List Word := (List.range 4).map (fun i => readG p .c (a.toNat + i))

theorem lcfg_writes {h : Hdr} {a : Reg} {o : Src2} {s p : State} (howed : s.core.leaseOwed = [])
    (hi : Issues s h (src2Locs o ++ (List.range 4).map (fun i => Loc.g (a.toNat + i))) p) {slot : Nat} (hslot : (src2Z p .c o).toNat % 16 = slot)
    (hmost : slot ≤ 8) (hclean : slotClean slot (slotRead a p) = true) :
    exec (.lcfg h a o) s = .next (finishNow (wordsWritten (sysLCS + 4 * slot) (slotRead a p) p) h (nextPc s h (src2Len o))) := by
  refine (issueLease_of_issues howed hi).trans (congrArg _ ?_)
  rw [slotRead] at hclean ⊢
  simp only [hslot, hclean, Nat.not_lt.2 hmost, decide_false, Bool.not_true, Bool.or_self, Bool.false_eq_true, if_false]
  rfl

theorem slot_finishes (a : Reg) (p : State) (n : Nat) (h : Hdr) (pc : Nat) :
    let t := finishNow (wordsWritten n (slotRead a p) p) h pc
    Finished p t h pc ∧ ∀ k, sysNow t.core k = if n ≤ k ∧ k < n + 4 then readG p .c (a.toNat + (k - n)) else sysNow p.core k := by
  refine ⟨finished_of_walkOf (wordsWritten_same (fun _ _ _ => rfl) ..) (wordsWritten_same (fun _ _ _ => rfl) ..) h pc, fun k => ?_⟩
  rw [core_of_onlyWalked (sysNow · k) (fun _ _ _ _ _ _ _ => rfl) (finishNow_onlyWalked _ h pc), sysNow_wordsWritten]
  have hlength : (slotRead a p).length = 4 := by simp [slotRead]
  rw [hlength]
  split
  next hk => simp [slotRead, show k - n < 4 by omega]
  · rfl

/-! ### The array commands (R294) -/

/-- The state in which a command has joined the lease queue. -/
def commandQueued (q : LeaseCmd) (p : State) : State := modCore p (fun c => { c with leaseQueue := c.leaseQueue ++ [q], nextId := c.nextId + 1 })

theorem commandQueued_finishes (q : LeaseCmd) (p : State) (h : Hdr) (pc : Nat) :
    let t := finishLater (commandQueued q p) h pc
    FinishedLater p t h pc ∧ t.core.g = p.core.g ∧ t.core.bank = p.core.bank ∧ t.core.leaseQueue = p.core.leaseQueue ++ [q] := by
  have hcore {β : Type} := core_of_onlyWalked (β := β) (h := finishLater_onlyWalked (commandQueued q p) h pc)
  exact ⟨finishedLater_of_walkOf (p := p) (q := commandQueued q p) rfl rfl h pc, hcore Core.g (fun _ _ _ _ _ _ _ => rfl),
    hcore Core.bank (fun _ _ _ _ _ _ _ => rfl), hcore Core.leaseQueue (fun _ _ _ _ _ _ _ => rfl)⟩

section
variable {h : Hdr} {a : Reg} {o : Src2} {s p : State} (howed : s.core.leaseOwed = []) (hi : Issues s h (.g a.toNat :: src2Locs o) p) (op : LeaseOp)
include howed hi

theorem leaseForm_raises (he : h.eng = .c) (hclosed : p.core.leaseOpen = false) : leaseForm op h a o s = .next (leaseTrap 1 s) := by
  refine (issueLease_of_issues howed hi).trans (congrArg _ ?_)
  simp only [hclosed, Bool.not_false, if_true, finish_leaseFault he]

/-- A command that is well formed and finds room joins the queue with what it reads at issue. -/
theorem leaseForm_queues (hopen : p.core.leaseOpen = true) (hword : wordOk (readG p .c a.toNat) (src2Z p .c o).toNat = true)
    (hfmt : fmtOk p .c (currentFmt p .c) = true) (hroom : p.core.leaseQueue.length < 16) :
    ∃ q, leaseForm op h a o s = .next (finishLater (commandQueued q p) h (nextPc s h (src2Len o))) ∧ q.op = op ∧ q.word = readG p .c a.toNat ∧
      q.k = (src2Z p .c o).toNat ∧ q.fmt = currentFmt p .c ∧ q.tag = p.core.engC.walk ∧ q.push = h.push ∧ q.groups = 0 := by
  have hexec : leaseForm op h a o s = .next (finish s h (nextPc s h (src2Len o)) _) := issueLease_of_issues howed hi
  simp only [hopen, hword, hfmt, Nat.not_le.2 hroom, Bool.not_true, Bool.false_eq_true, if_false] at hexec
  exact ⟨_, hexec, rfl, rfl, rfl, rfl, rfl, rfl, rfl⟩

end

/-- The nine array commands, each with the operation that it queues. -/
def arrayCommands (h : Hdr) (a : Reg) (o : Src2) : List (Instr × LeaseOp) :=
  [(.lmm h a o, .lmm), (.lmmA h a o, .lmmA), (.lmmg h a o, .lmmg), (.lmmgA h a o, .lmmgA), (.lscore h a o, .lscore),
    (.lscoreCm h a o, .lscoreCm), (.lscoreTm h a o, .lscoreTm), (.lpv h a o, .lpv), (.lpvA h a o, .lpvA)]

theorem exec_arrayCommand (h : Hdr) (a : Reg) (o : Src2) (s : State) : ∀ r ∈ arrayCommands h a o, exec r.1 s = leaseForm r.2 h a o s := by
  simp only [arrayCommands, List.forall_mem_cons]
  exact ⟨rfl, rfl, rfl, rfl, rfl, rfl, rfl, rfl, rfl, List.forall_mem_nil _⟩

/-! ### LDRAIN (R302) -/

/-- The results of an LDRAIN of `n` registers from `d` on, bank tiles from `w % 64` on. -/
def bankLandings (h : Hdr) (p : State) (t : Ty) (d w n : Nat) : List Landing :=
  (List.range n).map (fun k => bankLanding h p t ((w % 64 + k) % 64) ((d + k) % 32) k n)

/-- The state in which these results are on their way. -/
def bankDrained (h : Hdr) (p : State) (t : Ty) (d w n : Nat) : State :=
  modCore p (fun c => { c with landing := c.landing ++ bankLandings h p t d w n })

theorem ldrain_sends {h : Hdr} {d : Reg} {t : Ty} {o : Src2} {s p : State} (howed : s.core.leaseOwed = []) (hi : Issues s h (src2Locs o) p)
    (hidle : p.core.leaseQueue = []) (hclean : p.core.bankPoison = []) : exec (.ldrain h d t o) s = .next
      (finishLater (bankDrained h p t d.toNat (src2Z p .c o).toNat ((src2Z p .c o).toNat / 64 % 8 + 1)) h (nextPc s h (src2Len o))) := by
  refine (issueLease_of_issues howed hi).trans (congrArg _ ?_)
  have htiles (ks : List Nat) (f : Nat → Nat) : ks.any (fun k => tilePoison p.core (f k)) = false := by simp [tilePoison, rangePoison, hclean]
  simp only [hidle, htiles, List.isEmpty_nil, Bool.not_true, Bool.false_eq_true, if_false, finish_later, WeightCommands.landing_addLandings]
  rfl

theorem act_bankLanding (h : Hdr) (p : State) (t : Ty) (tile reg k n : Nat) : (bankLanding h p t tile reg k n).act =
    .write ((List.range 16).flatMap (fun i => (rangeOf p.core.bank (256 * (16 * (tile / 4) + i) + 64 * (tile % 4)) 64).zipIdx.map (fun x =>
      ({ loc := .cell (cellNo reg i x.2), val := BitVec.ofNat 64 (convert t .f32 h.rm (readSys p .c sysOVT) x.1.toNat).bits } : Late)))) := by
  simp only [bankLanding, List.map_flatMap, List.map_map]
  rfl

theorem flatMap_zipIdx_fst {α β : Type} (f : α → List β) (l : List α) : l.zipIdx.flatMap (fun x => f x.1) = l.flatMap f := by
  rw [← List.flatMap_map, List.zipIdx_map_fst]

theorem counts_bankLanding (h : Hdr) (p : State) (t : Ty) (tile reg k n : Nat) : (bankLanding h p t tile reg k n).counts =
    (List.range 16).flatMap (fun i => (rangeOf p.core.bank (256 * (16 * (tile / 4) + i) + 64 * (tile % 4)) 64).flatMap (fun x =>
      fecOf (groupOf t) (convert t .f32 h.rm (readSys p .c sysOVT) x.toNat).kind)) := by
  have hfst (l : List Cell) : l.zipIdx.flatMap (fun x => fecOf (groupOf t) (convert t .f32 h.rm (readSys p .c sysOVT) x.1.toNat).kind) =
      l.flatMap (fun x => fecOf (groupOf t) (convert t .f32 h.rm (readSys p .c sysOVT) x.toNat).kind) :=
    flatMap_zipIdx_fst (fun x : Cell => fecOf (groupOf t) (convert t .f32 h.rm (readSys p .c sysOVT) x.toNat).kind) l
  simp only [bankLanding, List.flatMap_assoc, List.flatMap_map, hfst]

theorem bankDrained_finishes (h : Hdr) (p : State) (t : Ty) (d w n pc : Nat) :
    let q := finishLater (bankDrained h p t d w n) h pc
    FinishedLater p q h pc ∧ q.core.cells = p.core.cells ∧ q.core.landing = p.core.landing ++ bankLandings h p t d w n := by
  have hcore {β : Type} := core_of_onlyWalked (β := β) (h := finishLater_onlyWalked (bankDrained h p t d w n) h pc)
  exact ⟨finishedLater_of_walkOf (p := p) (q := bankDrained h p t d w n) rfl rfl h pc, hcore Core.cells (fun _ _ _ _ _ _ _ => rfl),
    hcore Core.landing (fun _ _ _ _ _ _ _ => rfl)⟩

theorem length_bankLandings (h : Hdr) (p : State) (t : Ty) (d w n : Nat) : (bankLandings h p t d w n).length = n := by simp [bankLandings]

theorem eq_bankLanding_of_getElem? {h : Hdr} {p : State} {t : Ty} {d w n k : Nat} {l : Landing} (hl : (bankLandings h p t d w n)[k]? = some l) :
    l = bankLanding h p t ((w % 64 + k) % 64) ((d + k) % 32) k n := by
  obtain ⟨hk, rfl⟩ := List.getElem?_eq_some_iff.1 hl
  simp [bankLandings]

theorem leaseCommandsQueue : LeaseCommandsQueue := by
  intro h a d t o s p he howed w
  refine ⟨fun hi => ?lcfg, fun hi r hr => ⟨fun hclosed => ?closed, fun hopen hword hfmt hroom => ?queues⟩, fun hi hidle hclean => ?ldrain⟩
  case lcfg =>
    intro ws hmost hslot
    obtain ⟨⟨hwalk, htok, hmem⟩, hsys⟩ := slot_finishes a p (sysLCS + 4 * (w % 16)) h (nextPc s h (src2Len o))
    exact ⟨_, lcfg_writes howed hi rfl hmost hslot, hwalk, htok, hmem, hsys⟩
  case closed => exact (exec_arrayCommand h a o s r hr).trans (leaseForm_raises howed hi r.2 he hclosed)
  case queues =>
    obtain ⟨q, hexec, hparts⟩ := leaseForm_queues howed hi r.2 hopen hword hfmt hroom
    obtain ⟨⟨hwalk, htok, hmem⟩, hg, hbank, hqueue⟩ := commandQueued_finishes q p h (nextPc s h (src2Len o))
    exact ⟨_, (exec_arrayCommand h a o s r hr).trans hexec, hwalk, htok, hmem, hg, hbank, q, hqueue, hparts⟩
  case ldrain =>
    intro n
    obtain ⟨⟨hwalk, htok, hmem⟩, hcells, hland⟩ := bankDrained_finishes h p t d.toNat w n (nextPc s h (src2Len o))
    refine ⟨_, ldrain_sends howed hi hidle hclean, hwalk, htok, hcells, hmem, _, hland, length_bankLandings .., fun k l hl => ?_⟩
    rw [eq_bankLanding_of_getElem? hl]
    exact ⟨rfl, by simp [bankLanding], act_bankLanding .., counts_bankLanding ..⟩

end Sys2Proof.Laws.LeaseInstructions

namespace Sys2Proof

open Sys2Proof.Machine Sys2Proof.Laws.LeaseInstructions

/-- Settles O33: each instruction that issues ends in one state, whose session, queue, registers and results in flight are read off. -/
theorem leaseInstructions : Obligations.LeaseInstructions := ⟨sessionsOpenAndClose, leaseCommandsQueue⟩

/-- Settles O60: of LACQ.t the session alone is looked at, so its register need not be free; the rest is what O33 says of each state. -/
theorem leaseFormsComplete : Obligations.LeaseFormsComplete := by
  intro h a d ty o s p he howed w past
  have hpast {t : State} {ck pc : Nat} : WalkedTo p t h ck pc → t.core.engC.pc = pc := engC_pc_of_walkedTo he
  refine ⟨fun hi hclosed => ⟨fun hheld => ⟨?lacq, ?held⟩, fun hnone hfirst hfits => ?atOnce, fun hnone hno => ?refused⟩, fun hi hopen => ?lrel,
    fun hi hmost hclean => ?lcfg, fun hi hopen hword hfmt hroom => ?queues, fun hi hidle hclean => ?ldrain⟩
  case lacq =>
    obtain ⟨⟨hwalk, -⟩, hopen, hclass, -⟩ := openSession_finishes p (w % 4) h past
    exact ⟨_, lacq_opens howed hi hclosed rfl hheld, hopen, hclass, hpast hwalk⟩
  case held =>
    obtain ⟨⟨hwalk, -⟩, hopen, hclass⟩ := answer_finishes (p := p) (q := openSession p (w % 4)) rfl rfl d.toNat 1 h past
    exact ⟨_, lacqT_opens howed hi hclosed rfl hheld, hopen, hclass, hpast hwalk⟩
  case atOnce =>
    obtain ⟨⟨hwalk, -⟩, hopen, hclass⟩ :=
      answer_finishes (p := p) (q := openSession { p with leaves := p.leaves ++ [(p.cur, w % 4)] } (w % 4)) rfl rfl d.toNat 1 h past
    exact ⟨_, lacqT_opens_atOnce howed hi hclosed rfl hnone hfirst hfits, hopen, hclass, hpast hwalk⟩
  case refused =>
    obtain ⟨⟨hwalk, -⟩, hopen, -⟩ := answer_finishes (p := p) rfl rfl d.toNat 0 h past
    exact ⟨_, lacqT_refused howed hi hclosed rfl hnone hno, hopen.trans hclosed, hpast hwalk⟩
  case lrel =>
    by_cases hqueue : p.core.leaseQueue = []
    · obtain ⟨⟨hwalk, -⟩, hclosed, hsame, -⟩ := sessionClosed_finishes p h (nextPc s h 2)
      exact ⟨_, lrel_closes howed hi hopen hqueue, hclosed, hsame, hpast hwalk⟩
    · obtain ⟨⟨hwalk, -⟩, hclosed, hsame⟩ := sessionClosing_finishes p h (nextPc s h 2)
      exact ⟨_, lrel_closes_later howed hi hopen hqueue, hclosed, hsame, hpast hwalk⟩
  case lcfg =>
    obtain ⟨⟨hwalk, -⟩, hsys⟩ := slot_finishes a p (sysLCS + 4 * (w % 16)) h past
    refine ⟨_, lcfg_writes howed hi rfl hmost hclean, hpast hwalk, fun i hi => ?_⟩
    rw [hsys, if_pos (by omega), Nat.add_sub_cancel_left]
  case queues =>
    intro Queued
    have hqueued (op : LeaseOp) : ∃ t, leaseForm op h a o s = .next t ∧ Queued op t := by
      obtain ⟨q, hexec, hop, hw, hk, -⟩ := leaseForm_queues howed hi op hopen hword hfmt hroom
      obtain ⟨⟨hwalk, -⟩, -, -, hqueue⟩ := commandQueued_finishes q p h past
      exact ⟨_, hexec, hpast hwalk, q, hqueue, hop, hw, hk⟩
    exact ⟨hqueued .lmm, hqueued .lmmA, hqueued .lmmg, hqueued .lmmgA, hqueued .lscore,
      hqueued .lscoreCm, hqueued .lscoreTm, hqueued .lpv, hqueued .lpvA⟩
  case ldrain =>
    obtain ⟨⟨hwalk, -⟩, -, hland⟩ := bankDrained_finishes h p ty d.toNat w (w / 64 % 8 + 1) past
    exact ⟨_, ldrain_sends howed hi hidle hclean, hpast hwalk, by rw [hland, List.length_append, length_bankLandings, Nat.add_assoc]⟩

end Sys2Proof
end

section
/-!
PROOFS. The lease arrays run the commands of the cores that hold them (R284, R285, R287, R288, R300, R301), and power is granted within the
budget (R455, R456): settles O42.
-/
namespace Sys2Proof.Laws.LeaseArrays

open Sys2Proof.Machine

@[simp] theorem arrayOf_setArray (s : State) (x : Array) : arrayOf (setArray s x) = x := by
  simp [arrayOf, setArray]

/-! ### The die and the stacks alone -/

/-- Between `p` and `q` nothing has changed but the dies and the tags of the stacks. -/
def OnlyUnits (p q : State) : Prop := q = { p with dies := q.dies, dramStacks := q.dramStacks }

namespace OnlyUnits

theorem trans {p q t : State} (h : OnlyUnits p q) (h' : OnlyUnits q t) : OnlyUnits p t := by
  unfold OnlyUnits at *
  conv_lhs => rw [h']
  rw [h]

theorem foldl {α : Type} {f : State → α → State} (h : ∀ s x, OnlyUnits s (f s x)) (l : List α) (s : State) : OnlyUnits s (l.foldl f s) :=
  foldl_keeps (P := OnlyUnits s) (fun t x ht => ht.trans (h t x)) l rfl

/-- What reads neither is the same. -/
theorem keeps {β : Type} {p q : State} (h : OnlyUnits p q) (g : State → β)
    (hg : ∀ (s : State) (dies : Sparse Die) (tags : Sparse Stack), g { s with dies := dies, dramStacks := tags } = g s) : g q = g p :=
  (congrArg g h).trans (hg ..)

theorem core {p q : State} (h : OnlyUnits p q) : q.core = p.core := h.keeps State.core (fun _ _ _ => rfl)

theorem sameMemory {p q : State} (h : OnlyUnits p q) : SameMemory p q := memByte_of_mem (h.keeps State.mem (fun _ _ _ => rfl))

end OnlyUnits

theorem promoWrite_onlyUnits (s : State) (pa m : Nat) : OnlyUnits s (promoWrite s pa m) := by
  unfold promoWrite
  split <;> rfl

/-- A line beneath which nothing has gone bad leaves its slice for its row, or for nothing. -/
theorem leaveSlice_onlyUnits (s : State) {v : L2Line} (h : v.under = []) : OnlyUnits s (leaveSlice s v) := by
  unfold leaveSlice
  rw [h]
  split
  · exact promoWrite_onlyUnits ..
  · rfl

theorem unpinLines_onlyUnits (ls : List Nat) (s : State) : OnlyUnits s (ls.foldl unpinLine s) := OnlyUnits.foldl (f := unpinLine) (fun _ _ => rfl) ls s

/-! ### The end of a run (R287) -/

theorem endRun_onlyUnits (s : State) : OnlyUnits s (endRun s) := by
  have hset (t : State) (x : Array) : OnlyUnits t (setArray t x) := rfl
  exact (unpinLines_onlyUnits _ s).trans (hset _ _)

@[simp] theorem arrayOf_endRun (s : State) : arrayOf (endRun s) =
    { arrayOf s with holder := none, last := (arrayOf s).holder.getD (arrayOf s).last, grantFrom := s.clk + 2, active := false, pinned := [] } :=
  arrayOf_setArray ..

/-! ### The grant of a run (R287) -/

/-- Of the eight cores in turn after `last`, `k` is the first that `serves` names. -/
theorem find?_inTurn {serves : Nat → Bool} {last k : Nat} (hlast : last < 8) (hk : k < 8) (hserved : serves k = true)
    (hfirst : ∀ j, j < (k + 7 - last) % 8 → serves ((last + 1 + j) % 8) = false) :
    ((List.range 8).map (fun i => (last + 1 + i) % 8)).find? serves = some k := by
  have hturn : (last + 1 + (k + 7 - last) % 8) % 8 = k := by omega
  have hfind : (List.range 8).find? (serves ∘ fun i => (last + 1 + i) % 8) = some ((k + 7 - last) % 8) := by
    rw [List.find?_range_eq_some]
    exact ⟨by simp [hturn, hserved], by rw [List.mem_range]; omega, fun j hj => by simp [hfirst j hj]⟩
  rw [List.find?_map, hfind, Option.map_some, hturn]

theorem runGrant_serves {s : State} {k : Nat} (hidle : (arrayOf s).holder = none) (hfrom : (arrayOf s).grantFrom ≤ s.clk) (hk : k < 8)
    (hserve : mayServe s (clusterCore s k) = true)
    (hfirst : ∀ j, j < (k + 7 - (arrayOf s).last) % 8 → mayServe s (clusterCore s (((arrayOf s).last + 1 + j) % 8)) = false)
    (hlast : (arrayOf s).last < 8) : exec .evRunGrant s = .next (setArray s { arrayOf s with
      holder := some k, started := 0, since := s.clk, busyUntil := s.clk, active := false, pinned := [] }) := by
  have hexec : exec .evRunGrant s = execEvRunGrant s := rfl
  have hfind := find?_inTurn (serves := fun k => mayServe s (clusterCore s k)) hlast hk hserve hfirst
  rw [hexec]
  unfold execEvRunGrant
  simp [hidle, Nat.not_lt.2 hfrom, hfind]

/-! ### What the fetch of a line leaves (R120, R299) -/

/-- What a step of the tile fetch leaves as it is: memory with its moment, what the check bits are about to find, and of the core its
registers, its bank and its lease queue. -/
def kept (s : State) : (Sparse Byte × Nat × Option (Nat × DramErr)) × File Word × Sparse Cell × List LeaseCmd :=
  ((s.mem, s.now, s.found), s.core.g, s.core.bank, s.core.leaseQueue)

/-- The lines that the home slices hold. -/
def linesHeld (s : State) : Nat → List L2Line := fun pa => (sliceOf s pa).lines

/-- What a walk for the tile fetch leaves as it is. -/
def keptWithLines (s : State) : ((Sparse Byte × Nat × Option (Nat × DramErr)) × File Word × Sparse Cell × List LeaseCmd) × (Nat → List L2Line) :=
  (kept s, linesHeld s)

theorem kept_of_onlyUnits {p q : State} (h : OnlyUnits p q) : kept q = kept p := h.keeps kept (fun _ _ _ => rfl)

theorem linesHeld_modDie (s : State) (d : Nat) {f : Die → Die} (hf : (f (dieAt s d)).slices = (dieAt s d).slices) :
    linesHeld (modDie s d f) = linesHeld s := by
  funext pa
  unfold linesHeld sliceOf
  rw [dieAt_modDie]
  split
  next hd => rw [hf, hd]
  · rfl

theorem linesHeld_modSlice (s : State) (pa : Nat) {f : Slice → Slice} (hf : ∀ x, (f x).lines = x.lines) : linesHeld (modSlice s pa f) = linesHeld s := by
  funext pb
  unfold linesHeld sliceOf modSlice
  rw [dieAt_modDie]
  split
  next hd =>
    rw [hd]
    by_cases hs : homeSlice pb = homeSlice pa
    · simp [hs, hf]
    · simp [look_place, hs]
  · rfl

/-- What a step of a walk does to a core: nothing to its registers, its bank and its queue. -/
theorem keptWithLines_modCoreAt (s : State) (k : Nat) {f : Core → Core}
    (hf : ∀ c, (f c).g = c.g ∧ (f c).bank = c.bank ∧ (f c).leaseQueue = c.leaseQueue) : keptWithLines (modCoreAt s k f) = keptWithLines s := by
  unfold modCoreAt
  split
  · obtain ⟨hg, hbank, hqueue⟩ := hf s.core
    simp only [keptWithLines, kept, hg, hbank, hqueue]
    rfl
  · rfl

theorem keptWithLines_modDie (s : State) (d : Nat) {f : Die → Die} (hf : (f (dieAt s d)).slices = (dieAt s d).slices) :
    keptWithLines (modDie s d f) = keptWithLines s := Prod.ext rfl (linesHeld_modDie s d hf)

theorem found_of_keptWithLines {s t : State} (h : keptWithLines t = keptWithLines s) : t.found = s.found :=
  congrArg (fun x => x.1.1.2.2) h

theorem linesHeld_of_keptWithLines {s t : State} (h : keptWithLines t = keptWithLines s) : linesHeld t = linesHeld s := congrArg Prod.snd h

theorem keptWithLines_askSlice {s : State} (hf : s.found = none) (who pa policy : Nat) : keptWithLines (askSlice s who pa policy false) = keptWithLines s := by
  unfold askSlice
  split
  · rfl
  · simp only [Bool.false_eq_true, if_false, Crossings.checkBits_none hf]
    exact Prod.ext rfl (linesHeld_modSlice s pa (fun _ => rfl))

theorem keptWithLines_readWords {s : State} (hf : s.found = none) (d : Nat) (root : Word) (v : Nat) (asks : List WalkAsk) :
    keptWithLines (readWords s d root v asks) = keptWithLines s := by
  unfold readWords
  refine foldl_keeps (P := fun t => keptWithLines t = keptWithLines s) (fun t a ht => ?_) _ rfl
  exact (keptWithLines_askSlice ((found_of_keptWithLines ht).trans hf) _ a 1).trans ht

theorem keptWithLines_failWalk (granule cause : Nat) (s : State) (a : WalkAsk) : keptWithLines (failWalk granule cause s a) = keptWithLines s := by
  unfold failWalk
  dsimp only
  split
  · exact keptWithLines_modCoreAt s a.who (fun _ => ⟨rfl, rfl, rfl⟩)
  · exact keptWithLines_modDie s _ rfl

theorem keptWithLines_walkResult (granule : Nat) (r : Except Nat TlbEntry) (s : State) (a : WalkAsk) :
    keptWithLines (walkResult granule r s a) = keptWithLines s := by
  unfold walkResult
  split
  · split
    · exact keptWithLines_modCoreAt s a.who (fun _ => ⟨rfl, rfl, rfl⟩)
    · exact keptWithLines_modDie s _ rfl
  · exact keptWithLines_failWalk ..
  · rfl

theorem keptWithLines_endWalk (s : State) (d : Nat) (root : Word) (v : Nat) (more : List WalkAsk) :
    keptWithLines (endWalk s d root v more).1 = keptWithLines s := by
  unfold endWalk
  refine (foldl_same (g := keptWithLines) (keptWithLines_walkResult _ _) _ _).trans (keptWithLines_modDie s d ?_)
  split <;> rfl

/-- A unit of the core translates an address: where no error is about to be found, it leaves memory and the lines of the L2 as they are. -/
theorem keptWithLines_translateNow {s : State} (hf : s.found = none) (root : Word) (v : Nat) (want : Want) (priv : Bool) :
    keptWithLines (translateNow s root none v want priv).1 = keptWithLines s := by
  have htouch (t : State) (e : TlbEntry) : keptWithLines (touchTlb t e) = keptWithLines t := rfl
  have hread (d : Nat) (asks : List WalkAsk) := keptWithLines_readWords hf d root v asks
  have hend {t u : State} {d : Nat} {asks : List WalkAsk} {r : Except Nat TlbEntry} (h : endWalk t d root v asks = (u, r)) :
      keptWithLines u = keptWithLines t := (congrArg (fun x => keptWithLines x.1) h).symm.trans (keptWithLines_endWalk ..)
  unfold translateNow
  dsimp only
  split
  · rfl
  split
  · exact htouch ..
  split
  · rfl
  split
  · rfl
  split
  · exact hread ..
  split
  next h => exact (hend h).trans (hread ..)
  next h =>
    split
    · exact (htouch ..).trans ((hend h).trans (hread ..))
    · exact (hend h).trans (hread ..)

theorem corePage_fst (s : State) (level : Bool) (v n : Nat) (want : Want) :
    (corePage s level v n want).1 = (translateNow s (sysNow s.core sysPTB) none v want level).1 := by
  unfold corePage
  split
  · simp [*]
  · simp [*]
  · split
    · simp [*]
    · split <;> simp [*]
    · simp [*]

theorem keptWithLines_renewLines (s : State) (clock pa n : Nat) : keptWithLines (renewLines s clock pa n) = keptWithLines s := by
  unfold renewLines
  refine foldl_same (fun s l => ?_) _ _
  rfl

/-- A line is pinned whose set holds none beneath which something has gone bad. -/
theorem pinLine_onlyUnits {s : State} {line : Nat} (h : ∀ v ∈ linesHeld s (128 * line), v.under = []) (noAlloc : Bool) :
    OnlyUnits s (pinLine s line noAlloc) := by
  have hslice (f : Slice → Slice) : OnlyUnits s (modSlice s (128 * line) f) := rfl
  unfold pinLine
  dsimp only
  split
  · exact hslice _
  · split
    next v hv =>
      refine (hslice _).trans (leaveSlice_onlyUnits _ (h v ?_))
      split at hv
      · exact absurd hv (by simp)
      · exact List.mem_of_mem_filter (List.mem_of_mem_filter (List.mem_of_getLast? hv))
    · exact hslice _

/-- The state in which the tile fetch finds line `l`: its address translated, and a line of an O page loaded (R342, R343). -/
def lineReached (s : State) (q : LeaseCmd) (l : TileLine) : State :=
  let s := (corePage s q.level l.v 1 { r := true }).1
  if l.ord then modCore (renewLines s s.core.clock (128 * l.line) 128) (fun c => { c with clock := Nat.max c.clock (look (0, 0) s.oLines l.line).1 }) else s

theorem keptWithLines_lineReached {s : State} (hf : s.found = none) (q : LeaseCmd) (l : TileLine) : keptWithLines (lineReached s q l) = keptWithLines s := by
  have hpage : keptWithLines (corePage s q.level l.v 1 { r := true }).1 = keptWithLines s := by
    rw [corePage_fst]
    exact keptWithLines_translateNow hf ..
  have hclock (t : State) (f : Core → Nat) : keptWithLines (modCore t (fun c => { c with clock := f c })) = keptWithLines t := rfl
  unfold lineReached
  dsimp only
  split
  · exact (hclock _ _).trans ((keptWithLines_renewLines ..).trans hpage)
  · exact hpage

theorem fetchLine_of_checked {s : State} {q : LeaseCmd} {l : TileLine} (h : checkBits (lineReached s q l) (128 * l.line) = none) :
    fetchLine s q l = pinLine (lineReached s q l) l.line l.noAlloc := by
  unfold lineReached at *
  unfold fetchLine
  dsimp only at *
  rw [h]
  rfl

/-- Where no error is about to be found, a line that is fetched leaves memory as it is. -/
theorem kept_fetchLine {s : State} (hf : s.found = none) (q : LeaseCmd) {l : TileLine} (h : ∀ v ∈ linesHeld s (128 * l.line), v.under = []) :
    kept (fetchLine s q l) = kept s := by
  have hreached := keptWithLines_lineReached hf q l
  rw [fetchLine_of_checked (Crossings.checkBits_none ((found_of_keptWithLines hreached).trans hf) _)]
  rw [← linesHeld_of_keptWithLines hreached] at h
  exact (kept_of_onlyUnits (pinLine_onlyUnits h _)).trans (congrArg Prod.fst hreached)

/-! ### The pins of a run (R124) -/

theorem releasePins_onlyUnits (s : State) (x : Array) (q : LeaseCmd) (qs : List LeaseCmd) : OnlyUnits s (releasePins s x q qs).1 := by
  unfold releasePins
  split
  · rfl
  · exact unpinLines_onlyUnits ..

theorem releasePins_spent (s : State) (x : Array) (q : LeaseCmd) (qs : List LeaseCmd) : (releasePins s x q qs).2.spent = x.spent := by
  unfold releasePins
  split <;> rfl

/-! ### The clk of a group (R288, R300) -/

/-- Busy clk are over after as many clk at least, as far as the fuel goes. -/
theorem le_busyEnd (share fuel n t : Nat) (spent : Nat × Nat) : t + min n fuel ≤ (busyEnd share fuel n t spent).1 := by
  induction fuel generalizing n t spent with
  | zero => simp [busyEnd]
  | succ fuel ih =>
    simp only [busyEnd]
    generalize (if spent.1 = t / 1024 then spent.2 else 0) = used
    have hroom : Nat.min (share - used) (1024 * (t / 1024 + 1) - t) ≤ 1024 * (t / 1024 + 1) - t := Nat.min_le_right ..
    generalize Nat.min (share - used) (1024 * (t / 1024 + 1) - t) = room at hroom
    split
    · dsimp only
      omega
    · have hnext := ih (n - room) (1024 * (t / 1024 + 1)) (t / 1024, used + room)
      omega

/-- Where the class leaves room for them in a window of which nothing is used, the clk are over after exactly as many. -/
theorem busyEnd_of_room {share n t : Nat} {spent : Nat × Nat} (hnew : spent.1 ≠ t / 1024) (hwindow : t % 1024 + n ≤ 1024) (hshare : n ≤ share) :
    (busyEnd share n n t spent).1 = t + n := by
  cases n with
  | zero => rfl
  | succ n =>
    have hroom : n + 1 ≤ Nat.min (share - 0) (1024 * (t / 1024 + 1) - t) := Nat.le_min.2 ⟨by omega, by omega⟩
    simp only [busyEnd, if_neg hnew, if_pos hroom]

/-! ### The events of a run -/

section
variable {s p : State} {k : Nat} {q : LeaseCmd} {qs : List LeaseCmd} (hholder : (arrayOf s).holder = some k) (hp : focus s (clusterCore s k) = p)
  (hqueue : p.core.leaseQueue = q :: qs)
include hholder hp hqueue

theorem tileLine_arrives {p1 : State} {y : Array} {l : TileLine} (hpins : releasePins p (arrayOf s) q qs = (p1, y))
    (hfind : ((headLines p1 q).flatten ++ (laterLines p1 y qs).flatten).find? (fun l => !hasKey y.pinned l.line) = some l)
    (hroom : pinRoom p1 y l.line = true) (hfree : sliceBusy p1 (128 * l.line) = false) : exec .evTileLineArrival s =
      .next (setArray (fetchLine p1 q l) { y with pinned := setKey y.pinned l.line (fetchLine p1 q l).now }) := by
  have hexec : exec .evTileLineArrival s = execEvTileLineArrival s := rfl
  rw [hexec]
  unfold execEvTileLineArrival
  simp only [hholder, hp, hqueue, hpins, hfind, hroom, hfree, Bool.not_false, Bool.and_self, if_true]

theorem groupStart_runs {p1 : State} (hbusy : (arrayOf s).busyUntil ≤ s.clk) (hlimit : s.clk < (arrayOf s).since + 65536) (hleft : q.groups < q.k / 32)
    (hpinned : allPinned (arrayOf s) (groupLines p q q.groups) = true) (hgood : q.id ∉ p.core.badCmds) (hrun : runGroup p q = .done p1) :
    let r := releasePins p1 (arrayOf s) q qs
    let b := busyEnd (busyShare q.cls) (groupClk q) (groupClk q) s.clk (look (0, 0) (arrayOf s).spent k)
    exec .evGroupStart s = .next (setArray (modCore r.1 (fun c => { c with leaseQueue := { q with groups := q.groups + 1 } :: qs })) { r.2 with
      busyUntil := b.1 + (if q.groups + 1 = q.k / 32 then closingClk q else 0), spent := place (0, 0) (arrayOf s).spent k b.2, active := true
      started := if r.2.active then r.2.started else r.2.started + 1 }) := by
  intro r b
  have hexec : exec .evGroupStart s = execEvGroupStart s := rfl
  have hclk : p.clk = s.clk := hp ▸ Rows.focus_clk ..
  have hcontains : p.core.badCmds.contains q.id = false := by simpa using hgood
  rw [hexec]
  unfold execEvGroupStart
  simp only [hholder, hp, hqueue, hclk, Nat.not_lt.2 hbusy, Nat.not_le.2 hlimit, runLimit, Nat.not_le.2 hleft, hcontains, hpinned, hrun, decide_false,
    Bool.or_self, Bool.false_eq_true, if_false, Bool.not_true, releasePins_spent, beq_iff_eq, r, b]

theorem runLimit_ends (hlimit : (arrayOf s).since + 65536 ≤ s.clk) (hbusy : (arrayOf s).busyUntil ≤ s.clk) (hleft : q.groups < q.k / 32) :
    exec .evRunLimit s = .next (endRun s) := by
  have hexec : exec .evRunLimit s = execEvRunLimit s := rfl
  have hcore : (coreAt s (clusterCore s k)).leaseQueue = q :: qs := by rw [← focus_core, hp, hqueue]
  have hgroups : (q.groups == q.k / 32) = false := beq_eq_false_iff_ne.2 (Nat.ne_of_lt hleft)
  rw [hexec]
  unfold execEvRunLimit
  simp only [hholder, hcore, runLimit, Nat.not_lt.2 hlimit, Nat.not_lt.2 hbusy, hgroups, decide_false, Bool.and_false, Bool.or_self, Bool.false_eq_true,
    if_false]

/-- The state in which the head command has left the queue, its tokens pushed. -/
def headDone (q : LeaseCmd) (qs : List LeaseCmd) (p : State) : State :=
  settleLrels (modCore p (fun c => leaseTokens p.clk q none { c with leaseQueue := qs }))

theorem leaseCommand_completes (hdone : q.k / 32 ≤ q.groups) (hbusy : (arrayOf s).busyUntil ≤ s.clk) : exec .evLeaseCommandComplete s = .next
    (if qs = [] ∨ 16 ≤ (arrayOf s).started ∨ (arrayOf s).since + 65536 ≤ s.clk then endRun (headDone q qs p)
      else setArray (headDone q qs p) { arrayOf s with active := false }) := by
  have hexec : exec .evLeaseCommandComplete s = execEvLeaseCommandComplete s := rfl
  have hclk : p.clk = s.clk := hp ▸ Rows.focus_clk ..
  rw [hexec]
  unfold execEvLeaseCommandComplete
  simp only [hholder, hp, hqueue, hclk, runLimit, Nat.not_lt.2 hdone, Nat.not_lt.2 hbusy, headDone, decide_false, Bool.or_self, Bool.false_eq_true, if_false,
    List.isEmpty_iff, Bool.or_eq_true, decide_eq_true_eq, or_assoc]
  split <;> rfl

end

theorem settleLrels_of_none {s : State} (h : s.core.lrels = []) : settleLrels s = modCore s (fun c => { c with lrels := [] }) := by
  simp only [settleLrels, modCore, h, List.filter_nil, List.foldl_nil]

/-- Where no LREL waits for the command, its end changes nothing but its core's queue and tokens. -/
theorem headDone_parts {p : State} (h : p.core.lrels = []) (q : LeaseCmd) (qs : List LeaseCmd) :
    (headDone q qs p).core.leaseQueue = qs ∧ (headDone q qs p).core.bank = p.core.bank ∧ SameMemory p (headDone q qs p) := by
  have htokens := Stream.pushCommand_eq { p.core with leaseQueue := qs } .c q.push q.id { src := 0, seq := q.seq, cmd := some q.id, clk := p.clk }
  have hlrels : (leaseTokens p.clk q none { p.core with leaseQueue := qs }).lrels = [] := by
    rw [leaseTokens, htokens]
    exact h
  rw [headDone, settleLrels_of_none hlrels, modCore_core, modCore_core, leaseTokens, htokens]
  exact ⟨rfl, rfl, fun _ => rfl⟩

theorem arraysRunCommands : ArraysRunCommands := by
  intro s x
  refine ⟨fun hidle hfrom k hk hserve hfirst hlast => ?grant, fun k q qs hholder => ?run⟩
  case' run =>
    intro p hqueue
    refine ⟨?line, ?group, ?limit, ?complete⟩
  case grant => exact ⟨_, runGrant_serves hidle hfrom hk hserve hfirst hlast, ⟨fun _ => rfl, rfl, rfl, rfl⟩, by simp, by simp, by simp⟩
  case line =>
    intro p1 y l hpins hf hunder hfree hfind hroom
    have hunits : OnlyUnits p p1 := by simpa only [hpins] using releasePins_onlyUnits p x q qs
    have hkept : kept (fetchLine p1 q l) = kept p := (kept_fetchLine hf q hunder).trans (kept_of_onlyUnits hunits)
    simp only [kept, Prod.mk.injEq] at hkept
    obtain ⟨⟨hmem, hnow, -⟩, hg, hbank, hcmds⟩ := hkept
    exact ⟨_, tileLine_arrives hholder rfl hqueue hpins hfind hroom hfree, ⟨_, hnow.ge, by rw [arrayOf_setArray]⟩, hg, hbank, hcmds,
      memByte_of_mem hmem⟩
  case group =>
    intro p1 hbusy hlimit hleft hpinned hgood n hrun
    have hunits := releasePins_onlyUnits p1 x q qs
    have hbank : (releasePins p1 x q qs).1.core.bank = p1.core.bank := congrArg Core.bank hunits.core
    refine ⟨_, groupStart_runs hholder rfl hqueue hbusy hlimit hleft hpinned hgood hrun, hunits.sameMemory, hbank, rfl, ?_, ?_⟩
    · rw [arrayOf_setArray]
      have hend := le_busyEnd (busyShare q.cls) (groupClk q) (groupClk q) s.clk (look (0, 0) x.spent k)
      rw [Nat.min_self] at hend
      exact (Nat.add_assoc ..).symm.trans_le (Nat.add_le_add_right hend _)
    · intro hnew hwindow hshare
      rw [arrayOf_setArray]
      dsimp only [n]
      rw [busyEnd_of_room hnew hwindow hshare, Nat.add_assoc]
  case limit =>
    intro hlimit hbusy hleft
    have hunits := endRun_onlyUnits s
    exact ⟨_, runLimit_ends hholder rfl hqueue hlimit hbusy hleft, by simp, by simp [x, hholder], by simp, hunits.sameMemory, hunits.core⟩
  case complete =>
    intro hdone hbusy hlrels
    obtain ⟨hcmds, hbank, hmem⟩ := headDone_parts hlrels q qs
    have hunits := endRun_onlyUnits (headDone q qs p)
    refine ⟨_, leaseCommand_completes hholder rfl hqueue hdone hbusy, ?_⟩
    split
    next hends =>
      rw [hunits.core, arrayOf_endRun]
      refine ⟨hcmds, hbank, fun a => (hunits.sameMemory a).trans (hmem a), fun _ => rfl, fun hmore hroom hlimit => absurd hends ?_⟩
      simp only [hmore, false_or, not_or]
      exact ⟨Nat.not_le.2 hroom, Nat.not_le.2 hlimit⟩
    next hgoes =>
      rw [arrayOf_setArray]
      exact ⟨hcmds, hbank, hmem, fun hlast => absurd (.inl hlast) hgoes, fun _ _ _ => hholder⟩

/-! ### Power (R455, R456) -/

theorem leaveGrant_grants {s : State} {q : Nat × Nat} {qs : List (Nat × Nat)} (h : s.leaveQueue = q :: qs) :
    exec .evLeaveGrant s = .next (if leaveFits s q.2 then { s with leaves := s.leaves ++ [q], leaveQueue := qs } else s) := by
  have hexec : exec .evLeaveGrant s = execEvLeaveGrant s := rfl
  rw [hexec]
  unfold execEvLeaveGrant
  rw [h]
  dsimp only
  split <;> rfl

theorem powerThrottle_throttles {s : State} (h : 1000 * s.budget < s.arg.len) : exec .evPowerThrottle s =
    .next (if s.throttled then { s with power := s.arg.len, throttled := true }
      else postMgmt { s with power := s.arg.len, throttled := true } 0 7 0 [0, 0]) := if_neg (Nat.not_le.2 h)

theorem powerThrottle_idle {s : State} (h : s.arg.len ≤ 1000 * s.budget) : exec .evPowerThrottle s = .next s := if_pos h

theorem powerWithinBudget_frees {s : State} (h : s.arg.len ≤ 1000 * s.budget) :
    exec .evPowerWithinBudget s = .next { s with power := s.arg.len, throttled := false } := if_pos h

theorem powerWithinBudget_idle {s : State} (h : 1000 * s.budget < s.arg.len) : exec .evPowerWithinBudget s = .next s := if_neg (Nat.not_le.2 h)

theorem powerIsGoverned : PowerIsGoverned := by
  intro s
  refine ⟨fun q qs hq => leaveGrant_grants hq, ?throttle, ?within⟩
  case throttle =>
    rcases Nat.lt_or_ge (1000 * s.budget) s.arg.len with h | h
    · refine ⟨_, powerThrottle_throttles h, ?_⟩
      split
      · exact ⟨⟨fun _ => rfl, rfl, rfl, rfl⟩, fun _ => rfl⟩
      · exact ⟨⟨fun _ => rfl, rfl, rfl, rfl⟩, fun _ => rfl⟩
    · exact ⟨_, powerThrottle_idle h, ⟨fun _ => rfl, rfl, rfl, rfl⟩, fun hover => absurd hover (Nat.not_lt.2 h)⟩
  case within =>
    rcases Nat.lt_or_ge (1000 * s.budget) s.arg.len with h | h
    · exact ⟨_, powerWithinBudget_idle h, ⟨fun _ => rfl, rfl, rfl, rfl⟩, fun hfits => absurd hfits (Nat.not_le.2 h)⟩
    · exact ⟨_, powerWithinBudget_frees h, ⟨fun _ => rfl, rfl, rfl, rfl⟩, fun _ => rfl⟩

end Sys2Proof.Laws.LeaseArrays

namespace Sys2Proof

/-- Settles O42: each event of a run ends in one state, whose array, queue, bank and memory are read off; so does each event of the governor. -/
theorem arraysAndPower : Obligations.ArraysAndPower := ⟨Laws.LeaseArrays.arraysRunCommands, Laws.LeaseArrays.powerIsGoverned⟩

end Sys2Proof
end

section
/-!
PROOFS. What a sampler command and a word of a logit program do to the sampler of their die (R305, R309): the layer under O43, O44 and O45.
-/
namespace Sys2Proof.Laws.Sampler

open Sys2Proof.Machine

/-! ### Rows of a run's tables (R309) -/

/-- A row of `n` values that stands from token `base` on. -/
theorem look_row (base : Nat) {n i : Nat} (hi : i < n) (f : Nat → Cell) : look 0 (placeAll 0 [] base ((List.range n).map f)) (base + i) = f i := by
  rw [Records.look_placeAll, if_pos (by simpa using hi), Nat.add_sub_cancel_left]
  simp [hi]

theorem mem_slice {r : SampleRun} {k : Nat} : k ∈ r.slice ↔ ∃ i, i < r.len ∧ r.base + i = k := by
  simp [SampleRun.slice]

theorem xAt_mapX {r : SampleRun} {k : Nat} (hk : k ∈ r.slice) (f : Nat → Nat → Nat) : (mapX r f).xAt k = f k (r.xAt k) % 2 ^ 32 := by
  obtain ⟨i, hi, rfl⟩ := mem_slice.1 hk
  have hrow := look_row r.base hi (fun i => BitVec.ofNat 32 (f (r.base + i) (r.xAt (r.base + i))))
  unfold SampleRun.xAt mapX SampleRun.slice
  rw [List.map_map]
  exact (congrArg BitVec.toNat hrow).trans (BitVec.toNat_ofNat ..)

/-- The entries of a list of `n` numbers, each with its place. -/
theorem map_zipIdx_range {α : Type} (n : Nat) (f : Nat → Nat) (g : Nat × Nat → α) :
    ((List.range n).map f).zipIdx.map g = (List.range n).map (fun i => g (f i, i)) :=
  List.ext_getElem (by simp) (fun i _ _ => by simp)

/-! ### Reads without poison (R329) -/

theorem agentRead_of_samRead {s s1 : State} {d v n : Nat} {c : Cmd} {bs : List Byte} (h : samRead s d c v n = (s1, .ok bs)) :
    agentRead s (c.agent d fifoSampler) v n = (s1, .ok (bs, false)) := by
  unfold samRead at h
  split at h
  · exact absurd (congrArg Prod.snd h) (by simp)
  next t b m hread =>
    cases m with
    | true => exact absurd (congrArg Prod.snd h) (by simp)
    | false => simpa [hread] using h

/-- A row that is read without poison gives its values, none of them marked. -/
theorem samRow_of_samRead {s s1 : State} {d v w n : Nat} {c : Cmd} {bs : List Byte} (h : samRead s d c v (w * n) = (s1, .ok bs)) :
    samRow s d c v w n = (s1, .ok ((List.range n).map (fun i => recNat bs (w * i) w), [])) := by
  unfold samRow
  simp [agentRead_of_samRead h]

/-! ### Commits, runs and FIFOs -/

/-- A change of a die that leaves its FIFOs leaves every FIFO. -/
theorem fifoAt_modDie {s : State} {d : Nat} {f : Die → Die} (hf : (f (dieAt s d)).fifos = (dieAt s d).fifos) (e k : Nat) :
    fifoAt (modDie s d f) e k = fifoAt s e k := by
  refine Invalidations.fifoAt_of_fifos ?_ k
  rw [dieAt_modDie]
  split
  next he => rw [hf, he]
  · rfl

@[simp] theorem fifoAt_setRun (s : State) (d : Nat) (r : Option SampleRun) (e k : Nat) : fifoAt (setRun s d r) e k = fifoAt s e k := fifoAt_modDie rfl e k

@[simp] theorem fifoAt_setSeq (s : State) (d n : Nat) (x : SeqSlot) (e k : Nat) : fifoAt (setSeq s d n x) e k = fifoAt s e k := fifoAt_modDie rfl e k

/-- Where no commit writes are still to be made, nothing is written. -/
theorem flushCommits_none {s : State} {d : Nat} (h : (dieAt s d).commits = []) : flushCommits s d = setDie s d (dieAt s d) := by
  have hdie : ({ dieAt s d with commits := [] } : Die) = dieAt s d := by rw [← h]
  unfold flushCommits
  rw [h, List.foldl_nil]
  exact congrArg (setDie s d) hdie

/-- The element that a choice posts stands last in the sampler's results. -/
theorem fifoAt_postResult (s : State) (d k ctx : Nat) (v : Word) (t : Nat) (f : Option FaultRec) :
    fifoAt (postResult s d k ctx v t f) d k =
      { fifoAt s d k with results := (fifoAt s d k).results ++ [{ ctx := ctx, val := v, release := { time := t }, fault := f }] } := by
  unfold postResult postRes
  rw [fifoAt_setFifo, if_pos ⟨rfl, rfl⟩]

/-! ### Answers -/

/-- A command answered in a state whose FIFO is that of `s` has been answered since `s`. -/
theorem answered_since {s t : State} {d k : Nat} (h : fifoAt t d k = fifoAt s d k) (c : Cmd) (v : Word) (n : Nat) (f : Option FaultRec) :
    Answered s (answer t d k c v n f) d k c v := by
  have hf := fifoAt_answer t d k c v n f d k
  rw [if_pos ⟨rfl, rfl⟩, h] at hf
  exact ⟨congrArg Fifo.cmds hf, _, congrArg Fifo.results hf, rfl, rfl⟩

theorem seqSlots_answer (s : State) (d k : Nat) (c : Cmd) (v : Word) (t : Nat) (f : Option FaultRec) (e : Nat) :
    (dieAt (answer s d k c v t f) e).seqSlots = (dieAt s e).seqSlots := by rw [Invalidations.dieAt_answer]

theorem run_answer (s : State) (d k : Nat) (c : Cmd) (v : Word) (t : Nat) (f : Option FaultRec) (e : Nat) :
    (dieAt (answer s d k c v t f) e).run = (dieAt s e).run := by rw [Invalidations.dieAt_answer]

theorem maskCache_answer (s : State) (d k : Nat) (c : Cmd) (v : Word) (t : Nat) (f : Option FaultRec) (e : Nat) :
    (dieAt (answer s d k c v t f) e).maskCache = (dieAt s e).maskCache := by rw [Invalidations.dieAt_answer]

/-- A token element names its token in bits 63:32 (R307). -/
theorem tokenElem_token (tok logp : Nat) (forced dropped : Bool) : bits (tokenElem tok logp forced dropped) 63 32 = tok % 2 ^ 32 := by
  unfold tokenElem bits
  rw [BitVec.toNat_ofNat]
  cases forced <;> cases dropped <;> simp <;> omega

end Sys2Proof.Laws.Sampler
end

section
/-!
PROOFS. The words of a logit program (R311, R312): settles O43.
-/
namespace Sys2Proof.Laws.LogitWords

open Sys2Proof.Machine
open Sys2Proof.Laws.Sampler

/-! ### A word of a run that goes on -/

/-- Where nothing that a word reads is marked, it goes on with the run as it is. -/
theorem usingMarks_unmarked {s : State} {d : Nat} {r : SampleRun} {marks : List Nat} (hx : r.xMarks = []) (hm : marks = [])
    (go : SampleRun → State) (uses : Nat → Bool) : usingMarks s d r marks go uses = go r := by
  have hmarks : dedupNat (marks ++ r.xMarks) = r.xMarks := by rw [hx, hm]; rfl
  unfold usingMarks
  rw [if_neg (by simp [hx, hm]), hmarks]

section
variable {s : State} {r : SampleRun} (h : Sampling s r)
include h

theorem onRun_going (f : Nat → SampleRun → State) : onRun s f = .next (f s.arg.die.toNat r) := by
  unfold onRun
  simp [h.run, h.going]

theorem withTable_going {x : SeqSlot} (hx : runSlot s s.arg.die.toNat r = some x) (f : Nat → SampleRun → SeqSlot → State) :
    withTable s f = .next (f s.arg.die.toNat r x) := by
  unfold withTable
  rw [onRun_going h, hx]

/-! ### Words that change every value -/

omit h in
theorem mapX_transforms {f g : Nat → Nat → Nat} (hfg : ∀ k x, f k x = g k x) : Transformed s (wordDone s s.arg.die.toNat (mapX r f)) r g :=
  ⟨{ mapX r f with pos := r.pos + 1 }, rfl, rfl, fun k hk => (xAt_mapX hk f).trans (by rw [hfg])⟩

/-- A word of a run without poison gives every token the value `f` of its old one. -/
theorem onX_transforms {marks : SampleRun → List Nat} (hm : marks r = []) {f : SampleRun → Nat → Nat → Nat} {g : Nat → Nat → Nat}
    (hfg : ∀ k x, f r k x = g k x) (uses : SampleRun → Nat → Bool) : Completes (onX s marks f uses) (fun t => Transformed s t r g) := by
  refine ⟨_, onRun_going h _, ?_⟩
  rw [usingMarks_unmarked h.values hm]
  exact mapX_transforms hfg

theorem temp_divides {a : BitVec 4} (hpos : (finite32 (r.vAt a) && ltNum (.fin false 0 0) (f32Num (r.vAt a))) = true) :
    execLwTemp a s = .next (wordDone s s.arg.die.toNat (mapX r (fun _ x => f32Div 0 x (r.vAt a)))) := by
  unfold execLwTemp
  rw [onRun_going h]
  dsimp only
  rw [if_pos hpos, usingMarks_unmarked h.values rfl]

theorem temp_greedy {a : BitVec 4} (hlow : (finite32 (r.vAt a) && ltNum (.fin false 0 0) (f32Num (r.vAt a))) = false) :
    execLwTemp a s = .next (wordDone s s.arg.die.toNat { r with greedy := true }) := by
  unfold execLwTemp
  rw [onRun_going h]
  dsimp only
  rw [if_neg (by simp [hlow])]

theorem softmax_transforms : Completes (execLwSoftmax s) (fun t => Transformed s t r (fun k y =>
    let sup := supportOf (weights (liveVals r))
    if k ∈ r.live then match sup.find? (fun w => w.1 == k) with | some w => logProb w.2 (sumWeights sup) | none => 0xFF800000 else y)) := by
  refine ⟨_, onRun_going h _, ?_⟩
  rw [usingMarks_unmarked h.values rfl]
  exact mapX_transforms (fun k x => if_congr List.contains_iff_mem rfl rfl)

/-! ### Filters -/

/-- A word that filters the live set of a run without poison. -/
theorem filterBy_keeps (keep : SampleRun → List Nat) :
    filterBy s keep = .next (filtered s s.arg.die.toNat r false (r.live.filter (fun t => (keep r).contains t))) := by
  unfold filterBy
  rw [onRun_going h, usingMarks_unmarked h.values rfl]

theorem maskg_permitted {m : List Nat} (hm : r.permitted = some m) :
    execLwMaskg s = .next (filtered s s.arg.die.toNat r true (inLive r m)) := by
  refine (onRun_going h _).trans ?_
  split
  next hsome => rw [Option.some.inj (hm.symm.trans hsome)]
  next hnone => exact absurd (hm.symm.trans hnone) (by simp)

theorem maskg_free (hnone : r.permitted = none) : execLwMaskg s = .next (filtered s s.arg.die.toNat r true r.live) := by
  refine (onRun_going h _).trans ?_
  split
  next hsome => exact absurd (hnone.symm.trans hsome) (by simp)
  · rfl

theorem maskb_unbanned {x : SeqSlot} (hx : runSlot s s.arg.die.toNat r = some x) (hban : x.ban = 0) :
    execLwMaskb s = .next (filtered s s.arg.die.toNat r false r.live) := by
  unfold execLwMaskb
  rw [withTable_going h hx]
  simp [hban]

/-! ### Scalars and skips -/

theorem setv_sets (x : BitVec 16) (a : BitVec 4) : execLwSetv x a s = .next (wordDone s s.arg.die.toNat (setV r a (x.toNat * 65536))) := onRun_going h _

theorem setvLo_sets (x : BitVec 16) (a : BitVec 4) :
    execLwSetvLo x a s = .next (wordDone s s.arg.die.toNat (setV r a (r.vAt a / 65536 * 65536 + x.toNat))) := onRun_going h _

theorem skipWhen_skips (n : BitVec 16) (p : SampleRun → Bool) :
    skipWhen s n p = .next (setRun s s.arg.die.toNat (some { r with pos := r.pos + 1 + if p r then n.toNat else 0 })) := onRun_going h _

/-! ### Tables -/

theorem ldb_none {x : SeqSlot} (hx : runSlot s s.arg.die.toNat r = some x) (hbias : x.bias = 0) :
    execLwLdb s = .next (wordDone s s.arg.die.toNat { r with b := [], bMarks := [] }) := by
  unfold execLwLdb
  rw [withTable_going h hx]
  simp [hbias]

/-- A run whose counts are those of the bytes `bs`, with the deltas of its node (R325). -/
def counted (r : SampleRun) (bs : List Byte) : SampleRun :=
  { r with c := placeAll 0 [] r.base ((List.range r.len).map (fun i => BitVec.ofNat 32 (recNat bs (2 * i) 2 + deltas r (r.base + i)))), cMarks := [] }

theorem ldc_counts {x : SeqSlot} (hx : runSlot s s.arg.die.toNat r = some x) {s1 : State} {bs : List Byte}
    (hread : samRead s s.arg.die.toNat r.cmd (x.counts + 2 * r.base) (2 * r.len) = (s1, .ok bs)) :
    execLwLdc s = .next (wordDone s1 s.arg.die.toNat (counted r bs)) := by
  unfold execLwLdc
  rw [withTable_going h hx]
  simp only [sliceRead, samRow_of_samRead hread, List.map_nil, map_zipIdx_range]
  rfl

omit h in
theorem cAt_counted (r : SampleRun) (bs : List Byte) {i : Nat} (hi : i < r.len) :
    (counted r bs).cAt (r.base + i) = (recNat bs (2 * i) 2 + deltas r (r.base + i)) % 2 ^ 32 :=
  (congrArg BitVec.toNat (look_row r.base hi _)).trans (BitVec.toNat_ofNat ..)

/-! ### Choices (R314, R315) -/

omit h in
/-- Without a grammar a token is posted unchecked. -/
theorem postToken_free (hgram : r.grammar = none) (s : State) (d : Nat) (x : SeqSlot) (tok : Nat) (forced : Bool) (logp : Option Nat) (dropped : Bool) :
    postToken s d r x tok forced logp dropped =
      (postResult (flushCommits s d) d fifoSampler r.cmd.ctx (tokenElem tok (reported r forced logp) forced dropped) 0 none,
        .ok { r with posted := r.posted ++ [tok] }) := by
  unfold postToken
  split
  · rfl
  next hsome => exact absurd (hgram.symm.trans hsome) (by simp)

/-- The run has chosen token `c`: the commits before it are made, the token is posted and the run has ended. -/
def choiceMade (s : State) (d : Nat) (r : SampleRun) (c : Choice) : State :=
  setRun (postResult (flushCommits s d) d fifoSampler r.cmd.ctx (tokenElem c.tok (reported r false c.logp) false c.dropped) 0 none) d
    (some { r with posted := r.posted ++ [c.tok], ending := some (0, none) })

theorem argmax_chooses : execLwArgmax s = .next (choose s s.arg.die.toNat r .argmax) := onRun_going h _

theorem end_chooses : execLwEnd s = .next (choose s s.arg.die.toNat r .argmax) := onRun_going h _

theorem draw_chooses {x : SeqSlot} (hx : runSlot s s.arg.die.toNat r = some x) :
    execLwDraw s = .next (choose s s.arg.die.toNat r (if r.greedy then .argmax else .draw (uniform x.seed x.draw r.node r.stage))) := withTable_going h hx _

variable {slot : SeqSlot} (hslot : runSlot s s.arg.die.toNat r = some slot) (hgram : r.grammar = none) (hnodes : r.nodes = [])
  (hperm : r.permitted = none)
include hslot hgram hnodes hperm

theorem choose_makes {p : Pick} {c : Choice} (hc : chooseRule p r.xAt r.slice r.live r.filters r.slice = some c) :
    choose s s.arg.die.toNat r p = choiceMade s s.arg.die.toNat r c := by
  unfold choose
  rw [if_neg (by simp [h.values]), hperm, Option.getD_none, hc]
  unfold chosen
  rw [hslot]
  dsimp only
  rw [postToken_free hgram]
  exact if_pos (by rw [hnodes]; rfl)

theorem choose_posts (hcommits : (dieAt s s.arg.die.toNat).commits = []) {p : Pick} {c : Choice}
    (hc : chooseRule p r.xAt r.slice r.live r.filters r.slice = some c) {i : Instr} (hexec : exec i s = .next (choose s s.arg.die.toNat r p)) :
    Completes (exec i s) (fun t => CoresSame s t ∧
      (∃ q, (dieAt t s.arg.die.toNat).run = some q ∧ q.posted = r.posted ++ [c.tok] ∧ q.ending = some (0, none)) ∧
      ∃ e, (fifoAt t s.arg.die.toNat fifoSampler).results = (fifoAt s s.arg.die.toNat fifoSampler).results ++ [e] ∧ e.ctx = r.cmd.ctx ∧
        bits e.val 63 32 = c.tok % 2 ^ 32) := by
  rw [choose_makes h hslot hgram hnodes hperm hc, choiceMade, flushCommits_none hcommits] at hexec
  refine ⟨_, hexec, ⟨fun _ => rfl, rfl, rfl, rfl⟩, ⟨_, congrArg Die.run (dieAt_modDie_self ..), rfl, rfl⟩,
    { ctx := r.cmd.ctx, val := tokenElem c.tok (reported r false c.logp) false c.dropped, release := { time := 0 }, fault := none }, ?_, rfl,
    tokenElem_token ..⟩
  rw [fifoAt_setRun, fifoAt_postResult]
  exact congrArg (fun f => f.results ++ _) (fifoAt_modDie (f := fun x => x) rfl ..)

end

/-! ### The statements -/

theorem logitWordsTransform : LogitWordsTransform := by
  intro a b s r h v F Gives positive
  refine ⟨?bias, ?penrep, ?penfrq, ?penprs, fun hpos => ?temp, fun hlow => temp_greedy h hlow, ?clamp, ?scale⟩
  case bias => exact onX_transforms h h.biases (fun _ _ => rfl) _
  case penrep => exact onX_transforms h h.counts (fun _ _ => by simp only [beq_iff_eq]; rfl) _
  case penfrq => exact onX_transforms h h.counts (fun _ _ => rfl) _
  case penprs => exact onX_transforms h h.counts (fun _ _ => by simp only [beq_iff_eq]) _
  case temp => exact ⟨_, temp_divides h hpos, mapX_transforms (fun _ _ => rfl)⟩
  case clamp => exact onX_transforms h rfl (fun _ _ => rfl) _
  case scale => exact onX_transforms h rfl (fun _ _ => rfl) _

theorem logitWordsFilter : LogitWordsFilter := by
  intro a k s r h Keeps vals ws low
  have hall : r.live.filter (fun _ => true) = r.live := List.filter_true _
  refine ⟨fun m hm => ?permitted, fun hnone => ?free, fun x hx hban => ?ban, filterBy_keeps h _, filterBy_keeps h _, filterBy_keeps h _⟩
  case permitted => exact maskg_permitted h hm
  case free => exact (maskg_free h hnone).trans (by rw [hall]; rfl)
  case ban => exact (maskb_unbanned h hx hban).trans (by rw [hall]; rfl)

theorem logitWordsSetSkipAndChoose : LogitWordsSetSkipAndChoose := by
  intro a n x s r h d v Sets Skips
  refine ⟨setv_sets h x a, setvLo_sets h x a, skipWhen_skips h n _, ?skipZ, skipWhen_skips h n _, skipWhen_skips h n _, softmax_transforms h,
    fun slot hslot => ⟨fun hbias => ?ldb, fun s1 bs hread => ?ldc, fun hgram hnodes hperm hcommits => ?choices⟩⟩
  case skipZ => exact (skipWhen_skips h n _).trans (by simp only [Bool.beq_eq_decide_eq]; rfl)
  case ldb => exact (ldb_none h hslot hbias).trans (by rw [← h.biases]; rfl)
  case ldc =>
    exact ⟨_, ldc_counts h hslot hread, fun _ => rfl, _, congrArg Die.run (dieAt_modDie_self ..), rfl, rfl, fun i hi => cAt_counted r bs hi⟩
  case choices =>
    intro Chooses
    have hchooses {i : Instr} {p : Pick} (hexec : exec i s = .next (choose s d r p)) : Chooses i p :=
      fun c hc => choose_posts h hslot hgram hnodes hperm hcommits hc hexec
    exact ⟨hchooses (argmax_chooses h), hchooses (end_chooses h), hchooses (draw_chooses h hslot)⟩

end Sys2Proof.Laws.LogitWords

namespace Sys2Proof

/-- Settles O43: a word of a run that goes on ends in one state, whose run is the old one with the word's effect on it. -/
theorem logitWords : Obligations.LogitWords :=
  ⟨Laws.LogitWords.logitWordsTransform, Laws.LogitWords.logitWordsFilter, Laws.LogitWords.logitWordsSetSkipAndChoose⟩

end Sys2Proof
end

section
/-!
PROOFS. A read of memory for a sampler command (R147, R346) leaves the die's run and its commit writes as they are: the layer under O44.
-/
namespace Sys2Proof.Laws.SamplerReads

open Sys2Proof.Machine

/-- Of each die: the run under way, and the runs whose commit writes are still to be made. -/
def runsOf (s : State) (d : Nat) : Option SampleRun × List SampleRun := ((dieAt s d).run, (dieAt s d).commits)

theorem samplerIdle_iff {s : State} {d : Nat} : SamplerIdle s d ↔ runsOf s d = (none, []) := Prod.mk_inj.symm

theorem runsOf_of_dies {s t : State} (h : t.dies = s.dies) : runsOf t = runsOf s := by
  funext d
  rw [runsOf, runsOf, dieAt_of_dies h]

theorem runsOf_modDie (s : State) (d : Nat) {f : Die → Die} (hf : ∀ x, (f x).run = x.run ∧ (f x).commits = x.commits) :
    runsOf (modDie s d f) = runsOf s := by
  funext e
  obtain ⟨hrun, hcommits⟩ := hf (dieAt s d)
  unfold runsOf
  rw [dieAt_modDie]
  split
  next he => rw [hrun, hcommits, he]
  · rfl

theorem runsOf_onlySlices {s t : State} (h : Walks.OnlySlices s t) : runsOf t = runsOf s := by
  funext d
  unfold runsOf
  rw [h.dies]

/-! ### Translation (R137, R138) -/

theorem runsOf_failWalk (granule cause : Nat) (s : State) (a : WalkAsk) : runsOf (failWalk granule cause s a) = runsOf s := by
  unfold failWalk
  dsimp only
  split
  · exact runsOf_of_dies (Invalidations.modCoreAt_dies ..)
  · exact runsOf_modDie s _ (fun _ => ⟨rfl, rfl⟩)

theorem runsOf_walkResult (granule : Nat) (r : Except Nat TlbEntry) (s : State) (a : WalkAsk) : runsOf (walkResult granule r s a) = runsOf s := by
  unfold walkResult
  split
  · split
    · exact runsOf_of_dies (Invalidations.modCoreAt_dies ..)
    · exact runsOf_modDie s _ (fun _ => ⟨rfl, rfl⟩)
  · exact runsOf_failWalk ..
  · rfl

theorem runsOf_endWalk (s : State) (d : Nat) (root : Word) (v : Nat) (more : List WalkAsk) : runsOf (endWalk s d root v more).1 = runsOf s := by
  unfold endWalk
  refine (foldl_same (g := runsOf) (runsOf_walkResult _ _) _ _).trans (runsOf_modDie s d (fun x => ?_))
  dsimp only
  split <;> exact ⟨rfl, rfl⟩

theorem runsOf_received (s : State) (own : Option (Nat × Nat)) (p : WalkFail) : runsOf (received s own p) = runsOf s := by
  unfold received
  split
  · exact runsOf_modDie s _ (fun _ => ⟨rfl, rfl⟩)
  · rfl

/-- A shared engine translates an address: what its TLB, the walk pool and the slices note is no part of the sampler. -/
theorem runsOf_translateNow (s : State) (die k : Nat) (root : Word) (v : Nat) (want : Want) (priv : Bool) :
    runsOf (translateNow s root (some (die, k)) v want priv).1 = runsOf s := by
  have huse (t : State) (e : TlbEntry) : runsOf (modDie t die (fun x => { x with tlbs := place [] x.tlbs k (tlbAdd (look [] x.tlbs k) 64 e) })) = runsOf t :=
    runsOf_modDie t die (fun _ => ⟨rfl, rfl⟩)
  have hread (asks : List WalkAsk) : runsOf (readWords s die root v asks) = runsOf s := runsOf_onlySlices (Walks.onlySlices_readWords ..)
  have hend {asks : List WalkAsk} {u : State} {r : Except Nat TlbEntry} (h : endWalk (readWords s die root v asks) die root v asks = (u, r)) :
      runsOf u = runsOf s := ((congrArg (fun x => runsOf x.1) h).symm.trans (runsOf_endWalk ..)).trans (hread asks)
  unfold translateNow
  dsimp only
  split
  · rfl
  split
  · exact huse ..
  split
  · exact runsOf_received ..
  split
  · rfl
  split
  · exact hread _
  split
  next h => exact hend h
  next h =>
    split
    · exact (huse ..).trans (hend h)
    · exact hend h

theorem agentPage_fst (s : State) (g : Agent) (v n : Nat) (want : Want) :
    (agentPage s g v n want).1 = (translateNow s (rootOf s g.die g.ctx) (some (g.die, g.unit)) v want false).1 := by
  unfold agentPage
  split
  · simp [*]
  · simp [*]
  · split
    · simp [*]
    · split <;> simp [*]
    · simp [*]

theorem runsOf_agentPage (s : State) (g : Agent) (v n : Nat) (want : Want) : runsOf (agentPage s g v n want).1 = runsOf s := by
  rw [agentPage_fst]
  exact runsOf_translateNow ..

/-! ### Reads -/

theorem runsOf_askLines (s : State) (who : Nat) (t : TlbEntry) (pa n : Nat) : runsOf (askLines s who t pa n) = runsOf s :=
  runsOf_onlySlices (Walks.onlySlices_foldl (fun _ _ => Walks.onlySlices_askSlice ..) _ _)

theorem runsOf_sendFlits (s : State) (dst n : Nat) : runsOf (sendFlits s dst n) = runsOf s := by
  unfold sendFlits countFlits
  split
  · rfl
  · exact runsOf_modDie s _ (fun _ => ⟨rfl, rfl⟩)

theorem runsOf_renewLines (s : State) (clock pa n : Nat) : runsOf (renewLines s clock pa n) = runsOf s := by
  unfold renewLines
  refine foldl_same (g := runsOf) (fun s l => ?_) _ _
  rfl

theorem runsOf_agentRead (s : State) (g : Agent) (v n : Nat) : runsOf (agentRead s g v n).1 = runsOf s := by
  unfold agentRead
  refine foldl_same (g := fun x : State × Except FaultRec (List Byte × Bool) => runsOf x.1) (fun x p => ?_) _ _
  obtain ⟨t, _ | ⟨bs, m⟩⟩ := x
  · rfl
  have hpage := runsOf_agentPage t g p.1 p.2 { r := true }
  dsimp only
  split
  next hp => rw [← hpage, hp]
  next u e pa hp =>
    rw [hp] at hpage
    have hflits : runsOf (if classOf pa == 2 then sendFlits u (lenderOf pa) 1 else u) = runsOf u := by
      split
      · exact runsOf_sendFlits ..
      · rfl
    have hlines := (runsOf_askLines _ g.who e pa p.2).trans (hflits.trans hpage)
    dsimp only
    split
    · exact (runsOf_renewLines ..).trans hlines
    · exact hlines

theorem runsOf_samRead (s : State) (d : Nat) (c : Cmd) (v n : Nat) : runsOf (samRead s d c v n).1 = runsOf s := by
  have h := runsOf_agentRead s (c.agent d fifoSampler) v n
  unfold samRead
  split <;> simp_all

/-- A sampler that is idle is so after a read for its command. -/
theorem samplerIdle_samRead {s s1 : State} {d e v n : Nat} {c : Cmd} {r : Except Bad (List Byte)} (h : SamplerIdle s e)
    (hread : samRead s d c v n = (s1, r)) : SamplerIdle s1 e := by
  have hruns : runsOf s1 = runsOf s := (congrArg (fun x => runsOf x.1) hread).symm.trans (runsOf_samRead ..)
  rw [samplerIdle_iff] at h ⊢
  rw [hruns, h]

/-- So it is after a program has been read (R313). -/
theorem samplerIdle_readProgram {s s1 : State} {d e a n : Nat} {c : Cmd} {r : Except Bad (Option (List (BitVec 32)) × Nat)} (h : SamplerIdle s e)
    (hread : readProgram s d c a n = (s1, r)) : SamplerIdle s1 e := by
  have hstate {t : State} {q : Except Bad (Option (List (BitVec 32)) × Nat)} (ht : SamplerIdle t e) (heq : (t, q) = (s1, r)) : SamplerIdle s1 e :=
    (Prod.mk.inj heq).1 ▸ ht
  unfold readProgram at hread
  split at hread
  · exact hstate h hread
  split at hread
  · exact hstate h hread
  split at hread
  next hsam => exact hstate (samplerIdle_samRead h hsam) hread
  next hsam => exact hstate (samplerIdle_samRead h hsam) hread

end Sys2Proof.Laws.SamplerReads
end

section
/-!
PROOFS. The commands of sequence slots (R305, R306, R313, R322, R326): first part of what settles O44.
-/
namespace Sys2Proof.Laws.SlotCommands

open Sys2Proof.Machine
open Sys2Proof.Laws.Sampler Sys2Proof.Laws.SamplerReads

/-! ### How a command ends -/

/-- Command `c` has ended with element `v`, no slot has changed, and no run is under way. -/
def Ended (s t : State) (d : Nat) (c : Cmd) (v : Word) : Prop :=
  CoresSame s t ∧ Answered s t d fifoSampler c v ∧ (dieAt t d).seqSlots = (dieAt s d).seqSlots ∧ (dieAt t d).run = none

@[simp] theorem fifoAt_makeWay (s : State) (d e k : Nat) : fifoAt (makeWay s d) e k = fifoAt s e k := fifoAt_modDie rfl e k

section
variable {s : State} {d : Nat} (h : SamplerIdle s d)
include h

theorem samplerIdle_makeWay : SamplerIdle (makeWay s d) d := by
  obtain ⟨hrun, hcommits⟩ := h
  unfold makeWay
  exact ⟨by rw [dieAt_modDie_self], by rw [dieAt_modDie_self, hrun, hcommits]; rfl⟩

theorem samplerIdle_setSeq (n : Nat) (x : SeqSlot) : SamplerIdle (setSeq s d n x) d := by
  unfold setSeq SamplerIdle
  rw [dieAt_modDie_self]
  exact h

/-- An idle sampler has nothing to make way for. -/
theorem flushEarlier_idle : flushEarlier s d = setDie (makeWay s d) d (dieAt (makeWay s d) d) := flushCommits_none (samplerIdle_makeWay h).2

/-- A command of an idle sampler ends with its one element. -/
theorem answer_ended (c : Cmd) (v : Word) (f : Option FaultRec) : Ended s (answer (flushEarlier s d) d fifoSampler c v 0 f) d c v := by
  have hfifo : fifoAt (flushEarlier s d) d fifoSampler = fifoAt s d fifoSampler := by
    rw [flushEarlier_idle h]
    exact (fifoAt_modDie (f := fun x => x) rfl ..).trans (fifoAt_makeWay ..)
  have hdie : dieAt (flushEarlier s d) d = dieAt (makeWay s d) d := by rw [flushEarlier_idle h, dieAt_setDie_self]
  refine ⟨?_, answered_since hfifo .., ?_, ?_⟩
  · rw [flushEarlier_idle h]
    exact ⟨fun _ => rfl, rfl, rfl, rfl⟩
  · rw [seqSlots_answer, hdie, makeWay, dieAt_modDie_self]
  · rw [run_answer, hdie, makeWay, dieAt_modDie_self]

theorem endStatus_done (c : Cmd) (hi : Nat) : Ended s (endStatus s d c hi none) d c (statusElem hi 0) := answer_ended h ..

theorem endStatus_bad (c : Cmd) (hi n : Nat) : Ended s (endStatus s d c hi (some (bad n))) d c (statusElem hi n) := answer_ended h ..

theorem endCommit_bad (c : Cmd) (g : Option Grammar) (n : Nat) : Ended s (endCommit s d c g (bad n)) d c (commitElem 0 g n) := answer_ended h ..

/-- A command that has put `x` into slot `n` ends with its status. -/
theorem endStatus_slot (c : Cmd) (hi n : Nat) (x : SeqSlot) : let t := endStatus (setSeq s d n x) d c hi none
    SameMemory s t ∧ Answered s t d fifoSampler c (statusElem hi 0) ∧ findKey (dieAt t d).seqSlots n = some x := by
  obtain ⟨⟨hmem, -⟩, hanswered, hslots, -⟩ := endStatus_done (samplerIdle_setSeq h n x) c hi
  refine ⟨hmem, ?_, ?_⟩
  · unfold Answered at hanswered
    rwa [fifoAt_setSeq] at hanswered
  · rw [hslots, setSeq, dieAt_modDie_self]
    exact findKey_setKey_self ..

end

/-- A command that ends after way has been made for it has ended since before. -/
theorem Ended.of_makeWay {s t : State} {d : Nat} {c : Cmd} {v : Word} (h : Ended (makeWay s d) t d c v) : Ended s t d c v := by
  obtain ⟨hcores, hanswered, hslots, hrun⟩ := h
  refine ⟨hcores, ?_, ?_, hrun⟩
  · unfold Answered at hanswered
    rwa [fifoAt_makeWay] at hanswered
  · rw [hslots, makeWay, dieAt_modDie_self]

/-! ### Commands that name a slot (R305) -/

/-- The end of a malformed command of kind `k` and of one that names no slot of its context: the kinds that commit tokens end with a
commit element (R307). -/
def refusal (s : State) (d k : Nat) (c : Cmd) (n : Nat) : State :=
  if k == 3 || k == 5 || k == 6 then endCommit s d c none (bad n) else endStatus s d c 0 (some (bad n))

section
variable {s : State} {c : Cmd} {k : Nat} {ok : Cmd → Bool} {body : State → Nat → Cmd → SeqSlot → State} (hc : samplerHead s s.arg.die.toNat = some c)
  (hk : kindByte c = k)
include hc hk

theorem slotCommand_malformed (hbad : cmdNat c 1 3 ≠ 0 ∨ 1023 < handleOf c ∨ ok c = false) :
    slotCommand s k ok body = .next (refusal s s.arg.die.toNat k c 0x80) := by
  have hchecks : (cmdNat c 1 3 != 0 || decide (1023 < handleOf c) || !ok c) = true := by simpa [or_assoc] using hbad
  unfold slotCommand
  simp [hc, hk, hchecks, refusal]

variable (hreserved : cmdNat c 1 3 = 0) (hhandle : handleOf c ≤ 1023) (hok : ok c = true)
include hreserved hhandle hok

theorem slotCommand_unopened (hx : slotFor s s.arg.die.toNat (handleOf c) c.ctx = none) :
    slotCommand s k ok body = .next (refusal s s.arg.die.toNat k c 0x81) := by
  unfold slotCommand
  simp [hc, hk, hreserved, Nat.not_lt.2 hhandle, hok, hx, refusal]

theorem slotCommand_runs {x : SeqSlot} (hx : slotFor s s.arg.die.toNat (handleOf c) c.ctx = some x) :
    slotCommand s k ok body = .next (body (makeWay s s.arg.die.toNat) s.arg.die.toNat c x) := by
  unfold slotCommand
  simp [hc, hk, hreserved, Nat.not_lt.2 hhandle, hok, hx]

end

/-- A command of kind `k`, refused with status `n`, ends with the element `elem n` that its kind ends with. -/
theorem refusal_ended {s : State} {d k : Nat} {elem : Nat → Word} (h : SamplerIdle s d)
    (helem : elem = if k == 3 || k == 5 || k == 6 then commitElem 0 none else statusElem 0) (c : Cmd) (n : Nat) :
    Ended s (refusal s d k c n) d c (elem n) := by
  unfold refusal
  rw [helem]
  split
  · exact endCommit_bad h ..
  · exact endStatus_bad h ..

/-- What every kind that names a slot refuses: a malformed command, and one that names no slot of its context. -/
theorem slotCommand_refuses {s : State} {c : Cmd} {k : Nat} {ok : Cmd → Bool} {body : State → Nat → Cmd → SeqSlot → State} {i : Instr}
    {malformed : Bool} {elem : Nat → Word} (hc : samplerHead s s.arg.die.toNat = some c) (h : SamplerIdle s s.arg.die.toNat)
    (hexec : exec i s = slotCommand s k ok body) (hmalformed : malformed = true ↔ ok c = false)
    (helem : elem = if k == 3 || k == 5 || k == 6 then commitElem 0 none else statusElem 0) (hk : kindByte c = k) :
    (cmdNat c 1 3 ≠ 0 ∨ 1023 < handleOf c ∨ malformed = true → Completes (exec i s) (fun t => Ended s t s.arg.die.toNat c (elem 0x80))) ∧
    (cmdNat c 1 3 = 0 → handleOf c ≤ 1023 → malformed = false → slotFor s s.arg.die.toNat (handleOf c) c.ctx = none →
      Completes (exec i s) (fun t => Ended s t s.arg.die.toNat c (elem 0x81))) := by
  rw [hmalformed, hexec]
  refine ⟨fun hbad => ⟨_, slotCommand_malformed hc hk hbad, refusal_ended h helem ..⟩, fun hreserved hhandle hwell hx => ?_⟩
  have hok : ok c = true := by simpa [hwell] using hmalformed
  exact ⟨_, slotCommand_unopened hc hk hreserved hhandle hok hx, refusal_ended h helem ..⟩

/-- A kind-3 command is the event's of its own stage bit. -/
theorem sampleEvent_stage {s : State} {c : Cmd} {stage2 : Bool} (hc : samplerHead s s.arg.die.toNat = some c) (hstage : (cmdNat c 24 1 % 2 == 1) = stage2)
    (body : State → Nat → Cmd → SeqSlot → State) : sampleEvent stage2 s body = slotCommand s 3 sampleOk body := by
  unfold sampleEvent
  simp [hc, hstage]

theorem sample_slotCommand {s : State} {c : Cmd} (hc : samplerHead s s.arg.die.toNat = some c) :
    ∃ body, exec (if cmdNat c 24 1 % 2 = 1 then .evSampleStage2 else .evSample) s = slotCommand s 3 sampleOk body := by
  split
  next h => exact ⟨_, sampleEvent_stage hc (by simp [h]) _⟩
  next h => exact ⟨_, sampleEvent_stage hc (by simp [h]) _⟩

/-! ### OPEN (R306) -/

/-- The slot that a descriptor `bs` of no clusters and no program opens for the context of `c`. -/
def slotOpened (c : Cmd) (bs : List Byte) : SeqSlot :=
  { ctx := c.ctx, vocab := recNat bs 16 4, clusters := 0, bf16 := recNat bs 0 1 == 1, program := none
    counts := recNat bs 32 8, bias := recNat bs 40 8, ban := recNat bs 48 8, clusterTable := recNat bs 72 8
    seed := BitVec.ofNat 64 (recNat bs 56 8), draw := BitVec.ofNat 64 (recNat bs 64 8) }

section
variable {s : State} {c : Cmd} (hc : samplerHead s s.arg.die.toNat = some c)
include hc

theorem open_malformed (hkind : kindByte c = 0 ∨ 6 < kindByte c)
    (hbad : kindByte c ≠ 0 ∨ cmdNat c 1 7 ≠ 0 ∨ cmdNat c 16 48 ≠ 0 ∨ cmdNat c 8 8 % 64 ≠ 0) :
    execEvOpen s = .next (endStatus s s.arg.die.toNat c 0 (some (bad 0x80))) := by
  have hmine : (decide (1 ≤ kindByte c) && decide (kindByte c ≤ 6)) = false := by simp; omega
  have hchecks : (kindByte c != 0 || cmdNat c 1 7 != 0 || cmdNat c 16 48 != 0 || cmdNat c 8 8 % 64 != 0) = true := by simpa [or_assoc] using hbad
  unfold execEvOpen
  simp [hc, hmine, hchecks]

theorem open_opens (hkind : kindByte c = 0) (hreserved : cmdNat c 1 7 = 0) (hrest : cmdNat c 16 48 = 0) (haligned : cmdNat c 8 8 % 64 = 0)
    {s1 : State} {bs : List Byte} {k : Nat} (hread : samRead (makeWay s s.arg.die.toNat) s.arg.die.toNat c (cmdNat c 8 8) 128 = (s1, .ok bs))
    (hdesc : descOk bs = true) (hclusters : recNat bs 20 2 = 0) (hwords : recNat bs 22 2 = 0)
    (hfree : freeKey (dieAt s1 s.arg.die.toNat).seqSlots 1024 = some k) :
    execEvOpen s = .next (endStatus (setSeq s1 s.arg.die.toNat k (slotOpened c bs)) s.arg.die.toNat c k none) := by
  unfold execEvOpen
  simp [hc, hkind, hreserved, hrest, haligned, hread, hdesc, hclusters, hwords, readProgram, hfree, slotOpened]

end

/-! ### BIND, CLOSE (R306, R313) -/

/-- Slot `n` of die `d` is open no more. -/
def slotClosed (s : State) (d n : Nat) : State := modDie s d (fun y => { y with seqSlots := eraseKey y.seqSlots n })

/-- A temperature above 0 by which CLUSTER draws; by any other it takes the first in ranking order. -/
def warm (c : Cmd) : Bool := finite32 (cmdNat c 12 4) && ltNum (.fin false 0 0) (f32Num (cmdNat c 12 4))

/-- The logit of cluster `i` in the bank row that the command names, by the command's temperature. -/
def clusterScore (s : State) (c : Cmd) (i : Nat) : Nat :=
  let w := (look 0 (pusher s c).bank (256 * cmdNat c 8 1 + i)).toNat
  if warm c then f32Div 0 w (cmdNat c 12 4) else w

section
variable {s : State} {c : Cmd} {x : SeqSlot} (hc : samplerHead s s.arg.die.toNat = some c) (hreserved : cmdNat c 1 3 = 0) (hhandle : handleOf c ≤ 1023)
  (hx : slotFor s s.arg.die.toNat (handleOf c) c.ctx = some x)
include hc hreserved hhandle hx

theorem bind_binds (hkind : kindByte c = 1) (haligned : cmdNat c 8 8 % 4 = 0) (hrest : cmdNat c 18 46 = 0) {s1 : State}
    {prog : Option (List (BitVec 32))}
    (hread : readProgram (makeWay s s.arg.die.toNat) s.arg.die.toNat c (cmdNat c 8 8) (cmdNat c 16 2) = (s1, .ok (prog, 0))) :
    execEvBind s = .next (endStatus (setSeq s1 s.arg.die.toNat (handleOf c) { x with program := prog }) s.arg.die.toNat c 0 none) := by
  unfold execEvBind
  rw [slotCommand_runs hc hkind hreserved hhandle (by simp [haligned, hrest]) hx]
  simp [hread]

theorem close_closes (hkind : kindByte c = 2) (hrest : cmdNat c 8 56 = 0) :
    execEvClose s = .next (endStatus (slotClosed (makeWay s s.arg.die.toNat) s.arg.die.toNat (handleOf c)) s.arg.die.toNat c 0 none) :=
  slotCommand_runs hc hkind hreserved hhandle (by simp [hrest]) hx

omit hc hreserved hhandle hx in
theorem endStatus_closed {d : Nat} (h : SamplerIdle s d) : let t := endStatus (slotClosed (makeWay s d) d (handleOf c)) d c 0 none
    CoresSame s t ∧ Answered s t d fifoSampler c (statusElem 0 0) ∧ findKey (dieAt t d).seqSlots (handleOf c) = none := by
  have hidle : SamplerIdle (slotClosed (makeWay s d) d (handleOf c)) d := by
    unfold slotClosed SamplerIdle
    rw [dieAt_modDie_self]
    exact samplerIdle_makeWay h
  have hfifo : fifoAt (slotClosed (makeWay s d) d (handleOf c)) d fifoSampler = fifoAt s d fifoSampler := (fifoAt_modDie rfl ..).trans (fifoAt_makeWay ..)
  obtain ⟨hcores, hanswered, hslots, -⟩ := endStatus_done hidle c 0
  refine ⟨hcores, ?_, ?_⟩
  · unfold Answered at hanswered
    rwa [hfifo] at hanswered
  · rw [hslots, slotClosed, dieAt_modDie_self]
    exact findKey_eraseKey_self ..

/-! ### CLUSTER (R322) -/

section
variable (hkind : kindByte c = 4) (hgap : cmdNat c 9 3 = 0) (hrest : cmdNat c 16 48 = 0) (hfaulted : x.faulted = false)
include hkind hgap hrest hfaulted

theorem cluster_unfactored (hclusters : x.clusters = 0) :
    execEvCluster s = .next (endStatus (makeWay s s.arg.die.toNat) s.arg.die.toNat c 0 (some (bad 0x83))) := by
  unfold execEvCluster
  rw [slotCommand_runs hc hkind hreserved hhandle (by simp [hgap, hrest]) hx]
  simp [hfaulted, hclusters]

theorem cluster_draws (hclusters : x.clusters ≠ 0) (hgram : x.grammar = none) (hqueue : ∀ q ∈ (pusher s c).leaseQueue, c.stamp < q.stamp)
    {s1 : State} {cb : List Byte} (hread : samRead (makeWay s s.arg.die.toNat) s.arg.die.toNat c x.clusterTable (8 * x.clusters) = (s1, .ok cb))
    (hclean : (pusher s1 c).bankPoison = []) {ch : Choice}
    (hch : chooseRule (if warm c then .draw (uniform x.seed x.draw 0 1) else .argmax) (clusterScore s1 c) (List.range x.clusters)
      (List.range x.clusters) [] (List.range x.clusters) = some ch) :
    let p := (clustersOf cb x.clusters).getD ch.tok (0, 0)
    execEvCluster s = .next (endStatus (setSeq s1 s.arg.die.toNat (handleOf c)
      { x with pending := some (ch.tok, ch.logp.getD 0xFF800000, p.1, p.2) }) s.arg.die.toNat c ch.tok none) := by
  have hwaits : ((pusher (makeWay s s.arg.die.toNat) c).leaseQueue.any (fun q => decide (q.stamp ≤ c.stamp))) = false := by
    have hsame : pusher (makeWay s s.arg.die.toNat) c = pusher s c := rfl
    rw [hsame]
    simpa using hqueue
  have hall : ((List.range x.clusters).isEmpty) = false := by simpa using hclusters
  unfold execEvCluster
  rw [slotCommand_runs hc hkind hreserved hhandle (by simp [hgap, hrest]) hx]
  dsimp only
  rw [if_neg (by simp [hfaulted]), if_neg (by simpa using hclusters), if_neg (by simp [hwaits]), hread]
  dsimp only
  rw [hgram]
  dsimp only
  rw [List.filter_true, if_neg (by simp [hall]), if_neg (by simp [hclean])]
  split
  next hnone => exact absurd (hch.symm.trans hnone) (by simp)
  next hsome =>
    obtain rfl := Option.some.inj (hch.symm.trans hsome)
    rfl

end

/-! ### NOTE (R326) -/

omit hc hreserved hhandle hx in
/-- Without a grammar every listed token is accepted. -/
theorem noteTokens_free (hgram : x.grammar = none) (s : State) (d : Nat) (toks : List Nat) : noteTokens s d c x toks = (s, toks, none, none) := by
  induction toks using List.reverseRecOn with
  | nil => simp [noteTokens, hgram]
  | append_singleton toks t ih =>
    unfold noteTokens at ih ⊢
    rw [List.foldl_append, ih]
    rfl

omit hc hreserved hhandle hx in
theorem sameMemory_answer_setSeq (s : State) (d n k : Nat) (x : SeqSlot) (v : Word) (t : Nat) (f : Option FaultRec) :
    SameMemory s (answer (setSeq s d n x) d k c v t f) := fun _ => rfl

/-- NOTE in a slot without a grammar commits every listed token and leaves the draw index as it is. -/
theorem note_commits (hkind : kindByte c = 6) (hrest : cmdNat c 20 44 = 0) (hsome : 1 ≤ cmdNat c 16 4) (hmost : cmdNat c 16 4 ≤ 4096)
    (haligned : cmdNat c 8 8 % 4 = 0) (hfaulted : x.faulted = false) (hpending : x.pending = none) (hgram : x.grammar = none) {s1 s2 : State}
    {bs : List Byte} (hread : samRead (makeWay s s.arg.die.toNat) s.arg.die.toNat c (cmdNat c 8 8) (4 * cmdNat c 16 4) = (s1, .ok bs))
    {toks : List Nat} (htoks : (List.range (cmdNat c 16 4)).map (fun i => recNat bs (4 * i) 4) = toks) (hvocab : ∀ t ∈ toks, t < x.vocab)
    (hreach : countsReach (flushCommits s1 s.arg.die.toNat) s.arg.die.toNat c x toks = (s2, none)) :
    let b := bumpCounts s2 s.arg.die.toNat c x toks
    execEvNote s = .next (answer (setSeq b.1 s.arg.die.toNat (handleOf c) { x with grammar := none }) s.arg.die.toNat fifoSampler c
      (commitElem toks.length none 0) b.2 none) := by
  have hlisted : toks.any (fun t => decide (x.vocab ≤ t)) = false := by simpa using hvocab
  unfold execEvNote
  rw [slotCommand_runs hc hkind hreserved hhandle (by simp [hrest, hsome, hmost, haligned]) hx]
  simp [hfaulted, hpending, hread, htoks, hlisted, noteTokens_free hgram, commitTokens, commitNow, hreach, faultsSlot]

end

/-! ### The statement -/

theorem samplerSlotCommands : SamplerSlotCommands := by
  intro s c d hc h
  refine ⟨⟨fun hkind hbad => ?openBad, fun hkind => ?reserved, ?refused⟩, ?opens,
    fun hreserved hhandle x hx => ⟨?bind, ?close, ?unfactored, ?cluster, ?note⟩⟩
  case openBad => exact ⟨_, open_malformed hc (.inl hkind) (.inr hbad), endStatus_bad h ..⟩
  case reserved => exact ⟨_, open_malformed hc (.inr hkind) (.inl (by omega)), endStatus_bad h ..⟩
  case refused =>
    obtain ⟨body, hsample⟩ := sample_slotCommand hc
    simp only [List.forall_mem_cons]
    refine ⟨slotCommand_refuses hc h (show exec .evBind s = execEvBind s from rfl) ?bindFields rfl,
      slotCommand_refuses hc h (show exec .evClose s = execEvClose s from rfl) ?closeFields rfl, slotCommand_refuses hc h hsample ?sampleFields rfl,
      slotCommand_refuses hc h (show exec .evCluster s = execEvCluster s from rfl) ?clusterFields rfl,
      slotCommand_refuses hc h (show exec .evVerify s = execEvVerify s from rfl) ?verifyFields rfl,
      slotCommand_refuses hc h (show exec .evNote s = execEvNote s from rfl) ?noteFields rfl, fun _ hr => absurd hr List.not_mem_nil⟩
    case closeFields => simp
    case sampleFields =>
      simp [sampleOk]
      omega
    case bindFields | clusterFields | verifyFields | noteFields =>
      simp
      omega
  case opens =>
    intro hkind hreserved hrest haligned s1 bs k hread hdesc hclusters hwords hfree
    obtain ⟨hmem, hanswered, hslot⟩ := endStatus_slot (samplerIdle_samRead (samplerIdle_makeWay h) hread) c k k (slotOpened c bs)
    exact ⟨_, open_opens hc hkind hreserved hrest haligned hread hdesc hclusters hwords hfree, hmem, hanswered, _, hslot, rfl, rfl, rfl, rfl, rfl, rfl, rfl⟩
  case bind =>
    intro hkind haligned hrest s1 prog hread
    exact ⟨_, bind_binds hc hreserved hhandle hx hkind haligned hrest hread, endStatus_slot (samplerIdle_readProgram (samplerIdle_makeWay h) hread) ..⟩
  case close => exact fun hkind hrest => ⟨_, close_closes hc hreserved hhandle hx hkind hrest, endStatus_closed h⟩
  case unfactored =>
    intro hkind hgap hrest hfaulted hclusters
    obtain ⟨hcores, hanswered, -⟩ := (endStatus_bad (samplerIdle_makeWay h) c 0 0x83).of_makeWay
    exact ⟨_, cluster_unfactored hc hreserved hhandle hx hkind hgap hrest hfaulted hclusters, hcores, hanswered⟩
  case cluster =>
    intro hkind hgap hrest hfaulted hclusters hgram hqueue s1 cb hread hclean temp _ score all ch hch
    refine ⟨_, cluster_draws hc hreserved hhandle hx hkind hgap hrest hfaulted hclusters hgram hqueue hread hclean hch, ?_⟩
    obtain ⟨hmem, hanswered, hslot⟩ := endStatus_slot (samplerIdle_samRead (samplerIdle_makeWay h) hread) c ch.tok (handleOf c) _
    exact ⟨hmem, hanswered, _, rfl, hslot⟩
  case note =>
    intro hkind hrest hsome hmost haligned hfaulted hpending hgram s1 bs hread toks hvocab s2 hreach
    exact ⟨_, note_commits hc hreserved hhandle hx hkind hrest hsome hmost haligned hfaulted hpending hgram hread rfl hvocab hreach,
      sameMemory_answer_setSeq _ _ _ _ _ _ _ _, answered_since (fifoAt_setSeq ..) ..⟩

end Sys2Proof.Laws.SlotCommands
end

section
/-!
PROOFS. The commands of the grammar engine (R308, R321): settles O44.
-/
namespace Sys2Proof.Laws.GrammarCommands

open Sys2Proof.Machine
open Sys2Proof.Laws.Sampler Sys2Proof.Laws.SlotCommands

/-- Grammar command `c` has ended with element `v`, and neither a slot nor the mask cache has changed. -/
def Refused (s t : State) (d : Nat) (c : Cmd) (v : Word) : Prop :=
  CoresSame s t ∧ Answered s t d fifoGrammar c v ∧ (dieAt t d).seqSlots = (dieAt s d).seqSlots ∧ (dieAt t d).maskCache = (dieAt s d).maskCache

theorem endGrammar_bad (s : State) (d : Nat) (c : Cmd) (n : Nat) :
    Refused s (endGrammar s d c noLone none (some (bad n))) d c (gramResult noLone none n) :=
  ⟨Invalidations.coresSame_answer .., answered_since rfl .., seqSlots_answer .., maskCache_answer ..⟩

/-- A grammar command that has put `x` into the slot it names ends with its result. -/
theorem endGrammar_slot (s : State) (d n : Nat) (x : SeqSlot) (c : Cmd) (lone : Nat) (g : Option Grammar) :
    let t := endGrammar (setSeq s d n x) d c lone g none
    CoresSame s t ∧ Answered s t d fifoGrammar c (gramResult lone g 0) ∧ findKey (dieAt t d).seqSlots n = some x := by
  refine ⟨⟨fun _ => rfl, rfl, rfl, rfl⟩, answered_since (fifoAt_setSeq ..) .., ?_⟩
  have hslots : (dieAt (endGrammar (setSeq s d n x) d c lone g none) d).seqSlots = (dieAt (setSeq s d n x) d).seqSlots :=
    seqSlots_answer ..
  rw [hslots, setSeq, dieAt_modDie_self]
  exact findKey_setKey_self ..

/-- The reserved fields of a grammar command. -/
def Reserved (c : Cmd) : Prop := bits (wordAt c.words 0) 31 8 ≠ 0 ∨ wordAt c.words 1 ≠ 0 ∨ wordAt c.words 3 ≠ 0

theorem grammarBad_iff (c : Cmd) : grammarBad c = true ↔ 3 < kindByte c ∨ Reserved c ∨ 1023 < handleOf c := by
  simp [grammarBad, Reserved, or_assoc]

theorem not_grammarBad {c : Cmd} (hfields : ¬ Reserved c) (hkind : kindByte c ≤ 3) (hhandle : handleOf c ≤ 1023) : ¬ grammarBad c = true := by
  rw [grammarBad_iff]
  rintro (hbad | hbad | hbad)
  · omega
  · exact hfields hbad
  · omega

section
variable {s : State} {c : Cmd} {mine : Nat → Bool} {body : State → Nat → Cmd → SeqSlot → State} (hc : grammarHead s s.arg.die.toNat = some c)
include hc

theorem grammarCommand_malformed (hmine : mine (kindByte c) = true) (hbad : 3 < kindByte c ∨ Reserved c ∨ 1023 < handleOf c) :
    grammarCommand s mine body = .next (endGrammar s s.arg.die.toNat c noLone none (some (bad 0x80))) := by
  unfold grammarCommand
  simp [hc, hmine, (grammarBad_iff c).2 hbad]

theorem invalidate_malformed (hkind : kindByte c = 3) (hreserved : Reserved c) :
    execEvInvalidate s = .next (endGrammar s s.arg.die.toNat c noLone none (some (bad 0x80))) := by
  have hchecks : (bits (wordAt c.words 0) 31 8 != 0 || wordAt c.words 1 != 0 || wordAt c.words 3 != 0) = true := by
    simpa [Reserved, or_assoc] using hreserved
  unfold execEvInvalidate
  simp only [hc, hkind, hchecks]
  rfl

variable (hfields : ¬ Reserved c)
include hfields

/-- INVALIDATE takes the chunks of its header and address space out of the mask cache. -/
theorem invalidate_removes (hkind : kindByte c = 3) :
    execEvInvalidate s = .next (endGrammar (modDie s s.arg.die.toNat (fun x => { x with maskCache := x.maskCache.filter (fun m =>
      !(m.header == (wordAt c.words 2).toNat && m.asn == bits (rootOf s s.arg.die.toNat c.ctx) 63 52)) })) s.arg.die.toNat c noLone none none) := by
  have hchecks : (bits (wordAt c.words 0) 31 8 != 0 || wordAt c.words 1 != 0 || wordAt c.words 3 != 0) = false := by
    simpa [Reserved, and_assoc] using hfields
  unfold execEvInvalidate
  simp only [hc, hkind, hchecks]
  rfl

variable (hmine : mine (kindByte c) = true) (hkind : kindByte c ≤ 3) (hhandle : handleOf c ≤ 1023)
include hmine hkind hhandle

theorem grammarCommand_unopened (hx : slotFor s s.arg.die.toNat (handleOf c) c.ctx = none) :
    grammarCommand s mine body = .next (endGrammar s s.arg.die.toNat c noLone none (some (bad 0x81))) := by
  unfold grammarCommand
  simp [hc, hmine, not_grammarBad hfields hkind hhandle, hx]

theorem grammarCommand_runs {x : SeqSlot} (hx : slotFor s s.arg.die.toNat (handleOf c) c.ctx = some x) :
    grammarCommand s mine body = .next (body s s.arg.die.toNat c x) := by
  unfold grammarCommand
  simp [hc, hmine, not_grammarBad hfields hkind hhandle, hx]

end

/-- What every kind that names a slot refuses: a malformed command, and one that names no slot of its context. -/
theorem grammarCommand_refuses {s : State} {c : Cmd} {mine : Nat → Bool} {body : State → Nat → Cmd → SeqSlot → State} {i : Instr}
    (hc : grammarHead s s.arg.die.toNat = some c) (hexec : exec i s = grammarCommand s mine body) (hmine : mine (kindByte c) = true)
    (hkind : kindByte c ≤ 3) :
    (Reserved c ∨ 1023 < handleOf c → Completes (exec i s) (fun t => Refused s t s.arg.die.toNat c (gramResult noLone none 0x80))) ∧
    (¬ Reserved c → handleOf c ≤ 1023 → slotFor s s.arg.die.toNat (handleOf c) c.ctx = none →
      Completes (exec i s) (fun t => Refused s t s.arg.die.toNat c (gramResult noLone none 0x81))) := by
  rw [hexec]
  exact ⟨fun hbad => ⟨_, grammarCommand_malformed hc hmine (.inr hbad), endGrammar_bad ..⟩,
    fun hfields hhandle hx => ⟨_, grammarCommand_unopened hc hfields hmine hkind hhandle hx, endGrammar_bad ..⟩⟩

/-! ### BIND, UNBIND, QUERY (R321) -/

section
variable {s : State} {c : Cmd} {x : SeqSlot} (hc : grammarHead s s.arg.die.toNat = some c) (hfields : ¬ Reserved c) (hhandle : handleOf c ≤ 1023)
  (hx : slotFor s s.arg.die.toNat (handleOf c) c.ctx = some x)
include hc hfields hhandle hx

theorem grammarBind_binds (hkind : kindByte c = 0) {s1 : State} {h : GramHdr}
    (hread : readGram s (c.agent s.arg.die.toNat fifoGrammar) (wordAt c.words 2).toNat x.vocab = (s1, .ok h)) :
    let g : Grammar := { header := (wordAt c.words 2).toNat, st := h.start, stack := [] }
    execEvGrammarBind s = .next (endGrammar (setSeq s1 s.arg.die.toNat (handleOf c) { x with grammar := some g, faulted := false }) s.arg.die.toNat c
      noLone (some g) none) := by
  unfold execEvGrammarBind
  rw [grammarCommand_runs hc hfields (by simp [hkind]) (by omega) hhandle hx]
  simp only [hread]

theorem unbind_unbinds (hkind : kindByte c = 1) : execEvUnbind s =
    .next (endGrammar (setSeq s s.arg.die.toNat (handleOf c) { x with grammar := none, faulted := false }) s.arg.die.toNat c noLone none none) :=
  grammarCommand_runs hc hfields (by simp [hkind]) (by omega) hhandle hx

theorem query_unbound (hkind : kindByte c = 2) (hgram : x.grammar = none) :
    execEvQuery s = .next (endGrammar s s.arg.die.toNat c noLone none none) := by
  unfold execEvQuery
  rw [grammarCommand_runs hc hfields (by simp [hkind]) (by omega) hhandle hx]
  simp only [hgram]

end

/-! ### The statement -/

theorem grammarCommands : GrammarCommands := by
  intro s c d hc hd reserved Refuses
  refine ⟨?refused, ?reservedKind,
    fun hkind hreserved => ⟨_, invalidate_malformed hc hkind hreserved, endGrammar_bad ..⟩,
    fun hfields => ⟨fun hhandle x hx => ⟨?bind, ?unbind, ?query⟩, ?invalidate⟩⟩
  case refused =>
    simp only [List.forall_mem_cons]
    refine ⟨fun hk => grammarCommand_refuses hc (show exec .evGrammarBind s = execEvGrammarBind s from rfl) ?_ ?_,
      fun hk => grammarCommand_refuses hc (show exec .evUnbind s = execEvUnbind s from rfl) ?_ ?_,
      fun hk => grammarCommand_refuses hc (show exec .evQuery s = execEvQuery s from rfl) ?_ ?_, fun _ hr => absurd hr List.not_mem_nil⟩
    all_goals simp [hk]
  case reservedKind =>
    intro hkind
    have hmalformed : execEvGrammarBind s = .next (endGrammar s d c noLone none (some (bad 0x80))) :=
      grammarCommand_malformed hc (by simp; omega) (.inl hkind)
    exact ⟨_, hmalformed, endGrammar_bad ..⟩
  case bind =>
    intro hkind s1 h hread
    obtain ⟨⟨hmem, -⟩, hanswered, hslot⟩ := endGrammar_slot s1 d (handleOf c) _ c noLone _
    exact ⟨_, grammarBind_binds hc hfields hhandle hx hkind hread, hmem, hanswered, hslot⟩
  case unbind => exact fun hkind => ⟨_, unbind_unbinds hc hfields hhandle hx hkind, endGrammar_slot ..⟩
  case query =>
    exact fun hkind hgram => ⟨_, query_unbound hc hfields hhandle hx hkind hgram, Invalidations.coresSame_answer .., answered_since rfl ..⟩
  case invalidate =>
    intro hkind
    refine ⟨_, invalidate_removes hc hfields hkind, ⟨fun _ => rfl, rfl, rfl, rfl⟩, answered_since (fifoAt_modDie rfl ..) .., ?_⟩
    exact (maskCache_answer ..).trans (congrArg Die.maskCache (dieAt_modDie_self ..))

end Sys2Proof.Laws.GrammarCommands

namespace Sys2Proof

/-- Settles O44: each command ends in one state, a refusal or what it does to its slot, from which its element is read off. -/
theorem slotsAndGrammars : Obligations.SlotsAndGrammars := ⟨Laws.SlotCommands.samplerSlotCommands, Laws.GrammarCommands.grammarCommands⟩

end Sys2Proof
end

section
/-!
PROOFS. SAMPLE, its stage 2 and VERIFY begin a run (R309, R319, R323 to R325): settles O45.
-/
namespace Sys2Proof.Laws.SampleRuns

open Sys2Proof.Machine
open Sys2Proof.Laws.Sampler Sys2Proof.Laws.SlotCommands

/-! ### The row of logits (R309) -/

/-- Bytes of an element of a row of logits. -/
def logitBytes (x : SeqSlot) : Nat := if x.bf16 then 2 else 4

/-- The value of element `i` of a row of logits `bs`. -/
def logitAt (x : SeqSlot) (bs : List Byte) (i : Nat) : Nat :=
  if x.bf16 then f32OfBf16 (recNat bs (logitBytes x * i) (logitBytes x)) else recNat bs (logitBytes x * i) (logitBytes x)

/-- The run of command `c` on a slot without a grammar, with the row `bs` of its slice loaded. -/
def runBegun (c : Cmd) (x : SeqSlot) (base len stage : Nat) (nodes : List (Nat × Nat × Nat × Nat × Nat)) (clusterLog : Option Nat) (bs : List Byte) :
    SampleRun :=
  { emptyRun c x base len stage nodes clusterLog with
    x := placeAll 0 [] base ((List.range len).map (fun i => BitVec.ofNat 32 (logitAt x bs i)))
    live := (List.range len).map (fun i => base + i) }

/-- Die `d` runs command `c` over a slice of `len` tokens from `base` on, every one of them live, with the row `bs` loaded, at the program's
first word. -/
def Begun (t : State) (d : Nat) (c : Cmd) (x : SeqSlot) (base len stage : Nat) (bs : List Byte) : Prop :=
  ∃ r, (dieAt t d).run = some r ∧ r.cmd = c ∧ r.base = base ∧ r.len = len ∧ r.stage = stage ∧ r.ending = none ∧ r.pos = 0 ∧ r.greedy = false ∧
    r.filters = [] ∧ r.posted = [] ∧ r.live = (List.range len).map (fun i => base + i) ∧ ∀ i, i < len → r.xAt (base + i) = logitAt x bs i % 2 ^ 32

theorem xAt_runBegun (c : Cmd) (x : SeqSlot) (base : Nat) {len i : Nat} (stage : Nat) (nodes : List (Nat × Nat × Nat × Nat × Nat)) (clusterLog : Option Nat)
    (bs : List Byte) (hi : i < len) : (runBegun c x base len stage nodes clusterLog bs).xAt (base + i) = logitAt x bs i % 2 ^ 32 :=
  (congrArg BitVec.toNat (look_row base hi _)).trans (BitVec.toNat_ofNat ..)

theorem begun_setRun (s : State) (d : Nat) (c : Cmd) (x : SeqSlot) (base len stage : Nat) (nodes : List (Nat × Nat × Nat × Nat × Nat))
    (clusterLog : Option Nat) (bs : List Byte) : let t := setRun s d (some (runBegun c x base len stage nodes clusterLog bs))
    SameMemory s t ∧ Begun t d c x base len stage bs :=
  ⟨fun _ => rfl, _, congrArg Die.run (dieAt_modDie_self ..), rfl, rfl, rfl, rfl, rfl, rfl, rfl, rfl, rfl, rfl,
    fun _ hi => xAt_runBegun c x base stage nodes clusterLog bs hi⟩

section
variable {s s1 : State} {d row base len stage : Nat} {c : Cmd} {x : SeqSlot} {nodes : List (Nat × Nat × Nat × Nat × Nat)} {clusterLog : Option Nat}
  {bs : List Byte}

/-- Without a grammar, a slice of more than one token leaves the choice to the program. -/
theorem beginChoice_free (hgram : x.grammar = none) (hlen : len ≠ 1) :
    beginChoice s d (emptyRun c x base len stage nodes clusterLog) x = (s, .ok (emptyRun c x base len stage nodes clusterLog, none)) := by
  simp [beginChoice, emptyRun, hgram, hlen]

variable (hread : samRead s d c row (logitBytes x * len) = (s1, .ok bs))
include hread

theorem startProgram_begins : startProgram s d (emptyRun c x base len stage nodes clusterLog) x.bf16 row =
    setRun s1 d (some (runBegun c x base len stage nodes clusterLog bs)) := by
  have hrow := samRow_of_samRead hread
  unfold logitBytes at hrow
  unfold startProgram emptyRun
  dsimp only
  rw [hrow]
  dsimp only
  rw [List.map_map]
  rfl

theorem startSample_begins (hgram : x.grammar = none) (hlen : len ≠ 1) : startSample s d (emptyRun c x base len stage nodes clusterLog) x row =
    setRun s1 d (some (runBegun c x base len stage nodes clusterLog bs)) := by
  unfold startSample
  rw [beginChoice_free hgram hlen]
  exact startProgram_begins hread

end

/-! ### The root of a tree (R324, R325) -/

/-- The root's row is the first eight bytes of the table. -/
theorem rowOfNode_root (c : Cmd) (x : SeqSlot) (base len stage : Nat) (clusterLog : Option Nat) (table : List Byte) {n : Nat} (hn : 2 ≤ n) :
    rowOfNode (emptyRun c x base len stage (nodesOf table n) clusterLog) 0 = recNat table 0 8 := by
  have hpos : 0 < n := by omega
  simp [rowOfNode, nodeAt, emptyRun, nodesOf, hpos]

/-- A walk whose root has a row begins with the program over that row. -/
theorem walkTree_begins {s s1 : State} {d base len stage n : Nat} {c : Cmd} {x : SeqSlot} {clusterLog : Option Nat} {table bs : List Byte}
    (hgram : x.grammar = none) (hlen : len ≠ 1) (hn : 2 ≤ n) (hroot : recNat table 0 8 ≠ 0)
    (hread : samRead s d c (recNat table 0 8) (logitBytes x * len) = (s1, .ok bs)) (f : Nat) :
    walkTree (f + 1) s d (emptyRun c x base len stage (nodesOf table n) clusterLog) x =
      setRun s1 d (some (runBegun c x base len stage (nodesOf table n) clusterLog bs)) := by
  have hrow : rowOfNode (emptyRun c x base len stage (nodesOf table n) clusterLog) (emptyRun c x base len stage (nodesOf table n) clusterLog).node =
      recNat table 0 8 := rowOfNode_root c x base len stage clusterLog table hn
  unfold walkTree
  rw [hrow, if_neg (by simpa using hroot), beginChoice_free hgram hlen]
  dsimp only
  rw [hrow]
  exact startProgram_begins hread

/-! ### SAMPLE (R319, R323) -/

section
variable {s : State} {c : Cmd} {x : SeqSlot} (hc : samplerHead s s.arg.die.toNat = some c) (hreserved : cmdNat c 1 3 = 0) (hhandle : handleOf c ≤ 1023)
  (hx : slotFor s s.arg.die.toNat (handleOf c) c.ctx = some x)
include hc hreserved hhandle hx

section
variable (hkind : kindByte c = 3) (hrest : cmdNat c 25 39 = 0) (hlen : cmdNat c 20 4 ≠ 0) (haligned : cmdNat c 8 8 % 64 = 0)
include hkind hrest hlen haligned

/-- A well-formed kind-3 command of an open slot comes to the body of its stage. -/
theorem sampleEvent_runs {stage : Nat} (hstage : cmdNat c 24 1 = stage) (hlow : stage ≤ 1) (body : State → Nat → Cmd → SeqSlot → State) :
    sampleEvent (stage == 1) s body = .next (body (makeWay s s.arg.die.toNat) s.arg.die.toNat c x) := by
  have hok : sampleOk c = true := by
    have hbits : cmdNat c 24 1 < 2 := by omega
    simp [sampleOk, hrest, hbits, hlen, haligned]
  rw [sampleEvent_stage hc (by rw [hstage, Nat.mod_eq_of_lt (by omega)]) body]
  exact slotCommand_runs hc hkind hreserved hhandle hok hx

omit hc hreserved hhandle hx hkind hrest hlen haligned in
/-- A slice within the vocabulary of a slot that is not faulted is not refused. -/
theorem sampleRefused_none (hslice : cmdNat c 16 4 + cmdNat c 20 4 ≤ x.vocab) (hfaulted : x.faulted = false) : sampleRefused c x = none := by
  simp [sampleRefused, Nat.not_lt.2 hslice, hfaulted]

/-- A slice or a slot that SAMPLE refuses, at either stage. -/
theorem sample_refused {n : Nat} (hstage : cmdNat c 24 1 ≤ 1) (hrefused : sampleRefused c x = some n) :
    exec (if cmdNat c 24 1 = 1 then .evSampleStage2 else .evSample) s =
      .next (endCommit (makeWay s s.arg.die.toNat) s.arg.die.toNat c x.grammar (bad n)) := by
  split
  next h =>
    have hruns : execEvSampleStage2 s = _ := sampleEvent_runs hc hreserved hhandle hx hkind hrest hlen haligned h le_rfl _
    refine hruns.trans ?_
    simp only [hrefused]
  next h =>
    have hruns : execEvSample s = _ := sampleEvent_runs hc hreserved hhandle hx hkind hrest hlen haligned (by omega) (Nat.zero_le 1) _
    refine hruns.trans ?_
    simp only [hrefused]

variable (hslice : cmdNat c 16 4 + cmdNat c 20 4 ≤ x.vocab) (hfaulted : x.faulted = false) (hgram : x.grammar = none) (hmany : cmdNat c 20 4 ≠ 1)
include hslice hfaulted hgram hmany

theorem sample_begins (hstage : cmdNat c 24 1 = 0) (hpending : x.pending = none) {s1 : State} {bs : List Byte}
    (hread : samRead (makeWay s s.arg.die.toNat) s.arg.die.toNat c (cmdNat c 8 8) (logitBytes x * cmdNat c 20 4) = (s1, .ok bs)) :
    execEvSample s = .next (setRun s1 s.arg.die.toNat (some (runBegun c x (cmdNat c 16 4) (cmdNat c 20 4) 0 [] none bs))) := by
  refine (sampleEvent_runs hc hreserved hhandle hx hkind hrest hlen haligned hstage (Nat.zero_le 1) _).trans ?_
  simp only [sampleRefused_none hslice hfaulted, hpending, startSample_begins hread hgram hmany]
  rfl

/-- Stage 2 of the pending cluster's slice takes the pending cluster from the slot. -/
theorem sampleStage2_begins (hstage : cmdNat c 24 1 = 1) {k lp : Nat} (hpending : x.pending = some (k, lp, cmdNat c 16 4, cmdNat c 20 4)) {s1 : State}
    {bs : List Byte} (hread : samRead (setSeq (makeWay s s.arg.die.toNat) s.arg.die.toNat (handleOf c) { x with pending := none }) s.arg.die.toNat c
      (cmdNat c 8 8) (logitBytes x * cmdNat c 20 4) = (s1, .ok bs)) :
    execEvSampleStage2 s = .next (setRun s1 s.arg.die.toNat
      (some (runBegun c { x with pending := none } (cmdNat c 16 4) (cmdNat c 20 4) 2 [] (some lp) bs))) := by
  refine (sampleEvent_runs hc hreserved hhandle hx hkind hrest hlen haligned hstage le_rfl _).trans ?_
  have hstart := startSample_begins (x := { x with pending := none }) (base := cmdNat c 16 4) (stage := 2) (nodes := [])
    (clusterLog := some lp) hread hgram hmany
  simp only [sampleRefused_none hslice hfaulted, hpending, bne_self_eq_false, Bool.or_false, Bool.false_eq_true, if_false, hstart]

end

/-! ### VERIFY (R324, R325) -/

theorem verify_begins (hkind : kindByte c = 5) (hrest : cmdNat c 17 47 = 0) (hleast : 2 ≤ cmdNat c 16 1) (hmost : cmdNat c 16 1 ≤ 64)
    (haligned : cmdNat c 8 8 % 32 = 0) (hfaulted : x.faulted = false) (hpending : x.pending = none) (hclusters : x.clusters = 0)
    (hgram : x.grammar = none) (hmany : x.vocab ≠ 1) {s1 s2 : State} {bs ls : List Byte}
    (htable : samRead (makeWay s s.arg.die.toNat) s.arg.die.toNat c (cmdNat c 8 8) (32 * cmdNat c 16 1) = (s1, .ok bs))
    (hnodes : nodesOk bs (cmdNat c 16 1) x.vocab = true) (hroot : recNat bs 0 8 ≠ 0)
    (hread : samRead s1 s.arg.die.toNat c (recNat bs 0 8) (logitBytes x * x.vocab) = (s2, .ok ls)) :
    execEvVerify s = .next (setRun s2 s.arg.die.toNat (some (runBegun c x 0 x.vocab 0 (nodesOf bs (cmdNat c 16 1)) none ls))) := by
  unfold execEvVerify
  rw [slotCommand_runs hc hkind hreserved hhandle (by simp [hrest, hleast, hmost, haligned]) hx]
  simp only [hfaulted, hpending, hclusters, htable, hnodes, Option.isSome_none, bne_self_eq_false, Bool.not_true, Bool.false_eq_true, if_false,
    walkTree_begins hgram hmany hleast hroot hread]

end

/-! ### The statement -/

theorem runsBegin : Obligations.SampleRunsBegin := by
  intro s c x d hc h hreserved hhandle hx first n Begun w
  have hrefuses {n : Nat} := (endCommit_bad (samplerIdle_makeWay h) c x.grammar n).of_makeWay
  refine ⟨fun hkind hrest hstage hlen haligned hslice => ?beyond,
    fun hkind hrest hlen haligned hslice => ⟨fun hstage hfaulted => ?faulted, ?first, ?second⟩, ?verify⟩
  case beyond =>
    obtain ⟨hcores, hanswered, -, hrun⟩ := hrefuses
    exact ⟨_, sample_refused hc hreserved hhandle hx hkind hrest hlen haligned hstage (if_pos hslice), hcores, hanswered, hrun⟩
  case faulted =>
    obtain ⟨hcores, hanswered, -, hrun⟩ := hrefuses
    have hrefused : sampleRefused c x = some 0x93 := by rw [sampleRefused, if_neg (Nat.not_lt.2 hslice), if_pos hfaulted]
    have hexec := sample_refused hc hreserved hhandle hx hkind hrest hlen haligned (by omega) hrefused
    rw [hstage] at hexec
    exact ⟨_, hexec, hcores, hanswered, hrun⟩
  case first =>
    intro hstage hfaulted hpending hgram hmany s1 bs hread
    exact ⟨_, sample_begins hc hreserved hhandle hx hkind hrest hlen haligned hslice hfaulted hgram hmany hstage hpending hread, begun_setRun ..⟩
  case second =>
    intro hstage hfaulted hgram hmany k lp hpending s1 bs hread
    exact ⟨_, sampleStage2_begins hc hreserved hhandle hx hkind hrest hlen haligned hslice hfaulted hgram hmany hstage hpending hread, begun_setRun ..⟩
  case verify =>
    intro hkind hrest hleast hmost haligned hfaulted hpending hclusters hgram hmany s1 bs htable hnodes hroot s2 ls hread
    exact ⟨_, verify_begins hc hreserved hhandle hx hkind hrest hleast hmost haligned hfaulted hpending hclusters hgram hmany htable hnodes hroot hread,
      begun_setRun ..⟩

end Sys2Proof.Laws.SampleRuns

namespace Sys2Proof

/-- Settles O45: each command that is admitted ends in the state whose run has its row loaded, and each refused one in its answer. -/
theorem sampleRunsBegin : Obligations.SampleRunsBegin := Laws.SampleRuns.runsBegin

end Sys2Proof
end
